-- ==== Sys2Proof/Word.lean ====
section
/-! DEFINITION. The block's word types (R6, R12, R159): a byte, a 64-bit register word, a 128-bit berth instruction word. -/

namespace Sys2Proof

/-- One byte (R6). -/
abbrev Byte := BitVec 8

/-- One 64-bit control-space register or berth scalar register (R12, R122). -/
abbrev Word := BitVec 64

/-- One 16-byte berth instruction, bit 0 the least significant bit of the lowest byte (R159). -/
abbrev IWord := BitVec 128

/-- A sparse table: pairs of an index and an entry, indices strictly rising. -/
abbrev Table (α : Type) := List (Nat × α)

end Sys2Proof
end

