-- ==== Sys2Proof/Syntax/Records.lean ====
section
/-! DEFINITION. The records the commands carry, as the manual lays them out.
Numbers that the manual only names or counts (units, indices, lengths, times) are Nat; what software sees as bits is BitVec. -/

namespace Sys2Proof

/-- Who makes a register access (R14): the Harbourmaster or a general core in the control space, the host in BAR0 (R18). -/
inductive Agent where
  | host
  | harbourmaster
  | core (g : Nat)
  deriving DecidableEq, Repr

/-- The 16-byte command header (R273). -/
structure CmdHdr where
  irq : Bool
  ext : Bool
  noReplay : Bool
  nbuf : Nat
  ctx : Nat
  tag : Nat
  /-- BUFS: virtual address of the buffer list -/
  bufsVa : Nat
  deriving DecidableEq, Repr

/-- The sync extension (R274): a wait or a signal is a fence and a value. -/
structure SyncExt where
  wait0 : Option (Nat × Nat)
  wait1 : Option (Nat × Nat)
  sig : Option (Nat × Nat)
  deriving DecidableEq, Repr

/-- One buffer-list entry (R275). PERM bits beyond [1:0] are reserved and ignored (R7). -/
structure Buf where
  va : Nat
  len : Nat
  read : Bool
  write : Bool
  deriving DecidableEq, Repr

/-- What Quay read for one fetched command: its header, its extension, whether every list it names could be read (R282 step 5), its buffer list. -/
structure Fetched where
  hdr : CmdHdr
  sync : SyncExt
  readable : Bool
  bufs : List Buf
  deriving DecidableEq, Repr

/-- The 64-byte program-image header (R279). -/
structure ImageHdr where
  ilen : Nat
  codeOff : Nat
  codeLen : Nat
  wcOff : Nat
  restOff : Nat
  restN : Nat
  deriving DecidableEq, Repr

/-- A worst-case record (R138). -/
structure WcRec where
  cT : Nat
  cS : Nat
  bDram : Nat
  nDram : Nat
  nHold : Nat
  bHold : Nat
  tDecl : Nat
  unbounded : Bool
  deriving DecidableEq, Repr

/-- One moor-distance entry (R140): a region's first offset and the counts to the next moor. -/
structure MoorEntry where
  off : Nat
  cT : Nat
  cS : Nat
  nDram : Nat
  bDram : Nat
  deriving DecidableEq, Repr

/-- The TENSOR body and what its image holds (R276, R279, R138, R140). -/
structure TensorBody where
  prog : Nat
  args : List Word
  streams : Nat
  img : ImageHdr
  wc : WcRec
  moors : List MoorEntry
  /-- MOOR_OFF: offset of the moor-distance table in the image (R138) -/
  moorOff : Nat
  /-- ARGS: virtual address of the argument block, or 0 -/
  argsVa : Nat
  deriving DecidableEq, Repr

/-- The argument words a stream reads: all zeros where ARGS is 0 (R276). -/
def TensorBody.argWords (t : TensorBody) : List Word := if t.argsVa = 0 then [] else t.args

/-- One copy-list entry (R277). -/
structure CopyEntry where
  srcBuf : Nat
  dstBuf : Nat
  srcOff : Nat
  dstOff : Nat
  len : Nat
  deriving DecidableEq, Repr

/-- The MOVE body and its copy list (R276, R277). -/
structure MoveBody where
  copies : List CopyEntry
  digest : Bool
  holdDst : Bool
  digBuf : Nat
  doutBuf : Nat
  hold : Nat
  doutOff : Nat
  /-- LIST: virtual address of the copy list -/
  listVa : Nat
  deriving DecidableEq, Repr

/-- The GENERAL body (R276, R278). -/
structure GeneralBody where
  entry : Nat
  args : Nat
  limit : Nat
  stack : Nat
  deriving DecidableEq, Repr

/-- The FERRY body (R276). -/
structure FerryBody where
  group : Nat
  op : Nat
  mode : Nat
  format : Nat
  root : Nat
  srcBuf : Nat
  dstBuf : Nat
  srcOff : Nat
  dstOff : Nat
  len : Nat
  deriving DecidableEq, Repr

/-- The SERVE body's COUNT, SEQ, ARG0 and ARG1 (R235). -/
structure ServeBody where
  count : Nat
  seq : Nat
  arg0 : Word
  arg1 : Word
  deriving DecidableEq, Repr

/-- The guest-written fields of a sequence descriptor (R230). -/
structure SeqDesc where
  model : Nat
  be : Bool
  fallbackOk : Bool
  skip : Bool
  schedule : Bool
  seqKey : Word
  guestTag : Word
  seed : Word
  limit : Nat
  topK : Nat
  temp : BitVec 32
  topP : BitVec 32
  deadline : Nat
  period : Nat
  ptOff : Nat
  ptCap : Nat
  stopN : Nat
  promptLen : Nat
  stop : List Nat
  ioOff : Nat
  deriving DecidableEq, Repr

/-- The body of a held command, by class (R266, R276); `serve` carries the SOP and the descriptors or words of buffer 0 (R236), and `list` is a Manifest list's job (R249). -/
inductive Body where
  | tensor (b : TensorBody)
  | move (b : MoveBody)
  | general (b : GeneralBody)
  | ferry (b : FerryBody)
  | lighter (n : Nat) (data : List Byte)
  | serve (sop : Nat) (b : ServeBody) (descs : List SeqDesc) (words : List Nat)
  | list (p id : Nat)
  deriving DecidableEq, Repr

/-- The QUEUE_CREATE body (R297). -/
structure QueueBody where
  k : Nat
  cls : Nat
  standing : Bool
  lc : Bool
  bind : Nat
  vector : Option Nat
  sqVa : Nat
  cqVa : Nat
  n : Nat
  m : Nat
  depth : Nat
  moderate : Nat
  rate : Nat
  /-- STANDING_VA -/
  standingVa : Nat
  deriving DecidableEq, Repr

/-- Which unit JOB_DISPATCH serves (R337, R341, R410, R63): a partition's berths, a general core, Ferry for a partition, a Lighter port. -/
inductive DispatchUnit where
  | berths (p : Nat)
  | core (g : Nat)
  | ferry (p : Nat)
  | lighter (n : Nat)
  deriving DecidableEq, Repr

/-- A holder of stamps (R314). -/
inductive Holder where
  | engine (b e : Nat)
  | lighter (n : Nat)
  | core (g : Nat)
  | ferry
  | hold
  | quay
  | manifest
  deriving DecidableEq, Repr

/-- One translation of an ATS Translation Completion (R310): the bytes it covers (its S field), the translated address, R and W. -/
structure Trans where
  bytes : Nat
  phys : Nat
  read : Bool
  write : Bool
  deriving DecidableEq, Repr

/-- What an ATS Translation Completion carries (R310, R311): translations in ascending order, the first one covering the requested address. -/
inductive AtsResult where
  | pages (l : List Trans)
  | untrans
  | fail
  deriving DecidableEq, Repr

/-- The logit record of a sequence's step (R258): candidates of a token and an FP32 logit. -/
structure StepOut where
  seq : Nat
  cands : List (Nat × BitVec 32)
  deriving DecidableEq, Repr

/-- What Manifest reads of a slice's serving area and free ring before a build (R239, R241). -/
structure ServeReads where
  slice : Nat
  consumed : Nat
  free : List Nat
  deriving DecidableEq, Repr

/-- The 64-byte model record (R232). -/
structure ModelRec where
  owner : Nat
  share : Option Nat
  fallback : Option Nat
  /-- KIND: 0 TOKEN, 1 DENOISE, any other out of range -/
  kind : Nat
  detSafe : Bool
  inHold : Bool
  weights : Nat
  wlen : Nat
  progPrefill : Nat
  progStep : Nat
  maxSeq : Nat
  streams : Nat
  tokenBudget : Nat
  tpp : Nat
  ppc : Nat
  items : Nat
  noise : Nat
  deriving DecidableEq, Repr

/-- A model of KIND 1 is a DENOISE model. -/
def ModelRec.denoise (r : ModelRec) : Bool := r.kind == 1

/-- A Manifest program's image header, its three worst-case records, its rest table (R233) and its moor-distance table (R140). -/
structure ModelProg where
  img : ImageHdr
  base : WcRec
  perSeq : WcRec
  perToken : WcRec
  rest : List (Nat × WcRec)
  moors : List MoorEntry
  /-- MOOR_OFF of its record BASE (R138) -/
  moorOff : Nat
  deriving DecidableEq, Repr

/-- The 64-byte slice record (R330). -/
structure SliceRec where
  slice : Nat
  partition : Nat
  weight : Nat
  pasid : Nat
  adminSq : Nat
  adminCq : Nat
  adminN : Nat
  adminM : Nat
  msixBase : Nat
  msixCount : Nat
  qContexts : Nat
  qInflight : Nat
  qFences : Nat
  qQueues : Nat
  stampQuota : Nat
  serveQuota : Nat
  granFirst : Nat
  granCount : Nat
  deriving DecidableEq, Repr

/-- One queue of an export image (R352): its creation body, a standing queue's command, the positions of its two rings. -/
structure ImageQueue where
  body : QueueBody
  held : Option (Fetched × Body)
  head : Nat
  tail : Nat
  cqHead : Nat
  cqTail : Nat
  deriving DecidableEq, Repr

/-- One fence of an export image (R352): number, owner context, value, rights (slice, wait, signal), mirror. -/
structure ImageFence where
  num : Nat
  owner : Nat
  value : Nat
  broken : Bool
  rights : List (Nat × Bool × Bool)
  mirror : Option Nat
  deriving DecidableEq, Repr

/-- One Manifest entry of an export image (R230, R352). -/
structure ImageSeq where
  num : Nat
  g : SeqDesc
  phase : Nat
  onFallback : Bool
  position : Nat
  pending : Nat
  parkReason : Nat
  resumePhase : Nat
  fbPos : Nat
  kvPos : Nat
  pages : List Nat
  fbPages : List Nat
  deriving DecidableEq, Repr

end Sys2Proof

namespace Sys2Proof.Machine

open Sys2Proof

/-! ### What a save slot holds, and an open ARM: state of the block that an export image carries -/

/-- An accumulator tile with its status word, scale word and anchor (R95 to R97). -/
structure Tile where
  /-- 4,096 entries of w160; 03_arithmetic R95; reset 0: entries Q, 64 × row + column; unlisted 0 -/
  q : Table (BitVec 160)
  /-- w10; 03_arithmetic R96; reset 0: anchor register -/
  anchor : BitVec 10
  /-- w32; 03_arithmetic R96; reset 0: COUNT -/
  count : Nat
  /-- w1; 03_arithmetic R96; reset 1: EMPTY -/
  empty : Bool
  /-- w1; 03_arithmetic R96; reset 0: NF -/
  nf : Bool
  /-- w1; 03_arithmetic R96; reset 0: LOW -/
  low : Bool
  /-- w1; 03_arithmetic R96; reset 0: OVF -/
  ovf : Bool
  /-- w32; 03_arithmetic R96; reset 0x3F80_0000: SA -/
  sa : BitVec 32
  /-- w32; 03_arithmetic R96; reset 0x3F80_0000: SB -/
  sb : BitVec 32
  /-- 04_berth R131, R132; reset empty: entries whose parity bit is wrong -/
  badEntries : List Nat
  deriving DecidableEq, Repr

/-- Some entry of a tile has a parity error (R132). -/
def Tile.parityBad (t : Tile) : Bool := !t.badEntries.isEmpty

/-- What a transfer moves (R191, R192, R212, R277). -/
inductive Move where
  /-- buffer to berth store, or back when `out` -/
  | buffer (out : Bool) (buf off : Nat)
  /-- Hold object to berth store, or to a buffer offset when `dram` names one -/
  | hold (handle off : Nat) (dram : Option Nat)
  /-- window: operation 0 READ, 1 WRITE, 2 ATOMIC, 3 REDUCE; its MODE, offset, window, block; operand and compare value -/
  | window (op mode off win blk : Nat) (operand compare : Word)
  /-- one copy of a MOVE command -/
  | copy (c : CopyEntry) (holdDst : Option Nat)
  /-- the digest of a MOVE command (R223), written at its offset -/
  | digest (buf off : Nat) (data : List Byte)
  deriving DecidableEq, Repr

/-- A queued transfer: one descriptor of a move engine (R190, R216, R226). -/
structure Xfer where
  mv : Move
  /-- berth-store address of row 0 (w25) -/
  store : Nat
  /-- row length, rows, store stride, far stride (R165) -/
  rowLen : Nat
  rows : Nat
  storeStride : Nat
  farStride : Nat
  /-- counter that gains 1 (R137) -/
  counter : Option Nat
  /-- bytes whose requests have been issued (reads, for a copy) -/
  issued : Nat
  /-- pieces of a copy read and not yet written: offset and bytes (R213) -/
  staged : List (Nat × List Byte)
  /-- bytes answered -/
  done : Nat
  /-- the status the transfer failed with (R193) -/
  failed : Option Nat
  /-- halted by a stale stamp at this byte, and at this byte of a copy's destination (R226) -/
  halted : Option Nat
  haltedOut : Option Nat
  /-- stamp head and generation the engine last read (R211, R228) -/
  gen : Nat
  /-- serial of the transfer on its engine -/
  serial : Nat
  deriving DecidableEq, Repr

/-- What a stream waits for (R195, R196, R198). -/
inductive Wait where
  | counter (c : Nat) (v : Nat)
  | fence (f : Nat) (v : Nat)
  | bar
  | coll
  /-- an instruction-cache miss (R124) -/
  | icache (line : Nat)
  deriving DecidableEq, Repr

/-- The four registers of an operand quad (R164). -/
structure Quad where
  base : Nat
  scale : Word
  stride : Nat
  sstride : Nat
  deriving DecidableEq, Repr

/-- A tensor product that an array may still have in progress (R131, R145): its tile, the tile before it, its operands and formats, its length K, the reduction index it goes on from, and the time, ns, at which it has ended at the latest (R135). -/
structure Product where
  tile : Nat
  base : Tile
  fa : Nat
  fb : Nat
  qa : Quad
  qb : Quad
  k : Nat
  next : Nat
  endBy : Nat
  deriving DecidableEq, Repr

/-- The stream a berth runs (R32, R144). -/
structure Stream where
  /-- w12; 04_berth R144: context -/
  ctx : Nat
  /-- w9; 04_berth R144: slice -/
  slice : Nat
  /-- 08_quay R284: its job, a command serial -/
  job : Nat
  /-- 04_berth R144: program image address -/
  prog : Nat
  /-- code range of the image (R171) -/
  codeOff : Nat
  codeLen : Nat
  /-- 05_berth R176: rank and number of streams -/
  rank : Nat
  streams : Nat
  /-- 05_berth R176: argument words -/
  args : List Word
  /-- 04_berth R140: moor-distance table -/
  moors : List MoorEntry
  /-- 04_berth R138, R148: its offset in the image -/
  moorOff : Nat
  /-- 04_berth R144: program counter, byte offset in the image -/
  pc : Nat
  /-- up to 8; 05_berth R169: loop stack: address and target of each back edge -/
  loops : List (Nat × Nat)
  /-- 04_berth R144: the wait in progress -/
  wait : Option Wait
  /-- 05_berth R170: end has issued -/
  ended : Bool
  /-- 05_berth R193, R204: issue stopped by a failure or an abort -/
  stopped : Bool
  /-- 03_arithmetic R114: invalid, division by zero, overflow, underflow, inexact -/
  vflags : BitVec 5
  /-- 05_berth R196: arrived at a bar -/
  atBar : Bool
  /-- 05_berth R194: fence signals that wait for earlier transfers: fence, value, the next serial when it was issued -/
  sigs : List (Nat × Nat × Nat)
  /-- 06_data R213: copies of a MOVE command not queued yet -/
  copies : List CopyEntry
  /-- 06_data R223: the digest of a MOVE command is still to be written -/
  digestOwed : Bool
  /-- 06_data R223: bytes a MOVE command has written into the buffer of its digest, by buffer offset -/
  digMem : List Host.Cell
  /-- 04_berth R131, R144: products an array may have in progress; in a save slot those that a save interrupted, with their resume indices -/
  products : List Product
  deriving DecidableEq, Repr

/-- The registers and memories of a berth that a save moves (R122, R144). -/
structure Regs where
  /-- 64 of w64; 04_berth R122, R123; reset 0: scalar registers, s0 never listed; unlisted 0 -/
  s : Table Word
  /-- 32 of 256 × w32; 04_berth R122; reset 0: vector lanes, index 256 × register + lane; unlisted 0 -/
  v : Table (BitVec 32)
  /-- 8 of w256; 04_berth R122; reset 0: predicates -/
  p : Table (BitVec 256)
  /-- 32 of w64; 04_berth R137; reset 0: local counters -/
  c : Table Word
  /-- 16; 04_berth R122; reset cleared: tiles; unlisted cleared with anchor 0 -/
  tiles : Table Tile
  /-- 20 MiB; 04_berth R125; reset 0: berth store in canonical form; unlisted 0 -/
  store : List Host.Cell
  deriving DecidableEq, Repr

/-- A sample record (R522). -/
structure SampleRec where
  time : Nat
  addr : Nat
  opcode : Nat
  predicated : Bool
  ctx : Nat
  prog : Nat
  /-- held by R129; tensor cycles since the previous issue, and from issue to completion: free values (R135; log 5) -/
  held : Bool
  stall : Nat
  latency : Nat
  /-- the stream was restored before completion -/
  restored : Bool
  deriving DecidableEq, Repr

/-- A saved stream in a save slot (R144, R344). -/
structure Saved where
  stream : Stream
  regs : Regs
  me0 : List Xfer
  me1 : List Xfer
  /-- the live mask (tiles, vector registers, store regions) of a save at a moor (kind 1); none: in full (kind 0) -/
  mask : Option (Nat × Nat × Nat)
  /-- one of the early slots of R345 -/
  early : Bool
  /-- 17_tally R522: its sampled instructions that have not completed -/
  sampled : List SampleRec
  deriving DecidableEq, Repr

/-- A Manifest output record (R239). -/
structure OutRecord where
  slice : Nat
  guestTag : Nat
  position : Nat
  value : Nat
  status : Nat
  kind : Nat
  phase : Nat
  late : Bool
  stop : Bool
  predLate : Bool
  seq : Nat
  parkReason : Nat
  time : Nat
  ringPhase : Bool
  deriving DecidableEq, Repr

/-- A slice's open ARM (R236). -/
structure Armed where
  /-- the ARM command's serial -/
  cmd : Nat
  /-- entries of the output ring and of the free ring -/
  ringN : Nat
  freeN : Nat
  vector : Nat
  msix : Bool
  /-- output ring producer position (R239) and the guest's consumption index last read, modulo twice the ring -/
  prod : Nat
  cons : Nat
  /-- output records that wait for room, oldest first (R240) -/
  held : List OutRecord
  /-- free ring: page numbers from the consumer position on, and the pages appended so far (R241) -/
  free : List Nat
  appended : Nat
  poolPages : Nat
  /-- the DISARM that waits for the lists in flight (R236) -/
  disarm : Option Nat
  deriving DecidableEq, Repr

end Sys2Proof.Machine

namespace Sys2Proof

/-- A command of an export image that has been fetched and not ended: the index of its queue in the image, the command (a launch with its own values and position), and what its streams' save slots hold; no slot for one that has not been dispatched (R344, R349, R352). -/
structure ImageJob where
  queue : Nat
  hdr : CmdHdr
  sync : SyncExt
  body : Body
  bufs : List Buf
  launchPos : Option Nat
  anchorFlags : Bool
  busy : Table Nat
  copied : Nat
  slots : List Machine.Saved
  deriving DecidableEq, Repr

/-- What a verified export image holds (R352): the slice record, the queues with the admin queue first, the contexts with the base context first, the fences, the Manifest entries with the open ARM, the commands with their save slots. -/
structure SliceImage where
  r : SliceRec
  queues : List ImageQueue
  ctxs : List Nat
  fences : List ImageFence
  seqs : List ImageSeq
  arm : Option Machine.Armed
  jobs : List ImageJob
  deriving DecidableEq, Repr

/-- Which fields SLICE_RESIZE changes (R330, R347). -/
structure ResizeMask where
  weight : Bool
  qyQuota : Bool
  stampQuota : Bool
  serveQuota : Bool
  vectors : Bool
  granules : Bool
  deriving DecidableEq, Repr

/-- The WINDOW_OPEN record (R397). -/
structure WinRec where
  window : Nat
  owner : Nat
  berthStore : Bool
  berth : Nat
  read : Bool
  write : Bool
  atomic : Bool
  reduce : Bool
  byGroup : Bool
  peer : Nat
  epoch : Nat
  base : Nat
  size : Nat
  deriving DecidableEq, Repr

/-- The GROUP_SET record (R403): a member is a block ID and its expected epoch. -/
structure GroupRec where
  entry : Nat
  slots : Nat
  owner : Nat
  key : Nat
  myRank : Nat
  inSwitch : Bool
  seq0 : Nat
  members : List (Nat × Nat)
  deriving DecidableEq, Repr

/-- The 32-byte fabric header and its data (R395). -/
structure FabMsg where
  op : Nat
  mod : Nat
  src : Nat
  dst : Nat
  epoch : Nat
  status : Nat
  tag : Nat
  len : Nat
  window : Nat
  offset : Nat
  operand : Word
  data : List Byte
  deriving DecidableEq, Repr

/-- SRC and EPOCH of a Ferry message's header (R395): the rank it comes from, and its sender's epoch. -/
structure FerryFrom where
  src : Nat
  epoch : Nat
  deriving DecidableEq, Repr

/-- The partial a Ferry DATA message carries (R408): byte-mode data, or one tile's header and its non-zero entries. -/
inductive FerryPart where
  | bytes (d : List Byte)
  | tile (idx : Nat) (count : Nat) (empty nf low ovf : Bool) (sa sb : BitVec 32) (anchor : BitVec 10) (entries : Table (BitVec 160))
  deriving DecidableEq, Repr

/-- A firmware bundle header as the ROM reads it (R420, R421): which checks of R421 its bytes meet, and the fields the block uses. -/
structure Bundle where
  magicOk : Bool
  fits : Bool
  keyIndex : Nat
  keyDigestOk : Bool
  sigOk : Bool
  seq : Nat
  svnHm : Nat
  svnCore : Nat
  svnUcode : Nat
  hmDigestOk : Bool
  coreDigestOk : Bool
  ucodeDigestOk : Bool
  ucodeRelease : Nat
  /-- SHA-384 digests of the components, as the header gives them -/
  hmDigest : BitVec 384
  coreDigest : BitVec 384
  ucodeDigest : BitVec 384
  deriving DecidableEq, Repr

/-- One field record of a configuration section (R449); a blob has a length and its bytes. -/
structure CfgField where
  id : Nat
  blob : Option (List Byte)
  value : Int
  deriving DecidableEq, Repr

/-- One section of a configuration image (R448): its ID, whether SCRC matches, its records. -/
structure CfgSection where
  id : Nat
  crcOk : Bool
  fields : List CfgField
  deriving DecidableEq, Repr

/-- A configuration image as its bytes stand in a slot of the xSPI device, or come from the host (R448, R463). -/
structure CfgImage where
  bytes : List (BitVec 8)
  deriving DecidableEq, Repr

/-- Whose manager command it is (R425, R427): the session it came in, and the SEQ of its frame (R504). -/
structure Mgr where
  session : Nat
  seq : Nat
  deriving DecidableEq, Repr

/-- What the senses of a Hold slot answer (R359, R362): the 4,352 bytes of its first sense, then those of each READ_SHIFT. -/
structure SlotRead where
  senses : List (List Byte)
  deriving DecidableEq, Repr

/-- HOLD_CONFIG's fields (R378): HD_CTL, one stack's STRENGTH and RELOC, one partition's share. -/
structure HoldCfg where
  retainH : Option Nat
  lapMaxD : Option Nat
  mergeAge : Option Nat
  wearGap : Option Nat
  stack : Nat
  strength : Option Nat
  reloc : Option Nat
  partition : Nat
  grants : Option Nat
  units : Option Nat
  deriving DecidableEq, Repr

/-- POWER_SET's fields: WK_CTL and WK_POLICY (R509, R513). -/
structure PowerCfg where
  tCrit : Option Nat
  tThrottle : Option Nat
  tRelease : Option Nat
  vMargin : Option Nat
  maxOpp : Option Nat
  powerCap : Option Nat
  autoGate : Option Nat
  lockstep : Option Nat
  anchorAllow : Option Bool
  drowseAllow : Option Bool
  berthGateMs : Option Nat
  drowseIdleMs : Option Nat
  deriving DecidableEq, Repr

/-- A Tally counter: of a berth or of the block (R517). -/
inductive TlCounter where
  | berth (b i : Nat)
  | block (i : Nat)
  deriving DecidableEq, Repr

/-- A Tally counter's configuration fields (R528). -/
structure TlCfg where
  enable : Bool
  level : Bool
  tenant : Bool
  sliceEn : Bool
  slice : Nat
  sub : Nat
  event : Nat
  deriving DecidableEq, Repr

/-- What an SPDM KEY_EXCHANGE or FINISH proves of its requester (R425): mutual authentication, the digest of its root public key, and the ROM root-key index it equals, if any (R455). -/
structure Requester where
  mutualAuth : Bool
  rootDigest : List Byte
  romRoot : Option Nat
  deriving DecidableEq, Repr

/-- The unit a RESET names (R466). -/
inductive ResetKind where
  | berth (b : Nat)
  | core (g : Nat)
  | harbourmaster
  | block
  deriving DecidableEq, Repr

/-- A unit that opens in S3 or S4 (R458, R460), or a Hold channel, which fails on its own (R381, R482). -/
inductive OpenUnit where
  | berth (b : Nat)
  | core (g : Nat)
  | port (p : Nat)
  | stack (h : Nat)
  | link (l : Nat)
  | channel (ch : Nat)
  deriving DecidableEq, Repr


end Sys2Proof
end

