-- ==== Sys2Proof/Syntax.lean ====
section
/-! DEFINITION. The commands the block takes: one constructor of `Instr` per row of spec/opcode_table.json, in the table's order.
`b` is a berth, `w` the 128-bit instruction word the berth's fetch unit delivers, `q` a queue number, `sl` a slice, `m` the manager's session. -/

namespace Sys2Proof

/-- One command: a row of the table of operations and events, with its operands. -/
inductive Instr where
  -- control space and host port
  | registerWrite (who : Agent) (addr bits : Nat) (v : Word)
  | rcRegisterRead (who : Agent) (addr bits : Nat) (evs : List (Nat × Nat))
  | doorbellWrite (page k : Nat) (pasid : Option Nat) (be : Nat) (sq cq : BitVec 32)
  | standingLaunch (q : Nat)
  | hostBar2Access (write : Bool) (off len : Nat) (pasid : Option Nat) (data : List Byte)
  | msixTableWrite (off : Nat) (v : BitVec 32)
  | hostCompletion (tag : Nat) (ok : Bool) (data : List Byte)
  -- fetched commands and their life
  | tensorCommand (q : Nat) (f : Fetched) (body : TensorBody)
  | moveCommand (q : Nat) (f : Fetched) (body : MoveBody)
  | generalCommand (q : Nat) (f : Fetched) (body : GeneralBody)
  | ferryCommand (q : Nat) (f : Fetched) (body : FerryBody)
  | lighterCommand (q : Nat) (f : Fetched) (data : List Byte)
  | jobDispatch (u : DispatchUnit)
  | commandComplete (c : Nat)
  | msixModerateExpiry (q : Nat)
  -- admin queue
  | ctxCreate (sl : Nat) (h : CmdHdr)
  | ctxDestroy (sl : Nat) (h : CmdHdr) (c : Nat)
  | ctxDestroyAll (sl : Nat) (h : CmdHdr)
  | queueCreate (sl : Nat) (h : CmdHdr) (body : QueueBody) (standing : Option (Fetched × Body))
  | queueDestroy (sl : Nat) (h : CmdHdr) (k : Nat)
  | queueFree (q : Nat)
  | fenceCreate (sl : Nat) (h : CmdHdr) (init mirror : Nat)
  | fenceDestroy (sl : Nat) (h : CmdHdr) (f : Nat)
  | fenceGrant (sl : Nat) (h : CmdHdr) (f peer : Nat) (wait signal : Bool)
  | fenceRelease (sl : Nat) (h : CmdHdr) (f : Nat)
  | fenceRead (sl : Nat) (h : CmdHdr) (f : Nat)
  | fenceSignal (sl : Nat) (h : CmdHdr) (f v : Nat)
  | contextTeardown (c : Nat)
  | teardownComplete (c : Nat)
  -- berth instructions
  | nop (b : Nat) (w : IWord)
  | br (b : Nat) (w : IWord)
  | brc (b : Nat) (w : IWord)
  | loop (b : Nat) (w : IWord)
  | endStream (b : Nat) (w : IWord)
  | streamEnd (b : Nat)
  | salu (b : Nat) (w : IWord)
  | smul (b : Nat) (w : IWord)
  | sdiv (b : Nat) (w : IWord)
  | sld (b : Nat) (w : IWord)
  | sst (b : Nat) (w : IWord)
  | nmov (b : Nat) (w : IWord)
  | sget (b : Nat) (w : IWord)
  | tmma (b : Nat) (w : IWord)
  | tanchorSet (b : Nat) (w : IWord)
  | tanchorMax (b : Nat) (w : IWord)
  | tanchorRebase (b : Nat) (w : IWord)
  | tclr (b : Nat) (w : IWord)
  | tcomb (b : Nat) (w : IWord)
  | tdrain (b : Nat) (w : IWord)
  | tquant (b : Nat) (w : IWord)
  | vadd (b : Nat) (w : IWord)
  | vsub (b : Nat) (w : IWord)
  | vmul (b : Nat) (w : IWord)
  | vfma (b : Nat) (w : IWord)
  | vmin (b : Nat) (w : IWord)
  | vmax (b : Nat) (w : IWord)
  | vcvt (b : Nat) (w : IWord)
  | vcmp (b : Nat) (w : IWord)
  | vsel (b : Nat) (w : IWord)
  | plog (b : Nat) (w : IWord)
  | vld (b : Nat) (w : IWord)
  | vst (b : Nat) (w : IWord)
  | vbcast (b : Nat) (w : IWord)
  | vlane (b : Nat) (w : IWord)
  | vred (b : Nat) (w : IWord)
  | vsumX (b : Nat) (w : IWord)
  | exp2 (b : Nat) (w : IWord)
  | log2 (b : Nat) (w : IWord)
  | rcp (b : Nat) (w : IWord)
  | rsqrt (b : Nat) (w : IWord)
  | tanh (b : Nat) (w : IWord)
  | sigmoid (b : Nat) (w : IWord)
  | sin (b : Nat) (w : IWord)
  | cos (b : Nat) (w : IWord)
  | mvIn (b : Nat) (w : IWord)
  | mvOut (b : Nat) (w : IWord)
  | mvHold (b : Nat) (w : IWord)
  | mvWinRead (b : Nat) (w : IWord)
  | mvWinWrite (b : Nat) (w : IWord)
  | mvWinAtomic (b : Nat) (w : IWord)
  | mvWinReduce (b : Nat) (w : IWord)
  | fsig (b : Nat) (w : IWord)
  | fsigFence (b : Nat) (w : IWord)
  | fwait (b : Nat) (w : IWord)
  | fwaitSatisfied (b : Nat)
  | bar (b : Nat) (w : IWord)
  | barrierRelease (job : Nat)
  | coll (b : Nat) (w : IWord)
  | collectiveComplete (id : Nat)
  | moor (b : Nat) (w : IWord)
  | trap (b : Nat) (w : IWord)
  | mark (b : Nat) (w : IWord)
  | instructionSample (b : Nat)
  -- events of berths, memory ports and the dispatcher
  | icacheFillComplete (b : Nat)
  | transferComplete (b e : Nat)
  | memoryResponse (port sub tag err : Nat) (data : List Byte) (macs : List Word)
  | regulatorAdmit (x : Nat)
  | berthYield (b : Nat)
  | horizonExpiry (b : Nat)
  | saveStart (b : Nat)
  | saveComplete (b : Nat)
  | restoreComplete (b : Nat)
  | scrubComplete (b : Nat)
  | quantumBoundary (p : Nat)
  | berthDrain (b : Nat) (on : Bool)
  | spareMapWrite (b : Nat) (v : Word)
  | arrayMarkFailed (b a : Nat)
  | arraySelfTest (b a : Nat) (pass : Bool)
  | arrayTestComplete (b : Nat) (pass : Bool)
  | storeApertureAccess (b off : Nat) (write : Bool) (v : Word)
  | storeWriteBack (b word : Nat)
  | storeReread (b word : Nat)
  | operatingPointChange (b n : Nat)
  -- Pilot
  | staleNotice (h : Holder)
  | staleAcknowledge (h : Holder)
  | restampComplete (head : Nat)
  | invalidationRequest (pasid : Option Nat) (va size : Nat)
  | holderEscalation (h : Holder)
  | translationCompletion (stream : Nat) (r : AtsResult)
  | prgResponse (stream code : Nat)
  | priTimeout (stream : Nat)
  | mmuMiss (g va : Nat)
  | granuleWrite (g : Nat) (v : Word)
  | dirtyStart (m : Mgr) (sl base pages logA logB : Nat)
  | dirtyHarvest (m : Mgr) (sl : Nat)
  | dirtyStop (m : Mgr) (sl : Nat)
  -- general cores
  | generalTaskEcall (g : Nat) (a7 a0 : Word)
  | generalTaskLimit (g : Nat)
  | generalTaskTrap (g : Nat) (outside : Bool)
  | coreTimeslice (g : Nat)
  -- Manifest
  | arm (q : Nat) (f : Fetched) (body : ServeBody)
  | disarm (q : Nat) (f : Fetched) (body : ServeBody)
  | add (q : Nat) (f : Fetched) (body : ServeBody) (descs : List SeqDesc)
  | update (q : Nat) (f : Fetched) (body : ServeBody) (desc : SeqDesc)
  | append (q : Nat) (f : Fetched) (body : ServeBody) (tokens : List Nat)
  | park (q : Nat) (f : Fetched) (body : ServeBody)
  | resume (q : Nat) (f : Fetched) (body : ServeBody)
  | release (q : Nat) (f : Fetched) (body : ServeBody)
  | pages (q : Nat) (f : Fetched) (body : ServeBody) (nums : List Nat)
  | listBuild (p : Nat) (reads : List ServeReads)
  | listComplete (p id : Nat) (outs : List StepOut)
  | modelRegister (m : Mgr) (r : ModelRec) (prefill step : ModelProg)
  | modelRetire (m : Mgr) (handle : Nat)
  | fallbackSet (m : Mgr) (primary : Nat) (fallback : Option Nat)
  | serveConfig (m : Mgr) (p : Nat) (entries beFloor : Nat) (en det : Bool) (sl : Option (Nat × Nat))
  -- partitions and slices
  | modeSet (m : Mgr) (mode : Nat)
  | partitionCreate (m : Mgr) (p berths : Nat)
  | partitionDestroy (m : Mgr) (p : Nat)
  | partitionResize (m : Mgr) (p add remove : Nat)
  | regulatorSet (m : Mgr) (p x rate other burst : Nat) (borrow : Bool)
  | sliceCreate (m : Mgr) (r : SliceRec)
  | sliceResize (m : Mgr) (sl : Nat) (mask : ResizeMask) (r : SliceRec)
  | sliceQuiesce (m : Mgr) (sl mode timeoutMs : Nat)
  | quiesceDone (sl : Nat)
  | sliceUnquiesce (m : Mgr) (sl : Nat)
  | sliceRemove (m : Mgr) (sl : Nat)
  | keyZeroise (sl : Nat)
  | sliceExport (m : Mgr) (sl addr len keyId : Nat)
  | sliceImport (m : Mgr) (sl p addr len keyId : Nat) (verified : Bool) (img : SliceImage)
  | schedSet (m : Mgr) (p quantum admitOpp lcShare : Nat) (preemptLc : Bool)
  -- Hold
  | objCreate (m : Mgr) (owner stackMask slots : Nat)
  | objSeal (m : Mgr) (handle : Nat)
  | objDelete (m : Mgr) (handle : Nat)
  | objGrant (m : Mgr) (handle sl : Nat) (read write : Bool)
  | objRevoke (m : Mgr) (handle sl : Nat)
  | objInfo (m : Mgr) (handle : Nat)
  | holdStatus (m : Mgr) (h : Nat)
  | dumpRead (m : Mgr) (record addr len : Nat)
  | holdConfig (m : Mgr) (c : HoldCfg)
  | holdSlotSense (ch : Nat)
  | holdSlotDeliver (ch : Nat) (r : SlotRead)
  | holdCommandComplete (ch : Nat) (ok : Bool)
  | relocation (h fromSlot toSlot : Nat)
  | remapFold (h : Nat)
  | mergeFlush (h : Nat)
  | dredgerRead (ch slot : Nat) (r : SlotRead)
  | lapAlarm (h : Nat)
  | wearLevel (ch : Nat)
  -- links, fabric, Ferry
  | flitReceive (l seq : Nat) (symErrs : Nat) (crcOk : Bool) (ack : Nat) (nak idle : Bool)
  | linkTrained (l : Nat) (half narrow : Bool)
  | linkIdleEntry (l : Nat)
  | linkIdleExit (l : Nat)
  | laneIdleDetect (l n : Nat)
  | laneScan (l n eyeW eyeH : Nat)
  | swapReq (l n : Nat) (fromPeer : Bool)
  | swapGo (l n swapAt : Nat)
  | swapAt (l comma : Nat)
  | inboundRequest (l : Nat) (r : FabMsg)
  | remoteResponse (l : Nat) (r : FabMsg)
  | remoteTimeout (tag : Nat)
  | ferryData (l key sq : Nat) (src : FerryFrom) (chunk : Nat) (part : FerryPart) (last : Bool)
  | ferryCredit (l key sq : Nat) (src : FerryFrom)
  | ferryAbort (l key sq : Nat) (src : FerryFrom)
  | collectiveTimeout (id : Nat)
  | windowOpen (m : Mgr) (r : WinRec)
  | windowClose (m : Mgr) (win : Nat)
  | windowInfo (m : Mgr) (win : Nat)
  | groupSet (m : Mgr) (r : GroupRec)
  | groupFree (m : Mgr) (entry : Nat)
  | peerEpoch (m : Mgr) (blk epoch : Nat)
  | linkConfig (m : Mgr) (l : Nat) (half narrow : Bool) (idleUs marginW marginH : Nat)
  | ping (m : Mgr) (blk : Nat)
  | pingReceive (l : Nat) (r : FabMsg)
  | pongReceive (l : Nat) (r : FabMsg)
  -- Lighter ports
  | lighterMreq (n id tag buf off len : Nat) (write : Bool) (data : List Byte)
  | lighterDone (n tag status : Nat)
  | lighterAbortAck (n tag : Nat)
  | lighterAbortTimeout (n : Nat)
  -- SPDM, lease, attestation
  | getVersion (ses : Nat)
  | getCapabilities (ses : Nat)
  | negotiateAlgorithms (ses : Nat)
  | getDigests (ses : Nat)
  | getCertificate (ses off len : Nat)
  | challenge (ses : Nat) (nonce : List Byte)
  | getMeasurements (ses : Nat) (nonce : List Byte)
  | keyExchange (nonce : List Byte)
  | finish (ses : Nat) (who : Requester)
  | heartbeat (ses : Nat)
  | endSession (ses : Nat)
  | leaseAcquire (m : Mgr) (ms : Nat)
  | leaseRenew (m : Mgr) (ms : Nat)
  | leaseRelease (m : Mgr)
  | leaseExpiry
  | sliceReport (m : Mgr) (sl : Nat) (nonce : List Byte) (addr len : Nat)
  | blockReport (m : Mgr) (nonce : List Byte) (addr len : Nat)
  | migrationKey (m : Mgr) (id : Nat) (key : List Byte)
  | rollbackCommit (m : Mgr) (mask : Nat)
  | debugUnlock (m : Mgr)
  -- start-up, configuration, updates
  | powerOnReset
  | warmReset
  | warmResetEffect
  | stageS1
  | stageS2 (failed : List OpenUnit)
  | stageS3
  | stageS4
  | mqReady (p : Nat)
  | unitOpenTimeout (u : OpenUnit)
  | recoveryHeader (b : Bundle)
  | recoveryData (off : Nat) (data : List Byte)
  | recoveryCommit
  | fwStage (m : Mgr) (b : Bundle) (addr len : Nat)
  | fwActivate (m : Mgr) (component parts : Nat)
  | configWrite (m : Mgr) (img : CfgImage) (addr len : Nat)
  | configReport (m : Mgr) (addr len : Nat)
  | reset (m : Mgr) (k : ResetKind)
  | calibApply (m : Mgr) (field : Nat) (v : Int)
  | stageStatus (m : Mgr)
  | xspiSectorComplete
  | managerCommandTimeout (seq : Nat)
  -- faults, hangs, resets, Logbook
  | hangScan
  | progressWatchdog (berth : Bool) (n : Nat)
  | berthReset (b trigger : Nat)
  | resetStep (b : Nat) (pass : Bool)
  | coreReset (g : Nat)
  | harbourmasterReturn
  | suspectTrial (c : Nat)
  | suspectCleared (c : Nat)
  | portIsolated (p : Nat)
  | dumpWrite
  | alarmNotify (source : Nat)
  | logRead (m : Mgr) (cls first addr len : Nat)
  | logAck (m : Mgr) (source : Nat)
  | logRoute (m : Mgr) (sl : Nat) (tracing port : Bool)
  | logDump (m : Mgr)
  | logConfig (m : Mgr) (evRate trRate notifyMs : Nat)
  -- Bell and mailboxes
  | blRaise (who : Agent) (v : Word)
  | blClaim (who : Agent) (t : Nat) (fast : Bool)
  | blComplete (who : Agent) (t : Nat) (fast : Bool) (v : Word)
  | blTargetWrite (who : Agent) (n : Nat) (v : Word)
  | mbPost (ch : Nat) (byHost : Bool) (frame : List Byte)
  | mbTake (ch : Nat) (byHost : Bool)
  | mbReply (ch : Nat) (byHost : Bool) (v : Word) (frame : List Byte)
  | mailboxTimeout (ch : Nat)
  | continue (m : Mgr)
  -- Watchkeeper and power
  | powerSet (m : Mgr) (c : PowerCfg)
  | mailboxConfig (m : Mgr) (ch : Nat) (dir : Bool) (vector : Nat) (vecEn : Bool) (timeoutUs : Nat)
  | sensorSample (thermal : Bool) (n : Nat) (code : BitVec 12)
  | ceilingTick (watts8 : Nat)
  | powerGood (d : Nat) (high : Bool)
  | berthGate (b : Nat)
  | drowseEntry
  | drowseExit (cause source : Nat)
  | anchorEntry
  | hostActivity
  | powerWarning
  | powerWarningClear
  | wdogKick (v : Word)
  | wdogWarning
  | wdogExpiry
  -- Tally
  | counterClear (c : TlCounter) (evs : Nat)
  | tlBwctlWrite (v : Word)
  | bandwidthWindowEnd
  | viewUpdate (sl : Nat)
  | tallySet (m : Mgr) (c : TlCounter) (cfg : TlCfg)
  | tallyRead (m : Mgr) (cs : List TlCounter)
  | sampleSet (m : Mgr) (mask period : Nat) (wrap enable : Bool)
  | sampleRead (m : Mgr) (b addr len : Nat)
  | windowSet (m : Mgr) (windowUs : Nat) (partEn : Bool) (part : Nat)
  | viewSet (m : Mgr) (sl va : Nat)
  | paceRead (m : Mgr) (blocks : List Nat)
  -- late rows of the table
  | holdCommandTimeout (ch : Nat)
  | linkTrainFail (l : Nat)
  | prIdleDetFall (l n : Nat)
  | spareLaneLocked (l : Nat)
  deriving DecidableEq, Repr

end Sys2Proof
end

