-- ==== Sys2Proof/WellFormed.lean ====
section
/-! DEFINITION. The syntax checks on commands: the units and identifiers a command names exist (R10, R11), and an instruction word belongs to its row (R166).
Arguments of manager and admin commands whose range the manual gives a refusal for are not checked here: the meaning refuses them as the manual says. -/

namespace Sys2Proof

/-- A slot is sensed once, and at most at two read shifts again, and a sense gives its 4,352 bytes (R361, R362). -/
def SlotRead.wellFormed (r : SlotRead) : Bool :=
  decide (1 ≤ r.senses.length ∧ r.senses.length ≤ 3) && r.senses.all fun d => decide (d.length = 4352)

/-- A field of an instruction word: w bits from lo (R159). -/
def IWord.bits (i : IWord) (lo w : Nat) : Nat := (i.extractLsb' lo w).toNat

/-- The opcode of an instruction word (R159). -/
def IWord.op (i : IWord) : Nat := i.bits 0 8

/-- The function code of an instruction word (R159). -/
def IWord.fn (i : IWord) : Nat := i.bits 40 8

/-- The rows of the berth instruction set. -/
inductive BRow where
  | nop
  | br
  | brc
  | loop
  | endStream
  | salu
  | smul
  | sdiv
  | sld
  | sst
  | nmov
  | sget
  | tmma
  | tanchorSet
  | tanchorMax
  | tanchorRebase
  | tclr
  | tcomb
  | tdrain
  | tquant
  | vadd
  | vsub
  | vmul
  | vfma
  | vmin
  | vmax
  | vcvt
  | vcmp
  | vsel
  | plog
  | vld
  | vst
  | vbcast
  | vlane
  | vred
  | vsumX
  | exp2
  | log2
  | rcp
  | rsqrt
  | tanh
  | sigmoid
  | sin
  | cos
  | mvIn
  | mvOut
  | mvHold
  | mvWinRead
  | mvWinWrite
  | mvWinAtomic
  | mvWinReduce
  | fsig
  | fsigFence
  | fwait
  | bar
  | coll
  | moor
  | trap
  | mark
  deriving DecidableEq, Repr

/-- The opcodes R166 assigns. -/
def assignedOp (op : Nat) : Bool :=
  decide (op ≤ 0x04 ∨ (0x20 ≤ op ∧ op ≤ 0x26) ∨ (0x40 ≤ op ∧ op ≤ 0x45) ∨ (0x60 ≤ op ∧ op ≤ 0x6F) ∨ (0x80 ≤ op ∧ op ≤ 0x83) ∨
    (0xA0 ≤ op ∧ op ≤ 0xA3) ∨ (0xC0 ≤ op ∧ op ≤ 0xC7) ∨ (0xE0 ≤ op ∧ op ≤ 0xE2))

/-- An instruction word belongs to a row: its opcode (R166), and where one opcode has several rows, the selector that tells them apart: FN of tanchor, FN[1:0] of mv.win, FL13 of fsig (R178, R192, R194). A tanchor or mv.win word whose selector is unassigned counts with the first of its rows; a word of an unassigned opcode, which the table gives no row of its own, counts with nop's (log 14). -/
def isRow : BRow → IWord → Bool
  | .nop, w => w.op = 0x00 || !assignedOp w.op
  | .br, w => w.op = 0x01
  | .brc, w => w.op = 0x02
  | .loop, w => w.op = 0x03
  | .endStream, w => w.op = 0x04
  | .salu, w => w.op = 0x20
  | .smul, w => w.op = 0x21
  | .sdiv, w => w.op = 0x22
  | .sld, w => w.op = 0x23
  | .sst, w => w.op = 0x24
  | .nmov, w => w.op = 0x25
  | .sget, w => w.op = 0x26
  | .tmma, w => w.op = 0x40
  | .tanchorSet, w => w.op = 0x41 && w.fn ≠ 1 && w.fn ≠ 2
  | .tanchorMax, w => w.op = 0x41 && w.fn = 1
  | .tanchorRebase, w => w.op = 0x41 && w.fn = 2
  | .tclr, w => w.op = 0x42
  | .tcomb, w => w.op = 0x43
  | .tdrain, w => w.op = 0x44
  | .tquant, w => w.op = 0x45
  | .vadd, w => w.op = 0x60
  | .vsub, w => w.op = 0x61
  | .vmul, w => w.op = 0x62
  | .vfma, w => w.op = 0x63
  | .vmin, w => w.op = 0x64
  | .vmax, w => w.op = 0x65
  | .vcvt, w => w.op = 0x66
  | .vcmp, w => w.op = 0x67
  | .vsel, w => w.op = 0x68
  | .plog, w => w.op = 0x69
  | .vld, w => w.op = 0x6A
  | .vst, w => w.op = 0x6B
  | .vbcast, w => w.op = 0x6C
  | .vlane, w => w.op = 0x6D
  | .vred, w => w.op = 0x6E
  | .vsumX, w => w.op = 0x6F
  | .exp2, w => w.op = 0xC0
  | .log2, w => w.op = 0xC1
  | .rcp, w => w.op = 0xC2
  | .rsqrt, w => w.op = 0xC3
  | .tanh, w => w.op = 0xC4
  | .sigmoid, w => w.op = 0xC5
  | .sin, w => w.op = 0xC6
  | .cos, w => w.op = 0xC7
  | .mvIn, w => w.op = 0x80
  | .mvOut, w => w.op = 0x81
  | .mvHold, w => w.op = 0x82
  | .mvWinRead, w => w.op = 0x83 && w.bits 40 2 = 0
  | .mvWinWrite, w => w.op = 0x83 && w.bits 40 2 = 1
  | .mvWinAtomic, w => w.op = 0x83 && w.bits 40 2 = 2
  | .mvWinReduce, w => w.op = 0x83 && w.bits 40 2 = 3
  | .fsig, w => w.op = 0xA0 && w.bits 13 1 = 0
  | .fsigFence, w => w.op = 0xA0 && w.bits 13 1 = 1
  | .fwait, w => w.op = 0xA1
  | .bar, w => w.op = 0xA2
  | .coll, w => w.op = 0xA3
  | .moor, w => w.op = 0xE0
  | .trap, w => w.op = 0xE1
  | .mark, w => w.op = 0xE2

/-- A command's sender exists (R14, R26). -/
def Agent.ok : Agent → Bool
  | .harbourmaster | .host => true
  | .core g => decide (g < 8)

/-- A sender that reaches the Bell registers (R14, R500). -/
def Agent.inside (a : Agent) : Bool := a.ok && a ≠ .host

/-- A dispatch unit exists. -/
def DispatchUnit.ok : DispatchUnit → Bool
  | .berths p => decide (p < 16)
  | .core g => decide (g < 8)
  | .ferry p => decide (p < 16)
  | .lighter n => decide (n < 4)

/-- A holder exists (R314). -/
def Holder.ok : Holder → Bool
  | .engine b e => decide (b < 16 ∧ e < 2)
  | .lighter n => decide (n < 4)
  | .core g => decide (g < 8)
  | .ferry | .hold | .quay | .manifest => true

/-- A unit exists (R11). -/
def OpenUnit.ok : OpenUnit → Bool
  | .berth b => decide (b < 16)
  | .core g => decide (g < 8)
  | .port p => decide (p < 8)
  | .stack h => decide (h < 8)
  | .link l => decide (l < 2)
  | .channel ch => decide (ch < 16)

/-- A Tally counter exists (R517). -/
def TlCounter.ok : TlCounter → Bool
  | .berth b i => decide (b < 16 ∧ i < 64)
  | .block i => decide (i < 256)

/-- The well-formedness of a command. -/
def Instr.wf : Instr → Bool
  | .registerWrite who _ _ _ => who.ok
  | .rcRegisterRead who _ _ _ => who.ok
  | .doorbellWrite page k _ _ _ _ => decide (page < 512) && decide (k < 256)
  | .standingLaunch q => decide (q < 8192)
  | .hostBar2Access _ _ _ _ _ => true
  | .msixTableWrite _ _ => true
  | .hostCompletion _ _ _ => true
  | .tensorCommand q _ _ => decide (q < 8192)
  | .moveCommand q _ _ => decide (q < 8192)
  | .generalCommand q _ _ => decide (q < 8192)
  | .ferryCommand q _ _ => decide (q < 8192)
  | .lighterCommand q _ _ => decide (q < 8192)
  | .jobDispatch u => u.ok
  | .commandComplete _ => true
  | .msixModerateExpiry q => decide (q < 8192)
  | .ctxCreate sl _ => decide (sl < 512)
  | .ctxDestroy sl _ c => decide (sl < 512) && decide (c < 4096)
  | .ctxDestroyAll sl _ => decide (sl < 512)
  | .queueCreate sl _ _ _ => decide (sl < 512)
  | .queueDestroy sl _ _ => decide (sl < 512)
  | .queueFree q => decide (q < 8192)
  | .fenceCreate sl _ _ _ => decide (sl < 512)
  | .fenceDestroy sl _ _ => decide (sl < 512)
  | .fenceGrant sl _ _ _ _ _ => decide (sl < 512)
  | .fenceRelease sl _ _ => decide (sl < 512)
  | .fenceRead sl _ _ => decide (sl < 512)
  | .fenceSignal sl _ _ _ => decide (sl < 512)
  | .contextTeardown c => decide (c < 4096)
  | .teardownComplete c => decide (c < 4096)
  | .nop b w => decide (b < 16) && isRow .nop w
  | .br b w => decide (b < 16) && isRow .br w
  | .brc b w => decide (b < 16) && isRow .brc w
  | .loop b w => decide (b < 16) && isRow .loop w
  | .endStream b w => decide (b < 16) && isRow .endStream w
  | .streamEnd b => decide (b < 16)
  | .salu b w => decide (b < 16) && isRow .salu w
  | .smul b w => decide (b < 16) && isRow .smul w
  | .sdiv b w => decide (b < 16) && isRow .sdiv w
  | .sld b w => decide (b < 16) && isRow .sld w
  | .sst b w => decide (b < 16) && isRow .sst w
  | .nmov b w => decide (b < 16) && isRow .nmov w
  | .sget b w => decide (b < 16) && isRow .sget w
  | .tmma b w => decide (b < 16) && isRow .tmma w
  | .tanchorSet b w => decide (b < 16) && isRow .tanchorSet w
  | .tanchorMax b w => decide (b < 16) && isRow .tanchorMax w
  | .tanchorRebase b w => decide (b < 16) && isRow .tanchorRebase w
  | .tclr b w => decide (b < 16) && isRow .tclr w
  | .tcomb b w => decide (b < 16) && isRow .tcomb w
  | .tdrain b w => decide (b < 16) && isRow .tdrain w
  | .tquant b w => decide (b < 16) && isRow .tquant w
  | .vadd b w => decide (b < 16) && isRow .vadd w
  | .vsub b w => decide (b < 16) && isRow .vsub w
  | .vmul b w => decide (b < 16) && isRow .vmul w
  | .vfma b w => decide (b < 16) && isRow .vfma w
  | .vmin b w => decide (b < 16) && isRow .vmin w
  | .vmax b w => decide (b < 16) && isRow .vmax w
  | .vcvt b w => decide (b < 16) && isRow .vcvt w
  | .vcmp b w => decide (b < 16) && isRow .vcmp w
  | .vsel b w => decide (b < 16) && isRow .vsel w
  | .plog b w => decide (b < 16) && isRow .plog w
  | .vld b w => decide (b < 16) && isRow .vld w
  | .vst b w => decide (b < 16) && isRow .vst w
  | .vbcast b w => decide (b < 16) && isRow .vbcast w
  | .vlane b w => decide (b < 16) && isRow .vlane w
  | .vred b w => decide (b < 16) && isRow .vred w
  | .vsumX b w => decide (b < 16) && isRow .vsumX w
  | .exp2 b w => decide (b < 16) && isRow .exp2 w
  | .log2 b w => decide (b < 16) && isRow .log2 w
  | .rcp b w => decide (b < 16) && isRow .rcp w
  | .rsqrt b w => decide (b < 16) && isRow .rsqrt w
  | .tanh b w => decide (b < 16) && isRow .tanh w
  | .sigmoid b w => decide (b < 16) && isRow .sigmoid w
  | .sin b w => decide (b < 16) && isRow .sin w
  | .cos b w => decide (b < 16) && isRow .cos w
  | .mvIn b w => decide (b < 16) && isRow .mvIn w
  | .mvOut b w => decide (b < 16) && isRow .mvOut w
  | .mvHold b w => decide (b < 16) && isRow .mvHold w
  | .mvWinRead b w => decide (b < 16) && isRow .mvWinRead w
  | .mvWinWrite b w => decide (b < 16) && isRow .mvWinWrite w
  | .mvWinAtomic b w => decide (b < 16) && isRow .mvWinAtomic w
  | .mvWinReduce b w => decide (b < 16) && isRow .mvWinReduce w
  | .fsig b w => decide (b < 16) && isRow .fsig w
  | .fsigFence b w => decide (b < 16) && isRow .fsigFence w
  | .fwait b w => decide (b < 16) && isRow .fwait w
  | .fwaitSatisfied b => decide (b < 16)
  | .bar b w => decide (b < 16) && isRow .bar w
  | .barrierRelease _ => true
  | .coll b w => decide (b < 16) && isRow .coll w
  | .collectiveComplete _ => true
  | .moor b w => decide (b < 16) && isRow .moor w
  | .trap b w => decide (b < 16) && isRow .trap w
  | .mark b w => decide (b < 16) && isRow .mark w
  | .instructionSample b => decide (b < 16)
  | .icacheFillComplete b => decide (b < 16)
  | .transferComplete b e => decide (b < 16) && decide (e < 2)
  | .memoryResponse port sub _ _ _ _ => decide (port < 8) && decide (sub < 4)
  | .regulatorAdmit x => decide (x < 28)
  | .berthYield b => decide (b < 16)
  | .horizonExpiry b => decide (b < 16)
  | .saveStart b => decide (b < 16)
  | .saveComplete b => decide (b < 16)
  | .restoreComplete b => decide (b < 16)
  | .scrubComplete b => decide (b < 16)
  | .quantumBoundary p => decide (p < 16)
  | .berthDrain b _ => decide (b < 16)
  | .spareMapWrite b _ => decide (b < 16)
  | .arrayMarkFailed b a => decide (b < 16) && decide (a < 9)
  | .arraySelfTest b a _ => decide (b < 16) && decide (a < 9)
  | .arrayTestComplete b _ => decide (b < 16)
  | .storeApertureAccess b _ _ _ => decide (b < 16)
  | .storeWriteBack b _ => decide (b < 16)
  | .storeReread b _ => decide (b < 16)
  | .operatingPointChange b n => decide (b < 16) && decide (n < 16)
  | .staleNotice h => h.ok
  | .staleAcknowledge h => h.ok
  | .restampComplete _ => true
  | .invalidationRequest _ _ _ => true
  | .holderEscalation h => h.ok
  | .translationCompletion stream _ => decide (stream < 64)
  | .prgResponse stream _ => decide (stream < 64)
  | .priTimeout stream => decide (stream < 64)
  | .mmuMiss g _ => decide (g < 8)
  | .granuleWrite g _ => decide (g < 65536)
  | .dirtyStart _ _ _ _ _ _ => true
  | .dirtyHarvest _ _ => true
  | .dirtyStop _ _ => true
  | .generalTaskEcall g _ _ => decide (g < 8)
  | .generalTaskLimit g => decide (g < 8)
  | .generalTaskTrap g _ => decide (g < 8)
  | .coreTimeslice g => decide (g < 8)
  | .arm q _ _ => decide (q < 8192)
  | .disarm q _ _ => decide (q < 8192)
  | .add q _ _ _ => decide (q < 8192)
  | .update q _ _ _ => decide (q < 8192)
  | .append q _ _ _ => decide (q < 8192)
  | .park q _ _ => decide (q < 8192)
  | .resume q _ _ => decide (q < 8192)
  | .release q _ _ => decide (q < 8192)
  | .pages q _ _ _ => decide (q < 8192)
  | .listBuild p _ => decide (p < 16)
  | .listComplete p _ _ => decide (p < 16)
  | .modelRegister _ _ _ _ => true
  | .modelRetire _ _ => true
  | .fallbackSet _ _ _ => true
  | .serveConfig _ _ _ _ _ _ _ => true
  | .modeSet _ _ => true
  | .partitionCreate _ _ _ => true
  | .partitionDestroy _ _ => true
  | .partitionResize _ _ _ _ => true
  | .regulatorSet _ _ _ _ _ _ _ => true
  | .sliceCreate _ _ => true
  | .sliceResize _ _ _ _ => true
  | .sliceQuiesce _ _ _ _ => true
  | .quiesceDone sl => decide (sl < 512)
  | .sliceUnquiesce _ _ => true
  | .sliceRemove _ _ => true
  | .keyZeroise sl => decide (sl < 512)
  | .sliceExport _ _ _ _ _ => true
  | .sliceImport _ _ _ _ _ _ _ _ => true
  | .schedSet _ _ _ _ _ _ => true
  | .objCreate _ _ _ _ => true
  | .objSeal _ _ => true
  | .objDelete _ _ => true
  | .objGrant _ _ _ _ _ => true
  | .objRevoke _ _ _ => true
  | .objInfo _ _ => true
  | .holdStatus _ h => decide (h < 8)
  | .dumpRead _ _ _ _ => true
  | .holdConfig _ _ => true
  | .holdSlotSense ch => decide (ch < 16)
  | .holdSlotDeliver ch r => decide (ch < 16) && r.wellFormed
  | .holdCommandComplete ch _ => decide (ch < 16)
  | .relocation h _ toSlot => decide (h < 8) && decide (toSlot < 2 ^ 28)
  | .remapFold h => decide (h < 8)
  | .mergeFlush h => decide (h < 8)
  | .dredgerRead ch _ r => decide (ch < 16) && r.wellFormed
  | .lapAlarm h => decide (h < 8)
  | .wearLevel ch => decide (ch < 16)
  | .flitReceive l _ _ _ _ _ _ => decide (l < 2)
  | .linkTrained l _ _ => decide (l < 2)
  | .linkIdleEntry l => decide (l < 2)
  | .linkIdleExit l => decide (l < 2)
  | .laneIdleDetect l n => decide (l < 2) && decide (n < 9)
  | .laneScan l n w h => decide (l < 2) && decide (n < 9) && decide (w < 64) && decide (h < 256)
  | .swapReq l n _ => decide (l < 2) && decide (n < 8)
  | .swapGo l n k => decide (l < 2) && decide (n < 8) && decide (k < 65536)
  | .swapAt l k => decide (l < 2) && decide (k < 65536)
  | .inboundRequest l r => decide (l < 2) && decide (1 ≤ r.op ∧ r.op ≤ 4)
  | .remoteResponse l r => decide (l < 2) && decide (r.op = 8)
  | .remoteTimeout _ => true
  | .ferryData l _ _ _ _ _ _ => decide (l < 2)
  | .ferryCredit l _ _ _ => decide (l < 2)
  | .ferryAbort l _ _ _ => decide (l < 2)
  | .collectiveTimeout _ => true
  | .windowOpen _ _ => true
  | .windowClose _ _ => true
  | .windowInfo _ _ => true
  | .groupSet _ _ => true
  | .groupFree _ _ => true
  | .peerEpoch _ _ _ => true
  | .linkConfig _ _ _ _ _ _ _ => true
  | .ping _ _ => true
  | .pingReceive l _ => decide (l < 2)
  | .pongReceive l _ => decide (l < 2)
  | .lighterMreq n _ tag _ _ len _ _ => decide (n < 4) && decide (tag < 256) && decide (len < 64)
  | .lighterDone n tag _ => decide (n < 4) && decide (tag < 256)
  | .lighterAbortAck n tag => decide (n < 4) && decide (tag < 256)
  | .lighterAbortTimeout n => decide (n < 4)
  | .getVersion _ => true
  | .getCapabilities _ => true
  | .negotiateAlgorithms _ => true
  | .getDigests _ => true
  | .getCertificate _ _ _ => true
  | .challenge _ _ => true
  | .getMeasurements _ _ => true
  | .keyExchange _ => true
  | .finish _ _ => true
  | .heartbeat _ => true
  | .endSession _ => true
  | .leaseAcquire _ _ => true
  | .leaseRenew _ _ => true
  | .leaseRelease _ => true
  | .leaseExpiry => true
  | .sliceReport _ _ _ _ _ => true
  | .blockReport _ _ _ _ => true
  | .migrationKey _ _ _ => true
  | .rollbackCommit _ _ => true
  | .debugUnlock _ => true
  | .powerOnReset => true
  | .warmReset => true
  | .warmResetEffect => true
  | .stageS1 => true
  | .stageS2 _ => true
  | .stageS3 => true
  | .stageS4 => true
  | .mqReady p => decide (p < 8)
  | .unitOpenTimeout u => u.ok
  | .recoveryHeader _ => true
  | .recoveryData _ _ => true
  | .recoveryCommit => true
  | .fwStage _ _ _ _ => true
  | .fwActivate _ _ _ => true
  | .configWrite _ _ _ _ => true
  | .configReport _ _ _ => true
  | .reset _ _ => true
  | .calibApply _ _ _ => true
  | .stageStatus _ => true
  | .xspiSectorComplete => true
  | .managerCommandTimeout _ => true
  | .hangScan => true
  | .progressWatchdog berth n => decide (n < if berth then 16 else 8)
  | .berthReset b _ => decide (b < 16)
  | .resetStep b _ => decide (b < 24)
  | .coreReset g => decide (g < 8)
  | .harbourmasterReturn => true
  | .suspectTrial c => decide (c < 4096)
  | .suspectCleared c => decide (c < 4096)
  | .portIsolated p => decide (p < 8)
  | .dumpWrite => true
  | .alarmNotify _ => true
  | .logRead _ _ _ _ _ => true
  | .logAck _ _ => true
  | .logRoute _ _ _ _ => true
  | .logDump _ => true
  | .logConfig _ _ _ _ => true
  | .blRaise who _ => who.inside
  | .blClaim who t _ => who.inside && decide (t < 10)
  | .blComplete who t _ _ => who.inside && decide (t < 10)
  | .blTargetWrite who n _ => who.inside && decide (n < 1024)
  | .mbPost ch _ _ => decide (ch < 8)
  | .mbTake ch _ => decide (ch < 8)
  | .mbReply ch _ _ _ => decide (ch < 8)
  | .mailboxTimeout ch => decide (ch < 8)
  | .continue _ => true
  | .powerSet _ _ => true
  | .mailboxConfig _ ch _ _ _ _ => decide (ch < 8)
  | .sensorSample thermal n _ => decide (n < if thermal then 48 else 16)
  | .ceilingTick _ => true
  | .powerGood d _ => decide (d < 34)
  | .berthGate b => decide (b < 16)
  | .drowseEntry => true
  | .drowseExit _ _ => true
  | .anchorEntry => true
  | .hostActivity => true
  | .powerWarning => true
  | .powerWarningClear => true
  | .wdogKick _ => true
  | .wdogWarning => true
  | .wdogExpiry => true
  | .counterClear c _ => c.ok
  | .tlBwctlWrite _ => true
  | .bandwidthWindowEnd => true
  | .viewUpdate sl => decide (sl < 512)
  | .tallySet _ c _ => c.ok
  | .tallyRead _ _ => true
  | .sampleSet _ _ _ _ _ => true
  | .sampleRead _ b _ _ => decide (b < 16)
  | .windowSet _ _ _ _ => true
  | .viewSet _ _ _ => true
  | .paceRead _ _ => true
  | .holdCommandTimeout ch => decide (ch < 16)
  | .linkTrainFail l => decide (l < 2)
  | .prIdleDetFall l n => decide (l < 2) && decide (n < 9)
  | .spareLaneLocked l => decide (l < 2)

end Sys2Proof
end

