-- ==== Sys2Proof/Decode.lean ====
section
/-! DEFINITION. The host's word decoder, and the fields of a berth instruction word (R159).
The table of operations and events gives no row any bits, so no word spells a command of the block. -/

namespace Sys2Proof

/-- The command a word spells by the bits of the table: the table gives no bits, so none. -/
def decodeTableWord (_nbits _w : Nat) : Option Instr := none

/-- The fields of a berth instruction word, as R159 lays them out. -/
structure IFields where
  op : Nat
  pred : Nat
  pn : Bool
  pe : Bool
  fl13 : Bool
  fl14 : Bool
  fl15 : Bool
  rd : Nat
  ra : Nat
  rb : Nat
  rc : Nat
  fn : Nat
  fa : Nat
  fb : Nat
  mode : Nat
  imm : BitVec 64
  deriving DecidableEq, Repr

/-- Read the fields of an instruction word (R159). -/
def decodeFields (w : IWord) : IFields where
  op := w.bits 0 8
  pred := w.bits 8 3
  pn := w.getLsbD 11
  pe := w.getLsbD 12
  fl13 := w.getLsbD 13
  fl14 := w.getLsbD 14
  fl15 := w.getLsbD 15
  rd := w.bits 16 6
  ra := w.bits 22 6
  rb := w.bits 28 6
  rc := w.bits 34 6
  fn := w.bits 40 8
  fa := w.bits 48 4
  fb := w.bits 52 4
  mode := w.bits 56 8
  imm := w.extractLsb' 64 64

/-- Lay fields out in an instruction word (R159). -/
def encodeFields (f : IFields) : IWord :=
  f.imm ++ BitVec.ofNat 8 f.mode ++ BitVec.ofNat 4 f.fb ++ BitVec.ofNat 4 f.fa ++ BitVec.ofNat 8 f.fn ++
  BitVec.ofNat 6 f.rc ++ BitVec.ofNat 6 f.rb ++ BitVec.ofNat 6 f.ra ++ BitVec.ofNat 6 f.rd ++
  BitVec.ofBool f.fl15 ++ BitVec.ofBool f.fl14 ++ BitVec.ofBool f.fl13 ++
  BitVec.ofBool f.pe ++ BitVec.ofBool f.pn ++ BitVec.ofNat 3 f.pred ++ BitVec.ofNat 8 f.op

/-- The fields fit their widths (R159). -/
def IFields.wf (f : IFields) : Bool :=
  decide (f.op < 256 ∧ f.pred < 8 ∧ f.rd < 64 ∧ f.ra < 64 ∧ f.rb < 64 ∧ f.rc < 64 ∧ f.fn < 256 ∧ f.fa < 16 ∧ f.fb < 16 ∧ f.mode < 256)

end Sys2Proof
end

