-- ==== Sys2Proof/Config.lean ====
section
/-! DEFINITION. What the manual leaves open: free values, each an opaque constant without a body.
A meaning applies one to the operands it depends on, or to the block's draw counter for a fresh value each time (log 5).
No statement rests on what any of them is. -/

namespace Sys2Proof

/-- A fresh 64-bit value the manual leaves open, by draw (log 5). -/
opaque Config.freeWord : Nat → Word

/-- A fresh natural number the manual leaves open, by draw (log 5). -/
opaque Config.freeNat : Nat → Nat

/-- The SHA-384 digest of contents the block reads outside itself, by draw (R437, R438; log 9). -/
opaque Config.freeDigest : Nat → BitVec 384

/-- SHA-384 of a byte string (R403, R437; log 9). -/
opaque Config.sha384 : List Byte → BitVec 384

/-- Bytes of a signed or encrypted message the block sends: a signature, a certificate, a ciphertext, by draw (R425, R441; log 9). -/
opaque Config.freeBytes : Nat → List Byte

/-- The keyed line MAC of R433: slice-key generation, physical line address, the line's bytes (log 9). -/
opaque Config.lineMac : Nat → Nat → List Byte → Word

/-- AES-XTS decryption of a line under a slice-key generation (R432; log 9). -/
opaque Config.decrypt : Nat → Nat → List Byte → List Byte

/-- AES-XTS encryption of a line under a slice-key generation: what leaves at MQ_WDATA (R56, R432; log 9). -/
opaque Config.encrypt : Nat → Nat → List Byte → List Byte

/-- A special-function result where the manual gives a bound and no exact value: function number and operand (R117, R118; log 10). -/
opaque Config.sfu : Nat → BitVec 32 → BitVec 32

/-- A value a program or firmware running outside this manual's rules produces, by draw (log 5). -/
opaque Config.freeByte : Nat → Byte

/-- A byte of a save slot's header, sequencer state or move-engine state, whose layouts the manual does not give, by the stream saved and the offset (R344, log 91). -/
opaque Config.slotByte : Machine.Saved → Nat → Byte

/-- An export image, encrypted and signed under a migration key: the slice record's 64 bytes, the other sections, the key; the manual gives no layout (R352, R431, log 44). -/
opaque Config.sealedImage : List Byte → SliceImage → List Byte → List Byte

/-- The plane an erase unit of a Hold channel lies in, modulo the channel's planes: the device's own (R356, log 6). -/
opaque Config.planeOf : (channel unit : Nat) → Nat

/-- The number by which the DATA of a BERTH_RESET, BERTH_FAILED, CORE_RESET or CHECKER_FAIL alarm names a trigger, a reason or a checker (R485 gives none; log 21). -/
opaque Config.resetTrigger : Nat → Nat

/-- The voltage, in mV, that Watchkeeper pairs with an operating point (R141 names it and gives no value; log 25). -/
opaque Config.pairedMv : Nat → Nat

/-- Whether the address 0x00B0_0200 + n × 8, which the table of R513 gives both to WK_TEMP_(32 + n) and to WK_VOLT_n, shows WK_TEMP_(32 + n) (log 30). -/
opaque Config.overlapShowsTemp : Nat → Bool

/-- Whether the debug trace port can take a record within 40 ns of the one before, by time and sequence number (R487; log 76). -/
opaque Config.tracePortTakes : Nat → Nat → Bool

/-- The parity symbols of the link code RS(544,514), whose polynomial the manual does not give, by information symbols and place (R384, log 100). -/
opaque Config.fecParity : List Nat → Nat → Nat

/-- What the CREDIT field of a flit returns, by link, time and sequence: the manual gives no credit amounts (R386, R396, log 100). -/
opaque Config.linkCredit : Nat → Nat → Nat → Nat

/-- The comma count a link's lanes begin with when it has trained: the manual gives none; by link, direction and time (R385, log 100). -/
opaque Config.commaStart : Nat → Bool → Nat → Nat

/-- The public key, 96 bytes, of an ECDSA P-384 key pair obtained from derived bytes (R419, log 101). -/
opaque Config.p384Public : List Byte → List Byte

/-- An ECDSA P-384 signature, r then s, by a private key over a message (R419, R439, log 101). -/
opaque Config.p384Sign : List Byte → List Byte → List Byte

/-- The part of an X.509 certificate that is signed, by its public key (R419, log 101). -/
opaque Config.certBody : List Byte → List Byte

end Sys2Proof
end

