-- ==== Sys2Proof/Machine/State.lean ====
section
/-! DEFINITION. The state of the block (plain data), the reasons a step can stop, and the state right after reset.
Each field's docstring gives its width, the file and rule of spec/ that names it, and its reset value; INVENTORY.md lists the same lines. -/

namespace Sys2Proof.Machine

open Sys2Proof

/-- Why a step stops. -/
inductive Fault where
  /-- Raised by every meaning whose operand names a unit the block does not have (berth 16, memory port 8, ...: R11), or an instruction word of another row.
  Safe: the step stops, and no unit of the block ever sends such a command. -/
  | noSuchUnit
  deriving DecidableEq, Repr

/-- Why a command has no meaning. -/
inductive Refusal where
  /-- Raised only by an arm of exec whose command has no meaning yet. Safe: the step stops. -/
  | notModelled (mnemonic : String)
  deriving DecidableEq, Repr

/-! ### Ties, fuses, the always-on domain -/

/-- Integration-shell tie-offs, fixed from power-on (R2, R15). -/
structure Ties where
  /-- w8; 00_scope R2, R15; reset DESIGN CHOICE 0xFF (log 2): connected memory ports -/
  memMask : Nat
  /-- w8; 00_scope R2, R15; reset DESIGN CHOICE 0xFF (log 2): connected Hold stacks -/
  holdMask : Nat
  /-- w4; 00_scope R2, R15; reset DESIGN CHOICE 0xF (log 2): connected Lighter ports -/
  lighterMask : Nat
  /-- w16; 00_scope R15, R16; reset DESIGN CHOICE 0 (log 2): licensee build tag -/
  build : Nat
  deriving DecidableEq, Repr

/-- The fuse fields; a field's value is its count of set bits (R417). -/
structure Fuses where
  /-- w32; 13_security R417; reset DESIGN CHOICE 0x190A55AD, the CRC of SEED 0 (log 3): SEED_CRC -/
  seedCrc : Nat
  /-- 0-4; 13_security R417; reset DESIGN CHOICE 2 PRODUCTION (log 3) -/
  lifecycle : Nat
  /-- w4; 13_security R417; reset DESIGN CHOICE 0 (log 3): revoked ROM root keys -/
  revoke : Nat
  /-- 0-256; 13_security R417; reset DESIGN CHOICE 0 (log 3) -/
  svnHm : Nat
  /-- 0-256; 13_security R417; reset DESIGN CHOICE 0 (log 3) -/
  svnCore : Nat
  /-- 0-256; 13_security R417; reset DESIGN CHOICE 0 (log 3) -/
  svnUcode : Nat
  /-- w256; 13_security R417; reset DESIGN CHOICE 0 (log 3): SEED -/
  seed : BitVec 256
  deriving DecidableEq, Repr

/-- The counters Watchkeeper keeps in the always-on domain across a warm reset (R70). -/
structure AlwaysOn where
  /-- w64; 16_bell R513, 17_tally R515; reset 0: WK_NS -/
  ns : Nat
  /-- 1-255; 12_fabric R400, R416; reset 1: the epoch -/
  epoch : Nat
  deriving DecidableEq, Repr

/-- Watchkeeper's pins and the power-gate handshake, kept across a warm reset (R69, R70, R72, R80). -/
structure Power where
  /-- pin; 02_ports R69, R72; reset DESIGN CHOICE false (log 4): THERM_TRIP, high until PORST_N -/
  thermTrip : Bool
  /-- w34; 02_ports R69, R79, R80; reset DESIGN CHOICE 0 (log 4): PD_EN -/
  pdEn : Nat
  /-- w34; 02_ports R69, R80; reset DESIGN CHOICE 0 (log 4): PD_GOOD as last seen -/
  pdGood : Nat
  /-- w34; 02_ports R80; reset DESIGN CHOICE 0 (log 4): domains released from reset with outputs connected -/
  pdUp : Nat
  /-- w34; 02_ports R80; reset 0: domains to be switched on once PD_GOOD is low -/
  pdWant : Nat
  /-- w1; 02_ports R71; reset false: WRST_N asserted and deferred while STORE_BUSY is high -/
  wrstWaiting : Bool
  /-- w1; 02_ports R80, 14_startup R456; reset false: the ROM waits for the domains 24 to 33 to come on -/
  romWaits : Bool
  deriving DecidableEq, Repr

/-! ### Host port -/

/-- One MSI-X table entry and its pending bit (R18, R53, R286). -/
structure MsixEntry where
  /-- w64; 02_ports R53; reset 0: message address -/
  addr : Nat
  /-- w32; 02_ports R53; reset 0: message data -/
  data : Nat
  /-- w1; 02_ports R53; reset true (PCI Express MSI-X): vector masked -/
  masked : Bool
  /-- w1; 08_quay R286; reset false: pending bit -/
  pending : Bool
  deriving DecidableEq, Repr

/-- A completion record (R280). -/
structure CqRecord where
  result : Nat
  tag : Nat
  sqHead : Nat
  ctx : Nat
  status : Nat
  detail : Nat
  faultBuf : Option Nat
  time : Nat
  phase : Bool
  deriving DecidableEq, Repr

/-- What the block sends at the host port: one entry per TLP or burst, in order (R52, R53). -/
inductive HostMsg where
  | read (tag addr len pasid : Nat)
  | write (addr slice : Nat) (data : List Byte)
  /-- a completion record: its queue and slot, the translated address it goes to, the slice whose PASID the write carries -/
  | record (q slot addr slice : Nat) (r : CqRecord)
  /-- a fence mirror's write, at the translated address -/
  | mirror (fence phys slice : Nat) (value : Nat)
  /-- an error that AER reports through the controller (R53, R468): uncorrectable non-fatal, at a device address -/
  | aer (addr : Nat)
  | msix (vector addr data : Nat)
  | xlatReq (stream pasid va count : Nat) (noWrite : Bool)
  | pageReq (stream pasid va : Nat) (r w : Bool)
  | invalDone (pasid : Option Nat) (va size : Nat)
  | bar2 (status : Nat) (data : List Byte)
  | untranslated (addr : Nat) (data : List Byte)
  | untranslatedRead (tag addr len : Nat)
  | spdm (ses code : Nat) (data : List Byte)
  | notice (opcode seq retcode : Nat) (data : List Nat)
  | noise (seq words : Nat)
  deriving DecidableEq, Repr

/-- Who sent a request to a memory port (R212, R318). -/
inductive Sender where
  | engine (b e serial off : Nat)
  | fetchUnit (b line : Nat)
  | bar2
  | window (id off : Nat)
  | lighter (n id off : Nat)
  | ferry (c off : Nat)
  | firmware
  /-- Manifest, into an ARM buffer or a SERVE command's (R241, R248) -/
  | manifest
  /-- a request that engine e of berth b issued before its stream was saved or stopped (R145, R228): the job and rank of the stream, the transfer's serial -/
  | stray (b e : Nat) (of_ : Option (Nat × Nat)) (serial : Nat)
  /-- the read of a moor-distance entry for a yield: its line of the image (R148) -/
  | moorEntry (b line : Nat)
  /-- a berth's save or restore, at an offset of its slot (R145, R212) -/
  | save (b off : Nat)
  /-- the next record held of a queue's completion ring (R272) -/
  | record (q : Nat)
  /-- a message with data that waits for tokens at a link (R333, R335) -/
  | onLink (m : FabMsg)
  /-- a read of the lists a command names: the task it is for, by number (R282, R303) -/
  | lists (id : Nat)
  /-- the Harbourmaster's zeros into a save slot or into granules taken from a slice (R344, R347) -/
  | wipe
  /-- a posted write of Quay, Pilot or Manifest for a slice: the message it is at the host port (R216, R294) -/
  | posted (m : HostMsg)
  deriving DecidableEq, Repr

/-- An outstanding request at a memory port (R56, R57). -/
structure MemReq where
  port : Nat
  sub : Nat
  /-- device physical address of the first byte -/
  addr : Nat
  len : Nat
  write : Bool
  /-- read half of a read-modify-write (R215) -/
  rmw : Bool
  /-- bytes of a write, before Customs -/
  data : List Byte
  /-- MQ_WDATA: ciphertext of the lines a write stores, with MQ_MASK by line, and their MACs (R56, R432); none for a read -/
  wdata : List (Nat × List Byte × Word)
  slice : Nat
  ctx : Nat
  who : Sender
  /-- berth-store address for the data of a read; virtual address of a host write -/
  store : Nat
  /-- issued at, ns -/
  since : Nat
  deriving DecidableEq, Repr

/-- What an outstanding host read is for (R52, R216). -/
inductive ReadFor where
  | transfer (b e serial off store : Nat)
  /-- one that no transfer waits for any longer (R228), with the job and rank of its stream -/
  | stray (b e : Nat) (of_ : Option (Nat × Nat))
  | asked (r : MemReq)
  /-- a line of a dirty log: slice, log, line (R325) -/
  | logLine (sl log line : Nat)
  | other
  deriving DecidableEq, Repr

/-- The host port (R52, R53). -/
structure HostPort where
  /-- up to 4,096 entries; 02_ports R53; reset empty: outstanding non-posted requests by tag -/
  reads : Table ReadFor
  /-- w14; 02_ports R53; reset 0: next tag -/
  nextTag : Nat
  /-- 2,048 entries; 02_ports R53; reset each masked, 0: MSI-X table and pending bits; unlisted entries are masked and 0 -/
  msix : Table MsixEntry
  /-- queue; 02_ports R52; reset empty: what the block has sent to the host, oldest first -/
  out : List HostMsg
  /-- w1; 09_pilot R310; reset false: PRI stopped by a Response Failure -/
  priStopped : Bool
  /-- w64; 09_pilot R304, 00_scope R21; reset PRESUMED 0 (PCI Express, log 11): host's assigned base of BAR2 -/
  bar2Base : Nat
  /-- 0-512; 09_pilot R312; reset DESIGN CHOICE 512 (log 11): page-request allocation the host wrote -/
  priAlloc : Nat
  /-- 128-512; 02_ports R53, 06_data R214; reset PRESUMED 128 (PCI Express, log 11): negotiated maximum payload size -/
  maxPayload : Nat
  /-- w1; 02_ports R52, R53, 08_quay R286; reset DESIGN CHOICE true (log 11): MSI-X Enable -/
  msixEnable : Bool
  /-- w1; 02_ports R52, R53, 08_quay R286; reset PRESUMED false (PCI Express, log 11): MSI-X Function Mask -/
  msixMask : Bool
  deriving DecidableEq, Repr

/-! ### Quay -/

/-- States of a queue (R295, R287, R299). -/
inductive QState where
  | live
  | destroying
  | broken
  | stopped
  deriving DecidableEq, Repr

/-- A completed command whose record is not written yet: the completion ring is full, its stamp is stale, or the write waits for tokens of Breakwater (R268, R272, R334). -/
structure HeldRec where
  /-- its TIME is the completion's (R280) -/
  r : CqRecord
  sig : Option (Nat × Nat)
  irq : Bool
  slice : Nat
  /-- SQ_HEAD of a launch's record (R288) -/
  launch : Option Nat
  /-- stamps that live until the record is written (R207) -/
  heads : List Nat
  deriving DecidableEq, Repr

/-- A live queue (R265 to R272, R297). -/
structure Queue where
  /-- w9; 08_quay R265 -/
  slice : Nat
  /-- w8; 08_quay R265: local index, 0 the admin queue -/
  k : Nat
  /-- 0-8; 08_quay R266: class code (0 for the admin queue, which has none) -/
  cls : Nat
  /-- 4-16; 08_quay R268: submission ring of 2^n slots -/
  n : Nat
  /-- 4-16; 08_quay R268: completion ring of 2^m records -/
  m : Nat
  /-- 08_quay R287, R295, R299: queue state -/
  st : QState
  /-- w12; 08_quay R297: bound context, 0 none -/
  bind : Nat
  /-- w11; 08_quay R297: vector -/
  vector : Option Nat
  /-- 1-256; 08_quay R283 -/
  depth : Nat
  /-- 0-1,023 us; 08_quay R286 -/
  moderate : Nat
  /-- 08_quay R297: LC queue -/
  lc : Bool
  /-- 10_partitions R342: the queue's admitted load -/
  load : Nat
  /-- 08_quay R271: tail position, modulo 2^(n+1) -/
  tail : Nat
  /-- 08_quay R272: fetch position, modulo 2^(n+1) -/
  fetch : Nat
  /-- 08_quay R271: position of the next record the guest reads, modulo 2^(m+1) -/
  cqHead : Nat
  /-- 08_quay R272: position of the next record Quay writes, modulo 2^(m+1) -/
  cqTail : Nat
  /-- 08_quay R288: the standing command: what was fetched, its body, its stamp heads -/
  standing : Option (Fetched × Body × List Nat)
  /-- 06_data R227, 08_quay R289: the re-stamp of the standing command's range failed with this status: launches fail -/
  standingDead : Option Nat
  /-- 08_quay R295: an admin command has been fetched and has not completed -/
  busy : Bool
  /-- 08_quay R288: launches started since creation -/
  launches : Nat
  /-- 08_quay R268: stamp heads of the two rings -/
  ringHeads : List Nat
  /-- 08_quay R272, 10_partitions R334: records not written yet, oldest first -/
  held : List HeldRec
  /-- 08_quay R286: raises are merged until this time, ns -/
  moderUntil : Nat
  /-- 08_quay R286: a merged raise is owed -/
  moderOwed : Bool
  /-- 08_quay R295: admin acting context and header of the QUEUE_DESTROY that waits for this queue to be freed -/
  destroyer : Option CmdHdr
  /-- 10_partitions R338: when the queue's candidate was last served, for round robin within the slice -/
  lastServed : Nat
  /-- 08_quay R297, 10_partitions R352: RATE and STANDING_VA of its creation body -/
  rate : Nat
  standingVa : Nat
  deriving DecidableEq, Repr

/-- Phases of a held command (R44, R282, R283). -/
inductive Phase where
  /-- Pilot is stamping its buffers -/
  | stamping
  /-- it waits for fences and a unit -/
  | waiting
  /-- its unit runs it -/
  | running
  /-- yielded: its streams lie in save slots -/
  | saved
  /-- its unit has ended; the record is not written yet -/
  | ended
  deriving DecidableEq, Repr

/-- The registers of a general core beside pc, a0 and sp (R278): 29 integer, 32 floating-point, 32 vector; the spec names no vector length, a vector register is held as a number. -/
structure CoreRegs where
  x : List Word
  f : List Word
  v : List Nat
  deriving DecidableEq, Repr

/-- What every task starts with. -/
def CoreRegs.zero : CoreRegs := ⟨List.replicate 29 0, List.replicate 32 0, List.replicate 32 0⟩

/-- A fetched and incomplete command (R283). -/
structure Cmd where
  /-- w13; 08_quay R265: its queue -/
  q : Nat
  /-- w9; 08_quay R265 -/
  slice : Nat
  /-- 08_quay R273 -/
  hdr : CmdHdr
  /-- 08_quay R274, R288: waits and signal, with a launch's increments applied -/
  sync : SyncExt
  /-- 08_quay R276 -/
  body : Body
  /-- 08_quay R275 -/
  bufs : List Buf
  /-- 06_data R207: stamp heads, index i for buffer i, the image stamp last -/
  heads : List Nat
  /-- 08_quay R44, R283 -/
  ph : Phase
  /-- w8; 00_scope R22: the status once known, with its DETAIL and FAULT_BUF -/
  status : Nat
  detail : Nat
  faultBuf : Option Nat
  /-- 08_quay R280 -/
  result : Nat
  /-- 03_arithmetic R111: a drained tile had OVF or LOW set -/
  anchorFlags : Bool
  /-- 00_scope R23, 07_manifest R254: the step ran on a fallback -/
  fallback : Bool
  /-- 08_quay R285: steps 1 to 3 of R282 failed, so the signal is not applied -/
  noSignal : Bool
  /-- 10_partitions R337: the berths (or the core, or the port's tag) it holds -/
  units : List Nat
  /-- 08_quay R272, R288: SQ_HEAD of its record for a launch; none for a fetched command -/
  launchPos : Option Nat
  /-- 10_partitions R340: time of its dispatch, ns -/
  since : Nat
  /-- 15_faults R469: it has been dispatched -/
  ran : Bool
  /-- 08_quay R301: its first and its second wait have been evaluated and satisfied: they stand -/
  met0 : Bool
  met1 : Bool
  /-- 10_partitions R338: it has become a ready candidate -/
  ready : Bool
  /-- 10_partitions R339, 17_tally R525: busy ns of its streams, by rank -/
  busy : Table Nat
  /-- 10_partitions R341: a saved general task: program counter, a0, sp, time run, ns, the other registers -/
  task : Option (Nat × Word × Word × Nat × CoreRegs)
  /-- 15_faults R479: 0 no suspect, 1 suspect waiting, 2 under trial -/
  suspect : Nat
  /-- 08_quay R284: an abort has been sent to its streams -/
  aborting : Bool
  /-- 06_data R223, R277: bytes copied so far by a MOVE -/
  copied : Nat
  deriving DecidableEq, Repr

/-- States of a context that is not FREE (R298). -/
inductive CtxState where
  | live
  | tearing
  deriving DecidableEq, Repr

/-- A context (R31, R298). -/
structure Ctx where
  /-- w9; 01_two R31 -/
  slice : Nat
  /-- 08_quay R298 -/
  st : CtxState
  /-- 08_quay R299: start of the teardown, ns -/
  since : Nat
  /-- 08_quay R295: the admin command that waits for the teardown: its header, and whether CTX_DESTROY_ALL then makes a new base context -/
  waiter : Option (CmdHdr × Bool)
  deriving DecidableEq, Repr

/-- A grant in a fence's right list (R290, R291). -/
structure Grant where
  slice : Nat
  wait : Bool
  signal : Bool
  deriving DecidableEq, Repr

/-- An allocated fence (R290). -/
structure Fence where
  /-- w63 while live; 08_quay R290 -/
  value : Nat
  /-- w12; 08_quay R290: owner context -/
  owner : Nat
  /-- w9; 08_quay R291: the owner context's slice -/
  slice : Nat
  /-- up to 7; 08_quay R290: right list -/
  rights : List Grant
  /-- w64; 08_quay R294: mirror address -/
  mirror : Option Nat
  /-- w1; 08_quay R292: broken, reads all ones -/
  broken : Bool
  deriving DecidableEq, Repr

/-- A slice that exists; its numbered quotas, partition, weight and state are in QY_SQUOTA_s, PL_SQUOTA_s, MF_SQUOTA_s, BW_SLICE_s (R330, R348). -/
structure Slice where
  /-- w20; 10_partitions R330 -/
  pasid : Nat
  /-- w12; 08_quay R296: its base context -/
  baseCtx : Nat
  /-- w11; 10_partitions R330: first block vector -/
  msixBase : Nat
  /-- 0-2,048; 10_partitions R330: vectors -/
  msixCount : Nat
  /-- w18; 10_partitions R330 -/
  granFirst : Nat
  /-- 0-262,144; 10_partitions R330 -/
  granCount : Nat
  /-- 10_partitions R338, R339: virtual time V_s -/
  vtime : Rat
  /-- 10_partitions R341: core virtual time -/
  coreV : Rat
  /-- 10_partitions R338: when a BE list of the slice was last served, for round robin -/
  listServed : Nat
  /-- 15_faults R491: tracing enabled -/
  tracing : Bool
  /-- 15_faults R487, R491: traces routed to the debug trace port -/
  tracePort : Bool
  /-- 10_partitions R352: the last quiesce was in SAVE mode -/
  savedMode : Bool
  /-- 10_partitions R349: the quiesce in progress: who asked, and when its TIMEOUT passes, ns -/
  quiesce : Option (Mgr × Nat)
  /-- 13_security R431: exports made -/
  exports : Nat
  /-- 13_security R437: measurement log, oldest first, at most 4,096 entries (kind, handle, va, digest) -/
  log : List (Nat × Nat × Nat × BitVec 384)
  /-- w384; 13_security R437: chain -/
  chain : BitVec 384
  /-- w1; 13_security R437 -/
  logLost : Bool
  /-- 17_tally R526: tenant view: virtual address, stamp head, SEQ -/
  view : Option (Nat × Nat × Nat)
  /-- 06_data R222: Hold objects the slice has read since its creation -/
  objectsRead : List Nat
  deriving DecidableEq, Repr

/-- Quay (R265 to R302). -/
structure Quay where
  /-- up to 512 entries; 10_partitions R332; reset empty: slices by slice ID -/
  slices : Table Slice
  /-- up to 8,192 entries; 08_quay R265; reset empty: live queues by queue number -/
  queues : Table Queue
  /-- up to 16,384 entries; 08_quay R283; reset empty: fetched incomplete commands by fetch serial -/
  cmds : Table Cmd
  /-- 08_quay R283; reset 0: next fetch serial -/
  nextCmd : Nat
  /-- up to 4,095 entries; 08_quay R298; reset empty: contexts not FREE -/
  ctxs : Table Ctx
  /-- 08_quay R298; reset 1: lowest context number never used -/
  ctxNext : Nat
  /-- 08_quay R298; reset empty: freed context numbers, least recently freed first -/
  ctxFreed : List Nat
  /-- up to 65,536 entries; 08_quay R290; reset empty: allocated fences -/
  fences : Table Fence
  /-- 08_quay R293; reset 0: lowest fence number never used -/
  fenceNext : Nat
  /-- 08_quay R293; reset empty: freed fence numbers, least recently freed first -/
  fenceFreed : List Nat
  /-- up to 8,192 entries; 13_security R438; reset empty: (slice, VA, ILEN) measured, oldest first -/
  digested : List (Nat × Nat × Nat)
  /-- 10_partitions R338; reset 0: dispatch serial for round robin -/
  served : Nat
  deriving DecidableEq, Repr

/-! ### Pilot -/

/-- A stamp-store entry (R208, R209), with its generation and holder mask kept at the head (R210, R314). -/
inductive Stamp where
  | head (blen va runs first slice ctx : Nat) (stale image read write : Bool) (buf gen : Nat)
  | run (phys boff len slice ctx : Nat) (stale last : Bool) (cls : Nat) (read write : Bool) (page next : Nat)
  deriving DecidableEq, Repr

/-- A translation-cache entry (R308). -/
structure Xlat where
  pasid : Nat
  /-- page size code 0 4 KiB, 1 2 MiB, 2 1 GiB -/
  size : Nat
  /-- aligned group of 16 virtual pages -/
  group : Nat
  start : Nat
  count : Nat
  /-- physical address of page START -/
  phys : Nat
  read : Bool
  write : Bool
  /-- CLASS of its pages (R304): 0 device DRAM, 1 host memory -/
  cls : Nat
  deriving DecidableEq, Repr

/-- One buffer still to be stamped. -/
structure Need where
  va : Nat
  len : Nat
  read : Bool
  write : Bool
  image : Bool
  buf : Nat
  deriving DecidableEq, Repr

/-- A run under construction (R305, R209). -/
structure RunRec where
  boff : Nat
  len : Nat
  phys : Nat
  cls : Nat
  page : Nat
  read : Bool
  write : Bool
  deriving DecidableEq, Repr

/-- What a stamping task is for (R303). -/
inductive StampFor where
  | mirror (fence va value : Nat)
  /-- the lists a fetched command names, read before its buffers are stamped (R282 step 5) -/
  | lists (c : Nat) (f : Fetched) (body : Body)
  | command (c : Nat)
  /-- a standing command, then the lists it names (R288) -/
  | standing (sl : Nat) (h : CmdHdr) (q : QueueBody) (f : Fetched) (body : Body) (lists : Bool)
  | queue (sl : Nat) (h : CmdHdr) (body : QueueBody) (standing : Option (Fetched × Body))
  | adminQueue (sl : Nat) (m : Mgr) (r : SliceRec)
  | imported (sl : Nat) (m : Mgr) (img : SliceImage)
  | model (m : Mgr) (slot : Nat) (r : ModelRec) (prefill step : ModelProg)
  | view (m : Mgr) (sl va : Nat)
  | restamp (head : Nat)
  deriving DecidableEq, Repr

/-- A stamping task on a miss stream (R306). -/
structure StampTask where
  slice : Nat
  ctx : Nat
  why : StampFor
  /-- buffers still to stamp, the first one under way -/
  needs : List Need
  /-- bytes of the first one covered, and its runs so far, last first -/
  at_ : Nat
  cur : List RunRec
  /-- buffers covered, in order -/
  done : List (Need × List RunRec)
  /-- virtual address of the page whose translation is outstanding -/
  asked : Option Nat
  /-- a Page Request for that page is outstanding, since this time, ns -/
  pageReq : Option Nat
  /-- it waits for page-request allocation (R312) -/
  pageWait : Bool
  /-- a Page Request for this page was answered with Success (R311) -/
  answered : Option Nat
  /-- the ranges of the invalidations of its slice that arrived while the translation was outstanding (R313): address and size -/
  crossed : List (Nat × Nat)
  /-- halted until the Invalidation Completion (R301, R317) -/
  halt : Bool
  /-- a re-stamp that has failed, with its status (R227) -/
  failed : Option Nat
  deriving DecidableEq, Repr

/-- A task whose ranges are translated and are being read (R282, R303): requests not answered yet, and the first failure met. -/
structure ReadTask where
  left : Nat
  bad : Bool
  task : StampTask
  deriving DecidableEq, Repr

/-- A cached line of a dirty log (R325): slice, log (0 A, 1 B), line number and bus address, its 64 bytes as merged so far, and whether the read of the line has come in. -/
structure LogLine where
  sl : Nat
  log : Nat
  line : Nat
  addr : Nat
  bytes : List Byte
  filled : Bool
  deriving DecidableEq, Repr

/-- A harvest that waits for the reads of cached lines of its log (R325, R326): who asked with what, the slice, the log, and the reply. -/
structure Harvest where
  m : Mgr
  op : Nat
  sl : Nat
  log : Nat
  data : List Nat
  deriving DecidableEq, Repr

/-- An Invalidation Request (R315). -/
structure Inval where
  pasid : Option Nat
  va : Nat
  size : Nat
  /-- heads marked STALE by it -/
  heads : List Nat
  /-- holders that have not acknowledged -/
  waiting : List Holder
  /-- holders whose reset was asked (R316) -/
  escalated : Bool
  /-- time Pilot began it, ns -/
  since : Nat
  deriving DecidableEq, Repr

/-- A slice's dirty log (R324 to R326). -/
structure DirtyLog where
  base : Nat
  pages : Nat
  logA : Nat
  logB : Nat
  /-- 0 A, 1 B -/
  active : Nat
  overflow : Bool
  /-- pages set in the active log, rising -/
  set : List Nat
  deriving DecidableEq, Repr

/-- Pilot (R303 to R327). -/
structure Pilot where
  /-- 262,144 entries of 32 bytes; 06_data R207; reset empty (all KIND 0): the stamp store -/
  stamps : Table Stamp
  /-- w48 each; 09_pilot R314; reset empty: holder masks by head index -/
  holders : Table (List Holder)
  /-- 09_pilot R317; reset empty: heads of Manifest's stamps whose re-stamp failed, with the status -/
  lost : Table Nat
  /-- 4,096 entries in 256 sets; 09_pilot R308; reset empty: translation cache, most recently used first -/
  cache : List Xlat
  /-- 64 miss streams; 09_pilot R306; reset empty: stamping tasks by stream -/
  streams : Table StampTask
  /-- queue; 09_pilot R306; reset empty: tasks waiting for a stream, oldest first -/
  waiting : List StampTask
  /-- up to 32; 02_ports R53, 09_pilot R315; reset empty: Invalidation Requests, the first one under way -/
  invals : List Inval
  /-- 06_data R226; reset empty: notices sent and not received: holder and heads -/
  notices : List (Holder × List Nat)
  /-- up to 64; 09_pilot R324; reset empty: dirty logs by slice -/
  dirty : Table DirtyLog
  /-- 08_quay R282, 09_pilot R303; reset empty: tasks whose lists are being read, by number -/
  reading : Table ReadTask
  /-- MODEL's own; reset 0: the next such number -/
  nextRead : Nat
  /-- 256 of 64 bytes; 09_pilot R325; reset empty: cached lines of dirty logs, most recently used first -/
  logLines : List LogLine
  /-- 09_pilot R325, R326; reset empty: harvests that wait for lines being read -/
  harvests : List Harvest
  deriving DecidableEq, Repr

/-! ### Berths -/

/-- A berth reset in progress (R474, R475). -/
structure BReset where
  step : Nat
  trigger : Nat
  /-- time of the end of the capture, ns -/
  since : Nat
  /-- contexts under suspicion (R479) -/
  suspects : List Nat
  /-- context whose teardown started it -/
  torn : Option Nat
  deriving DecidableEq, Repr

/-- A berth that quiesces for a save (R145): the live mask of a moor, the program counter saved, since when, ns, and where the first transfer of an engine stops: engine, serial, byte, and a copy's byte at its destination. -/
structure Quiesce where
  mask : Option (Nat × Nat × Nat)
  pc : Nat
  since : Nat
  stops : List (Nat × Nat × Nat × Nat)
  deriving DecidableEq, Repr

/-- A berth: what is not in the BT registers (R122 to R158). -/
structure Berth where
  stream : Option Stream
  regs : Regs
  /-- up to 32 each; 04_berth R136, R216: engine queues, the first transfer under way -/
  me0 : List Xfer
  me1 : List Xfer
  /-- 04_berth R216: next transfer serial -/
  nextSerial : Nat
  /-- 64 KiB, 128 sets of 4 ways; 04_berth R124: cached lines (image address, line number), most recently used first -/
  icache : List (Nat × Nat)
  /-- w9; 04_berth R124: slice whose lines the cache holds -/
  icacheSlice : Option Nat
  /-- 04_berth R148: a yield is pending, since this time, ns -/
  yield : Option Nat
  /-- 04_berth R148; reset none: the moor-distance entry being read for a yield, with its line of the image -/
  entry : Option (Nat × MoorEntry)
  /-- 04_berth R145; reset none: the berth quiesces for a save -/
  quiescing : Option Quiesce
  /-- 04_berth R144, R146: what is being saved, and whether at a moor -/
  saving : Option Saved
  /-- 10_partitions R344: slot being written or read -/
  slot : Option Nat
  /-- 04_berth R146: the quiesced berth waits for the preemption reserve -/
  reserveWait : Bool
  /-- 04_berth R144, R145: units of the save or restore under way that have been sent, and that have been answered -/
  moving : Nat
  moved : Nat
  /-- 04_berth R155: step of the spare-swap procedure: array under replacement -/
  swapping : Option Nat
  /-- 04_berth R132: times of recent parity errors: physical array, ns -/
  parityTimes : List (Nat × Nat)
  /-- 04_berth R156: words of the store with bits in error: word index, count of bits -/
  badBits : Table Nat
  /-- 04_berth R156; reset none: words of the store with a bit that stays in error -/
  stuckBits : List Nat
  /-- 04_berth R156: corrected words to be written back, then reread -/
  writeBack : List Nat
  reread : List Nat
  /-- 04_berth R157: spare storage by remap entry: 64 bytes -/
  spare : Table (List Byte)
  /-- 15_faults R475 -/
  resetting : Option BReset
  /-- 15_faults R479, R480: contexts of its last reset still under suspicion, and whether one was guilty -/
  suspects : List Nat
  guilty : Bool
  /-- 15_faults R480: times of unattributed resets, ns -/
  unattributed : List Nat
  /-- 15_faults R479: contexts whose streams occupied the berth in its current occupancy -/
  occupants : List Nat
  /-- up to 256; 15_faults R474: last instruction addresses and opcodes issued, newest first -/
  trail : List (Nat × Nat)
  /-- 15_faults R473: time of last progress, ns -/
  progress : Nat
  /-- 17_tally R522: countdown, the sampled instructions that have not completed, and the record buffer, oldest first -/
  countdown : Nat
  sampled : List SampleRec
  samples : List SampleRec
  /-- 16_bell R511: last change of operating point, ns; power gating -/
  oppSince : Nat
  /-- 16_bell R512: idle since, ns -/
  idleSince : Nat
  /-- 14_startup R458, R460: opened by S3 or S4 -/
  opened : Bool
  /-- 17_tally R525: start of the stream's busy time, ns -/
  busySince : Nat
  /-- 14_startup R464: runs the staged microcode -/
  newUcode : Bool
  deriving DecidableEq, Repr

/-- A general core (R278, R322, R341, R476). -/
structure Core where
  /-- the task's command -/
  task : Option Nat
  /-- 08_quay R278: time run so far and time it was last started, ns -/
  ran : Nat
  since : Nat
  /-- 10_partitions R341: time it took the core, ns -/
  taken : Nat
  /-- 08_quay R278: registers the block sets at the task's start: program counter, a0, sp -/
  pc : Nat
  a0 : Word
  sp : Word
  /-- 08_quay R278; reset zeros: the registers every task starts with at 0 -/
  regs : CoreRegs
  /-- 09_pilot R322; reset none: a miss on a stale stamp that waits for the re-stamp, on the core's stream -/
  miss : Option Nat
  /-- 64 entries; 09_pilot R322: TLB: virtual address, physical address, length, head, read, write -/
  tlb : List (Nat × Nat × Nat × Nat × Bool × Bool)
  /-- 16_bell R512, 15_faults R476, R482: on, failed -/
  on : Bool
  failed : Bool
  /-- 15_faults R476: step and cause of a reset in progress -/
  resetStep : Option (Nat × Nat)
  /-- 15_faults R473: time of last progress, ns -/
  progress : Nat
  /-- 16_bell R511: half clock -/
  halfClock : Bool
  /-- 14_startup R464: runs the staged firmware -/
  newFw : Bool
  deriving DecidableEq, Repr

/-! ### Memory ports, Customs, Breakwater -/

/-- A request waiting at Breakwater's OTHER lane (R334, R335). -/
structure LaneReq where
  partition : Nat
  bytes : Nat
  req : MemReq
  deriving DecidableEq, Repr

/-- A token bucket pair: tokens and the time they were last brought up to date (R334). -/
structure Bucket where
  rate : Nat
  other : Nat
  at_ : Nat
  deriving DecidableEq, Repr

/-- A save slot, or granules taken from a slice, that the Harbourmaster writes with zeros (R344, R347, R351): the slot, or the first granule and their number; the slice whose data it held; 128-byte units sent, and answered. -/
structure Wipe where
  slot : Option Nat
  first : Nat
  count : Nat
  slice : Nat
  sent : Nat
  done : Nat
  deriving DecidableEq, Repr

/-- Breakwater and Customs beyond their registers (R333 to R336, R432 to R436). -/
structure Ports where
  /-- 4,096 per sub-port; 02_ports R56; reset empty: outstanding requests by (port × 4 + sub) × 4,096 + tag -/
  out : Table MemReq
  /-- 02_ports R56; reset 0: next tag -/
  nextTag : Nat
  /-- 28 × 16 pairs; 10_partitions R334; reset empty (buckets start full at zero rate): by 32 × partition + port -/
  buckets : Table Bucket
  /-- queue per port; 10_partitions R335; reset empty: OTHER lanes, by port index -/
  lanes : Table (List LaneReq)
  /-- 10_partitions R335; reset 0: round-robin position per port -/
  rr : Table Nat
  /-- 10_partitions R336; reset 0: borrowed bytes not yet a whole GB, per port -/
  borrowed : Table Nat
  /-- 16 ports; 02_ports R51, 14_startup R458; reset empty: memory ports that have opened -/
  opened : List Nat
  /-- 02_ports R56, 14_startup R458; reset empty: ports whose controllers raised MQ_READY -/
  ready : List Nat
  /-- 15_faults R482; reset empty: isolated memory ports -/
  isolated : List Nat
  /-- 512 slots; 13_security R429; reset empty: generation of the keys each slot holds -/
  keys : Table Nat
  /-- 13_security R436; reset empty: start of a slot's retirement, ns -/
  closing : Table Nat
  /-- 13_security R430; reset 0: generation of the memory part of the block-internal key -/
  internalKey : Nat
  /-- 96 bytes; 13_security R419, R430; reset empty: storage-key register, which only Customs' engines use -/
  storageKey : List Byte
  /-- 10_partitions R344, R347, R351; reset empty: what is being written with zeros, the first one under way -/
  wipes : List Wipe
  /-- MODEL's own: lanes whose front request has been counted in BW_PORT_x.WAITS, by port (R335, R355) -/
  waited : Table (List Nat)
  /-- MODEL's own: draws made so far of fresh keys and other open values (log 5) -/
  draws : Nat
  deriving DecidableEq, Repr

/-! ### Manifest -/

/-- A sequence-table entry that is not FREE (R230). -/
structure SeqEntry where
  slice : Nat
  /-- the guest-written fields -/
  g : SeqDesc
  /-- 1 PREFILL, 2 DECODE, 3 DENOISE, 4 PARKED, 5 DONE -/
  phase : Nat
  onFallback : Bool
  position : Nat
  pending : Nat
  parkReason : Nat
  resumePhase : Nat
  fbPos : Nat
  kvPos : Nat
  /-- page numbers of the primary and the fallback page table, entry 0 first (R242) -/
  pages : List Nat
  fbPages : List Nat
  pred : Nat
  /-- in a list in flight -/
  inList : Bool
  /-- owed a step in the FALLBACK lane on this model, the fallback it had when it was moved there (R255, R257) -/
  fbModel : Option Nat
  /-- order of its last parking (R244) and end of its last step (R246) -/
  parkedAt : Nat
  lastEnd : Nat
  /-- an UPDATE, PARK or RELEASE that waits for its list (R238) -/
  deferUpdate : Option (Nat × SeqDesc)
  deferPark : Bool
  deferRelease : Bool
  /-- some step of the schedule ran on the fallback (R239) -/
  anyFallback : Bool
  deriving DecidableEq, Repr

/-- A sequence owed a fallback step stands in the FALLBACK lane (R246). -/
def SeqEntry.fbLane (s : SeqEntry) : Bool := s.fbModel.isSome

/-- A registered model (R232, R233). -/
structure Model where
  r : ModelRec
  prefill : ModelProg
  step : ModelProg
  /-- stamp heads of its programs and weights -/
  heads : List Nat
  deriving DecidableEq, Repr

/-- A sequence's place in a list (R248). -/
structure ListEntry where
  seq : Nat
  tokens : Nat
  live : Bool
  predLate : Bool
  deadline : Nat
  /-- its step runs on a fallback model: an entry of a list of the FALLBACK lane that was owed its step there (R246) -/
  fallback : Bool
  deriving DecidableEq, Repr

/-- A loading list in flight (R248, R249). -/
structure LoadList where
  partition : Nat
  model : Nat
  phase : Nat
  fallback : Bool
  entries : List ListEntry
  /-- slices of section A and section B -/
  sliceA : Nat
  sliceB : Option Nat
  job : Nat
  built : Nat
  /-- items dealt to each rank (R251), and the berths in rank order -/
  deal : List Nat
  berths : List Nat
  /-- status of the list's job once it has ended -/
  status : Option Nat
  /-- w32; LIST_ID -/
  listId : Nat
  deriving DecidableEq, Repr

/-- A SERVE_CONFIG that waits for the lists of a partition before its change of DET (R262): its return code and the slice whose quota it wrote. -/
structure DetWait where
  partition : Nat
  det : Bool
  m : Mgr
  ret : Nat
  slice : Option Nat
  deriving DecidableEq, Repr

/-- Manifest (R230 to R264). -/
structure Manifest where
  /-- 16,384 entries; 07_manifest R230; reset empty (all FREE) -/
  seqs : Table SeqEntry
  /-- 1,024 slots; 07_manifest R232; reset empty -/
  models : Table Model
  /-- up to 16 per partition; 07_manifest R248; reset empty: lists in flight by list serial -/
  lists : Table LoadList
  /-- w32 per partition; 07_manifest R248; reset 0: LIST_ID counters -/
  listIds : Table Nat
  nextList : Nat
  /-- 07_manifest R236; reset empty: open ARMs by slice -/
  armed : Table Armed
  /-- 07_manifest R244; reset 0: order of parkings -/
  parkings : Nat
  /-- 07_manifest R262; reset empty: SERVE_CONFIGs waiting for lists before a DET change, oldest first -/
  detWait : List DetWait
  /-- 06_data R227, R317; reset empty: writes of Manifest that wait for a re-stamp: ARM command, buffer, offset, bytes -/
  owed : List (Nat × Nat × Nat × List Byte)
  deriving DecidableEq, Repr

/-! ### Hold -/

/-- A Hold object (R377 to R379). -/
structure HoldObj where
  owner : Nat
  stackMask : Nat
  slots : Nat
  sealed : Bool
  root : BitVec 384
  /-- slice, read, write -/
  grants : List (Nat × Bool × Bool)
  /-- slots recorded lost (R362) -/
  lost : List Nat
  /-- slots with a committed copy (R366, R367) -/
  written : List Nat
  /-- its overflow map: the slot address, in the slot's stack, of a copy that stands in an overflow unit (R366) -/
  moved : Table Nat
  /-- leaves of its Merkle tree, by slot, as the slots were written (R222, R379) -/
  leaves : Table (BitVec 384)
  /-- its channels in order, each with the physical units of its slots in order (R377) -/
  place : List (Nat × List Nat)
  /-- the nodes of its Merkle tree below the root, level by level from the leaves on (R379) -/
  tree : List (BitVec 384)
  /-- its tree slots: channel and slot address (R379) -/
  treeAt : List (Nat × Nat)
  /-- tree slots whose path to the root has been checked since power-on (R379) -/
  treeSeen : List Nat
  deriving DecidableEq, Repr

/-- A slot waiting for the sense scheduler or in flight on a plane (R219). -/
structure Sense where
  h : Nat
  slot : Nat
  /-- transfer it belongs to: berth, engine, serial, offset; none for the Dredger -/
  xfer : Option (Nat × Nat × Nat × Nat)
  handle : Nat
  /-- the slot address its PAGE_READ went to, through the remap table (R365); 0 until then -/
  addr : Nat
  deriving DecidableEq, Repr

/-- One write held in a merge buffer (R366, R368). -/
structure MergeWrite where
  handle : Nat
  slot : Nat
  at_ : Nat
  /-- the MOVE commands that wait for its flush -/
  jobs : List Nat
  /-- bytes written, in order: offset in the slot, bytes (R366) -/
  pieces : List (Nat × List Byte)
  deriving DecidableEq, Repr

/-- A change that a journal page makes visible (R364 to R367): a remap entry; a unit of a channel whose data has been rewritten into another; a slot of an object written, with its leaf and, for a copy in an overflow unit, its address. -/
inductive Commit where
  | remap (src dst kind : Nat)
  | unit (ch old new : Nat)
  | slot (handle slot : Nat) (leaf : BitVec 384) (moved : Option Nat)
  deriving DecidableEq, Repr

/-- What a page is programmed for (R367): a flush, whose changes are the store's own, or a copy, whose changes wait for a store once it stands. -/
inductive ProgFor where
  | flush
  | copy (then_ : List Commit)
  deriving DecidableEq, Repr

/-- A command a Hold channel runs (R59): RESET and IDENT at start-up; the program of a page, with the addresses of its slots and the 4,352 bytes of each (R359); a unit's slots programmed into a fresh unit, their SERIALs counted from `serial` on; an erase; the notice page; the journal page that ends a flush; a channel's half of a dump; a page of the table area with a new epoch (R400). -/
inductive HoldOp where
  | reset
  | ident
  | program (unit page : Nat) (slots : List Nat) (images : List (List Byte)) (why : ProgFor)
  | rewrite (old new : Nat) (slots : List Nat) (serial hours : Nat) (then_ : List Commit)
  | erase (unit : Nat)
  | notice (images : List (List Byte))
  | journal (images : List (List Byte))
  | dump (serial hours : Nat)
  | table (images : List (List Byte))
  deriving DecidableEq, Repr

/-- A Hold channel (R356, R358). -/
structure Channel where
  waiting : List Sense
  sensing : List Sense
  /-- PROGRAM, ERASE, RESET and IDENT commands, the first under way -/
  ops : List HoldOp
  /-- ns at which the first of `ops`, and the first of `sensing`, was issued (R59, R482) -/
  opAt : Nat
  senseAt : Nat
  /-- last time a request slot waited or was in flight, ns (R371) -/
  busyAt : Nat
  /-- erase counts by unit (R374), units marked bad, units free -/
  erases : Table Nat
  bad : List Nat
  free : List Nat
  spares : Nat
  units : Nat
  peRated : Nat
  /-- planes, and the units kept for tables, journal, relocation, notice page and dumps, the lowest ones (R356, R358) -/
  planes : Nat
  reserved : Nat
  /-- program failures by unit (R375), relocations in this lap by unit -/
  fails : Table Nat
  relocs : Table Nat
  /-- units marked bad once their data's rewrite is committed (R375) -/
  retiring : List Nat
  /-- number of the next committed slot of the Dredger's lap (R372) -/
  lapSlot : Nat
  /-- out of service (R381, R482) -/
  out : Bool
  /-- the units of its journal, its relocation units, the one in use first, and the unit of its notice page (R358) -/
  journal : List Nat
  reloc : List Nat
  noticeUnit : Nat
  /-- the next slot of the relocation unit in use; relocations gathered for its next page, FROM and image, and ns at which the first of them came (R364) -/
  relocAt : Nat
  relocPage : List (Nat × List Byte)
  relocSince : Nat
  /-- overflow units, the one in use first, and the next slot of that one (R366) -/
  overUnits : List Nat
  overAt : Nat
  /-- units programmed since their erase: not blank (R367) -/
  used : List Nat
  /-- the Dredger's senses in flight, by slot address (R371) -/
  dredging : List Nat
  deriving DecidableEq, Repr

/-- A Hold stack (R356 to R376). -/
structure Stack where
  /-- w64; 11_hold R359: write serial: 1 more for every slot programmed -/
  serial : Nat
  hours : Nat
  merge : List MergeWrite
  /-- merge buffer flushing: the number of its first entries that are in the store in progress -/
  flushing : Option Nat
  /-- 11_hold R364, R365, R367: changes that wait for a store, and those of the store in progress -/
  commits : List Commit
  committing : List Commit
  /-- slots due for relocation, by slot address (R364) -/
  relocQueue : List Nat
  /-- what each of them was decoded to: object handle, slot, data (R364) -/
  corrected : Table (Nat × Nat × List Byte)
  /-- units queued for a fold or a whole-unit rewrite (R365, R372) -/
  foldQueue : List Nat
  lapSince : Nat
  lapAlarmed : Bool
  lifeAlarmed : Bool
  /-- notice page programmed (R370), and whether its program failed -/
  notice : List MergeWrite
  noticeTorn : Bool
  /-- 11_hold R368: an internal read has met a slot that the merge buffer holds -/
  wanted : Bool
  deriving DecidableEq, Repr

/-- A Logbook record (R484); SEQ is its place in its class. -/
structure LogRec where
  time : Nat
  seq : Nat
  code : Nat
  cls : Nat
  status : Nat
  unitKind : Nat
  unitIdx : Nat
  slice : Option Nat
  ctx : Nat
  data : List Nat
  deriving DecidableEq, Repr

/-- An alarm source's entry (R485). -/
structure Alarm where
  code : Nat
  unitKind : Nat
  unitIdx : Nat
  count : Nat
  unacked : Nat
  first : LogRec
  last : LogRec
  /-- last notification, ns (R487) -/
  notified : Option Nat
  /-- an occurrence is owed a notification -/
  owed : Bool
  deriving DecidableEq, Repr

/-- What a capture or a dump record holds of the block (R474, R490): units without store contents, tile entries and registers, and tables. -/
structure Snapshot where
  berths : Table Berth
  cores : Table Core
  queues : Table Queue
  cmds : Table Cmd
  ctxs : Table Ctx
  fences : Table Fence
  seqs : Table SeqEntry
  regs : Table Word
  alarms : List Alarm
  events : List LogRec
  traces : List LogRec
  /-- the hang detector's last graph: nodes with their edges (R471) -/
  graph : List ((Nat × Nat) × List (Nat × Nat))
  deriving DecidableEq, Repr

/-- A dump record in H0's dump area (R380, R490). -/
structure Dump where
  trigger : Nat
  unit : Nat
  time : Nat
  epoch : Nat
  level : Nat
  count : Nat
  suspects : List Nat
  notWritten : Nat
  read : Bool
  /-- 15_faults R474, R490: the capture before the reset, and the record's other sections -/
  capture : Snapshot
  tables : Snapshot
  deriving DecidableEq, Repr

/-- The Hold controller (R356 to R383). -/
structure Hold where
  /-- up to 65,535; 11_hold R377; reset DESIGN CHOICE empty (log 6: the stacks' contents at power-on): objects by table index -/
  objs : Table HoldObj
  /-- w16 each; 11_hold R377; reset 0: generation of the last handle per table index -/
  gens : Table Nat
  /-- 16; 11_hold R356; reset empty (unlisted: no unit known until IDENT) -/
  chans : Table Channel
  /-- 8; 11_hold R359; reset empty (unlisted: zero) -/
  stks : Table Stack
  /-- 8; 11_hold R380; reset empty: dump records by number -/
  dumps : Table Dump
  /-- up to 2; 15_faults R489; reset empty: dumps being written or waiting -/
  dumpQueue : List Dump
  /-- 15_faults R489, 02_ports R84; reset false: the first of them is being written -/
  dumpWriting : Bool
  /-- 15_faults R490; reset 0: dump count since power-on -/
  dumpCount : Nat
  /-- 14_startup R400; reset DESIGN CHOICE 0 (log 6): epoch last recorded in H0's table area -/
  epochRecord : Nat
  /-- 04_berth R158; reset empty: repair record: (berth, line) -/
  repairs : List (Nat × Nat)
  /-- 02_ports R84; reset false: PWR_WARN_N is low -/
  powerWarn : Bool
  /-- 24; 15_faults R474; reset empty: captures in the dump staging area, by unit: berths 0 to 15, cores from 16 on -/
  staging : Table Snapshot
  deriving DecidableEq, Repr

/-! ### Endpoint and Ferry -/

/-- A window table entry (R397). -/
structure Window where
  r : WinRec
  prevEpoch : Nat
  /-- being closed, and for whom, if a WINDOW_CLOSE asked (R414, R415) -/
  closing : Option (Option Mgr)
  /-- checked requests not finished -/
  inflight : Nat
  deriving DecidableEq, Repr

/-- An outstanding fabric request (R399). -/
structure FabReq where
  b : Nat
  e : Nat
  serial : Nat
  blk : Nat
  win : Nat
  /-- byte of the transfer it starts at -/
  off : Nat
  bytes : Nat
  store : Nat
  op : Nat
  since : Nat
  /-- the link it uses (R396) -/
  link : Nat
  /-- PING: the manager and t1 (R516) -/
  ping : Option (Mgr × Nat)
  /-- its stream was saved or stopped after it was issued (R145, R225): the stream's job and rank -/
  gone : Option (Nat × Nat)
  deriving DecidableEq, Repr

/-- An inbound request that passed its checks and is being carried out (R224, R398): link, message, failure met, bytes answered, old value of an ATOMIC. -/
structure Serving where
  l : Nat
  m : FabMsg
  total : Nat
  st : Nat
  pieces : List (Nat × List Byte)
  old : Word
  deriving DecidableEq, Repr

/-- What a lane transmits (R384, R385): a block, header above payload; n fill blocks; n times a comma, the first with the count given, before 4,096 fill blocks. -/
inductive LaneItem where
  | block (b : BitVec 130)
  | fill (n : Nat)
  | idle (n first : Nat)
  deriving DecidableEq, Repr

/-- A lane (R385, R391 to R393) beyond FE_LANE. -/
structure Lane where
  /-- its receive direction, and its transmit direction, is in service -/
  active : Bool
  tx : Bool
  locked : Bool
  idleDet : Bool
  /-- consecutive scans below a threshold (R392) -/
  lowScans : Nat
  /-- last scan met both thresholds -/
  good : Bool
  /-- symbols corrected in the last second: time, ns, and count (R392) -/
  syms : List (Nat × Nat)
  /-- w16; 12_fabric R385: comma count the receive lane was locked to when the link trained -/
  comma : Nat
  /-- 12_fabric R385: bits to transmit that do not fill a block yet, with their number -/
  part : Nat × Nat
  /-- 12_fabric R384: blocks since the last comma, the count of that comma, blocks with commas since the lanes came into step -/
  pos : Nat
  txCount : Nat
  slots : Nat
  /-- 12_fabric R384, R385: what it has transmitted -/
  out : List LaneItem
  deriving DecidableEq, Repr

/-- A spare-lane swap in progress (R393). -/
structure Swap where
  lane : Nat
  fromPeer : Bool
  /-- 1 requested, 2 locked and SWAP_GO sent -/
  step : Nat
  at_ : Nat
  deriving DecidableEq, Repr

/-- A flit but for its ACK and CREDIT, which are set when it goes out (R384, R386): kind 1 is link control. -/
structure Flit where
  seq : Nat
  control : Bool
  lctl : Nat
  swapAt : Nat
  chunks : List Byte
  deriving DecidableEq, Repr

/-- A link (R384 to R394). -/
structure Link where
  txSeq : Nat
  /-- w12; sequence of the next flit expected -/
  rxSeq : Nat
  /-- up to 512: sequences kept for replay -/
  kept : List Nat
  replaysOf : Nat × Nat
  nakOwed : Bool
  /-- messages to send, in order -/
  txq : List FabMsg
  lastChunk : Nat
  /-- a chunk waits while the direction is idle (R389) -/
  chunkWaits : Bool
  idleSent : Bool
  peerIdle : Bool
  txIdle : Bool
  lanes : Table Lane
  swap : Option Swap
  /-- LINK_CONFIG: allowed rate and width -/
  allowHalf : Bool
  allowNarrow : Bool
  /-- 12_fabric R388, 14_startup R458; reset false: it trains at half rate, as L0 does in stage S3 -/
  startHalf : Bool
  lctl : List (Nat × Nat × Nat)
  /-- the flits of `kept`, by sequence (R387), and those that wait for the direction to run (R389, R390) -/
  flits : Table Flit
  unsent : List Flit
  /-- 12_fabric R384, R385: ns at which the transmit lanes came into step, and at which the receive lanes were locked -/
  commaAt : Nat
  rxAt : Nat
  /-- 12_fabric R393: the transmit lane that lane 8 stands in for -/
  txSpare : Option Nat
  /-- 12_fabric R391: where the rotation of scans goes on -/
  scanFrom : Nat
  /-- 12_fabric R389: the flit with the IDLE notice that waits for its acknowledgement -/
  idleSeq : Option Nat
  /-- ns at which the direction became idle (R390) -/
  idleAt : Nat
  deriving DecidableEq, Repr

/-- A Ferry group (R403). -/
structure Group where
  r : GroupRec
  prevEpochs : Table Nat
  nextSeq : Nat
  /-- credits kept for sequences not started: (sequence, source) (R405) -/
  credits : List (Nat × Nat)
  /-- highest sequence completed or timed out -/
  finished : List Nat
  deriving DecidableEq, Repr

/-- A collective of this block, in flight or waiting to start (R404 to R412). -/
structure Coll where
  /-- group-table entry -/
  entry : Nat
  /-- sequence number, once started (R405) -/
  sq : Nat
  op : Nat
  mode : Nat
  format : Nat
  root : Nat
  /-- bytes each stream gives, or the FERRY command's LEN -/
  len : Nat
  mask : Nat
  /-- the command: the job of the streams, or the FERRY command -/
  job : Nat
  /-- of a coll instruction, not of a FERRY command -/
  fromBerth : Bool
  /-- streams that have issued the coll: rank, berth, source and destination address (R197) -/
  places : List (Nat × Nat × Nat × Nat)
  /-- it holds a slot and a sequence number (R404, R405) -/
  begun : Bool
  /-- last message or start, ns (R411) -/
  timer : Nat
  started : Nat
  /-- peers that have granted credit, and peers already sent to (R405) -/
  credits : List Nat
  sentTo : List Nat
  /-- peers whose first message has arrived (R413) -/
  heard : List Nat
  /-- a FERRY command's source bytes read so far: offset and bytes -/
  own : List (Nat × List Byte)
  /-- parts received, by source rank, with their chunk index -/
  parts : List (Nat × Nat × FerryPart)
  /-- source ranks whose contribution is whole -/
  complete : List Nat
  /-- 04_berth R132, R156: uncorrectable data was met when its turn came to start -/
  bad : Bool
  deriving DecidableEq, Repr

/-- The endpoint and Ferry (R384 to R416). -/
structure Fabric where
  /-- 4,096; 12_fabric R397; reset empty -/
  windows : Table Window
  /-- 12_fabric R399; reset empty: outstanding requests by tag -/
  reqs : Table FabReq
  nextTag : Nat
  /-- 12_fabric R398; reset empty: inbound requests being carried out, by serial -/
  serving : Table Serving
  nextServe : Nat
  /-- 2; 12_fabric R388; reset empty (unlisted: DOWN, nothing kept) -/
  links : Table Link
  /-- 256; 12_fabric R403; reset empty -/
  groups : Table Group
  /-- up to 64; 12_fabric R404; reset empty: collectives in flight by serial -/
  colls : Table Coll
  nextColl : Nat
  /-- 512; 12_fabric R413; reset 0: largest and last lateness per peer block, us -/
  late : Table (Nat × Nat)
  deriving DecidableEq, Repr

/-! ### Lighter ports -/

/-- A memory request of a tile held on a stale run (R64). -/
structure HeldMreq where
  id : Nat
  tag : Nat
  buf : Nat
  off : Nat
  len : Nat
  write : Bool
  data : List Byte
  deriving DecidableEq, Repr

/-- A request of a Lighter engine under way: the request, its command's serial, the failure met, the pieces answered (R63, R64). -/
structure Gather where
  q : HeldMreq
  c : Nat
  st : Nat
  pieces : List (Nat × List Byte)
  deriving DecidableEq, Repr

/-- A Lighter port (R63 to R65). -/
structure Lighter where
  /-- up to 256; 02_ports R63: outstanding commands by tag: the command serial -/
  cmds : Table Nat
  /-- four-phase ABORT handshakes in progress: tag and start, ns -/
  aborts : List (Nat × Nat)
  isolated : Bool
  /-- MRSP beats sent: id, status, data -/
  rsp : List (Nat × Nat × List Byte)
  /-- CMD beats sent: LC_TAG, LC_CTX, the 64 bytes of LC_DATA -/
  sent : List (Nat × Nat × List Byte)
  /-- requests held on stale runs (R64) -/
  held : List HeldMreq
  /-- requests under way (R63, R64) -/
  gather : List Gather
  deriving DecidableEq, Repr

/-! ### Harbourmaster, boot, configuration -/

/-- An SPDM session (R425). -/
structure Session where
  /-- 0 version seen, 1 capabilities, 2 algorithms, 3 key exchanged, 4 established -/
  stage : Nat
  /-- digest of the requester's root key, once it has management rights -/
  key : Option (List Byte)
  /-- rights under R455: a ROM root key -/
  rom : Bool
  deriving DecidableEq, Repr

/-- The lease on S0 (R428). -/
structure Lease where
  key : List Byte
  /-- end, ns -/
  till : Nat
  ms : Nat
  deriving DecidableEq, Repr

/-- A reply of a manager command (R25, R504, R505). -/
structure Reply where
  session : Nat
  seq : Nat
  opcode : Nat
  retcode : Nat
  data : List Nat
  deriving DecidableEq, Repr

/-- A manager command that has not ended (R329, R466). -/
structure Running where
  m : Mgr
  opcode : Nat
  /-- partition or slice it touches, when of range 0x01xx -/
  touches : List Nat
  since : Nat
  /-- it has replied TIMEOUT -/
  late : Bool
  /-- sectors still to write, masks still to do, or the next step, as its chapter gives -/
  todo : Nat
  deriving DecidableEq, Repr

/-- The applied configuration (R451, R452): integers by field ID, blobs by field ID. -/
structure Applied where
  ints : List (Nat × Int)
  blobs : List (Nat × List Byte)
  deriving DecidableEq, Repr

/-- One entry of the clamp report (R453). -/
structure ClampEntry where
  field : Nat
  reason : Nat
  badSect : Bool
  given : Int
  applied : Int
  deriving DecidableEq, Repr

/-- The clamp report (R453). -/
structure ClampReport where
  source : Nat
  hdrA : Nat
  hdrB : Nat
  badSect : Nat
  seq : Nat
  entries : List ClampEntry
  dropped : Nat
  deriving DecidableEq, Repr

/-- What the ROM derives from SEED (R419). -/
structure Dice where
  /-- public keys of DeviceID and Alias, 96 bytes each; Alias' private key and certificate -/
  deviceId : List Byte
  aliasPub : List Byte
  aliasKey : List Byte
  aliasCert : List Byte
  /-- the ROM's working memory: SEED and DeviceID's private key while S0 runs, erased before firmware runs -/
  romWork : List Byte
  deriving DecidableEq, Repr

/-- Configuration memory, boot and the Harbourmaster (R417 to R478). -/
structure Harbour where
  /-- 16 MiB; 13_security R420, R447; reset DESIGN CHOICE none (log 7): firmware bundle in slot A -/
  bundleA : Option Bundle
  /-- 16 MiB; 13_security R420; reset DESIGN CHOICE none (log 7): firmware bundle in slot B -/
  bundleB : Option Bundle
  /-- 16 MiB; 14_startup R447; reset DESIGN CHOICE none (log 7): configuration image A -/
  imageA : Option CfgImage
  /-- 16 MiB; 14_startup R447; reset DESIGN CHOICE none (log 7): configuration image B -/
  imageB : Option CfgImage
  /-- 13_security R421; reset none: the bundle booted, false A, true B -/
  booted : Option Bool
  /-- 13_security R423; reset 0: SVNs of the running components -/
  svnHm : Nat
  svnCore : Nat
  svnUcode : Nat
  /-- w384 each; 13_security R426; reset 0: digests of the components that run -/
  hmDigest : BitVec 384
  coreDigest : BitVec 384
  ucodeDigest : BitVec 384
  /-- 13_security R419; reset empty: keys and certificate the ROM has derived -/
  dice : Dice
  /-- 13_security R422; reset false: general-core firmware, berth microcode loaded -/
  coreFw : Bool
  ucode : Bool
  /-- 14_startup R456; reset none: last stage ended (0 to 4); none before S0 ends -/
  stage : Option Nat
  /-- 14_startup R456, R459; reset 0: release of the last reset, ns -/
  released : Nat
  /-- 12_fabric R400; reset true: that reset was PORST_N's -/
  cold : Bool
  /-- w1; 12_fabric R400; reset false: the epoch of this start is recorded in H0's table area -/
  epochTaken : Bool
  /-- 15_faults R478; reset false: a block reset waits for its dump and for its reply to be out -/
  resetOwed : Bool
  /-- 15_faults R477; reset false: the Harbourmaster is in reset -/
  down : Bool
  /-- 14_startup R462; reset none: recovery in progress: header and next offset -/
  recovery : Option (Bundle × Nat)
  recovering : Bool
  /-- 14_startup R451; reset empty: applied configuration -/
  cfg : Applied
  /-- 14_startup R453; reset empty -/
  report : ClampReport
  /-- 14_startup R465; reset empty: trims set by CALIB_APPLY, over the applied ones -/
  trims : List (Nat × Int)
  /-- up to 4; 13_security R425; reset empty: SPDM sessions -/
  sessions : Table Session
  nextSession : Nat
  /-- 13_security R428; reset none -/
  lease : Option Lease
  /-- 14_startup R464; reset none: key the lease is reserved for, till, ns -/
  reserved : Option (List Byte × Nat)
  /-- up to 4; 13_security R431; reset empty: migration keys by identifier -/
  migKeys : Table (List Byte)
  /-- 13_security R424; reset false -/
  debug : Bool
  /-- 13_security R505; reset empty: replies sent on S0, oldest first -/
  replies : List Reply
  /-- 14_startup R506; reset empty: reply pieces still owed, by session -/
  pieces : Table (List Nat)
  /-- 10_partitions R329, 14_startup R466; reset empty: manager commands in progress -/
  running : List Running
  /-- 10_partitions R329; reset empty: commands of the range 0x01xx that wait for the one in progress, in arrival order -/
  deferred : List Instr
  /-- MODEL's own; reset false: the command that acts now is the first of those, whose turn has come (R329) -/
  inTurn : Bool
  /-- 14_startup R463; reset none: the staged bundle's slot -/
  staged : Option Bool
  /-- 02_ports R82; reset none: configuration-memory store in progress: sectors left -/
  xspi : Option Nat
  /-- w1; 02_ports R82, 14_startup R463; reset false: between two of its sectors, each of which is a store -/
  xspiGap : Bool
  /-- 14_startup R465; reset none: image being written by the store in progress -/
  writingImage : Option CfgImage
  /-- 14_startup R462, R463; reset none: bundle being written by the store in progress -/
  writingBundle : Option Bundle
  /-- 14_startup R457, R460; reset empty: units out of service or marked failed -/
  failed : List OpenUnit
  /-- 14_startup R457, 15_faults R482; reset false: a checker failed -/
  checkerFailed : Bool
  /-- 14_startup R458; reset empty: units open -/
  openUnits : List OpenUnit
  /-- 02_ports R69; reset 0: SERVICE_IRQ pulses sent -/
  servicePulses : Nat
  deriving DecidableEq, Repr

/-! ### Logbook, mailboxes, Watchkeeper, Tally -/

/-- The Logbook (R483 to R492). -/
structure Logbook where
  /-- 1,024; 15_faults R485; reset empty: alarm table, source index order -/
  alarms : List Alarm
  /-- 16,384 (512 before M0 opens); 15_faults R483; reset empty: event ring, oldest first -/
  events : List LogRec
  /-- 65,536 (512 before M0 opens); 15_faults R483; reset empty: trace ring, oldest first -/
  traces : List LogRec
  /-- w32 each; 15_faults R484; reset 0: records accepted per class -/
  seqA : Nat
  seqE : Nat
  seqT : Nat
  /-- 15_faults R486; reset empty (buckets full): tokens × 10^9 and last update per event source and per slice -/
  evTokens : List ((Nat × Nat × Nat × Nat) × Nat × Nat)
  trTokens : Table (Nat × Nat)
  /-- 02_ports R68; reset empty: records sent on the debug trace port -/
  tracePort : List LogRec
  /-- 15_faults R471; reset empty: cycles the last scan met, with the scans in a row that met them; a node is a command (0, serial) or a stream (1 + rank, job) -/
  hangs : List (List (Nat × Nat) × Nat)
  /-- 15_faults R471, R472; reset empty: the graph of the last scan: nodes with their edges -/
  graph : List ((Nat × Nat) × List (Nat × Nat))
  deriving DecidableEq, Repr

/-- A mailbox channel beyond its registers (R501 to R507). -/
structure Mailbox where
  /-- 448 bytes (1,984 in S0); 16_bell R502; reset empty (zeros): buffer -/
  buf : List Byte
  posted : Nat
  /-- gathered request pieces: OPCODE, SEQ, bytes (R506) -/
  gather : Option (Nat × Nat × Nat)
  deriving DecidableEq, Repr

/-- Watchkeeper beyond its registers (R510 to R513). -/
structure Watch where
  /-- 48 × last 5; 16_bell R510; reset empty: thermal samples, newest first -/
  temps : Table (List Int)
  /-- 16 × last 3; 16_bell R510; reset empty: voltage samples, newest first -/
  volts : Table (List Int)
  /-- 16_bell R510; reset 0: filtered y, 1/128 C and 1/16 mV -/
  tempY : Table Int
  voltY : Table Int
  /-- 16_bell R511, R143; reset empty: the ceilings of the last tick by berth: its own, the one it moves to, whether lockstep set it -/
  ceilings : Table (Nat × Nat × Bool)
  /-- 16_bell R511; reset empty: last 100 samples of WK_POWER, newest first -/
  power : List Nat
  /-- 16_bell R511; reset 0: ticks the mean has been below the cap less 5 W -/
  below : Nat
  /-- 16_bell R513; reset 0: last kick, ns; warning given -/
  kicked : Nat
  warned : Bool
  wdogStopped : Bool
  /-- 16_bell R512; reset 0: nothing has run since, ns; DROWSE since, ns -/
  quietSince : Nat
  drowseSince : Nat
  /-- 02_ports R69; reset false: HOST_ACT -/
  hostAct : Bool
  deriving DecidableEq, Repr

/-- What a slice's view shows: the values at a 1 ms boundary, coarsened (R440, R526). -/
structure ViewSnap where
  /-- the boundary, ns -/
  time : Nat
  berthUs : Nat
  coreUs : Nat
  powerW : Nat
  counts : List Nat
  deriving DecidableEq, Repr

/-- Tally beyond its registers (R523). -/
structure Tally where
  /-- 28; 17_tally R523; reset 0: bytes counted in the running window, by port -/
  window : Table Nat
  /-- 17_tally R523; reset 0: start of the running windows, ns -/
  since : Nat
  /-- 17_tally R524; reset 0: berth-ns and core-ns charged, by slice -/
  berthNs : Table Nat
  coreNs : Table Nat
  /-- 17_tally R440, R526; reset empty: what the views of slices show of the last 1 ms boundary, by slice -/
  snaps : Table ViewSnap
  deriving DecidableEq, Repr

/-! ### The block -/

/-- Everything the block holds outside the ties, the fuses and the always-on domain. -/
structure Block where
  /-- w64 each; 00_scope R12, R13; reset per field: control-space registers by address; an unlisted one holds its reset value -/
  regs : Table Word
  /-- 02_ports R69, R80: pins and power domains -/
  power : Power
  /-- w64; 00_scope R12; reset DESIGN CHOICE 0 (log 8): data returned by the last control-space, claim or aperture read -/
  readData : Word
  host : HostPort
  quay : Quay
  pilot : Pilot
  /-- 16; 04_berth R122; reset each scrubbed and GATED: berths; an unlisted berth is in that state -/
  berths : Table Berth
  /-- 8; 08_quay R278; reset each off and idle: general cores; an unlisted core is in that state -/
  cores : Table Core
  ports : Ports
  /-- 0-256; 10_partitions R344; reset empty: streams saved, by slot (early slots from 256) -/
  slots : Table Saved
  /-- 04_berth R146; reset empty: berths waiting for the preemption reserve, oldest first -/
  reserveQueue : List Nat
  manifest : Manifest
  hold : Hold
  fabric : Fabric
  /-- 4; 02_ports R63; reset empty: Lighter ports; an unlisted port is idle -/
  lighters : Table Lighter
  harbour : Harbour
  log : Logbook
  /-- 8; 16_bell R501; reset empty: mailbox channels S0, S1, N0 to N5 -/
  boxes : Table Mailbox
  watch : Watch
  tally : Tally
  /-- 16; 10_partitions R340; reset 0: origin of each partition's QUANTUM boundaries, ns -/
  quantumFrom : Table Nat
  deriving DecidableEq, Repr

/-- The state of the block, and the commands that wait, first in first out. -/
structure State where
  ties : Ties
  fuses : Fuses
  aon : AlwaysOn
  blk : Block
  /-- MODEL's own queue of commands; reset empty -/
  pending : List Instr
  deriving DecidableEq, Repr

/-! ### Reset -/

/-- A cleared tile (R96, R97). -/
def Tile.reset : Tile := ⟨[], 0, 0, true, false, false, false, 0x3F800000, 0x3F800000, []⟩
/-- The registers and memories of a scrubbed berth (R123, R147). -/
def Regs.reset : Regs := ⟨[], [], [], [], [], []⟩
/-- A berth after reset: scrubbed, nothing running. -/
def Berth.reset : Berth :=
  { stream := none, regs := Regs.reset, me0 := [], me1 := [], nextSerial := 0, icache := [], icacheSlice := none
    yield := none, entry := none, quiescing := none, saving := none, slot := none, reserveWait := false, moving := 0, moved := 0, swapping := none, parityTimes := []
    badBits := [], stuckBits := [], writeBack := [], reread := [], spare := [], resetting := none, suspects := [], guilty := false, unattributed := []
    occupants := [], trail := [], progress := 0, countdown := 0, sampled := [], samples := [], oppSince := 0
    idleSince := 0, opened := false, busySince := 0, newUcode := false }
/-- A general core after reset. -/
def Core.reset : Core := ⟨none, 0, 0, 0, 0, 0, 0, CoreRegs.zero, none, [], false, false, none, 0, false, false⟩
/-- A link after reset. -/
def Link.reset : Link :=
  { txSeq := 0, rxSeq := 0, kept := [], replaysOf := (0, 0), nakOwed := false, txq := [], lastChunk := 0, chunkWaits := false, idleSent := false,
    peerIdle := false, txIdle := false, lanes := [], swap := none, allowHalf := false, allowNarrow := false, startHalf := false, lctl := [],
    flits := [], unsent := [], commaAt := 0, rxAt := 0, txSpare := none, scanFrom := 0, idleSeq := none, idleAt := 0 }
/-- A lane after reset. -/
def Lane.reset : Lane := ⟨false, false, false, false, 0, false, [], 0, (0, 0), 0, 0, 0, []⟩
/-- A Lighter port after reset. -/
def Lighter.reset : Lighter := ⟨[], [], false, [], [], [], []⟩
/-- A Hold channel after reset. -/
def Channel.reset : Channel := ⟨[], [], [], 0, 0, 0, [], [], [], 0, 0, 0, 0, 0, [], [], [], 0, false, [], [], 0, 0, [], 0, [], 0, [], []⟩
/-- A Hold stack's working state after reset. -/
def Stack.reset : Stack :=
  { serial := 0, hours := 0, merge := [], flushing := none, commits := [], committing := [], relocQueue := [], corrected := [], foldQueue := []
    lapSince := 0, lapAlarmed := false, lifeAlarmed := false, notice := [], noticeTorn := false, wanted := false }
/-- A mailbox channel after reset. -/
def Mailbox.reset : Mailbox := ⟨[], 0, none⟩
/-- The host port after reset. -/
def HostPort.reset : HostPort := ⟨[], 0, [], [], false, 0, 512, 128, true, false⟩
/-- Quay after reset: the first context is 1, the first fence 0 (R293, R298). -/
def Quay.reset : Quay := ⟨[], [], [], 0, [], 1, [], [], 0, [], [], 0⟩
/-- Pilot after reset. -/
def Pilot.reset : Pilot := ⟨[], [], [], [], [], [], [], [], [], [], 0, [], []⟩
/-- The ports after reset. -/
def Ports.reset : Ports := ⟨[], 0, [], [], [], [], [], [], [], [], [], 0, [], [], [], 0⟩
/-- Manifest after reset. -/
def Manifest.reset : Manifest := ⟨[], [], [], [], 0, [], 0, [], []⟩
/-- The Hold controller after reset. -/
def Hold.reset : Hold := ⟨[], [], [], [], [], [], false, 0, 0, [], false, []⟩
/-- The endpoint and Ferry after reset. -/
def Fabric.reset : Fabric := ⟨[], [], 0, [], 0, [], [], [], 0, []⟩
/-- The clamp report after reset. -/
def ClampReport.reset : ClampReport := ⟨0, 0, 0, 0, 0, [], 0⟩
/-- The Harbourmaster after reset; the contents of the configuration memory are log 7's. -/
def Harbour.reset : Harbour :=
  { bundleA := none, bundleB := none, imageA := none, imageB := none, booted := none,
    svnHm := 0, svnCore := 0, svnUcode := 0, hmDigest := 0, coreDigest := 0, ucodeDigest := 0, dice := ⟨[], [], [], [], []⟩, coreFw := false, ucode := false, stage := none, released := 0, cold := true, epochTaken := false, resetOwed := false, down := false,
    recovery := none, recovering := false, cfg := ⟨[], []⟩, report := ClampReport.reset, trims := [],
    sessions := [], nextSession := 0, lease := none, reserved := none, migKeys := [], debug := false,
    replies := [], pieces := [], running := [], deferred := [], inTurn := false, staged := none, xspi := none, xspiGap := false, writingImage := none, writingBundle := none,
    failed := [], checkerFailed := false, openUnits := [], servicePulses := 0 }
/-- The Logbook after reset (R483). -/
def Logbook.reset : Logbook := ⟨[], [], [], 0, 0, 0, [], [], [], [], []⟩
/-- Watchkeeper's working state after reset. -/
def Watch.reset : Watch := ⟨[], [], [], [], [], [], 0, 0, false, false, 0, 0, false⟩
/-- Tally's working state after reset. -/
def Tally.reset : Tally := ⟨[], 0, [], [], []⟩

/-- The pins and power domains right after PORST_N (R80; log 4). -/
def Power.reset : Power := ⟨false, 0, 0, 0, 0, false, false⟩

/-- The block right after reset (R70): every register at its reset value, every table empty. -/
def Block.reset : Block :=
  { regs := [], power := Power.reset, readData := 0, host := HostPort.reset, quay := Quay.reset, pilot := Pilot.reset,
    berths := [], cores := [], ports := Ports.reset, slots := [], reserveQueue := [],
    manifest := Manifest.reset, hold := Hold.reset, fabric := Fabric.reset, lighters := [],
    harbour := Harbour.reset, log := Logbook.reset, boxes := [], watch := Watch.reset, tally := Tally.reset,
    quantumFrom := [] }

/-- The ties of the instance modelled (log 2). -/
def Ties.reset : Ties := ⟨0xFF, 0xFF, 0xF, 0⟩
/-- The fuses of the instance modelled (log 3). -/
def Fuses.reset : Fuses := ⟨0x190A55AD, 2, 0, 0, 0, 0, 0⟩
/-- The always-on counters right after PORST_N (R70, R416, R515). -/
def AlwaysOn.reset : AlwaysOn := ⟨0, 1⟩

/-- The machine right after reset: PORST_N released, no stage ended, no command waiting. -/
def State.reset : State :=
  { ties := Ties.reset, fuses := Fuses.reset, aon := AlwaysOn.reset, blk := Block.reset, pending := [] }

end Sys2Proof.Machine
end

