-- ==== Sys2Proof/Machine/Regs.lean ====
section
/-! DEFINITION. The control-space registers as the manual's register tables give them: the kinds, their addresses (R13, R15, R151, R264, R302, R327, R355, R383, R416, R446, R492, R500, R507, R513, R528), their fields, access codes (R8) and reset values.
`F.<REGISTER>_<FIELD>` is a field; reserved bits belong to no field and read 0. -/

namespace Sys2Proof.Machine

open Sys2Proof

/-- A kind of control-space register; several have one instance per berth, slice, port, ... -/
inductive RegKind where
  | glbId
  | glbService
  | glbConfig
  | glbAccessErr
  | qyDbReject
  | qyDbStale
  | qyFenceStat
  | qyCmdStat
  | qySquota
  | plCtl
  | plStat
  | plMissStat
  | plInvStat
  | plSquota
  | plGranule
  | mfPctl
  | mfPstat
  | mfPlate
  | mfPace
  | mfSquota
  | feId
  | feCtl
  | feStat
  | feLink
  | feLane
  | fyCtl
  | fyStat
  | fyLateSel
  | fyLate
  | hdCtl
  | hdMerge
  | hdStack
  | hdEcc
  | hdScrubLap
  | hdLife
  | hdPshare
  | hdRemap
  | cuSec
  | cuStat
  | cuErrAddr
  | cuKey
  | bwMode
  | bwSave
  | bwPart
  | bwSched
  | bwSlice
  | bwRate
  | bwPort
  | blRaise
  | blStat
  | blClaim
  | blComplete
  | blMask
  | blFclaim
  | blFcomplete
  | blFmask
  | blTarget
  | mbPost
  | mbState
  | mbAck
  | mbTake
  | mbReply
  | mbCfg
  | mbStat
  | mbNotify
  | tlBcfg
  | tlBcnt
  | tlGcfg
  | tlGcnt
  | tlSamp
  | tlBwctl
  | tlBwin
  | tlPace
  | tlSlice
  | tlScore
  | lbCtl
  | lbStat
  | lbFlags
  | lbAlarm
  | lbHang
  | lbDump
  | wkCtl
  | wkPolicy
  | wkState
  | wkWdog
  | wkPower
  | wkNs
  | wkThrot
  | wkTemp
  | wkVolt
  | btState
  | btCtl
  | btSpareMap
  | btArrayHealth
  | btClock
  | btEccStatus
  | btStoreBase
  | btRemap
  deriving DecidableEq, Repr

/-- A field of a register: its kind, lowest bit and width. -/
structure Fld where
  kind : RegKind
  lo : Nat
  w : Nat
  deriving DecidableEq, Repr

/-- The address of instance 0 of a register. -/
def RegKind.base : RegKind → Nat
  | .glbId => 0x0
  | .glbService => 0x8
  | .glbConfig => 0x10
  | .glbAccessErr => 0x18
  | .qyDbReject => 0x100000
  | .qyDbStale => 0x100008
  | .qyFenceStat => 0x100010
  | .qyCmdStat => 0x100018
  | .qySquota => 0x101000
  | .plCtl => 0x400000
  | .plStat => 0x400008
  | .plMissStat => 0x400010
  | .plInvStat => 0x400018
  | .plSquota => 0x401000
  | .plGranule => 0x480000
  | .mfPctl => 0x500000
  | .mfPstat => 0x500080
  | .mfPlate => 0x500100
  | .mfPace => 0x500180
  | .mfSquota => 0x501000
  | .feId => 0x600000
  | .feCtl => 0x600008
  | .feStat => 0x600010
  | .feLink => 0x600100
  | .feLane => 0x600200
  | .fyCtl => 0x680000
  | .fyStat => 0x680008
  | .fyLateSel => 0x680010
  | .fyLate => 0x680018
  | .hdCtl => 0x700000
  | .hdMerge => 0x700008
  | .hdStack => 0x700100
  | .hdEcc => 0x700200
  | .hdScrubLap => 0x700300
  | .hdLife => 0x700400
  | .hdPshare => 0x700500
  | .hdRemap => 0x701000
  | .cuSec => 0x800000
  | .cuStat => 0x800008
  | .cuErrAddr => 0x800010
  | .cuKey => 0x801000
  | .bwMode => 0x880000
  | .bwSave => 0x880008
  | .bwPart => 0x880100
  | .bwSched => 0x880180
  | .bwSlice => 0x881000
  | .bwRate => 0x890000
  | .bwPort => 0x891000
  | .blRaise => 0x900000
  | .blStat => 0x900008
  | .blClaim => 0x900100
  | .blComplete => 0x900108
  | .blMask => 0x900110
  | .blFclaim => 0x900118
  | .blFcomplete => 0x900120
  | .blFmask => 0x900128
  | .blTarget => 0x901000
  | .mbPost => 0x980000
  | .mbState => 0x980008
  | .mbAck => 0x980010
  | .mbTake => 0x980018
  | .mbReply => 0x980020
  | .mbCfg => 0x980028
  | .mbStat => 0x980030
  | .mbNotify => 0x980038
  | .tlBcfg => 0xA00000
  | .tlBcnt => 0xA02000
  | .tlGcfg => 0xA04000
  | .tlGcnt => 0xA04800
  | .tlSamp => 0xA05000
  | .tlBwctl => 0xA05080
  | .tlBwin => 0xA05100
  | .tlPace => 0xA05200
  | .tlSlice => 0xA06000
  | .tlScore => 0xA07000
  | .lbCtl => 0xA80000
  | .lbStat => 0xA80008
  | .lbFlags => 0xA80010
  | .lbAlarm => 0xA80018
  | .lbHang => 0xA80020
  | .lbDump => 0xA80028
  | .wkCtl => 0xB00000
  | .wkPolicy => 0xB00008
  | .wkState => 0xB00010
  | .wkWdog => 0xB00018
  | .wkPower => 0xB00020
  | .wkNs => 0xB00028
  | .wkThrot => 0xB00030
  | .wkTemp => 0xB00100
  | .wkVolt => 0xB00200
  | .btState => 0x1000000
  | .btCtl => 0x1000008
  | .btSpareMap => 0x1000010
  | .btArrayHealth => 0x1000018
  | .btClock => 0x1000020
  | .btEccStatus => 0x1000028
  | .btStoreBase => 0x1000030
  | .btRemap => 0x1000100

/-- The distance between instances. BT_REMAP (16 in each berth window) is apart. -/
def RegKind.stride : RegKind → Nat
  | .glbId => 0x8
  | .glbService => 0x8
  | .glbConfig => 0x8
  | .glbAccessErr => 0x8
  | .qyDbReject => 0x8
  | .qyDbStale => 0x8
  | .qyFenceStat => 0x8
  | .qyCmdStat => 0x8
  | .qySquota => 0x8
  | .plCtl => 0x8
  | .plStat => 0x8
  | .plMissStat => 0x8
  | .plInvStat => 0x8
  | .plSquota => 0x8
  | .plGranule => 0x8
  | .mfPctl => 0x8
  | .mfPstat => 0x8
  | .mfPlate => 0x8
  | .mfPace => 0x8
  | .mfSquota => 0x8
  | .feId => 0x8
  | .feCtl => 0x8
  | .feStat => 0x8
  | .feLink => 0x8
  | .feLane => 0x8
  | .fyCtl => 0x8
  | .fyStat => 0x8
  | .fyLateSel => 0x8
  | .fyLate => 0x8
  | .hdCtl => 0x8
  | .hdMerge => 0x8
  | .hdStack => 0x8
  | .hdEcc => 0x8
  | .hdScrubLap => 0x8
  | .hdLife => 0x8
  | .hdPshare => 0x8
  | .hdRemap => 0x8
  | .cuSec => 0x8
  | .cuStat => 0x8
  | .cuErrAddr => 0x8
  | .cuKey => 0x8
  | .bwMode => 0x8
  | .bwSave => 0x8
  | .bwPart => 0x8
  | .bwSched => 0x8
  | .bwSlice => 0x8
  | .bwRate => 0x8
  | .bwPort => 0x8
  | .blRaise => 0x8
  | .blStat => 0x8
  | .blClaim => 0x40
  | .blComplete => 0x40
  | .blMask => 0x40
  | .blFclaim => 0x40
  | .blFcomplete => 0x40
  | .blFmask => 0x40
  | .blTarget => 0x8
  | .mbPost => 0x1000
  | .mbState => 0x1000
  | .mbAck => 0x1000
  | .mbTake => 0x1000
  | .mbReply => 0x1000
  | .mbCfg => 0x1000
  | .mbStat => 0x1000
  | .mbNotify => 0x1000
  | .tlBcfg => 0x8
  | .tlBcnt => 0x8
  | .tlGcfg => 0x8
  | .tlGcnt => 0x8
  | .tlSamp => 0x8
  | .tlBwctl => 0x8
  | .tlBwin => 0x8
  | .tlPace => 0x8
  | .tlSlice => 0x8
  | .tlScore => 0x8
  | .lbCtl => 0x8
  | .lbStat => 0x8
  | .lbFlags => 0x8
  | .lbAlarm => 0x8
  | .lbHang => 0x8
  | .lbDump => 0x8
  | .wkCtl => 0x8
  | .wkPolicy => 0x8
  | .wkState => 0x8
  | .wkWdog => 0x8
  | .wkPower => 0x8
  | .wkNs => 0x8
  | .wkThrot => 0x8
  | .wkTemp => 0x8
  | .wkVolt => 0x8
  | .btState => 0x100000
  | .btCtl => 0x100000
  | .btSpareMap => 0x100000
  | .btArrayHealth => 0x100000
  | .btClock => 0x100000
  | .btEccStatus => 0x100000
  | .btStoreBase => 0x100000
  | .btRemap => 0x8

/-- The number of instances; BW_RATE_p_x counts 32 a partition, of which 28 exist. -/
def RegKind.count : RegKind → Nat
  | .glbId => 1
  | .glbService => 1
  | .glbConfig => 1
  | .glbAccessErr => 1
  | .qyDbReject => 1
  | .qyDbStale => 1
  | .qyFenceStat => 1
  | .qyCmdStat => 1
  | .qySquota => 512
  | .plCtl => 1
  | .plStat => 1
  | .plMissStat => 1
  | .plInvStat => 1
  | .plSquota => 512
  | .plGranule => 65536
  | .mfPctl => 16
  | .mfPstat => 16
  | .mfPlate => 16
  | .mfPace => 16
  | .mfSquota => 512
  | .feId => 1
  | .feCtl => 1
  | .feStat => 1
  | .feLink => 2
  | .feLane => 18
  | .fyCtl => 1
  | .fyStat => 1
  | .fyLateSel => 1
  | .fyLate => 1
  | .hdCtl => 1
  | .hdMerge => 1
  | .hdStack => 8
  | .hdEcc => 8
  | .hdScrubLap => 8
  | .hdLife => 8
  | .hdPshare => 16
  | .hdRemap => 256
  | .cuSec => 1
  | .cuStat => 1
  | .cuErrAddr => 1
  | .cuKey => 512
  | .bwMode => 1
  | .bwSave => 1
  | .bwPart => 16
  | .bwSched => 16
  | .bwSlice => 512
  | .bwRate => 512
  | .bwPort => 28
  | .blRaise => 1
  | .blStat => 1
  | .blClaim => 10
  | .blComplete => 10
  | .blMask => 10
  | .blFclaim => 10
  | .blFcomplete => 10
  | .blFmask => 10
  | .blTarget => 1024
  | .mbPost => 8
  | .mbState => 8
  | .mbAck => 8
  | .mbTake => 8
  | .mbReply => 8
  | .mbCfg => 8
  | .mbStat => 8
  | .mbNotify => 1
  | .tlBcfg => 1024
  | .tlBcnt => 1024
  | .tlGcfg => 256
  | .tlGcnt => 256
  | .tlSamp => 16
  | .tlBwctl => 1
  | .tlBwin => 28
  | .tlPace => 16
  | .tlSlice => 512
  | .tlScore => 512
  | .lbCtl => 1
  | .lbStat => 1
  | .lbFlags => 1
  | .lbAlarm => 1
  | .lbHang => 1
  | .lbDump => 1
  | .wkCtl => 1
  | .wkPolicy => 1
  | .wkState => 1
  | .wkWdog => 1
  | .wkPower => 1
  | .wkNs => 1
  | .wkThrot => 1
  | .wkTemp => 48
  | .wkVolt => 16
  | .btState => 16
  | .btCtl => 16
  | .btSpareMap => 16
  | .btArrayHealth => 16
  | .btClock => 16
  | .btEccStatus => 16
  | .btStoreBase => 16
  | .btRemap => 256

/-- Bits a write sets (RW, R8). -/
def RegKind.rwMask : RegKind → Word
  | .qySquota => 0xFFF7FFF1FFFF1FF
  | .plCtl => 0xFFFF001F
  | .plSquota => 0x7FFFF
  | .plGranule => 0x83FF83FF83FF83FF
  | .mfPctl => 0x3FF0000007FFF
  | .mfSquota => 0x7FFF
  | .feCtl => 0xFFFFFFFF
  | .feLink => 0xFFFFFFFF0000
  | .fyCtl => 0xFFFF
  | .fyLateSel => 0x1FF
  | .hdCtl => 0xFFFFFFFFFFFF
  | .hdStack => 0x3F7F00
  | .hdPshare => 0xFFFF0000FFFFFFFF
  | .bwMode => 0x1
  | .bwPart => 0x100000000FFFF
  | .bwSched => 0xFFF2FFFF00000000
  | .bwSlice => 0xFFF0000000000
  | .bwRate => 0x1FFFFFFFF
  | .blMask => 0x1
  | .blFmask => 0x1
  | .blTarget => 0x73F
  | .mbCfg => 0xFFF001FFFFF
  | .mbNotify => 0xFFFF0000
  | .tlBcfg => 0xF7FFFFFF
  | .tlGcfg => 0xF7FFFFFF
  | .tlSamp => 0xFFFFF003
  | .tlBwctl => 0x1FFFFF
  | .lbCtl => 0xFFFFFFFFFFFFFFFF
  | .wkCtl => 0xFFFFFFFF000F03FF
  | .wkPolicy => 0xFFFFFFFF0003FFFF
  | .wkWdog => 0xFFFF
  | .btCtl => 0x1FFFF
  | .btSpareMap => 0xFFFFFFFF
  | .btStoreBase => 0x3F
  | .btRemap => 0xFFFFF
  | _ => 0

/-- Bits a written 1 clears (RW1C, R8). -/
def RegKind.w1cMask : RegKind → Word
  | .cuErrAddr => 0x8000000000000000
  | .mbState => 0x100
  | .tlBcnt => 0x8000000000000000
  | .tlGcnt => 0x8000000000000000
  | .lbFlags => 0x7
  | .btArrayHealth => 0x103FE00
  | _ => 0

/-- Bits a written 1 sets (RW1S, R8). -/
def RegKind.w1sMask : RegKind → Word
  | .btArrayHealth => 0x1FF
  | _ => 0

/-- Bits a read clears (RC, R8). -/
def RegKind.rcMask : RegKind → Word
  | .glbAccessErr => 0xFFFFFFFFFFFF
  | .qyDbReject => 0xFFFFFFFFFFFFFFFF
  | .qyDbStale => 0xFFFFFFFF
  | .qyFenceStat => 0xFFFFFFFFFFFE0000
  | .qyCmdStat => 0xFFFFFFFF00000000
  | .plMissStat => 0xFFFFFFFFFFFFFFFF
  | .plInvStat => 0xFFFFFF00FFFFFFFF
  | .mfPlate => 0xFFFFFFFFFFFFFFFF
  | .feStat => 0xFFFFFFFFFFFFFFFF
  | .feLink => 0xFFFF000000000000
  | .feLane => 0xFFFFFFFF00000000
  | .fyStat => 0xFFFFFFFFFFFF0000
  | .fyLate => 0xFFFFFFFF00000000
  | .hdEcc => 0xFFFFFFFFFFFFFFFF
  | .hdScrubLap => 0xFFFF000000000000
  | .cuStat => 0xFFFFFFFFFFFF0000
  | .bwSave => 0xFFFFFFFF00000000
  | .bwPort => 0xFFFFFFFF00000000
  | .blStat => 0xFFFFFFFFFFFF0000
  | .blClaim => 0x7FF
  | .blFclaim => 0x7FF
  | .mbStat => 0xFFFFFFFFFFFFFFFF
  | .mbNotify => 0xFFFF00000000
  | .tlSamp => 0xFFFF000000000000
  | .tlBwin => 0xFFFFFFFF00000000
  | .tlPace => 0xFFFFFFFF00000000
  | .lbStat => 0xFFFFFFFFFFFFFFFF
  | .lbFlags => 0xFFFF000000000000
  | .lbHang => 0xFFFFFFFFFFFFFFFF
  | .lbDump => 0xFFFF000000000000
  | .wkState => 0xFFFF000000000000
  | .wkWdog => 0xFFFF000000000000
  | .wkThrot => 0xFFFFFFFFFFFFFFFF
  | .wkTemp => 0xFFFF0000
  | .wkVolt => 0xFFFF0000
  | .btArrayHealth => 0xFFFF00000000
  | .btEccStatus => 0xFFFFFFFFFF
  | _ => 0

/-- Bits that read 0 (WO, R8). -/
def RegKind.woMask : RegKind → Word
  | .blRaise => 0x3FF
  | .blComplete => 0x3FF
  | .blFcomplete => 0x3FF
  | .mbPost => 0x1
  | .mbTake => 0x1
  | .mbReply => 0xFFFFFFFF
  | .tlBcfg => 0x8000000
  | .tlGcfg => 0x8000000
  | .wkWdog => 0x10000
  | _ => 0

/-- The reset value; a field whose Reset column says "tie" is 0 here and read from the ties. -/
def RegKind.resetWord : RegKind → Word
  | .glbId => 0x5443000200010000
  | .qyFenceStat => 0x10000
  | .plCtl => 0x640010
  | .plStat => 0x4000000000000
  | .mfPace => 0x100
  | .feId => 0x100000000
  | .feCtl => 0x3E8
  | .feLink => 0x20C080000
  | .fyCtl => 0x14
  | .hdCtl => 0x88E070101F4
  | .hdStack => 0x181001
  | .hdLife => 0x64
  | .bwSched => 0xE60207D000000000
  | .bwRate => 0x4000000
  | .blMask => 0x1
  | .blFmask => 0x1
  | .blTarget => 0x8
  | .mbCfg => 0x3E8
  | .tlSamp => 0x10000000
  | .tlBwctl => 0x3E8
  | .lbCtl => 0xA03E8000F4240
  | .wkCtl => 0x695F5A14000F00FA
  | .wkPolicy => 0xFFFF00000532
  | .wkWdog => 0x1F4
  | .wkVolt => 0xFFFF0000
  | .btCtl => 0x14
  | .btSpareMap => 0x76543210
  | .btClock => 0xF
  | _ => 0

/-- RC fields of a register, lowest bit and width, for events of the same cycle (R8). -/
def RegKind.rcFields : RegKind → List (Nat × Nat)
  | .glbAccessErr => [(0, 48)]
  | .qyDbReject => [(48, 16), (32, 16), (16, 16), (0, 16)]
  | .qyDbStale => [(16, 16), (0, 16)]
  | .qyFenceStat => [(48, 16), (32, 16), (17, 15)]
  | .qyCmdStat => [(48, 16), (32, 16)]
  | .plMissStat => [(52, 12), (40, 12), (28, 12), (16, 12), (0, 16)]
  | .plInvStat => [(48, 16), (40, 8), (0, 32)]
  | .mfPlate => [(48, 16), (24, 24), (0, 24)]
  | .feStat => [(48, 16), (32, 16), (16, 16), (8, 8), (0, 8)]
  | .feLink => [(48, 16)]
  | .feLane => [(32, 32)]
  | .fyStat => [(48, 16), (32, 16), (16, 16)]
  | .fyLate => [(32, 32)]
  | .hdEcc => [(48, 16), (32, 16), (16, 16), (0, 16)]
  | .hdScrubLap => [(48, 16)]
  | .cuStat => [(48, 16), (32, 16), (16, 16)]
  | .bwSave => [(48, 16), (32, 16)]
  | .bwPort => [(48, 16), (32, 16)]
  | .blStat => [(48, 16), (32, 16), (16, 16)]
  | .blClaim => [(10, 1), (0, 10)]
  | .blFclaim => [(10, 1), (0, 10)]
  | .mbStat => [(48, 16), (32, 16), (16, 16), (0, 16)]
  | .mbNotify => [(32, 16)]
  | .tlSamp => [(48, 16)]
  | .tlBwin => [(32, 32)]
  | .tlPace => [(32, 32)]
  | .lbStat => [(48, 16), (32, 16), (0, 32)]
  | .lbFlags => [(48, 16)]
  | .lbHang => [(48, 16), (32, 16), (16, 16), (0, 16)]
  | .lbDump => [(48, 16)]
  | .wkState => [(48, 16)]
  | .wkWdog => [(48, 16)]
  | .wkThrot => [(48, 16), (32, 16), (16, 16), (0, 16)]
  | .wkTemp => [(16, 16)]
  | .wkVolt => [(16, 16)]
  | .btArrayHealth => [(32, 16)]
  | .btEccStatus => [(24, 16), (0, 24)]
  | _ => []

/-- The kinds of a region, by address bits [31:20] (R13). -/
def regionKinds : Nat → List RegKind
  | 0 => [.glbId, .glbService, .glbConfig, .glbAccessErr]
  | 1 => [.qyDbReject, .qyDbStale, .qyFenceStat, .qyCmdStat, .qySquota]
  | 4 => [.plCtl, .plStat, .plMissStat, .plInvStat, .plSquota, .plGranule]
  | 5 => [.mfPctl, .mfPstat, .mfPlate, .mfPace, .mfSquota]
  | 6 => [.feId, .feCtl, .feStat, .feLink, .feLane, .fyCtl, .fyStat, .fyLateSel, .fyLate]
  | 7 => [.hdCtl, .hdMerge, .hdStack, .hdEcc, .hdScrubLap, .hdLife, .hdPshare, .hdRemap]
  | 8 => [.cuSec, .cuStat, .cuErrAddr, .cuKey, .bwMode, .bwSave, .bwPart, .bwSched, .bwSlice, .bwRate, .bwPort]
  | 9 => [.blRaise, .blStat, .blClaim, .blComplete, .blMask, .blFclaim, .blFcomplete, .blFmask, .blTarget, .mbPost, .mbState, .mbAck, .mbTake, .mbReply, .mbCfg, .mbStat, .mbNotify]
  | 10 => [.tlBcfg, .tlBcnt, .tlGcfg, .tlGcnt, .tlSamp, .tlBwctl, .tlBwin, .tlPace, .tlSlice, .tlScore, .lbCtl, .lbStat, .lbFlags, .lbAlarm, .lbHang, .lbDump]
  | 11 => [.wkCtl, .wkPolicy, .wkState, .wkWdog, .wkPower, .wkNs, .wkThrot, .wkTemp, .wkVolt]
  | n => if 16 ≤ n ∧ n ≤ 31 then [.btState, .btCtl, .btSpareMap, .btArrayHealth, .btClock, .btEccStatus, .btStoreBase, .btRemap] else []

/-- The address of instance i of a register, which is the key it is kept under. WK_TEMP_32 to 47, whose addresses R513 also gives to WK_VOLT_0 to 15, are kept under keys outside the control space (log 30). -/
def RegKind.addr (k : RegKind) (i : Nat) : Nat :=
  match k with
  | .btRemap => 0x1000100 + i / 16 * 0x100000 + i % 16 * 8
  | .wkTemp => 0xB00100 + i * 8 + (if i < 32 then 0 else 0x100000000)
  | k => k.base + i * k.stride

/-- Which instance of kind k lies at address a, if one does. -/
def RegKind.index? (k : RegKind) (a : Nat) : Option Nat :=
  match k with
  | .btRemap =>
    let off := a % 0x100000
    if 0x1000000 ≤ a ∧ a < 0x2000000 ∧ 0x100 ≤ off ∧ off < 0x180 ∧ off % 8 = 0 then
      some ((a - 0x1000000) / 0x100000 * 16 + (off - 0x100) / 8)
    else none
  | .bwRate =>
    let i := (a - 0x890000) / 8
    if 0x890000 ≤ a ∧ a % 8 = 0 ∧ i < 512 ∧ i % 32 < 28 then some i else none
  | .wkTemp =>
    if 0xB00100 ≤ a ∧ a < 0xB00200 ∧ a % 8 = 0 then some ((a - 0xB00100) / 8)
    else if 0x100B00200 ≤ a ∧ a < 0x100B00280 ∧ a % 8 = 0 then some ((a - 0x100B00100) / 8)
    else none
  | k =>
    if k.base ≤ a ∧ (a - k.base) % k.stride = 0 ∧ (a - k.base) / k.stride < k.count then
      some ((a - k.base) / k.stride)
    else none

/-- The register at an address (R13, R15 and the region tables); none where the address is unassigned. Which of WK_TEMP_(32 + n) and WK_VOLT_n the address shows that the table of R513 gives both is free (log 30). -/
def regAt (a : Nat) : Option (RegKind × Nat) :=
  if 0xB00200 ≤ a ∧ a < 0xB00280 ∧ a % 8 = 0 then
    let n := (a - 0xB00200) / 8
    some (if Config.overlapShowsTemp n then (.wkTemp, 32 + n) else (.wkVolt, n))
  else (regionKinds (a / 0x100000)).findSome? fun k => (k.index? a).map fun i => (k, i)

/-- The registers a general core may read (R14 and the region paragraphs); banks and mailbox windows are decided apart (R500). -/
def RegKind.coreReads : RegKind → Bool
  | .btState | .btClock | .btEccStatus | .mfPstat | .mfPace | .qyFenceStat | .qyCmdStat | .plStat | .plMissStat
  | .bwPart | .bwPort | .hdScrubLap | .hdLife | .feLink | .feLane | .fyStat | .cuSec | .lbStat | .lbHang
  | .wkState | .wkPower | .wkNs | .wkTemp | .wkVolt | .tlBcnt | .tlGcnt | .tlBwin | .tlPace => true
  | _ => false

/-! ### Fields -/

/-- GLB_ID [63:48], RO: Block family code (R15). -/
def F.GLB_ID_FAMILY : Fld := ⟨.glbId, 48, 16⟩
/-- GLB_ID [47:32], RO: Major release (R15). -/
def F.GLB_ID_MAJOR : Fld := ⟨.glbId, 32, 16⟩
/-- GLB_ID [31:16], RO: Minor release (R15). -/
def F.GLB_ID_MINOR : Fld := ⟨.glbId, 16, 16⟩
/-- GLB_ID [15:0], RO: Licensee build tag from the integration shell (R15). -/
def F.GLB_ID_BUILD : Fld := ⟨.glbId, 0, 16⟩
/-- GLB_SERVICE [1:0], RO: 0 CLOSED, 1 REDUCED, 2 FULL, 3 DEGRADED (R17). -/
def F.GLB_SERVICE_LEVEL : Fld := ⟨.glbService, 0, 2⟩
/-- GLB_CONFIG [19:16], RO: Bit n set: Lighter port n connected (R17). -/
def F.GLB_CONFIG_LIGHTER_MASK : Fld := ⟨.glbConfig, 16, 4⟩
/-- GLB_CONFIG [15:8], RO: Bit h set: Hold stack Hh connected (R17). -/
def F.GLB_CONFIG_HOLD_MASK : Fld := ⟨.glbConfig, 8, 8⟩
/-- GLB_CONFIG [7:0], RO: Bit p set: memory port Mp connected (R17). -/
def F.GLB_CONFIG_MEM_MASK : Fld := ⟨.glbConfig, 0, 8⟩
/-- GLB_ACCESS_ERR [47:0], RC: Accesses discarded under R12; holds at 0xFFFF_FFFF_FFFF when full (R17). -/
def F.GLB_ACCESS_ERR_COUNT : Fld := ⟨.glbAccessErr, 0, 48⟩
/-- QY_DB_REJECT [63:48], RC: Doorbell writes without a PASID; holds at 0xFFFF (R302). -/
def F.QY_DB_REJECT_NO_PASID : Fld := ⟨.qyDbReject, 48, 16⟩
/-- QY_DB_REJECT [47:32], RC: PASID not the slice's; holds at 0xFFFF (R302). -/
def F.QY_DB_REJECT_PASID_MISMATCH : Fld := ⟨.qyDbReject, 32, 16⟩
/-- QY_DB_REJECT [31:16], RC: No slice, no live queue, or queue not accepting; holds at 0xFFFF (R302). -/
def F.QY_DB_REJECT_NO_QUEUE : Fld := ⟨.qyDbReject, 16, 16⟩
/-- QY_DB_REJECT [15:0], RC: Byte enables not covering whole fields; holds at 0xFFFF (R302). -/
def F.QY_DB_REJECT_MALFORMED : Fld := ⟨.qyDbReject, 0, 16⟩
/-- QY_DB_STALE [31:16], RC: Writes with d = 0; holds at 0xFFFF (R302). -/
def F.QY_DB_STALE_DUPLICATE : Fld := ⟨.qyDbStale, 16, 16⟩
/-- QY_DB_STALE [15:0], RC: Writes dropped under R271; holds at 0xFFFF (R302). -/
def F.QY_DB_STALE_OUT_OF_RANGE : Fld := ⟨.qyDbStale, 0, 16⟩
/-- QY_FENCE_STAT [63:48], RC: Signals below the current value; holds at 0xFFFF (R302). -/
def F.QY_FENCE_STAT_LATE : Fld := ⟨.qyFenceStat, 48, 16⟩
/-- QY_FENCE_STAT [47:32], RC: Signals to broken fences; holds at 0xFFFF (R302). -/
def F.QY_FENCE_STAT_DEAD : Fld := ⟨.qyFenceStat, 32, 16⟩
/-- QY_FENCE_STAT [31:17], RC: FENCE_RANGE completions; holds at 0x7FFF (R302). -/
def F.QY_FENCE_STAT_RANGE : Fld := ⟨.qyFenceStat, 17, 15⟩
/-- QY_FENCE_STAT [16:0], RO: Fences free (R302). -/
def F.QY_FENCE_STAT_FREE : Fld := ⟨.qyFenceStat, 0, 17⟩
/-- QY_CMD_STAT [63:48], RC: Completion records dropped; holds at 0xFFFF (R302). -/
def F.QY_CMD_STAT_CQ_DROP : Fld := ⟨.qyCmdStat, 48, 16⟩
/-- QY_CMD_STAT [47:32], RC: Commands failed at step 1 of R282; holds at 0xFFFF (R302). -/
def F.QY_CMD_STAT_BAD_CTX : Fld := ⟨.qyCmdStat, 32, 16⟩
/-- QY_CMD_STAT [14:0], RO: Commands fetched and not completed, 0–16,384 (R302). -/
def F.QY_CMD_STAT_INFLIGHT : Fld := ⟨.qyCmdStat, 0, 15⟩
/-- QY_SQUOTA [59:48], RW: Live contexts allowed, 0–4,095 (R302). -/
def F.QY_SQUOTA_CONTEXTS : Fld := ⟨.qySquota, 48, 12⟩
/-- QY_SQUOTA [46:32], RW: Commands in flight allowed, 0–16,384 (R302). -/
def F.QY_SQUOTA_INFLIGHT : Fld := ⟨.qySquota, 32, 15⟩
/-- QY_SQUOTA [28:12], RW: Fences owned allowed, 0–65,536 (R302). -/
def F.QY_SQUOTA_FENCES : Fld := ⟨.qySquota, 12, 17⟩
/-- QY_SQUOTA [8:0], RW: Queues allowed, including queue 0, 1–256 (R302). -/
def F.QY_SQUOTA_QUEUES : Fld := ⟨.qySquota, 0, 9⟩
/-- PL_CTL [31:16], RW: Page Request timeout in ms, 1–10,000; a write of 0 sets 1, and a write above 10,000 sets 10,000 (R327). -/
def F.PL_CTL_PRI_TIMEOUT : Fld := ⟨.plCtl, 16, 16⟩
/-- PL_CTL [4:0], RW: Translations per Translation Request, 1–16; a write of 0 sets 1, and a write above 16 sets 16 (R327). -/
def F.PL_CTL_PREFETCH : Fld := ⟨.plCtl, 0, 5⟩
/-- PL_STAT [50:32], RO: Free stamp-store entries (R327). -/
def F.PL_STAT_STAMP_FREE : Fld := ⟨.plStat, 32, 19⟩
/-- PL_STAT [22:16], RO: Miss streams in use, 0–64 (R327). -/
def F.PL_STAT_STREAMS_BUSY : Fld := ⟨.plStat, 16, 7⟩
/-- PL_STAT [12:0], RO: Valid translation-cache entries, 0–4,096 (R327). -/
def F.PL_STAT_CACHE_VALID : Fld := ⟨.plStat, 0, 13⟩
/-- PL_MISS_STAT [63:52], RC: Failed Translation Completions (R311); holds at 0xFFF (R327). -/
def F.PL_MISS_STAT_ATS_FAIL : Fld := ⟨.plMissStat, 52, 12⟩
/-- PL_MISS_STAT [51:40], RC: Completions with U set; holds at 0xFFF (R327). -/
def F.PL_MISS_STAT_UNTRANS : Fld := ⟨.plMissStat, 40, 12⟩
/-- PL_MISS_STAT [39:28], RC: Page-request failures and timeouts; holds at 0xFFF (R327). -/
def F.PL_MISS_STAT_PRI_FAIL : Fld := ⟨.plMissStat, 28, 12⟩
/-- PL_MISS_STAT [27:16], RC: Unbacked device addresses (R304); holds at 0xFFF (R327). -/
def F.PL_MISS_STAT_UNBACKED : Fld := ⟨.plMissStat, 16, 12⟩
/-- PL_MISS_STAT [15:0], RC: Completions discarded under R313; holds at 0xFFFF (R327). -/
def F.PL_MISS_STAT_DISCARDED : Fld := ⟨.plMissStat, 0, 16⟩
/-- PL_INV_STAT [63:48], RC: Invalidations completed; holds at 0xFFFF (R327). -/
def F.PL_INV_STAT_COUNT : Fld := ⟨.plInvStat, 48, 16⟩
/-- PL_INV_STAT [47:40], RC: Holders escalated (R316); holds at 0xFF (R327). -/
def F.PL_INV_STAT_ESCALATED : Fld := ⟨.plInvStat, 40, 8⟩
/-- PL_INV_STAT [37:32], RO: Invalidation Requests waiting, 0–32 (R327). -/
def F.PL_INV_STAT_QUEUED : Fld := ⟨.plInvStat, 32, 6⟩
/-- PL_INV_STAT [31:0], RC: Longest start-to-completion time in ns since the last read, escalated invalidations excluded (R327). -/
def F.PL_INV_STAT_MAX_NS : Fld := ⟨.plInvStat, 0, 32⟩
/-- PL_SQUOTA [50:32], RO: Stamp-store entries held by the slice (R327). -/
def F.PL_SQUOTA_USED : Fld := ⟨.plSquota, 32, 19⟩
/-- PL_SQUOTA [18:0], RW: Entries allowed, 0–262,144 (R307) (R327). -/
def F.PL_SQUOTA_QUOTA : Fld := ⟨.plSquota, 0, 19⟩
/-- PL_GRANULE [15], RW: Granule 4g + n assigned (R327). -/
def F.PL_GRANULE_VALID_0 : Fld := ⟨.plGranule, 15, 1⟩
/-- PL_GRANULE [31], RW: Granule 4g + n assigned (R327). -/
def F.PL_GRANULE_VALID_1 : Fld := ⟨.plGranule, 31, 1⟩
/-- PL_GRANULE [47], RW: Granule 4g + n assigned (R327). -/
def F.PL_GRANULE_VALID_2 : Fld := ⟨.plGranule, 47, 1⟩
/-- PL_GRANULE [63], RW: Granule 4g + n assigned (R327). -/
def F.PL_GRANULE_VALID_3 : Fld := ⟨.plGranule, 63, 1⟩
/-- PL_GRANULE [9:0], RW: Owning slice, 0–511, or 0x3FF for firmware; 512–1,022 reserved, and a write of a reserved value is discarded (R327). -/
def F.PL_GRANULE_OWNER_0 : Fld := ⟨.plGranule, 0, 10⟩
/-- PL_GRANULE [25:16], RW: Owning slice, 0–511, or 0x3FF for firmware; 512–1,022 reserved, and a write of a reserved value is discarded (R327). -/
def F.PL_GRANULE_OWNER_1 : Fld := ⟨.plGranule, 16, 10⟩
/-- PL_GRANULE [41:32], RW: Owning slice, 0–511, or 0x3FF for firmware; 512–1,022 reserved, and a write of a reserved value is discarded (R327). -/
def F.PL_GRANULE_OWNER_2 : Fld := ⟨.plGranule, 32, 10⟩
/-- PL_GRANULE [57:48], RW: Owning slice, 0–511, or 0x3FF for firmware; 512–1,022 reserved, and a write of a reserved value is discarded (R327). -/
def F.PL_GRANULE_OWNER_3 : Fld := ⟨.plGranule, 48, 10⟩
/-- MF_PCTL [49], RW: Determinism mode (R262) (R264). -/
def F.MF_PCTL_DET : Fld := ⟨.mfPctl, 49, 1⟩
/-- MF_PCTL [48], RW: Step builder enabled (R264). -/
def F.MF_PCTL_EN : Fld := ⟨.mfPctl, 48, 1⟩
/-- MF_PCTL [47:40], RW: Share of list places open to BE while LC is ready, in 1/256 (R264). -/
def F.MF_PCTL_BE_FLOOR : Fld := ⟨.mfPctl, 40, 8⟩
/-- MF_PCTL [14:0], RW: Entries of the partition's share, 0–16,384; the shares of all partitions sum to at most 16,384, and SERVE_CONFIG clamps to keep them so (R264). -/
def F.MF_PCTL_ENTRIES : Fld := ⟨.mfPctl, 0, 15⟩
/-- MF_PSTAT [63:48], RO: Page numbers discarded under R241; holds at 0xFFFF (R264). -/
def F.MF_PSTAT_BAD_PAGES : Fld := ⟨.mfPstat, 48, 16⟩
/-- MF_PSTAT [46:32], RO: Entries in PARKED (R264). -/
def F.MF_PSTAT_PARKED : Fld := ⟨.mfPstat, 32, 15⟩
/-- MF_PSTAT [20:16], RO: Lists in flight, 0–16 (R264). -/
def F.MF_PSTAT_LISTS : Fld := ⟨.mfPstat, 16, 5⟩
/-- MF_PSTAT [14:0], RO: Entries not FREE (R264). -/
def F.MF_PSTAT_ACTIVE : Fld := ⟨.mfPstat, 0, 15⟩
/-- MF_PLATE [63:48], RC: DEADLINE_MISSED records; holds at 0xFFFF (R264). -/
def F.MF_PLATE_MISSED : Fld := ⟨.mfPlate, 48, 16⟩
/-- MF_PLATE [47:24], RC: Steps run on a fallback; holds at 0xFF_FFFF (R264). -/
def F.MF_PLATE_FALLBACK : Fld := ⟨.mfPlate, 24, 24⟩
/-- MF_PLATE [23:0], RC: Records with LATE set; holds at 0xFF_FFFF (R264). -/
def F.MF_PLATE_LATE : Fld := ⟨.mfPlate, 0, 24⟩
/-- MF_PACE [47:32], RO: Busy time of the berth's last list stream, µs; holds at 0xFFFF (R264). -/
def F.MF_PACE_BUSY : Fld := ⟨.mfPace, 32, 16⟩
/-- MF_PACE [31:16], RO: Movable items dealt to the berth in its last list (R264). -/
def F.MF_PACE_DEALT : Fld := ⟨.mfPace, 16, 16⟩
/-- MF_PACE [15:0], RO: Pace weight w_b (R251) (R264). -/
def F.MF_PACE_WEIGHT : Fld := ⟨.mfPace, 0, 16⟩
/-- MF_SQUOTA [31], RO: The slice has an open ARM (R264). -/
def F.MF_SQUOTA_ARMED : Fld := ⟨.mfSquota, 31, 1⟩
/-- MF_SQUOTA [30:16], RO: Entries of the slice not FREE (R264). -/
def F.MF_SQUOTA_USED : Fld := ⟨.mfSquota, 16, 15⟩
/-- MF_SQUOTA [14:0], RW: Entry quota; the quotas of a partition's slices may exceed its ENTRIES, and ADD also fails when the partition's share is full (R264). -/
def F.MF_SQUOTA_QUOTA : Fld := ⟨.mfSquota, 0, 15⟩
/-- FE_ID [39:32], RO: Current epoch (R400) (R416). -/
def F.FE_ID_EPOCH : Fld := ⟨.feId, 32, 8⟩
/-- FE_ID [8:0], RO: Fabric block ID from the configuration image (R416). -/
def F.FE_ID_BLOCK_ID : Fld := ⟨.feId, 0, 9⟩
/-- FE_CTL [31:0], RW: Remote timeout in µs, 10–100,000; values outside are clamped (R416). -/
def F.FE_CTL_REMOTE_TO : Fld := ⟨.feCtl, 0, 32⟩
/-- FE_STAT [63:48], RC: Requests dropped at PREV_EPOCH; holds at 0xFFFF (R416). -/
def F.FE_STAT_EPOCH_DROP : Fld := ⟨.feStat, 48, 16⟩
/-- FE_STAT [47:32], RC: Refusal responses sent; holds at 0xFFFF (R416). -/
def F.FE_STAT_REFUSED : Fld := ⟨.feStat, 32, 16⟩
/-- FE_STAT [31:16], RC: Responses dropped under R399; holds at 0xFFFF (R416). -/
def F.FE_STAT_STALE_RSP : Fld := ⟨.feStat, 16, 16⟩
/-- FE_STAT [15:8], RC: Requests for another block; holds at 0xFF (R416). -/
def F.FE_STAT_MISROUTE : Fld := ⟨.feStat, 8, 8⟩
/-- FE_STAT [7:0], RC: Requests timed out; holds at 0xFF (R416). -/
def F.FE_STAT_TIMEOUTS : Fld := ⟨.feStat, 0, 8⟩
/-- FE_LINK [63:48], RC: Flits replayed; holds at 0xFFFF (R416). -/
def F.FE_LINK_REPLAYS : Fld := ⟨.feLink, 48, 16⟩
/-- FE_LINK [47:32], RW: Idle time in µs, 0–1,000; 0 disables idle (R416). -/
def F.FE_LINK_IDLE_US : Fld := ⟨.feLink, 32, 16⟩
/-- FE_LINK [31:24], RW: Width threshold in 1/64 UI (R416). -/
def F.FE_LINK_MARGIN_W : Fld := ⟨.feLink, 24, 8⟩
/-- FE_LINK [23:16], RW: Height threshold in mV (R416). -/
def F.FE_LINK_MARGIN_H : Fld := ⟨.feLink, 16, 8⟩
/-- FE_LINK [15:12], RO: Lane replaced by the spare, valid when SPARE_USED is 1 (R416). -/
def F.FE_LINK_SPARE_FOR : Fld := ⟨.feLink, 12, 4⟩
/-- FE_LINK [11], RO: Spare lane in service (R416). -/
def F.FE_LINK_SPARE_USED : Fld := ⟨.feLink, 11, 1⟩
/-- FE_LINK [9], RO: 0 full, 1 half (R416). -/
def F.FE_LINK_RATE : Fld := ⟨.feLink, 9, 1⟩
/-- FE_LINK [8], RO: 0 eight lanes, 1 four lanes (R416). -/
def F.FE_LINK_WIDTH : Fld := ⟨.feLink, 8, 1⟩
/-- FE_LINK [2:0], RO: 0 DOWN, 1 TRAINING, 2 UP, 3 IDLE, 4 EXITING; 5–7 reserved (R416). -/
def F.FE_LINK_STATE : Fld := ⟨.feLink, 0, 3⟩
/-- FE_LANE [63:32], RC: Symbols corrected; holds at 0xFFFF_FFFF (R416). -/
def F.FE_LANE_FEC_SYM : Fld := ⟨.feLane, 32, 32⟩
/-- FE_LANE [25], RO: Lane replaced (R393) (R416). -/
def F.FE_LANE_RETIRED : Fld := ⟨.feLane, 25, 1⟩
/-- FE_LANE [24], RO: Last scan below a threshold (R416). -/
def F.FE_LANE_LOW : Fld := ⟨.feLane, 24, 1⟩
/-- FE_LANE [23:16], RO: Smallest eye height, mV (R416). -/
def F.FE_LANE_EYE_H : Fld := ⟨.feLane, 16, 8⟩
/-- FE_LANE [5:0], RO: Smallest eye width, 1/64 UI (R416). -/
def F.FE_LANE_EYE_W : Fld := ⟨.feLane, 0, 6⟩
/-- FY_CTL [15:0], RW: Collective timeout in ms, 1–60,000; 0 sets 1 (R416). -/
def F.FY_CTL_COLL_TO : Fld := ⟨.fyCtl, 0, 16⟩
/-- FY_STAT [63:48], RC: Ferry messages dropped (R405, R402); holds at 0xFFFF (R416). -/
def F.FY_STAT_LATE_DROP : Fld := ⟨.fyStat, 48, 16⟩
/-- FY_STAT [47:32], RC: COLLECTIVE_TIMEOUT endings; holds at 0xFFFF (R416). -/
def F.FY_STAT_TIMEOUTS : Fld := ⟨.fyStat, 32, 16⟩
/-- FY_STAT [31:16], RC: ABORTED endings; holds at 0xFFFF (R416). -/
def F.FY_STAT_ABORTS : Fld := ⟨.fyStat, 16, 16⟩
/-- FY_STAT [13:7], RO: Sum of SLOTS over valid entries, 0–64 (R416). -/
def F.FY_STAT_SLOTS_SET : Fld := ⟨.fyStat, 7, 7⟩
/-- FY_STAT [6:0], RO: Collectives in flight, 0–64 (R416). -/
def F.FY_STAT_IN_FLIGHT : Fld := ⟨.fyStat, 0, 7⟩
/-- FY_LATE_SEL [8:0], RW: Block whose lateness FY_LATE shows (R416). -/
def F.FY_LATE_SEL_PEER : Fld := ⟨.fyLateSel, 0, 9⟩
/-- FY_LATE [63:32], RC: Largest lateness of PEER since the last read, µs (R416). -/
def F.FY_LATE_MAX_US : Fld := ⟨.fyLate, 32, 32⟩
/-- FY_LATE [31:0], RO: Lateness of PEER in its last collective, µs (R416). -/
def F.FY_LATE_LAST_US : Fld := ⟨.fyLate, 0, 32⟩
/-- HD_CTL [47:32], RW: Retention age in powered hours, 1–65,535 (R383). -/
def F.HD_CTL_RETAIN_H : Fld := ⟨.hdCtl, 32, 16⟩
/-- HD_CTL [31:24], RW: Lap alarm in days; 0 sets 1 (R383). -/
def F.HD_CTL_LAP_MAX_D : Fld := ⟨.hdCtl, 24, 8⟩
/-- HD_CTL [23:16], RW: Merge-buffer age in ms, 1–100; values outside are clamped (R383). -/
def F.HD_CTL_MERGE_AGE : Fld := ⟨.hdCtl, 16, 8⟩
/-- HD_CTL [15:0], RW: Erase-count gap for static levelling; 0 sets 1 (R383). -/
def F.HD_CTL_WEAR_GAP : Fld := ⟨.hdCtl, 0, 16⟩
/-- HD_MERGE [63:48], RO: Writes reported not stored at the last start-up (R383). -/
def F.HD_MERGE_NOT_STORED : Fld := ⟨.hdMerge, 48, 16⟩
/-- HD_MERGE [15:8], RO: Bit h: a store is running on stack h (R383). -/
def F.HD_MERGE_BUSY : Fld := ⟨.hdMerge, 8, 8⟩
/-- HD_MERGE [7:0], RO: Bit h: stack h's merge buffer holds data (R383). -/
def F.HD_MERGE_PENDING : Fld := ⟨.hdMerge, 0, 8⟩
/-- HD_STACK [63:48], RO: Fewest spare units on either channel (R383). -/
def F.HD_STACK_SPARE_UNITS : Fld := ⟨.hdStack, 48, 16⟩
/-- HD_STACK [35:32], RO: 0 ABSENT, 1 INIT, 2 READY, 3 READ_ONLY, 4 FAILED; 5–15 reserved (R383). -/
def F.HD_STACK_STATE : Fld := ⟨.hdStack, 32, 4⟩
/-- HD_STACK [25:24], RO: Bit c: channel c out of service (R383). -/
def F.HD_STACK_CH_FAIL : Fld := ⟨.hdStack, 24, 2⟩
/-- HD_STACK [21:16], RW: Relocation threshold in symbols, 1–63; 0 sets 1 (R383). -/
def F.HD_STACK_RELOC : Fld := ⟨.hdStack, 16, 6⟩
/-- HD_STACK [14:8], RW: Decode strength, 4–64; values outside are clamped (R383). -/
def F.HD_STACK_STRENGTH : Fld := ⟨.hdStack, 8, 7⟩
/-- HD_STACK [0], RO: 1: decoding at t = 64 (R363) (R383). -/
def F.HD_STACK_FULL_DECODE : Fld := ⟨.hdStack, 0, 1⟩
/-- HD_ECC [63:48], RC: Slots found uncorrectable; holds at 0xFFFF (R383). -/
def F.HD_ECC_UNCORR : Fld := ⟨.hdEcc, 48, 16⟩
/-- HD_ECC [47:32], RC: Relocations; holds at 0xFFFF (R383). -/
def F.HD_ECC_RELOCATED : Fld := ⟨.hdEcc, 32, 16⟩
/-- HD_ECC [31:16], RC: Decodes that needed t = 64 or READ_SHIFT; holds at 0xFFFF (R383). -/
def F.HD_ECC_ESCALATED : Fld := ⟨.hdEcc, 16, 16⟩
/-- HD_ECC [15:0], RC: Relocations not made under R365; holds at 0xFFFF (R383). -/
def F.HD_ECC_REMAP_FULL : Fld := ⟨.hdEcc, 0, 16⟩
/-- HD_SCRUB_LAP [63:48], RC: Request slots delayed under R371; holds at 0xFFFF (R383). -/
def F.HD_SCRUB_LAP_DREDGE_WAIT : Fld := ⟨.hdScrubLap, 48, 16⟩
/-- HD_SCRUB_LAP [47:32], RO: Laps completed since power-on; wraps (R383). -/
def F.HD_SCRUB_LAP_LAPS : Fld := ⟨.hdScrubLap, 32, 16⟩
/-- HD_SCRUB_LAP [31:0], RO: Length of the last completed lap in seconds; 0 before the first (R383). -/
def F.HD_SCRUB_LAP_LAST_LAP_S : Fld := ⟨.hdScrubLap, 0, 32⟩
/-- HD_LIFE [63:48], RO: Units retired (R383). -/
def F.HD_LIFE_RETIRED : Fld := ⟨.hdLife, 48, 16⟩
/-- HD_LIFE [47:32], RO: Highest unit erase count (R383). -/
def F.HD_LIFE_MAX_ERASE : Fld := ⟨.hdLife, 32, 16⟩
/-- HD_LIFE [31:16], RO: Mean unit erase count (R383). -/
def F.HD_LIFE_MEAN_ERASE : Fld := ⟨.hdLife, 16, 16⟩
/-- HD_LIFE [7:0], RO: Remaining life in percent (R376) (R383). -/
def F.HD_LIFE_LIFE : Fld := ⟨.hdLife, 0, 8⟩
/-- HD_PSHARE [63:48], RW: Grants that the partition's slices may hold (R383). -/
def F.HD_PSHARE_GRANTS : Fld := ⟨.hdPshare, 48, 16⟩
/-- HD_PSHARE [31:0], RW: Erase units that objects of the partition may reserve (R383). -/
def F.HD_PSHARE_UNITS : Fld := ⟨.hdPshare, 0, 32⟩
/-- HD_REMAP [63], RO: Entry in use (R383). -/
def F.HD_REMAP_VALID : Fld := ⟨.hdRemap, 63, 1⟩
/-- HD_REMAP [62], RO: 0 relocated, 1 program failure (R383). -/
def F.HD_REMAP_KIND : Fld := ⟨.hdRemap, 62, 1⟩
/-- HD_REMAP [55:28], RO: Original slot address (R357) (R383). -/
def F.HD_REMAP_FROM : Fld := ⟨.hdRemap, 28, 28⟩
/-- HD_REMAP [27:0], RO: Replacement slot address (R383). -/
def F.HD_REMAP_TO : Fld := ⟨.hdRemap, 0, 28⟩
/-- CU_SEC [58:50], RO: Fuse counter (R417) (R446). -/
def F.CU_SEC_SVN_UCODE : Fld := ⟨.cuSec, 50, 9⟩
/-- CU_SEC [49:41], RO: Fuse counter (R446). -/
def F.CU_SEC_SVN_CORE : Fld := ⟨.cuSec, 41, 9⟩
/-- CU_SEC [40:32], RO: Fuse counter (R446). -/
def F.CU_SEC_SVN_HM : Fld := ⟨.cuSec, 32, 9⟩
/-- CU_SEC [7], RO: A running SVN exceeds its counter (R423) (R446). -/
def F.CU_SEC_ROLLBACK_PENDING : Fld := ⟨.cuSec, 7, 1⟩
/-- CU_SEC [6], RO: The bundle not booted failed R421 (R446). -/
def F.CU_SEC_OTHER_BAD : Fld := ⟨.cuSec, 6, 1⟩
/-- CU_SEC [5], RO: Bundle booted: 0 A, 1 B (R446). -/
def F.CU_SEC_SLOT : Fld := ⟨.cuSec, 5, 1⟩
/-- CU_SEC [4], RO: A lease is held (R446). -/
def F.CU_SEC_LEASE : Fld := ⟨.cuSec, 4, 1⟩
/-- CU_SEC [3], RO: Debug unlocked, or DEVELOPMENT (R446). -/
def F.CU_SEC_DEBUG : Fld := ⟨.cuSec, 3, 1⟩
/-- CU_SEC [1:0], RO: 0 RAW, 1 DEVELOPMENT, 2 PRODUCTION, 3 RETURNED (R446). -/
def F.CU_SEC_LIFECYCLE : Fld := ⟨.cuSec, 0, 2⟩
/-- CU_STAT [63:48], RC: MAC mismatches; holds at 0xFFFF (R446). -/
def F.CU_STAT_MAC_FAIL : Fld := ⟨.cuStat, 48, 16⟩
/-- CU_STAT [47:32], RC: Granule-check refusals (R318, R436); holds at 0xFFFF (R446). -/
def F.CU_STAT_REFUSED : Fld := ⟨.cuStat, 32, 16⟩
/-- CU_STAT [31:16], RC: Responses discarded after zeroisation; holds at 0xFFFF (R446). -/
def F.CU_STAT_LATE_RSP : Fld := ⟨.cuStat, 16, 16⟩
/-- CU_STAT [9:0], RO: Valid key slots, 0–512 (R446). -/
def F.CU_STAT_KEYS : Fld := ⟨.cuStat, 0, 10⟩
/-- CU_ERR_ADDR [63], RW1C: A MAC failure is captured; the fields below hold until cleared (R446). -/
def F.CU_ERR_ADDR_VALID : Fld := ⟨.cuErrAddr, 63, 1⟩
/-- CU_ERR_ADDR [56:48], RO: Slice of the failing request (R446). -/
def F.CU_ERR_ADDR_SLICE : Fld := ⟨.cuErrAddr, 48, 9⟩
/-- CU_ERR_ADDR [38:0], RO: Device physical address of the failing line (R446). -/
def F.CU_ERR_ADDR_ADDR : Fld := ⟨.cuErrAddr, 0, 39⟩
/-- CU_KEY [32], RO: Slot holds keys (R446). -/
def F.CU_KEY_VALID : Fld := ⟨.cuKey, 32, 1⟩
/-- CU_KEY [31], RO: Retirement in progress (R436) (R446). -/
def F.CU_KEY_CLOSING : Fld := ⟨.cuKey, 31, 1⟩
/-- CU_KEY [15:0], RO: Requests admitted and not finished (R446). -/
def F.CU_KEY_INFLIGHT : Fld := ⟨.cuKey, 0, 16⟩
/-- BW_MODE [20:16], RO: Partitions that exist, 0–16 (R355). -/
def F.BW_MODE_PARTITIONS : Fld := ⟨.bwMode, 16, 5⟩
/-- BW_MODE [0], RW: 0 PARTITIONED, 1 POOLED (R355). -/
def F.BW_MODE_MODE : Fld := ⟨.bwMode, 0, 1⟩
/-- BW_SAVE [63:48], RC: Yields not made for want of a slot; holds at 0xFFFF (R355). -/
def F.BW_SAVE_NO_SLOT : Fld := ⟨.bwSave, 48, 16⟩
/-- BW_SAVE [47:32], RC: Saves or restores that waited for the reserve (R146); holds at 0xFFFF (R355). -/
def F.BW_SAVE_WAITED : Fld := ⟨.bwSave, 32, 16⟩
/-- BW_SAVE [24:16], RO: Free slots (R355). -/
def F.BW_SAVE_FREE : Fld := ⟨.bwSave, 16, 9⟩
/-- BW_SAVE [8:0], RO: Slots configured, 0–256 (R355). -/
def F.BW_SAVE_SLOTS : Fld := ⟨.bwSave, 0, 9⟩
/-- BW_PART [48], RW: Partition exists (R355). -/
def F.BW_PART_VALID : Fld := ⟨.bwPart, 48, 1⟩
/-- BW_PART [41:32], RO: Slices of the partition, 0–512 (R355). -/
def F.BW_PART_SLICES : Fld := ⟨.bwPart, 32, 10⟩
/-- BW_PART [31:16], RO: Bit b: berth b being removed (R355). -/
def F.BW_PART_DRAINING : Fld := ⟨.bwPart, 16, 16⟩
/-- BW_PART [15:0], RW: Bit b: berth b owned (R355). -/
def F.BW_PART_BERTHS : Fld := ⟨.bwPart, 0, 16⟩
/-- BW_SCHED [63:56], RW: Berth time open to LC admission, in 1/256 (R355). -/
def F.BW_SCHED_LC_SHARE : Fld := ⟨.bwSched, 56, 8⟩
/-- BW_SCHED [55:52], RW: Operating point used for admission (R141) (R355). -/
def F.BW_SCHED_ADMIT_OPP : Fld := ⟨.bwSched, 52, 4⟩
/-- BW_SCHED [49], RW: LC candidates may yield non-LC jobs (R355). -/
def F.BW_SCHED_PREEMPT_LC : Fld := ⟨.bwSched, 49, 1⟩
/-- BW_SCHED [47:32], RW: Quantum in µs, 100–65,000; values outside are clamped (R355). -/
def F.BW_SCHED_QUANTUM : Fld := ⟨.bwSched, 32, 16⟩
/-- BW_SCHED [31:0], RO: Admitted LC load, berth-µs per second (R355). -/
def F.BW_SCHED_LC_LOAD : Fld := ⟨.bwSched, 0, 32⟩
/-- BW_SLICE [51:48], RW: Partition of the slice (R355). -/
def F.BW_SLICE_PARTITION : Fld := ⟨.bwSlice, 48, 4⟩
/-- BW_SLICE [47:40], RW: Dispatch weight, 1–255 (R355). -/
def F.BW_SLICE_WEIGHT : Fld := ⟨.bwSlice, 40, 8⟩
/-- BW_SLICE [35:32], RO: 0 ABSENT, 1 ACTIVE, 2 QUIESCING, 3 QUIESCED, 4 REMOVING, 5 EXPORTING; 6–15 reserved (R355). -/
def F.BW_SLICE_STATE : Fld := ⟨.bwSlice, 32, 4⟩
/-- BW_SLICE [8:0], RO: Slots holding the slice's streams (R355). -/
def F.BW_SLICE_SAVED : Fld := ⟨.bwSlice, 0, 9⟩
/-- BW_RATE [32], RW: May borrow idle capacity (R336) (R355). -/
def F.BW_RATE_BORROW : Fld := ⟨.bwRate, 32, 1⟩
/-- BW_RATE [31:24], RW: Bucket depth in µs, 1–64 (R355). -/
def F.BW_RATE_BURST : Fld := ⟨.bwRate, 24, 8⟩
/-- BW_RATE [23:12], RW: Non-berth rate, GB/s (R355). -/
def F.BW_RATE_OTHER : Fld := ⟨.bwRate, 12, 12⟩
/-- BW_RATE [11:0], RW: Berth rate, GB/s (R355). -/
def F.BW_RATE_RATE : Fld := ⟨.bwRate, 0, 12⟩
/-- BW_PORT [63:48], RC: Requests that waited for tokens; holds at 0xFFFF (R355). -/
def F.BW_PORT_WAITS : Fld := ⟨.bwPort, 48, 16⟩
/-- BW_PORT [47:32], RC: Whole GB carried as borrowed; holds at 0xFFFF (R355). -/
def F.BW_PORT_BORROW_GB : Fld := ⟨.bwPort, 32, 16⟩
/-- BW_PORT [11:0], RO: Sum of RATE and OTHER over partitions, GB/s (R355). -/
def F.BW_PORT_COMMITTED : Fld := ⟨.bwPort, 0, 12⟩
/-- BL_RAISE [9:0], WO: Source to raise (R500). -/
def F.BL_RAISE_SOURCE : Fld := ⟨.blRaise, 0, 10⟩
/-- BL_STAT [63:48], RC: Completions ignored (R496); holds at 0xFFFF (R500). -/
def F.BL_STAT_STRAY_COMPLETE : Fld := ⟨.blStat, 48, 16⟩
/-- BL_STAT [47:32], RC: BL_RAISE writes discarded; holds at 0xFFFF (R500). -/
def F.BL_STAT_RAISE_REJECT : Fld := ⟨.blStat, 32, 16⟩
/-- BL_STAT [31:16], RC: BL_TARGET_n writes discarded (R499); holds at 0xFFFF (R500). -/
def F.BL_STAT_RETARGET_REJECT : Fld := ⟨.blStat, 16, 16⟩
/-- BL_CLAIM [10], RC: 1: SOURCE was PENDING and is now ACTIVE (R500). -/
def F.BL_CLAIM_VALID : Fld := ⟨.blClaim, 10, 1⟩
/-- BL_CLAIM [9:0], RC: Source claimed; 0 when VALID is 0 (R500). -/
def F.BL_CLAIM_SOURCE : Fld := ⟨.blClaim, 0, 10⟩
/-- BL_COMPLETE [9:0], WO: Source completed (R496) (R500). -/
def F.BL_COMPLETE_SOURCE : Fld := ⟨.blComplete, 0, 10⟩
/-- BL_MASK [0], RW: 1: interrupts withheld; wake still occurs (R498) (R500). -/
def F.BL_MASK_MASK : Fld := ⟨.blMask, 0, 1⟩
/-- BL_FCLAIM [10], RC: 1: SOURCE was PENDING and is now ACTIVE (R500). -/
def F.BL_FCLAIM_VALID : Fld := ⟨.blFclaim, 10, 1⟩
/-- BL_FCLAIM [9:0], RC: Source claimed; 0 when VALID is 0 (R500). -/
def F.BL_FCLAIM_SOURCE : Fld := ⟨.blFclaim, 0, 10⟩
/-- BL_FCOMPLETE [9:0], WO: Source completed (R496) (R500). -/
def F.BL_FCOMPLETE_SOURCE : Fld := ⟨.blFcomplete, 0, 10⟩
/-- BL_FMASK [0], RW: 1: interrupts withheld; wake still occurs (R498) (R500). -/
def F.BL_FMASK_MASK : Fld := ⟨.blFmask, 0, 1⟩
/-- BL_TARGET [17:16], RO: 0 INACTIVE, 1 PENDING, 2 ACTIVE, 3 ACTIVE_PENDING (R500). -/
def F.BL_TARGET_STATE : Fld := ⟨.blTarget, 16, 2⟩
/-- BL_TARGET [10:8], RW: 0–7; 7 is claimed first (R500). -/
def F.BL_TARGET_PRIORITY : Fld := ⟨.blTarget, 8, 3⟩
/-- BL_TARGET [5], RW: Source delivered and able to wake (R500). -/
def F.BL_TARGET_ENABLE : Fld := ⟨.blTarget, 5, 1⟩
/-- BL_TARGET [4], RW: 0 normal, 1 fast (R500). -/
def F.BL_TARGET_CLASS : Fld := ⟨.blTarget, 4, 1⟩
/-- BL_TARGET [3:0], RW: Target of R494; a write of 10–15 is discarded (R500). -/
def F.BL_TARGET_TARGET : Fld := ⟨.blTarget, 0, 4⟩
/-- MB_POST [0], WO: End A posts the buffer (R507). -/
def F.MB_POST_POST : Fld := ⟨.mbPost, 0, 1⟩
/-- MB_STATE [8], RW1C: The last request was not taken (R503); end A clears it (R507). -/
def F.MB_STATE_TIMEOUT : Fld := ⟨.mbState, 8, 1⟩
/-- MB_STATE [2:0], RO: 0 IDLE, 1 POSTED, 2 TAKEN, 3 REPLIED; 4–7 reserved (R507). -/
def F.MB_STATE_STATE : Fld := ⟨.mbState, 0, 3⟩
/-- MB_ACK [63:32], RO: SEQ of the request replied to (R507). -/
def F.MB_ACK_SEQ : Fld := ⟨.mbAck, 32, 32⟩
/-- MB_ACK [31:16], RO: Reply bytes in the buffer (R507). -/
def F.MB_ACK_LENGTH : Fld := ⟨.mbAck, 16, 16⟩
/-- MB_ACK [15:0], RO: Return code (R25) (R507). -/
def F.MB_ACK_RETCODE : Fld := ⟨.mbAck, 0, 16⟩
/-- MB_TAKE [0], WO: End B takes the request (R507). -/
def F.MB_TAKE_TAKE : Fld := ⟨.mbTake, 0, 1⟩
/-- MB_REPLY [31:16], WO: Reply bytes (R507). -/
def F.MB_REPLY_LENGTH : Fld := ⟨.mbReply, 16, 16⟩
/-- MB_REPLY [15:0], WO: Return code (R507). -/
def F.MB_REPLY_RETCODE : Fld := ⟨.mbReply, 0, 16⟩
/-- MB_CFG [43], RW: Notify the host end by MSI-X (R507). -/
def F.MB_CFG_VEC_EN : Fld := ⟨.mbCfg, 43, 1⟩
/-- MB_CFG [42:32], RW: Block vector; counts as assigned under R331 while VEC_EN is 1 (R507). -/
def F.MB_CFG_VECTOR : Fld := ⟨.mbCfg, 32, 11⟩
/-- MB_CFG [20], RW: N channels: 0 host is end A; 1 host is end B (R507). -/
def F.MB_CFG_DIR : Fld := ⟨.mbCfg, 20, 1⟩
/-- MB_CFG [19:0], RW: 10–100,000; values outside are clamped (R507). -/
def F.MB_CFG_TIMEOUT_US : Fld := ⟨.mbCfg, 0, 20⟩
/-- MB_STAT [63:48], RC: Requests posted; holds at 0xFFFF (R507). -/
def F.MB_STAT_POSTS : Fld := ⟨.mbStat, 48, 16⟩
/-- MB_STAT [47:32], RC: Requests not taken; holds at 0xFFFF (R507). -/
def F.MB_STAT_TIMEOUTS : Fld := ⟨.mbStat, 32, 16⟩
/-- MB_STAT [31:16], RC: Writes discarded (R501, R502); holds at 0xFFFF (R507). -/
def F.MB_STAT_WRONG_END : Fld := ⟨.mbStat, 16, 16⟩
/-- MB_STAT [15:0], RC: POST outside IDLE or REPLIED; holds at 0xFFFF (R507). -/
def F.MB_STAT_BUSY_POST : Fld := ⟨.mbStat, 0, 16⟩
/-- MB_NOTIFY [47:32], RC: Notices dropped; holds at 0xFFFF (R507). -/
def F.MB_NOTIFY_LOST : Fld := ⟨.mbNotify, 32, 16⟩
/-- MB_NOTIFY [31:16], RW: Notices consumed, written by the manager; wraps (R507). -/
def F.MB_NOTIFY_CONS : Fld := ⟨.mbNotify, 16, 16⟩
/-- MB_NOTIFY [15:0], RO: Notices written; wraps (R507). -/
def F.MB_NOTIFY_PROD : Fld := ⟨.mbNotify, 0, 16⟩
/-- TL_BCFG [31], RW: Counter counts (R528). -/
def F.TL_BCFG_ENABLE : Fld := ⟨.tlBcfg, 31, 1⟩
/-- TL_BCFG [30], RW: 0 edge, 1 level (R528). -/
def F.TL_BCFG_MODE : Fld := ⟨.tlBcfg, 30, 1⟩
/-- TL_BCFG [29], RW: Included in the slice's view (R526) (R528). -/
def F.TL_BCFG_TENANT : Fld := ⟨.tlBcfg, 29, 1⟩
/-- TL_BCFG [28], RW: Filter by slice (R519) (R528). -/
def F.TL_BCFG_SLICE_EN : Fld := ⟨.tlBcfg, 28, 1⟩
/-- TL_BCFG [27], WO: Sets COUNT to 0 (R521) (R528). -/
def F.TL_BCFG_CLEAR : Fld := ⟨.tlBcfg, 27, 1⟩
/-- TL_BCFG [26:18], RW: Slice filtered on (R528). -/
def F.TL_BCFG_SLICE : Fld := ⟨.tlBcfg, 18, 9⟩
/-- TL_BCFG [17:12], RW: Unit index (R518) (R528). -/
def F.TL_BCFG_SUB : Fld := ⟨.tlBcfg, 12, 6⟩
/-- TL_BCFG [11:0], RW: Event code (R528). -/
def F.TL_BCFG_EVENT : Fld := ⟨.tlBcfg, 0, 12⟩
/-- TL_BCNT [63], RW1C: COUNT wrapped (R528). -/
def F.TL_BCNT_OVF : Fld := ⟨.tlBcnt, 63, 1⟩
/-- TL_BCNT [47:0], RO: Count (R528). -/
def F.TL_BCNT_COUNT : Fld := ⟨.tlBcnt, 0, 48⟩
/-- TL_GCFG [31], RW: Counter counts (R528). -/
def F.TL_GCFG_ENABLE : Fld := ⟨.tlGcfg, 31, 1⟩
/-- TL_GCFG [30], RW: 0 edge, 1 level (R528). -/
def F.TL_GCFG_MODE : Fld := ⟨.tlGcfg, 30, 1⟩
/-- TL_GCFG [29], RW: Included in the slice's view (R526) (R528). -/
def F.TL_GCFG_TENANT : Fld := ⟨.tlGcfg, 29, 1⟩
/-- TL_GCFG [28], RW: Filter by slice (R519) (R528). -/
def F.TL_GCFG_SLICE_EN : Fld := ⟨.tlGcfg, 28, 1⟩
/-- TL_GCFG [27], WO: Sets COUNT to 0 (R521) (R528). -/
def F.TL_GCFG_CLEAR : Fld := ⟨.tlGcfg, 27, 1⟩
/-- TL_GCFG [26:18], RW: Slice filtered on (R528). -/
def F.TL_GCFG_SLICE : Fld := ⟨.tlGcfg, 18, 9⟩
/-- TL_GCFG [17:12], RW: Unit index (R518) (R528). -/
def F.TL_GCFG_SUB : Fld := ⟨.tlGcfg, 12, 6⟩
/-- TL_GCFG [11:0], RW: Event code (R528). -/
def F.TL_GCFG_EVENT : Fld := ⟨.tlGcfg, 0, 12⟩
/-- TL_GCNT [63], RW1C: COUNT wrapped (R528). -/
def F.TL_GCNT_OVF : Fld := ⟨.tlGcnt, 63, 1⟩
/-- TL_GCNT [47:0], RO: Count (R528). -/
def F.TL_GCNT_COUNT : Fld := ⟨.tlGcnt, 0, 48⟩
/-- TL_SAMP [63:48], RC: Records dropped or overwritten; holds at 0xFFFF (R528). -/
def F.TL_SAMP_DROPPED : Fld := ⟨.tlSamp, 48, 16⟩
/-- TL_SAMP [44:32], RO: Records held, 0–4,096 (R528). -/
def F.TL_SAMP_FILL : Fld := ⟨.tlSamp, 32, 13⟩
/-- TL_SAMP [31:12], RW: Instructions per sample, 1–1,048,575; 0 sets 1 (R528). -/
def F.TL_SAMP_PERIOD : Fld := ⟨.tlSamp, 12, 20⟩
/-- TL_SAMP [1], RW: 1: overwrite the oldest record (R528). -/
def F.TL_SAMP_WRAP : Fld := ⟨.tlSamp, 1, 1⟩
/-- TL_SAMP [0], RW: Sampling on (R528). -/
def F.TL_SAMP_ENABLE : Fld := ⟨.tlSamp, 0, 1⟩
/-- TL_BWCTL [20], RW: Count one partition only (R528). -/
def F.TL_BWCTL_PART_EN : Fld := ⟨.tlBwctl, 20, 1⟩
/-- TL_BWCTL [19:16], RW: Partition counted (R528). -/
def F.TL_BWCTL_PART : Fld := ⟨.tlBwctl, 16, 4⟩
/-- TL_BWCTL [15:0], RW: Window length, 1–10,000; values outside are clamped (R528). -/
def F.TL_BWCTL_WINDOW_US : Fld := ⟨.tlBwctl, 0, 16⟩
/-- TL_BWIN [63:32], RC: Largest LAST since the last read, 64-byte units (R528). -/
def F.TL_BWIN_PEAK : Fld := ⟨.tlBwin, 32, 32⟩
/-- TL_BWIN [31:0], RO: Last completed window, 64-byte units (R528). -/
def F.TL_BWIN_LAST : Fld := ⟨.tlBwin, 0, 32⟩
/-- TL_PACE [63:32], RC: Largest skew since the last read (R528). -/
def F.TL_PACE_MAX_US : Fld := ⟨.tlPace, 32, 32⟩
/-- TL_PACE [31:0], RO: Skew of the last job or list (R528). -/
def F.TL_PACE_LAST_US : Fld := ⟨.tlPace, 0, 32⟩
/-- TL_SLICE [47:0], RO: Berth-µs charged to the slice; wraps (R528). -/
def F.TL_SLICE_BERTH_US : Fld := ⟨.tlSlice, 0, 48⟩
/-- TL_SCORE [47:0], RO: Berth-µs charged to the slice; wraps (R528). -/
def F.TL_SCORE_BERTH_US : Fld := ⟨.tlScore, 0, 48⟩
/-- LB_CTL [63:48], RW: Least interval between notifications of one alarm source, ms, 1–10,000; values outside are clamped (R492). -/
def F.LB_CTL_NOTIFY_MS : Fld := ⟨.lbCtl, 48, 16⟩
/-- LB_CTL [47:32], RW: Event records per second per source, 1–65,535; 0 sets 1 (R492). -/
def F.LB_CTL_EV_RATE : Fld := ⟨.lbCtl, 32, 16⟩
/-- LB_CTL [31:0], RW: Trace records per second per slice, 1–25,000,000; values outside are clamped (R492). -/
def F.LB_CTL_TR_RATE : Fld := ⟨.lbCtl, 0, 32⟩
/-- LB_STAT [63:48], RC: Events dropped for a full ring; holds at 0xFFFF (R492). -/
def F.LB_STAT_EV_FULL_DROP : Fld := ⟨.lbStat, 48, 16⟩
/-- LB_STAT [47:32], RC: Events dropped without a token; holds at 0xFFFF (R492). -/
def F.LB_STAT_EV_RATE_DROP : Fld := ⟨.lbStat, 32, 16⟩
/-- LB_STAT [31:0], RC: Traces overwritten or dropped; holds at 0xFFFF_FFFF (R492). -/
def F.LB_STAT_TR_LOST : Fld := ⟨.lbStat, 0, 32⟩
/-- LB_FLAGS [63:48], RC: Traces not sent to the trace port; holds at 0xFFFF (R492). -/
def F.LB_FLAGS_PORT_LOST : Fld := ⟨.lbFlags, 48, 16⟩
/-- LB_FLAGS [2], RW1C: A dump trigger was counted in NOT_WRITTEN (R492). -/
def F.LB_FLAGS_DUMP_SKIPPED : Fld := ⟨.lbFlags, 2, 1⟩
/-- LB_FLAGS [1], RW1C: TR_LOST counted since the last clear (R492). -/
def F.LB_FLAGS_TR_LOST_SEEN : Fld := ⟨.lbFlags, 1, 1⟩
/-- LB_FLAGS [0], RW1C: An event was dropped since the last clear (R492). -/
def F.LB_FLAGS_EV_DROP_SEEN : Fld := ⟨.lbFlags, 0, 1⟩
/-- LB_ALARM [26:16], RO: Sources with UNACKED non-zero, 0–1,024 (R492). -/
def F.LB_ALARM_UNACKED : Fld := ⟨.lbAlarm, 16, 11⟩
/-- LB_ALARM [10:0], RO: Alarm entries in use, 0–1,024 (R492). -/
def F.LB_ALARM_SOURCES : Fld := ⟨.lbAlarm, 0, 11⟩
/-- LB_HANG [63:48], RC: Hangs declared (R471); holds at 0xFFFF (R492). -/
def F.LB_HANG_CYCLES : Fld := ⟨.lbHang, 48, 16⟩
/-- LB_HANG [47:32], RC: Units declared hung (R473); holds at 0xFFFF (R492). -/
def F.LB_HANG_WATCHDOG : Fld := ⟨.lbHang, 32, 16⟩
/-- LB_HANG [31:16], RC: Suspects tried (R479); holds at 0xFFFF (R492). -/
def F.LB_HANG_REPLAYS : Fld := ⟨.lbHang, 16, 16⟩
/-- LB_HANG [15:0], RC: Suspects found guilty (R480); holds at 0xFFFF (R492). -/
def F.LB_HANG_GUILTY : Fld := ⟨.lbHang, 0, 16⟩
/-- LB_DUMP [63:48], RC: Dump triggers not written (R489); holds at 0xFFFF (R492). -/
def F.LB_DUMP_NOT_WRITTEN : Fld := ⟨.lbDump, 48, 16⟩
/-- LB_DUMP [47:32], RO: Dumps written since power-on; wraps (R492). -/
def F.LB_DUMP_WRITTEN : Fld := ⟨.lbDump, 32, 16⟩
/-- LB_DUMP [9:8], RO: Dumps being written or waiting, 0–2 (R492). -/
def F.LB_DUMP_QUEUED : Fld := ⟨.lbDump, 8, 2⟩
/-- LB_DUMP [2:0], RO: Dump record last written, 0–7 (R492). -/
def F.LB_DUMP_LAST : Fld := ⟨.lbDump, 0, 3⟩
/-- WK_CTL [63:56], RW: °C, 80–114 (R513). -/
def F.WK_CTL_T_CRIT : Fld := ⟨.wkCtl, 56, 8⟩
/-- WK_CTL [55:48], RW: °C, 60–T_CRIT (R513). -/
def F.WK_CTL_T_THROTTLE : Fld := ⟨.wkCtl, 48, 8⟩
/-- WK_CTL [47:40], RW: °C, below T_THROTTLE (R513). -/
def F.WK_CTL_T_RELEASE : Fld := ⟨.wkCtl, 40, 8⟩
/-- WK_CTL [39:32], RW: mV, 5–100 (R513). -/
def F.WK_CTL_V_MARGIN : Fld := ⟨.wkCtl, 32, 8⟩
/-- WK_CTL [19:16], RW: Highest operating point (R513). -/
def F.WK_CTL_MAX_OPP : Fld := ⟨.wkCtl, 16, 4⟩
/-- WK_CTL [9:0], RW: W, 50–250; values outside are clamped (R513). -/
def F.WK_CTL_POWER_CAP_W : Fld := ⟨.wkCtl, 0, 10⟩
/-- WK_POLICY [63:48], RW: Bit p: gate partition p's idle berths (R513). -/
def F.WK_POLICY_AUTO_GATE : Fld := ⟨.wkPolicy, 48, 16⟩
/-- WK_POLICY [47:32], RW: Bit p: partition p throttles in lockstep (R513). -/
def F.WK_POLICY_LOCKSTEP : Fld := ⟨.wkPolicy, 32, 16⟩
/-- WK_POLICY [17], RW: ANCHOR permitted (R513). -/
def F.WK_POLICY_ANCHOR_ALLOW : Fld := ⟨.wkPolicy, 17, 1⟩
/-- WK_POLICY [16], RW: DROWSE permitted (R513). -/
def F.WK_POLICY_DROWSE_ALLOW : Fld := ⟨.wkPolicy, 16, 1⟩
/-- WK_POLICY [15:8], RW: 1–255; 0 sets 1 (R513). -/
def F.WK_POLICY_BERTH_GATE_MS : Fld := ⟨.wkPolicy, 8, 8⟩
/-- WK_POLICY [7:0], RW: 1–255; 0 sets 1 (R513). -/
def F.WK_POLICY_DROWSE_IDLE_MS : Fld := ⟨.wkPolicy, 0, 8⟩
/-- WK_STATE [63:48], RC: Exits from DROWSE; holds at 0xFFFF (R513). -/
def F.WK_STATE_WAKES : Fld := ⟨.wkState, 48, 16⟩
/-- WK_STATE [41:32], RO: Bell source of the last Bell wake (R513). -/
def F.WK_STATE_WAKE_SOURCE : Fld := ⟨.wkState, 32, 10⟩
/-- WK_STATE [18:16], RO: 1 doorbell, 2 dispatch, 3 Bell, 4 manager command, 5 HOST_ACT, 6 link (R513). -/
def F.WK_STATE_WAKE_CAUSE : Fld := ⟨.wkState, 16, 3⟩
/-- WK_STATE [2:0], RO: 0 ACTIVE, 1 BERTH-GATED, 2 DROWSE, 3 ANCHOR, 4 ENTERING, 5 EXITING (R513). -/
def F.WK_STATE_STATE : Fld := ⟨.wkState, 0, 3⟩
/-- WK_WDOG [63:48], RC: Harbourmaster resets; holds at 0xFFFF (R513). -/
def F.WK_WDOG_EXPIRED : Fld := ⟨.wkWdog, 48, 16⟩
/-- WK_WDOG [16], WO: Restarts the period (R513). -/
def F.WK_WDOG_KICK : Fld := ⟨.wkWdog, 16, 1⟩
/-- WK_WDOG [15:0], RW: 50–10,000; values outside are clamped (R513). -/
def F.WK_WDOG_PERIOD_MS : Fld := ⟨.wkWdog, 0, 16⟩
/-- WK_POWER [47:32], RO: W in 1/8 (R513). -/
def F.WK_POWER_MEAN_100MS : Fld := ⟨.wkPower, 32, 16⟩
/-- WK_POWER [31:16], RO: W in 1/8 (R513). -/
def F.WK_POWER_MEAN_10MS : Fld := ⟨.wkPower, 16, 16⟩
/-- WK_POWER [15:0], RO: Last 1 ms, W in 1/8 (R513). -/
def F.WK_POWER_NOW : Fld := ⟨.wkPower, 0, 16⟩
/-- WK_NS [63:0], RO: Nanosecond counter; kept across warm reset (R70) (R513). -/
def F.WK_NS_NS : Fld := ⟨.wkNs, 0, 64⟩
/-- WK_THROT [63:48], RC: Thermal steps down; holds at 0xFFFF (R513). -/
def F.WK_THROT_THERMAL : Fld := ⟨.wkThrot, 48, 16⟩
/-- WK_THROT [47:32], RC: Power-cap steps down; holds at 0xFFFF (R513). -/
def F.WK_THROT_POWER : Fld := ⟨.wkThrot, 32, 16⟩
/-- WK_THROT [31:16], RC: Voltage steps down; holds at 0xFFFF (R513). -/
def F.WK_THROT_VOLT : Fld := ⟨.wkThrot, 16, 16⟩
/-- WK_THROT [15:0], RC: Critical events; holds at 0xFFFF (R513). -/
def F.WK_THROT_CRIT : Fld := ⟨.wkThrot, 0, 16⟩
/-- WK_TEMP [31:16], RC: Highest filtered value since the last read, signed, 1/8 °C (R513). -/
def F.WK_TEMP_MAX : Fld := ⟨.wkTemp, 16, 16⟩
/-- WK_TEMP [15:0], RO: Filtered value, signed, 1/8 °C (R513). -/
def F.WK_TEMP_NOW : Fld := ⟨.wkTemp, 0, 16⟩
/-- WK_VOLT [31:16], RC: Lowest filtered value since the last read, mV (R513). -/
def F.WK_VOLT_MIN : Fld := ⟨.wkVolt, 16, 16⟩
/-- WK_VOLT [15:0], RO: Filtered value, mV (R513). -/
def F.WK_VOLT_NOW : Fld := ⟨.wkVolt, 0, 16⟩
/-- BT_STATE [28], RO: 1: the berth belongs to a partition (R151). -/
def F.BT_STATE_OWNED : Fld := ⟨.btState, 28, 1⟩
/-- BT_STATE [20], RO: 1: idle, and the instruction cache holds the first line of the next program (R151). -/
def F.BT_STATE_WARM : Fld := ⟨.btState, 20, 1⟩
/-- BT_STATE [19:8], RO: Context of the running or saving stream; 0 when none (R151). -/
def F.BT_STATE_CONTEXT : Fld := ⟨.btState, 8, 12⟩
/-- BT_STATE [7:4], RO: Owning partition, valid when OWNED is 1 (R151). -/
def F.BT_STATE_PARTITION : Fld := ⟨.btState, 4, 4⟩
/-- BT_STATE [3:0], RO: 0 GATED, 1 IDLE, 2 RUNNING, 3 TO_MOOR, 4 SAVING, 5 SCRUBBING, 6 RESTORING, 7 DRAINED, 8 RESETTING, 9 FAILED, 10 IN_COLLECTIVE; 11–15 reserved (R151). -/
def F.BT_STATE_STATE : Fld := ⟨.btState, 0, 4⟩
/-- BT_CTL [16], RW: 1: the dispatcher gives no new work; STATE becomes DRAINED when the berth is idle (R151). -/
def F.BT_CTL_DRAIN : Fld := ⟨.btCtl, 16, 1⟩
/-- BT_CTL [15:0], RW: Preemption horizon in µs, 0–100; 0 disables saves at moors; a write above 100 sets 100 (R151). -/
def F.BT_CTL_HORIZON : Fld := ⟨.btCtl, 0, 16⟩
/-- BT_SPARE_MAP [3:0], RW: Physical array, 0–8, serving logical array l (R152). -/
def F.BT_SPARE_MAP_LOG_0 : Fld := ⟨.btSpareMap, 0, 4⟩
/-- BT_SPARE_MAP [7:4], RW: Physical array, 0–8, serving logical array l (R152). -/
def F.BT_SPARE_MAP_LOG_1 : Fld := ⟨.btSpareMap, 4, 4⟩
/-- BT_SPARE_MAP [11:8], RW: Physical array, 0–8, serving logical array l (R152). -/
def F.BT_SPARE_MAP_LOG_2 : Fld := ⟨.btSpareMap, 8, 4⟩
/-- BT_SPARE_MAP [15:12], RW: Physical array, 0–8, serving logical array l (R152). -/
def F.BT_SPARE_MAP_LOG_3 : Fld := ⟨.btSpareMap, 12, 4⟩
/-- BT_SPARE_MAP [19:16], RW: Physical array, 0–8, serving logical array l (R152). -/
def F.BT_SPARE_MAP_LOG_4 : Fld := ⟨.btSpareMap, 16, 4⟩
/-- BT_SPARE_MAP [23:20], RW: Physical array, 0–8, serving logical array l (R152). -/
def F.BT_SPARE_MAP_LOG_5 : Fld := ⟨.btSpareMap, 20, 4⟩
/-- BT_SPARE_MAP [27:24], RW: Physical array, 0–8, serving logical array l (R152). -/
def F.BT_SPARE_MAP_LOG_6 : Fld := ⟨.btSpareMap, 24, 4⟩
/-- BT_SPARE_MAP [31:28], RW: Physical array, 0–8, serving logical array l (R152). -/
def F.BT_SPARE_MAP_LOG_7 : Fld := ⟨.btSpareMap, 28, 4⟩
/-- BT_ARRAY_HEALTH [47:32], RC: Tile parity errors since last read; holds at 0xFFFF (R153). -/
def F.BT_ARRAY_HEALTH_PARITY_COUNT : Fld := ⟨.btArrayHealth, 32, 16⟩
/-- BT_ARRAY_HEALTH [24], RW1C: A BT_SPARE_MAP write was discarded (R153). -/
def F.BT_ARRAY_HEALTH_MAP_REJECT : Fld := ⟨.btArrayHealth, 24, 1⟩
/-- BT_ARRAY_HEALTH [17:9], RW1C: Bit k: physical array k had a parity error (R153). -/
def F.BT_ARRAY_HEALTH_PARITY_SEEN : Fld := ⟨.btArrayHealth, 9, 9⟩
/-- BT_ARRAY_HEALTH [8:0], RW1S: Bit k: physical array k marked failed; set by the Harbourmaster or by a failed array self-test (R153). -/
def F.BT_ARRAY_HEALTH_FAILED : Fld := ⟨.btArrayHealth, 0, 9⟩
/-- BT_CLOCK [23:8], RO: Operating-point changes since power-on of the berth; wraps (R153). -/
def F.BT_CLOCK_CHANGES : Fld := ⟨.btClock, 8, 16⟩
/-- BT_CLOCK [6], RO: 1: the current point was set by a partition lockstep throttle (R153). -/
def F.BT_CLOCK_LOCKSTEP : Fld := ⟨.btClock, 6, 1⟩
/-- BT_CLOCK [3:0], RO: Current operating point (R141) (R153). -/
def F.BT_CLOCK_OPP : Fld := ⟨.btClock, 0, 4⟩
/-- BT_ECC_STATUS [45], RO: All 16 remap entries valid (R153). -/
def F.BT_ECC_STATUS_REMAP_FULL : Fld := ⟨.btEccStatus, 45, 1⟩
/-- BT_ECC_STATUS [44:40], RO: Valid remap entries, 0–16 (R153). -/
def F.BT_ECC_STATUS_REMAP_USED : Fld := ⟨.btEccStatus, 40, 5⟩
/-- BT_ECC_STATUS [39:24], RC: Uncorrectable words met; holds at 0xFFFF (R153). -/
def F.BT_ECC_STATUS_UNCORRECTED : Fld := ⟨.btEccStatus, 24, 16⟩
/-- BT_ECC_STATUS [23:0], RC: Words corrected; holds at 0xFF_FFFF (R153). -/
def F.BT_ECC_STATUS_CORRECTED : Fld := ⟨.btEccStatus, 0, 24⟩
/-- BT_STORE_BASE [5:0], RW: 512 KiB unit of berth store, 0–39, mapped at offsets 0x8_0000–0xF_FFFF (R153). -/
def F.BT_STORE_BASE_APERTURE : Fld := ⟨.btStoreBase, 0, 6⟩
/-- BT_REMAP [20], RO: 1: installed by hardware for a stuck bit (R154). -/
def F.BT_REMAP_STUCK : Fld := ⟨.btRemap, 20, 1⟩
/-- BT_REMAP [19:1], RW: Line index, berth-store address [24:6], 0–327,679 (R154). -/
def F.BT_REMAP_LINE : Fld := ⟨.btRemap, 1, 19⟩
/-- BT_REMAP [0], RW: Entry in use (R154). -/
def F.BT_REMAP_VALID : Fld := ⟨.btRemap, 0, 1⟩

end Sys2Proof.Machine
end

