-- ==== Sys2Proof/Machine/Ops.lean ====
section
/-! DEFINITION. The named operations every family uses: sparse tables, register fields, Bell raises, Logbook records, replies to the manager, messages to the host. -/

namespace Sys2Proof.Machine

open Sys2Proof

/-- What a meaning answers. -/
abbrev Out := Host.Outcome State Fault Refusal

/-- What a meaning reads of the machine outside the block's own state: time, epoch, ties, fuses. -/
structure Env where
  now : Nat
  epoch : Nat
  ties : Ties
  fuses : Fuses

/-- The environment a state gives. -/
def State.env (s : State) : Env := ⟨s.aon.ns, s.aon.epoch, s.ties, s.fuses⟩

/-- The host port and the central network are on (R79): what the host sends arrives. -/
def Block.hostUp (b : Block) : Bool := b.power.pdUp.testBit 28 && b.power.pdUp.testBit 30

/-- A meaning that acts on the block alone: time, ties, fuses and the queue stay as they are. -/
def onBlk (s : State) (f : Env → Block → Block) : Out :=
  .next { s with blk := f s.env s.blk }

/-- The same for an operand that names a unit: a unit that does not exist is a fault (log 1). -/
def onUnit (ok : Bool) (s : State) (f : Env → Block → Block) : Out :=
  if ok then onBlk s f else .fault .noSuchUnit

/-- The same for what comes in at the host port: with its domains off nothing does (R79). -/
def onHost (s : State) (f : Env → Block → Block) : Out :=
  if s.blk.hostUp then onBlk s f else .next s

/-- Apply f when c holds; an event whose condition does not hold has not occurred (log 1). -/
def whenB (c : Bool) (f : Block → Block) (b : Block) : Block := if c then f b else b

/-! ### Sparse tables -/

/-- The entry at k. -/
def tget {α : Type} : Table α → Nat → Option α
  | [], _ => none
  | (i, a) :: t, k => if i = k then some a else tget t k

/-- Write the entry at k, keeping indices rising. -/
def tput {α : Type} : Table α → Nat → α → Table α
  | [], k, a => [(k, a)]
  | (i, x) :: t, k, a =>
    if k < i then (k, a) :: (i, x) :: t
    else if k = i then (k, a) :: t
    else (i, x) :: tput t k a

/-- Remove the entry at k. -/
def tdel {α : Type} : Table α → Nat → Table α
  | [], _ => []
  | (i, x) :: t, k => if i = k then tdel t k else (i, x) :: tdel t k

/-- The entry at k, or d. -/
def tgetD {α : Type} (t : Table α) (k : Nat) (d : α) : α := (tget t k).getD d

/-- Change the entry at k when there is one. -/
def tmod {α : Type} (t : Table α) (k : Nat) (f : α → α) : Table α :=
  match tget t k with
  | some a => tput t k (f a)
  | none => t

/-- Change the entry at k, d where there is none. -/
def tupd {α : Type} (t : Table α) (k : Nat) (d : α) (f : α → α) : Table α := tput t k (f (tgetD t k d))

/-- Whether k has an entry. -/
def thas {α : Type} (t : Table α) (k : Nat) : Bool := (tget t k).isSome

/-- Insert x before the first element that le does not put before it. -/
def insertBy {α : Type} (le : α → α → Bool) (x : α) : List α → List α
  | [] => [x]
  | y :: ys => if le x y then x :: y :: ys else y :: insertBy le x ys

/-- Stable insertion sort. -/
def sortBy {α : Type} (le : α → α → Bool) : List α → List α
  | [] => []
  | x :: xs => insertBy le x (sortBy le xs)

/-- The least natural number below n, from i on, for which p holds. -/
def firstFrom (p : Nat → Bool) : (fuel i : Nat) → Option Nat
  | 0, _ => none
  | k + 1, i => if p i then some i else firstFrom p k (i + 1)

/-- The bits set in the low n bits of a mask, rising. -/
def bitsOf (n mask : Nat) : List Nat := (List.range n).filter fun i => mask.testBit i

/-- The mask of a list of bits. -/
def maskOf (l : List Nat) : Nat := l.eraseDups.foldl (fun m i => m + 2 ^ i) 0

/-- v held within lo to hi. -/
def clampN (lo hi v : Nat) : Nat := if v < lo then lo else if hi < v then hi else v

/-- Ceiling of a division. -/
def cdiv (a b : Nat) : Nat := (a + b - 1) / b

/-- The n low bytes of v, least significant first (R6). -/
def leBytes : (n v : Nat) → List Byte
  | 0, _ => []
  | n + 1, v => BitVec.ofNat 8 v :: leBytes n (v / 256)

/-- The number a little-endian byte string spells (R6). -/
def ofLeBytes : List Byte → Nat
  | [] => 0
  | x :: xs => x.toNat + 256 * ofLeBytes xs

/-! ### Register fields -/

/-- The bits of a field. -/
def Fld.mask (f : Fld) : Word := BitVec.ofNat 64 (2 ^ f.w - 1) <<< f.lo

/-- The value of a field in a register word. -/
def Fld.of (f : Fld) (v : Word) : Nat := v.toNat / 2 ^ f.lo % 2 ^ f.w

/-- A register word with a field set. -/
def Fld.into (f : Fld) (v : Word) (n : Nat) : Word :=
  (v &&& ~~~f.mask) ||| (BitVec.ofNat 64 (n % 2 ^ f.w) <<< f.lo)

/-- The largest value of a field. -/
def Fld.max (f : Fld) : Nat := 2 ^ f.w - 1

/-- A register's stored word. -/
def Block.reg (b : Block) (k : RegKind) (i : Nat) : Word := tgetD b.regs (k.addr i) k.resetWord

/-- Store a register's word. -/
def Block.setReg (b : Block) (k : RegKind) (i : Nat) (v : Word) : Block :=
  { b with regs := tput b.regs (k.addr i) v }

/-- A register field's value. -/
def Block.rd (b : Block) (f : Fld) (i : Nat := 0) : Nat := f.of (b.reg f.kind i)

/-- Set a register field. -/
def Block.wr (b : Block) (f : Fld) (i n : Nat) : Block := b.setReg f.kind i (f.into (b.reg f.kind i) n)

/-- Count n events in a field that holds at its largest value. -/
def Block.bump (b : Block) (f : Fld) (i : Nat := 0) (n : Nat := 1) : Block :=
  b.wr f i (min f.max (b.rd f i + n))

/-- Count in a field that wraps. -/
def Block.bumpWrap (b : Block) (f : Fld) (i : Nat := 0) (n : Nat := 1) : Block := b.wr f i (b.rd f i + n)

/-- Raise a field to a maximum. -/
def Block.raiseMax (b : Block) (f : Fld) (i n : Nat) : Block := b.wr f i (max (b.rd f i) (min n f.max))

/-! ### Tally events -/

/-- Count n events in one counter (R517, R521): modulo 2^48, a wrap sets OVF. -/
def Block.countIn (b : Block) (cnt ovf : Fld) (i n : Nat) : Block :=
  let c := b.rd cnt i + n
  let b := b.wr cnt i c
  if 2 ^ 48 ≤ c then b.wr ovf i 1 else b

/-- The instances of a kind that the register table lists; the others stand at reset. -/
def Block.listed (b : Block) (k : RegKind) : List Nat := b.regs.filterMap fun x => k.index? x.1

/-- Whether a counter's SLICE_EN and SLICE let an event of a slice count (R519). -/
def sliceHits (en sl : Nat) (who : Option Nat) : Bool := en = 0 || who = some sl

/-- Whether an occurrence adds to a counter (R517): in edge mode, and in either mode for an event marked "count"; what level mode adds goes by cycles of the event's clock. -/
def edgeCounts (mode code : Nat) : Bool := mode = 0 || code = 0x003 || code = 0x007 || code = 0x008

/-- A berth event (R517 to R519): n occurrences of a code at a berth, `sub` the move engine, `who` the slice whose stream runs there. -/
def Block.tallyB (b : Block) (berth : Nat) (who : Option Nat) (code sub n : Nat) : Block :=
  let bs := (b.listed .tlBcfg).filter fun i =>
    i / 64 = berth && b.rd F.TL_BCFG_ENABLE i = 1 && b.rd F.TL_BCFG_EVENT i = code && b.rd F.TL_BCFG_SUB i = sub && edgeCounts (b.rd F.TL_BCFG_MODE i) code &&
    sliceHits (b.rd F.TL_BCFG_SLICE_EN i) (b.rd F.TL_BCFG_SLICE i) who
  let gs := (b.listed .tlGcfg).filter fun i =>
    b.rd F.TL_GCFG_ENABLE i = 1 && b.rd F.TL_GCFG_EVENT i = code && b.rd F.TL_GCFG_SUB i = berth + 16 * sub && edgeCounts (b.rd F.TL_GCFG_MODE i) code &&
    sliceHits (b.rd F.TL_GCFG_SLICE_EN i) (b.rd F.TL_GCFG_SLICE i) who
  let b := bs.foldl (fun b i => b.countIn F.TL_BCNT_COUNT F.TL_BCNT_OVF i n) b
  gs.foldl (fun b i => b.countIn F.TL_GCNT_COUNT F.TL_GCNT_OVF i n) b

/-- A block event (R517 to R519): `who` is its slice tag. -/
def Block.tallyG (b : Block) (who : Option Nat) (code sub n : Nat) : Block :=
  let gs := (b.listed .tlGcfg).filter fun i =>
    b.rd F.TL_GCFG_ENABLE i = 1 && b.rd F.TL_GCFG_EVENT i = code && b.rd F.TL_GCFG_SUB i = sub && edgeCounts (b.rd F.TL_GCFG_MODE i) code &&
    sliceHits (b.rd F.TL_GCFG_SLICE_EN i) (b.rd F.TL_GCFG_SLICE i) who
  gs.foldl (fun b i => b.countIn F.TL_GCNT_COUNT F.TL_GCNT_OVF i n) b

/-! ### Quiet time -/

/-- Something is under way: the block has not been quiet before now (R512). -/
def Block.stir (b : Block) (e : Env) : Block := { b with watch := { b.watch with quietSince := e.now } }

/-! ### Bell -/

/-- A raise of Bell source n (R496): INACTIVE becomes PENDING, ACTIVE becomes ACTIVE_PENDING, raises of a pending source merge. -/
def Block.raise (b : Block) (n : Nat) : Block :=
  match b.rd F.BL_TARGET_STATE n with
  | 0 => b.wr F.BL_TARGET_STATE n 1
  | 2 => b.wr F.BL_TARGET_STATE n 3
  | _ => b

/-! ### Messages to the host -/

/-- Send a message at the host port, after those sent before. -/
def Block.send (b : Block) (m : HostMsg) : Block := { b with host := { b.host with out := b.host.out ++ [m] } }

/-- An MSI-X entry; one never written is masked (R53). -/
def Block.msixEntry (b : Block) (v : Nat) : MsixEntry := tgetD b.host.msix v ⟨0, 0, true, false⟩

/-- Raise a block vector (R53, R286): a masked vector, or any under the Function Mask, sets its pending bit, another sends its message; without MSI-X Enable nothing is sent (log 11). -/
def Block.msix (b : Block) (v : Nat) : Block :=
  let e := b.msixEntry v
  if !b.host.msixEnable then b
  else if e.masked || b.host.msixMask then { b with host := { b.host with msix := tput b.host.msix v { e with pending := true } } }
  else b.send (.msix v e.addr e.data)

/-- Whether a vector is assigned to a slice or to a mailbox (R53, R331, R507). -/
def Block.vectorAssigned (b : Block) (v : Nat) : Bool :=
  (b.quay.slices.any fun (_, s) => decide (s.msixBase ≤ v ∧ v < s.msixBase + s.msixCount)) ||
  ((List.range 8).any fun c => b.rd F.MB_CFG_VEC_EN c = 1 && b.rd F.MB_CFG_VECTOR c = v)

/-- A draw for a free value: the counter, and the block with it advanced (log 5). -/
def Block.draw (b : Block) : Nat × Block :=
  (b.ports.draws, { b with ports := { b.ports with draws := b.ports.draws + 1 } })

/-! ### Logbook -/

/-- Unit kinds of R484. -/
def ukBlock : Nat := 0
def ukBerth : Nat := 1
def ukCore : Nat := 2
def ukPort : Nat := 3
def ukStack : Nat := 4
def ukLink : Nat := 5
def ukLighter : Nat := 6
def ukHarbour : Nat := 7
def ukQuay : Nat := 8
def ukPilot : Nat := 9
def ukCustoms : Nat := 10

/-- What a record says beside its class: code, status, unit, slice and context, data words (R484). -/
structure LogItem where
  code : Nat
  status : Nat := 0
  kind : Nat
  idx : Nat
  slice : Option Nat := none
  ctx : Nat := 0
  data : List Nat := []

/-- The record of an item (R484). -/
def LogItem.record (i : LogItem) (e : Env) (cls seq : Nat) : LogRec :=
  ⟨e.now, seq % 2 ^ 32, i.code, cls, i.status, i.kind, i.idx, i.slice, i.ctx, i.data⟩

/-- The 64 bytes of a record (R484). -/
def LogRec.bytes (r : LogRec) : List Byte :=
  leBytes 8 r.time ++ leBytes 4 r.seq ++ leBytes 2 r.code ++ leBytes 1 r.cls ++ leBytes 1 r.status ++ leBytes 2 (r.unitKind + 256 * r.unitIdx) ++
  leBytes 2 (match r.slice with | some s => s % 512 + 32768 | none => 0) ++ leBytes 2 r.ctx ++ leBytes 2 0 ++
  ((List.range 5).flatMap fun i => leBytes 8 ((r.data[i]?).getD 0))

/-- Whether memory port M0 has opened (R483). -/
def Block.m0Open (b : Block) : Bool := b.ports.opened.contains 0

/-- An alarm (R485, R488): the source's entry counts it and keeps it as LAST, a new source takes the next entry; source 48 is raised, with 52 for the Hold and 54 for a Lighter port (R495), a notification is owed. -/
def Block.alarm (b : Block) (e : Env) (i : LogItem) : Block :=
  let r := i.record e 0 b.log.seqA
  let step (a : Alarm) : Alarm :=
    if a.code = i.code ∧ a.unitKind = i.kind ∧ a.unitIdx = i.idx then
      { a with count := min (a.count + 1) (2 ^ 48 - 1), unacked := a.unacked + 1, last := r, owed := true }
    else a
  let known := b.log.alarms.any fun a => decide (a.code = i.code ∧ a.unitKind = i.kind ∧ a.unitIdx = i.idx)
  let alarms := if known then b.log.alarms.map step
    else b.log.alarms ++ [⟨i.code, i.kind, i.idx, 1, 1, r, r, none, true⟩]
  let b := { b with log := { b.log with alarms := alarms, seqA := b.log.seqA + 1 } }.raise 48
  if 0x0021 ≤ i.code ∧ i.code ≤ 0x0024 then b.raise 52 else if i.code = 0x0040 then b.raise 54 else b

/-- Tokens of a bucket now: rate per second, depth, each token 10^9 (R486). -/
def tokensNow (rate depth now tokens at_ : Nat) : Nat :=
  min (depth * 1000000000) (tokens + rate * (now - at_))

/-- An event record (R483, R486): without a token, or with every place unread, it is dropped and counted. -/
def Block.event (b : Block) (e : Env) (i : LogItem) : Block :=
  let key : Nat × Nat × Nat × Nat := (i.code, i.kind, i.idx, match i.slice with | some s => s + 1 | none => 0)
  let old := (b.log.evTokens.find? fun x => x.1 = key).map (·.2)
  let (tk, at_) := old.getD (64 * 1000000000, e.now)
  let tk := tokensNow (b.rd F.LB_CTL_EV_RATE) 64 e.now tk at_
  let others := b.log.evTokens.filter fun x => x.1 ≠ key
  if tk < 1000000000 then
    ({ b with log := { b.log with evTokens := others ++ [(key, tk, e.now)] } }.bump F.LB_STAT_EV_RATE_DROP).wr
      F.LB_FLAGS_EV_DROP_SEEN 0 1
  else
    let b := { b with log := { b.log with evTokens := others ++ [(key, tk - 1000000000, e.now)] } }
    let full := if b.m0Open then decide (16384 ≤ b.log.events.length)
      else decide (512 ≤ b.log.events.length + b.log.traces.length)
    if full then (b.bump F.LB_STAT_EV_FULL_DROP).wr F.LB_FLAGS_EV_DROP_SEEN 0 1
    else { b with log := { b.log with events := b.log.events ++ [i.record e 1 b.log.seqE], seqE := b.log.seqE + 1 } }

/-- Count a trace overwritten or dropped (R483, R486). -/
def Block.traceLost (b : Block) : Block := (b.bump F.LB_STAT_TR_LOST).wr F.LB_FLAGS_TR_LOST_SEEN 0 1

/-- A trace record goes out on the debug trace port (R487): at 25 million a second one every 40 ns is taken for sure; whether the port takes one that follows sooner is a free value, and one it does not take counts in PORT_LOST (log 76). -/
def Block.toTracePort (b : Block) (e : Env) (r : LogRec) : Block :=
  let free := match b.log.tracePort.getLast? with
    | some l => decide (l.time + 40 ≤ e.now)
    | none => true
  if free || Config.tracePortTakes e.now b.log.seqT then { b with log := { b.log with tracePort := b.log.tracePort ++ [r] } }
  else b.bump F.LB_FLAGS_PORT_LOST

/-- A trace record of a slice (R483, R486, R487): only where its tracing is on, or a command of it is under trial; the oldest record makes room. -/
def Block.trace (b : Block) (e : Env) (sl : Nat) (i : LogItem) : Block :=
  let trial := b.quay.cmds.any fun (_, c) => c.slice = sl && c.suspect = 2
  match tget b.quay.slices sl with
  | none => b
  | some s =>
    if s.tracing || trial then
      let (tk, at_) := tgetD b.log.trTokens sl (4096 * 1000000000, e.now)
      let tk := tokensNow (b.rd F.LB_CTL_TR_RATE) 4096 e.now tk at_
      if tk < 1000000000 then
        { b with log := { b.log with trTokens := tput b.log.trTokens sl (tk, e.now) } }.traceLost
      else
        let b := { b with log := { b.log with trTokens := tput b.log.trTokens sl (tk - 1000000000, e.now) } }
        let cap := if b.m0Open then 65536 else 512 - b.log.events.length
        let r := i.record e 2 b.log.seqT
        let b := if s.tracePort then b.toTracePort e r else b
        if cap = 0 then b.traceLost
        else if cap ≤ b.log.traces.length then
          { b with log := { b.log with traces := b.log.traces.drop 1 ++ [r], seqT := b.log.seqT + 1 } }.traceLost
        else { b with log := { b.log with traces := b.log.traces ++ [r], seqT := b.log.seqT + 1 } }
    else b

/-! ### Notices to the leaseholder -/

/-- The lease in force. -/
def Block.leaseNow (b : Block) (e : Env) : Option Lease :=
  match b.harbour.lease with
  | some l => if e.now < l.till then some l else none
  | none => none

/-- A notice to the leaseholder (R507): only with an open session of its key, and only while the ring has room. -/
def Block.notice (b : Block) (e : Env) (op seq ret : Nat) (data : List Nat) : Block :=
  match b.leaseNow e with
  | none => b
  | some l =>
    if b.harbour.sessions.any fun s => s.2.stage = 4 && s.2.key == some l.key then
      let prod := b.rd F.MB_NOTIFY_PROD
      if (prod + 65536 - b.rd F.MB_NOTIFY_CONS) % 65536 < 16 then
        (b.wr F.MB_NOTIFY_PROD 0 (prod + 1)).send (.notice op seq ret data)
      else b.bump F.MB_NOTIFY_LOST
    else b

/-! ### Service level -/

/-- Change GLB_SERVICE LEVEL (R461): SERVICE_IRQ pulses, the leaseholder is notified, event SERVICE_LEVEL is written, source 55 raised. -/
def Block.setLevel (b : Block) (e : Env) (l : Nat) : Block :=
  let old := b.rd F.GLB_SERVICE_LEVEL
  if old = l then b
  else
    let b := b.wr F.GLB_SERVICE_LEVEL 0 l
    let b := { b with harbour := { b.harbour with servicePulses := b.harbour.servicePulses + 1 } }
    let i : LogItem := { code := 0x1004, kind := ukBlock, idx := 0, data := [old, l] }
    let b := b.notice e 0 0 0 ((i.record e 1 b.log.seqE).bytes.map fun x => x.toNat)
    (b.event e i).raise 55

/-! ### Manager commands -/

/-- Return codes of R25. -/
def rcDone : Nat := 0
def rcBusy : Nat := 1
def rcDenied : Nat := 2
def rcBadArg : Nat := 3
def rcClamped : Nat := 4
def rcNotQuiesced : Nat := 5
def rcNoResource : Nat := 6
def rcTimeout : Nat := 7
def rcLeaseHeld : Nat := 8

/-- The Harbourmaster replies to a command (R25, R505); the frame waits for MB_REPLY. -/
def Block.reply (b : Block) (m : Mgr) (opcode ret : Nat) (data : List Nat := []) : Block :=
  { b with harbour := { b.harbour with replies := b.harbour.replies ++ [⟨m.session, m.seq, opcode, ret, data⟩] } }

end Sys2Proof.Machine
end

