-- ==== Sys2Proof/Machine/LaneOps.lean ====
section
/-! DEFINITION. Requests to the regulated ports (R55, R56, R215) and Breakwater's buckets and OTHER lanes (R333, R334). -/

namespace Sys2Proof.Machine

open Sys2Proof

/-- Bytes from a to the next multiple of m. -/
def upTo (a m : Nat) : Nat := m - a % m

/-- The pieces of a range, none across a 128-byte unit: offset and length (R55). -/
def unitPieces (a : Nat) : (fuel len done : Nat) → List (Nat × Nat)
  | 0, _, _ => []
  | k + 1, len, done =>
    if len ≤ done then []
    else
      let n := min (len - done) (upTo (a + done) 128)
      (done, n) :: unitPieces a k len (done + n)

/-- The 128-byte unit's port and sub-port (R55). -/
def subPort (a : Nat) : Nat × Nat := (a / 2 ^ 36, a / 128 % 4)

/-- A request to a memory port. -/
def memReq (who : Sender) (phys len : Nat) (wr : Bool) (sl ctx store : Nat) : MemReq :=
  let (p, sub) := subPort phys
  { port := p, sub := sub, addr := phys, len := len, write := wr, rmw := false, data := [], wdata := [], slice := sl, ctx := ctx, who := who, store := store, since := 0 }

/-- Partial 64-byte lines of a write (R215). -/
def partialLines (a len : Nat) : Nat :=
  ((List.range ((a + len + 63) / 64 - a / 64)).map (a / 64 + ·)).countP fun l => decide (64 * l < a ∨ a + len < 64 * l + 64)

/-- Bytes a request counts at its memory port (R333). -/
def memBytes (r : MemReq) : Nat := r.len + (if r.write then 64 * partialLines r.addr r.len else 0)

/-- Put a request into a partition's OTHER lane; partition 16 stands for requests that no regulator counts. -/
def Block.toLane (b : Block) (p : Nat) (r : MemReq) : Block :=
  let i := 32 * p + r.port
  let q : LaneReq := ⟨p, if r.port < 8 then memBytes r else r.len, r⟩
  { b with ports := { b.ports with lanes := tupd b.ports.lanes i [] (· ++ [q]) } }

/-- Tokens of a regulator now, RATE and OTHER: each bucket fills at its rate and holds that rate times BURST µs (R334); one never used is full. -/
def Block.bucket (b : Block) (e : Env) (p x : Nat) : Bucket :=
  let i := 32 * p + x
  let rate := b.rd F.BW_RATE_RATE i
  let other := b.rd F.BW_RATE_OTHER i
  let depth := b.rd F.BW_RATE_BURST i * 1000
  match tget b.ports.buckets i with
  | none => ⟨rate * depth, other * depth, e.now⟩
  | some k => ⟨min (rate * depth) (k.rate + rate * (e.now - k.at_)), min (other * depth) (k.other + other * (e.now - k.at_)), e.now⟩

/-- Store a bucket. -/
def Block.setBucket (b : Block) (p x : Nat) (k : Bucket) : Block :=
  { b with ports := { b.ports with buckets := tput b.ports.buckets (32 * p + x) k } }

/-- The bandwidth windows count the bytes carried at a port (R523): of every partition, or of the one TL_BWCTL names. -/
def Block.windowBytes (b : Block) (x p bytes : Nat) : Block :=
  if b.rd F.TL_BWCTL_PART_EN = 1 ∧ b.rd F.TL_BWCTL_PART ≠ p then b
  else { b with tally := { b.tally with window := tupd b.tally.window x 0 (· + bytes) } }

/-- The request with its byte count enters at once through the OTHER bucket of a partition at a port (R335): no request of any OTHER lane waits at the port, so the port's next cycle takes it, and the bucket holds the bytes, which are debited. -/
def Block.takeOther (b : Block) (e : Env) (p x bytes : Nat) : Option Block :=
  let k := b.bucket e p x
  if ((List.range 17).all fun q => (tgetD b.ports.lanes (32 * q + x) []).isEmpty) && decide (bytes ≤ k.other) then
    some ((b.setBucket p x { k with other := k.other - bytes }).windowBytes x p bytes)
  else none

end Sys2Proof.Machine
end

