-- ==== Sys2Proof/Machine/PilotOps.lean ====
section
/-! DEFINITION. Pilot's shared operations: the translation cache (R308, R309), run building (R304, R305), the stamp store (R207 to R211), miss streams (R306), dirty logs (R324). -/

namespace Sys2Proof.Machine

open Sys2Proof

/-! ### Configuration values and device addresses -/

/-- An applied integer field of the configuration image, or its default (R451, R452). -/
def Block.cfgInt (b : Block) (id : Nat) (dflt : Nat) : Nat :=
  match b.harbour.cfg.ints.find? fun x => x.1 = id with
  | some (_, v) => v.toNat
  | none => dflt

/-- Capacity of memory port p in bytes (R452 MEM_CAP_p). -/
def Block.portCap (b : Block) (p : Nat) : Nat := b.cfgInt (0x310 + p) 64 * 2 ^ 30

/-- Whether memory port p is connected (R2, R15). -/
def Env.memConnected (e : Env) (p : Nat) : Bool := decide (p < 8) && e.ties.memMask.testBit p

/-- The connected memory ports. -/
def Env.memPorts (e : Env) : List Nat := bitsOf 8 e.ties.memMask

/-- A device address is backed: connected port, within its capacity, below its MAC region (R304). -/
def Block.backed (b : Block) (e : Env) (a : Nat) : Bool :=
  let p := a / 2 ^ 36
  e.memConnected p && decide (a % 2 ^ 36 < 7 * b.portCap p / 8)

/-- Size of BAR2: 64 GiB for each port up to the highest connected one, rounded up to a power of two (R21). -/
def Env.bar2Size (e : Env) : Nat :=
  let h := (e.memPorts.foldl max 0) + 1
  (if h ≤ 1 then 1 else if h ≤ 2 then 2 else if h ≤ 4 then 4 else 8) * 2 ^ 36

/-! ### Slices, PASIDs -/

/-- The slice a PASID is bound to (R319). -/
def Block.pasidSlice (b : Block) (pasid : Nat) : Option Nat :=
  (b.quay.slices.find? fun x => x.2.pasid = pasid).map (·.1)

/-- The PASID of a slice. -/
def Block.pasidOf (b : Block) (sl : Nat) : Nat := ((tget b.quay.slices sl).map (·.pasid)).getD 0

/-- The base context of a slice, whose number tags what the block does for the slice as a whole (R31, R318). -/
def Block.baseCtxOf (b : Block) (sl : Nat) : Nat := ((tget b.quay.slices sl).map (·.baseCtx)).getD 0

/-! ### The translation cache -/

/-- Bytes of a page of a size code (R308). -/
def pageBytes : Nat → Nat
  | 0 => 4096
  | 1 => 2097152
  | _ => 1073741824

/-- The set of an entry (R308). -/
def cacheSet (pasid group : Nat) : Nat := (group % 256) ^^^ (pasid % 256)

/-- The first virtual address an entry holds. -/
def Xlat.va (x : Xlat) : Nat := (x.group * 16 + x.start) * pageBytes x.size

/-- One past the last virtual address an entry holds. -/
def Xlat.end_ (x : Xlat) : Nat := x.va + x.count * pageBytes x.size

/-- The entry of the largest page size that holds an address (R309). -/
def cacheFind (c : List Xlat) (pasid va : Nat) : Option Xlat :=
  let hit (s : Nat) := c.find? fun x => x.pasid = pasid && x.size = s && decide (x.va ≤ va) && decide (va < x.end_)
  (hit 2).or ((hit 1).or (hit 0))

/-- Make an entry the most recently used. -/
def cacheTouch (c : List Xlat) (x : Xlat) : List Xlat := x :: c.filter fun y => y ≠ x

/-- Add one translated page: it joins an entry of equal R, W and CLASS that it continues, or takes a way of its set in place of the least recently used one (R308). An entry that held the page already is dropped first, whole (DESIGN CHOICE, log 105). -/
def cacheAdd (c : List Xlat) (pasid size page phys cls : Nat) (r w : Bool) : List Xlat :=
  let g := page / 16
  let i := page % 16
  let pb := pageBytes size
  let c := c.filter fun x => ¬ (x.pasid = pasid ∧ x.size = size ∧ x.group = g ∧ x.start ≤ i ∧ i < x.start + x.count)
  let same (x : Xlat) : Bool := x.pasid = pasid && x.size = size && x.group = g && x.read = r && x.write = w && x.cls = cls
  match c.find? fun x => same x && x.start + x.count = i && x.phys + x.count * pb = phys with
  | some x => { x with count := x.count + 1 } :: c.filter fun y => y ≠ x
  | none =>
    match c.find? fun x => same x && x.start = i + 1 && phys + pb = x.phys with
    | some x => { x with start := i, count := x.count + 1, phys := phys } :: c.filter fun y => y ≠ x
    | none =>
      let s := cacheSet pasid g
      let inSet (x : Xlat) : Bool := cacheSet x.pasid x.group = s
      let c' := if 16 ≤ (c.filter inSet).length then
          match (c.filter inSet).getLast? with
          | some old => c.filter fun y => y ≠ old
          | none => c
        else c
      ⟨pasid, size, g, i, 1, phys, r, w, cls⟩ :: c'

/-- Drop the entries of a PASID (all PASIDs when none) that overlap a range (R315). -/
def cachePurge (c : List Xlat) (pasid : Option Nat) (va size : Nat) : List Xlat :=
  c.filter fun x => ¬ ((pasid = none ∨ pasid = some x.pasid) ∧ x.va < va + size ∧ va < x.end_)

/-! ### The stamp store -/

/-- The slice an entry counts against. -/
def Stamp.slice : Stamp → Nat
  | .head _ _ _ _ s _ _ _ _ _ _ _ => s
  | .run _ _ _ s _ _ _ _ _ _ _ _ => s

/-- Entries a slice holds (PL_SQUOTA_s.USED). -/
def Block.stampsUsed (b : Block) (sl : Nat) : Nat := (b.pilot.stamps.filter fun x => x.2.slice = sl).length

/-- The n lowest free entries of the stamp store (which entries Pilot takes is not visible to software; log 12). -/
def freeEntries (t : Table Stamp) (n : Nat) : List Nat :=
  ((List.range (t.length + n)).filter fun i => !thas t i).take n

/-- Write the run entries of a stamp at the given indices (R209, R210). -/
def writeRuns (t : Table Stamp) (sl ctx : Nat) : List RunRec → List Nat → Table Stamp
  | r :: rs, i :: is =>
    writeRuns (tput t i (.run r.phys r.boff r.len sl ctx false rs.isEmpty r.cls r.read r.write r.page (is.headD 0))) sl ctx rs is
  | _, _ => t

/-- Write a stamp, head and runs; answer its head's index (R208). -/
def Block.writeStamp (b : Block) (sl ctx : Nat) (n : Need) (runs : List RunRec) (gen : Nat) : Nat × Block :=
  let idx := freeEntries b.pilot.stamps (runs.length + 1)
  let h := idx.headD 0
  let t := tput b.pilot.stamps h
    (.head n.len n.va runs.length (idx.getD 1 0) sl ctx false n.image n.read n.write n.buf (gen % 2 ^ 16))
  (h, { b with pilot := { b.pilot with stamps := writeRuns t sl ctx runs (idx.drop 1) } }.tallyG (some sl) 0x103 0 (runs.length + 1))

/-- The run entries of a head, first to last. -/
def stampRuns (t : Table Stamp) : (fuel i : Nat) → List (Nat × Stamp)
  | 0, _ => []
  | n + 1, i =>
    match tget t i with
    | some (.run p o l s c st last cl r w pg nx) =>
      (i, .run p o l s c st last cl r w pg nx) :: (if last then [] else stampRuns t n nx)
    | _ => []

/-- The head entry's fields that engines use: length, runs, first, stale, read, write, generation. -/
structure HeadView where
  blen : Nat
  va : Nat
  runs : Nat
  first : Nat
  slice : Nat
  ctx : Nat
  stale : Bool
  image : Bool
  read : Bool
  write : Bool
  buf : Nat
  gen : Nat
  deriving DecidableEq, Repr

/-- A head's fields. -/
def Block.head (b : Block) (h : Nat) : Option HeadView :=
  match tget b.pilot.stamps h with
  | some (.head l v r f s c st im rd wr bf g) => some ⟨l, v, r, f, s, c, st, im, rd, wr, bf, g⟩
  | _ => none

/-- A run's fields as an engine reads them (R211). -/
structure RunView where
  phys : Nat
  boff : Nat
  len : Nat
  slice : Nat
  ctx : Nat
  stale : Bool
  cls : Nat
  read : Bool
  write : Bool
  deriving DecidableEq, Repr

/-- The run of a stamp that holds buffer offset x (R211). -/
def Block.runAt (b : Block) (h x : Nat) : Option RunView :=
  match b.head h with
  | none => none
  | some hv => (stampRuns b.pilot.stamps hv.runs hv.first).findSome? fun y =>
      match y.2 with
      | .run p o l s c st _ cl r w _ _ => if o ≤ x ∧ x < o + l then some ⟨p, o, l, s, c, st, cl, r, w⟩ else none
      | _ => none

/-- Free a stamp: its entries become KIND 0 and its bills and holder mask are cleared (R207, R314). -/
def Block.freeStamp (b : Block) (h : Nat) : Block :=
  match b.head h with
  | none => b
  | some hv =>
    let ids := (stampRuns b.pilot.stamps hv.runs hv.first).map (·.1)
    { b with pilot := { b.pilot with
        stamps := (h :: ids).foldl (fun t i => tdel t i) b.pilot.stamps
        holders := tdel b.pilot.holders h, lost := tdel b.pilot.lost h } }

/-- Free several stamps. -/
def Block.freeStamps (b : Block) (hs : List Nat) : Block := hs.foldl (fun b h => b.freeStamp h) b

/-- A holder first reads a stamp: its bit is set (R314). -/
def Block.hold_ (b : Block) (h : Nat) (who : Holder) : Block :=
  let l := tgetD b.pilot.holders h []
  if l.contains who then b else { b with pilot := { b.pilot with holders := tput b.pilot.holders h (l ++ [who]) } }

/-- Quay reads a ring of a queue through its stamp: 0 the submission ring, 1 the completion ring (R268, R314). -/
def Block.quayReads (b : Block) (q : Queue) (i : Nat) : Block :=
  match q.ringHeads[i]? with
  | some h => b.hold_ h .quay
  | none => b

/-- A read of `len` bytes at an offset of a stamp passes the OTHER bucket of a partition (R333 to R335): at the run's memory port, or at the host port's reads; none while the bucket is short of tokens or a request waits there before it. -/
def Block.takeRead (b : Block) (e : Env) (p h off len : Nat) : Option Block :=
  match b.runAt h off with
  | some r => b.takeOther e p (if r.cls = 0 then (subPort (r.phys + (off - r.boff))).1 else 26) len
  | none => some b

/-- A holder lets a stamp go (R314). -/
def Block.unhold (b : Block) (h : Nat) (who : Holder) : Block :=
  { b with pilot := { b.pilot with holders := tmod b.pilot.holders h fun l => l.filter (· ≠ who) } }

/-- A holder lets every stamp go. -/
def Block.unholdAll (b : Block) (who : Holder) : Block :=
  { b with pilot := { b.pilot with holders := b.pilot.holders.map fun x => (x.1, x.2.filter (· ≠ who)) } }

/-! ### Runs -/

/-- The class and device address of a translated address: device DRAM inside BAR2's range (R304). -/
def Block.classify (b : Block) (e : Env) (phys : Nat) : Nat × Nat :=
  if b.host.bar2Base ≤ phys ∧ phys < b.host.bar2Base + e.bar2Size then (0, phys - b.host.bar2Base) else (1, phys)

/-- Add a page, or the part of one that the buffer covers, to the runs, last run first: extended while contiguous with equal class and permission up to 16 GiB (R305). -/
def addPiece (runs : List RunRec) (r : RunRec) : List RunRec :=
  match runs with
  | x :: xs =>
    if x.phys + x.len = r.phys ∧ x.cls = r.cls ∧ x.read = r.read ∧ x.write = r.write ∧ x.len + r.len ≤ 2 ^ 34 then
      { x with len := x.len + r.len, page := min x.page r.page } :: xs
    else r :: runs
  | [] => [r]

/-- What one attempt to advance a stamping task meets. -/
inductive Advance where
  /-- every buffer is covered -/
  | done
  /-- a translation of this virtual address is needed -/
  | miss (va : Nat)
  /-- the page of this address lacks a permission: a Page Request is needed (R312) -/
  | fault (va : Nat)
  /-- stamping fails with this status -/
  | fail (status : Nat)

/-- Take the next page of a cache entry into the run under construction (R304, R305); the answer is the failure it meets. -/
def takePiece (e : Env) (b : Block) (t : StampTask) (n : Need) (x : Xlat) : StampTask × Option Nat × Block :=
  let va := n.va + t.at_
  let len := min (upTo va (pageBytes x.size)) (n.len - t.at_)
  let (cls, phys) := b.classify e (x.phys + (va - x.va))
  let okDev := b.backed e phys && b.backed e (phys + len - 1) && decide (phys / 2 ^ 36 = (phys + len - 1) / 2 ^ 36)
  if cls = 0 && !okDev then (t, some 0x21, b.bump F.PL_MISS_STAT_UNBACKED)
  else if cls = 1 && n.image then (t, some 0x21, b)
  else
    let r : RunRec := ⟨t.at_, len, phys, cls, x.size, n.read && x.read, n.write && x.write⟩
    ({ t with at_ := t.at_ + len, cur := addPiece t.cur r }, none, b)

/-- One step of a task over what the cache holds; none: there is more to do (R303, R311, R312). -/
def advanceOnce (e : Env) (b : Block) (t : StampTask) : StampTask × Option Advance × Block :=
  match t.needs with
  | [] => (t, some .done, b)
  | n :: rest =>
    if n.len ≤ t.at_ then
      ({ t with needs := rest, at_ := 0, cur := [], done := t.done ++ [(n, t.cur.reverse)], answered := none }, none, b)
    else
      let va := n.va + t.at_
      match cacheFind b.pilot.cache (b.pasidOf t.slice) va with
      | none => (t, some (.miss va), b)
      | some x =>
        let b := { b with pilot := { b.pilot with cache := cacheTouch b.pilot.cache x } }
        let none_ := !x.read && !x.write
        let lacks := none_ || (n.write && !x.write)
        if lacks && t.answered ≠ some (va / 4096 * 4096) then (t, some (.fault va), b)
        else if none_ then (t, some (.fail 0x20), b.bump F.PL_MISS_STAT_PRI_FAIL)
        else
          match takePiece e b t n x with
          | (t, some st, b) => (t, some (.fail st), b)
          | (t, none, b) => (t, none, b)

/-- Advance a task over what the cache holds, as far as it goes. -/
def advance (e : Env) : (fuel : Nat) → Block → StampTask → StampTask × Advance × Block
  | 0, b, t => (t, .done, b)
  | k + 1, b, t =>
    match advanceOnce e b t with
    | (t, some a, b) => (t, a, b)
    | (t, none, b) => advance e k b t

/-- Enough steps for a task: each step ends a buffer or uses up one of the at most 16 pages of a cache entry. -/
def advanceFuel (b : Block) (t : StampTask) : Nat := (t.needs.length + 1) * (16 * b.pilot.cache.length + 2) * 2

/-- Entries a finished task's stamps take (R282 step 6). -/
def StampTask.entries (t : StampTask) : Nat := t.done.foldl (fun n x => n + 1 + x.2.length) 0

/-- Write the stamps of a finished task; answer the heads in order. -/
def Block.writeStamps (b : Block) (sl ctx : Nat) : List (Need × List RunRec) → List Nat × Block
  | [] => ([], b)
  | (n, rs) :: xs =>
    let (h, b) := b.writeStamp sl ctx n rs 0
    let (hs, b) := b.writeStamps sl ctx xs
    (h :: hs, b)

/-! ### Miss streams -/

/-- Whether a task belongs to streams 0 to 47 (R306). -/
def StampTask.command? (t : StampTask) : Bool :=
  match t.why with
  | .command _ => true
  | .restamp _ => true
  | _ => false

/-- A free stream for a task: 0 to 47 for commands, at most 8 of a slice; 48 to 55 for the rest (R306). -/
def Block.freeStream (b : Block) (t : StampTask) : Option Nat :=
  if t.command? then
    let held := (b.pilot.streams.filter fun x => decide (x.1 < 48) && x.2.slice = t.slice).length
    if 8 ≤ held then none else firstFrom (fun i => !thas b.pilot.streams i) 48 0
  else firstFrom (fun i => !thas b.pilot.streams i) 8 48

/-- Pages a task's current buffer still needs, at most PREFETCH (R310). -/
def Block.askCount (b : Block) (t : StampTask) (va : Nat) : Nat :=
  match t.needs with
  | n :: _ => min (b.rd F.PL_CTL_PREFETCH) (cdiv (n.va + n.len - va / 4096 * 4096) 4096)
  | [] => 1

/-- Issue a Translation Request for a task's next page (R310). -/
def Block.ask (b : Block) (s : Nat) (t : StampTask) (va : Nat) : Block :=
  let page := va / 4096 * 4096
  let noW := match t.needs with | n :: _ => !n.write | [] => true
  ({ b with pilot := { b.pilot with streams := tput b.pilot.streams s { t with asked := some page, crossed := [] } } }).send
    (.xlatReq s (b.pasidOf t.slice) page (b.askCount t va) noW) |>.tallyG (some t.slice) 0x104 0 1

/-- Page Requests outstanding. -/
def Block.pageReqs (b : Block) : Nat := (b.pilot.streams.filter fun x => x.2.pageReq.isSome).length

/-- Issue a Page Request for a task's page, or wait for allocation (R312); none while PRI is stopped (R310). -/
def Block.askPage (b : Block) (e : Env) (s : Nat) (t : StampTask) (va : Nat) : Block :=
  let page := va / 4096 * 4096
  if b.host.priStopped || decide (min b.host.priAlloc 512 ≤ b.pageReqs) then
    { b with pilot := { b.pilot with streams := tput b.pilot.streams s { t with asked := some page, pageWait := true } } }
  else
    let (r, w) := match t.needs with | n :: _ => (n.read, n.write) | [] => (true, false)
    ({ b with pilot := { b.pilot with
        streams := tput b.pilot.streams s { t with asked := some page, pageReq := some e.now, pageWait := false } } }).send
      (.pageReq s (b.pasidOf t.slice) page r w)

/-- A fresh task for some buffers. -/
def StampTask.new (slice ctx : Nat) (why : StampFor) (needs : List Need) : StampTask :=
  ⟨slice, ctx, why, needs, 0, [], [], none, none, false, none, [], false, none⟩

/-! ### Dirty logs -/

/-- The byte of a line that a page of the log sets, and the byte's bit (R324). -/
def setPage (bytes : List Byte) (p : Nat) : List Byte :=
  let i := p % 512 / 8
  bytes.set i (bytes.getD i 0 ||| BitVec.ofNat 8 (2 ^ (p % 8)))

/-- A line leaves the cache: it is written to its log in an untranslated write (R325). -/
def Block.writeLine (b : Block) (l : LogLine) : Block :=
  ({ b with pilot := { b.pilot with logLines := b.pilot.logLines.filter (· ≠ l) } }).send (.untranslated l.addr l.bytes)

/-- Beyond 256 lines the least recently used one whose contents are in is written back (R325). -/
def Block.evictLines (b : Block) : Block :=
  if b.pilot.logLines.length ≤ 256 then b
  else match (b.pilot.logLines.filter (·.filled)).getLast? with
    | some l => b.writeLine l
    | none => b

/-- A page's bit is set in its line of a log (R324, R325): in the cached line, or in a new one whose contents are read from the log and merged. -/
def Block.logPage (b : Block) (sl log base p : Nat) : Block :=
  let line := p / 512
  match b.pilot.logLines.find? fun l => l.sl = sl && l.log = log && l.line = line with
  | some l => { b with pilot := { b.pilot with logLines := { l with bytes := setPage l.bytes p } :: b.pilot.logLines.filter (· ≠ l) } }
  | none =>
    let addr := base + 64 * line
    let tag := b.host.nextTag
    let l : LogLine := ⟨sl, log, line, addr, setPage (List.replicate 64 0) p, false⟩
    ({ b with
        pilot := { b.pilot with logLines := l :: b.pilot.logLines }
        host := { b.host with reads := tput b.host.reads tag (.logLine sl log line), nextTag := (tag + 1) % 16384 } }).send
      (.untranslatedRead tag addr 64) |>.evictLines

/-- Record a host write of the block on a slice's behalf in its active dirty log (R324): pages in range set their bits, a write outside sets OVERFLOW. -/
def Block.dirty (b : Block) (sl va len : Nat) : Block :=
  match tget b.pilot.dirty sl with
  | none => b
  | some d =>
    if len = 0 then b else
    let lo := va / 4096
    let hi := (va + len - 1) / 4096
    let base := d.base / 4096
    let pages := (List.range (hi - lo + 1)).map (lo + ·)
    let inside := (pages.filter fun p => decide (base ≤ p ∧ p < base + d.pages)).map (· - base)
    let ins (l : List Nat) (p : Nat) : List Nat :=
      if l.contains p then l else insertBy (fun a b => decide (a ≤ b)) p l
    let d' := { d with set := inside.foldl ins d.set, overflow := d.overflow || decide (inside.length < pages.length) }
    inside.foldl (fun b p => b.logPage sl d.active (if d.active = 0 then d.logA else d.logB) p)
      { b with pilot := { b.pilot with dirty := tput b.pilot.dirty sl d' } }

/-- A posted host write for a slice through a CLASS 1 run, with its dirty-log record (R216, R324). -/
def Block.hostWrite (b : Block) (phys sl va : Nat) (data : List Byte) : Block :=
  (b.send (.write phys sl data)).dirty sl va data.length

/-! ### Fence mirrors -/

/-- A posted write of Quay, Pilot or Manifest for a slice, of `data` at `phys` (R216, R294, R334): to host memory it enters the host port through the OTHER bucket of the slice's partition, or waits in that lane; to device DRAM it takes the lane of its memory port. -/
def Block.postWrite (b : Block) (e : Env) (sl ctx phys cls va : Nat) (data : List Byte) (m : HostMsg) : Block :=
  let p := b.rd F.BW_SLICE_PARTITION sl
  if cls = 0 then
    (unitPieces phys (data.length + 1) data.length 0).foldl (fun b (o, n) =>
      b.toLane p { memReq (.posted m) (phys + o) n true sl ctx va with data := (data.drop o).take n }) b
  else match b.takeOther e p 27 data.length with
    | some b => (b.send m).dirty sl va data.length
    | none => b.toLane p { memReq (.posted m) phys data.length true sl 0 va with port := 27, sub := 0, data := data }

/-- Write a fence's value at its mirror (R294): through the cache, or on a miss stream of 48 to 55 (R306). -/
def Block.mirror (b : Block) (e : Env) (fence va sl value : Nat) : Block :=
  let pasid := b.pasidOf sl
  let need : Need := ⟨va, 8, false, true, false, 0⟩
  let t := StampTask.new sl 0 (.mirror fence va value) [need]
  match cacheFind b.pilot.cache pasid va with
  | some x =>
    let phys := x.phys + (va - x.va)
    let (cls, a) := b.classify e phys
    if x.write then b.postWrite e sl (b.baseCtxOf sl) a cls va (leBytes 8 value) (.mirror fence a sl value)
    else { b with pilot := { b.pilot with waiting := b.pilot.waiting ++ [t] } }
  | none =>
    match b.freeStream t with
    | some s => b.ask s t va
    | none => { b with pilot := { b.pilot with waiting := b.pilot.waiting ++ [t] } }

end Sys2Proof.Machine
end

