-- ==== Sys2Proof/Machine/QuayOps.lean ====
section
/-! DEFINITION. Quay's shared operations: rings and records (R271, R272, R280), vectors (R286), fences (R290 to R294), the end of a command (R281, R284, R285), the checks of R282, admin completions (R295, R296). -/

namespace Sys2Proof

/-! ### What a fetched command's fields must meet (R275 to R279) -/

/-- A sync extension that uses nothing. -/
def SyncExt.none : SyncExt := ⟨Option.none, Option.none, Option.none⟩

/-- The uses of a fence by an extension: number, value, as a signal. -/
def SyncExt.uses (s : SyncExt) : List (Nat × Nat × Bool) :=
  (s.wait0.map fun (f, v) => (f, v, false)).toList ++ (s.wait1.map fun (f, v) => (f, v, false)).toList ++
  (s.sig.map fun (f, v) => (f, v, true)).toList

/-- The buffers' LEN and PERM (R275, R282 step 5): LEN from 1 to 2^40 − 1, some access granted. -/
def bufsOk (bufs : List Buf) : Bool := bufs.all fun x => decide (1 ≤ x.len ∧ x.len < 2 ^ 40) && (x.read || x.write)

/-- The image header lies in its ranges (R279). -/
def ImageHdr.ok (h : ImageHdr) : Bool :=
  decide (h.ilen % 64 = 0 ∧ 0 < h.ilen ∧ h.ilen ≤ 2 ^ 32 ∧ h.codeOff % 16 = 0 ∧ h.codeOff + h.codeLen ≤ h.ilen)

/-- The fields of a copy are in range (R277); a buffer the command does not supply fails the transfer later (R193). -/
def CopyEntry.ok (c : CopyEntry) : Bool :=
  decide (c.srcBuf < 8 ∧ c.dstBuf < 8 ∧ c.srcOff < 2 ^ 40 ∧ c.dstOff < 2 ^ 40 ∧ c.len < 2 ^ 40)

/-- The ranges a MOVE writes into a buffer, by offset. -/
def MoveBody.written (m : MoveBody) (buf : Nat) : List (Nat × Nat) :=
  Machine.sortBy (fun a b => decide (a.1 ≤ b.1)) ((m.copies.filter fun c => c.dstBuf = buf ∧ 0 < c.len).map fun c => (c.dstOff, c.len))

/-- Ranges sorted by offset follow one another without gap or overlap. -/
def contiguous : List (Nat × Nat) → Bool
  | (o, l) :: (o', l') :: rs => decide (o + l = o') && contiguous ((o', l') :: rs)
  | _ => true

/-- The digest conditions of R277: HOLD_DST clear, one contiguous range of DIG_BUF, each byte written once. -/
def MoveBody.digestOk (m : MoveBody) : Bool :=
  !m.digest || (!m.holdDst && !(m.written m.digBuf).isEmpty && contiguous (m.written m.digBuf))

/-- The fields of the command's own slot and extension are in range (R282 step 4). -/
def Body.slotOk (body : Body) (nbuf : Nat) : Bool :=
  match body with
  | .tensor t => decide (1 ≤ t.streams ∧ t.streams ≤ 16 ∧ t.prog % 64 = 0)
  | .move m => decide (1 ≤ m.copies.length ∧ m.copies.length ≤ 4096 ∧ m.listVa % 32 = 0) && (!m.digest || decide (m.digBuf < nbuf ∧ m.doutBuf < nbuf))
  | .general g => decide (1 ≤ g.limit ∧ g.limit ≤ 10000000 ∧ g.stack < nbuf)
  | .ferry f => decide ((f.mode = 1 ∨ f.mode = 2) ∧ (f.format = 0xB ∨ (f.mode = 2 ∧ f.format = 0x8)) ∧ f.op ≤ 5 ∧
      f.len % 64 = 0 ∧ (f.op = 5 ∨ (f.srcBuf < nbuf ∧ f.dstBuf < nbuf)) ∧ f.root < 512)
  | _ => true

/-- The conditions on the bytes read (R282 step 5): buffer list, image header, copies, digest. -/
def Body.bytesOk (body : Body) (bufs : List Buf) : Bool :=
  bufsOk bufs &&
  match body with
  | .tensor t => t.img.ok
  | .move m => (m.copies.all fun c => c.ok) && m.digestOk
  | _ => true

/-- The image a command stamps. -/
def Body.image (body : Body) : Option (Nat × Nat) :=
  match body with
  | .tensor t => some (t.prog, t.img.ilen)
  | _ => none

/-- The berths a command needs (R337). -/
def Body.berths (body : Body) : Nat :=
  match body with
  | .tensor t => t.streams
  | .move _ => 1
  | .ferry _ => 1
  | _ => 0

end Sys2Proof

namespace Sys2Proof.Machine

open Sys2Proof

/-! ### Status codes (R22) -/

def stOK : Nat := 0x00
def stFallback : Nat := 0x01
def stAnchor : Nat := 0x02
def stAborted : Nat := 0x10
def stTorn : Nat := 0x11
def stFenceBroken : Nat := 0x12
def stFenceRange : Nat := 0x13
def stTranslation : Nat := 0x20
def stProtection : Nat := 0x21
def stWindowClosed : Nat := 0x22
def stUncorrectable : Nat := 0x30
def stIntegrity : Nat := 0x31
def stTimeoutRemote : Nat := 0x40
def stCollTimeout : Nat := 0x41
def stDeadline : Nat := 0x50
def stIllegal : Nat := 0x60
def stQuota : Nat := 0x61
def stUnavailable : Nat := 0x70

/-- The codes of R22 under which a result is not delivered. -/
def failCodes : List Nat :=
  [stAborted, stTorn, stFenceBroken, stFenceRange, stTranslation, stProtection, stWindowClosed, stUncorrectable, stIntegrity, stTimeoutRemote,
   stCollTimeout, stDeadline, stIllegal, stQuota, stUnavailable]

/-! ### Rings -/

/-- Slots submitted and not fetched (R271). -/
def Queue.unfetched (q : Queue) : Nat := (q.tail + 2 * 2 ^ q.n - q.fetch) % (2 * 2 ^ q.n)

/-- Records written and not consumed (R271). -/
def Queue.unread (q : Queue) : Nat := (q.cqTail + 2 * 2 ^ q.m - q.cqHead) % (2 * 2 ^ q.m)

/-- The completion ring is full (R272). -/
def Queue.full (q : Queue) : Bool := decide (2 ^ q.m ≤ q.unread)

/-- The live queue of a slice with local index k. -/
def Block.findQueue (b : Block) (sl k : Nat) : Option (Nat × Queue) :=
  b.quay.queues.find? fun x => x.2.slice = sl && x.2.k = k

/-- Change a queue. -/
def Block.modQueue (b : Block) (q : Nat) (f : Queue → Queue) : Block :=
  { b with quay := { b.quay with queues := tmod b.quay.queues q f } }

/-- Change a command. -/
def Block.modCmd (b : Block) (c : Nat) (f : Cmd → Cmd) : Block :=
  { b with quay := { b.quay with cmds := tmod b.quay.cmds c f } }

/-- Change a slice. -/
def Block.modSlice (b : Block) (s : Nat) (f : Slice → Slice) : Block :=
  { b with quay := { b.quay with slices := tmod b.quay.slices s f } }

/-- States of BW_SLICE_s (R348). -/
def slActive : Nat := 1
def slQuiescing : Nat := 2
def slQuiesced : Nat := 3
def slRemoving : Nat := 4
def slExporting : Nat := 5

/-- A slice's STATE (R348). -/
def Block.sliceState (b : Block) (s : Nat) : Nat := b.rd F.BW_SLICE_STATE s

/-- A slice's partition. -/
def Block.slicePart (b : Block) (s : Nat) : Nat := b.rd F.BW_SLICE_PARTITION s

/-- The berths a partition owns (BW_PART_p). -/
def Block.partBerths (b : Block) (p : Nat) : List Nat :=
  if b.rd F.BW_PART_VALID p = 1 then bitsOf 16 (b.rd F.BW_PART_BERTHS p) else []

/-- A Manifest list's job: not a fetched command (R249). -/
def Cmd.list? (c : Cmd) : Bool := match c.body with | .list _ _ => true | _ => false

/-- Commands fetched and incomplete of a slice (R283); an admin command in progress counts. -/
def Block.inflight (b : Block) (sl : Nat) : Nat :=
  (b.quay.cmds.filter fun x => x.2.slice = sl && !x.2.list?).length + (b.quay.queues.filter fun x => x.2.slice = sl && x.2.busy).length

/-- Commands fetched and incomplete of the block (QY_CMD_STAT.INFLIGHT). -/
def Block.inflightAll (b : Block) : Nat :=
  (b.quay.cmds.filter fun x => !x.2.list?).length + (b.quay.queues.filter fun x => x.2.busy).length

/-! ### Vectors -/

/-- Raise a queue's vector; raises within MODERATE of the last one are merged (R286). -/
def Block.raiseVector (b : Block) (e : Env) (qn : Nat) : Block :=
  match tget b.quay.queues qn with
  | none => b
  | some q =>
    match q.vector with
    | none => b
    | some v =>
      if e.now < q.moderUntil then b.modQueue qn fun q => { q with moderOwed := true }
      else (b.modQueue qn fun q => { q with moderUntil := e.now + q.moderate * 1000, moderOwed := false }).msix v

/-! ### Fences -/

/-- The rights a context of a slice has on a fence: wait, signal (R291). -/
def Block.fenceRights (b : Block) (f sl : Nat) : Bool × Bool :=
  match tget b.quay.fences f with
  | none => (false, false)
  | some x =>
    if x.slice = sl then (true, true)
    else match x.rights.find? fun g => g.slice = sl with
      | some g => (g.wait, g.signal)
      | none => (false, false)

/-- A signal with value v (R290, R292, R294): the maximum; below counts LATE, on a broken fence DEAD. -/
def Block.signal (b : Block) (e : Env) (f v : Nat) : Block :=
  match tget b.quay.fences f with
  | none => b
  | some x =>
    if x.broken then b.bump F.QY_FENCE_STAT_DEAD
    else if v < x.value then b.bump F.QY_FENCE_STAT_LATE
    else if v = x.value then b
    else
      let b := { b with quay := { b.quay with fences := tput b.quay.fences f { x with value := v } } }
      match x.mirror with
      | some va => b.mirror e f va x.slice v
      | none => b

/-- What a wait sees (R274, R292): satisfied, not yet, or broken. -/
inductive WaitView where
  | yes
  | no
  | broken
  deriving DecidableEq, Repr

/-- Evaluate one wait. -/
def Block.evalWait (b : Block) (w : Option (Nat × Nat)) : WaitView :=
  match w with
  | none => .yes
  | some (f, v) =>
    match tget b.quay.fences f with
    | none => .broken
    | some x => if x.broken then .broken else if v ≤ x.value then .yes else .no

/-- The waits of a command that have not been evaluated and satisfied (R301). -/
def Cmd.openWaits (c : Cmd) : SyncExt := { c.sync with wait0 := if c.met0 then none else c.sync.wait0, wait1 := if c.met1 then none else c.sync.wait1 }

/-- Evaluate both waits of a command; a broken one decides (R292). -/
def Block.evalWaits (b : Block) (s : SyncExt) : WaitView :=
  match b.evalWait s.wait0, b.evalWait s.wait1 with
  | .broken, _ => .broken
  | _, .broken => .broken
  | .yes, .yes => .yes
  | _, _ => .no

/-- Waits of commands that wait for a unit are evaluated: a satisfied one stands, whatever becomes of its fence or of the right to wait on it (R301; log 106). -/
def Block.noteWaits (b : Block) : Block :=
  { b with quay := { b.quay with cmds := b.quay.cmds.map fun x =>
      (x.1, if x.2.ph = .waiting then { x.2 with
        met0 := x.2.met0 || (x.2.sync.wait0.isSome && b.evalWait x.2.sync.wait0 = .yes && ((x.2.sync.wait0.map fun w => (b.fenceRights w.1 x.2.slice).1).getD true))
        met1 := x.2.met1 || (x.2.sync.wait1.isSome && b.evalWait x.2.sync.wait1 = .yes && ((x.2.sync.wait1.map fun w => (b.fenceRights w.1 x.2.slice).1).getD true)) }
      else x.2) } }

/-- A fence is named by some fetched command, or by the signal of a record not written yet (R272, R293). -/
def Block.fenceNamed (b : Block) (f : Nat) : Bool :=
  (b.quay.cmds.any fun x =>
    (x.2.sync.wait0.map (·.1)) = some f || (x.2.sync.wait1.map (·.1)) = some f || (x.2.sync.sig.map (·.1)) = some f) ||
  b.quay.queues.any fun x => x.2.held.any fun h => (h.sig.map (·.1)) = some f

/-- Free the broken fences that nothing holds any longer, least fence number first (R293). -/
def Block.freeFences (b : Block) : Block :=
  let dead := b.quay.fences.filter fun x => x.2.broken && x.2.rights.isEmpty && !b.fenceNamed x.1
  { b with quay := { b.quay with
      fences := b.quay.fences.filter fun x => !(x.2.broken && x.2.rights.isEmpty && !b.fenceNamed x.1)
      fenceFreed := b.quay.fenceFreed ++ dead.map (·.1) } }

/-- Fences that can be allocated: never used, or freed (QY_FENCE_STAT.FREE). -/
def Block.fencesFree (b : Block) : Nat := 65536 - b.quay.fences.length

/-! ### Completion records -/

/-- The 32 bytes of a completion record (R280). -/
def CqRecord.bytes (r : CqRecord) : List Byte :=
  leBytes 8 r.result ++ leBytes 4 r.tag ++ leBytes 2 r.sqHead ++ leBytes 2 (r.ctx % 4096) ++ leBytes 1 r.status ++ leBytes 1 r.detail ++
  leBytes 1 (match r.faultBuf with | some k => 128 + k % 8 | none => 0) ++ leBytes 1 0 ++ leBytes 6 r.time ++ leBytes 5 0 ++ leBytes 1 (128 * r.phase.toNat)

/-- Where a queue's next record goes (R268): its virtual address and the run of the completion ring's stamp that holds it; none while the stamp is stale or gives no write access. -/
def Block.recordPlace (b : Block) (q : Queue) : Option (Nat × RunView) :=
  match q.ringHeads with
  | _ :: c :: _ =>
    let off := 32 * (q.cqTail % 2 ^ q.m)
    match b.head c, b.runAt c off with
    | some h, some r => if h.stale || r.stale || !r.write then none else some (h.va + off, { r with phys := r.phys + (off - r.boff), boff := off })
    | _, _ => none
  | _ => none

/-- The record that stands next in a queue's ring (R272, R280): the fetch position at its writing, or a launch's own, and the phase of its lap. -/
def Queue.nextRecord (q : Queue) (h : HeldRec) : CqRecord :=
  { h.r with sqHead := (h.launch.getD q.fetch) % 65536, phase := decide (q.cqTail / 2 ^ q.m % 2 = 0) }

/-- After a completion's record: its stamps are freed (R207), its fence signal applied, its vector raised (R281); a broken fence that only it named is freed (R293). -/
def Block.afterRecord (b : Block) (e : Env) (qn : Nat) (h : HeldRec) : Block :=
  let b := b.freeStamps h.heads
  let b := match h.sig with
    | some (f, v) => b.signal e f v
    | none => b
  (if h.irq then b.raiseVector e qn else b).freeFences

/-- The first record held of a queue is written, through `put`, and what follows it takes place (R281). -/
def Block.writeHeld (b : Block) (e : Env) (qn : Nat) (h : HeldRec) (put : Block → Block) : Block :=
  (put (b.modQueue qn fun y => { y with held := y.held.drop 1, cqTail := (y.cqTail + 1) % (2 * 2 ^ y.m) })).afterRecord e qn h

/-- A lane already holds the next record of a queue. -/
def Block.recordWaits (b : Block) (qn : Nat) : Bool := b.ports.lanes.any fun l => l.2.any fun x => x.req.who = .record qn

/-- A record that is never written (R287, R299, R351): counted, its stamps freed, its signal applied all the same; a broken fence that only it named is freed (R293). -/
def Block.dropRecord (b : Block) (e : Env) (h : HeldRec) : Block :=
  let b := (b.bump F.QY_CMD_STAT_CQ_DROP).freeStamps h.heads
  (match h.sig with
  | some (f, v) => b.signal e f v
  | none => b).freeFences

/-- Records a queue holds are dropped, in order: those that meet a condition. -/
def Block.dropHeldIf (b : Block) (e : Env) (qn : Nat) (ok : HeldRec → Bool) : Block :=
  match tget b.quay.queues qn with
  | none => b
  | some q =>
    let keep (l : Nat × List LaneReq) := (l.1, l.2.filter fun x => x.req.who ≠ .record qn)
    let b := { b.modQueue qn fun q => { q with held := q.held.filter fun h => !ok h } with ports := { b.ports with lanes := b.ports.lanes.map keep } }
    (q.held.filter ok).foldl (fun b h => b.dropRecord e h) b

/-- The records a queue holds are dropped, in order. -/
def Block.dropHeld (b : Block) (e : Env) (qn : Nat) : Block := b.dropHeldIf e qn fun _ => true

/-- Write the records a queue holds, in order, while its ring has room and its stamp is fresh (R268, R272): to host memory while the OTHER bucket of the slice's partition has tokens, else the next one waits in that lane; to device DRAM through the lane of its memory port (R334, R335). What a queue STOPPED by a teardown holds for a full ring is dropped (R299, R301). -/
def Block.releaseHeld (e : Env) (qn : Nat) : (fuel : Nat) → Block → Block
  | 0, b => b
  | k + 1, b =>
    match tget b.quay.queues qn with
    | none => b
    | some q =>
      if q.full && q.st = .stopped then b.dropHeld e qn
      else match q.held, b.recordPlace q with
      | h :: _, some (va, r) =>
        if q.full || b.recordWaits qn then b
        else
          let b := b.quayReads q 1
          let p := b.slicePart q.slice
          let x := q.nextRecord h
          if r.cls = 0 then b.toLane p { memReq (.record qn) r.phys 32 true r.slice r.ctx va with data := x.bytes }
          else match b.takeOther e p 27 32 with
            | some b => Block.releaseHeld e qn k
                (b.writeHeld e qn h fun b => (b.send (.record qn (q.cqTail % 2 ^ q.m) r.phys q.slice x)).dirty q.slice va 32)
            | none => b.toLane p { memReq (.record qn) r.phys 32 true r.slice 0 va with port := 27, sub := 0, data := x.bytes }
      | _, _ => b

/-- A completion (R281): its record stands behind those held and is written once it can be. A BROKEN queue drops the record and still signals (R287); so does a full ring during a teardown (R299). -/
def Block.postRecord (b : Block) (e : Env) (qn : Nat) (r : CqRecord) (launch : Option Nat) (sig : Option (Nat × Nat)) (heads : List Nat)
    (irq teardown : Bool) : Block :=
  let h (sl : Nat) : HeldRec := ⟨{ r with time := e.now / 1000 % 2 ^ 48 }, sig, irq, sl, launch, heads⟩
  match tget b.quay.queues qn with
  | none => b.dropRecord e (h 0)
  | some q =>
    if q.st = .broken || (teardown && decide (2 ^ q.m ≤ q.unread + q.held.length)) then b.dropRecord e (h q.slice)
    else
      let h := h q.slice
      Block.releaseHeld e qn (q.held.length + 1) (b.modQueue qn fun q => { q with held := q.held ++ [h] })

/-- The final status by R23: the failure, else FALLBACK_USED, else ANCHOR_FLAGS, else OK. -/
def Cmd.finalStatus (c : Cmd) : Nat :=
  if c.status ≠ 0 then c.status
  else if c.fallback then stFallback
  else if c.anchorFlags then stAnchor
  else stOK

/-- Statuses that tear the context down after dispatch (R469). -/
def tearsDown (st : Nat) : Bool := st = stProtection || st = stUncorrectable || st = stIntegrity || st = stIllegal

/-- Statuses that Logbook records as a FAULT event (R469). -/
def eventOf (st : Nat) : Bool :=
  st = stTranslation || st = stTimeoutRemote || st = stCollTimeout || st = stProtection || st = stUncorrectable || st = stIntegrity

/-- The record a command leaves. -/
def Cmd.record (c : Cmd) : CqRecord :=
  { result := c.result, tag := c.hdr.tag, sqHead := 0, ctx := c.hdr.ctx, status := c.finalStatus, detail := c.detail
    faultBuf := c.faultBuf, time := 0, phase := false }

/-- The signal a completing command applies (R285). -/
def Cmd.signalOf (c : Cmd) : Option (Nat × Nat) :=
  if c.noSignal || c.status = stTorn then none else c.sync.sig

/-- Whether a command is a launch of a standing queue: its stamps stay (R289). -/
def Cmd.launch? (c : Cmd) : Bool := c.launchPos.isSome

/-- A command leaves Quay: record, signal, vector; its stamps live until the record is written, unless they are a standing command's (R207, R281, R289). -/
def Block.retire (b : Block) (e : Env) (c : Nat) (teardown : Bool) : Block :=
  match tget b.quay.cmds c with
  | none => b
  | some x =>
    let b := b.postRecord e x.q x.record x.launchPos x.signalOf (if x.launch? then [] else x.heads) x.hdr.irq teardown
    let b := { b with quay := { b.quay with cmds := tdel b.quay.cmds c } }
    (b.stir e).freeFences.tallyG (some x.slice) 0x102 (x.finalStatus / 16) 1

/-- A command ends without running or has ended: its status is known and its record is due (R281). The first failure stands (R23). -/
def Block.endCmd (b : Block) (c st detail : Nat) : Block :=
  b.modCmd c fun x => if x.status = 0 ∧ x.ph ≠ .ended then { x with status := st, detail := detail, ph := .ended } else { x with ph := .ended }

/-! ### Fetched commands -/

/-- Whether a queue's ring stamps can be used (R287). -/
def Block.ringOk (b : Block) (q : Queue) : Bool := q.ringHeads.all fun h => ((b.head h).map (fun v => !v.stale)).getD false

/-- Slots a command takes: two with an extension (R274). -/
def slotsOf (ext : Bool) : Nat := if ext then 2 else 1

/-- The reads of n slots of the submission ring from the fetch position on pass Breakwater, slot by slot (R268, R272, R333 to R335). -/
def Block.takeSlots (e : Env) (q : Queue) : (n i : Nat) → Block → Option Block
  | 0, _, b => some b
  | n + 1, i, b =>
    match q.ringHeads.head? with
    | some h => (b.takeRead e (b.slicePart q.slice) h (64 * ((q.fetch + i) % 2 ^ q.n)) 64).bind (Block.takeSlots e q n (i + 1))
    | none => some b

/-- Quay can fetch a command from a queue now (R272, R274, R283, R287, R335, R349). -/
def Block.canFetch (b : Block) (e : Env) (qn : Nat) (q : Queue) (ext : Bool) : Bool :=
  (Block.takeSlots e q (slotsOf ext) 0 b).isSome && q.st = .live && decide (b.sliceState q.slice = slActive) && decide (slotsOf ext ≤ q.unfetched) &&
  !q.full && !q.busy && b.ringOk q &&
  decide ((b.quay.cmds.filter fun x => x.2.q = qn).length < q.depth) &&
  decide (b.inflight q.slice < b.rd F.QY_SQUOTA_INFLIGHT q.slice) && decide (b.inflightAll < 16384)

/-- Advance a queue's fetch position (R272). -/
def Block.advanceFetch (b : Block) (qn n : Nat) : Block :=
  b.modQueue qn fun q => { q with fetch := (q.fetch + n) % (2 * 2 ^ q.n) }

/-- Quay reads a command's slots from the submission ring, through the OTHER bucket (R268, R272, R335). -/
def Block.readSlots (b : Block) (e : Env) (qn : Nat) (q : Queue) (n : Nat) : Block :=
  (((Block.takeSlots e q n 0 b).getD b).quayReads q 0).advanceFetch qn n

/-- Step 1 of R282: the context is a live one of the slice and the bound one. TEARING is told apart (R301). -/
def Block.ctxCheck (b : Block) (sl bind ctx : Nat) : Option Nat :=
  match tget b.quay.ctxs ctx with
  | none => some stProtection
  | some x =>
    if ctx = 0 ∨ x.slice ≠ sl ∨ (bind ≠ 0 ∧ bind ≠ ctx) then some stProtection
    else if x.st = .tearing then some stTorn
    else none

/-- Steps 1 to 3 of R282: the failing step and its status, if one fails. -/
def Block.checkHead (b : Block) (sl bind : Nat) (h : CmdHdr) (s : SyncExt) : Option (Nat × Nat) :=
  match b.ctxCheck sl bind h.ctx with
  | some st => some (if st = stTorn then 0 else 1, st)
  | none =>
    if s.uses.any fun (_, v, _) => decide (2 ^ 63 ≤ v) then some (2, stFenceRange)
    else if s.uses.any fun (f, _, sg) => let r := b.fenceRights f sl; !(if sg then r.2 else r.1) then
      some (3, stProtection)
    else none

/-- Count what a failed check counts: BAD_CTX at step 1, RANGE at step 2 (R302). -/
def Block.countCheck (b : Block) (step : Nat) : Block :=
  if step = 1 then b.bump F.QY_CMD_STAT_BAD_CTX
  else if step = 2 then b.bump F.QY_FENCE_STAT_RANGE
  else b

/-- What Quay reads once at a command's fetch through Pilot's translations (R282 step 5, R303): the buffer list, the argument block, the copy list, the image header. -/
def listsOf (h : CmdHdr) (body : Body) : List Need :=
  let read (va len : Nat) : Need := ⟨va, len, true, false, false, 0⟩
  (if h.nbuf = 0 then [] else [read h.bufsVa (16 * h.nbuf)]) ++
  match body with
  | .tensor t => (if t.argsVa = 0 then [] else [read t.argsVa 128]) ++ [read t.prog 64]
  | .move m => [read m.listVa (32 * m.copies.length)]
  | _ => []

/-- What Pilot stamps for a command: its buffers, then its image (R207, R279). -/
def needsOf (bufs : List Buf) (image : Option (Nat × Nat)) : List Need :=
  (List.zipIdx bufs).map (fun (x, i) => ⟨x.va, x.len, x.read, x.write, false, i⟩) ++
  (image.map fun (va, len) => (⟨va, len, true, false, true, 0⟩ : Need)).toList

/-- A Hold object a slice may write: unsealed and granted for writing (R277, R378). -/
def Block.holdWritable (b : Block) (sl handle : Nat) : Bool :=
  match tget b.hold.objs (handle % 65536) with
  | some o => tgetD b.hold.gens (handle % 65536) 0 = handle / 65536 && !o.sealed && o.grants.any fun g => g.1 = sl && g.2.2
  | none => false

/-- A new command record. -/
def Cmd.new (q : Nat) (x : Queue) (h : CmdHdr) (s : SyncExt) (body : Body) (bufs : List Buf) : Cmd :=
  { q := q, slice := x.slice, hdr := h, sync := s, body := body, bufs := bufs, heads := [], ph := .stamping, status := 0
    detail := 0, faultBuf := none, result := 0, anchorFlags := false, fallback := false, noSignal := false, units := []
    launchPos := none, since := 0, ran := false, met0 := false, met1 := false, ready := false, busy := [], task := none, suspect := 0, aborting := false, copied := 0 }

/-- Add a command under the next serial. -/
def Block.addCmd (b : Block) (c : Cmd) : Nat × Block :=
  (b.quay.nextCmd, { b with quay := { b.quay with cmds := tput b.quay.cmds b.quay.nextCmd c, nextCmd := b.quay.nextCmd + 1 } })

/-! ### Admin commands -/

/-- Write an admin command's record and let the next one be fetched (R295). -/
def Block.adminDone (b : Block) (e : Env) (sl : Nat) (h : CmdHdr) (st detail result : Nat) (sig : Option (Nat × Nat) := none) : Block :=
  match b.findQueue sl 0 with
  | none => b
  | some (qn, _) =>
    let b := b.modQueue qn fun q => { q with busy := false }
    b.postRecord e qn
      { result := result, tag := h.tag, sqHead := 0, ctx := h.ctx, status := st, detail := detail, faultBuf := none, time := 0, phase := false }
      none sig [] h.irq false

/-- A fetched admin command: fetched only when the one before it has completed; its header is checked, then it acts (R282 steps 1 and 4, R295). -/
def Block.admin (b : Block) (e : Env) (sl : Nat) (h : CmdHdr) (f : Block → Block) : Block :=
  match b.findQueue sl 0 with
  | none => b
  | some (qn, q) =>
    if b.canFetch e qn q h.ext then
      let b := b.readSlots e qn q (slotsOf h.ext)
      match b.ctxCheck sl 0 h.ctx with
      | some st => (b.countCheck (if st = stTorn then 0 else 1)).adminDone e sl h st (if st = stTorn then 0 else 1) 0
      | none =>
        if h.ext ∨ 8 < h.nbuf then b.adminDone e sl h stAborted 4 0
        else f (b.modQueue qn fun q => { q with busy := true })
    else b

/-- Live contexts of a slice (R296). -/
def Block.ctxCount (b : Block) (sl : Nat) : Nat := (b.quay.ctxs.filter fun x => x.2.slice = sl ∧ x.2.st = .live).length

/-- The lowest number from `next` on that has never been used: neither in use nor freed (R293, R298, R353). -/
def unusedFrom (next max : Nat) (used freed : List Nat) : Option Nat :=
  (firstFrom (fun i => !used.contains i && !freed.contains i) (used.length + freed.length + 1) next).bind fun n => if n ≤ max then some n else none

/-- Allocate a context of a slice: a number never used first, then the least recently freed (R298). -/
def Block.newCtx (b : Block) (sl : Nat) : Option (Nat × Block) :=
  match unusedFrom b.quay.ctxNext 4095 (b.quay.ctxs.map (·.1)) b.quay.ctxFreed with
  | some n => some (n, { b with quay := { b.quay with ctxs := tput b.quay.ctxs n ⟨sl, .live, 0, none⟩, ctxNext := n + 1 } })
  | none => match b.quay.ctxFreed with
    | n :: ns => some (n, { b with quay := { b.quay with ctxs := tput b.quay.ctxs n ⟨sl, .live, 0, none⟩, ctxFreed := ns } })
    | [] => none

/-- Allocate a fence number (R293). -/
def Block.newFence (b : Block) (x : Fence) : Option (Nat × Block) :=
  match unusedFrom b.quay.fenceNext 65535 (b.quay.fences.map (·.1)) b.quay.fenceFreed with
  | some n => some (n, { b with quay := { b.quay with fences := tput b.quay.fences n x, fenceNext := n + 1 } })
  | none => match b.quay.fenceFreed with
    | n :: ns => some (n, { b with quay := { b.quay with fences := tput b.quay.fences n x, fenceFreed := ns } })
    | [] => none

/-- The lowest queue number no live queue holds (R265). -/
def Block.newQueueNo (b : Block) : Nat := (firstFrom (fun i => !thas b.quay.queues i) (b.quay.queues.length + 1) 0).getD 0

end Sys2Proof.Machine
end

