-- ==== Sys2Proof/Machine/BerthOps.lean ====
section
/-! DEFINITION. The berth's shared operations: register file and berth-store access (R122 to R126, R156, R157), the states of a berth (R151), failures of a job (R193, R284, R469), the worst-case time (R139). -/

namespace Sys2Proof.Machine

open Sys2Proof

/-! ### Access -/

/-- A berth; an unlisted one is scrubbed and idle. -/
def Block.berth (b : Block) (n : Nat) : Berth := tgetD b.berths n Berth.reset

/-- Change a berth. -/
def Block.modBerth (b : Block) (n : Nat) (f : Berth → Berth) : Block :=
  { b with berths := tput b.berths n (f (b.berth n)) }

/-- A general core; an unlisted one is off and idle. -/
def Block.core (b : Block) (g : Nat) : Core := tgetD b.cores g Core.reset

/-- Change a general core. -/
def Block.modCore (b : Block) (g : Nat) (f : Core → Core) : Block := { b with cores := tput b.cores g (f (b.core g)) }

/-- Change the stream of a berth. -/
def Block.modStream (b : Block) (n : Nat) (f : Stream → Stream) : Block :=
  b.modBerth n fun x => { x with stream := x.stream.map f }

/-- Change the registers of a berth. -/
def Block.modRegs (b : Block) (n : Nat) (f : Regs → Regs) : Block := b.modBerth n fun x => { x with regs := f x.regs }

/-- Values of BT_STATE.STATE (R151). -/
def bsGated : Nat := 0
def bsIdle : Nat := 1
def bsRunning : Nat := 2
def bsToMoor : Nat := 3
def bsSaving : Nat := 4
def bsScrubbing : Nat := 5
def bsRestoring : Nat := 6
def bsDrained : Nat := 7
def bsResetting : Nat := 8
def bsFailed : Nat := 9
def bsCollective : Nat := 10

/-- A berth's STATE. -/
def Block.bstate (b : Block) (n : Nat) : Nat := b.rd F.BT_STATE_STATE n

/-- States in which a berth runs, saves or restores (R512). -/
def bsBusy (st : Nat) : Bool := st = bsRunning || st = bsToMoor || st = bsSaving || st = bsRestoring || st = bsCollective

/-- Set a berth's STATE; a change of STATE is progress (R473), and leaving or entering a busy one ends the block's quiet (R512). -/
def Block.setBstate (b : Block) (e : Env) (n st : Nat) : Block :=
  let b := if bsBusy (b.bstate n) || bsBusy st then b.stir e else b
  (b.wr F.BT_STATE_STATE n st).modBerth n fun x => { x with progress := e.now }

/-! ### Scalar registers, counters, tiles -/

/-- Read a scalar register; s0 reads 0 (R122). -/
def Regs.sreg (r : Regs) (i : Nat) : Word := if i = 0 then 0 else tgetD r.s i 0

/-- Write a scalar register; s0 ignores writes (R122). -/
def Regs.setS (r : Regs) (i : Nat) (v : Word) : Regs := if i = 0 then r else { r with s := tput r.s i v }

/-- A vector lane. -/
def Regs.lane (r : Regs) (v l : Nat) : BitVec 32 := tgetD r.v (256 * v + l) 0

/-- Write a vector lane. -/
def Regs.setLane (r : Regs) (v l : Nat) (x : BitVec 32) : Regs := { r with v := tput r.v (256 * v + l) x }

/-- A predicate register. -/
def Regs.preg (r : Regs) (i : Nat) : BitVec 256 := tgetD r.p i 0

/-- Write a predicate register. -/
def Regs.setP (r : Regs) (i : Nat) (x : BitVec 256) : Regs := { r with p := tput r.p i x }

/-- A local counter. -/
def Regs.counter (r : Regs) (i : Nat) : Word := tgetD r.c i 0

/-- Write a local counter. -/
def Regs.setC (r : Regs) (i : Nat) (x : Word) : Regs := { r with c := tput r.c i x }

/-- A tile; an unlisted one is cleared. -/
def Regs.tile (r : Regs) (t : Nat) : Tile := tgetD r.tiles t Tile.reset

/-- Write a tile. -/
def Regs.setTile (r : Regs) (t : Nat) (x : Tile) : Regs := { r with tiles := tput r.tiles t x }

/-! ### Berth store -/

/-- What an unlisted berth-store address reads as: the store is scrubbed to zero (R123, R147). -/
def storeDefault : Byte := 0

/-- Read one byte of a store. -/
def memGet : List Host.Cell → Nat → Byte
  | [], _ => storeDefault
  | (i, v) :: m, a => if i = a then v else if a < i then storeDefault else memGet m a

/-- Write one byte of a store, keeping addresses rising and no entry equal to what an unlisted address reads as. -/
def memPut : List Host.Cell → Nat → Byte → List Host.Cell
  | [], a, v => if v = storeDefault then [] else [(a, v)]
  | (i, x) :: m, a, v =>
    if a < i then (if v = storeDefault then (i, x) :: m else (a, v) :: (i, x) :: m)
    else if i = a then (if v = storeDefault then m else (a, v) :: m)
    else (i, x) :: memPut m a v

/-- Write a byte string from an address on. -/
def memWrite (m : List Host.Cell) (a : Nat) : List Byte → List Host.Cell
  | [] => m
  | v :: vs => memWrite (memPut m a v) (a + 1) vs

/-- Addresses rise strictly from lo on, and no entry equals the default. -/
def memSorted : Nat → List Host.Cell → Bool
  | _, [] => true
  | lo, (i, v) :: m => decide (lo ≤ i) && decide (v ≠ storeDefault) && memSorted (i + 1) m

/-- The canonical form of a store. -/
abbrev Memory.wf (m : List Host.Cell) : Prop := memSorted 0 m = true

/-- Bytes of the populated store (R125). -/
def storeBytes : Nat := 0x1400000

/-- The valid remap entries of a berth: line and entry, lowest entry first (R157). -/
def Block.remaps (b : Block) (n : Nat) : List (Nat × Nat) :=
  ((List.range 16).filter fun i => b.rd F.BT_REMAP_VALID (16 * n + i) = 1).map fun i => (b.rd F.BT_REMAP_LINE (16 * n + i), i)

/-- Read one byte of berth store; a remapped line is served from its spare storage (R157). -/
def Block.loadByte (b : Block) (n : Nat) (rm : List (Nat × Nat)) (a : Nat) : Byte :=
  match rm.find? fun x => x.1 = a / 64 with
  | some (_, i) => (tgetD (b.berth n).spare i []).getD (a % 64) 0
  | none => memGet (b.berth n).regs.store a

/-- Read a byte string of berth store. -/
def Block.load (b : Block) (n a len : Nat) : List Byte :=
  let rm := b.remaps n
  (List.range len).map fun i => b.loadByte n rm (a + i)

/-- Set one byte of a remap entry's spare storage. -/
def setSpare (l : List Byte) (i : Nat) (v : Byte) : List Byte :=
  ((l ++ List.replicate (64 - l.length) 0)).set i v

/-- Write one byte of berth store (R157). -/
def Block.storeByte (n : Nat) (rm : List (Nat × Nat)) (b : Block) (a : Nat) (v : Byte) : Block :=
  match rm.find? fun x => x.1 = a / 64 with
  | some (_, i) => b.modBerth n fun x => { x with spare := tupd x.spare i [] fun l => setSpare l (a % 64) v }
  | none => b.modRegs n fun r => { r with store := memPut r.store a v }

/-- Write a byte string into berth store. A write to a word drops its write-back, and the newer data stands (R156 rule 3). -/
def Block.store (b : Block) (n a : Nat) (data : List Byte) : Block :=
  let rm := b.remaps n
  let b :=
    if rm.isEmpty then b.modRegs n fun r => { r with store := memWrite r.store a data }
    else (List.zipIdx data).foldl (fun b (v, i) => Block.storeByte n rm b (a + i) v) b
  let hit (w : Nat) : Bool := decide (a < 8 * w + 8 ∧ 8 * w < a + data.length)
  b.modBerth n fun x => { x with
    badBits := x.badBits.filter fun w => !(hit w.1 && !x.stuckBits.contains w.1)
    writeBack := x.writeBack.filter fun w => !hit w }

/-- A checked read (R156): one-bit errors are corrected, counted and scheduled for write-back; a word with more reads as uncorrectable, counted. The answer is the line of the first uncorrectable word. -/
def Block.eccRead (b : Block) (n a len : Nat) : Option Nat × Block :=
  let x := b.berth n
  let rm := b.remaps n
  let hit := x.badBits.filter fun w => decide (a < 8 * w.1 + 8 ∧ 8 * w.1 < a + len) && !(rm.any fun r => r.1 = w.1 / 8)
  let one := (hit.filter fun w => w.2 = 1).map (·.1)
  let many := (hit.filter fun w => decide (2 ≤ w.2)).map (·.1)
  let b := if one.isEmpty then b else
    ((b.bump F.BT_ECC_STATUS_CORRECTED n one.length).tallyB n (x.stream.map (·.slice)) 0x00C 0 one.length).modBerth n fun x =>
      { x with writeBack := x.writeBack ++ one.filter fun w => !x.writeBack.contains w }
  match many with
  | [] => (none, b)
  | w :: _ => (some (w / 8), b.bump F.BT_ECC_STATUS_UNCORRECTED n many.length)

/-! ### Berths of a job, idle berths, save slots -/

/-- The berths whose stream belongs to a command. -/
def Block.jobBerths (b : Block) (c : Nat) : List Nat :=
  (b.berths.filter fun x => (x.2.stream.map (·.job)) = some c).map (·.1)

/-- The slots that hold streams of a command. -/
def Block.jobSlots (b : Block) (c : Nat) : List Nat :=
  (b.slots.filter fun x => x.2.stream.job = c).map (·.1)

/-- Slots SAVE_SLOTS gives (BW_SAVE.SLOTS). -/
def Block.slotCount (b : Block) : Nat := b.rd F.BW_SAVE_SLOTS

/-- Slots that hold a stream, that saves under way fill, or that are being cleared (R344). -/
def Block.slotsTaken (b : Block) : List Nat :=
  b.slots.map (·.1) ++ (b.berths.filterMap fun x => if x.2.saving.isSome then x.2.slot else none) ++ b.ports.wipes.filterMap (·.slot)

/-- The Harbourmaster clears a slot that held a stream of a slice (R344, R351, R354). -/
def Block.wipeSlot (b : Block) (k sl : Nat) : Block := { b with ports := { b.ports with wipes := b.ports.wipes ++ [⟨some k, 0, 0, sl, 0, 0⟩] } }

/-- The slots whose streams meet a condition are freed and cleared (R351, R354). -/
def Block.dropSlots (b : Block) (ok : Saved → Bool) : Block :=
  let b' : Block := { b with slots := b.slots.filter fun x => !ok x.2 }
  (b.slots.filter fun x => ok x.2).foldl (fun b x => b.wipeSlot x.1 x.2.stream.slice) b'

/-- A save under way is given up: no slot is kept (R149). -/
def Block.giveUpSave (b : Block) (n : Nat) : Block :=
  match (b.berth n).saving, (b.berth n).slot with
  | some v, some k => b.wipeSlot k v.stream.slice
  | _, _ => b

/-- Whether every connected port has opened: until then saves use the early slots 256 to 263 (R345). -/
def Block.earlyOnly (b : Block) (e : Env) : Bool := !(e.memPorts.all fun p => b.ports.opened.contains p)

/-- The free save slots, lowest first (R344, R345). -/
def Block.freeSlots (b : Block) (e : Env) : List Nat :=
  let pool := if b.earlyOnly e then (List.range 8).map (256 + ·) else List.range b.slotCount
  let t := b.slotsTaken
  pool.filter fun i => !t.contains i

/-! ### The preemption reserve (R146, R345) -/

/-- GB/s that saves and restores can take of the reserve: 150 at each connected port. -/
def Env.reserveRate (e : Env) : Nat := 150 * e.memPorts.length

/-- A save or restore of an early slot, which counts as P = 2. -/
def Block.earlyUser (b : Block) (e : Env) (n : Nat) : Bool :=
  match (b.berth n).slot with
  | some k => decide (256 ≤ k)
  | none => b.earlyOnly e

/-- Berths that use the reserve now. -/
def Block.reserveUsers (b : Block) : List Nat :=
  (b.berths.filter fun x => (x.2.saving.isSome || b.bstate x.1 = bsRestoring) && !x.2.reserveWait).map (·.1)

/-- The reserve is free for a berth: nobody waits before it, and 600 GB/s are left; where the ports it counts give less than 600 GB/s, for it or for one that uses the reserve, it must be the only one. -/
def Block.reserveFree (b : Block) (e : Env) (n : Nat) : Bool :=
  let us := b.reserveUsers
  (us.isEmpty || (!b.earlyUser e n && !(us.any fun m => b.earlyUser e m) && decide (600 * (us.length + 1) ≤ e.reserveRate))) &&
  (match b.reserveQueue with | [] => true | m :: _ => m = n)

/-- A berth waits for the reserve, first in first out; the wait is counted once. -/
def Block.joinReserve (b : Block) (n : Nat) : Block :=
  if b.reserveQueue.contains n then b
  else { (b.bump F.BW_SAVE_WAITED) with reserveQueue := b.reserveQueue ++ [n] }

/-- A berth gets the reserve. -/
def Block.takeReserve (b : Block) (n : Nat) : Block :=
  { b with reserveQueue := b.reserveQueue.filter (· ≠ n) }.modBerth n fun x => { x with reserveWait := false }

/-- Berths that no longer save or restore leave the queue; restores at its front begin while there is room. -/
def Block.grantReserve (e : Env) : (fuel : Nat) → Block → Block
  | 0, b => b
  | k + 1, b =>
    let b := { b with reserveQueue := b.reserveQueue.filter fun n => (b.berth n).saving.isSome || b.bstate n = bsRestoring }
    match b.reserveQueue with
    | n :: _ => if b.bstate n = bsRestoring && b.reserveFree e n then Block.grantReserve e k (b.takeReserve n) else b
    | [] => b

/-! ### Engine time -/

/-- Nanoseconds of engine time charged to slices for a job: its slice, or the two slices of a list in proportion to their entries (R339). -/
def Block.chargeTo (b : Block) (c : Nat) : List (Nat × Nat × Nat) :=
  match tget b.quay.cmds c with
  | none => []
  | some x =>
    match x.body with
    | .list _ id =>
      match tget b.manifest.lists id with
      | some l =>
        let n := l.entries.length
        let a := (l.entries.filter fun en => ((tget b.manifest.seqs en.seq).map (·.slice)) = some l.sliceA).length
        match l.sliceB with
        | some sb => [(l.sliceA, a, n), (sb, n - a, n)]
        | none => [(l.sliceA, 1, 1)]
      | none => [(x.slice, 1, 1)]
    | _ => [(x.slice, 1, 1)]

/-- Charge engine time to one slice: V_s grows by the berth-nanoseconds over WEIGHT (R339), Tally adds them up (R524). -/
def Block.charge (b : Block) (sl ns : Nat) : Block :=
  let w := max 1 (b.rd F.BW_SLICE_WEIGHT sl)
  let b := b.modSlice sl fun s => { s with vtime := s.vtime + (ns : Rat) / (w : Rat) }
  { b with tally := { b.tally with berthNs := tupd b.tally.berthNs sl 0 (· + ns) } }

/-- Charge a berth's stream from the time its charging began. -/
def Block.chargeBerth (b : Block) (e : Env) (n : Nat) : Block :=
  match (b.berth n).stream with
  | none => b
  | some s =>
    let ns := e.now - (b.berth n).busySince
    let b := (b.chargeTo s.job).foldl (fun b (sl, k, of_) => b.charge sl (ns * k / max 1 of_)) b
    let b := b.modCmd s.job fun x => { x with busy := tupd x.busy s.rank 0 (· + ns) }
    b.modBerth n fun x => { x with busySince := e.now }

/-- V_s with the time of running streams added (R338, R339). -/
def Block.vNow (b : Block) (e : Env) (sl : Nat) : Rat :=
  let base := ((tget b.quay.slices sl).map (·.vtime)).getD 0
  let w := max 1 (b.rd F.BW_SLICE_WEIGHT sl)
  b.berths.foldl (fun v (n, x) => match x.stream with
    | some s => (b.chargeTo s.job).foldl (fun v (s', k, of_) =>
        if s' = sl then v + (((e.now - (b.berth n).busySince) * k / max 1 of_ : Nat) : Rat) / (w : Rat) else v) v
    | none => v) base

/-! ### Failures -/

/-- Requests of a berth's engines still outstanding belong to no transfer on the berth any longer. The answers of reads only free what they hold; a saved transfer completes only after its writes (R145, R216). -/
def Block.orphan (b : Block) (n : Nat) : Block :=
  let of_ := (b.berth n).stream.map fun s => (s.job, s.rank)
  { b with
    ports := { b.ports with
      out := b.ports.out.map fun x => match x.2.who with
      | .engine n' k serial _ => (x.1, if n' = n then { x.2 with who := .stray n k of_ serial } else x.2)
      | .fetchUnit n' _ => (x.1, if n' = n then { x.2 with who := .firmware } else x.2)
      | .moorEntry n' _ => (x.1, if n' = n then { x.2 with who := .firmware } else x.2)
      | .save n' _ => (x.1, if n' = n then { x.2 with who := .firmware } else x.2)
      | _ => x
      lanes := b.ports.lanes.map fun l => (l.1, l.2.map fun q => match q.req.who with
        | .engine n' k serial _ => if n' = n then { q with req := { q.req with who := .stray n k of_ serial } } else q
        | _ => q) }
    host := { b.host with reads := b.host.reads.map fun x => match x.2 with
      | .transfer n' k _ _ _ => (x.1, if n' = n then .stray n k of_ else x.2)
      | _ => x }
    fabric := { b.fabric with reqs := b.fabric.reqs.map fun x => (x.1, if x.2.b = n ∧ x.2.ping = none ∧ x.2.gone = none then { x.2 with gone := some (of_.getD (0, 0)) } else x.2) }
    hold := { b.hold with chans := b.hold.chans.map fun x =>
      let mine (q : Sense) : Bool := match q.xfer with | some (n', _) => n' = n | none => false
      (x.1, { x.2 with waiting := x.2.waiting.filter fun q => !mine q
                       sensing := x.2.sensing.map fun q => if mine q then { q with xfer := none } else q }) } }

/-- Begin a scrub: registers, tiles, counters and store cleared at its end (R147, R441). -/
def Block.startScrub (b : Block) (e : Env) (n : Nat) : Block :=
  let b := ((((b.giveUpSave n).orphan n).unholdAll (.engine n 0)).unholdAll (.engine n 1)).setBstate e n bsScrubbing
  (b.wr F.BT_STATE_CONTEXT n 0).modBerth n fun x =>
    { x with stream := none, me0 := [], me1 := [], yield := none, entry := none, quiescing := none, saving := none, slot := none, reserveWait := false, moving := 0, moved := 0 }

/-- A command whose streams are all gone has ended (R284), or is saved where some of them lie in slots (R340); a MOVE's result is the bytes it copied (R277). -/
def Block.endIfOver (b : Block) (c : Nat) : Block :=
  match tget b.quay.cmds c with
  | none => b
  | some x =>
    let streams := match x.body with | .tensor _ => true | .move _ => true | .list _ _ => true | _ => false
    if streams && (x.ph = .running || x.ph = .saved) && (b.jobBerths c).isEmpty && (b.jobSlots c).isEmpty then
      let b := match x.body with | .move _ => b.modCmd c fun x => { x with result := x.copied } | _ => b
      (b.endCmd c 0 0).modCmd c fun x => { x with units := [] }
    else if streams && x.ph = .running && (b.jobBerths c).isEmpty then b.modCmd c fun x => { x with ph := .saved, units := [], ready := false }
    else b

/-- A berth saves, or quiesces for a save (R145). -/
def Berth.leaving (x : Berth) : Bool := x.saving.isSome || x.quiescing.isSome

/-- Stop every stream of a job: issue stops and its engines issue nothing more past the next 4 KiB boundary (R193, R284); saves under way are given up (R149), saved streams and their slots dropped. -/
def Block.stopJob (b : Block) (e : Env) (c : Nat) : Block :=
  let given (n : Nat) : Bool := (b.berth n).leaving || b.bstate n = bsRestoring
  let ns := b.jobBerths c
  let freed := ns.any given
  let b := ns.foldl (fun b n =>
    if given n then (b.chargeBerth e n).startScrub e n
    else b.modStream n fun s => { s with stopped := true, wait := none }) b
  let b := if freed then Block.grantReserve e 17 b else b
  (b.dropSlots fun v => v.stream.job = c).endIfOver c

/-- A failure of a job: the first one detected gives the command its status (R23, R206); its streams stop. -/
def Block.failJob (b : Block) (e : Env) (c st detail : Nat) (fbuf : Option Nat) : Block :=
  let b := b.modCmd c fun x => if x.status = 0 then { x with status := st, detail := detail, faultBuf := fbuf } else x
  b.stopJob e c

/-- An event of a job's failure, naming its slice and context (R485). -/
def Block.jobEvent (b : Block) (e : Env) (c code st kind idx : Nat) (data : List Nat) : Block :=
  match tget b.quay.cmds c with
  | none => b
  | some x => b.event e { code := code, status := st, kind := kind, idx := idx, slice := some x.slice, ctx := x.hdr.ctx, data := data }

/-- A FAULT event: command TAG, FAULT_BUF, location, Hold object (R485), for a status that R469 gives one. -/
def Block.faultEvent (b : Block) (e : Env) (c st kind idx loc obj : Nat) : Block :=
  match tget b.quay.cmds c with
  | none => b
  | some x =>
    if eventOf st then b.jobEvent e c 0x1003 st kind idx [x.hdr.tag, (x.faultBuf.map (· + 128)).getD 0, loc, obj] else b

/-- Uncorrectable or corrupt data met by a unit: an alarm for it (R468, R469). -/
def Block.dataAlarm (b : Block) (e : Env) (st kind idx loc sl : Nat) : Block :=
  if st = stIntegrity ∧ kind = ukPort then
    (b.alarm e { code := 0x0011, status := st, kind := kind, idx := idx, slice := some sl, data := [loc, sl] }).raise 51
  else b.alarm e { code := 0x0010, status := st, kind := kind, idx := idx, slice := some sl, data := [loc] }

/-- A job fails with a status detected by a unit: its streams stop, the FAULT event is recorded. -/
def Block.failWith (b : Block) (e : Env) (c st : Nat) (fbuf : Option Nat) (kind idx loc obj : Nat) : Block :=
  let b := b.failJob e c st 0 fbuf
  b.faultEvent e c st kind idx loc obj

/-! ### Moving the sequencer -/

/-- ILLEGAL_INSTRUCTION (R204): the instruction has no effect, the stream stops, the command ends with the reason in DETAIL, event ILLEGAL names the offset, opcode and reason. -/
def Block.illegal (b : Block) (e : Env) (n pc op reason : Nat) : Block :=
  match (b.berth n).stream with
  | none => b
  | some s =>
    let b := b.failJob e s.job stIllegal reason none
    b.jobEvent e s.job 0x1002 stIllegal ukBerth n [pc, op, reason]

/-- The instruction cache of a berth holds a line (R124). -/
def Berth.hasLine (x : Berth) (prog line : Nat) : Bool := x.icache.contains (prog, line)

/-- A line is read: it becomes the most recently used. -/
def Berth.touchLine (x : Berth) (prog line : Nat) : Berth :=
  { x with icache := (prog, line) :: x.icache.filter (· ≠ (prog, line)) }

/-- Control reaches an offset of the image (R171): outside the code it is illegal there; a line the cache does not hold is awaited (R124). -/
def Block.reach (b : Block) (e : Env) (n pc : Nat) : Block :=
  let b := b.modStream n fun s => { s with pc := pc }
  match (b.berth n).stream with
  | none => b
  | some s =>
    if pc < s.codeOff ∨ s.codeOff + s.codeLen < pc + 16 then b.illegal e n pc 0 0x0C
    else if (b.berth n).hasLine s.prog (pc / 128) then b.modBerth n fun x => x.touchLine s.prog (pc / 128)
    else (b.modStream n fun s => { s with wait := some (.icache (pc / 128)) }).tallyB n (some s.slice) 0x009 0 1

/-! ### Worst-case time -/

/-- The tensor clock of an operating point in units of 0.01 GHz (R141). -/
def oppClock (n : Nat) : Nat := 90 + 9 * n

/-- The lowest share of a partition over some regulators, per berth, in GB/s (R139). -/
def Block.share (b : Block) (p : Nat) (xs : List Nat) : Rat :=
  let n := max 1 (b.partBerths p).length
  let rs := xs.map fun x => ((b.rd F.BW_RATE_RATE (32 * p + x) : Nat) : Rat) / (n : Rat)
  match rs with
  | [] => 0
  | r :: rs => rs.foldl min r

/-- R_D of R139: over the connected memory ports. -/
def Block.rateD (b : Block) (e : Env) (p : Nat) : Rat := b.share p e.memPorts

/-- R_H of R139: over the channels of the connected Hold stacks. -/
def Block.rateH (b : Block) (e : Env) (p : Nat) : Rat :=
  b.share p ((bitsOf 8 e.ties.holdMask).flatMap fun h => [8 + 2 * h, 9 + 2 * h])

/-- The evaluation of R139 in ns at a clock of f × 0.01 GHz; none for an UNBOUNDED record, or where bytes meet a share of zero. -/
def wcTime (r : WcRec) (f : Nat) (rd rh : Rat) : Option Rat :=
  if r.unbounded ∨ (r.bDram ≠ 0 ∧ rd = 0) ∨ (r.bHold ≠ 0 ∧ rh = 0) then none
  else
    let sum : Rat := (r.cT : Rat) * 100 / (f : Rat) + (r.cS : Rat) * 10 / 18 + (r.bDram : Rat) / rd + (r.nDram : Rat) * 1000 +
      (r.bHold : Rat) / rh + (r.nHold : Rat) * 40000 + (r.tDecl : Rat)
    some (sum * 10005 / 10000 + 500)

/-- The lowest current tensor clock among a partition's berths (R139). -/
def Block.partClock (b : Block) (p : Nat) : Nat :=
  match b.partBerths p with
  | [] => oppClock 0
  | n :: ns => oppClock (ns.foldl (fun m k => min m (b.rd F.BT_CLOCK_OPP k)) (b.rd F.BT_CLOCK_OPP n))

/-- The moor-distance entry of the region an offset lies in (R140), with its place in the table. -/
def moorEntry (l : List MoorEntry) (pc : Nat) : Option (Nat × MoorEntry) :=
  ((List.zipIdx l).filter fun x => decide (x.1.off ≤ pc)).foldl (fun m x => match m with
    | none => some (x.2, x.1)
    | some y => if y.2.off ≤ x.1.off then some (x.2, x.1) else some y) none

/-- The time an entry gives to the next moor, in ns (R140, R148); none where no moor can be reached. -/
def Block.moorTime (b : Block) (e : Env) (n : Nat) (m : MoorEntry) : Option Rat :=
  if m.cT = 0xFFFFFFFF then none
  else
    let p := b.rd F.BT_STATE_PARTITION n
    wcTime ⟨m.cT, m.cS, m.bDram, m.nDram, 0, 0, 0, false⟩ (b.partClock p) (b.rateD e p) 0

end Sys2Proof.Machine
end

