-- ==== Sys2Proof/Machine/Flags.lean ====
section
/-! DEFINITION. Number formats (R86 to R91), exact values, rounding (R110, R113), and the vector unit's arithmetic with its five exception flags (R113 to R115, R183 to R187). -/

namespace Sys2Proof.Machine

open Sys2Proof

/-! ### Formats -/

/-- Which codes of a floating-point format are infinities and NaNs (R87). -/
inductive FpKind where
  /-- an all-ones exponent: infinity where M = 0, NaN elsewhere -/
  | ieee
  /-- E4M3: only S.1111.111 is a NaN -/
  | e4m3
  /-- every code is finite -/
  | finite
  deriving DecidableEq, Repr

/-- A floating-point format (R87). -/
structure FpFmt where
  eb : Nat
  mb : Nat
  bias : Nat
  kind : FpKind
  deriving DecidableEq, Repr

def fpE4M3 : FpFmt := ⟨4, 3, 7, .e4m3⟩
def fpE5M2 : FpFmt := ⟨5, 2, 15, .ieee⟩
def fpE3M2 : FpFmt := ⟨3, 2, 3, .finite⟩
def fpE2M3 : FpFmt := ⟨2, 3, 1, .finite⟩
def fpE2M1 : FpFmt := ⟨2, 1, 1, .finite⟩
def fpBF16 : FpFmt := ⟨8, 7, 127, .ieee⟩
def fpFP16 : FpFmt := ⟨5, 10, 15, .ieee⟩
def fpFP32 : FpFmt := ⟨8, 23, 127, .ieee⟩

/-- The element encoding of a floating-point format code; none for MXINT8, INT8 and reserved codes (R86). -/
def fpOf : Nat → Option FpFmt
  | 0x0 => some fpE4M3
  | 0x1 => some fpE5M2
  | 0x2 => some fpE4M3
  | 0x3 => some fpE5M2
  | 0x4 => some fpE3M2
  | 0x5 => some fpE2M3
  | 0x6 => some fpE2M1
  | 0x8 => some fpBF16
  | 0x9 => some fpFP16
  | 0xB => some fpFP32
  | _ => none

/-- Bits of an element of a format code (R86). -/
def elemBits : Nat → Nat
  | 0x4 => 6
  | 0x5 => 6
  | 0x6 => 4
  | 0x8 => 16
  | 0x9 => 16
  | 0xB => 32
  | _ => 8

/-- Codes 0x2 to 0x7 are MX formats (R86). -/
def isMx (code : Nat) : Bool := decide (2 ≤ code ∧ code ≤ 7)

/-- Bytes of a packed vector of k elements (R91). -/
def packedLen (code k : Nat) : Nat := cdiv (k * elemBits code) 8

/-- The operand pairs a tensor product combines (R93). -/
def pairOk (a b : Nat) : Bool :=
  (isMx a && isMx b) || decide (a ≤ 1 ∧ b ≤ 1) || decide (a = b ∧ (a = 0x8 ∨ a = 0x9 ∨ a = 0xA))

/-! ### Values -/

/-- The value of a code: (−1)^neg × m × 2^e, an infinity, or a NaN, signalling where `sig`. -/
inductive Num where
  | fin (neg : Bool) (m : Nat) (e : Int)
  | inf (neg : Bool)
  | nan (sig : Bool)
  deriving DecidableEq, Repr

/-- The exponent of a format's smallest subnormal (R87). -/
def FpFmt.emin (f : FpFmt) : Int := 1 - (f.bias : Int) - (f.mb : Int)

/-- The value a code of a format stands for (R87). -/
def FpFmt.value (f : FpFmt) (x : Nat) : Num :=
  let neg := x / 2 ^ (f.eb + f.mb) % 2 = 1
  let ex := x / 2 ^ f.mb % 2 ^ f.eb
  let m := x % 2 ^ f.mb
  let special : Bool := match f.kind with
    | .ieee => ex = 2 ^ f.eb - 1
    | .e4m3 => ex = 2 ^ f.eb - 1 && m = 2 ^ f.mb - 1
    | .finite => false
  if special then
    if f.kind = .ieee ∧ m = 0 then .inf neg else .nan (f.kind = .ieee && decide (m < 2 ^ (f.mb - 1)))
  else if ex = 0 then .fin neg m f.emin
  else .fin neg (2 ^ f.mb + m) (f.emin + (ex : Int) - 1)

/-- The largest finite magnitude: m and e of m × 2^e (R87). -/
def FpFmt.maxFin (f : FpFmt) : Nat × Int :=
  match f.kind with
  | .ieee => (2 ^ (f.mb + 1) - 1, f.emin + ((2 ^ f.eb - 3 : Nat) : Int))
  | .e4m3 => (2 ^ (f.mb + 1) - 2, f.emin + ((2 ^ f.eb - 2 : Nat) : Int))
  | .finite => (2 ^ (f.mb + 1) - 1, f.emin + ((2 ^ f.eb - 2 : Nat) : Int))

/-- Bits of a natural number: 0 has none. -/
def bitLen (n : Nat) : Nat := if n = 0 then 0 else Nat.log2 n + 1

/-- m × 2^e < m' × 2^e'. -/
def dyLt (m : Nat) (e : Int) (m' : Nat) (e' : Int) : Bool :=
  let k := min e e'
  decide (m * 2 ^ (e - k).toNat < m' * 2 ^ (e' - k).toNat)

/-- m ÷ 2^k rounded to nearest, ties to even, and whether it was inexact. -/
def shiftNE (m k : Nat) : Nat × Bool :=
  let q := m / 2 ^ k
  let r := m % 2 ^ k
  (if 2 ^ k < 2 * r ∨ (2 * r = 2 ^ k ∧ q % 2 = 1) then q + 1 else q, decide (r ≠ 0))

/-- m × 2^e rounded to p bits with quantum no finer than 2^emin: the rounded n, its exponent q, inexact. -/
def roundNE (p : Nat) (emin : Int) (m : Nat) (e : Int) : Nat × Int × Bool :=
  let q := max (e + (bitLen m : Int) - (p : Int)) emin
  if q ≤ e then (m * 2 ^ (e - q).toNat, q, false)
  else
    let (n, i) := shiftNE m (q - e).toNat
    (n, q, i)

/-- The sign bit of a format. -/
def FpFmt.signBit (f : FpFmt) (neg : Bool) : Nat := if neg then 2 ^ (f.eb + f.mb) else 0

/-- The code of the finite n × 2^q that roundNE answers at the format's precision. -/
def FpFmt.code (f : FpFmt) (neg : Bool) (n : Nat) (q : Int) : Nat :=
  f.signBit neg + (q - f.emin).toNat * 2 ^ f.mb + n

/-- The code of the largest finite magnitude. -/
def FpFmt.maxCode (f : FpFmt) (neg : Bool) : Nat := let (m, e) := f.maxFin; f.code neg m e

/-- The infinity of an IEEE format. -/
def FpFmt.infCode (f : FpFmt) (neg : Bool) : Nat := f.signBit neg + (2 ^ f.eb - 1) * 2 ^ f.mb

/-- The NaN code the block writes (R110). -/
def FpFmt.nanCode (f : FpFmt) : Nat :=
  match f.kind with
  | .ieee => if f.mb = 2 then 0x7F else (2 ^ f.eb - 1) * 2 ^ f.mb + 2 ^ (f.mb - 1)
  | _ => 2 ^ (f.eb + f.mb) - 1

/-! ### Exception flags (R114): bit 4 invalid, 3 division by zero, 2 overflow, 1 underflow, 0 inexact -/

abbrev VFlags := BitVec 5
def flInvalid : VFlags := 16
def flOverflow : VFlags := 4
def flUnderflow : VFlags := 2
def flInexact : VFlags := 1

/-- The vector unit's one rounding of an exact non-zero value, with its flags (R113). -/
def FpFmt.finish (f : FpFmt) (neg : Bool) (m : Nat) (e : Int) : Nat × VFlags :=
  let (n, q, inx) := roundNE (f.mb + 1) f.emin m e
  let (mm, me) := f.maxFin
  if dyLt mm me n q then (f.infCode neg, flOverflow ||| flInexact)
  else
    let e1 := e + (bitLen m : Int) - ((f.mb + 1 : Nat) : Int)
    let (n1, q1, _) := roundNE (f.mb + 1) (min e1 e) m e
    let tiny := dyLt n1 q1 1 (1 - (f.bias : Int))
    (f.code neg n q, (if inx then flInexact else 0) ||| (if inx && tiny then flUnderflow else 0))

/-- The sum of two finite values: its sign, magnitude and exponent. -/
def addFin (s₁ : Bool) (m₁ : Nat) (e₁ : Int) (s₂ : Bool) (m₂ : Nat) (e₂ : Int) : Bool × Nat × Int :=
  let k := min e₁ e₂
  let sg (s : Bool) (m : Nat) (e : Int) : Int := if s then -((m * 2 ^ (e - k).toNat : Nat) : Int) else ((m * 2 ^ (e - k).toNat : Nat) : Int)
  let v := sg s₁ m₁ e₁ + sg s₂ m₂ e₂
  (decide (v < 0), v.natAbs, k)

/-- The product of two values; none for 0 × infinity. -/
def mulNum : Num → Num → Option Num
  | .nan s, _ => some (.nan s)
  | _, .nan s => some (.nan s)
  | .inf a, .inf b => some (.inf (a != b))
  | .inf a, .fin b m _ => if m = 0 then none else some (.inf (a != b))
  | .fin a m _, .inf b => if m = 0 then none else some (.inf (a != b))
  | .fin a m e, .fin b n k => some (.fin (a != b) (m * n) (e + k))

/-- x + y rounded once, for x and y that are no NaN (R113). -/
def FpFmt.sum (f : FpFmt) (x y : Num) : Nat × VFlags :=
  match x, y with
  | .inf a, .inf b => if a = b then (f.infCode a, 0) else (f.nanCode, flInvalid)
  | .inf a, _ => (f.infCode a, 0)
  | _, .inf b => (f.infCode b, 0)
  | .fin a m e, .fin b n k =>
    let (s, v, q) := addFin a m e b n k
    if v = 0 then (f.signBit (a && b && decide (m = 0)), 0) else f.finish s v q
  | _, _ => (f.nanCode, 0)

/-- A NaN. -/
def Num.isNan : Num → Bool
  | .nan _ => true
  | _ => false

/-- A signalling NaN. -/
def Num.isSig : Num → Bool
  | .nan s => s
  | _ => false

/-- Change of sign. -/
def Num.neg : Num → Num
  | .fin s m e => .fin (!s) m e
  | .inf s => .inf (!s)
  | .nan s => .nan s

/-- The invalid flag when one of the operands is a signalling NaN (R113). -/
def sigFlag (l : List Num) : VFlags := if l.any Num.isSig then flInvalid else 0

/-- vadd of one element (R183). -/
def fpAdd (f : FpFmt) (a b : Nat) : Nat × VFlags :=
  let x := f.value a
  let y := f.value b
  if x.isNan || y.isNan then (f.nanCode, sigFlag [x, y]) else f.sum x y

/-- vsub of one element (R183). -/
def fpSub (f : FpFmt) (a b : Nat) : Nat × VFlags :=
  let x := f.value a
  let y := f.value b
  if x.isNan || y.isNan then (f.nanCode, sigFlag [x, y]) else f.sum x y.neg

/-- vmul of one element (R183). -/
def fpMul (f : FpFmt) (a b : Nat) : Nat × VFlags :=
  let x := f.value a
  let y := f.value b
  if x.isNan || y.isNan then (f.nanCode, sigFlag [x, y])
  else match mulNum x y with
    | none => (f.nanCode, flInvalid)
    | some (.fin s m e) => if m = 0 then (f.signBit s, 0) else f.finish s m e
    | some (.inf s) => (f.infCode s, 0)
    | some (.nan _) => (f.nanCode, 0)

/-- vfma of one element (R113, R183): 0 × infinity raises invalid whatever the addend. -/
def fpFma (f : FpFmt) (a b c : Nat) : Nat × VFlags :=
  let x := f.value a
  let y := f.value b
  let z := f.value c
  let sg := sigFlag [x, y, z]
  match mulNum x y with
  | none => (f.nanCode, flInvalid)
  | some p => if p.isNan || z.isNan then (f.nanCode, sg) else f.sum p z

/-- x before y in R183's ordering: −0 is less than +0. Neither is a NaN. -/
def numLess : Num → Num → Bool
  | .inf a, .inf b => a && !b
  | .inf a, _ => a
  | _, .inf b => !b
  | .fin a m e, .fin b n k =>
    match a, b with
    | true, false => true
    | false, true => false
    | false, false => dyLt m e n k
    | true, true => dyLt n k m e
  | _, _ => false

/-- vmin (`less` first) or vmax of one element (R183). -/
def fpMinMax (f : FpFmt) (max_ : Bool) (a b : Nat) : Nat × VFlags :=
  let x := f.value a
  let y := f.value b
  if x.isNan || y.isNan then (f.nanCode, sigFlag [x, y])
  else if max_ then (if numLess x y then b else a, 0)
  else (if numLess y x then b else a, 0)

/-- Equality and order of two values that are no NaN, −0 equal to +0: −1, 0 or 1. -/
def numCmp (x y : Num) : Int :=
  match x, y with
  | .fin _ 0 _, .fin _ 0 _ => 0
  | x, y => if numLess x y then -1 else if numLess y x then 1 else 0

/-- vcmp of one lane (R185). -/
def fpCmp (fn a b : Nat) : Bool × VFlags :=
  let x := fpFP32.value a
  let y := fpFP32.value b
  if x.isNan || y.isNan then (fn = 1, if 2 ≤ fn then flInvalid else sigFlag [x, y])
  else
    let c := numCmp x y
    (match fn with
      | 0 => c = 0
      | 1 => c ≠ 0
      | 2 => c < 0
      | 3 => c ≤ 0
      | 4 => 0 < c
      | _ => 0 ≤ c, 0)

/-- A conversion from FP32 to BF16 or FP16 (R115). -/
def fpNarrow (f : FpFmt) (a : Nat) : Nat × VFlags :=
  match fpFP32.value a with
  | .nan s => (f.nanCode, if s then flInvalid else 0)
  | .inf s => (f.infCode s, 0)
  | .fin s m e => if m = 0 then (f.signBit s, 0) else f.finish s m e

/-- A conversion from BF16 or FP16 to FP32, exact (R115). -/
def fpWiden (f : FpFmt) (a : Nat) : Nat × VFlags :=
  match f.value a with
  | .nan s => (fpFP32.nanCode, if s then flInvalid else 0)
  | .inf s => (fpFP32.infCode s, 0)
  | .fin s m e => if m = 0 then (fpFP32.signBit s, 0) else fpFP32.finish s m e

/-- FP32 rounded to an integral value: 4 towards +∞, 5 towards −∞, 6 to nearest even (R184). -/
def fpIntegral (fn a : Nat) : Nat × VFlags :=
  match fpFP32.value a with
  | .nan s => (fpFP32.nanCode, if s then flInvalid else 0)
  | .inf _ => (a, 0)
  | .fin s m e =>
    if m = 0 ∨ 0 ≤ e then (a, 0)
    else
      let k := (-e).toNat
      let n := m / 2 ^ k
      let r := m % 2 ^ k
      let n' := match fn with
        | 4 => if r ≠ 0 ∧ ¬ s then n + 1 else n
        | 5 => if r ≠ 0 ∧ s then n + 1 else n
        | _ => (shiftNE m k).1
      if n' = 0 then (fpFP32.signBit s, 0)
      else
        let (v, q, _) := roundNE 24 fpFP32.emin n' 0
        (fpFP32.code s v q, 0)

/-- vred over the active lanes (R187): −∞ or +∞ when there is none. -/
def fpReduce (max_ : Bool) (l : List Nat) : Nat × VFlags :=
  match l with
  | [] => (fpFP32.infCode max_, 0)
  | x :: xs => xs.foldl (fun (a, f) y => let (r, g) := fpMinMax fpFP32 max_ a y; (r, f ||| g))
      (if (fpFP32.value x).isNan then (fpFP32.nanCode, sigFlag [fpFP32.value x]) else (x, 0))

end Sys2Proof.Machine
end

