-- ==== Sys2Proof/Machine/Anchor.lean ====
section
/-! DEFINITION. The anchored accumulator (R95 to R112): exact products and their placing on a tile's grid, the anchor pre-pass, rebase, exact combination, the drain and the block quantiser, vsum.x (R116). -/

namespace Sys2Proof.Machine

open Sys2Proof

/-! ### Operands -/

/-- An operand of a tensor product: format, raw element k of vector i, scale byte of block k of vector i, per-tensor scale (R164). -/
structure Operand where
  fmt : Nat
  elem : Nat → Nat → Nat
  scale : Nat → Nat → Nat
  tscale : BitVec 32

/-- Element k of a packed vector, read through `rd` from `base` on (R91). -/
def elemAt (rd : Nat → Byte) (base w k : Nat) : Nat :=
  let bit := w * k
  let v := (rd (base + bit / 8)).toNat + 256 * (rd (base + bit / 8 + 1)).toNat
  v / 2 ^ (bit % 8) % 2 ^ w

/-- The operand a quad describes in a format, read through `rd` (R164). -/
def Quad.operand (q : Quad) (fmt : Nat) (rd : Nat → Byte) : Operand where
  fmt := fmt
  elem i k := elemAt rd (q.base + i * q.stride) (elemBits fmt) k
  scale i k := (rd (q.scale.toNat + i * q.sstride + k)).toNat
  tscale := q.scale.setWidth 32

/-- A finite value as m × 2^e with a signed m; none for a non-finite one. -/
def Num.signed : Num → Option (Int × Int)
  | .fin s m e => some (if s then -(m : Int) else (m : Int), e)
  | _ => none

/-- The value of an element code of a format, without any scale (R87, R88). -/
def elemValue (fmt x : Nat) : Option (Int × Int) :=
  match fpOf fmt with
  | some f => (f.value x).signed
  | none => some ((BitVec.ofNat 8 x).toInt, if fmt = 7 then -6 else 0)

/-- The factor element k of vector i brings to a product, block scale included; none when it is non-finite (R89, R98, R99). -/
def Operand.factor (o : Operand) (i k : Nat) : Option (Int × Int) :=
  if isMx o.fmt then
    let s := o.scale i (k / 32)
    if s = 255 then none else (elemValue o.fmt (o.elem i k)).map fun (m, e) => (m, e + (s : Int) - 127)
  else if o.fmt ≤ 1 ∧ (fpFP32.value o.tscale.toNat).signed = none then none
  else elemValue o.fmt (o.elem i k)

/-- The product of two factors; none when one of them is non-finite. -/
def mulFactor : Option (Int × Int) → Option (Int × Int) → Option (Int × Int)
  | some (m, e), some (n, k) => some (m * n, e + k)
  | _, _ => none

/-! ### Tiles -/

/-- The word of an entry; an unlisted one is 0. -/
def Tile.get (t : Tile) (i : Nat) : BitVec 160 := tgetD t.q i 0

/-- Set an entry; a zero is not listed. -/
def Tile.put (t : Tile) (i : Nat) (v : BitVec 160) : Tile :=
  { t with q := if v = 0 then tdel t.q i else tput t.q i v }

/-- The status word (R96). -/
def Tile.status (t : Tile) : Word :=
  BitVec.ofNat 64 (t.count * 2 ^ 32 + (if t.empty then 8 else 0) + (if t.nf then 4 else 0) + (if t.low then 2 else 0) +
    (if t.ovf then 1 else 0))

/-- The scale word (R96). -/
def Tile.scaleWord (t : Tile) : Word := BitVec.ofNat 64 (t.sb.toNat * 2 ^ 32 + t.sa.toNat)

/-- Clear a tile; its anchor stays (R97). -/
def Tile.clear (t : Tile) : Tile := { Tile.reset with anchor := t.anchor }

/-- What the products into one entry came to: the entry, and the flags they set. -/
structure AccSum where
  q : BitVec 160
  low : Bool
  ovf : Bool
  nf : Bool
  deriving DecidableEq, Repr

/-- Add one product at anchor a (R98 to R100): truncated towards −∞ to the grid of 2^(a − 127). -/
def AccSum.add (a : Int) (s : AccSum) (p : Option (Int × Int)) : AccSum :=
  match p with
  | none => { s with nf := true, ovf := true }
  | some (m, e) =>
    if m = 0 then s
    else
      let k := e - (a - 127)
      let t : Int := if 0 ≤ k then m * 2 ^ k.toNat else m.fdiv (2 ^ (-k).toNat)
      let lost : Bool := if 0 ≤ k then false else decide (m.fmod (2 ^ (-k).toNat) ≠ 0)
      let big := !dyLt m.natAbs e 1 a
      { s with q := s.q + BitVec.ofInt 160 t, low := s.low || lost, ovf := s.ovf || big }

/-- Add products into one entry of a tile. -/
def Tile.addAt (t : Tile) (i : Nat) (ps : List (Option (Int × Int))) : Tile :=
  let s := ps.foldl (AccSum.add t.anchor.toInt) ⟨t.get i, t.low, t.ovf, t.nf⟩
  { t.put i s.q with low := s.low, ovf := s.ovf, nf := s.nf }

/-- Count n products more (R98, R100). -/
def Tile.addCount (t : Tile) (n : Nat) : Tile :=
  let c := min (t.count + n) 0xFFFFFFFF
  { t with count := c, ovf := t.ovf || decide (2 ^ 31 < c) }

/-- Add n products from a reduction index on: what is left of a product, or a part of it (R131). -/
def Tile.mulAddFrom (t : Tile) (a b : Operand) (from_ n : Nat) : Tile :=
  let t := (List.range 4096).foldl (fun t i =>
    t.addAt i ((List.range n).map fun x => mulFactor (a.factor (i / 64) (from_ + x)) (b.factor (i % 64) (from_ + x)))) t
  t.addCount n

/-- Add the product of two operands over k reduction indices into a tile whose anchor is set (R98 to R100, R177). -/
def Tile.mulAdd (t : Tile) (a b : Operand) (k : Nat) : Tile := t.mulAddFrom a b 0 k

/-! ### The pre-pass (R103) -/

/-- The bound t_f of an MX format. -/
def topOf : Nat → Int
  | 0x2 => 9
  | 0x3 => 16
  | 0x4 => 5
  | 0x5 => 3
  | 0x6 => 3
  | _ => 2

/-- emax_f of an MX format, which the block quantiser uses. -/
def emaxOf : Nat → Int
  | 0x2 => 8
  | 0x3 => 15
  | 0x4 => 4
  | 0x5 => 2
  | 0x6 => 2
  | _ => 0

/-- The identity of the maximum. -/
def scanNone : Int := -512

/-- top(x) of an element of a plain floating-point format; −512 for a zero or a non-finite element. -/
def topElem (f : FpFmt) (x : Nat) : Int :=
  match f.value x with
  | .fin _ m _ =>
    if m = 0 then scanNone
    else
      let ex := x / 2 ^ f.mb % 2 ^ f.eb
      if ex = 0 then 1 - (f.bias : Int) else (ex : Int) - (f.bias : Int) + 1
  | _ => scanNone

/-- The maximum over the 64 vectors. -/
def maxVec (g : Nat → Int) : Int := (List.range 64).foldl (fun m i => max m (g i)) scanNone

/-- A maximum over k reduction indices of the sum of the two sides' maxima, where both exist. -/
def scanPairs (n : Nat) (ga gb : Nat → Nat → Int) (t : Int) : Int :=
  (List.range n).foldl (fun a k =>
    let x := maxVec fun i => ga i k
    let y := maxVec fun j => gb j k
    if x ≠ scanNone ∧ y ≠ scanNone then max a (x + y + t) else a) scanNone

/-- The anchor pre-pass over an operand pair (R103). -/
def prepass (a b : Operand) (k : Nat) : Int :=
  if isMx a.fmt then
    let g (o : Operand) (i x : Nat) : Int := if o.scale i x = 255 then scanNone else (o.scale i x : Int) - 127
    scanPairs (k / 32) (g a) (g b) (topOf a.fmt + topOf b.fmt)
  else match fpOf a.fmt, fpOf b.fmt with
    | some fa, some fb => scanPairs k (fun i x => topElem fa (a.elem i x)) (fun j x => topElem fb (b.elem j x)) 0
    | _, _ => 15

/-- The first instruction that adds to an empty tile sets its anchor and records the per-tensor scales (R102). Where that instruction had no per-tensor scale, a later one that has does not record it: R102 leaves that open (DESIGN CHOICE, log 83). -/
def Tile.begin (t : Tile) (anchor : Int) (a b : Operand) : Tile :=
  if t.empty then
    { t with
      anchor := BitVec.ofInt 10 anchor
      empty := false
      sa := if a.fmt ≤ 1 then a.tscale else t.sa
      sb := if b.fmt ≤ 1 then b.tscale else t.sb }
  else t

/-! ### Rebase and combination -/

/-- Rebase a tile to a new anchor (R107); an empty tile takes the anchor only (R178). -/
def Tile.rebase (t : Tile) (new : BitVec 10) : Tile :=
  if t.empty then { t with anchor := new }
  else
    let a := t.anchor.toInt
    let a' := new.toInt
    if a ≤ a' then
      let d := (a' - a).toNat
      let lost := t.q.any fun x => decide (x.2.toInt.fmod (2 ^ d) ≠ 0)
      let q := (t.q.map fun x => (x.1, BitVec.ofInt 160 (x.2.toInt.fdiv (2 ^ d)))).filter fun x => decide (x.2 ≠ 0)
      { t with q := q, anchor := new, low := t.low || lost }
    else
      let d := (a - a').toNat
      let big := t.q.any fun x => decide ((BitVec.ofInt 160 (x.2.toInt * 2 ^ d)).toInt ≠ x.2.toInt * 2 ^ d)
      let q := (t.q.map fun x => (x.1, BitVec.ofInt 160 (x.2.toInt * 2 ^ d))).filter fun x => decide (x.2 ≠ 0)
      { t with q := q, anchor := new, ovf := t.ovf || big }

/-- Whether two tiles combine exactly (R108). -/
def Tile.fits (d s : Tile) : Bool :=
  d.empty || s.empty || (decide (d.anchor = s.anchor) && decide (d.sa = s.sa) && decide (d.sb = s.sb))

/-- Add s into d exactly (R108). Of two empty operands whose anchors or scale words differ the manual names no result: `free` gives it (log 15). -/
def Tile.combine (d s : Tile) (free : Word) : Tile :=
  let q := s.q.foldl (fun t x => t.put x.1 (t.get x.1 + x.2)) d
  let c := min (d.count + s.count) 0xFFFFFFFF
  let src := if d.empty then s else d
  let both := d.empty && s.empty
  { q with
    anchor := if both && decide (d.anchor ≠ s.anchor) then free.setWidth 10 else src.anchor
    sa := if both && decide (d.sa ≠ s.sa) then free.setWidth 32 else src.sa
    sb := if both && decide (d.sb ≠ s.sb) then (free >>> 32).setWidth 32 else src.sb
    empty := both
    nf := d.nf || s.nf
    low := d.low || s.low
    ovf := d.ovf || s.ovf || decide (2 ^ 31 < c)
    count := c }

/-- Combine two tiles of a program or of a collective: what R108 does not name is a function of the two operands alone, for equal inputs give equal results (R121; log 15). -/
def Tile.join (d s : Tile) : Tile :=
  d.combine s (Config.freeWord (2 ^ 64 + d.anchor.toNat + 2 ^ 10 * s.anchor.toNat + 2 ^ 20 * (d.scaleWord.toNat + 2 ^ 64 * s.scaleWord.toNat)))

/-- Combine tiles from the first on; none where two of them do not combine, or where one is missing. -/
def Tile.joinAll : List (Option Tile) → Option Tile
  | [] => none
  | x :: xs => xs.foldl (fun a y => match a, y with
    | some d, some s => if d.fits s then some (d.join s) else none
    | _, _ => none) x

/-! ### Draining -/

/-- The exact W of an entry, m × 2^e (R109); none when D or a scale field is non-finite. -/
def Tile.exact (t : Tile) (i : Nat) (d : BitVec 32) : Option (Int × Int) :=
  match (fpFP32.value d.toNat).signed, (fpFP32.value t.sa.toNat).signed, (fpFP32.value t.sb.toNat).signed with
  | some (m, e), some (m₁, e₁), some (m₂, e₂) => some ((t.get i).toInt * m * m₁ * m₂, t.anchor.toInt - 127 + e + e₁ + e₂)
  | _, _, _ => none

/-- The output code of one entry (R110). -/
def Tile.drainCode (t : Tile) (code i : Nat) (d : BitVec 32) : Nat :=
  let f := (fpOf code).getD fpFP32
  match t.exact i d with
  | none => f.nanCode
  | some (m, e) =>
    if t.nf then f.nanCode
    else if t.ovf then f.maxCode (t.get i).msb
    else if m = 0 then 0
    else
      let neg := decide (m < 0)
      let (n, q, _) := roundNE (f.mb + 1) f.emin m.natAbs e
      let (mm, me) := f.maxFin
      if dyLt mm me n q then (if code ≤ 1 then f.maxCode neg else f.infCode neg)
      else f.code neg n q

/-- Whether a drain makes the completion carry ANCHOR_FLAGS (R111). -/
def Tile.drainFlags (t : Tile) (d : BitVec 32) : Bool :=
  t.ovf || t.low || ((fpFP32.value d.toNat).signed = none)

/-- The entry that output row r, column c shows: a tile row, or a tile column when transposed (R180, R181). -/
def drainIdx (transpose : Bool) (r c : Nat) : Nat := if transpose then 64 * c + r else 64 * r + c

/-- The largest finite element of an MX format, as a code (R112). -/
def mxMax (code : Nat) (neg : Bool) : Nat :=
  match fpOf code with
  | some f => f.maxCode neg
  | none => if neg then 0x81 else 0x7F

/-- One element of a quantised block: m × 2^e with the shared exponent taken out (R112). -/
def mxElem (code : Nat) (m : Int) (e : Int) : Nat :=
  let neg := decide (m < 0)
  match fpOf code with
  | some f =>
    if m = 0 then 0
    else
      let (n, q, _) := roundNE (f.mb + 1) f.emin m.natAbs e
      let (mm, me) := f.maxFin
      if dyLt mm me n q then f.maxCode neg else f.code neg n q
  | none =>
    let k := e + 6
    let n := if 0 ≤ k then m.natAbs * 2 ^ k.toNat else (shiftNE m.natAbs (-k).toNat).1
    let n := min n 127
    if neg then (256 - n) % 256 else n

/-- The block quantiser (R112): the scale byte and the 32 element codes of a block of entries. -/
def Tile.quantBlock (t : Tile) (code : Nat) (d : BitVec 32) (idx : List Nat) : Nat × List Nat :=
  let ws := idx.map fun i => (i, t.exact i d)
  if t.nf || ws.any (fun x => x.2 = none) then (0xFF, idx.map fun _ => 0)
  else if t.ovf then (0xFE, idx.map fun i => mxMax code (t.get i).msb)
  else
    let ms := ws.map fun x => (x.2.getD (0, 0))
    let big := ms.foldl (fun m x => max m x.1.natAbs) 0
    if big = 0 then (0, idx.map fun _ => 0)
    else
      let ew := ((ms.head?).getD (0, 0)).2
      let e0 : Int := (bitLen big : Int) - 1 + ew - emaxOf code
      let e : Int := max (-127) (min 127 e0)
      ((e + 127).toNat, ms.map fun x => mxElem code x.1 (x.2 - e))

/-- Pack element codes of w bits densely, element 0 lowest (R91). -/
def packElems (w : Nat) (l : List Nat) : List Byte :=
  let v := l.foldr (fun x a => x % 2 ^ w + 2 ^ w * a) 0
  leBytes (cdiv (w * l.length) 8) v

/-- Output row r of a drain, packed (R180). -/
def Tile.drainRow (t : Tile) (code : Nat) (d : BitVec 32) (transpose : Bool) (r : Nat) : List Byte :=
  packElems (elemBits code) ((List.range 64).map fun c => t.drainCode code (drainIdx transpose r c) d)

/-- Output row r of a quantisation: its two scale bytes and its elements, packed (R181). -/
def Tile.quantRow (t : Tile) (code : Nat) (d : BitVec 32) (transpose : Bool) (r : Nat) : List Byte × List Byte :=
  let blk (h : Nat) := t.quantBlock code d ((List.range 32).map fun c => drainIdx transpose r (32 * h + c))
  let (s0, e0) := blk 0
  let (s1, e1) := blk 1
  ([BitVec.ofNat 8 s0, BitVec.ofNat 8 s1], packElems (elemBits code) (e0 ++ e1))

/-! ### vsum.x -/

/-- Add active FP32 lanes exactly into one entry (R116). With no active lane EMPTY is cleared all the same (DESIGN CHOICE, log 84). -/
def Tile.vsum (t : Tile) (i : Nat) (lanes : List Nat) : Tile :=
  let t := if t.empty then
      { t with anchor := BitVec.ofInt 10 (lanes.foldl (fun m x => max m (topElem fpFP32 x)) scanNone), empty := false }
    else t
  (t.addAt i (lanes.map fun x => (fpFP32.value x).signed)).addCount lanes.length

end Sys2Proof.Machine
end

