-- ==== Sys2Proof/Machine/FlitCode.lean ====
section
/-! DEFINITION. From messages to lanes and back (R384 to R387, R395): the bytes of a message and of a flit, the codeword, how its symbols are dealt over the active lanes, comma blocks, and the receiver's alignment, deskew and reassembly. -/

namespace Sys2Proof.Machine

open Sys2Proof

/-! ### CRC-64 (R359, R386) -/

/-- One bit of the CRC-64 division. -/
def crcShift (c : Nat) : Nat := if 2 ^ 63 ≤ c then (2 * c - 2 ^ 64) ^^^ 0x42F0E1EBA9EA3693 else 2 * c

/-- Eight bits of the CRC-64 division. -/
def crcByte (c : Nat) (x : Byte) : Nat :=
  crcShift (crcShift (crcShift (crcShift (crcShift (crcShift (crcShift (crcShift (c ^^^ (x.toNat * 2 ^ 56)))))))))

/-- CRC-64 of R359: not reflected, initial value 0. -/
def crc64 (d : List Byte) : Nat := d.foldl crcByte 0

/-! ### Messages and flits (R386, R395) -/

/-- Bytes with zeros behind them up to n. -/
def padTo (n : Nat) (d : List Byte) : List Byte := d ++ List.replicate (n - d.length) 0

/-- The 32-byte header of a message and its data in whole chunks (R395). -/
def msgChunks (m : FabMsg) : List Byte :=
  leBytes 1 m.op ++ leBytes 1 m.mod ++ leBytes 2 m.src ++ leBytes 2 m.dst ++ leBytes 1 m.epoch ++ leBytes 1 m.status ++ leBytes 4 m.tag ++
  leBytes 2 m.len ++ leBytes 2 m.window ++ leBytes 8 m.offset ++ leBytes 8 m.operand.toNat ++ padTo (32 * cdiv m.data.length 32) m.data

/-- The codeword header: sequence and kind, bits [19:0] (R384). -/
def Flit.header (f : Flit) : Nat := f.seq + 4096 * f.control.toNat

/-- Bytes 8 to 639 of a flit, sent with some ACK field and CREDIT (R386). -/
def Flit.rest (f : Flit) (ack credit : Nat) : List Byte :=
  leBytes 2 ack ++ leBytes 2 f.lctl ++ leBytes 2 f.swapAt ++ leBytes 6 credit ++ List.replicate 12 0 ++ padTo 608 f.chunks

/-- The 640 bytes of a flit; the CRC takes the codeword header after byte 639, as three bytes (R386, log 100). -/
def Flit.bytes (f : Flit) (ack credit : Nat) : List Byte :=
  let r := f.rest ack credit
  leBytes 8 (crc64 (r ++ leBytes 3 f.header)) ++ r

/-- A number as n symbols of 10 bits, the least significant first. -/
def symbols10 : (n v : Nat) → List Nat
  | 0, _ => []
  | n + 1, v => v % 1024 :: symbols10 n (v / 1024)

/-- The 544 symbols of a codeword (R384): 514 of the flit and its header, 30 of parity, whose polynomial the spec does not give (log 100). -/
def Flit.codeword (f : Flit) (ack credit : Nat) : List Nat :=
  let info := symbols10 514 (ofLeBytes (f.bytes ack credit) + f.header * 2 ^ 5120)
  info ++ (List.range 30).map fun i => Config.fecParity info i % 1024

/-! ### Dealing (R385) -/

/-- The symbols that fall to place j of w lanes: symbols j, j + w, … -/
def dealt (w j : Nat) (sy : List Nat) : List Nat := ((List.zipIdx sy).filter fun x => x.2 % w = j).map (·.1)

/-- A PCS block: header above 128 payload bits. -/
def dataBlock (v : Nat) : BitVec 130 := BitVec.ofNat 130 (2 ^ 128 + v % 2 ^ 128)

/-- The comma block of a lane: header 10, pattern, physical lane number, comma count, zeros (R385). -/
def commaBlock (n count : Nat) : BitVec 130 := BitVec.ofNat 130 (2 ^ 129 + 0x4B1DE2A796C30F58 + n * 2 ^ 64 + count % 2 ^ 16 * 2 ^ 72)

/-- Whole blocks taken from the low end of `len` bits, with what remains. -/
def blocksOf : (fuel v len : Nat) → List (BitVec 130) × Nat × Nat
  | 0, v, len => ([], v, len)
  | n + 1, v, len =>
    if len < 128 then ([], v, len)
    else
      let (bs, r) := blocksOf n (v / 2 ^ 128) (len - 128)
      (dataBlock v :: bs, r)

/-- The next comma goes out on lane n (R385). -/
def Lane.sendComma (x : Lane) (n count : Nat) : Lane :=
  { x with out := x.out ++ [.block (commaBlock n count)], pos := 0, txCount := count % 65536, slots := x.slots + 1 }

/-- A data block goes out on lane n, after the comma due every 4,096 blocks (R384). -/
def Lane.putBlock (n : Nat) (x : Lane) (b : BitVec 130) : Lane :=
  let x := if 4096 ≤ x.pos then x.sendComma n (x.txCount + 1) else x
  { x with out := x.out ++ [.block b], pos := x.pos + 1, slots := x.slots + 1 }

/-- Fill blocks, with the commas due among them, take the next k places of lane n (R384). -/
def Lane.putFill (n : Nat) (x : Lane) (k : Nat) : Lane :=
  let first := min k (4096 - x.pos)
  let rest := k - first
  let q := rest / 4097
  let r := rest % 4097
  let items : List LaneItem := (if first = 0 then [] else [.fill first]) ++ (if q = 0 then [] else [.idle q ((x.txCount + 1) % 65536)]) ++
    (if r = 0 then [] else [.block (commaBlock n (x.txCount + q + 1))]) ++ (if r ≤ 1 then [] else [.fill (r - 1)])
  { x with
    out := x.out ++ items, pos := if r = 0 then (if q = 0 then x.pos + first else 4096) else r - 1
    txCount := (x.txCount + q + if r = 0 then 0 else 1) % 65536, slots := x.slots + k }

/-- Symbols join lane n's bits; each full 128 go out as a data block. -/
def Lane.send (x : Lane) (n : Nat) (sy : List Nat) : Lane :=
  let v := x.part.1 + 2 ^ x.part.2 * sy.foldr (fun s v => s + 1024 * v) 0
  let (bs, part) := blocksOf 12 v (x.part.2 + 10 * sy.length)
  bs.foldl (Lane.putBlock n) { x with part := part }

/-- A lane; an unlisted one is inactive. -/
def Link.lane (x : Link) (n : Nat) : Lane := tgetD x.lanes n Lane.reset

/-- Change a lane. -/
def Link.modLane (x : Link) (n : Nat) (f : Lane → Lane) : Link := { x with lanes := tput x.lanes n (f (x.lane n)) }

/-- The transmit lanes in the order the symbols are dealt: lane 8 in the place of the lane it replaced (R385, R393). -/
def Link.order (x : Link) : List Nat :=
  let place (n : Nat) : Nat := if x.txSpare = some n then 8 else n
  ((List.range 8).map place ++ if x.txSpare.isNone then [8] else []).filter fun n => (x.lane n).tx

/-- Places of 130 bits on a lane in some time: 224 bits per ns, or half that (R384). -/
def placesIn (half : Bool) (ns : Nat) : Nat := ns * (if half then 112 else 224) / 130

/-- The comma count that the receive direction of lane n has reached (R385). -/
def Link.rxComma (x : Link) (half : Bool) (now n : Nat) : Nat := ((x.lane n).comma + placesIn half (now - x.rxAt) / 4097) % 65536

/-- A flit goes out over the transmit lanes (R385), behind the fill blocks and commas of the time since the last one (R384), its ACK naming the last sequence received in order (R386); a lane whose replacement the switch port asked for is copied on lane 8 (R393). -/
def Link.sendFlit (x : Link) (half : Bool) (credit now : Nat) (f : Flit) : Link :=
  let lanes := x.order
  let sy := f.codeword ((x.rxSeq + 4095) % 4096 + 32768 * x.nakOwed.toNat) credit
  let copied : List (Nat × Nat) := match x.swap with
    | some w => if w.fromPeer then (List.zipIdx lanes).filterMap fun y => if y.1 = w.lane then some (8, y.2) else none else []
    | none => []
  let due := placesIn half (now - x.commaAt)
  (List.zipIdx lanes ++ copied).foldl (fun x y => x.modLane y.1 fun z => (z.putFill y.1 (due - z.slots)).send y.1 (dealt lanes.length y.2 sy)) x

/-! ### The receiver (R385) -/

/-- A comma block of a lane: its count. -/
def commaOf (n : Nat) (b : BitVec 130) : Option Nat :=
  let count := b.toNat / 2 ^ 72 % 2 ^ 16
  if b = commaBlock n count then some count else none

/-- A lane aligned on its next comma: the count, and the blocks behind it. -/
def alignLane (n : Nat) : List (BitVec 130) → Option (Nat × List (BitVec 130))
  | [] => none
  | b :: bs => match commaOf n b with
    | some c => some (c, bs)
    | none => alignLane n bs

/-- The blocks of some lanes after the same comma: each lane in its order, its number and the blocks received; none where a comma is missing, the counts differ or the lanes lie more than 48 blocks apart. -/
def deskew (lanes : List (Nat × List (BitVec 130))) : Option (List (List (BitVec 130))) := do
  let al ← lanes.mapM fun x => (alignLane x.1 x.2).map fun y => (y.1, y.2, x.2.length - y.2.length)
  let offs := al.map (·.2.2)
  if al.all (fun x => x.1 = (al.headD (0, [], 0)).1) && decide (offs.foldl max 0 ≤ offs.foldl min (offs.headD 0) + 48) then some (al.map (·.2.1)) else none

/-- The payload bits of a lane's data blocks, as symbols. -/
def laneSymbols (bs : List (BitVec 130)) : List Nat :=
  let data := bs.filter fun b => b.toNat / 2 ^ 128 = 1
  symbols10 (128 * data.length / 10) (data.foldr (fun b v => b.toNat % 2 ^ 128 + 2 ^ 128 * v) 0)

/-- Codewords reassembled: symbol i of the string comes from lane i mod W. -/
def reassemble (n : Nat) (lanes : List (List Nat)) : List Nat :=
  (List.range n).map fun i => ((lanes[i % lanes.length]?).getD []).getD (i / lanes.length) 0

end Sys2Proof.Machine
end

