-- ==== Sys2Proof/Machine/EngineOps.lean ====
section
/-! DEFINITION. The move engines' side of a transfer (R211 to R228), the granule check and the keys of Customs (R318, R432 to R436), the links' sending side (R386, R387, R395). -/

namespace Sys2Proof.Machine

open Sys2Proof

/-! ### Measurement log -/

/-- The 64 bytes of a measurement entry (R437). -/
def logBytes (kind handle va : Nat) (d : BitVec 384) : List Byte :=
  leBytes 1 kind ++ leBytes 3 0 ++ leBytes 4 handle ++ leBytes 8 va ++ leBytes 48 d.toNat

/-- Add a measurement to a slice's log and chain (R437). -/
def Block.measure (b : Block) (sl kind handle va : Nat) (d : BitVec 384) : Block :=
  b.modSlice sl fun s =>
    { s with
      chain := Config.sha384 (leBytes 48 s.chain.toNat ++ logBytes kind handle va d)
      log := (if 4096 ≤ s.log.length then s.log.drop 1 else s.log) ++ [(kind, handle, va, d)]
      logLost := s.logLost || decide (4096 ≤ s.log.length) }

/-! ### Engines and their transfers -/

/-- The slice whose stream a berth runs. -/
def Block.sliceOn (b : Block) (n : Nat) : Option Nat := (b.berth n).stream.map fun s => s.slice

/-- The queue of engine k. -/
def Berth.eng (x : Berth) (k : Nat) : List Xfer := if k = 0 then x.me0 else x.me1

/-- Change the queue of engine k of a berth. -/
def Block.modEng (b : Block) (n k : Nat) (f : List Xfer → List Xfer) : Block :=
  b.modBerth n fun x => if k = 0 then { x with me0 := f x.me0 } else { x with me1 := f x.me1 }

/-- Change one transfer. -/
def Block.modXfer (b : Block) (n k serial : Nat) (f : Xfer → Xfer) : Block :=
  b.modEng n k fun l => l.map fun t => if t.serial = serial then f t else t

/-- A transfer of an engine by its serial. -/
def Block.xfer (b : Block) (n k serial : Nat) : Option Xfer := ((b.berth n).eng k).find? fun t => t.serial = serial

/-- Bytes a transfer moves. -/
def Xfer.total (t : Xfer) : Nat := t.rowLen * t.rows

/-- Where byte i of a transfer lies: berth-store address, far-side distance, bytes left in its row (R165). -/
def Xfer.place (t : Xfer) (i : Nat) : Nat × Nat × Nat :=
  let r := i / t.rowLen
  let c := i % t.rowLen
  (t.store + r * t.storeStride + c, r * t.farStride + c, t.rowLen - c)

/-- A write that a transfer of a stream, given by job and rank, sent before a save, and that is not answered yet (R145, R216). -/
def Block.strayWrite (b : Block) (of_ : Nat × Nat) (ok : (k serial : Nat) → Bool) : Bool :=
  let mem (r : MemReq) : Bool := match r.who with
    | .stray _ k o serial => r.write && o == some of_ && ok k serial
    | _ => false
  (b.ports.out.any fun x => mem x.2) || (b.ports.lanes.any fun x => x.2.any fun q => mem q.req) ||
  b.fabric.reqs.any fun x => x.2.gone == some of_ && (x.2.op = 1 || x.2.op = 3) && ok x.2.e x.2.serial

/-- Such a write of any stream of a job. -/
def Block.strayOf (b : Block) (job : Nat) : Bool :=
  let mem (r : MemReq) : Bool := match r.who with
    | .stray _ _ (some o) _ => r.write && o.1 = job
    | _ => false
  (b.ports.out.any fun x => mem x.2) || (b.ports.lanes.any fun x => x.2.any fun q => mem q.req) ||
  b.fabric.reqs.any fun x => x.2.op ≠ 0 && match x.2.gone with | some o => decide (o.1 = job) | none => false

/-- The writes that the stream on a berth sent before a save have all been answered. -/
def Block.settled (b : Block) (n : Nat) : Bool :=
  match (b.berth n).stream with
  | some s => !b.strayWrite (s.job, s.rank) fun _ _ => true
  | none => true

/-- Those of one transfer have been. -/
def Block.settledXfer (b : Block) (n k serial : Nat) : Bool :=
  match (b.berth n).stream with
  | some s => !b.strayWrite (s.job, s.rank) fun k' serial' => k' = k && serial' = serial
  | none => true

/-- Requests of a transfer that wait for their answers. -/
def Block.outstanding (b : Block) (n k serial : Nat) : Nat :=
  (b.ports.out.filter fun x => match x.2.who with
    | .engine n' k' s _ => n' = n && k' = k && s = serial
    | _ => false).length +
  (b.host.reads.filter fun x => match x.2 with
    | .transfer n' k' s _ _ => n' = n && k' = k && s = serial
    | _ => false).length +
  (b.fabric.reqs.filter fun x => x.2.b = n && x.2.e = k && x.2.serial = serial && x.2.gone.isNone).length +
  (b.hold.chans.foldl (fun m x => m + ((x.2.waiting ++ x.2.sensing).filter fun q => match q.xfer with
    | some (n', k', s, _) => n' = n && k' = k && s = serial
    | none => false).length) 0) +
  (b.ports.lanes.foldl (fun m x => m + (x.2.filter fun q => match q.req.who with
    | .engine n' k' s _ => n' = n && k' = k && s = serial
    | _ => false).length) 0)

/-- Reads of a transfer wait for their data. -/
def Block.readsOut (b : Block) (n k serial : Nat) : Bool :=
  let mem (r : MemReq) : Bool := match r.who with
    | .engine n' k' s _ => n' = n && k' = k && s = serial && !r.write
    | _ => false
  (b.ports.out.any fun x => mem x.2) || (b.ports.lanes.any fun x => x.2.any fun q => mem q.req) ||
  b.host.reads.any fun x => match x.2 with
    | .transfer n' k' s _ _ => n' = n && k' = k && s = serial
    | _ => false

/-- The berth's engines move: a stream that has not been stopped, no save and no reset under way; while the berth quiesces they run to where they stop (R145). -/
def Block.enginesRun (b : Block) (n : Nat) : Bool :=
  let x := b.berth n
  (b.bstate n = bsRunning || b.bstate n = bsToMoor || x.quiescing.isSome) && x.saving.isNone && x.resetting.isNone &&
  (match x.stream with | some s => !s.stopped | none => false)

/-- The buffer a transfer's far side names, if any (FAULT_BUF, R193). -/
def Xfer.buf (t : Xfer) : Option Nat :=
  match t.mv with
  | .buffer _ k _ => some k
  | .hold _ _ d => d
  | .window .. => none
  | .copy c _ => some c.srcBuf
  | .digest k _ _ => some k

/-- The buffers a transfer reads stamps of. -/
def Xfer.bufs (t : Xfer) : List Nat :=
  match t.mv with
  | .buffer _ k _ => [k]
  | .hold _ _ d => d.toList
  | .window .. => []
  | .copy c h => if h.isSome then [c.srcBuf] else [c.srcBuf, c.dstBuf]
  | .digest k _ _ => [k]

/-- A transfer fails (R193): its status stands, the stream and its job stop. -/
def Block.failXfer (b : Block) (e : Env) (n k serial st : Nat) (kind idx loc obj : Nat) : Block :=
  match (b.berth n).stream, b.xfer n k serial with
  | some s, some t =>
    if t.failed.isSome then b
    else
      let b := b.modXfer n k serial fun t => { t with failed := some st }
      let b := if st = stUncorrectable ∨ st = stIntegrity then b.dataAlarm e st kind idx loc s.slice else b
      b.failWith e s.job st t.buf kind idx loc obj
  | _, _ => b

/-! ### Far side: stamped runs (R211, R214) -/

/-- What a far-side request at a buffer offset meets. -/
inductive Far where
  | dram (phys slice ctx len : Nat)
  | host (phys slice va len : Nat)
  | wait
  | fail (st : Nat)

/-- How many buffers a job has: a list's are numbered 0 to 7 (R249). -/
def Cmd.bufCount (x : Cmd) : Nat := if x.list? then 8 else x.bufs.length

/-- The stamp head of a job's buffer; an absent buffer of a list (R249) carries a number beyond the store. -/
def Block.bufHead (b : Block) (job k : Nat) : Option Nat :=
  match tget b.quay.cmds job with
  | some c => if k < c.bufCount then (c.heads[k]?).filter (· < 262144) else none
  | none => none

/-- The request for up to `left` bytes at offset `off` of a buffer: the whole of `left` must lie in it; no request crosses a run's end, a 4 KiB boundary, or its size limit. `lim` bytes may still go out on a stale run. -/
def Block.farAt (b : Block) (job k off left : Nat) (wr : Bool) (lim : Option Nat) : Far :=
  match b.bufHead job k with
  | none => .fail stProtection
  | some h =>
    match b.head h, b.runAt h off with
    | some hv, some r =>
      if hv.blen < off + left then .fail stProtection
      else if r.stale && decide (lim.getD 0 = 0) then .wait
      else if !(if wr then r.write else r.read) then .fail stProtection
      else
        let phys := r.phys + (off - r.boff)
        let cap := min (min left (r.boff + r.len - off)) (upTo phys 4096)
        let cap := match lim with | some l => if r.stale then min cap l else cap | none => cap
        if r.cls = 0 then .dram phys r.slice r.ctx (min cap (upTo phys 128))
        else .host phys r.slice (hv.va + off) (min cap (if wr then b.host.maxPayload else 512))
    | some _, none => .fail stProtection
    | none, _ => .wait

/-! ### What an engine wants next -/

/-- The next request of an engine. -/
inductive Want where
  | idle
  | fail (st : Nat)
  | mem (r : MemReq)
  | hostRead (phys len store off : Nat)
  | hostWrite (phys sl va off len : Nat)
  | fabric (win blk op mod off len store i : Nat) (operand compare : Word)
  | holdWrite (handle slot at_ len : Nat)

/-- The end of the 4 KiB piece a copy stages (R213); for a Hold destination the pieces are the slots it writes (R223). -/
def pieceEnd (c : CopyEntry) (holdDst : Bool) (at_ total : Nat) : Nat :=
  if holdDst then min total (at_ + upTo (c.dstOff + at_) 4096) else min total (at_ + upTo at_ 4096)

/-- The offset and length of the first staged bytes of a copy. -/
def stagedFront (l : List (Nat × List Byte)) : Option (Nat × Nat) := l.head?.map fun x => (x.1, x.2.length)

/-- Bytes of a stale run that may still be issued before the halt (R226). -/
def Xfer.limit (t : Xfer) (i : Nat) : Option Nat := t.halted.map (· - i)

/-- The next far-side request of an engine's first transfer (R216: transfers start in queue order); `failed` transfers and stopped engines want nothing. -/
def Block.nextWant (b : Block) (n k : Nat) : Want :=
  match (b.berth n).stream, (b.berth n).eng k with
  | some s, t :: _ =>
    if !b.enginesRun n || t.failed.isSome then .idle
    else
      let i := t.issued
      let who := Sender.engine n k t.serial i
      match t.mv with
      | .buffer out kb off =>
        if t.total ≤ i then .idle
        else
          let (st, far, left) := t.place i
          match b.farAt s.job kb (off + far) left out (t.limit i) with
          | .dram p sl cx len => .mem (memReq who p len out sl cx st)
          | .host p sl va len => if out then .hostWrite p sl va i len else .hostRead p len st i
          | .wait => .idle
          | .fail f => .fail f
      | .hold _ _ _ => .idle
      | .window op mode off win blk operand compare =>
        if t.total ≤ i then .idle
        else
          let (st, far, left) := t.place i
          .fabric win blk op mode (off + far) (min left (min 256 (upTo (off + far) 4096))) st i operand compare
      | .copy c holdDst =>
        let pe := pieceEnd c holdDst.isSome t.done t.total
        if i < pe then
          match b.farAt s.job c.srcBuf (c.srcOff + i) (t.total - i) false (t.limit i) with
          | .dram p sl cx len => .mem (memReq who p (min len (pe - i)) false sl cx t.store)
          | .host p _ _ len => .hostRead p (min len (pe - i)) t.store i
          | .wait => .idle
          | .fail f => .fail f
        else if b.readsOut n k t.serial then .idle
        else
          match stagedFront t.staged with
          | none => .idle
          | some (o, len) =>
            match holdDst with
            | some h => .holdWrite h ((c.dstOff + t.done) / 4096) ((c.dstOff + t.done) % 4096) (pe - t.done)
            | none =>
              match b.farAt s.job c.dstBuf (c.dstOff + o) len true (t.haltedOut.map (· - o)) with
              | .dram p sl cx l => .mem (memReq (.engine n k t.serial o) p l true sl cx t.store)
              | .host p sl va l => .hostWrite p sl va o l
              | .wait => .idle
              | .fail f => .fail f
      | .digest kb off d =>
        if d.length ≤ i then .idle
        else
          match b.farAt s.job kb (off + i) (d.length - i) true (t.limit i) with
          | .dram p sl cx len => .mem (memReq who p len true sl cx t.store)
          | .host p sl va len => .hostWrite p sl va i len
          | .wait => .idle
          | .fail f => .fail f
  | _, _ => .idle

/-- A want writes at the far side. -/
def Want.writes : Want → Bool
  | .mem r => r.write
  | .hostWrite .. => true
  | .fabric _ _ op .. => decide (op ≠ 0)
  | .holdWrite .. => true
  | _ => false

/-- The byte of a transfer that a want begins at. -/
def Want.at_ (w : Want) (t : Xfer) : Nat :=
  match w with
  | .mem r => match r.who with | .engine _ _ _ o => o | _ => t.issued
  | .hostRead _ _ _ off => off
  | .hostWrite _ _ _ off _ => off
  | .holdWrite .. => t.done
  | .fabric _ _ _ _ _ _ _ i _ _ => i
  | _ => t.issued

/-- A want lies past the byte at which its quiescing engine stops (R145). -/
def Quiesce.past (q : Quiesce) (k : Nat) (t : Xfer) (w : Want) : Bool :=
  match q.stops.find? fun s => s.1 = k && s.2.1 = t.serial with
  | none => true
  | some (_, _, stop, out) =>
    let dst : Bool := match t.mv with | .copy _ _ => w.writes | _ => false
    decide ((if dst then out else stop) ≤ w.at_ t)

/-- The next request an engine sends: none past its stop while the berth quiesces (R145), and no write before the writes its stream sent before a save have been answered (R145, R217). -/
def Block.want (b : Block) (n k : Nat) : Want :=
  let w := b.nextWant n k
  match (b.berth n).eng k with
  | [] => .idle
  | t :: _ =>
    if w.writes && !b.settled n then .idle
    else match (b.berth n).quiescing with
      | some q => if q.past k t w then .idle else w
      | none => w

/-- Where byte o of a copy is staged (R213): in the 4 KiB of the berth store its engine stages pieces in (log 96), at its place in its piece. -/
def Xfer.stageAddr (t : Xfer) (o : Nat) : Nat :=
  match t.mv with
  | .copy c (some _) => t.store + (c.dstOff + o) % 4096
  | _ => t.store + o % 4096

/-- The bytes a transfer sends: from the berth store, a copy's from the piece staged there, or the digest. -/
def Block.outData (b : Block) (n : Nat) (t : Xfer) (o len : Nat) : List Byte :=
  match t.mv with
  | .copy _ _ => b.load n (t.stageAddr o) len
  | .digest _ _ d => (d.drop o).take len
  | _ => let (st, _, _) := t.place o; b.load n st len

/-- Drop sent bytes from a staged piece, or count issued ones. -/
def Xfer.sent (t : Xfer) (wr : Bool) (len : Nat) : Xfer :=
  match t.mv with
  | .copy _ _ =>
    if wr then
      match t.staged with
      | (o, d) :: l => { t with staged := if d.length ≤ len then l else (o + len, d.drop len) :: l }
      | [] => t
    else { t with issued := t.issued + len }
  | _ => { t with issued := t.issued + len }

/-- Add read bytes to a staged piece, rising by offset. -/
def stage (l : List (Nat × List Byte)) (o : Nat) (d : List Byte) : List (Nat × List Byte) :=
  insertBy (fun a b => decide (a.1 ≤ b.1)) (o, d) l

/-- A read of an engine is answered with its data (R212): into the berth store, for a copy where its piece is staged. -/
def Block.gotData (b : Block) (n k serial off store : Nat) (d : List Byte) : Block :=
  match b.xfer n k serial with
  | none => b
  | some t =>
    match t.mv with
    | .copy _ _ => (b.store n (t.stageAddr off) d).modXfer n k serial fun t => { t with staged := stage t.staged off d }
    | _ =>
      let b := (b.store n store d).modXfer n k serial fun t => { t with done := t.done + d.length }
      b.tallyB n (b.sliceOn n) 0x007 k (cdiv d.length 64)

/-- A write of an engine is answered. -/
def Block.wrote (b : Block) (n k serial len : Nat) : Block :=
  b.modXfer n k serial fun t => { t with done := t.done + len }

/-- An engine of a berth has a request answered: progress of a MOVE's copy program and of a berth in a collective (R473). -/
def Block.answered (b : Block) (e : Env) (n : Nat) : Block :=
  let copies := match (b.berth n).stream.bind fun s => tget b.quay.cmds s.job with
    | some x => match x.body with | .move _ => true | _ => false
    | none => false
  if copies || b.bstate n = bsCollective then b.modBerth n fun x => { x with progress := e.now } else b

/-! ### Hold transfers (R218, R219, R377) -/

/-- A Hold channel; an unlisted one is idle and unknown. -/
def Block.chan (b : Block) (ch : Nat) : Channel := tgetD b.hold.chans ch Channel.reset

/-- The channels an object runs over, in order (R377). -/
def HoldObj.chans (o : HoldObj) : List Nat := o.place.map (·.1)

/-- The object a handle names (R377). -/
def Block.holdObj (b : Block) (handle : Nat) : Option HoldObj :=
  match tget b.hold.objs (handle % 65536) with
  | some o => if tgetD b.hold.gens (handle % 65536) 0 = handle / 65536 then some o else none
  | none => none

/-- The slot address of a slot of a unit on a channel (R357). -/
def slotAddr (ch unit slot : Nat) : Nat := ch % 2 * 2 ^ 27 + unit * 4096 + slot

/-- The home address of slot j of an object: its channel and address (R377). -/
def HoldObj.home (o : HoldObj) (j : Nat) : Option (Nat × Nat) :=
  let c := o.place.length
  match o.place[j % max 1 c]? with
  | some (ch, us) => let m := j / max 1 c; (us[m / 4096]?).map fun u => (ch, slotAddr ch u (m % 4096))
  | none => none

/-- The address of an object's current copy of a slot, before the remap table: in its overflow map, or at home (R366). -/
def HoldObj.addrOf (o : HoldObj) (j : Nat) : Option (Nat × Nat) := (o.home j).map fun (ch, a) => (ch, (tget o.moved j).getD a)

/-- A slice may read an object: sealed and granted for reading (R218). -/
def HoldObj.readable (o : HoldObj) (sl : Nat) : Bool := o.sealed && o.grants.any fun g => g.1 = sl && g.2.1

/-- The slots of one row of a Hold transfer, each with the byte of the transfer its part starts at. -/
def rowSlots (base lin len : Nat) : List (Nat × Nat) :=
  (List.range ((base % 4096 + len + 4095) / 4096)).map fun j =>
    let slot := base / 4096 + j
    (slot, if j = 0 then lin else lin + (slot * 4096 - base))

/-- Send the senses of a Hold transfer to the scheduler (R219); a handle not granted or a range beyond the object fails it (R193), and so does a slot recorded lost or on a channel out of service (R362, R381). The first read of an object by a slice enters its measurement log (R222). -/
def Block.startHold (b : Block) (e : Env) (n k : Nat) (sl : Nat) (t : Xfer) (handle off : Nat) : Block :=
  match b.holdObj handle with
  | none => b.failXfer e n k t.serial stProtection ukBerth n off handle
  | some o =>
    let rows := (List.range t.rows).map fun r => (off + r * t.farStride, r * t.rowLen)
    if !o.readable sl || rows.any fun x => decide (o.slots * 4096 < x.1 + t.rowLen) then
      b.failXfer e n k t.serial stProtection ukBerth n off handle
    else
      let seen := ((tget b.quay.slices sl).map (·.objectsRead)).getD []
      let b := if seen.contains handle then b else
        (b.measure sl 2 handle 0 o.root).modSlice sl fun s => { s with objectsRead := s.objectsRead ++ [handle] }
      let chans := o.chans
      let dead (slot : Nat) : Bool := o.lost.contains slot || match chans[slot % max 1 chans.length]? with
        | some ch => (b.chan ch).out
        | none => true
      -- after a save the transfer goes on at its resume offset (R145)
      let senses := (rows.flatMap fun x => rowSlots x.1 x.2 t.rowLen).filter fun x => decide (t.issued ≤ x.2)
      let b := senses.foldl (fun b (slot, lin) =>
        match chans[slot % max 1 chans.length]? with
        | none => b
        | some ch => { b with hold := { b.hold with chans := tupd b.hold.chans ch Channel.reset fun c =>
            { c with busyAt := e.now, waiting := c.waiting ++ [⟨ch / 2, slot, some (n, k, t.serial, lin), handle, 0⟩] } } }) b
      let b := b.modXfer n k t.serial fun t => { t with issued := t.total }
      match senses.find? fun x => dead x.1 with
      | some (slot, _) => b.failXfer e n k t.serial stUncorrectable ukStack ((chans[slot % max 1 chans.length]?).getD 0 / 2) (((o.addrOf slot).map (·.2)).getD 0) handle
      | none => b

/-- Bytes of a transfer that a slot's part holds, from its first byte on. -/
def Xfer.slotPart (t : Xfer) (off lin : Nat) : Nat × Nat :=
  let (_, far, left) := t.place lin
  let at_ := (off + far) % 4096
  (at_, min left (4096 - at_))

/-! ### Running the engines -/

/-- A unit lets a command's stamps go (R314), but those another command it still serves uses. -/
def Block.unholdCmd (b : Block) (c : Nat) (who : Holder) : Block :=
  let hs := ((tget b.quay.cmds c).map (·.heads)).getD []
  let used (h : Nat) : Bool := b.quay.cmds.any fun y => decide (y.1 ≠ c) && y.2.ph = .running && y.2.heads.contains h
  (hs.filter fun h => !used h).foldl (fun (b : Block) h => b.unhold h who) b

/-- What an engine's first transfer needs before any port serves it: the first read of its stamps (R211, R314), a Hold transfer's senses, a failure its next request meets (R193). -/
def Block.kick (b : Block) (e : Env) (n k : Nat) : Block :=
  match (b.berth n).stream, (b.berth n).eng k with
  | some s, t :: _ =>
    if !b.enginesRun n || t.failed.isSome || (b.berth n).quiescing.isSome then b
    else
      let hs := t.bufs.filterMap fun i => b.bufHead s.job i
      let b := hs.foldl (fun b h => b.hold_ h (.engine n k)) b
      -- the Hold controller writes the slots of a transfer into its buffer's runs (R228)
      let b := match t.mv with
        | .hold _ _ (some _) => hs.foldl (fun (b : Block) h => b.hold_ h .hold) b
        | _ => b
      let b := match t.mv with
        | .hold handle off _ => if t.issued < t.total then b.startHold e n k s.slice t handle off else b
        | _ => b
      match b.want n k with
      | .fail st => b.failXfer e n k t.serial st ukBerth n 0 0
      | _ => b
  | _, _ => b

/-- Both engines of a berth, the one whose first transfer is earlier in program order first: of two failures met now its own is taken (R206). -/
def Block.kickBoth (b : Block) (e : Env) (n : Nat) : Block :=
  let first (k : Nat) : Nat := (((b.berth n).eng k).head?.map (·.serial)).getD 0
  if first 1 < first 0 ∧ !(b.berth n).me1.isEmpty then (b.kick e n 1).kick e n 0 else (b.kick e n 0).kick e n 1

/-! ### Stops and halts (R145, R226) -/

/-- Where byte i of a transfer lies on its far side, read or written: buffer and offset in it, and the bytes that follow in its row; none for a Hold object or a window. -/
def Xfer.spot (t : Xfer) (wr : Bool) (i : Nat) : Option (Nat × Nat × Nat) :=
  match t.mv with
  | .buffer _ k off => let (_, far, left) := t.place i; some (k, off + far, left)
  | .hold _ _ d => d.map fun k => (k, (t.place i).1, (t.place i).2.2)
  | .window .. => none
  | .copy c h => if wr then (if h.isSome then none else some (c.dstBuf, c.dstOff + i, t.total - i)) else some (c.srcBuf, c.srcOff + i, t.total - i)
  | .digest k off d => some (k, off + i, d.length - i)

/-- The stamped run that byte i of a transfer lies in on one side, with the offset in its buffer and the bytes that follow in its row. -/
def Block.spotRun (b : Block) (job : Nat) (t : Xfer) (wr : Bool) (i : Nat) : Option (RunView × Nat × Nat) :=
  (t.spot wr i).bind fun (k, x, left) => ((b.bufHead job k).bind fun h => b.runAt h x).map fun r => (r, x, left)

/-- The byte at which a transfer has come to the next 4 KiB boundary of its far-side address, when `i` is the next byte it moves there (R145, R226): a window's by its offset; where nothing has been sent or all has, and on a Hold object, it is where the transfer stands. -/
def Block.boundary (b : Block) (job : Nat) (t : Xfer) (wr : Bool) (i : Nat) : Nat :=
  if i = 0 ∨ t.total ≤ i then i
  else
    let up (a left : Nat) : Nat := if a % 4096 = 0 then i else i + min left (upTo a 4096)
    match t.mv with
    | .window _ _ off _ _ _ _ => let (_, far, left) := t.place i; up (off + far) left
    | _ => match b.spotRun job t wr i with
      | some (r, x, left) => up (r.phys + (x - r.boff)) left
      | none => i

/-- The reads of a copy's piece are not all in: none of its bytes has left (R213). -/
def Block.reading (b : Block) (n k : Nat) (t : Xfer) : Bool :=
  match t.mv with
  | .copy c h =>
    let pe := pieceEnd c h.isSome t.done t.total
    decide (t.issued < pe) || b.readsOut n k t.serial
  | _ => false

/-- The next byte of a copy that leaves for its destination: of a piece being read its first. -/
def Block.outAt (b : Block) (n k : Nat) (t : Xfer) : Nat :=
  if b.reading n k t then t.done else ((t.staged.head?).map (·.1)).getD t.issued

/-- Where a quiescing engine's first transfer stops (R145): at the next 4 KiB boundary of its run; of a piece being read no byte leaves. -/
def Block.stopsAt (b : Block) (n k job : Nat) (t : Xfer) : Nat × Nat :=
  match t.mv with
  | .copy c h =>
    let pe := pieceEnd c h.isSome t.done t.total
    if b.reading n k t then (min pe (b.boundary job t false t.issued), t.done)
    else (t.issued, if h.isSome then pe else b.boundary job t true (b.outAt n k t))
  | _ => (b.boundary job t false t.issued, 0)

/-! ### Customs -/

/-- A granule's owner when it is assigned (R318, R327). -/
def Block.granule (b : Block) (a : Nat) : Option Nat :=
  let g := a / 2 ^ 21
  let r := b.reg .plGranule (g / 4)
  let w := r.toNat / 2 ^ (16 * (g % 4)) % 65536
  if 32768 ≤ w then some (w % 1024) else none

/-- The granule check (R318): the owner equals the tag; context 0 passes only to the firmware owner. A closing key refuses new requests (R436). -/
def Block.granuleOk (b : Block) (a sl ctx : Nat) : Bool :=
  match b.granule a with
  | none => false
  | some o => if ctx = 0 then o = 0x3FF else o = sl && b.rd F.CU_KEY_CLOSING sl = 0

/-- The generation of the keys that protect a line of a request (R429, R430). -/
def Block.keyGen (b : Block) (sl ctx : Nat) : Nat :=
  if ctx = 0 then b.ports.internalKey else tgetD b.ports.keys sl 0

/-- Count a request that passed the check under a slot, or one that has finished (R436). -/
def Block.inflightKey (b : Block) (sl ctx : Nat) (up : Bool) : Block :=
  if ctx = 0 ∨ 512 ≤ sl then b
  else if up then b.bump F.CU_KEY_INFLIGHT sl
  else b.wr F.CU_KEY_INFLIGHT sl (b.rd F.CU_KEY_INFLIGHT sl - 1)

/-- The key of a request in the table of outstanding requests. -/
def reqKey (p sub tag : Nat) : Nat := (p * 4 + sub) * 4096 + tag

/-- The lowest free tag of a sub-port (R56; which tag the block takes is log 12). -/
def Block.freeTag (b : Block) (p sub : Nat) : Option Nat :=
  firstFrom (fun i => !thas b.ports.out (reqKey p sub i)) 4096 0

/-- The unit of a request is held by a read-modify-write under way: requests to it keep arrival order (R215). -/
def Block.unitBusy (b : Block) (a : Nat) : Bool := b.ports.out.any fun x => x.2.rmw && x.2.addr / 128 = a / 128

/-- The requests that have arrived at port x and wait there: the lane no regulator counts. -/
def Block.arrived (b : Block) (x : Nat) : List LaneReq := tgetD b.ports.lanes (32 * 16 + x) []

/-- An earlier write, ATOMIC or REDUCE of the same block on the same window has not been carried out: the effects keep issue order (R217). -/
def Block.windowBefore (b : Block) (id : Nat) : Bool :=
  match tget b.fabric.serving id with
  | none => false
  | some x => b.fabric.serving.any fun y => decide (y.1 < id) && y.2.m.src = x.m.src && y.2.m.window = x.m.window && y.2.m.op ≠ 1

/-- A request that has arrived may not be issued yet: a read-modify-write holds its unit, no tag is free, or an earlier request of its window goes before it (R56, R215, R217). -/
def Block.mustWait (b : Block) (r : MemReq) : Bool :=
  b.unitBusy r.addr || (b.freeTag r.port r.sub).isNone ||
  match r.who with
  | .window id _ => b.windowBefore id
  | _ => false

/-- A request that arrives now is not issued at once: it must wait, or one to its unit, or another of a window, waits before it (R215, R217, R224). -/
def Block.queuesAt (b : Block) (r : MemReq) : Bool :=
  b.mustWait r || (b.arrived r.port).any fun q => q.req.addr / 128 = r.addr / 128 ||
    match r.who, q.req.who with
    | .window _ _, .window _ _ => true
    | _, _ => false

/-- A response message to a fabric request (R395). -/
def respond (m : FabMsg) (st : Nat) (operand : Word) (data : List Byte) : FabMsg :=
  { op := 0x08, mod := 0, src := m.dst, dst := m.src, epoch := m.epoch, status := st, tag := m.tag
    len := cdiv data.length 64, window := m.window, offset := m.offset, operand := operand, data := data }

/-- A link; an unlisted one has kept nothing. -/
def Block.link (b : Block) (l : Nat) : Link := tgetD b.fabric.links l Link.reset

/-- Change a link. -/
def Block.modLink (b : Block) (l : Nat) (f : Link → Link) : Block :=
  { b with fabric := { b.fabric with links := tput b.fabric.links l (f (b.link l)) } }

/-- A link's direction runs: it is neither DOWN nor TRAINING, nor idle (R388, R389). -/
def Block.linkRuns (b : Block) (l : Nat) : Bool := !(b.link l).txIdle && decide (2 ≤ b.rd F.FE_LINK_STATE l)

/-- A flit goes out on a link at its present rate (R385), or waits until the direction runs (R389, R390). -/
def Block.putFlit (b : Block) (e : Env) (l : Nat) (f : Flit) : Block :=
  if b.linkRuns l then b.modLink l fun x => x.sendFlit (b.rd F.FE_LINK_RATE l = 1) (Config.linkCredit l e.now f.seq) e.now f
  else b.modLink l fun x => { x with unsent := x.unsent ++ [f] }

/-- A new flit takes the next sequence, goes out and is kept for replay, as one of the last 512 (R386, R387). -/
def Block.newFlit (b : Block) (e : Env) (l : Nat) (control : Bool) (lctl swapAt : Nat) (chunks : List Byte) : Block :=
  let f : Flit := ⟨(b.link l).txSeq, control, lctl, swapAt, chunks⟩
  let b := b.putFlit e l f
  b.modLink l fun x =>
    let kept := (x.kept ++ [f.seq]).drop (x.kept.length + 1 - 512)
    { x with txSeq := (f.seq + 1) % 4096, kept := kept, flits := tput (x.flits.filter fun y => kept.contains y.1) f.seq f }

/-- Send a message on a link: it leaves in order, in a flit of its own (R386, R387, log 100); the time of the last chunk counts for idle, and an IDLE notice not acknowledged yet stands no longer (R389). -/
def Block.sendLink (b : Block) (e : Env) (l : Nat) (m : FabMsg) : Block :=
  let b := b.newFlit e l false 0 0 (msgChunks m)
  let b := b.modLink l fun x => { x with txq := x.txq ++ [m], lastChunk := e.now, chunkWaits := x.txIdle, idleSeq := none, idleSent := x.txIdle }
  b.tallyG none 0x10A l 1

end Sys2Proof.Machine
end

