-- ==== Sys2Proof/Machine/FerryOps.lean ====
section
/-! DEFINITION. Ferry's shared operations (R403 to R413): contributions, starting a collective, sending, receiving, combining, ending. -/

namespace Sys2Proof

/-- The block IDs of a group's other members. -/
def GroupRec.peers (g : GroupRec) : List Nat := (g.members.map (·.1)).eraseIdx g.myRank

/-- The ranks of a group's other members. -/
def GroupRec.peerRanks (g : GroupRec) : List Nat := (List.range g.members.length).filter (· ≠ g.myRank)

end Sys2Proof

namespace Sys2Proof.Machine

open Sys2Proof

/-! ### What an operation moves (R197, R406) -/

/-- The collective works on tiles: ALL_REDUCE and BROADCAST in EXACT mode. -/
def Coll.tiles (x : Coll) : Bool := x.mode = 0 && (x.op = 0 || x.op = 3)

/-- It reduces bytes element by element. -/
def Coll.reduces (x : Coll) : Bool := x.mode ≠ 0 && (x.op = 0 || x.op = 1)

/-- The format bytes are reduced in: FP32, or BF16 where SWITCH mode names it. -/
def Coll.fmt (x : Coll) : FpFmt := if x.format = 0x8 then fpBF16 else fpFP32

/-- Elements of a byte string in a format, least significant byte first. -/
def toElems (w : Nat) (d : List Byte) : List Nat := (List.range (d.length / w)).map fun i => ofLeBytes ((d.drop (w * i)).take w)

/-- Add two byte strings element by element (R406, R407). -/
def addElems (f : FpFmt) (a b : List Byte) : List Byte :=
  let w := (1 + f.eb + f.mb) / 8
  (List.zipWith (fun x y => leBytes w (fpAdd f x y).1) (toElems w a) (toElems w b)).flatten

/-- Reduce contributions in ORDERED mode: element of shard k is summed from rank k + 1 on, round to rank k (R407). -/
def orderedSum (f : FpFmt) (cs : List (List Byte)) (len : Nat) : List Byte :=
  let w := (1 + f.eb + f.mb) / 8
  let n := cs.length
  (List.range (len / w)).flatMap fun i =>
    let k := i * w * n / max 1 len
    let at_ (r : Nat) : Nat := ofLeBytes (((cs.getD (r % n) []).drop (w * i)).take w)
    leBytes w ((List.range (n - 1)).foldl (fun a j => (fpAdd f a (at_ (k + 2 + j))).1) (at_ (k + 1)))

/-- Bytes a fresh draw gives: what SWITCH mode's arrival order leaves open (R407, R409; log 5). -/
def freeBytesOf (d n : Nat) : List Byte := (List.range n).map fun i => Config.freeByte (d * 2 ^ 32 + i)

/-! ### This block's contribution (R197, R406) -/

/-- The places in rank order. -/
def Coll.byRank (x : Coll) : List (Nat × Nat × Nat × Nat) := sortBy (fun a b => decide (a.1 ≤ b.1)) x.places

/-- The bytes of this block's contribution: reductions add the streams' data in rank order, byte operations concatenate it. -/
def Block.ownBytes (b : Block) (x : Coll) : List Byte :=
  if !x.fromBerth then x.own.flatMap (·.2)
  else
    let ds := x.byRank.map fun (_, n, src, _) => b.load n src x.len
    if x.reduces then
      match ds with
      | d :: ds => ds.foldl (addElems x.fmt) d
      | [] => []
    else ds.flatten

/-- The tiles of a mask, lowest first. -/
def tilesOf (mask : Nat) : List Nat := bitsOf 16 mask

/-- The tile t of this block's contribution: the streams' tiles combined in rank order; none where two do not combine (R108). -/
def Block.ownTile (b : Block) (x : Coll) (t : Nat) : Option Tile :=
  Tile.joinAll (x.byRank.map fun (_, n, _, _) => some ((b.berth n).regs.tile t))

/-- A received tile part as a tile (R408). -/
def partTile : FerryPart → Option (Nat × Tile)
  | .tile i count empty nf low ovf sa sb anchor es => some (i, ⟨es, anchor, count, empty, nf, low, ovf, sa, sb, []⟩)
  | .bytes _ => none

/-- The whole byte contribution of a rank, its parts in chunk order. -/
def Coll.bytesFrom (x : Coll) (r : Nat) : List Byte :=
  (sortBy (fun a b => decide (a.1 ≤ b.1)) ((x.parts.filter fun p => p.1 = r).map (·.2))).flatMap fun p =>
    match p.2 with | .bytes d => d | _ => []

/-- Tile k of the mask as a rank sent it. -/
def Coll.tileFrom (x : Coll) (r k : Nat) : Option Tile :=
  x.parts.findSome? fun p => if p.1 = r then (partTile p.2.2).bind fun (i, t) => if i = k then some t else none else none

/-! ### Messages -/

/-- A Ferry message (R395): kind 0 DATA, 1 CREDIT, 2 ABORT. -/
def ferryMsg (b : Block) (e : Env) (kind dst key sq rank chunk : Nat) (data : List Byte) : FabMsg :=
  { op := 0x10, mod := kind, src := b.rd F.FE_ID_BLOCK_ID, dst := dst, epoch := e.epoch, status := 0, tag := key
    len := cdiv data.length 64, window := chunk, offset := sq + rank * 2 ^ 32, operand := 0, data := data }

/-- The link Ferry uses towards a block: that of the block's window 0 (R396; log 19). -/
def Block.ferryLink (b : Block) (blk : Nat) : Nat :=
  let up (l : Nat) : Bool := let s := b.rd F.FE_LINK_STATE l; s = 2 || s = 3 || s = 4
  if up 0 && !up 1 then 0 else if up 1 && !up 0 then 1 else blk % 2

/-- Send a Ferry message without data. -/
def Block.sendFerry (b : Block) (e : Env) (kind dst key sq rank : Nat) : Block :=
  b.sendLink e (b.ferryLink dst) (ferryMsg b e kind dst key sq rank 0 [])

/-- Send a Ferry message with data, which passes the OTHER bucket of the owner's partition at its link (R333 to R335). Its chunk index has 16 bits (R395; log 116). -/
def Block.sendFerryData (b : Block) (e : Env) (p dst key sq rank chunk : Nat) (data : List Byte) : Block :=
  let l := b.ferryLink dst
  let m := ferryMsg b e 0 dst key sq rank (chunk % 65536) data
  match b.takeOther e p (24 + l) data.length with
  | some b => b.sendLink e l m
  | none => b.toLane p { memReq (.onLink m) 0 data.length true 0 0 0 with port := 24 + l, sub := 0 }

/-- The 32-byte header and the 4,096 entries of a tile in EXACT mode (R408). -/
def tileBytes (k : Nat) (t : Tile) : List Byte :=
  leBytes 8 t.status.toNat ++ leBytes 8 t.scaleWord.toNat ++ leBytes 2 t.anchor.toNat ++ leBytes 1 k ++ leBytes 13 0 ++
    (List.range 4096).flatMap fun i => leBytes 20 (t.get i).toNat

/-- What this block sends of a collective: its bytes, or its tiles one after another. -/
def Block.ownData (b : Block) (x : Coll) : List Byte :=
  if x.op = 5 then []
  else if x.tiles then (List.zipIdx (tilesOf x.mask)).flatMap fun (t, k) => match b.ownTile x t with
    | some y => tileBytes k y
    | none => []
  else b.ownBytes x

/-- DATA to one peer that has granted credit (R405), in messages of at most 256 bytes. -/
def Block.sendData (b : Block) (e : Env) (g : GroupRec) (x : Coll) (rank : Nat) : Block :=
  match g.members[rank]? with
  | none => b
  | some (d, _) =>
    let whole := b.ownData x
    (List.range (cdiv whole.length 256)).foldl (fun b i =>
      b.sendFerryData e (b.slicePart g.owner) d g.key x.sq g.myRank i ((whole.drop (256 * i)).take 256)) b

/-! ### Starting (R404, R405) -/

/-- The rank of a BROADCAST's root, which is named by its fabric block ID (R276; for coll log 90); a block that is no member gives a rank that never contributes. -/
def Coll.rootRank (x : Coll) (g : GroupRec) : Nat := g.members.findIdx fun m => m.1 = x.root

/-- Ranks whose contribution this block needs. -/
def Coll.needs (x : Coll) (g : GroupRec) : List Nat :=
  if x.op = 3 then (if x.rootRank g = g.myRank then [] else [x.rootRank g]) else g.peerRanks

/-- Ranks this block sends its contribution to. -/
def Coll.feeds (x : Coll) (g : GroupRec) : List Nat :=
  if x.op = 3 && x.rootRank g ≠ g.myRank then [] else g.peerRanks

/-- What the streams of this block give is read as it is sent (R132, R156): whether no uncorrectable word or tile entry is met. -/
def Block.contribRead (b : Block) (x : Coll) : Bool × Block :=
  if x.op = 5 || !x.fromBerth then (true, b)
  else if x.tiles then (!(x.byRank.any fun (_, n, _, _) => (tilesOf x.mask).any fun t => ((b.berth n).regs.tile t).parityBad), b)
  else x.byRank.foldl (fun (ok, b) (_, n, src, _) =>
    if !ok then (false, b) else match b.eccRead n src x.len with | (some _, b) => (false, b) | (none, b) => (true, b)) (true, b)

/-- Change a collective. -/
def Block.modColl (b : Block) (id : Nat) (f : Coll → Coll) : Block :=
  { b with fabric := { b.fabric with colls := tmod b.fabric.colls id f } }

/-- FY_STAT.IN_FLIGHT follows the table. -/
def Block.countColls (b : Block) : Block :=
  b.wr F.FY_STAT_IN_FLIGHT 0 (b.fabric.colls.filter fun y => y.2.begun).length

/-- Everything this block contributes is at hand: every stream of the job has issued the coll, or the FERRY command's source has been read. -/
def Block.ready (b : Block) (x : Coll) : Bool :=
  if x.fromBerth then
    match x.places.head? with
    | some (_, n, _, _) => ((b.berth n).stream.map fun s => s.streams) == some x.places.length
    | none => false
  else x.op = 5 || decide (x.len ≤ x.own.foldl (fun m p => m + p.2.length) 0)

/-- Start a collective when it is ready, its slot is free and fewer than 64 are in flight (R404, R405, R410): it takes the next sequence number, grants credit to the peers whose contribution it needs, and sends to those it feeds whose credit was kept. Where it begins later than its streams gave their data (`read`), the data is read now; bad data ends it. -/
def Block.tryStart (b : Block) (e : Env) (id : Nat) (read : Bool) : Block :=
  match tget b.fabric.colls id with
  | none => b
  | some x =>
    match tget b.fabric.groups x.entry with
    | none => b
    | some g =>
      let busy := b.fabric.colls.any fun y => y.2.begun && y.2.entry = x.entry && y.2.sq % g.r.slots = g.nextSeq % g.r.slots
      if x.begun || x.bad || busy || !b.ready x || decide (64 ≤ (b.fabric.colls.filter fun y => y.2.begun).length) then b
      else
        match (if read then b.contribRead x else (true, b)) with
        | (false, b) => b.modColl id fun x => { x with bad := true }
        | (true, b) =>
        let sq := g.nextSeq
        let kept := (g.credits.filter fun c => c.1 = sq).map (·.2)
        let x := { x with begun := true, sq := sq, timer := e.now, started := e.now, credits := kept, sentTo := kept.filter fun r => (x.feeds g.r).contains r, heard := kept }
        let b := { b with fabric := { b.fabric with
          colls := tput b.fabric.colls id x
          groups := tput b.fabric.groups x.entry { g with nextSeq := (sq + 1) % 2 ^ 32, credits := g.credits.filter fun c => c.1 ≠ sq } } }
        let b := b.countColls
        let b := (x.needs g.r).foldl (fun b r => match g.r.members[r]? with | some (d, _) => b.sendFerry e 1 d g.r.key sq g.r.myRank | none => b) b
        x.sentTo.foldl (fun b r => b.sendData e g.r x r) b

/-- Start whatever has been waiting for a slot, oldest first. -/
def Block.startAll (b : Block) (e : Env) : Block :=
  (b.fabric.colls.map (·.1)).foldl (fun b id => b.tryStart e id true) b

/-! ### Ending (R405, R411, R412) -/

/-- A collective leaves the table: its slot is free and its sequence finished; the next one may start. -/
def Block.dropColl (b : Block) (e : Env) (id : Nat) (x : Coll) : Block :=
  let b := { b with fabric := { b.fabric with
    colls := tdel b.fabric.colls id
    groups := if x.begun then tmod b.fabric.groups x.entry fun g => { g with finished := g.finished ++ [x.sq] } else b.fabric.groups } }
  b.countColls.startAll e

/-- ABORT to every other member (R412); a collective that had not begun takes its sequence number for it. -/
def Block.sendAbort (b : Block) (e : Env) (x : Coll) : Block :=
  match tget b.fabric.groups x.entry with
  | none => b
  | some g =>
    let sq := if x.begun then x.sq else g.nextSeq
    let g' := { g with nextSeq := (sq + 1) % 2 ^ 32, finished := g.finished ++ [sq], credits := g.credits.filter fun c => c.1 ≠ sq }
    let b := if x.begun then b else { b with fabric := { b.fabric with groups := tput b.fabric.groups x.entry g' } }
    g.r.peers.foldl (fun b d => b.sendFerry e 2 d g.r.key sq g.r.myRank) b

/-- A FERRY command lets its borrowed berth go; after the last one the berth is scrubbed (R410; log 20). -/
def Block.ferryFree (b : Block) (e : Env) (c : Nat) : Block :=
  match tget b.quay.cmds c with
  | none => b
  | some x =>
    let b := (b.modCmd c fun x => { x with units := [] }).unholdCmd c .ferry
    x.units.foldl (fun b n =>
      if b.quay.cmds.any fun y => y.2.units.contains n then b
      else if b.bstate n = bsCollective then b.startScrub e n else b) b

/-- The streams of a collective leave it (R198). -/
def Block.leaveColl (b : Block) (e : Env) (x : Coll) : Block :=
  x.places.foldl (fun b (_, n, _, _) =>
    if b.bstate n = bsCollective then
      (b.setBstate e n bsRunning).modStream n fun s => { s with wait := match s.wait with | some .coll => none | w => w }
    else b) b

/-- A collective leaves this block without a result (R411, R412): it tells the members unless it timed out or was told. -/
def Block.endColl (b : Block) (e : Env) (id st : Nat) (x : Coll) (tell : Bool) : Block :=
  let b := if tell then b.sendAbort e x else b
  let b := b.dropColl e id x
  let b := if st = stAborted then b.bump F.FY_STAT_ABORTS else if st = stCollTimeout then b.bump F.FY_STAT_TIMEOUTS else b
  if x.fromBerth then b.leaveColl e x else b

/-- A collective ends with a failure on this block: the command takes the status. -/
def Block.collFailed (b : Block) (e : Env) (id st : Nat) (tell : Bool) : Block :=
  match tget b.fabric.colls id with
  | none => b
  | some x =>
    let b := b.endColl e id st x tell
    if x.fromBerth then b.failWith e x.job st none ukBlock 0 0 0
    else ((b.endCmd x.job st 0).faultEvent e x.job st ukBlock 0 0 0).ferryFree e x.job

/-- The collective of a command. -/
def Block.collOf (b : Block) (c : Nat) : Option Nat := (b.fabric.colls.find? fun x => x.2.job = c).map (·.1)

/-! ### Receiving (R405, R413) -/

/-- The group entry with a key. -/
def Block.groupByKey (b : Block) (key : Nat) : Option (Nat × Group) := b.fabric.groups.find? fun g => g.2.r.key = key

/-- A message of a collective in flight arrives: its timer restarts (R411), the lateness of a peer's first message is recorded when positive (R413). -/
def Block.heardFrom (b : Block) (e : Env) (id src : Nat) (g : GroupRec) : Block :=
  match tget b.fabric.colls id with
  | none => b
  | some x =>
    let us := (e.now - x.started) / 1000
    let b := b.modColl id fun x => { x with timer := e.now, heard := if x.heard.contains src then x.heard else x.heard ++ [src] }
    if x.heard.contains src || us = 0 then b
    else match g.members[src]? with
      | some (blk, _) => { b with fabric := { b.fabric with late := tupd b.fabric.late blk (0, 0) fun m => (max m.1 us, us) } }
      | none => b

/-- The collective in flight with a key and a sequence number. -/
def Block.findColl (b : Block) (entry sq : Nat) : Option (Nat × Coll) :=
  b.fabric.colls.find? fun x => x.2.begun && x.2.entry = entry && x.2.sq = sq

/-! ### Results (R406, R407) -/

/-- Everything has been received and sent: a BARRIER has every member's start, the others every contribution they need. -/
def Coll.whole (x : Coll) (g : GroupRec) : Bool :=
  x.begun && (if x.op = 5 then g.peerRanks.all fun r => x.credits.contains r
    else (x.needs g).all (fun r => x.complete.contains r) && (x.feeds g).all fun r => x.sentTo.contains r)

/-- The bytes of the result (R406); `d` is the draw SWITCH mode's open order takes its value from. -/
def Block.resultBytes (b : Block) (x : Coll) (g : GroupRec) (d : Nat) : List Byte :=
  let own := b.ownBytes x
  let n := g.members.length
  let cs := (List.range n).map fun r => if r = g.myRank then own else x.bytesFrom r
  let l := own.length
  let red := if n = 1 then own else if x.mode = 2 then freeBytesOf d l else orderedSum x.fmt cs l
  match x.op with
  | 0 => red
  | 1 => (red.drop (g.myRank * l / n)).take ((g.myRank + 1) * l / n - g.myRank * l / n)
  | 2 => cs.flatten
  | 3 => cs.getD (x.rootRank g) []
  | 4 => cs.flatMap fun c => (c.drop (g.myRank * (l / n))).take (l / n)
  | _ => []

/-- Tile k of the mask, index t, of the result; none where two contributions do not combine. -/
def Block.resultTile (b : Block) (x : Coll) (g : GroupRec) (k t : Nat) : Option Tile :=
  let part (r : Nat) : Option Tile := if r = g.myRank then b.ownTile x t else x.tileFrom r k
  if x.op = 3 then part (x.rootRank g) else Tile.joinAll ((List.range g.members.length).map part)

/-- A tile whose contents are indeterminate, from a draw on: entries, anchor, status and scale words (R198). -/
def freeTile (d : Nat) : Tile :=
  let w (i : Nat) : Nat := (Config.freeWord (d * 2 ^ 16 + i)).toNat
  let t : Tile := ⟨[], BitVec.ofNat 10 (w 0), w 1 % 2 ^ 32, w 1 / 2 ^ 32 % 2 = 1, w 1 / 2 ^ 33 % 2 = 1, w 1 / 2 ^ 34 % 2 = 1, w 1 / 2 ^ 35 % 2 = 1,
    BitVec.ofNat 32 (w 2), BitVec.ofNat 32 (w 2 / 2 ^ 32), []⟩
  (List.range 4096).foldl (fun t i => t.put i (BitVec.ofNat 160 (w (3 * i + 3) + 2 ^ 64 * w (3 * i + 4) + 2 ^ 128 * w (3 * i + 5)))) t

/-- After a timeout the named tiles and the destination bytes of every stream are indeterminate (R198, R411): free values. The destination of a FERRY command lies outside the block. -/
def Block.loseResult (b : Block) (x : Coll) (bytes : Nat) : Block :=
  let (d, b) := b.draw
  if x.tiles then
    (tilesOf x.mask).foldl (fun b t => x.places.foldl (fun b (_, n, _, _) =>
      b.modRegs n fun r => r.setTile t (freeTile (2 ^ 64 + d * 256 + 16 * n + t))) b) b
  else x.places.foldl (fun b (_, n, _, dst) => b.store n dst (freeBytesOf (2 ^ 64 + d * 16 + n) bytes)) b

/-- Write the result into every stream (R406). -/
def Block.giveResult (b : Block) (x : Coll) (g : GroupRec) : Block :=
  if x.op = 5 then b
  else if x.tiles then
    (List.zipIdx (tilesOf x.mask)).foldl (fun b (t, k) =>
      match b.resultTile x g k t with
      | none => b
      | some y => x.places.foldl (fun b (_, n, _, _) => b.modRegs n fun r => r.setTile t y) b) b
  else
    let (d, b) := b.draw
    let r := b.resultBytes x g d
    x.places.foldl (fun b (_, n, _, dst) => b.store n dst r) b

end Sys2Proof.Machine
end

