-- ==== Sys2Proof/Machine/ManagerOps.lean ====
section
/-! DEFINITION. Manager commands (R25, R329, R427, R428, R455, R466, R505, R507): who may give one, how it replies, how its end is reported. -/

namespace Sys2Proof.Machine

open Sys2Proof

/-- The session has management rights, and the key they rest on (R425, R455). -/
def Block.mgrKey (b : Block) (m : Mgr) : Option (List Byte) :=
  match tget b.harbour.sessions m.session with
  | some s => if s.stage = 4 then s.key else none
  | none => none

/-- The session's rights are those of a ROM root key: only the range 0x05xx and the lease commands (R455). -/
def Block.romOnly (b : Block) (m : Mgr) : Bool := ((tget b.harbour.sessions m.session).map (·.rom)).getD false

/-- The session's key holds the lease (R427). -/
def Block.holdsLease (b : Block) (e : Env) (m : Mgr) : Bool :=
  match b.mgrKey m, b.leaseNow e with
  | some k, some l => l.key = k
  | _, _ => false

/-- A command may be executed: rights for its range, and the lease, which LEASE_ACQUIRE alone does without (R427, R455). -/
def Block.mayCommand (b : Block) (e : Env) (m : Mgr) (op : Nat) : Bool :=
  (b.mgrKey m).isSome && (!b.romOnly m || decide (op / 256 = 5 ∨ (0x0201 ≤ op ∧ op ≤ 0x0203))) && (op = 0x0201 || b.holdsLease e m)

/-- A manager command arrives: while the Harbourmaster is in reset nothing takes it; without authority it replies DENIED; else it acts. -/
def Block.manager (b : Block) (e : Env) (m : Mgr) (op : Nat) (f : Block → Block) : Block :=
  if b.harbour.down then b
  else if !b.mayCommand e m op then b.reply m op rcDenied
  else f b

/-- A command that goes on running is entered (R329, R466): what it touches, partition p as p, slice s as 16 + s. -/
def Block.startMgr (b : Block) (e : Env) (m : Mgr) (op : Nat) (touches : List Nat) (todo : Nat) : Block :=
  { b with harbour := { b.harbour with running := b.harbour.running ++ [⟨m, op, touches, e.now, false, todo⟩] } }

/-- A command that went on running ends: its reply goes to the session if it is still open, or to an event (R428); after TIMEOUT its end is a notice, or an event where no notice is written (R507, R514). -/
def Block.endMgr (b : Block) (e : Env) (m : Mgr) (op ret : Nat) (data : List Nat := []) : Block :=
  let r := b.harbour.running.find? fun x => x.m = m && x.opcode = op
  let b := { b with harbour := { b.harbour with running := b.harbour.running.filter fun x => ¬ (x.m = m ∧ x.opcode = op) } }
  match r with
  | some x =>
    if x.late then
      let c := b.notice e op m.seq ret data
      if c.rd F.MB_NOTIFY_PROD = b.rd F.MB_NOTIFY_PROD then c.event e { code := 0x1008, kind := ukHarbour, idx := 0, data := [op, m.seq, ret] } else c
    else if (tget b.harbour.sessions m.session).isSome then b.reply m op ret data
    else b.event e { code := 0x1008, kind := ukHarbour, idx := 0, data := [op, m.seq, ret] }
  | none => b.reply m op ret data

/-- A command of the range 0x01xx in progress touches a partition or slice (R329). -/
def Block.touched (b : Block) (ts : List Nat) : Bool :=
  b.harbour.running.any fun x => x.opcode / 256 = 1 && x.touches.any fun t => ts.contains t

/-- A command of the range 0x01xx is in progress. -/
def Block.inProgress (b : Block) : Bool := b.harbour.running.any fun x => x.opcode / 256 = 1

/-- A command of the range 0x01xx (R329): BUSY while one in progress touches the same partition or slice; else, while one is in progress or others wait before it, it waits. -/
def Block.partCommand (b : Block) (e : Env) (m : Mgr) (op : Nat) (touches : List Nat) (c : Instr) (f : Block → Block) : Block :=
  let mine := b.harbour.inTurn
  { b with harbour := { b.harbour with inTurn := false } }.manager e m op fun b =>
    if b.touched touches then b.reply m op rcBusy
    else if b.inProgress || (!mine && !b.harbour.deferred.isEmpty) then { b with harbour := { b.harbour with deferred := b.harbour.deferred ++ [c] } }
    else f b

/-- The command whose turn has come: none is in progress (R329). -/
def Block.turn (b : Block) : Option (Instr × Block) :=
  match b.harbour.deferred with
  | c :: cs => if b.inProgress || b.harbour.down then none else some (c, { b with harbour := { b.harbour with deferred := cs, inTurn := true } })
  | [] => none

/-! ### Mailbox ends (R501 to R503) -/

/-- End A of a channel is the host: S0, and an N channel whose DIR is 0. -/
def Block.hostIsA (b : Block) (ch : Nat) : Bool := ch = 0 || (2 ≤ ch && b.rd F.MB_CFG_DIR ch = 0)

/-- End B of a channel is the host: an N channel whose DIR is 1. -/
def Block.hostIsB (b : Block) (ch : Nat) : Bool := 2 ≤ ch && b.rd F.MB_CFG_DIR ch = 1

/-- The general core at a channel's core end: the target of source 2c. -/
def Block.boxCore (b : Block) (ch : Nat) : Nat := b.rd F.BL_TARGET_TARGET (2 * ch)

/-- Notify an end: the host by the channel's vector, another by Bell source 2c or 2c + 1. -/
def Block.tellEnd (b : Block) (ch : Nat) (a : Bool) : Block :=
  if (if a then b.hostIsA ch else b.hostIsB ch) then
    if b.rd F.MB_CFG_VEC_EN ch = 1 then b.msix (b.rd F.MB_CFG_VECTOR ch) else b
  else b.raise (2 * ch + if a then 1 else 0)

/-- SEQ of the frame in a channel's buffer (R504). -/
def Block.boxSeq (b : Block) (ch : Nat) : Nat := ofLeBytes ((((tget b.boxes ch).map (·.buf)).getD []).drop 4 |>.take 4)

/-- End B replies: MB_ACK holds the code and the length, the channel is REPLIED, end A is told (R502). -/
def Block.boxReply (b : Block) (ch ret len : Nat) : Block :=
  let b := (((b.wr F.MB_ACK_RETCODE ch ret).wr F.MB_ACK_LENGTH ch len).wr F.MB_ACK_SEQ ch (b.boxSeq ch)).wr F.MB_STATE_STATE ch 3
  b.tellEnd ch true

/-- End B of some channels is reset: those that are TAKEN are answered with TIMEOUT (R503). -/
def Block.boxReset (b : Block) (ok : Nat → Bool) : Block :=
  (List.range 8).foldl (fun b ch => if ok ch && b.rd F.MB_STATE_STATE ch = 2 then b.boxReply ch rcTimeout 0 else b) b

/-- General core g is end B of a channel. -/
def Block.coreIsB (b : Block) (g ch : Nat) : Bool := (ch = 1 || (2 ≤ ch && b.rd F.MB_CFG_DIR ch = 0)) && b.boxCore ch = g

/-- A partition exists (BW_PART_p). -/
def Block.partExists (b : Block) (p : Nat) : Bool := decide (p < 16) && b.rd F.BW_PART_VALID p = 1

/-- A slice exists. -/
def Block.sliceExists (b : Block) (sl : Nat) : Bool := thas b.quay.slices sl

/-- Service levels of GLB_SERVICE. -/
def lvClosed : Nat := 0
def lvReduced : Nat := 1
def lvFull : Nat := 2
def lvDegraded : Nat := 3

/-- The service level. -/
def Block.level (b : Block) : Nat := b.rd F.GLB_SERVICE_LEVEL

/-- A unit fails (R482): it is listed, and FULL becomes DEGRADED. -/
def Block.failUnit (b : Block) (e : Env) (u : OpenUnit) : Block :=
  let b := { b with harbour := { b.harbour with failed := if b.harbour.failed.contains u then b.harbour.failed else b.harbour.failed ++ [u] } }
  if b.level = lvFull then b.setLevel e lvDegraded else b

/-- A failed unit returns (R482): with none left failed, DEGRADED becomes FULL. -/
def Block.unitBack (b : Block) (e : Env) (u : OpenUnit) : Block :=
  let b := { b with harbour := { b.harbour with failed := b.harbour.failed.filter (· ≠ u) } }
  if b.level = lvDegraded && b.harbour.failed.isEmpty && !b.harbour.checkerFailed then b.setLevel e lvFull else b

end Sys2Proof.Machine
end

