-- ==== Sys2Proof/Machine/YieldOps.lean ====
section
/-! DEFINITION. Yields and the quiesce of a berth (R131, R144, R145, R148, R149, R200, R340, R344). -/

namespace Sys2Proof.Machine

open Sys2Proof

/-- The byte a transfer resumes from after a save (R145): the lowest byte whose read has not been answered or whose piece has not been written; writes already issued land by themselves. An ATOMIC that waits for its answer is issued again after the restore, as a read is, since its old value is part of the berth store it writes: R216 and R145 do not say what becomes of it, and at the receiver it can act twice (DESIGN CHOICE, log 118). -/
def Block.resumeAt (b : Block) (n k : Nat) (t : Xfer) : Nat :=
  let mem := (b.ports.out.map (·.2) ++ b.ports.lanes.flatMap fun x => x.2.map (·.req)).filterMap fun r => match r.who with
    | .engine n' k' s off => if n' = n ∧ k' = k ∧ s = t.serial ∧ ¬ r.write then some off else none
    | _ => none
  let host := b.host.reads.filterMap fun x => match x.2 with
    | .transfer n' k' s off _ => if n' = n ∧ k' = k ∧ s = t.serial then some off else none
    | _ => none
  let fab := b.fabric.reqs.filterMap fun x =>
    if x.2.b = n ∧ x.2.e = k ∧ x.2.serial = t.serial ∧ x.2.gone = none ∧ x.2.op ≠ 1 ∧ x.2.op ≠ 3 then some x.2.off else none
  let slots := b.hold.chans.flatMap fun x => (x.2.waiting ++ x.2.sensing).filterMap fun q => match q.xfer with
    | some (n', k', s, lin) => if n' = n ∧ k' = k ∧ s = t.serial then some lin else none
    | none => none
  (mem ++ host ++ fab ++ slots ++ t.staged.map (·.1)).foldl min t.issued

/-- The store as its accesses see it: remapped lines with what their spare storage holds (R157). -/
def Block.fullStore (b : Block) (n : Nat) : List Host.Cell :=
  (b.remaps n).foldl (fun m (line, i) =>
    let l := tgetD (b.berth n).spare i []
    memWrite m (64 * line) (l ++ List.replicate (64 - l.length) 0)) (b.berth n).regs.store

/-- Give a berth its registers and store contents; remapped lines go to their spare storage (R157). -/
def Block.fillRegs (b : Block) (n : Nat) (r : Regs) : Block :=
  let rm := b.remaps n
  b.modBerth n fun x => { x with
    regs := r
    spare := rm.map fun (line, i) => (i, (List.range 64).map fun k => memGet r.store (64 * line + k)) }

/-- Products that a save meets (R131, R145): one that has not ended may be stopped at a reduction index that is a multiple of 32, below its length; its tile then holds the exact partial sum. Whether it still runs, and where it stops, is a free value (log 93). -/
def Block.stopProducts (b : Block) (e : Env) (n : Nat) (r : Regs) (ps : List Product) : (Regs × List Product) × Block :=
  let rd := b.loadByte n (b.remaps n)
  ps.foldl (fun ((r, l), b) p =>
    let (d, b) := b.draw
    let v := Config.freeNat d
    let steps := (p.k - 1) / 32 - p.next / 32
    if e.now < p.endBy ∧ v % 2 = 1 ∧ 0 < steps then
      let at_ := 32 * (p.next / 32 + 1 + v / 2 % steps)
      let t := p.base.mulAddFrom (p.qa.operand p.fa rd) (p.qb.operand p.fb rd) p.next (at_ - p.next)
      ((r.setTile p.tile { t with badEntries := (r.tile p.tile).badEntries }, l ++ [{ p with base := t, next := at_ }]), b)
    else ((r, l), b)) ((r, []), b)

/-- What a stream that left its tiles in the middle of products goes on with after its restore (R131, R150): the remaining steps from the resume index, with the same anchor and scale word and no pre-pass. -/
def Block.resumeProducts (b : Block) (n : Nat) (ps : List Product) : Block :=
  let rd := b.loadByte n (b.remaps n)
  ps.foldl (fun b p => b.modRegs n fun r =>
    r.setTile p.tile ((r.tile p.tile).mulAddFrom (p.qa.operand p.fa rd) (p.qb.operand p.fb rd) p.next (p.k - p.next))) b

/-- The berth has quiesced, and its save begins (R144, R145, R200): the stream, its registers and its engine state as far as the mask names them. -/
def Block.quiesceNow (b : Block) (e : Env) (n : Nat) (mask : Option (Nat × Nat × Nat)) (pc : Nat) : Block :=
  let x := b.berth n
  match x.stream with
  | none => b
  | some s =>
    -- engines record their resume offsets: reads not answered are issued again
    let back (k : Nat) (t : Xfer) : Xfer := let r := b.resumeAt n k t; { t with issued := r, done := r, staged := [], halted := none, haltedOut := none }
    let ((regs, ps), b) : (Regs × List Product) × Block := match mask with
      | none => b.stopProducts e n { x.regs with store := b.fullStore n } s.products
      | some (tiles, vregs, regions) =>
        -- anchors, status and scale words are always saved; entries only of live tiles (R144)
        let tl := x.regs.tiles.map fun (i, t) => (i, if tiles.testBit i then t else { t with q := [], badEntries := [] })
        (({ x.regs with
            tiles := tl
            v := x.regs.v.filter fun y => vregs.testBit (y.1 / 256)
            store := (b.fullStore n).filter fun y => regions.testBit (y.1 / 0x50000) }, []), b)
    let s := { s with pc := pc, products := ps, wait := match s.wait with | some (.icache _) => none | w => w }
    let sv : Saved := ⟨s, regs, x.me0.map (back 0), x.me1.map (back 1), mask, false, x.sampled⟩
    ((b.orphan n).setBstate e n bsSaving).modBerth n fun x => { x with
        saving := some sv, sampled := [], yield := none, entry := none, quiescing := none, reserveWait := true }

/-- An engine stands (R145): it has nothing to send before its stop, or what it would send next fails. -/
def Block.stands (b : Block) (n k : Nat) : Bool := match b.want n k with | .idle | .fail _ => true | _ => false

/-- A quiescing berth whose engines stand, or that has quiesced for 2 µs, begins its save (R145). -/
def Block.settleQuiesce (b : Block) (e : Env) (n : Nat) : Block :=
  match (b.berth n).quiescing with
  | none => b
  | some q => if (b.stands n 0 && b.stands n 1) || decide (q.since + 2000 ≤ e.now) then b.quiesceNow e n q.mask q.pc else b

/-- Quiesce a berth for a save (R145, R146, R200): issue stops, each engine runs to the next 4 KiB boundary of its run; then the save begins. -/
def Block.quiesce (b : Block) (e : Env) (n : Nat) (mask : Option (Nat × Nat × Nat)) (pc : Nat) : Block :=
  let x := b.berth n
  match x.stream with
  | none => b
  | some s =>
    let stop (k : Nat) : List (Nat × Nat × Nat × Nat) := match x.eng k with
      | t :: _ => let (a, o) := b.stopsAt n k s.job t; [(k, t.serial, a, o)]
      | [] => []
    ((b.setBstate e n bsSaving).modBerth n fun x => { x with entry := none, quiescing := some ⟨mask, pc, e.now, stop 0 ++ stop 1⟩ }).settleQuiesce e n

/-- The regions, as a mask, that berth-store ranges touch (R199). -/
def regionMask (rs : List (Nat × Nat)) : Nat :=
  maskOf (rs.flatMap fun (a, l) => if l = 0 then [] else (List.range 64).filter fun g =>
    decide (a < (g + 1) * 0x50000 ∧ g * 0x50000 < a + l))

/-- The transfer reads or writes the berth store: mv.hold with MODE 1 fills a buffer and leaves the store alone (R191). -/
def Move.usesStore : Move → Bool
  | .hold _ _ dram => dram.isNone
  | .buffer .. | .window .. => true
  | .copy .. | .digest .. => false

/-- The berth-store ranges of a transfer, row by row; none where it leaves the store alone. -/
def Xfer.ranges (t : Xfer) : List (Nat × Nat) :=
  if t.mv.usesStore then (List.range t.rows).map fun r => (t.store + r * t.storeStride, t.rowLen) else []

/-- The image stamp of a stream is stale: its moor-distance entry cannot be read (R148). -/
def Block.imageStale (b : Block) (s : Stream) : Bool :=
  match tget b.quay.cmds s.job with
  | none => false
  | some c => c.heads.any fun h => ((b.head h).map fun v => v.image && v.stale && decide (v.va = s.prog)).getD false

/-- What the sequencer does with a pending yield once its moor entry has been read, or without one (R148): in fwait or at bar, without a table, or beyond the horizon it saves at once; else it runs to the next moor; in coll it yields later. -/
def Block.decideYield (b : Block) (e : Env) (n : Nat) (entry : Option MoorEntry) : Block :=
  match (b.berth n).stream with
  | none => b
  | some s =>
    let b := b.modBerth n fun x => { x with entry := none }
    match s.wait with
    | some .coll => b
    | some (.counter _ _) => b.quiesce e n none s.pc
    | some (.fence _ _) => b.quiesce e n none s.pc
    | some .bar => b.quiesce e n none s.pc
    | _ =>
      match entry.bind fun m => b.moorTime e n m with
      | some t =>
        if t ≤ ((b.rd F.BT_CTL_HORIZON n * 1000 : Nat) : Rat) ∧ b.rd F.BT_CTL_HORIZON n ≠ 0 then b.setBstate e n bsToMoor
        else b.quiesce e n none s.pc
      | none => b.quiesce e n none s.pc

/-- A stream waits where a yield needs no moor entry: in fwait, at bar or in coll (R148, R149). -/
def Stream.waits (s : Stream) : Bool :=
  match s.wait with
  | some .coll | some (.counter _ _) | some (.fence _ _) | some .bar => true
  | _ => false

/-- A yield request reaches a berth (R148, R149): merged with one under way; where the sequencer runs and its program has a moor-distance table, it reads the entry of its region through the fetch unit, and decides with it. -/
def Block.askYield (b : Block) (e : Env) (n : Nat) : Block :=
  let x := b.berth n
  match x.stream with
  | none => b
  | some s =>
    if x.saving.isSome ∨ x.yield.isSome ∨ s.stopped then b
    else
      let b := b.modBerth n fun x => { x with yield := some e.now }
      if b.bstate n = bsRestoring then b
      else match (if s.waits || b.imageStale s || b.rd F.BT_CTL_HORIZON n = 0 then none else moorEntry s.moors s.pc) with
        | some (i, m) => b.modBerth n fun x => { x with entry := some ((s.moorOff + 32 * i) / 128, m) }
        | none => b.decideYield e n none

/-- The read of a moor entry has ended (R148): with the entry, or without one where it could not be read. -/
def Block.entryRead (b : Block) (e : Env) (n line : Nat) (ok : Bool) : Block :=
  match (b.berth n).entry with
  | some (l, m) => if l = line then b.decideYield e n (if ok then some m else none) else b
  | none => b

/-- What a berth's sequencer and engines do by themselves while it yields (R145, R148): an entry whose image stamp has gone stale is not read, and a berth that has quiesced begins its save. -/
def Block.yieldTick (b : Block) (e : Env) (n : Nat) : Block :=
  let b := match (b.berth n).entry, (b.berth n).stream with
    | some (l, _), some s => if b.imageStale s && !(b.ports.out.any fun x => x.2.who = Sender.moorEntry n l) then b.entryRead e n l false else b
    | _, _ => b
  b.settleQuiesce e n

/-- A job is yielded, all its streams together (R340), when a save slot is free for each; otherwise the trigger is counted (R344). -/
def Block.yieldJob (b : Block) (e : Env) (c : Nat) (drain : Bool) : Block :=
  let ns := b.jobBerths c
  let need := (ns.filter fun n => (b.berth n).yield.isNone && (b.berth n).saving.isNone).length
  let promised := (b.berths.filter fun x => x.2.yield.isSome && x.2.saving.isNone).length
  if need = 0 then b
  else if (b.freeSlots e).length < need + promised then (if drain then b else b.bump F.BW_SAVE_NO_SLOT)
  else ns.foldl (fun b n => b.askYield e n) b


end Sys2Proof.Machine
end

