-- ==== Sys2Proof/Machine/SaveOps.lean ====
section
/-! DEFINITION. The firmware reserve of the memory ports (R345) and the traffic of saves and restores (R144 to R146, R344): the bytes a save writes, unit by unit, and where each unit lies. -/

namespace Sys2Proof.Machine

open Sys2Proof

/-! ### The firmware reserve (R345) -/

/-- Granules of a port's stripe of the save pool. -/
def Block.poolCount (b : Block) (e : Env) : Nat := cdiv (11 * b.cfgInt 0x0302 64) (max 1 e.memPorts.length)

/-- Granules of a port's firmware reserve (R345). -/
def Block.reserveCount (b : Block) (e : Env) (p : Nat) : Nat :=
  b.poolCount e + (if p < 2 then 44 else 0) + (if p = 0 then 32 else 0)

/-- The first granule above a port's data area. -/
def Block.dataTop (b : Block) (p : Nat) : Nat := p * 2 ^ 15 + 7 * b.portCap p / 8 / 2 ^ 21

/-- The first reserved granule of a port (R345). -/
def Block.reserveFirst (b : Block) (e : Env) (p : Nat) : Nat := b.dataTop p - min (b.reserveCount e p) (7 * b.portCap p / 8 / 2 ^ 21)

/-! ### What a save moves (R144, R344) -/

/-- The ranges of a save slot that a stream's save writes and its restore reads, rising: offset and length. The items that are always saved fill the first 5,888 bytes; of the others a save at a moor moves the live ones. -/
def Saved.areas (v : Saved) : List (Nat × Nat) :=
  let pick (n : Nat) (live : Nat × Nat × Nat → Nat) : List Nat := match v.mask with
    | none => List.range n
    | some m => bitsOf n (live m)
  (0, 5888) :: ((pick 32 fun m => m.2.1).map fun i => (0x2000 + 1024 * i, 1024)) ++
    ((pick 16 fun m => m.1).map fun i => (0x10000 + 81920 * i, 81920)) ++
    ((pick 64 fun m => m.2.2).map fun i => (0x200000 + 0x50000 * i, 0x50000))

/-- 128-byte units a save moves. -/
def Saved.units (v : Saved) : Nat := v.areas.foldl (fun n a => n + a.2 / 128) 0

/-- The offset of unit i of some areas. -/
def unitAt : List (Nat × Nat) → Nat → Option Nat
  | [], _ => none
  | (a, l) :: as, i => if i < l / 128 then some (a + 128 * i) else unitAt as (i - l / 128)

/-- Byte j of a little-endian number. -/
def byteOf (v j : Nat) : Byte := BitVec.ofNat 8 (v / 2 ^ (8 * j))

/-- The byte of a saved stream at an offset of its slot (R344). The header begins with the kind; the layout of its other fields, of the sequencer state and of the engine state is not stated: those bytes are open values of what is saved (log 91). -/
def Saved.byteAt (v : Saved) (off : Nat) : Byte :=
  let r := v.regs
  if 0x200000 ≤ off then memGet r.store (off - 0x200000)
  else if 0x10000 ≤ off then
    let o := off - 0x10000
    byteOf ((r.tile (o / 81920)).get (o % 81920 / 20)).toNat (o % 81920 % 20)
  else if 0x2000 ≤ off then
    let o := off - 0x2000
    byteOf (r.lane (o / 1024) (o % 1024 / 4)).toNat (o % 4)
  else if 0x580 ≤ off ∧ off < 0x700 then
    let o := off - 0x580
    let t := r.tile (o / 24)
    byteOf (match o % 24 / 8 with
      | 0 => (t.anchor.signExtend 64).toNat
      | 1 => t.status.toNat
      | _ => t.scaleWord.toNat) (o % 8)
  else if 0x480 ≤ off ∧ off < 0x580 then byteOf (r.counter ((off - 0x480) / 8)).toNat (off % 8)
  else if 0x380 ≤ off ∧ off < 0x480 then byteOf (r.preg ((off - 0x380) / 32)).toNat ((off - 0x380) % 32)
  else if 0x180 ≤ off ∧ off < 0x380 then byteOf (r.sreg ((off - 0x180) / 8)).toNat (off % 8)
  else if off = 0 then (Config.slotByte v 0 &&& 0xFC) ||| (if v.mask.isSome then 1 else 0)
  else Config.slotByte v off

/-- Where a unit of a save slot lies (R146, R344, R345): the pool striped over every connected port, the early slots over M0 and M1, unit by unit (log 91). -/
def Block.saveAddr (b : Block) (e : Env) (slot off : Nat) : Nat :=
  let at_ (ps : List Nat) (base g : Nat) : Nat :=
    let p := ps.getD (g % max 1 ps.length) 0
    (b.reserveFirst e p + base) * 2 ^ 21 + g / max 1 ps.length * 128
  if slot < 256 then at_ e.memPorts 0 (slot * 180224 + off / 128)
  else at_ [0, 1] (b.poolCount e) ((slot - 256) * 180224 + off / 128)

/-- The save or restore a berth has under way: its slot, the stream, whether it is written. -/
def Block.saveRun (b : Block) (n : Nat) : Option (Nat × Saved × Bool) :=
  let x := b.berth n
  if x.reserveWait then none
  else match x.slot with
    | none => none
    | some k => match x.saving with
      | some v => some (k, v, true)
      | none => if b.bstate n = bsRestoring then (tget b.slots k).map fun v => (k, v, false) else none

/-- Every unit of a berth's save or restore has been answered. -/
def Block.saveOver (b : Block) (n : Nat) (v : Saved) : Bool := decide (v.units ≤ (b.berth n).moved)

/-- The next request of a berth's save or restore (R145, R212, R318): 128 bytes under context 0; it carries no data yet. -/
def Block.saveWant (b : Block) (e : Env) (n : Nat) : Option MemReq :=
  (b.saveRun n).bind fun (k, v, wr) =>
    (unitAt v.areas (b.berth n).moving).map fun off => memReq (.save n off) (b.saveAddr e k off) 128 wr 0 0 0

/-! ### Clearing (R344, R347, R351) -/

/-- 128-byte units of a slot or of granules to clear. -/
def Wipe.units (w : Wipe) : Nat := if w.slot.isSome then 180224 else w.count * 16384

/-- Where a unit to clear lies. -/
def Block.wipeAddr (b : Block) (e : Env) (w : Wipe) (i : Nat) : Nat :=
  match w.slot with
  | some k => b.saveAddr e k (128 * i)
  | none => w.first * 2 ^ 21 + 128 * i

/-- The next write of zeros, under context 0 (R318, R344, R347): the first slot or granules that wait for it. -/
def Block.wipeWant (b : Block) (e : Env) : Option MemReq :=
  match b.ports.wipes with
  | w :: _ => if w.sent < w.units then some { memReq .wipe (b.wipeAddr e w w.sent) 128 true 0 0 0 with data := List.replicate 128 0 } else none
  | [] => none

/-- One of those writes has been answered; with the last one the slot is free again, the granules can be assigned again. -/
def Block.wiped (b : Block) : Block :=
  match b.ports.wipes with
  | w :: ws => { b with ports := { b.ports with wipes := if w.units ≤ w.done + 1 then ws else { w with done := w.done + 1 } :: ws } }
  | [] => b

/-- A granule that still has to be cleared (R347). -/
def Block.granuleDirty (b : Block) (g : Nat) : Bool := b.ports.wipes.any fun w => w.slot.isNone && decide (w.first ≤ g ∧ g < w.first + w.count)

end Sys2Proof.Machine
end

