-- ==== Sys2Proof/Machine/SlotCode.lean ====
section
/-! DEFINITION. What a Hold slot holds (R359 to R362, R379): the Reed–Solomon code and its decoder, the integrity tag, the 4,352 bytes of a slot, the Merkle tree of an object; access to stacks, channels and objects; units and remap entries. -/

namespace Sys2Proof.Machine

open Sys2Proof

/-! ### GF(2^12) and the code (R360) -/

/-- A field element times α, a root of x^12 + x^6 + x^4 + x + 1. -/
def gfDouble (v : Nat) : Nat := if 2048 ≤ v then (2 * v - 4096) ^^^ 0x53 else 2 * v

/-- The product of two field elements: the low n bits of the first, least significant first. -/
def gfMulBits : (n a c : Nat) → Nat
  | 0, _, _ => 0
  | n + 1, a, c => (if a % 2 = 1 then c else 0) ^^^ gfMulBits n (a / 2) (gfDouble c)

/-- The product of two field elements. -/
def gfMul (a c : Nat) : Nat := gfMulBits 12 a c

/-- α to a power. -/
def gfPow : Nat → Nat
  | 0 => 1
  | n + 1 => gfDouble (gfPow n)

/-- A polynomial, highest degree first, times x − r. -/
def timesRoot (g : List Nat) (r : Nat) : List Nat := List.zipWith (· ^^^ ·) (g ++ [0]) (0 :: g.map (gfMul r))

/-- The generator g(x) = ∏ (x − α^i) for i from 1 to n, highest degree first. -/
def rsGenerator (n : Nat) : List Nat := (List.range n).foldl (fun g i => timesRoot g (gfPow (i + 1))) [1]

/-- One information symbol enters the division by the generator, whose coefficients below the leading one are `g`. -/
def rsFeed (g st : List Nat) (s : Nat) : List Nat :=
  let fb := s ^^^ st.headD 0
  List.zipWith (· ^^^ ·) (st.drop 1 ++ [0]) (g.map (gfMul fb))

/-- The parity symbols of an information string, highest degree first: the remainder of the string times x^n by the generator. -/
def rsParity (n : Nat) (info : List Nat) : List Nat := info.foldl (rsFeed ((rsGenerator n).drop 1)) (List.replicate n 0)

/-- A byte string as symbols of 12 bits, least significant bit first, padded with zero bits. -/
def symbolsOf (d : List Byte) : List Nat :=
  let v := ofLeBytes d
  (List.range (cdiv (8 * d.length) 12)).map fun i => v / 2 ^ (12 * i) % 4096

/-- The 192 bytes of the parity of a slot (R359, R360): symbol i in bits [12i + 11:12i]. Which end of the string is the highest degree is log 94's choice. -/
def slotParity (info : List Byte) : List Byte := leBytes 192 ((rsParity 128 (symbolsOf info)).foldr (fun s v => s + 4096 * v) 0)

/-! ### Decoding (R361) -/

/-- The inverse of a field element: its power 4,094. -/
def gfInv (a : Nat) : Nat := ((List.range 11).foldl (fun (p, r) _ => let q := gfMul p p; (q, gfMul r q)) (a, 1)).2

/-- A polynomial's value, lowest degree first. -/
def gfEval (p : List Nat) (x : Nat) : Nat := p.foldr (fun c a => c ^^^ gfMul x a) 0

/-- The syndromes S1 to Sn of a word, highest degree first. -/
def syndromes (n : Nat) (w : List Nat) : List Nat := (List.range n).map fun i => w.foldl (fun s c => gfMul (gfPow (i + 1)) s ^^^ c) 0

/-- The sum of two polynomials, lowest degree first. -/
def gfAdd (p q : List Nat) : List Nat := (List.range (max p.length q.length)).map fun i => p.getD i 0 ^^^ q.getD i 0

/-- Coefficient n of the product of two polynomials, lowest degree first. -/
def gfConv (p q : List Nat) (n : Nat) : Nat := (List.range (n + 1)).foldl (fun a i => a ^^^ gfMul (p.getD i 0) (q.getD (n - i) 0)) 0

/-- The search for the shortest error locator (Berlekamp and Massey): the locator, the one before its last change, its length, the steps since and the discrepancy then. -/
structure Locator where
  c : List Nat
  old : List Nat
  len : Nat
  gap : Nat
  disc : Nat
  deriving DecidableEq, Repr

/-- One syndrome enters the search. -/
def Locator.feed (sy : List Nat) (x : Locator) (n : Nat) : Locator :=
  let d := gfConv x.c sy n
  if d = 0 then { x with gap := x.gap + 1 }
  else
    let k := gfMul d (gfInv x.disc)
    let c := gfAdd x.c (List.replicate x.gap 0 ++ x.old.map (gfMul k))
    if 2 * x.len ≤ n then ⟨c, x.c, n + 1 - x.len, 1, d⟩ else { x with c := c, gap := x.gap + 1 }

/-- The error locator of some syndromes. -/
def locator (sy : List Nat) : Locator := (List.range sy.length).foldl (Locator.feed sy) ⟨[1], [1], 0, 1, 1⟩

/-- A word with the errors its locator names set right: at each place, from the highest degree down, the inverse of the place is tried as a root. The answer is the word, the symbols changed and the locator's length. -/
def rsFix (sy w : List Nat) : List Nat × Nat × Nat :=
  let x := locator sy
  let omega := (List.range sy.length).map fun n => gfConv x.c sy n
  let deriv := (List.zipIdx (x.c.drop 1)).map fun (c, i) => if i % 2 = 0 then c else 0
  let (_, fixed, n) := w.foldl (fun (p, out, n) s =>
    if gfEval x.c p = 0 then (gfDouble p, (s ^^^ gfMul (gfEval omega p) (gfInv (gfEval deriv p))) :: out, n + 1)
    else (gfDouble p, s :: out, n)) (gfPow (4095 - (w.length - 1) % 4095), [], 0)
  (fixed.reverse, n, x.len)

/-- Decode a word, highest degree first, at strength t (R361): up to t symbols are corrected from S1 to S2t, and every syndrome must then be zero. The answer is the codeword and the symbols corrected. -/
def rsCorrect (t : Nat) (w : List Nat) : Option (List Nat × Nat) :=
  let sy := syndromes 128 w
  if sy.all (· = 0) then some (w, 0)
  else
    let (fixed, n, len) := rsFix (sy.take (2 * t)) w
    if n = len ∧ n ≤ t ∧ (syndromes 128 fixed).all (· = 0) then some (fixed, n) else none

/-! ### The slot (R359) -/

/-- KIND values of R359. -/
def kindObject : Nat := 0
def kindTable : Nat := 1
def kindDump : Nat := 2
def kindPad : Nat := 3
def kindNotice : Nat := 4

/-- Bytes 0 to 55 of a slot's metadata. -/
def metaHead (obj slot serial kind hours : Nat) : List Byte :=
  leBytes 4 obj ++ leBytes 4 slot ++ leBytes 8 serial ++ leBytes 1 kind ++ leBytes 7 0 ++ leBytes 4 hours ++ leBytes 28 0

/-- The 4,096 data bytes of a slot, zeros behind what is given. -/
def slotData (d : List Byte) : List Byte := d.take 4096 ++ List.replicate (4096 - d.length) 0

/-- The 4,352 bytes a slot is programmed with: data, parity, metadata with its TAG. -/
def slotImage (obj slot serial kind hours : Nat) (d : List Byte) : List Byte :=
  let d := slotData d
  let head := metaHead obj slot serial kind hours
  let meta_ := head ++ leBytes 8 (crc64 (d ++ head))
  d ++ slotParity (d ++ meta_) ++ meta_

/-- A decoded slot: its data and the fields of its metadata (R359). -/
structure SlotWord where
  data : List Byte
  obj : Nat
  slot : Nat
  serial : Nat
  kind : Nat
  hours : Nat
  tag : Nat
  deriving DecidableEq, Repr

/-- A field of a byte string. -/
def field (d : List Byte) (off len : Nat) : Nat := ofLeBytes ((d.drop off).take len)

/-- The slot an information string holds: data, then metadata. -/
def slotWord (d : List Byte) : SlotWord :=
  ⟨d.take 4096, field d 4096 4, field d 4100 4, field d 4104 8, field d 4112 1, field d 4120 4, field d 4152 8⟩

/-- Decode the 4,352 bytes of a sense at strength t (R361): the codeword, and the TAG over data and metadata. -/
def decodeAt (t : Nat) (sense : List Byte) : Option (SlotWord × Nat) :=
  let info := symbolsOf (sense.take 4096 ++ (sense.drop 4288).take 64)
  match rsCorrect t (info ++ symbolsOf ((sense.drop 4096).take 192)) with
  | none => none
  | some (w, n) =>
    let d := leBytes 4160 ((w.take info.length).foldr (fun s v => s + 4096 * v) 0)
    if crc64 (d.take 4152) = field d 4152 8 then some (slotWord d, n) else none

/-! ### The Merkle tree (R379) -/

/-- The next level: pairs hashed with 0x01 before them, an odd last node passes up. -/
def merkleLevel : List (BitVec 384) → List (BitVec 384)
  | l :: r :: rest => Config.sha384 (1 :: (leBytes 48 l.toNat ++ leBytes 48 r.toNat)) :: merkleLevel rest
  | l => l

/-- The root over some nodes: as many levels as `fuel` allows. -/
def merkleRoot : (fuel : Nat) → List (BitVec 384) → BitVec 384
  | 0, l => l.headD 0
  | n + 1, l => match l with
    | [] => 0
    | [x] => x
    | _ => merkleRoot n (merkleLevel l)

/-- All nodes below the root, level by level from the leaves on (R379). -/
def merkleNodes : (fuel : Nat) → List (BitVec 384) → List (BitVec 384)
  | 0, _ => []
  | n + 1, l => match l with
    | [] => []
    | [_] => []
    | _ => l ++ merkleNodes n (merkleLevel l)

/-! ### Access -/

/-- Bytes laid over others at an offset. -/
def mergeAt (unit : List Byte) (o : Nat) (d : List Byte) : List Byte := unit.take o ++ d ++ unit.drop (o + d.length)

/-- A Hold stack's working state. -/
def Block.stack (b : Block) (h : Nat) : Stack := tgetD b.hold.stks h Stack.reset

/-- Change a stack. -/
def Block.modStack (b : Block) (h : Nat) (f : Stack → Stack) : Block :=
  { b with hold := { b.hold with stks := tput b.hold.stks h (f (b.stack h)) } }

/-- Change a channel. -/
def Block.modChan (b : Block) (ch : Nat) (f : Channel → Channel) : Block :=
  { b with hold := { b.hold with chans := tput b.hold.chans ch (f (b.chan ch)) } }

/-- Change an object. -/
def Block.modObj (b : Block) (idx : Nat) (f : HoldObj → HoldObj) : Block :=
  { b with hold := { b.hold with objs := tmod b.hold.objs idx f } }

/-- The powered hours of a stack (R359): those it had, and those of this run. -/
def Block.hoursOf (b : Block) (e : Env) (h : Nat) : Nat := (b.stack h).hours + e.now / 3600000000000

/-- The image of the next slot a stack programs, under its next SERIAL (R359). -/
def Block.nextImage (b : Block) (e : Env) (h obj slot kind : Nat) (d : List Byte) : List Byte × Block :=
  (slotImage obj slot (b.stack h).serial kind (b.hoursOf e h) d, b.modStack h fun x => { x with serial := x.serial + 1 })

/-- The leaf of a slot whose data the controller holds whole (R222, R379). -/
def leafOf (d : List Byte) : BitVec 384 := Config.sha384 (slotData d)

/-- A slot of an object has been written, with its leaf: at home, or in an overflow unit (R366). -/
def HoldObj.wrote (o : HoldObj) (j : Nat) (leaf : BitVec 384) (moved : Option Nat) : HoldObj :=
  { o with
    moved := match moved with | some a => tput o.moved j a | none => tdel o.moved j
    written := if o.written.contains j then o.written else o.written ++ [j]
    leaves := tput o.leaves j leaf }

/-- The images of a page of the controller's own: four slots of one KIND over some bytes (R359). -/
def Block.controlPage (b : Block) (e : Env) (h kind : Nat) (d : List Byte) : List (List Byte) × Block :=
  (List.range 4).foldl (fun (is, b) i =>
    let (x, b) := b.nextImage e h 0xFFFFFFFF i kind ((d.drop (4096 * i)).take 4096)
    (is ++ [x], b)) ([], b)

/-- The images of n pads, the slots a page is filled with (R359, R364). -/
def Block.padImages (e : Env) (h : Nat) : (n : Nat) → Block → List (List Byte) × Block
  | 0, b => ([], b)
  | n + 1, b =>
    let (i, b) := b.nextImage e h 0xFFFFFFFF 0 kindPad []
    let (is, b) := Block.padImages e h n b
    (i :: is, b)

/-- A command joins those of a channel; alone, it is issued at once (R59). -/
def Channel.addOp (c : Channel) (now : Nat) (o : HoldOp) : Channel :=
  { c with ops := c.ops ++ [o], opAt := if c.ops.isEmpty then now else c.opAt }

/-- A page is to be programmed: its unit is not blank from then on (R367). -/
def Channel.addPage (c : Channel) (now unit page : Nat) (slots : List Nat) (images : List (List Byte)) (why : ProgFor) : Channel :=
  { c with used := if c.used.contains unit then c.used else c.used ++ [unit] }.addOp now (.program unit page slots images why)

/-- A new store may start (R71, R84): no supply loss impends, and no warm reset waits for STORE_BUSY to fall. -/
def Block.mayStore (b : Block) : Bool := !b.hold.powerWarn && !b.power.wrstWaiting

/-- HD_MERGE.PENDING and BUSY of a stack follow its merge buffer and its stores, those of a dump and of the epoch on H0 among them (R367, R383). -/
def Block.syncMerge (b : Block) (h : Nat) : Block :=
  let bit (f : Fld) (on : Bool) (b : Block) : Block :=
    let v := b.rd f
    b.wr f 0 (if on then v ||| 2 ^ h else if v.testBit h then v - 2 ^ h else v)
  let x := b.stack h
  let other := h = 0 && (b.hold.dumpWriting || (b.chan 0).ops.any fun o => match o with | .table .. => true | _ => false)
  bit F.HD_MERGE_BUSY (x.flushing.isSome || other) (bit F.HD_MERGE_PENDING (!x.merge.isEmpty) b)

/-! ### Units (R358, R366, R374) -/

/-- The unit of a channel pair a slot address lies in. -/
def unitOf (a : Nat) : Nat := a / 4096

/-- A unit's erase count. -/
def Channel.erased (c : Channel) (u : Nat) : Nat := tgetD c.erases u 0

/-- The least element of a list by a key, the first on ties. -/
def leastBy (key : Nat → Nat) : List Nat → Option Nat
  | [] => none
  | x :: xs => match leastBy key xs with
    | some y => if key y < key x then some y else some x
    | none => some x

/-- The free units of a channel that are blank, as is checked before a unit is programmed (R367). -/
def Channel.blank (c : Channel) : List Nat := c.free.filter fun u => !c.used.contains u

/-- Take the free unit of a channel with the lowest erase count (R374). -/
def Block.freshUnit (b : Block) (ch : Nat) : Option (Nat × Block) :=
  (leastBy (b.chan ch).erased (b.chan ch).blank).map fun u =>
    (u, b.modChan ch fun c => { c with free := c.free.filter (· ≠ u) })

/-- The next page of a channel's overflow unit, of a fresh unit where none is open or it is full (R366): its unit and first slot. -/
def Block.overPage (b : Block) (ch : Nat) : Option ((Nat × Nat) × Block) :=
  let c := b.chan ch
  match c.overUnits.head?.filter fun _ => decide (c.overAt < 4096) with
  | some u => some ((u, c.overAt), b.modChan ch fun c => { c with overAt := c.overAt + 4 })
  | none => (b.freshUnit ch).map fun (u, b) => ((u, 0), b.modChan ch fun c => { c with overUnits := u :: c.overUnits, overAt := 4 })

/-- A change names a slot of an object. -/
def Commit.names (handle slot : Nat) : Commit → Bool
  | .slot hd j _ _ => hd = handle && j = slot
  | .remap .. => false
  | .unit .. => false

/-- The changes a command of a channel brings once it has ended. -/
def HoldOp.brings : HoldOp → List Commit
  | .program _ _ _ _ (.copy cs) => cs
  | .rewrite _ _ _ _ _ cs => cs
  | _ => []

/-- The changes of a stack that no journal page has made visible yet. -/
def Block.pendingOf (b : Block) (h : Nat) : List Commit :=
  (b.stack h).commits ++ (b.stack h).committing ++ [2 * h, 2 * h + 1].flatMap fun ch => (b.chan ch).ops.flatMap (·.brings)

/-- A slot of an object has a copy, committed or on its way to its commit (R366). -/
def Block.slotUsed (b : Block) (h handle slot : Nat) : Bool :=
  (((b.holdObj handle).map fun o => o.written.contains slot).getD false) || (b.pendingOf h).any (Commit.names handle slot)

/-! ### Remap entries (R365) -/

/-- The valid remap entries of a stack. -/
def Block.remapsOf (b : Block) (h : Nat) : List Nat := (List.range 32).filter fun i => b.rd F.HD_REMAP_VALID (32 * h + i) = 1

/-- The address a sense of a slot goes to (R365, R382). -/
def Block.physOf (b : Block) (h addr : Nat) : Nat :=
  match (b.remapsOf h).find? fun i => b.rd F.HD_REMAP_FROM (32 * h + i) = addr with
  | some i => b.rd F.HD_REMAP_TO (32 * h + i)
  | none => addr

/-- The plane a slot of a channel lies in. -/
def Block.planeOf (b : Block) (ch addr : Nat) : Nat := Config.planeOf ch (unitOf addr % 32768) % max 1 (b.chan ch).planes

end Sys2Proof.Machine
end

