-- ==== Sys2Proof/Machine/PortOps.lean ====
section
/-! DEFINITION. The memory ports: how requests enter and are answered (R318, R432 to R436), Breakwater's lanes, buckets and choice (R333 to R336), the requests of Ferry, the Lighter ports and the Hold controller. -/

namespace Sys2Proof.Machine

open Sys2Proof

/-! ### Inbound requests (R224, R398) -/

/-- A closing window with nothing in flight is gone, and the WINDOW_CLOSE that asked replies (R414). -/
def Block.closeIfIdle (b : Block) (e : Env) (w : Nat) : Block :=
  match tget b.fabric.windows w with
  | some x =>
    match x.closing with
    | some who =>
      if x.inflight = 0 then
        let b := { b with fabric := { b.fabric with windows := tdel b.fabric.windows w } }
        match who with
        | some m => b.endMgr e m 0x0402 rcDone
        | none => b
      else b
    | none => b
  | none => b

/-- A window's request finishes (R414): the window counts it out. -/
def Block.windowDone (b : Block) (e : Env) (w : Nat) : Block :=
  { b with fabric := { b.fabric with windows := tmod b.fabric.windows w fun x => { x with inflight := x.inflight - 1 } } }.closeIfIdle e w

/-- An inbound request has been carried out: its response goes back, and its window counts it out. -/
def Block.serveDone (b : Block) (e : Env) (id : Nat) : Block :=
  match tget b.fabric.serving id with
  | none => b
  | some x =>
    let b := { b with fabric := { b.fabric with serving := tdel b.fabric.serving id } }
    let d := if x.st = 0 ∧ x.m.op = 1 then x.pieces.flatMap (·.2) else []
    let b := if x.st = 0 then b else b.bump F.FE_STAT_REFUSED
    (b.sendLink e x.l (respond x.m x.st (if x.st = 0 ∧ x.m.op = 3 then x.old else 0) d)).windowDone e x.m.window

/-- One piece of an inbound request is answered; with all of them its response goes back, a read's data through the OTHER bucket of the owner's partition at the link (R333). -/
def Block.servePiece (b : Block) (e : Env) (id off st : Nat) (d : List Byte) : Block :=
  match tget b.fabric.serving id with
  | none => b
  | some x =>
    let x := { x with st := if x.st = 0 then st else x.st, pieces := stage x.pieces off d }
    let b := { b with fabric := { b.fabric with serving := tput b.fabric.serving id x } }
    if x.pieces.foldl (fun n p => n + p.2.length) 0 < x.total then b
    else if x.st = 0 ∧ x.m.op = 1 then
      let p := match tget b.fabric.windows x.m.window with | some w => b.slicePart w.r.owner | none => 16
      b.toLane p { memReq (.window id 0) 0 x.total true 0 0 0 with port := 24 + x.l, sub := 0 }
    else b.serveDone e id

/-! ### Lighter requests (R63, R64) -/

/-- One piece of a Lighter request is answered: with all of them, the port sends its beats of 64 bytes, or the failure met. -/
def Block.lighterPiece (b : Block) (n id off st : Nat) (d : List Byte) : Block :=
  let x := tgetD b.lighters n Lighter.reset
  match x.gather.find? fun g => g.q.id = id with
  | none => b
  | some g =>
    let g := { g with st := if g.st = 0 then st else g.st, pieces := stage g.pieces off d }
    let rest := x.gather.filter fun g => g.q.id ≠ id
    if g.q.len ≤ g.pieces.foldl (fun m p => m + p.2.length) 0 then
      let whole := g.pieces.flatMap (·.2)
      let beats := if g.st ≠ 0 ∨ g.q.write then [(id, g.st, [])]
        else (List.range (g.q.len / 64)).map fun i => (id, stOK, (whole.drop (64 * i)).take 64)
      { b with lighters := tput b.lighters n { x with gather := rest, rsp := x.rsp ++ beats } }
    else { b with lighters := tput b.lighters n { x with gather := rest ++ [g] } }

/-- Place of a request among failures detected in one cycle (R206): the lowest berth first, on one berth the transfer queued first, an instruction fetch after the transfers already queued; then all others. -/
def MemReq.failRank (r : MemReq) : Nat :=
  match r.who with
  | .engine n _ serial _ => n * 2 ^ 40 + serial
  | .fetchUnit n _ | .moorEntry n _ => n * 2 ^ 40 + 2 ^ 40 - 1
  | _ => 2 ^ 45

/-- A write that a transfer sent before a save has failed (R145, R216, R225): so has the transfer, on the berth its stream has been restored to, or in the save or slot that holds it. -/
def Block.strayFailed (b : Block) (e : Env) (of_ : Nat × Nat) (k serial st kind idx loc : Nat) : Block :=
  let is (s : Stream) : Bool := s.job = of_.1 && s.rank = of_.2
  match b.berths.find? fun x => (x.2.stream.map is) == some true && !x.2.leaving && b.bstate x.1 ≠ bsRestoring with
  | some (n, _) => b.failXfer e n k serial st kind idx loc 0
  | none =>
    let held := (b.slots.map (·.2) ++ b.berths.filterMap fun x => x.2.saving).filter fun v => is v.stream
    let buf := ((held.flatMap fun v => v.me0 ++ v.me1).find? fun t => t.serial = serial).bind Xfer.buf
    let alive : Bool := match tget b.quay.cmds of_.1 with | some x => x.ph = .running || x.ph = .saved | none => false
    let sl := ((tget b.quay.cmds of_.1).map (·.slice)).getD 0
    let b := if st = stUncorrectable ∨ st = stIntegrity then b.dataAlarm e st kind idx loc sl else b
    if alive then b.failWith e of_.1 st buf kind idx loc 0 else b

/-- A requester learns that its request failed. -/
def Block.memFailed (b : Block) (e : Env) (r : MemReq) (st kind idx loc : Nat) : Block :=
  match r.who with
  | .engine n k serial _ => b.failXfer e n k serial st kind idx loc 0
  | .fetchUnit n _ =>
    match (b.berth n).stream with
    | some s =>
      let b := if st = stUncorrectable ∨ st = stIntegrity then b.dataAlarm e st kind idx loc s.slice else b
      b.failWith e s.job st none kind idx loc 0
    | none => b
  | .bar2 =>
    -- Completer Abort, an alarm for the port, a report through AER (R468)
    let b := if st = stUncorrectable ∨ st = stIntegrity then (b.dataAlarm e st kind idx loc r.slice).send (.aer loc) else b
    b.send (.bar2 (if st = stProtection then 1 else 2) [])
  | .window id off =>
    let b := if st = stUncorrectable ∨ st = stIntegrity then b.dataAlarm e st kind idx loc r.slice else b
    b.servePiece e id off st (List.replicate r.len 0)
  | .lighter n id off =>
    let b := if st = stUncorrectable ∨ st = stIntegrity then b.dataAlarm e st kind idx loc r.slice else b
    let b := match (tgetD b.lighters n Lighter.reset).gather.find? fun g => g.q.id = id with
      | some g => if st = stUncorrectable ∨ st = stIntegrity then b.faultEvent e g.c st kind idx loc 0 else b
      | none => b
    b.lighterPiece n id off st (List.replicate r.len 0)
  | .ferry c _ =>
    let b := if st = stUncorrectable ∨ st = stIntegrity then b.dataAlarm e st kind idx loc r.slice else b
    match b.collOf c with
    | some id => b.collFailed e id st true
    | none => b.modCmd c fun x => if x.status = 0 then { x with status := st } else x
  | .lists id =>
    let b := if st = stUncorrectable ∨ st = stIntegrity then b.dataAlarm e st kind idx loc r.slice else b
    { b with pilot := { b.pilot with reading := tmod b.pilot.reading id fun x => { x with left := x.left - 1, bad := true } } }
  | .posted (.mirror f _ _ _) =>
    let b := if st = stUncorrectable ∨ st = stIntegrity then b.dataAlarm e st kind idx loc r.slice else b
    { b with quay := { b.quay with fences := tmod b.quay.fences f fun x => { x with mirror := none } } }
  -- a failed read of a partial line is an alarm for the port, whoever wrote (R58, R468)
  | .record _ | .posted _ => if st = stUncorrectable ∨ st = stIntegrity then b.dataAlarm e st kind idx loc r.slice else b
  | .save n _ =>
    match (b.saveRun n).map fun x => x.2.1.stream with
    | some s =>
      let b := if st = stUncorrectable ∨ st = stIntegrity then b.dataAlarm e st kind idx loc s.slice else b
      b.failWith e s.job st none kind idx loc 0
    | none => b
  | .wipe => (if st = stUncorrectable ∨ st = stIntegrity then b.dataAlarm e st kind idx loc r.slice else b).wiped
  -- uncorrectable data in a moor entry is data that no context consumed: the yield goes on without a table (R148, R468)
  | .moorEntry n line =>
    (if st = stUncorrectable ∨ st = stIntegrity then b.dataAlarm e st kind idx loc r.slice else b).entryRead e n line false
  | .stray _ k (some o) serial =>
    if r.write then b.strayFailed e o k serial st kind idx loc
    else if st = stUncorrectable ∨ st = stIntegrity then b.dataAlarm e st kind idx loc r.slice else b
  | .firmware | .manifest | .stray _ _ none _ | .onLink _ => if st = stUncorrectable ∨ st = stIntegrity then b.dataAlarm e st kind idx loc r.slice else b

/-- The answer of a good read or write reaches its requester. -/
def Block.memAnswer (b : Block) (e : Env) (r : MemReq) (d : List Byte) : Block :=
  match r.who with
  | .engine n k serial off =>
    let b := if r.write then b.wrote n k serial r.len else b.gotData n k serial off r.store d
    (b.answered e n).kick e n k
  | .fetchUnit n line =>
    match (b.berth n).stream with
    | none => b
    | some s => b.modBerth n fun x =>
        let same := x.icache.filter fun l => l.2 % 128 = line % 128
        let keep := if same.length < 4 then x.icache else x.icache.filter fun l => some l ≠ same.getLast?
        { x with icache := (s.prog, line) :: keep, icacheSlice := some s.slice }
  | .bar2 => if r.write then b else b.send (.bar2 0 d)
  | .window id off => b.servePiece e id off stOK (if r.write then List.replicate r.len 0 else d)
  | .lighter n id off => b.lighterPiece n id off stOK (if r.write then List.replicate r.len 0 else d)
  | .ferry c off =>
    let b := ((tget b.quay.cmds c).map (·.units)).getD [] |>.foldl (fun b n => b.answered e n) b
    if r.write then b
    else match b.collOf c with
      | some id => (b.modColl id fun x => { x with own := stage x.own off d }).tryStart e id false
      | none => b
  | .save n _ => b.modBerth n fun x => { x with moved := x.moved + 1 }
  | .wipe => b.wiped
  | .lists id => { b with pilot := { b.pilot with reading := tmod b.pilot.reading id fun x => { x with left := x.left - 1 } } }
  | .moorEntry n line => b.entryRead e n line true
  | .stray _ k (some o) _ =>
    -- a restored transfer goes on once the writes before the save are answered (R145)
    match b.berths.find? fun x => (x.2.stream.map fun s => decide (s.job = o.1 ∧ s.rank = o.2)) == some true with
    | some (n, _) => b.kick e n k
    | none => b
  | .firmware | .manifest | .stray _ _ none _ | .record _ | .posted _ | .onLink _ => b

/-- MQ_WDATA of a unit's lines from `first` to `last` (R56, R432, R433): the ciphertext Customs makes of their plain bytes, and its MAC; a MAC of 0 is stored as 1. -/
def sealLines (gen unit first last : Nat) (plain : List Byte) : List (Nat × List Byte × Word) :=
  ((List.range 2).filter fun i => decide (first ≤ i ∧ i ≤ last)).map fun i =>
    let a := unit + 64 * i
    let c := Config.encrypt gen a ((plain.drop (64 * i)).take 64)
    let m := Config.lineMac gen a c
    (a, c, if m = 0 then 1 else m)

/-- The lines of its unit that a request touches. -/
def MemReq.lines (r : MemReq) : Nat × Nat := (r.addr % 128 / 64, (r.addr % 128 + r.len - 1) / 64)

/-- Issue a request (R56): outstanding under the lowest free tag; a write that needs no line read carries its ciphertext. -/
def Block.issueMem (b : Block) (e : Env) (r : MemReq) : Block :=
  match b.freeTag r.port r.sub with
  | none => b.toLane 16 r
  | some t =>
    let rmw := r.write && (r.rmw || decide (partialLines r.addr r.len ≠ 0))
    let unit := List.replicate (r.addr % 128) 0 ++ r.data
    let r := { r with
      rmw := rmw, since := e.now
      wdata := if r.write && !rmw then sealLines (b.keyGen r.slice r.ctx) (r.addr / 128 * 128) r.lines.1 r.lines.2 unit else [] }
    ({ b with ports := { b.ports with out := tput b.ports.out (reqKey r.port r.sub t) r, nextTag := (t + 1) % 4096 } }).inflightKey r.slice r.ctx true

/-- Enter a request at its port: isolated ports return no data (R482), the granule check refuses (R318); else it is issued, or waits behind those that arrived before it (R215). -/
def Block.enterMem (b : Block) (e : Env) (r : MemReq) : Block :=
  if b.ports.isolated.contains r.port then b.memFailed e r stUncorrectable ukPort r.port r.addr
  else if !b.granuleOk r.addr r.slice r.ctx then
    (b.bump F.CU_STAT_REFUSED).memFailed e r stProtection ukPort r.port r.addr
  else if b.queuesAt r then b.toLane 16 r
  else b.issueMem e r

/-- The oldest request that waits at a port goes on. -/
def Block.resumeMem (b : Block) (e : Env) (r : MemReq) : Block :=
  if b.ports.isolated.contains r.port then b.memFailed e r stUncorrectable ukPort r.port r.addr else b.issueMem e r

/-! ### Breakwater: lanes and buckets -/

/-- A source of requests at a port: a berth's fetch unit, an engine, a Hold sense, a save or restore, or the first of the OTHER lane. -/
inductive Src where
  | fetch (n line : Nat)
  | engine (n k : Nat)
  | sense (i : Nat)
  | save (n : Nat)
  | wipe
  | other
  deriving DecidableEq, Repr

/-- A request at the front of a lane: its partition, its lane (a berth, 16 for OTHER, 17 for the Harbourmaster's zeros), its source, the bytes it counts. -/
structure Front where
  p : Nat
  lane : Nat
  src : Src
  bytes : Nat
  deriving DecidableEq, Repr

/-- A link's request is possible: UP, IDLE or EXITING (R389, R390). -/
def Block.linkUp (b : Block) (l : Nat) : Bool := let s := b.rd F.FE_LINK_STATE l; s = 2 || s = 3 || s = 4

/-- The link a window's outstanding requests use is DOWN: new ones wait until those have been answered or have timed out (R396). -/
def Block.linkLost (b : Block) (blk win : Nat) : Bool :=
  b.fabric.reqs.any fun x => x.2.blk = blk && x.2.win = win && b.rd F.FE_LINK_STATE x.2.link = 0

/-- The link of a window's requests (R396): the one still in use by outstanding requests, else the only one up, else (d + w) mod 2. -/
def Block.linkFor (b : Block) (blk win : Nat) : Nat :=
  match b.fabric.reqs.find? fun x => x.2.blk = blk && x.2.win = win with
  | some x => x.2.link
  | none =>
    if b.linkUp 0 && !b.linkUp 1 then 0 else if b.linkUp 1 && !b.linkUp 0 then 1 else (blk + win) % 2

/-- The regulated port a want goes to and the bytes it counts there (R333). -/
def Block.wantPort (b : Block) (w : Want) : Option (Nat × Nat) :=
  match w with
  | .mem r => if b.queuesAt r then none else some (r.port, memBytes r)
  | .hostRead _ len _ _ => if 4096 ≤ b.host.reads.length then none else some (26, len)
  | .hostWrite _ _ _ _ len => some (27, len)
  | .fabric win blk op _ _ len _ _ _ _ => if b.linkLost blk win then none else some (24 + b.linkFor blk win, if op = 1 ∨ op = 3 then len else 0)
  | .holdWrite _ _ _ len => some (0x100, len)
  | _ => none

/-- The channel of a slot of an object. -/
def Block.slotChan (b : Block) (handle slot : Nat) : Option Nat :=
  match b.holdObj handle with
  | some o => o.chans[slot % max 1 o.chans.length]?
  | none => none

/-- A want's port, with a Hold write at its slot's channel. -/
def Block.portOf (b : Block) (w : Want) : Option (Nat × Nat) :=
  match w with
  | .holdWrite h s _ len => (b.slotChan h s).bind fun ch =>
      -- a narrow write that finds the merge buffer full waits for its flush (R368)
      let x := b.stack (ch / 2)
      if len < 4096 ∧ 16 ≤ x.merge.length ∧ ¬ ((x.merge.drop (x.flushing.getD 0)).any fun w => w.handle = h && w.slot = s) then none else some (8 + ch, len)
  | _ => b.wantPort w

/-- The request for a line of a stream's image (R124, R148): its address and the tags of the image stamp; none on a stale run. -/
def Block.imageLine (b : Block) (s : Stream) (line : Nat) (who : Sender) : Option MemReq :=
  (tget b.quay.cmds s.job).bind fun c =>
    match c.heads.find? fun h => ((b.head h).map fun v => v.image && decide (v.va = s.prog)).getD false with
    | none => none
    | some h => match b.runAt h (128 * line) with
      | some r => if r.stale then none else some (memReq who (r.phys + (128 * line - r.boff)) 128 false r.slice r.ctx 0)
      | none => none

/-- The line a berth's fetch unit waits for: one its cache does not hold (R124), or one of the moor-distance table for a yield (R148); none while its request is outstanding. -/
def Block.fetchLine (b : Block) (n : Nat) : Option (Nat × MemReq) :=
  let x := b.berth n
  let out (w : Sender) : Bool := (b.ports.out.any fun y => y.2.who = w) || b.ports.lanes.any fun l => l.2.any fun q => q.req.who = w
  match x.stream with
  | none => none
  | some s =>
    if s.stopped || x.leaving || x.resetting.isSome then none
    else
      let entry : Option (Nat × MemReq) := x.entry.bind fun (line, _) =>
        if out (.moorEntry n line) then none else (b.imageLine s line (.moorEntry n line)).map fun r => (line, r)
      match s.wait with
      | some (.icache line) =>
        if out (.fetchUnit n line) || x.hasLine s.prog line then entry
        else ((b.imageLine s line (.fetchUnit n line)).map fun r => (line, r)).or entry
      | _ => entry

/-- The sources of a berth's lane that want port x, the fetch unit first. -/
def Block.laneWants (b : Block) (x n : Nat) : List (Src × Nat) :=
  let fetch := match b.fetchLine n with
    | some (l, r) => if r.port = x then [(Src.fetch n l, 128)] else []
    | none => []
  let eng (k : Nat) := match b.portOf (b.want n k) with
    | some (y, bytes) => if y = x then [(Src.engine n k, bytes)] else []
    | none => []
  let sense :=
    if 8 ≤ x ∧ x ≤ 23 then
      let c := tgetD b.hold.chans (x - 8) Channel.reset
      match (List.zipIdx c.waiting).find? fun q => match q.1.xfer with | some (n', _) => n' = n | none => false with
      | some (q, i) => if c.sensing.length < 256 && !(c.sensing.any fun y => y.handle = q.handle && y.slot = q.slot) then
          [(Src.sense i, 4096)] else []
      | none => []
    else []
  let e1 := if tgetD b.ports.rr (1024 + n) 0 = 1 then eng 1 ++ eng 0 else eng 0 ++ eng 1
  fetch ++ sense ++ e1

/-- A number for a source, to remember a front that waits. -/
def Src.code : Src → Nat
  | .fetch _ _ => 0
  | .engine _ k => 1 + k
  | .sense _ => 3
  | .other => 4
  | .save _ => 5
  | .wipe => 6

/-- The fronts of every lane at a port (R335); a front that has waited stays the front. -/
def Block.fronts (b : Block) (e : Env) (x : Nat) : List Front :=
  let held := tgetD b.ports.waited x []
  let lanes := b.berths.filterMap fun (n, y) =>
    if y.stream.isNone then none
    else
      let ws := b.laneWants x n
      let w := (ws.find? fun w => held.contains (8 * n + w.1.code)).or ws.head?
      w.map fun w => ⟨b.rd F.BT_STATE_PARTITION n, n, w.1, w.2⟩
  let others := (List.range 17).filterMap fun p =>
    match tgetD b.ports.lanes (32 * p + x) [] with
    | q :: _ =>
      if (x < 8 && (if p = 16 then b.mustWait q.req else b.queuesAt q.req)) || (x = 26 && decide (4096 ≤ b.host.reads.length)) then none
      else some ⟨p, 16, Src.other, q.bytes⟩
    | [] => none
  -- saves and restores go in the preemption reserve, which no partition's regulator counts (R146, R336)
  let saves := b.berths.filterMap fun (n, _) => (b.saveWant e n).bind fun r =>
    if r.port = x && !b.queuesAt r then some ⟨16, n, Src.save n, 128⟩ else none
  let wipes := ((b.wipeWant e).toList.filter fun r => r.port = x && !b.queuesAt r).map fun _ => ⟨16, 17, Src.wipe, 128⟩
  lanes ++ others ++ saves ++ wipes

/-- A front has tokens. -/
def Block.hasTokens (b : Block) (e : Env) (x : Nat) (f : Front) : Bool :=
  let k := b.bucket e f.p x
  f.p = 16 || decide (f.bytes ≤ if f.lane = 16 then k.other else k.rate)

/-- The first of a rising list after a position, going round. -/
def nextAfter (last : Nat) (l : List Nat) : Option Nat := (l.find? fun i => decide (last < i)).or l.head?

/-- The request a port takes: round robin among partitions, then among a partition's lanes (R335). -/
def Block.pick (b : Block) (x : Nat) (fs : List Front) : Option Front :=
  let ps := (List.range 17).filter fun p => fs.any fun f => f.p = p
  match nextAfter (tgetD b.ports.rr (64 * x) 17) ps with
  | none => none
  | some p =>
    let ls := (List.range 18).filter fun l => fs.any fun f => f.p = p && f.lane = l
    match nextAfter (tgetD b.ports.rr (64 * x + 1 + p) 17) ls with
    | none => none
    | some l => fs.find? fun f => f.p = p && f.lane = l

/-- The preemption reserve is idle at a port (R336): no save or restore has a request for it; ports without a reserve always are. -/
def Block.reserveIdle (b : Block) (e : Env) (x : Nat) : Bool :=
  decide (8 ≤ x) || !(b.berths.any fun (n, _) => ((b.saveWant e n).map (·.port)) = some x)

/-- A partition may borrow at a port. -/
def Block.borrows (b : Block) (p x : Nat) : Bool := b.rd F.BW_RATE_BORROW (32 * p + x) = 1

/-- Count borrowed bytes in whole GB (R336). -/
def Block.borrow (b : Block) (x bytes : Nat) : Block :=
  let t := tgetD b.ports.borrowed x 0 + bytes
  let b := { b with ports := { b.ports with borrowed := tput b.ports.borrowed x (t % 1000000000) } }
  b.bump F.BW_PORT_BORROW_GB x (t / 1000000000)

/-! ### Entering a port -/

/-- Send a fabric request (R395, R399): outstanding under the next tag, on its window's link. -/
def Block.sendFabric (b : Block) (e : Env) (n k serial : Nat) (w : Want) (data : List Byte) : Block :=
  match w with
  | .fabric win blk op mod off len store i operand compare =>
    let l := b.linkFor blk win
    let tag := b.fabric.nextTag
    let rq : FabReq := ⟨n, k, serial, blk, win, i, len, store, op, e.now, l, none, none⟩
    let body := if op = 2 then (if mod = 2 then leBytes 8 compare.toNat ++ List.replicate 56 0 else []) else if op = 0 then [] else data
    let m : FabMsg := { op := op + 1, mod := mod, src := b.rd F.FE_ID_BLOCK_ID, dst := blk, epoch := e.epoch, status := 0, tag := tag
                        len := if op = 2 then (if mod = 2 then 1 else 0) else len / 64, window := win, offset := off
                        operand := if op = 2 then operand else 0, data := body }
    ({ b with fabric := { b.fabric with reqs := tput b.fabric.reqs tag rq, nextTag := (tag + 1) % 2 ^ 32 } }).sendLink e l m
  | _ => b

/-- Read one byte string an engine sends from the berth store, checked (R156): a copy's from the piece it staged there (R213); a digest reads nothing there. -/
def Block.readOut (b : Block) (n : Nat) (t : Xfer) (o len : Nat) : Option Nat × Block :=
  match t.mv with
  | .copy _ _ => b.eccRead n (t.stageAddr o) len
  | .digest _ _ _ => (none, b)
  | _ => let (st, _, _) := t.place o; b.eccRead n st len

/-- A narrow piece enters the merge buffer of a stack: with a held write of its slot that is in no store, or as a new one (R366, R368). -/
def Stack.takePiece (x : Stack) (now handle slot at_ job : Nat) (d : List Byte) : Stack :=
  let n := x.flushing.getD 0
  let same (m : MergeWrite) : Bool := m.handle = handle && m.slot = slot
  let add (m : MergeWrite) : MergeWrite :=
    { m with jobs := if m.jobs.contains job then m.jobs else m.jobs ++ [job], pieces := m.pieces ++ [(at_, d)] }
  let new := x.merge.drop n
  { x with merge := x.merge.take n ++ if new.any same then new.map fun m => if same m then add m else m
                                    else new ++ [⟨handle, slot, now, [job], [(at_, d)]⟩] }

/-- A slot written whole is programmed (R359, R366, R367, R377): the first copy at its home place, a later one in an overflow unit; it counts once its journal page stands. -/
def Block.programSlot (b : Block) (e : Env) (o : HoldObj) (ch handle slot : Nat) (d : List Byte) : Block :=
  let h := ch / 2
  let moved := if b.slotUsed h handle slot then b.overPage ch else none
  let (image, b) := (match moved with | some (_, b) => b | none => b).nextImage e h handle slot kindObject d
  let home := ((o.home slot).map (·.2)).getD 0
  let addr := match moved with | some ((u, i), _) => slotAddr ch u i | none => home
  b.modChan ch fun c => { c with busyAt := e.now }.addPage e.now (unitOf addr % 32768) (addr % 4096 / 4) [addr] [image]
    (.copy [.slot handle slot (leafOf d) (moved.map fun _ => addr)])

/-- The channel a stack's own pages are programmed on: the first one in service. -/
def Block.ownChan (b : Block) (h : Nat) : Nat := if (b.chan (2 * h)).out then 2 * h + 1 else 2 * h

/-- The notice page is programmed with the handle and slot of every write the merge buffer holds (R359, R370). -/
def Block.programNotice (b : Block) (e : Env) (h : Nat) : Block :=
  let (is, b) := b.controlPage e h kindNotice ((b.stack h).merge.flatMap fun w => leBytes 4 w.handle ++ leBytes 4 w.slot)
  b.modChan (b.ownChan h) fun c => c.addOp e.now (.notice is)

/-- Copies of a MOVE to a Hold object arrive at the stack (R223, R366, R368): a whole slot is programmed at its place, a narrower piece enters the merge buffer, whose notice page lists it too while the power warning lasts (R84, R370); on a READ_ONLY or failed stack the command ends unavailable (R375). -/
def Block.holdPut (b : Block) (e : Env) (n k serial handle slot at_ : Nat) (d : List Byte) : Block :=
  match b.holdObj handle, b.slotChan handle slot with
  | some o, some ch =>
    let h := ch / 2
    let st := b.rd F.HD_STACK_STATE h
    match (b.berth n).stream with
    | none => b
    | some s =>
      let first : Bool := match b.xfer n k serial with | some t => decide (t.done = 0) | none => true
      if o.sealed || (first && !(o.grants.any fun g => g.1 = s.slice && g.2.2)) then b.failXfer e n k serial stProtection ukStack h slot handle
      else if st ≠ 2 then b.failXfer e n k serial stUnavailable ukStack h slot handle
      else
        let b := b.modXfer n k serial fun t => { t with staged := [], done := t.done + d.length }
        if d.length = 4096 then
          b.programSlot e o ch handle slot d
        else
          let b := (b.modStack h fun x => x.takePiece e.now handle slot at_ s.job d).wr F.HD_MERGE_PENDING 0 (b.rd F.HD_MERGE_PENDING ||| 2 ^ h)
          if b.hold.powerWarn then b.programNotice e h else b
  | _, _ => b.failXfer e n k serial stProtection ukBlock 0 slot handle

/-- The bytes a MOVE's copy writes into the buffer of its digest are kept for it (R223). -/
def Block.noteDigest (b : Block) (n : Nat) (t : Xfer) (o : Nat) (d : List Byte) : Block :=
  match t.mv, (b.berth n).stream with
  | .copy c none, some s =>
    match (tget b.quay.cmds s.job).map fun x => x.body with
    | some (Body.move m) => if m.digest && c.dstBuf = m.digBuf then b.modStream n fun s => { s with digMem := memWrite s.digMem (c.dstOff + o) d } else b
    | _ => b
  | _, _ => b

/-- An engine's request enters its port. -/
def Block.enterEngine (b : Block) (e : Env) (n k : Nat) : Block :=
  match (b.berth n).eng k with
  | [] => b
  | t :: _ =>
    let w := b.want n k
    let b := { b with ports := { b.ports with rr := tput b.ports.rr (1024 + n) (1 - k) } }
    let go (o len : Nat) (wr : Bool) (f : List Byte → Block → Block) : Block :=
      match (if wr then b.readOut n t o len else (none, b)) with
      | (some line, b) => b.failXfer e n k t.serial stUncorrectable ukBerth n line 0
      | (none, b) =>
        let d := if wr then b.outData n t o len else []
        let b := if wr then b.noteDigest n t o d else b
        let b := b.modXfer n k t.serial fun t => t.sent wr len
        f d (if wr then b.tallyB n (b.sliceOn n) 0x008 k (cdiv len 64) else b)
    let b := match w with
      | .mem r =>
        let o := match r.who with | .engine _ _ _ o => o | _ => 0
        go o r.len r.write fun d b => b.enterMem e { r with data := d }
      | .hostRead phys len store off =>
        go off len false fun _ b =>
          let tag := b.host.nextTag
          let sl := (b.sliceOn n).getD 0
          ({ b with host := { b.host with reads := tput b.host.reads tag (.transfer n k t.serial off store), nextTag := (tag + 1) % 16384 } }).send
            (.read tag phys len (b.pasidOf sl))
      | .hostWrite phys sl va off len =>
        go off len true fun d b => (b.hostWrite phys sl va d).wrote n k t.serial len
      | .fabric win blk op mod off len store i operand compare =>
        go i len (op = 1 || op = 3) fun d b =>
          b.sendFabric e n k t.serial (.fabric win blk op mod off len store i operand compare) d
      | .holdWrite handle slot at_ len =>
        match b.readOut n t t.done len with
        | (some line, b) => b.failXfer e n k t.serial stUncorrectable ukBerth n line 0
        | (none, b) => b.holdPut e n k t.serial handle slot at_ (b.outData n t t.done len)
      | _ => b
    b.kick e n k

/-- The next unit of a berth's save or restore enters its port (R145, R212): a write carries the bytes of R344. -/
def Block.enterSave (b : Block) (e : Env) (n : Nat) : Block :=
  match b.saveRun n, b.saveWant e n with
  | some (_, v, _), some r =>
    let off := match r.who with | .save _ off => off | _ => 0
    let data := if r.write then (List.range 128).map fun i => v.byteAt (off + i) else []
    (b.modBerth n fun x => { x with moving := x.moving + 1 }).enterMem e { r with data := data }
  | _, _ => b

/-- The next write of zeros enters its port; it goes to granules of no slice, or of the firmware (R347; log 113). -/
def Block.enterWipe (b : Block) (e : Env) : Block :=
  match b.wipeWant e, b.ports.wipes with
  | some r, w :: ws => ({ b with ports := { b.ports with wipes := { w with sent := w.sent + 1 } :: ws } }).resumeMem e r
  | _, _ => b

/-- The front of a lane enters its port. -/
def Block.enter (b : Block) (e : Env) (x : Nat) (f : Front) : Block :=
  match f.src with
  | .fetch n _ => match b.fetchLine n with
    | some (_, r) => b.enterMem e r
    | none => b
  | .engine n k => b.enterEngine e n k
  | .save n => b.enterSave e n
  | .wipe => b.enterWipe e
  | .sense i =>
    match (b.chan (x - 8)).waiting[i]? with
    | none => b
    | some q =>
      let ch := x - 8
      let addr := b.physOf (ch / 2) ((((b.holdObj q.handle).bind fun o => o.addrOf q.slot).map (·.2)).getD 0)
      -- a slot whose plane is still sensing for the Dredger is late (R371)
      let late := (b.chan ch).dredging.any fun a => b.planeOf ch (b.physOf (ch / 2) a) = b.planeOf ch addr
      let b := b.modChan ch fun c => { c with
        waiting := c.waiting.eraseIdx i, sensing := c.sensing ++ [{ q with addr := addr }], busyAt := e.now
        senseAt := if c.sensing.isEmpty then e.now else c.senseAt }
      if late then b.bump F.HD_SCRUB_LAP_DREDGE_WAIT (ch / 2) else b
  | .other =>
    match tgetD b.ports.lanes (32 * f.p + x) [] with
    | q :: l =>
      let b := { b with ports := { b.ports with lanes := tput b.ports.lanes (32 * f.p + x) l } }
      if x < 8 then
        match q.req.who with
        | .record qn => (match tget b.quay.queues qn with
          | some y => match y.held with
            | h :: _ => Block.releaseHeld e qn y.held.length (b.writeHeld e qn h fun b => b.enterMem e { q.req with data := (y.nextRecord h).bytes })
            | [] => b
          | none => b)
        | _ => if f.p = 16 then b.resumeMem e q.req else b.enterMem e q.req
      else if x = 24 ∨ x = 25 then (match q.req.who with | .window id _ => b.serveDone e id | .onLink m => b.sendLink e (x - 24) m | _ => b)
      else if x = 26 then
        let tag := b.host.nextTag
        ({ b with host := { b.host with reads := tput b.host.reads tag (.asked q.req), nextTag := (tag + 1) % 16384 } }).send
          (.read tag q.req.addr q.req.len (b.pasidOf q.req.slice))
      else if x = 27 then
        match q.req.who with
        | .record qn => (match tget b.quay.queues qn with
          | some y => match y.held with
            | h :: _ =>
              let put (b : Block) : Block := (b.send (.record qn (y.cqTail % 2 ^ y.m) q.req.addr q.req.slice (y.nextRecord h))).dirty q.req.slice q.req.store 32
              Block.releaseHeld e qn y.held.length (b.writeHeld e qn h put)
            | [] => b
          | none => b)
        | .posted m => (b.send m).dirty q.req.slice q.req.store q.req.len
        | _ => (b.hostWrite q.req.addr q.req.slice q.req.store q.req.data).memAnswer e q.req []
      else b
    | [] => b

/-- One port cycle at port x (R335, R336): a front with tokens enters and is debited; else a borrowing partition's front enters undebited; every front that finds too few tokens is counted once in WAITS. -/
def Block.portCycle (b : Block) (e : Env) (x : Nat) : Block :=
  let fs := b.fronts e x
  let rich := fs.filter fun f => b.hasTokens e x f
  let poor := fs.filter fun f => !b.hasTokens e x f
  let key (f : Front) : Nat := if f.lane = 16 then 1024 + f.p else 8 * f.lane + f.src.code
  let old := (tgetD b.ports.waited x []).filter fun i => fs.any fun f => key f = i
  let fresh := poor.filter fun f => !old.contains (key f)
  let b := (b.bump F.BW_PORT_WAITS x fresh.length).tallyG none 0x10B x fresh.length
  let waited := old ++ fresh.map key
  let take (f : Front) (b : Block) : Block :=
    let b := { b with ports := { b.ports with
        waited := tput b.ports.waited x (waited.filter fun i => i ≠ key f)
        rr := tput (tput b.ports.rr (64 * x) f.p) (64 * x + 1 + f.p) f.lane } }
    ((b.windowBytes x f.p f.bytes)).enter e x f
  match b.pick x rich with
  | some f =>
    let k := b.bucket e f.p x
    let k := if f.lane = 16 then { k with other := k.other - f.bytes } else { k with rate := k.rate - f.bytes }
    take f (if f.p = 16 then b else b.setBucket f.p x k)
  | none =>
    if b.reserveIdle e x then
      match b.pick x (poor.filter fun f => b.borrows f.p x) with
      | some f => take f (b.borrow x f.bytes)
      | none => { b with ports := { b.ports with waited := tput b.ports.waited x waited } }
    else { b with ports := { b.ports with waited := tput b.ports.waited x waited } }

/-! ### Requests of Ferry, the Lighter ports and the Hold controller: the OTHER lanes (R334) -/

/-- Send a range of a command's buffer to the OTHER lanes, request by request (R211, R214): `data` for a write; a CLASS 1 run only where `hostOk` (R212); the answer is the status of the first piece that cannot be sent, if any, or `none` with the offset of a stale run when the range must wait. -/
def Block.laneRange (b : Block) (c p k off : Nat) (wr hostOk : Bool) (who : Nat → Sender) (data : List Byte) : (fuel len done : Nat) → Option (Option Nat) × Block
  | 0, _, _ => (none, b)
  | fuel + 1, len, done =>
    if len ≤ done then (none, b)
    else
      match b.farAt c k (off + done) (len - done) wr none with
      | .dram phys sl cx l =>
        let r : MemReq := { memReq (who done) phys l wr sl cx 0 with data := (data.drop done).take l }
        Block.laneRange (b.toLane p r) c p k off wr hostOk who data fuel len (done + l)
      | .host phys sl va l =>
        if !hostOk then (some (some stProtection), b) else
        let r : MemReq := { memReq (who done) phys l wr sl 0 va with port := if wr then 27 else 26, sub := 0, data := (data.drop done).take l }
        Block.laneRange (b.toLane p r) c p k off wr hostOk who data fuel len (done + l)
      | .wait => (some none, b)
      | .fail st => (some (some st), b)

/-- A whole range can be reached now: no run of it is stale. -/
def Block.rangeFresh (b : Block) (c k : Nat) : Bool := ((b.bufHead c k).bind b.head).map (fun h => !h.stale) == some true

/-- No run that bytes of a buffer lie in is stale. -/
def Block.spanFresh (b : Block) (job k off len : Nat) : Bool :=
  match (b.bufHead job k).bind b.head with
  | none => true
  | some v => (stampRuns b.pilot.stamps v.runs v.first).all fun y => match y.2 with
    | .run _ o l _ _ st _ _ _ _ _ _ => !st || decide (o + l ≤ off ∨ off + len ≤ o)
    | _ => true

/-- Slots of a MODE 1 transfer that have been read go to their buffer's ports (R220); those bound for a stale run wait (R228). -/
def Block.flushStaged (b : Block) (e : Env) (n k : Nat) : Block :=
  match (b.berth n).stream, (b.berth n).eng k with
  | some s, t :: _ =>
    match t.mv with
    | .hold _ _ (some d) =>
      let ok (x : Nat × List Byte) : Bool := b.spanFresh s.job d (t.place x.1).1 x.2.length
      let out := t.staged.filter ok
      if out.isEmpty || t.failed.isSome then b
      else
        let b := b.modXfer n k t.serial fun t => { t with staged := t.staged.filter fun x => !ok x }
        out.foldl (fun b (o, data) =>
          match b.laneRange s.job (b.rd F.BT_STATE_PARTITION n) d (t.place o).1 true false (fun i => .engine n k t.serial (o + i)) data
              (data.length + 1) data.length 0 with
          | (some (some st), b) => b.failXfer e n k t.serial st ukBerth n 0 0
          | (_, b) => b) b
    | _ => b
  | _, _ => b

/-! ### Answers of a memory port -/

/-- A 64-byte line as Customs reads it (R432, R433): none on a MAC mismatch; a stored MAC of zero reads as zeros. -/
def readLine (gen a : Nat) (cipher : List Byte) (mac : Word) : Option (List Byte) :=
  if mac = 0 then some (List.replicate 64 0)
  else if (let m := Config.lineMac gen a cipher; if m = 0 then 1 else m) = mac then some (Config.decrypt gen a cipher)
  else none

/-- The lines of its unit whose bytes a request needs (R215): all it touches, but a line that a plain write covers whole. -/
def MemReq.reads (r : MemReq) (combine : Bool) (i : Nat) : Bool :=
  let a := r.addr / 128 * 128 + 64 * i
  decide (r.lines.1 ≤ i ∧ i ≤ r.lines.2) && (!r.write || combine || decide (a < r.addr ∨ r.addr + r.len < a + 64))

/-- The plain bytes of the two lines of a unit, with the first line needed that fails. -/
def readUnit (gen unit : Nat) (needs : Nat → Bool) (data : List Byte) (macs : List Word) : Except Nat (List Byte) :=
  let line (i : Nat) : Except Nat (List Byte) :=
    if needs i then
      match readLine gen (unit + 64 * i) ((data.drop (64 * i)).take 64) (macs.getD i 0) with
      | some d => .ok d
      | none => .error (unit + 64 * i)
    else .ok (List.replicate 64 0)
  match line 0, line 1 with
  | .ok a, .ok c => .ok (a ++ c)
  | .error a, _ => .error a
  | _, .error a => .error a

/-- A MAC mismatch (R433): counted, the first address captured, the request fails. -/
def Block.macFail (b : Block) (e : Env) (r : MemReq) (a : Nat) : Block :=
  let b := b.bump F.CU_STAT_MAC_FAIL
  let b := if b.rd F.CU_ERR_ADDR_VALID = 1 then b
    else ((b.wr F.CU_ERR_ADDR_VALID 0 1).wr F.CU_ERR_ADDR_SLICE 0 r.slice).wr F.CU_ERR_ADDR_ADDR 0 a
  b.memFailed e r stIntegrity ukPort r.port a

end Sys2Proof.Machine
end

