-- ==== Sys2Proof/Machine/Lighters.lean ====
section
/-! DEFINITION. The meanings of the Lighter ports' events (R63 to R65). -/

namespace Sys2Proof.Machine

open Sys2Proof

/-- A Lighter port. -/
def Block.lighter (b : Block) (n : Nat) : Lighter := tgetD b.lighters n Lighter.reset

/-- Change a Lighter port. -/
def Block.modLighter (b : Block) (n : Nat) (f : Lighter → Lighter) : Block :=
  { b with lighters := tput b.lighters n (f (b.lighter n)) }

/-- Bytes of a request: LM_LEN in 64-byte units, 0 for 64 (R63). -/
def lighterBytes (len : Nat) : Nat := 64 * (if len = 0 then 64 else len)

/-- Send a request of an engine through Customs and Breakwater, or hold it on a stale run (R64). -/
def Block.lighterGo (b : Block) (n c : Nat) (q : HeldMreq) : Block :=
  match tget b.quay.cmds c with
  | none => b
  | some x =>
    let b := b.modLighter n fun l => { l with gather := l.gather ++ [⟨q, c, 0, []⟩] }
    let back (b : Block) : Block := b.modLighter n fun l => { l with gather := l.gather.filter fun g => g.q.id ≠ q.id }
    match b.bufHead c q.buf with
    | none => (back b).modLighter n fun l => { l with rsp := l.rsp ++ [(q.id, stProtection, [])] }
    | some h =>
      if !b.rangeFresh c q.buf then (back b).modLighter n fun l => { l with held := l.held ++ [q] }
      else
        match (b.hold_ h (.lighter n)).laneRange c (b.slicePart x.slice) q.buf q.off q.write true (fun o => .lighter n q.id o) q.data 128 q.len 0 with
        | (some (some st), _) => (back b).modLighter n fun l => { l with rsp := l.rsp ++ [(q.id, st, [])] }
        | (_, b) => b

/-- LIGHTER_MREQ (R64): one request of an engine for a buffer of its command. -/
def execLighterMreq (n id tag buf off len : Nat) (write : Bool) (data : List Byte) (s : State) : Out :=
  onUnit (decide (n < 4 ∧ len < 64)) s fun _ b =>
    let l := b.lighter n
    match tget l.cmds tag with
    | none => b
    | some c =>
      let acked := ((tget b.quay.cmds c).map (·.aborting)).getD false && !(l.aborts.any fun a => a.1 = tag)
      let bytes := lighterBytes len
      if l.isolated || acked then b
      else if 4096 < off % 4096 + bytes then b.modLighter n fun l => { l with rsp := l.rsp ++ [(id, stProtection, [])] }
      else b.lighterGo n c ⟨id, tag, buf, off, bytes, write, data⟩

/-- LIGHTER_DONE (R65): the command ends; any status but OK is recorded as ABORTED. -/
def execLighterDone (n tag status : Nat) (s : State) : Out :=
  onUnit (decide (n < 4)) s fun _ b =>
    let l := b.lighter n
    match tget l.cmds tag with
    | none => b
    | some c =>
      if l.isolated then b
      else
        let b := b.modLighter n fun l => { l with cmds := tdel l.cmds tag, aborts := l.aborts.filter fun a => a.1 ≠ tag, held := l.held.filter fun q => q.tag ≠ tag }
        (b.unholdCmd c (.lighter n)).endCmd c (if status = stOK then 0 else stAborted) 0

/-- LIGHTER_ABORT_ACK (R65): the engine has acknowledged, and sends no further request for the tag. -/
def execLighterAbortAck (n tag : Nat) (s : State) : Out :=
  onUnit (decide (n < 4)) s fun _ b =>
    b.modLighter n fun l => { l with aborts := l.aborts.filter fun a => a.1 ≠ tag, held := l.held.filter fun q => q.tag ≠ tag ∨ ¬ l.aborts.any fun a => a.1 = tag }

/-- LIGHTER_ABORT_TIMEOUT (R65): an ABORT not acknowledged within 100 µs isolates and resets the port; its commands end ABORTED. -/
def execLighterAbortTimeout (n : Nat) (s : State) : Out :=
  onUnit (decide (n < 4)) s fun e b =>
    let l := b.lighter n
    match l.aborts.find? fun a => decide (a.2 + 100000 ≤ e.now) with
    | none => b
    | some (tag, _) =>
      let b := l.cmds.foldl (fun b x => b.endCmd x.2 stAborted 0) b
      let who (w : Sender) : Bool := match w with | .lighter n' _ _ => n' = n | _ => false
      let b : Block := { b with ports := { b.ports with
        out := b.ports.out.map fun x => (x.1, if who x.2.who then { x.2 with who := .firmware } else x.2)
        lanes := b.ports.lanes.map fun x => (x.1, x.2.filter fun q => !who q.req.who) } }
      ((b.modLighter n fun l => { l with cmds := [], aborts := [], isolated := true, held := [], gather := [] }).unholdAll (.lighter n)).alarm e
        { code := 0x0040, kind := ukLighter, idx := n, data := [tag] }

end Sys2Proof.Machine
end

