-- ==== Sys2Proof/Machine/PowerOps.lean ====
section
/-! DEFINITION. Power domains (R79, R80): switching on and off, the domains of units, gating a berth. -/

namespace Sys2Proof.Machine

open Sys2Proof

/-- The domain of general core g (R79). -/
def domCore (g : Nat) : Nat := 16 + g
/-- The Lighter ports' domain (R79). -/
def domLighter : Nat := 31
/-- The Hold controller's domain (R79). -/
def domHold : Nat := 32

/-- A mask with a bit set or cleared. -/
def setBit (m i : Nat) (on : Bool) : Nat := if m.testBit i = on then m else if on then m + 2 ^ i else m - 2 ^ i

/-- A domain is on, released from reset, its outputs connected (R80). -/
def Block.domUp (b : Block) (d : Nat) : Bool := b.power.pdUp.testBit d

/-- Switch a domain on (R80): PD_EN rises only once PD_GOOD is low. -/
def Block.switchOn (b : Block) (d : Nat) : Block :=
  if b.power.pdEn.testBit d then b
  else if b.power.pdGood.testBit d then { b with power := { b.power with pdWant := setBit b.power.pdWant d true } }
  else { b with power := { b.power with pdEn := setBit b.power.pdEn d true, pdWant := setBit b.power.pdWant d false } }

/-- Switch a domain off (R80): outputs isolated, reset held, PD_EN lowered. -/
def Block.switchOff (b : Block) (d : Nat) : Block :=
  { b with power := { b.power with
      pdEn := setBit b.power.pdEn d false, pdUp := setBit b.power.pdUp d false, pdWant := setBit b.power.pdWant d false } }

/-- The domains that hold no berth and no core (R79). -/
def baseDomains : List Nat := List.range' 24 10

/-- A reset switches on the domains that hold no berth and no core, by the handshake of R80 (R79). -/
def Block.powerUp (b : Block) : Block := baseDomains.foldl (fun b d => b.switchOn d) b

/-- They are all on. -/
def Block.baseUp (b : Block) : Bool := baseDomains.all fun d => b.domUp d

/-- A berth loses its power: what it holds is lost, its remap table and its count of clock changes included (R153, R158). -/
def Block.loseBerth (b : Block) (n : Nat) : Block :=
  let b := (List.range 16).foldl (fun b i => b.setReg .btRemap (16 * n + i) 0) b
  (b.wr F.BT_CLOCK_CHANGES n 0).modBerth n fun x => { x with
    regs := Regs.reset, icache := [], icacheSlice := none, spare := [], badBits := [], stuckBits := [], writeBack := [], reread := [] }

/-- Gate a berth (R79, R158). -/
def Block.gateBerth (b : Block) (e : Env) (n : Nat) : Block :=
  (((b.setBstate e n bsGated).switchOff n).loseBerth n).modBerth n fun x => { x with occupants := [] }

/-- Write the recorded repairs of a berth back into its remap table (R157, R158): the lowest entries in the order of the records, each with STUCK set (DESIGN CHOICE, log 120). -/
def Block.putRepairs (b : Block) (n : Nat) : Block :=
  let ls := (b.hold.repairs.filter fun r => r.1 = n).map (·.2)
  (List.zipIdx (ls.take 16)).foldl (fun b (l, i) =>
    let k := 16 * n + i
    ((b.wr F.BT_REMAP_VALID k 1).wr F.BT_REMAP_LINE k l).wr F.BT_REMAP_STUCK k 1) b

/-- Power states of WK_STATE (R512, R513). -/
def wkActive : Nat := 0
def wkGated : Nat := 1
def wkDrowse : Nat := 2
def wkAnchor : Nat := 3
def wkEntering : Nat := 4
def wkExiting : Nat := 5

/-- The block is in DROWSE, on its way there, or in ANCHOR: nothing is dispatched (R512). -/
def Block.asleep (b : Block) : Bool := let s := b.rd F.WK_STATE_STATE; s = wkDrowse || s = wkEntering || s = wkAnchor

end Sys2Proof.Machine
end

