-- ==== Sys2Proof/Machine/HoldOps.lean ====
section
/-! DEFINITION. The Hold controller's shared operations (R356 to R383): slot addresses, the decode of a slot, remap entries, folds and retirement, wear, the merge buffer, seals. -/

namespace Sys2Proof.Machine

open Sys2Proof

/-! ### Access -/

/-- States of HD_STACK_h (R383). -/
def hsAbsent : Nat := 0
def hsInit : Nat := 1
def hsReady : Nat := 2
def hsReadOnly : Nat := 3
def hsFailed : Nat := 4

/-- A stack's STATE. -/
def Block.hstate (b : Block) (h : Nat) : Nat := b.rd F.HD_STACK_STATE h

/-- The object slot that lies at a place of a channel's unit: table index and slot number. -/
def Block.slotAt (b : Block) (ch unit slot : Nat) : Option (Nat × Nat) :=
  b.hold.objs.findSome? fun (i, o) =>
    (List.zipIdx o.place).findSome? fun ((c, us), k) =>
      if c = ch then
        match us.findIdx? (· = unit) with
        | some n => let j := (n * 4096 + slot) * o.place.length + k; if j < o.slots then some (i, j) else none
        | none => none
      else none

/-- A slot is committed: its object is sealed, or the slot has been written (R366, R367). -/
def HoldObj.committed (o : HoldObj) (j : Nat) : Bool := decide (j < o.slots) && (o.sealed || o.written.contains j)

/-- The units of objects on a channel, rising. -/
def Block.unitsOn (b : Block) (ch : Nat) : List Nat :=
  sortBy (fun a b => decide (a ≤ b)) (b.hold.objs.flatMap fun x => x.2.place.flatMap fun p => if p.1 = ch then p.2 else [])

/-- The object slot whose copy in an overflow unit lies at an address of a stack (R366). -/
def Block.movedAt (b : Block) (h addr : Nat) : Option (Nat × Nat) :=
  b.hold.objs.findSome? fun (i, o) => (o.moved.find? fun x => x.2 = addr && (((o.home x.1).map fun p => p.1 / 2) = some h)).map fun x => (i, x.1)

/-- The object slot whose current copy lies at a place of a channel's unit: at home, unless an overflow unit holds it, or in an overflow unit. -/
def Block.ownerAt (b : Block) (ch unit slot : Nat) : Option (Nat × Nat) :=
  match b.slotAt ch unit slot with
  | some (i, j) => if ((tget b.hold.objs i).map fun o => o.committed j && !thas o.moved j).getD false then some (i, j) else none
  | none => b.movedAt (ch / 2) (slotAddr ch unit slot)

/-- A tree slot of an object lies at a place (R379). -/
def Block.treeSlot (b : Block) (ch unit slot : Nat) : Bool := b.hold.objs.any fun x => x.2.treeAt.contains (ch, slotAddr ch unit slot)

/-- A committed slot lies at a place of a channel's unit (R372). -/
def Block.live (b : Block) (ch unit slot : Nat) : Bool := (b.ownerAt ch unit slot).isSome || b.treeSlot ch unit slot

/-- The committed slots of a unit, rising. -/
def Block.liveIn (b : Block) (ch unit : Nat) : List Nat := (List.range 4096).filter fun s => b.live ch unit s

/-! ### Remap entries (R365) -/

/-- Install a remap entry: the one that already has this FROM, else the lowest free one; none free: it is not made. -/
def Block.putRemap (b : Block) (h src dst kind : Nat) : Option Block :=
  let old := (b.remapsOf h).find? fun i => b.rd F.HD_REMAP_FROM (32 * h + i) = src
  match old.or (firstFrom (fun i => b.rd F.HD_REMAP_VALID (32 * h + i) = 0) 32 0) with
  | none => none
  | some i =>
    let k := 32 * h + i
    some ((((b.wr F.HD_REMAP_VALID k 1).wr F.HD_REMAP_KIND k kind).wr F.HD_REMAP_FROM k src).wr F.HD_REMAP_TO k dst)

/-- Free the remap entries whose FROM is among some addresses. -/
def Block.freeRemaps (b : Block) (h : Nat) (p : Nat → Bool) : Block :=
  (b.remapsOf h).foldl (fun b i => if p (b.rd F.HD_REMAP_FROM (32 * h + i)) then b.setReg .hdRemap (32 * h + i) 0 else b) b

/-! ### Wear and retirement (R374 to R376) -/

/-- MEAN_ERASE, MAX_ERASE and LIFE of a stack (R376, R383). -/
def Block.countWear (b : Block) (e : Env) (h : Nat) : Block :=
  let cs := [b.chan (2 * h), b.chan (2 * h + 1)]
  let sum := cs.foldl (fun n c => n + c.erases.foldl (fun m x => m + x.2) 0) 0
  let units := cs.foldl (fun n c => n + c.units) 0
  let mean := sum / max 1 units
  let top := cs.foldl (fun n c => c.erases.foldl (fun m x => max m x.2) n) 0
  let rated := max 1 ((b.chan (2 * h)).peRated)
  let life := 100 - 100 * mean / rated
  let b := ((b.wr F.HD_LIFE_MAX_ERASE h (min top 0xFFFF)).wr F.HD_LIFE_MEAN_ERASE h (min mean 0xFFFF)).wr F.HD_LIFE_LIFE h life
  if life ≤ 10 ∧ ¬ (b.stack h).lifeAlarmed then
    (b.modStack h fun x => { x with lifeAlarmed := true }).alarm e { code := 0x0022, kind := ukStack, idx := h, data := [life] }
  else b

/-- HD_STACK_h.SPARE_UNITS; a channel with less than 0.5 % spare units makes the stack READ_ONLY (R375). -/
def Block.countSpares (b : Block) (e : Env) (h : Nat) : Block :=
  let cs := ([2 * h, 2 * h + 1].filter fun ch => !(b.chan ch).out).map b.chan
  let few := match cs.map (·.spares) with | [] => 0 | x :: xs => xs.foldl min x
  let b := b.wr F.HD_STACK_SPARE_UNITS h few
  if b.hstate h = hsReady ∧ cs.any (fun c => decide (c.spares * 1000 < c.units * 5)) then
    (b.wr F.HD_STACK_STATE h hsReadOnly).alarm e { code := 0x0021, kind := ukStack, idx := h, data := [few] }
  else b

/-- An object with a unit of a channel rewritten into another: its slots come home, what lay in it of its overflow copies and tree slots goes with it. -/
def HoldObj.moveUnit (o : HoldObj) (ch old new : Nat) : HoldObj :=
  let sub (p : Nat × List Nat) : Nat × List Nat := if p.1 = ch then (p.1, p.2.map fun u => if u = old then new else u) else p
  let home (j : Nat) : Bool := match o.home j with | some (c, a) => c = ch && unitOf a = unitOf (slotAddr ch old 0) | none => false
  let on (j : Nat) : Bool := match o.home j with | some (c, _) => c = ch | none => false
  let go (a : Nat) : Nat := if unitOf a = unitOf (slotAddr ch old 0) then slotAddr ch new (a % 4096) else a
  { o with
    place := o.place.map sub
    moved := (o.moved.filter fun x => !home x.1).map fun x => (x.1, if on x.1 then go x.2 else x.2)
    treeAt := o.treeAt.map fun x => (x.1, if x.1 = ch then go x.2 else x.2) }

/-- The committed data of a unit stands in another (R365, R372, R374, R375): objects move with it, its remap entries and those of overflow copies that come home are freed. -/
def Block.moveUnit (b : Block) (ch old new : Nat) : Block :=
  let h := ch / 2
  let copies (objs : Table HoldObj) : List Nat := objs.flatMap fun x => (x.2.moved.filter fun y => ((x.2.home y.1).map fun p => p.1 / 2) = some h).map (·.2)
  let was := copies b.hold.objs
  let b : Block := { b with hold := { b.hold with objs := b.hold.objs.map fun x => (x.1, x.2.moveUnit ch old new) } }
  let stay := copies b.hold.objs
  let full := unitOf (slotAddr ch old 0)
  (b.freeRemaps h fun a => unitOf a = full || (was.contains a && !stay.contains a)).modStack h fun x =>
    { x with foldQueue := x.foldQueue.filter (· ≠ full), relocQueue := x.relocQueue.filter fun a => unitOf a ≠ full }

/-- A unit's change is under way or waited for. -/
def Block.moving (b : Block) (ch unit : Nat) : Bool :=
  (b.pendingOf (ch / 2)).any fun c => match c with
    | .unit k old _ => k = ch && old = unit
    | .remap .. => false
    | .slot .. => false

/-- A change waits for a store (R367). -/
def Block.toCommit (b : Block) (h : Nat) (c : Commit) : Block := b.modStack h fun x => { x with commits := x.commits ++ [c] }

/-- A relocation of a unit's slot is due, gathered, or waits for its commit: it commits before a rewrite of the unit begins (R382). -/
def Block.relocating (b : Block) (ch unit : Nat) : Bool :=
  let full := unitOf (slotAddr ch unit 0)
  (b.stack (ch / 2)).relocQueue.any (fun a => unitOf a = full) || (b.chan ch).relocPage.any (fun x => unitOf x.1 = full) ||
  (b.pendingOf (ch / 2)).any fun c => match c with
    | .remap s _ _ => unitOf s = full
    | .unit .. => false
    | .slot .. => false

/-- The merge buffer holds a slot of a unit; an internal read of it makes the buffer flush (R368). -/
def Block.heldIn (b : Block) (ch unit : Nat) : Bool :=
  (b.stack (ch / 2)).merge.any fun w => match (b.holdObj w.handle).bind fun o => o.home w.slot with
    | some (c, a) => c = ch && unitOf a = unitOf (slotAddr ch unit 0)
    | none => false

/-- The committed slots of a unit are programmed into another, blank one, each under the next SERIAL (R359, R365, R367); the change waits for a store after that. -/
def Block.rewriteInto (b : Block) (e : Env) (ch old new : Nat) : Block :=
  let h := ch / 2
  let slots := b.liveIn ch old
  let serial := (b.stack h).serial
  (b.modStack h fun x => { x with serial := x.serial + slots.length }).modChan ch fun c =>
    { c with free := c.free.filter (· ≠ new), used := c.used ++ [new] }.addOp e.now (.rewrite old new slots serial (b.hoursOf e h) [.unit ch old new])

/-- Rewrite a unit whole into a fresh one (R365, R372, R375, R378): once its relocations have committed and the merge buffer holds nothing of it. -/
def Block.foldUnit (b : Block) (e : Env) (ch old : Nat) : Block :=
  if b.moving ch old || b.relocating ch old then b
  else if b.heldIn ch old then b.modStack (ch / 2) fun x => { x with wanted := true }
  else match b.freshUnit ch with
    | none => b
    | some (new, b) => b.rewriteInto e ch old new

/-- A unit is marked bad: it is never erased again, and takes one spare (R375). -/
def Block.markBad (b : Block) (e : Env) (ch unit : Nat) : Block :=
  if (b.chan ch).bad.contains unit then b
  else
    let b := b.modChan ch fun c =>
      { c with bad := c.bad ++ [unit], free := c.free.filter (· ≠ unit), spares := c.spares - 1
               overUnits := c.overUnits.filter (· ≠ unit), ops := c.ops.filter fun o => o ≠ .erase unit }
    (b.bump F.HD_LIFE_RETIRED (ch / 2)).countSpares e (ch / 2)

/-- The relocation unit in use gives way to the other one, if that is blank (R358, R364). -/
def Block.turnReloc (b : Block) (ch : Nat) : Block :=
  let c := b.chan ch
  if 4096 ≤ c.relocAt ∧ ((c.reloc.drop 1).any fun u => !c.used.contains u) then b.modChan ch fun c => { c with reloc := c.reloc.drop 1 ++ c.reloc.take 1, relocAt := 0 } else b

/-- A unit of the controller's own gives way to a fresh one (R375). -/
def Block.replaceOwn (b : Block) (ch unit : Nat) : Block :=
  match b.freshUnit ch with
  | none => b
  | some (new, b) => b.modChan ch fun c =>
    let sub (u : Nat) : Nat := if u = unit then new else u
    { c with journal := c.journal.map sub, reloc := c.reloc.map sub, noticeUnit := sub c.noticeUnit }

/-- Retire a unit (R375): its committed data is rewritten first, and the unit marked bad at the commit of that (`retiring`); one that holds none is marked bad at once. A relocation unit is used no more, and its copies are moved. -/
def Block.retireUnit (b : Block) (e : Env) (ch unit : Nat) : Block :=
  let c := b.chan ch
  let later (b : Block) : Block := b.modChan ch fun c => { c with retiring := if c.retiring.contains unit then c.retiring else c.retiring ++ [unit] }
  if c.bad.contains unit then b
  else if c.reloc.contains unit then (later (if c.reloc.head? = some unit then b.modChan ch fun c => { c with relocAt := 4096 } else b)).turnReloc ch
  else if c.journal.contains unit || c.noticeUnit = unit then (b.replaceOwn ch unit).markBad e ch unit
  else if (b.unitsOn ch).contains unit || (c.overUnits.contains unit && !(b.liveIn ch unit).isEmpty) then later (b.foldUnit e ch unit)
  else b.markBad e ch unit

/-- A unit fails a PROGRAM (R375): the second failure retires it. -/
def Block.countFail (b : Block) (e : Env) (ch unit : Nat) : Block :=
  let b := b.modChan ch fun c => { c with fails := tupd c.fails unit 0 (· + 1) }
  if 2 ≤ tgetD (b.chan ch).fails unit 0 then b.retireUnit e ch unit else b

/-- Overflow units that hold no copy any more, but the one in use, are erased (R366). -/
def Block.freeOver (b : Block) (e : Env) (ch : Nat) : Block :=
  let h := ch / 2
  let owed := (b.pendingOf h).filterMap fun c => match c with | .slot _ _ _ (some a) => some (unitOf a) | _ => none
  ((b.chan ch).overUnits.drop 1).foldl (fun b u =>
    if (b.liveIn ch u).isEmpty && !owed.contains (unitOf (slotAddr ch u 0)) && !b.moving ch u then
      b.modChan ch fun c => { c with overUnits := c.overUnits.filter (· ≠ u) }.addOp e.now (.erase u)
    else b) b

/-! ### Decoding a slot (R361 to R364) -/

/-- The strength a stack decodes at first (R361, R363). -/
def Block.strength (b : Block) (h : Nat) : Nat := if b.rd F.HD_STACK_FULL_DECODE h = 1 then 64 else b.rd F.HD_STACK_STRENGTH h

/-- Nodes a tree slot holds (R379; log 117). -/
def treeFan : Nat := 85

/-- The path of a slot's tree slot to the root holds, checked at its first use after power-on (R379); in an object of one slot the root is the leaf. -/
def HoldObj.treeGood (o : HoldObj) (slot : Nat) : Bool :=
  o.tree.isEmpty || o.treeSeen.contains (slot / treeFan) || o.root = merkleRoot o.slots (o.tree.take o.slots)

/-- The leaf a sealed object's tree gives a slot (R222, R379). -/
def HoldObj.leafIn (o : HoldObj) (slot : Nat) : Option (BitVec 384) := if o.tree.isEmpty then some o.root else o.tree[slot]?

/-- The checks of R222 on a slot that was decoded: its metadata names the object and the slot, and its data has the slot's leaf, of a tree whose path to the root holds. -/
def slotPasses (w : SlotWord) (o : HoldObj) (handle slot : Nat) : Bool :=
  decide (w.obj = handle ∧ w.slot = slot) && decide (o.leafIn slot = some (leafOf w.data)) && o.treeGood slot

/-- The decode of R362: what the step that succeeds makes of the slot, its corrections, and whether it needed more than the first; none when every step fails. -/
def Block.decodeSlot (b : Block) (h : Nat) (r : SlotRead) : Option (SlotWord × Nat × Bool) :=
  match r.senses with
  | [] => none
  | first :: more =>
    match decodeAt (b.strength h) first with
    | some (w, n) => some (w, n, false)
    | none => ((first :: more.take 2).findSome? (decodeAt 64)).map fun (w, n) => (w, n, true)

/-- Count a decode that needed t = 64 or READ_SHIFT, or that failed (R383). -/
def Block.countDecode (b : Block) (h : Nat) (d : Option (SlotWord × Nat × Bool)) : Block :=
  match d with
  | some (_, _, false) => b
  | some (_, _, true) => b.bump F.HD_ECC_ESCALATED h
  | none => (b.bump F.HD_ECC_ESCALATED h).bump F.HD_ECC_UNCORR h

/-- A slot of an object is uncorrectable: recorded lost, once (R362, R382). -/
def Block.loseSlot (b : Block) (idx j : Nat) : Block :=
  b.modObj idx fun o => { o with lost := if o.lost.contains j then o.lost else o.lost ++ [j] }

/-- No entry is left for the remap of an address: every one is valid, or taken by a commit to come, and none has this FROM. -/
def Block.remapFull (b : Block) (h addr : Nat) : Bool :=
  let gathered := [2 * h, 2 * h + 1].flatMap fun ch => (b.chan ch).relocPage.map (·.1)
  let owed := gathered ++ (b.pendingOf h).filterMap fun c => match c with | .remap s _ _ => some s | .unit .. => none | .slot .. => none
  let from_ := (b.remapsOf h).map fun i => b.rd F.HD_REMAP_FROM (32 * h + i)
  !(from_ ++ owed).contains addr && decide (32 ≤ from_.length + (owed.filter fun a => !from_.contains a).eraseDups.length)

/-- A remap that cannot be made (R365): counted, and its unit goes first in the fold queue. -/
def Block.noRemap (b : Block) (h addr : Nat) : Block :=
  (b.bump F.HD_ECC_REMAP_FULL h).modStack h fun x => { x with foldQueue := unitOf addr :: x.foldQueue.filter (· ≠ unitOf addr) }

/-- A slot that needed more than RELOC corrections is due for relocation, corrected; with no remap entry left it is not made (R364, R365). -/
def Block.dueReloc (b : Block) (h addr corrections obj slot : Nat) (data : List Byte) : Block :=
  if corrections ≤ b.rd F.HD_STACK_RELOC h then b
  else if (b.stack h).relocQueue.contains addr then b
  else if b.remapFull h addr then b.noRemap h addr
  else b.modStack h fun x => { x with relocQueue := x.relocQueue ++ [addr], corrected := tput x.corrected addr (obj, slot, data) }

/-! ### The merge buffer and seals (R366 to R368) -/

/-- A write to the object is under way: a transfer that has written part of its range (R378). -/
def Block.writing (b : Block) (handle : Nat) : Bool :=
  b.berths.any fun (_, x) => (x.me0 ++ x.me1).any fun t => match t.mv with
    | .copy _ (some h) => h = handle && decide (0 < t.done) && t.failed.isNone
    | _ => false

/-- The seals in progress, with their object. -/
def Block.sealing (b : Block) : List Running := b.harbour.running.filter fun x => x.opcode = 0x0302

/-- The leaf of a slot; what a slot never written reads as is not stated, and its leaf is a free value (log 95). -/
def HoldObj.leaf (o : HoldObj) (d j : Nat) : BitVec 384 := (tget o.leaves j).getD (Config.freeDigest (d + j * 2 ^ 64))

/-- A change of an object still waits: a write in a merge buffer, a page of it, or a commit (R367, R378). -/
def Block.objOwed (b : Block) (handle : Nat) : Bool :=
  (b.hold.stks.any fun x => x.2.merge.any fun m => m.handle = handle) ||
  (List.range 8).any fun h => (b.pendingOf h).any fun c => match c with
    | .slot hd _ _ _ => hd = handle
    | .remap .. => false
    | .unit .. => false

/-- A page of an object's tree slots is still to be programmed. -/
def Block.treeOwed (b : Block) (o : HoldObj) : Bool :=
  b.hold.chans.any fun x => x.2.ops.any fun p => match p with
    | .program _ _ slots _ _ => slots.any fun a => o.treeAt.contains (x.1, a)
    | _ => false

/-- Units that hold displaced slots of an object at home are rewritten (R378). -/
def Block.bringHome (b : Block) (e : Env) (o : HoldObj) : Block :=
  ((o.moved.filterMap fun x => (o.home x.1).map fun (ch, a) => (ch, unitOf a % 32768)).eraseDups).foldl (fun b (ch, u) => b.foldUnit e ch u) b

/-- The tree's nodes go into tree slots of KIND 1, four a page, in the overflow units of the object's first channel in service (R359, R379; log 117). -/
def Block.programTree (b : Block) (e : Env) (handle : Nat) (o : HoldObj) (nodes : List (BitVec 384)) : Block :=
  match o.chans.find? fun ch => !(b.chan ch).out with
  | none => b
  | some ch =>
    let n := cdiv nodes.length treeFan
    (List.range (cdiv n 4)).foldl (fun b p =>
      match b.overPage ch with
      | none => b
      | some ((u, at_), b) =>
        let k := min 4 (n - 4 * p)
        let (is, b) := (List.range k).foldl (fun (is, b) i =>
          let part := (nodes.drop (treeFan * (4 * p + i))).take treeFan
          let (x, b) := Block.nextImage b e (ch / 2) handle (4 * p + i) kindTable (part.flatMap fun y => leBytes 48 y.toNat)
          (is ++ [x], b)) (([] : List (List Byte)), b)
        let (pads, b) := Block.padImages e (ch / 2) (4 - k) b
        let slots := (List.range k).map fun i => slotAddr ch u (at_ + i)
        (b.modChan ch fun c => c.addPage e.now u (at_ / 4) slots (is ++ pads) (.copy [])).modObj (handle % 65536) fun o =>
          { o with treeAt := o.treeAt ++ slots.map fun a => (ch, a) }) b

/-- The seals in progress go on (R378, R379): with every write in and committed, units with displaced slots are rewritten, then the tree is built and its slots programmed; then the object is sealed, its root kept and reported. -/
def Block.finishSeals (b : Block) (e : Env) : Block :=
  b.sealing.foldl (fun b r =>
    let handle := r.todo
    match tget b.hold.objs (handle % 65536) with
    | none => b
    | some o =>
      if b.writing handle || b.objOwed handle then b
      else if !o.moved.isEmpty then b.bringHome e o
      else if o.tree.isEmpty && o.root = 0 then
        let (d, b) := b.draw
        let leaves := (List.range o.slots).map (o.leaf d)
        let root := merkleRoot leaves.length leaves
        let nodes := merkleNodes leaves.length leaves
        let b := (b.modObj (handle % 65536) fun o => { o with root := root, tree := nodes, treeAt := [], treeSeen := List.range (cdiv nodes.length treeFan) }).programTree e handle o nodes
        if nodes.isEmpty then (b.modObj (handle % 65536) fun o => { o with sealed := true }).endMgr e r.m 0x0302 rcDone [handle, root.toNat] else b
      else if b.treeOwed o then b
      else (b.modObj (handle % 65536) fun o => { o with sealed := true }).endMgr e r.m 0x0302 rcDone [handle, o.root.toNat]) b

/-- A channel is identified (R59, R356, R358): plane and unit counts and PE_RATED come from the device, and are open values (log 6); of its units a table area, two journal units, two relocation units, one for the notice page and, on H0, half of the dump area are kept back; 2 % of its units, rounded down, are spares. -/
def Block.identChannel (b : Block) (ch : Nat) : Block :=
  if (b.chan ch).units ≠ 0 then b
  else
    let (d, b) := b.draw
    let n := 1 + Config.freeNat d % 32768
    let (d, b) := b.draw
    let (t, b) := b.draw
    let (p, b) := b.draw
    let table := 1 + Config.freeNat t % 1024
    let kept := min n (table + 2 + 2 + 1 + if ch < 2 then 32 else 0)
    b.modChan ch fun c => { c with
      units := n, free := List.range' kept (n - kept), peRated := 1 + Config.freeNat d % 65535, spares := n * 2 / 100
      planes := 1 + Config.freeNat p % 256, reserved := kept, journal := [table, table + 1], reloc := [table + 2, table + 3], noticeUnit := table + 4 }

/-- The time a command of a stack may take, in ns (R59): a unit rewritten is 1,024 page programs, a dump's half as many pages as it holds. -/
def HoldOp.bound : HoldOp → Nat
  | .reset => 10000000
  | .ident => 100000
  | .program .. | .notice _ | .journal _ | .table .. => 600000
  | .rewrite .. => 1024 * 600000
  | .dump .. => 450 * 600000
  | .erase _ => 8000000

/-- The time a PAGE_READ may take, in ns (R59). -/
def senseBound : Nat := 30000

/-- The first command or the first sense of a channel has taken ten times its timing (R59, R482). -/
def Channel.overdue (c : Channel) (now : Nat) : Bool :=
  (match c.ops with | [] => false | o :: _ => decide (c.opAt + 10 * o.bound ≤ now)) ||
  (!c.sensing.isEmpty && decide (c.senseAt + 10 * senseBound ≤ now))

/-- A change becomes visible with its journal page (R364 to R367, R375): a remap entry is installed; a rewritten unit is replaced, its entries freed, the old one erased, or marked bad; a slot is written. -/
def Block.applyCommit (b : Block) (e : Env) (h : Nat) (c : Commit) : Block :=
  match c with
  | .remap src dst kind => match b.putRemap h src dst kind with
    | some b => b
    | none => b.noRemap h src
  | .unit ch old new =>
    let own := (b.chan ch).reloc.contains old
    let b := b.moveUnit ch old new
    if (b.chan ch).retiring.contains old then
      ((if own then b.replaceOwn ch old else b).modChan ch fun c => { c with retiring := c.retiring.filter (· ≠ old) }).markBad e ch old
    else (b.modChan ch fun c => { c with overUnits := c.overUnits.map fun u => if u = old then new else u }.addOp e.now (.erase old)).freeOver e ch
  | .slot handle slot leaf moved => b.modObj (handle % 65536) fun o => o.wrote slot leaf moved

/-- The slot a merged write makes: its pieces over what lies below. -/
def MergeWrite.over (m : MergeWrite) (below : List Byte) : List Byte := m.pieces.foldl (fun d p => mergeAt d p.1 p.2) below

/-- A write of a flush, whose one piece is the whole slot. -/
def MergeWrite.whole (m : MergeWrite) : List Byte := m.over (List.replicate 4096 0)

/-- The store of a stack has ended: its changes are visible, its writes have left the buffer, what waited for them goes on. -/
def Block.flushDone (b : Block) (e : Env) (h : Nat) : Block :=
  let n := (b.stack h).flushing.getD 0
  let done := (b.stack h).committing
  let b := b.modStack h fun x => { x with merge := x.merge.drop n, flushing := none, committing := [] }
  ((done.foldl (fun b c => b.applyCommit e h c) b).syncMerge h).finishSeals e

/-- A stack holds a write of an object that is being sealed (R368). -/
def Block.sealNeeds (b : Block) (h : Nat) : Bool :=
  (b.stack h).merge.any fun m => b.sealing.any fun r => r.todo = m.handle

/-- The stack's store programs pages for its flush still to end. -/
def Block.flushOps (b : Block) (h : Nat) : Bool :=
  [2 * h, 2 * h + 1].any fun ch => (b.chan ch).ops.any fun o => match o with
    | .program _ _ _ _ .flush => true
    | _ => false

/-- The journal page that ends the stack's store is under way or waits. -/
def Block.journalOps (b : Block) (h : Nat) : Bool :=
  [2 * h, 2 * h + 1].any fun ch => (b.chan ch).ops.any fun o => match o with | .journal _ => true | _ => false

/-! ### The Dredger's lap (R372, R373) -/

/-- The next committed slot of a channel's lap from a position on, in unit order: unit and slot. -/
def Block.nextDredge (b : Block) (ch from_ : Nat) : Option (Nat × Nat) :=
  (sortBy (fun a b => decide (a ≤ b)) (b.unitsOn ch ++ (b.chan ch).overUnits)).findSome? fun u =>
    if u * 4096 + 4096 ≤ from_ then none
    else (firstFrom (fun s => decide (from_ ≤ u * 4096 + s) && b.live ch u s) 4096 0).map fun s => (u, s)

/-- A channel is idle: no request slot has waited or been in flight for 50 µs (R371). -/
def Block.idleChan (b : Block) (e : Env) (ch : Nat) : Bool :=
  let c := b.chan ch
  c.waiting.isEmpty && c.sensing.isEmpty && decide (c.busyAt + 50000 ≤ e.now)

/-- The Dredger may work on a channel (R364, R371): the stack is open, the channel in service and idle, and no relocation of the stack is due. -/
def Block.dredges (b : Block) (e : Env) (ch : Nat) : Bool :=
  let h := ch / 2
  (b.hstate h = hsReady || b.hstate h = hsReadOnly) && b.domUp domHold && !(b.chan ch).out && b.idleChan e ch && (b.stack h).relocQueue.isEmpty

/-- The Dredger issues a sense on an idle channel, in a plane it is not sensing yet, up to 16 at once (R371, R372); a slot that the merge buffer holds makes that flush first (R368). -/
def Block.dredge (b : Block) (e : Env) (ch : Nat) : Block :=
  let c := b.chan ch
  if !b.dredges e ch || decide (16 ≤ c.dredging.length) then b
  else
    let from_ := match c.dredging.getLast? with | some a => a % 2 ^ 27 + 1 | none => c.lapSlot
    match b.nextDredge ch from_ with
    | none => b
    | some (u, s) =>
      let a := slotAddr ch u s
      let held := match b.ownerAt ch u s with
        | some (i, j) => (b.stack (ch / 2)).merge.any fun w => w.handle % 65536 = i && w.slot = j
        | none => false
      if held then b.modStack (ch / 2) fun x => { x with wanted := true }
      else if c.dredging.any fun x => b.planeOf ch (b.physOf (ch / 2) x) = b.planeOf ch (b.physOf (ch / 2) a) then b
      else b.modChan ch fun c => { c with dredging := c.dredging ++ [a] }

/-- A lap ends when no channel has a committed slot left (R373): its length in seconds and the count of laps. -/
def Block.lapEnd (b : Block) (e : Env) (h : Nat) : Block :=
  if [2 * h, 2 * h + 1].any fun ch => !(b.chan ch).out && (b.nextDredge ch (b.chan ch).lapSlot).isSome then b
  else
    let secs := (e.now - (b.stack h).lapSince) / 1000000000
    let b := (b.wr F.HD_SCRUB_LAP_LAST_LAP_S h (min secs 0xFFFFFFFF)).bumpWrap F.HD_SCRUB_LAP_LAPS h
    let b := b.modStack h fun x => { x with lapSince := e.now, lapAlarmed := false }
    [2 * h, 2 * h + 1].foldl (fun b ch => b.modChan ch fun c => { c with lapSlot := 0, relocs := [] }) b

/-! ### Channels that fail (R381, R482) -/

/-- The Hold transfers with a sense on a channel, each with the slot and object of its first one: berth, engine, serial, slot, handle. -/
def Channel.xfers (c : Channel) : List (Nat × Nat × Nat × Nat × Nat) :=
  let all : List (Nat × Nat × Nat × Nat × Nat) := (c.waiting ++ c.sensing).filterMap fun q => q.xfer.map fun (n, k, s, _) => (n, k, s, q.slot, q.handle)
  let same (x y : Nat × Nat × Nat × Nat × Nat) : Bool := x.1 = y.1 && x.2.1 = y.2.1 && x.2.2.1 = y.2.2.1
  all.foldl (fun l x => if l.any (same x) then l else l ++ [x]) []

/-- A channel goes out of service (R381, R482): its CH_FAIL bit, HOLD_CHANNEL, its transfers fail; a stack with both channels out is FAILED; service is at most DEGRADED. The store of the stack ends unfinished: its writes stay in the buffer, and its other changes wait again. No dump is written with a channel of H0 out (R380). -/
def Block.channelOut (b : Block) (e : Env) (ch : Nat) : Block :=
  let h := ch / 2
  let xs := (b.chan ch).xfers
  let b := b.modChan ch fun c => { c with out := true, waiting := [], sensing := [], ops := [], dredging := [], relocPage := [] }
  let b := b.wr F.HD_STACK_CH_FAIL h (b.rd F.HD_STACK_CH_FAIL h ||| 2 ^ (ch % 2))
  let b := if b.rd F.HD_STACK_CH_FAIL h = 3 then b.wr F.HD_STACK_STATE h hsFailed else b
  let b : Block := if ch < 2 then
      [0, 1].foldl (fun b k => b.modChan k fun c => { c with ops := c.ops.filter fun o => match o with | .dump .. => false | _ => true })
        { b with hold := { b.hold with dumpWriting := false } }
    else b
  let mine (x : Stack) (c : Commit) : Bool := (x.merge.take (x.flushing.getD 0)).any fun w => c.names w.handle w.slot
  let b := [2 * h, 2 * h + 1].foldl (fun b k => b.modChan k fun c => { c with ops := c.ops.filter fun o => match o with
    | .program _ _ _ _ .flush => false
    | .journal _ => false
    | _ => true }) b
  let b := (b.modStack h fun x => { x with flushing := none, commits := (x.committing.filter fun c => !mine x c) ++ x.commits, committing := [] }).syncMerge h
  let b := b.alarm e { code := 0x0024, kind := ukStack, idx := h, data := [ch % 2] }
  -- failures of one cycle: the lowest berth, then the transfer queued first (R206)
  let b := (sortBy (fun (x y : Nat × Nat × Nat × Nat × Nat) => decide (x.1 * 2 ^ 40 + x.2.2.1 ≤ y.1 * 2 ^ 40 + y.2.2.1)) xs).foldl (fun b (n, k, s, slot, handle) =>
    b.failXfer e n k s stUncorrectable ukStack h ((((b.holdObj handle).bind fun o => o.addrOf slot).map (·.2)).getD 0) handle) b
  let b := b.failUnit e (.channel ch)
  if b.hstate h = hsFailed then b.failUnit e (.stack h) else b

/-! ### Relocation units (R358, R364, R365) -/

/-- The next place of a channel's relocation unit; none while the unit is full and the other one not blank. -/
def Block.nextReloc (b : Block) (ch : Nat) : Option Nat :=
  let c := b.chan ch
  match c.reloc.head? with
  | some u => if c.relocAt < 4096 then some (slotAddr ch u (c.relocAt + c.relocPage.length)) else none
  | none => none

/-- The relocations gathered for a page are programmed, the slots left over filled with pads (R364); their remap entries wait for a store once the copies stand. -/
def Block.closeReloc (b : Block) (e : Env) (ch : Nat) : Block :=
  let c := b.chan ch
  match c.reloc.head? with
  | none => b
  | some u =>
    if c.relocPage.isEmpty then b
    else
      let (pads, b) := Block.padImages e (ch / 2) (4 - c.relocPage.length) b
      let slots := (List.range c.relocPage.length).map fun i => slotAddr ch u (c.relocAt + i)
      let then_ := List.zipWith (fun (x : Nat × List Byte) a => Commit.remap x.1 a 0) c.relocPage slots
      let images := (c.relocPage.map fun x => x.2) ++ pads
      (b.modChan ch fun c => { c with relocPage := [], relocAt := c.relocAt + 4 }.addPage e.now u (c.relocAt / 4) slots images (.copy then_)).turnReloc ch

/-- Relocations have waited 100 µs for others that share the page (R364). -/
def Block.relocDue (b : Block) (e : Env) (ch : Nat) : Block :=
  if !(b.chan ch).relocPage.isEmpty && decide ((b.chan ch).relocSince + 100000 ≤ e.now) then b.closeReloc e ch else b

/-- A change has an address in a unit as its destination. -/
def Commit.into (full : Nat) : Commit → Bool
  | .remap _ d _ => unitOf d = full
  | .unit .. => false
  | .slot .. => false

/-- The copies that are live in the relocation unit not in use are rewritten into the one in use, with new entries, and that unit is erased (R365). -/
def Block.clearReloc (b : Block) (e : Env) (ch : Nat) : Block :=
  let c := b.chan ch
  let h := ch / 2
  match c.reloc with
  | [u, v] =>
    let full := unitOf (slotAddr ch v 0)
    let live := (b.remapsOf h).filter fun i => unitOf (b.rd F.HD_REMAP_TO (32 * h + i)) = full
    let n := 4 * cdiv live.length 4
    if !c.used.contains v || b.moving ch v || (b.pendingOf h).any (Commit.into full) || c.ops.contains (.erase v) || decide (4096 < c.relocAt + n) then b
    else if live.isEmpty then b.toCommit h (.unit ch v u)
    else
      let moves := (List.zipIdx live).map fun (i, k) =>
        Commit.remap (b.rd F.HD_REMAP_FROM (32 * h + i)) (slotAddr ch u (c.relocAt + k)) (b.rd F.HD_REMAP_KIND (32 * h + i))
      let slots := live.map fun i => b.rd F.HD_REMAP_TO (32 * h + i) % 4096
      let serial := (b.stack h).serial
      (b.modStack h fun x => { x with serial := x.serial + live.length }).modChan ch fun c =>
        { c with relocAt := c.relocAt + n, used := if c.used.contains u then c.used else c.used ++ [u] }.addOp e.now
          (.rewrite v u slots serial (b.hoursOf e h) (moves ++ [Commit.unit ch v u]))
  | _ => b

/-! ### The epoch (R400) -/

/-- The epoch after e (R400). -/
def nextEpoch (e : Nat) : Nat := if 255 ≤ e then 1 else e + 1

/-- The epoch of this start (R400): after a power-on the one after the epoch last recorded, after a warm reset the present one. -/
def Block.startEpoch (b : Block) (e : Env) : Nat := if b.harbour.cold then nextEpoch b.hold.epochRecord else e.epoch

/-- In S3, with H0 identified, the epoch of this start is recorded in H0's table area by a store, before the links train (R400). -/
def Block.recordEpoch (b : Block) (e : Env) : Block :=
  let c := b.chan 0
  if b.harbour.stage ≠ some 2 || b.harbour.epochTaken || !b.mayStore || c.out || c.units = 0 ||
      c.ops.any fun o => match o with | .reset | .ident | .table .. => true | _ => false then b
  else
    let (d, b) := b.draw
    let (is, b) := b.controlPage e 0 kindTable (Config.freeBytes d)
    (b.modChan 0 fun c => c.addOp e.now (.table is)).syncMerge 0

end Sys2Proof.Machine
end

