-- ==== Sys2Proof/Machine/StampOps.lean ====
section
/-! DEFINITION. What stamping is for and what follows it (R282, R288, R297, R303 to R317, R331, R332): a command's checks 6 and 7, a queue, a slice's admin queue, a model, a view, a fence mirror, a re-stamp. -/

namespace Sys2Proof

/-- The sum of BASE, n × PER_SEQ and t × PER_TOKEN as one record (R342). -/
def ModelProg.wcAt (p : ModelProg) (n t : Nat) : WcRec :=
  ⟨p.base.cT + n * p.perSeq.cT + t * p.perToken.cT, p.base.cS + n * p.perSeq.cS + t * p.perToken.cS,
   p.base.bDram + n * p.perSeq.bDram + t * p.perToken.bDram, p.base.nDram + n * p.perSeq.nDram + t * p.perToken.nDram,
   p.base.nHold + n * p.perSeq.nHold + t * p.perToken.nHold, p.base.bHold + n * p.perSeq.bHold + t * p.perToken.bHold,
   p.base.tDecl + n * p.perSeq.tDecl + t * p.perToken.tDecl, p.base.unbounded || p.perSeq.unbounded || p.perToken.unbounded⟩

end Sys2Proof

namespace Sys2Proof.Machine

open Sys2Proof

/-! ### LC admission (R342, R343) -/

/-- The larger of two times with their STREAMS; of equal times, that of more STREAMS (R342; log 115). -/
def laterOf (x y : Rat × Nat) : Rat × Nat := if x.1 < y.1 ∨ (x.1 = y.1 ∧ x.2 < y.2) then y else x

/-- A load in whole berth-µs per second, rounded up: RATE × T × STREAMS with T in ns (R342). -/
def loadOf (rate streams : Nat) (t : Rat) : Nat := (((rate * streams : Nat) : Rat) * t / 1000).ceil.toNat

/-- The load an LC queue declares; none where a record cannot be admitted or the class cannot be LC (R342). -/
def Block.lcLoad (b : Block) (e : Env) (sl : Nat) (q : QueueBody) (standing : Option (Fetched × Body)) : Option Nat :=
  let p := b.slicePart sl
  let f := oppClock (b.rd F.BW_SCHED_ADMIT_OPP p)
  let time (r : WcRec) := wcTime r f (b.rateD e p) (b.rateH e p)
  match standing with
  | some (_, .tensor t) => (time t.wc).map fun x => loadOf q.rate t.streams x
  | some _ => none
  | none =>
    let ms := (b.manifest.models.map (·.2)).filter fun m => m.r.owner = sl || m.r.share = some sl
    let ts := ms.flatMap fun m => [m.prefill, m.step].map fun p' => (time (p'.wcAt m.r.maxSeq m.r.tokenBudget)).map fun t => (t, m.r.streams)
    if ts.any fun t => t.isNone then none
    else match ts.filterMap id with
      | [] => some 0
      | t :: rest => let (t, streams) := rest.foldl laterOf t
                     some (loadOf q.rate streams t)

/-- The LC capacity of a partition with n berths (R343). -/
def Block.lcCapacity (b : Block) (p n : Nat) : Nat := n * 1000000 * b.rd F.BW_SCHED_LC_SHARE p / 256

/-! ### Measurement of programs (R438) -/

/-- A program image whose digest is given by a draw enters the measurement log of a slice once for each (slice, VA, ILEN) the table holds (R437, R438). -/
def Block.digestAs (b : Block) (d sl va len : Nat) : Block :=
  if b.quay.digested.contains (sl, va, len) then b
  else
    let t := b.quay.digested
    let t := (if 8192 ≤ t.length then t.drop 1 else t) ++ [(sl, va, len)]
    ({ b with quay := { b.quay with digested := t } }).measure sl 1 0 va (Config.freeDigest d)

/-- Quay measures a program image (R438). -/
def Block.digestProgram (b : Block) (sl va len : Nat) : Block :=
  if b.quay.digested.contains (sl, va, len) then b
  else
    let (d, b) := b.draw
    b.digestAs d sl va len

/-! ### Slices going away -/

/-- The reads of tasks that meet a condition are given up: those that wait in lanes leave them, and the answers of the others are nobody's. -/
def Block.dropReading (b : Block) (ok : StampTask → Bool) : Block :=
  let ids := (b.pilot.reading.filter fun x => ok x.2.task).map (·.1)
  let keep (r : MemReq) : Bool := match r.who with | .lists id => !ids.contains id | _ => true
  { b with
    pilot := { b.pilot with reading := b.pilot.reading.filter fun x => !ok x.2.task }
    ports := { b.ports with lanes := b.ports.lanes.map fun l => (l.1, l.2.filter fun q => keep q.req) } }

/-- Tasks that meet a condition are given up, with what they wait for and what they read (R299, R351). -/
def Block.dropTasks (b : Block) (ok : StampTask → Bool) : Block :=
  { b with pilot := { b.pilot with
      streams := b.pilot.streams.filter fun x => !ok x.2
      waiting := b.pilot.waiting.filter fun x => !ok x } }.dropReading ok

/-- A slice's dirty log stops without a reply: the cached lines whose contents are in are written back (R325, R351). -/
def Block.stopLog (b : Block) (sl : Nat) : Block :=
  let b := (b.pilot.logLines.filter fun l => l.sl = sl && l.filled).foldl (fun b l => b.writeLine l) b
  { b with pilot := { b.pilot with
      dirty := tdel b.pilot.dirty sl
      logLines := b.pilot.logLines.filter fun l => l.sl ≠ sl
      harvests := b.pilot.harvests.filter fun h => h.sl ≠ sl } }

/-- Assign granules first to first + count − 1, or clear them (R320, R327). -/
def Block.setGranules (b : Block) (first count : Nat) (owner : Option Nat) : Block :=
  (List.range count).foldl (fun b i =>
    let g := first + i
    let w := (b.reg .plGranule (g / 4)).toNat
    let sh := 2 ^ (16 * (g % 4))
    let old := w / sh % 65536 * sh
    let new := match owner with | some o => (32768 + o) * sh | none => 0
    b.setReg .plGranule (g / 4) (BitVec.ofNat 64 (w - old + new))) b

/-- A slice is gone: its binding, vectors, registers, quotas, granules and key (R351 steps 4 to 6; the undoing of R331). -/
def Block.dropSlice (b : Block) (sl : Nat) : Block :=
  match tget b.quay.slices sl with
  | none => b
  | some x =>
    let b := b.setGranules x.granFirst x.granCount none
    let b := (b.freeStamps ((b.pilot.stamps.filter fun y => y.2.slice = sl).map (·.1))).stopLog sl
    let b : Block := { b with
      quay := { b.quay with
        slices := tdel b.quay.slices sl
        queues := b.quay.queues.filter fun q => q.2.slice ≠ sl
        ctxs := b.quay.ctxs.filter fun c => c.2.slice ≠ sl
        ctxFreed := b.quay.ctxFreed ++ ((b.quay.ctxs.filter fun c => c.2.slice = sl).map fun c => c.1) }
      pilot := { b.pilot with
        stamps := b.pilot.stamps.filter fun y => y.2.slice ≠ sl
        cache := cachePurge b.pilot.cache (some x.pasid) 0 (2 ^ 64) }
      ports := { b.ports with keys := tdel b.ports.keys sl } }
    ((((b.setReg .bwSlice sl 0).setReg .qySquota sl 0).setReg .plSquota sl 0).setReg .mfSquota sl 0).setReg .cuKey sl 0

/-! ### What follows stamping -/

/-- Entries a slice may still take (R307). -/
def Block.stampRoom (b : Block) (sl : Nat) : Nat := b.rd F.PL_SQUOTA_QUOTA sl - b.stampsUsed sl

/-- A command's buffers are covered: steps 6 and 7 of R282, then it waits for its fences and a unit. -/
def Block.cmdStamped (b : Block) (c : Nat) (t : StampTask) : Block :=
  match tget b.quay.cmds c with
  | none => b
  | some x =>
    if x.ph ≠ .stamping then b
    else if b.stampRoom x.slice < t.entries then b.endCmd c stQuota 6
    else
      let n := match x.body with | .tensor y => y.streams | _ => 0
      if (b.partBerths (b.slicePart x.slice)).length < n then b.endCmd c stUnavailable 7
      else
        let (hs, b) := b.writeStamps t.slice t.ctx t.done
        b.modCmd c fun x => { x with heads := hs, ph := .waiting }

/-- A command fails a check of R282: its status and its step stand in the record; after steps 1 to 3 there is no signal (R285). -/
def Block.checkFailed (b : Block) (c step st : Nat) : Block :=
  let b := b.countCheck step
  let b := if step ≤ 3 then b.modCmd c fun x => { x with noSignal := true } else b
  b.endCmd c st step

/-- Steps 1 to 4 of R282: the step that DETAIL names and the status. -/
def Block.checkSlot (b : Block) (sl bind : Nat) (f : Fetched) (s : SyncExt) (body : Body) : Option (Nat × Nat) :=
  match b.checkHead sl bind f.hdr s with
  | some r => some r
  | none =>
    if 8 < f.hdr.nbuf || (f.hdr.nbuf ≠ 0 && f.hdr.bufsVa % 16 ≠ 0) || !body.slotOk f.hdr.nbuf then some (4, stAborted) else none

/-- Step 5 of R282 on the bytes read. -/
def Block.checkBytes (b : Block) (sl : Nat) (f : Fetched) (body : Body) : Option (Nat × Nat) :=
  if !f.readable then some (5, stTranslation)
  else if !body.bytesOk f.bufs then some (4, stAborted)
  else match body with
    | .move m => if m.holdDst && !b.holdWritable sl m.hold then some (4, stProtection) else none
    | _ => none

/-- The checks of R282 on what was fetched, up to the buffers' stamping. -/
def Block.checkFetched (b : Block) (sl bind : Nat) (f : Fetched) (s : SyncExt) (body : Body) : Option (Nat × Nat) :=
  match b.checkSlot sl bind f s body with
  | some r => some r
  | none => b.checkBytes sl f body

/-- A task waits for a stream (R306). -/
def Block.waitTask (b : Block) (t : StampTask) : Block := { b with pilot := { b.pilot with waiting := b.pilot.waiting ++ [t] } }

/-- A command's lists have been read (R282 step 5): its buffers and its image are stamped next. -/
def Block.listsRead (b : Block) (c : Nat) (f : Fetched) (body : Body) : Block :=
  match tget b.quay.cmds c with
  | none => b
  | some x =>
    if x.ph ≠ .stamping then b
    else match b.checkBytes x.slice f body with
      | some (step, st) => b.checkFailed c step st
      | none => b.waitTask (StampTask.new x.slice f.hdr.ctx (.command c) (needsOf f.bufs body.image))

/-- The rings of a queue: what Pilot stamps at QUEUE_CREATE (R268). -/
def QueueBody.rings (q : QueueBody) : List Need :=
  [⟨q.sqVa, 64 * 2 ^ q.n, true, false, false, 0⟩, ⟨q.cqVa, 32 * 2 ^ q.m, false, true, false, 1⟩]

/-- What lies in the runs a task has covered is read (R282, R303), through the OTHER lanes of its slice's partition (R333 to R335): request by request, of a 128-byte unit in device DRAM, of at most 512 bytes in host memory. -/
def Block.readLists (b : Block) (t : StampTask) : Block :=
  let id := b.pilot.nextRead
  let who := Sender.lists id
  let runs := t.done.flatMap fun x => x.2.map fun r => (x.1.va, r)
  let reqs := runs.flatMap fun (va, r) =>
    if r.cls = 0 then (unitPieces r.phys (r.len + 1) r.len 0).map fun (o, n) => memReq who (r.phys + o) n false t.slice t.ctx (va + r.boff + o)
    else (List.range (cdiv r.len 512)).map fun i =>
      { memReq who (r.phys + 512 * i) (min 512 (r.len - 512 * i)) false t.slice t.ctx (va + r.boff + 512 * i) with port := 26, sub := 0 }
  let b : Block := { b with pilot := { b.pilot with
    reading := tput b.pilot.reading id ⟨reqs.length, runs.any fun x => !x.2.read, t⟩
    nextRead := id + 1 } }
  reqs.foldl (fun b r => b.toLane (b.slicePart t.slice) r) b

/-- A standing command's lists have been read (R288): the rings, its buffers and its image are stamped next. -/
def Block.standingLists (b : Block) (e : Env) (sl : Nat) (h : CmdHdr) (q : QueueBody) (f : Fetched) (body : Body) : Block :=
  match b.checkBytes sl f body with
  | some (step, st) => b.adminDone e sl h st step 0
  | none => b.waitTask (StampTask.new sl f.hdr.ctx (.queue sl h q (some (f, body))) (QueueBody.rings q ++ needsOf f.bufs body.image))

/-- A standing command has been read at STANDING_VA (R288): it is checked under R282 once. -/
def Block.standingRead (b : Block) (e : Env) (sl : Nat) (h : CmdHdr) (q : QueueBody) (f : Fetched) (body : Body) : Block :=
  match b.checkSlot sl q.bind f (if f.hdr.ext then f.sync else SyncExt.none) body with
  | some (step, st) => (b.countCheck step).adminDone e sl h st step 0
  | none => match listsOf f.hdr body with
    | [] => b.standingLists e sl h q f body
    | l => b.waitTask (StampTask.new sl f.hdr.ctx (.standing sl h q f body true) l)

/-- The rings, and a standing command's buffers, are covered: the queue is created (R288, R297). -/
def Block.queueStamped (b : Block) (e : Env) (sl : Nat) (h : CmdHdr) (q : QueueBody) (st : Option (Fetched × Body)) (t : StampTask) : Block :=
  let load := if q.lc then b.lcLoad e sl q st else some 0
  let p := b.slicePart sl
  let streams := match st with | some (_, .tensor y) => y.streams | _ => 0
  if b.stampRoom sl < t.entries then b.adminDone e sl h stQuota (if st.isSome then 6 else 0) 0
  else if (b.partBerths p).length < streams then b.adminDone e sl h stUnavailable 7 0
  else if 8192 ≤ b.quay.queues.length then b.adminDone e sl h stQuota 0 0
  else match load with
    | none => b.adminDone e sl h stQuota 0 0
    | some l =>
      if q.lc ∧ b.lcCapacity p (b.partBerths p).length < b.rd F.BW_SCHED_LC_LOAD p + l then b.adminDone e sl h stQuota 0 0
      else
        let (hs, b) := b.writeStamps sl t.ctx t.done
        let qn := b.newQueueNo
        let stand := st.map fun (f, body) => (f, body, hs.drop 2)
        let x : Queue := ⟨sl, q.k, q.cls, q.n, q.m, .live, q.bind, q.vector, q.depth, q.moderate, q.lc, l, 0, 0, 0, 0, stand, none, false, 0,
          hs.take 2, [], 0, false, none, 0, q.rate, q.standingVa⟩
        let b := { b with quay := { b.quay with queues := tput b.quay.queues qn x } }
        let b := b.wr F.BW_SCHED_LC_LOAD p (b.rd F.BW_SCHED_LC_LOAD p + l)
        let b := match st with
          | some (_, .tensor y) => b.digestProgram sl y.prog y.img.ilen
          | _ => b
        b.adminDone e sl h stOK 0 qn

/-- The admin rings are covered: queue 0 exists, the base context's record is written, and the slice is ACTIVE (R296, R332). Rings whose entries the stamp store cannot hold beside the other quotas are not stamped (R307, R331); no queue beyond 8,192 is created (R265). -/
def Block.sliceStamped (b : Block) (e : Env) (sl : Nat) (m : Mgr) (r : SliceRec) (t : StampTask) : Block :=
  let ctx := b.baseCtxOf sl
  let others := (b.quay.slices.filter fun x => x.1 ≠ sl).foldl (fun k x => k + b.rd F.PL_SQUOTA_QUOTA x.1) 0
  if 262144 < others + t.entries then (b.dropSlice sl).endMgr e m 0x0106 rcBadArg
  else if 8192 ≤ b.quay.queues.length then (b.dropSlice sl).endMgr e m 0x0106 rcNoResource
  else
    let b := if b.rd F.PL_SQUOTA_QUOTA sl < t.entries then b.wr F.PL_SQUOTA_QUOTA sl t.entries else b
    let (hs, b) := b.writeStamps sl ctx t.done
    let qn := b.newQueueNo
    let x : Queue := ⟨sl, 0, 0, r.adminN, r.adminM, .live, 0, none, 256, 0, false, 0, 0, 0, 0, 0, none, none, false, 0, hs, [], 0, false, none, 0, 0, 0⟩
    let b := { b with quay := { b.quay with queues := tput b.quay.queues qn x } }
    let b := b.wr F.BW_SLICE_STATE sl slActive
    let b := b.postRecord e qn ⟨ctx, 0, 0, ctx, stOK, 0, none, 0, false⟩ none none [] false false
    let ok := b.rd F.QY_SQUOTA_CONTEXTS sl = r.qContexts ∧ b.rd F.QY_SQUOTA_INFLIGHT sl = r.qInflight ∧ b.rd F.QY_SQUOTA_FENCES sl = r.qFences ∧
      b.rd F.QY_SQUOTA_QUEUES sl = r.qQueues ∧ b.rd F.PL_SQUOTA_QUOTA sl = r.stampQuota ∧ b.rd F.MF_SQUOTA_QUOTA sl = r.serveQuota
    if ok then b.endMgr e m 0x0106 rcDone
    else b.endMgr e m 0x0106 rcClamped [(b.reg .qySquota sl).toNat, b.rd F.PL_SQUOTA_QUOTA sl, b.rd F.MF_SQUOTA_QUOTA sl]

/-- What Pilot stamps for one queue of an export image: its rings, and a standing command's buffers and image. -/
def imageNeeds (q : ImageQueue) : List Need :=
  [⟨q.body.sqVa, 64 * 2 ^ q.body.n, true, false, false, 0⟩, ⟨q.body.cqVa, 32 * 2 ^ q.body.m, false, true, false, 1⟩] ++
    match q.held with
    | some (f, body) => needsOf (f.bufs.take f.hdr.nbuf) body.image
    | none => []

/-- What Pilot stamps for an export image: the rings of its queues, then its commands. -/
def sliceNeeds (img : SliceImage) : List Need :=
  img.queues.flatMap imageNeeds ++ img.jobs.flatMap fun j => needsOf j.bufs j.body.image

/-- Whether a command is an ARM (R236). -/
def isArm : Body → Bool
  | .serve 1 _ _ _ => true
  | _ => false

/-- The queues of an export image are created with their positions (R352, R353): each takes the stamps of its needs, in order. The answer names the queues. -/
def Block.importQueues (e : Env) (sl : Nat) : List ImageQueue → List (Need × List RunRec) → Block → List Nat × Block
  | [], _, b => ([], b)
  | q :: qs, done, b =>
    let k := (imageNeeds q).length
    let base := ((tget b.quay.slices sl).map (·.baseCtx)).getD 0
    let (hs, b) := b.writeStamps sl (match q.held with | some (f, _) => f.hdr.ctx | none => base) (done.take k)
    let y := q.body
    let load := if y.lc then (b.lcLoad e sl y q.held).getD 0 else 0
    let p := b.slicePart sl
    let x : Queue := ⟨sl, y.k, y.cls, y.n, y.m, .live, y.bind, y.vector, y.depth, y.moderate, y.lc, load, q.tail, q.head, q.cqHead, q.cqTail,
      q.held.map fun (f, body) => (f, body, hs.drop 2), none, false, 0, hs.take 2, [], 0, false, none, 0, y.rate, y.standingVa⟩
    let qn := b.newQueueNo
    let b := { b with quay := { b.quay with queues := tput b.quay.queues qn x } }
    let (ns, b) := Block.importQueues e sl qs (done.drop k) (b.wr F.BW_SCHED_LC_LOAD p (b.rd F.BW_SCHED_LC_LOAD p + load))
    (qn :: ns, b)

/-- The job number that saved streams of an import bear until their commands exist: no command has it. -/
def importJob (i : Nat) : Nat := 2 ^ 64 + i

/-- A saved stream of an export image takes the lowest free slot (R344, R353). -/
def Block.importSlot (e : Env) (sl c : Nat) (b : Block) (v : Saved) : Block :=
  match b.freeSlots e with
  | [] => b
  | k :: _ => { b with slots := tput b.slots k { v with stream := { v.stream with job := c, slice := sl }, early := decide (256 ≤ k) } }

/-- What an import takes before its rings are stamped (R353): its context and fence numbers, its Manifest entries, and the slots of its saved streams. -/
def Block.importReserve (b : Block) (e : Env) (sl : Nat) (img : SliceImage) : Block :=
  let seq (y : ImageSeq) : SeqEntry :=
    { slice := sl, g := y.g, phase := y.phase, onFallback := y.onFallback, position := y.position, pending := y.pending
      parkReason := y.parkReason, resumePhase := y.resumePhase, fbPos := y.fbPos, kvPos := y.kvPos, pages := y.pages, fbPages := y.fbPages
      pred := 0, inList := false, fbModel := none, parkedAt := 0, lastEnd := 0, deferUpdate := none, deferPark := false
      deferRelease := false, anyFallback := false }
  let b : Block := { b with
    quay := { b.quay with
      ctxs := img.ctxs.foldl (fun t c => tput t c (⟨sl, .live, 0, none⟩ : Ctx)) b.quay.ctxs
      ctxFreed := b.quay.ctxFreed.filter fun c => !img.ctxs.contains c
      fences := img.fences.foldl (fun t f => tput t f.num (⟨f.value, f.owner, sl, f.rights.map fun g => (⟨g.1, g.2.1, g.2.2⟩ : Grant), f.mirror, f.broken⟩ : Fence)) b.quay.fences
      fenceFreed := b.quay.fenceFreed.filter fun f => !(img.fences.any fun x => x.num = f) }
    manifest := { b.manifest with seqs := img.seqs.foldl (fun t y => tput t y.num (seq y)) b.manifest.seqs } }
  (List.zipIdx img.jobs).foldl (fun b (j, i) => j.slots.foldl (Block.importSlot e sl (importJob i)) b) b

/-- An import that fails gives back what it took. -/
def Block.dropImport (b : Block) (sl : Nat) : Block :=
  let fs := (b.quay.fences.filter fun f => f.2.slice = sl).map (·.1)
  let b : Block := { b with
    quay := { b.quay with fences := b.quay.fences.filter fun f => f.2.slice ≠ sl, fenceFreed := b.quay.fenceFreed ++ fs }
    manifest := { b.manifest with seqs := b.manifest.seqs.filter fun y => y.2.slice ≠ sl } }
  (b.dropSlots fun v => v.stream.slice = sl).dropSlice sl

/-- The commands of an export image are held again, with their stamps (R349, R353): those with slots are saved jobs, the ARM is open, the others have not been dispatched. -/
def Block.importJobs (sl : Nat) (ns : List Nat) : (i : Nat) → List ImageJob → List (Need × List RunRec) → Block → Block
  | _, [], _, b => b
  | i, j :: js, done, b =>
    let k := (needsOf j.bufs j.body.image).length
    let b := match ns[j.queue]?.bind fun qn => (tget b.quay.queues qn).map fun q => (qn, q) with
      | none => b
      | some (qn, q) =>
        let (hs, b) := b.writeStamps sl j.hdr.ctx (done.take k)
        let arm := isArm j.body
        let saved := !j.slots.isEmpty
        let (c, b) := b.addCmd { Cmd.new qn q j.hdr j.sync j.body j.bufs with
          heads := hs, ph := if saved then .saved else if arm then .running else .waiting, ran := saved || arm
          launchPos := j.launchPos, anchorFlags := j.anchorFlags, busy := j.busy, copied := j.copied }
        let b : Block := if arm then { b with manifest := { b.manifest with armed := tmod b.manifest.armed sl fun a => { a with cmd := c } } } else b
        { b with slots := b.slots.map fun y => if y.2.stream.job = importJob i ∧ y.2.stream.slice = sl then (y.1, { y.2 with stream := { y.2.stream with job := c } }) else y }
    Block.importJobs sl ns (i + 1) js (done.drop k) b

/-- The rings and commands of an imported slice are covered: its queues and commands exist, and the slice is QUIESCED (R353). -/
def Block.importStamped (b : Block) (e : Env) (sl : Nat) (m : Mgr) (img : SliceImage) (t : StampTask) : Block :=
  if b.stampRoom sl < t.entries ∨ 8192 < b.quay.queues.length + img.queues.length then (b.dropImport sl).endMgr e m 0x010C rcNoResource
  else
    let b : Block := { b with manifest := { b.manifest with
      armed := match img.arm with
        | some a => if img.jobs.any fun j => isArm j.body then tput b.manifest.armed sl { a with disarm := none } else b.manifest.armed
        | none => b.manifest.armed } }
    let b := b.modSlice sl fun s => { s with savedMode := true }
    let (ns, b) := Block.importQueues e sl img.queues t.done b
    let b := Block.importJobs sl ns 0 img.jobs (t.done.drop (img.queues.flatMap imageNeeds).length) b
    (b.wr F.BW_SLICE_STATE sl slQuiesced).endMgr e m 0x010C rcDone

/-- A model's programs and weights are covered: it is registered (R232, R233), and measured for OWNER and SHARE (R438). -/
def Block.modelStamped (b : Block) (e : Env) (m : Mgr) (slot : Nat) (r : ModelRec) (pre step : ModelProg) (t : StampTask) : Block :=
  if b.stampRoom r.owner < t.entries then b.endMgr e m 0x0701 rcNoResource
  else
    let (hs, b) := b.writeStamps r.owner t.ctx t.done
    let b := { b with manifest := { b.manifest with models := tput b.manifest.models slot ⟨r, pre, step, hs⟩ } }
    let (d, b) := b.draw
    let (d', b) := b.draw
    let (d'', b) := b.draw
    let b := (r.owner :: r.share.toList).foldl (fun b sl =>
      let b := (b.digestAs d sl r.progPrefill pre.img.ilen).digestAs d' sl r.progStep step.img.ilen
      if r.inHold then b else b.measure sl 4 slot r.weights (Config.freeDigest d'')) b
    b.endMgr e m 0x0701 rcDone [slot]

/-- A view's page is covered (R526); its entries carry the slice's tags, those of its base context (R31, R318). -/
def Block.viewStamped (b : Block) (e : Env) (m : Mgr) (sl va : Nat) (t : StampTask) : Block :=
  if b.stampRoom sl < t.entries then b.endMgr e m 0x0606 rcNoResource
  else
    let (hs, b) := b.writeStamps sl t.ctx t.done
    (b.modSlice sl fun s => { s with view := some (va, hs.headD 0, 0) }).endMgr e m 0x0606 rcDone

/-- A fence's mirror is disabled (R294). -/
def Block.noMirror (b : Block) (f : Nat) : Block :=
  { b with quay := { b.quay with fences := tmod b.quay.fences f fun x => { x with mirror := none } } }

/-- A mirror's page is covered: the write goes out, or a page without write permission disables the mirror (R294). -/
def Block.mirrorStamped (b : Block) (e : Env) (f va sl v : Nat) (t : StampTask) : Block :=
  match t.done.flatMap (·.2) with
  | [r] => if r.write then b.postWrite e sl (b.baseCtxOf sl) r.phys r.cls va (leBytes 8 v) (.mirror f r.phys sl v) else b.noMirror f
  | _ => b.noMirror f

/-- A task has covered its buffers; a re-stamp stays in its stream until RESTAMP_COMPLETE. -/
def Block.stamped (b : Block) (e : Env) (t : StampTask) : Block :=
  match t.why with
  | .mirror f va v => b.mirrorStamped e f va t.slice v t
  | .lists .. | .standing .. => b.readLists t
  | .command c => b.cmdStamped c t
  | .queue sl h q st => b.queueStamped e sl h q st t
  | .adminQueue sl m r => b.sliceStamped e sl m r t
  | .imported sl m img => b.importStamped e sl m img t
  | .model m slot r pre step => b.modelStamped e m slot r pre step t
  | .view m sl va => b.viewStamped e m sl va t
  | .restamp _ => b

/-- A task has failed with a status (R282 step 5, R311). -/
def Block.stampFailed (b : Block) (e : Env) (t : StampTask) (st : Nat) : Block :=
  match t.why with
  | .mirror f _ _ => b.noMirror f
  | .lists c _ _ => match tget b.quay.cmds c with
    | some x => if x.ph = .stamping then b.endCmd c stTranslation 5 else b
    | none => b
  | .standing sl h _ _ _ _ => b.adminDone e sl h stTranslation 5 0
  | .command c => match tget b.quay.cmds c with
    | some x => if x.ph = .stamping then b.endCmd c st 5 else b
    | none => b
  | .queue sl h _ stand => b.adminDone e sl h st (if stand.isSome ∧ 2 ≤ t.done.length then 5 else 0) 0
  | .adminQueue sl m _ => (b.dropSlice sl).endMgr e m 0x0106 rcBadArg
  | .imported sl m _ => (b.dropImport sl).endMgr e m 0x010C rcBadArg
  | .model m _ _ _ _ => b.endMgr e m 0x0701 rcBadArg
  | .view m _ _ => b.endMgr e m 0x0606 rcBadArg
  | .restamp _ => b

/-- The lists of a task have been read (R282, R288). -/
def Block.listsIn (b : Block) (e : Env) (t : StampTask) : Block :=
  match t.why with
  | .lists c f body => b.listsRead c f body
  | .standing sl h q f body lists => if lists then b.standingLists e sl h q f body else b.standingRead e sl h q f body
  | _ => b

/-! ### Streams -/

/-- A task that is a re-stamp. -/
def StampTask.restamps (t : StampTask) : Bool := match t.why with | .restamp _ => true | _ => false

/-- Run the task of a stream over what the cache holds: it ends, or asks the host (R306, R310 to R312). -/
def Block.runTask (b : Block) (e : Env) (s : Nat) (t : StampTask) : Block :=
  let free (b : Block) : Block := { b with pilot := { b.pilot with streams := tdel b.pilot.streams s } }
  let keep (b : Block) (t : StampTask) : Block := { b with pilot := { b.pilot with streams := tput b.pilot.streams s t } }
  match advance e (advanceFuel b t) b { t with asked := none } with
  | (t, .done, b) => if t.restamps then keep b t else (free b).stamped e t
  | (t, .miss va, b) => b.ask s t va
  | (t, .fault va, b) => b.askPage e s t va
  | (t, .fail st, b) => if t.restamps then keep b { t with failed := some st } else (free b).stampFailed e t st

/-- Give waiting tasks the streams that are free, oldest first (R306); none starts while the Invalidation under way overlaps its buffers. -/
def Block.startWaiting (b : Block) (e : Env) : Block :=
  b.pilot.waiting.foldl (fun b t =>
    if t.halt then b
    else match b.freeStream t with
      | none => b
      | some s =>
        let b := { b with pilot := { b.pilot with waiting := b.pilot.waiting.erase t, streams := tput b.pilot.streams s t } }
        b.runTask e s t) b

/-- Start what can start; a list that has been read brings the task of its command, a standing command's the one of its queue. -/
def Block.startTasks (b : Block) (e : Env) : Block := ((b.startWaiting e).startWaiting e).startWaiting e

/-- A new task: it starts on a stream of its own, or waits for one (R306). -/
def Block.newTask (b : Block) (e : Env) (t : StampTask) : Block :=
  match b.freeStream t with
  | some s => b.runTask e s t
  | none => b.waitTask t

/-- The reads of a task are all answered: its lists are in, or one could not be read, which fails its command (R282, R303). -/
def Block.readDone (b : Block) (e : Env) (who : Sender) : Block :=
  match who with
  | .lists id =>
    match tget b.pilot.reading id with
    | some x =>
      if x.left ≠ 0 then b
      else
        let b : Block := { b with pilot := { b.pilot with reading := tdel b.pilot.reading id } }
        (if x.bad then b.stampFailed e x.task stTranslation else b.listsIn e x.task).startTasks e
    | none => b
  | _ => b

/-- All tasks whose reads are answered. -/
def Block.readsDone (b : Block) (e : Env) : Block := b.pilot.reading.foldl (fun b x => b.readDone e (.lists x.1)) b

/-- A task whose stamping starts over (R301, R317). -/
def StampTask.restart (t : StampTask) : StampTask :=
  { t with needs := t.done.map (·.1) ++ t.needs, at_ := 0, cur := [], done := [], asked := none, crossed := [], halt := false, failed := none, answered := none }

/-! ### Ring pages that cannot be translated (R287) -/

/-- A queue is BROKEN, and a notice record goes to the slice's admin ring (R287). -/
def Block.breakQueue (b : Block) (e : Env) (qn : Nat) : Block :=
  match tget b.quay.queues qn with
  | none => b
  | some q =>
    if q.st = .broken then b
    else
      let b := (b.modQueue qn fun q => { q with st := .broken }).dropHeld e qn
      match b.findQueue q.slice 0 with
      | some (an, a) =>
        if an = qn ∨ a.st = .broken then b.bump F.QY_CMD_STAT_CQ_DROP
        else b.postRecord e an ⟨q.k, 0xFFFFFFFF, 0, 0, stTranslation, 0, none, 0, false⟩ none none [] false false
      | none => b

end Sys2Proof.Machine
end

