-- ==== Sys2Proof/Machine/InvalOps.lean ====
section
/-! DEFINITION. Withdrawing a mapping (R226, R227, R313 to R317): marking stamps stale, what holders do, the end of an invalidation, re-stamping. -/

namespace Sys2Proof.Machine

open Sys2Proof

/-- Two ranges of virtual pages of 4 KiB overlap. -/
def pagesMeet (va len va' len' : Nat) : Bool :=
  decide (0 < len ∧ 0 < len' ∧ va / 4096 ≤ (va' + len' - 1) / 4096 ∧ va' / 4096 ≤ (va + len - 1) / 4096)

/-- The slices an Invalidation Request is for: none for every slice, else the one its PASID is bound to (R310, R315). -/
def Block.invalSlice (b : Block) (pasid : Option Nat) (sl : Nat) : Bool :=
  match pasid with
  | none => true
  | some p => b.pasidSlice p = some sl

/-- The heads whose range meets an invalidation. -/
def Block.matchHeads (b : Block) (x : Inval) : List Nat :=
  b.pilot.stamps.filterMap fun (i, s) => match s with
    | .head l v _ _ sl _ _ _ _ _ _ _ => if b.invalSlice x.pasid sl && pagesMeet v l x.va x.size then some i else none
    | _ => none

/-- Set STALE in a head and in its runs that meet the range (R315). -/
def Block.markStale (b : Block) (x : Inval) (h : Nat) : Block :=
  match tget b.pilot.stamps h with
  | some (.head l v r f s c _ im rd wr bf g) =>
    let runs := stampRuns b.pilot.stamps r f
    let t := tput b.pilot.stamps h (.head l v r f s c true im rd wr bf g)
    let t := runs.foldl (fun t y => match y.2 with
      | .run p o n s c st la cl r w pg nx => tput t y.1 (.run p o n s c (st || pagesMeet (v + o) n x.va x.size) la cl r w pg nx)
      | _ => t) t
    { b with pilot := { b.pilot with stamps := t } }
  | _ => b

/-- An Invalidation Request arrives while a translation of its slice is outstanding: the completion is held against its range (R313). -/
def Block.overtaken (b : Block) (pasid : Option Nat) (va size : Nat) (t : StampTask) : StampTask :=
  match t.asked with
  | some _ => if t.pageReq.isNone && !t.pageWait && b.invalSlice pasid t.slice then { t with crossed := t.crossed ++ [(va, size)] } else t
  | none => t

/-- A request lies on a marked run of one of the heads. -/
def Block.onStale (b : Block) (heads : List Nat) (r : MemReq) : Bool :=
  heads.any fun h => match b.head h with
    | some v => decide (v.slice = r.slice) && (stampRuns b.pilot.stamps v.runs v.first).any fun y => match y.2 with
      | .run p _ n _ _ st _ cl _ _ _ _ => st && decide ((cl = 0) = (r.port < 26) ∧ p < r.addr + r.len ∧ r.addr < p + n)
      | _ => false
    | none => false

/-- A stream that was saved, is being saved or has been restored, and has not been stopped. -/
def Block.lives (b : Block) (of_ : Nat × Nat) : Bool :=
  let is (s : Stream) : Bool := s.job = of_.1 && s.rank = of_.2 && !s.stopped
  (b.slots.any fun x => is x.2.stream) || b.berths.any fun x => (x.2.stream.map is) == some true

/-- A request that engine k of a berth issued before its stream was saved lies on a marked run and is not answered yet (R228). Of a stream that has been given up none is waited for. -/
def Block.strayOut (b : Block) (n k : Nat) (heads : List Nat) : Bool :=
  let mine (r : MemReq) : Bool := match r.who with
    | .stray n' k' (some o) _ => n' = n && k' = k && b.lives o && b.onStale heads r
    | _ => false
  (b.ports.out.any fun x => mine x.2) || (b.ports.lanes.any fun l => l.2.any fun q => mine q.req) ||
  !heads.isEmpty && b.host.reads.any fun x => match x.2 with
    | .stray n' k' (some o) => n' = n && k' = k && b.lives o
    | _ => false

/-- The engines that have sent such requests: an invalidation waits for them as for its holders (R226, R228). -/
def Block.strayEngines (b : Block) (heads : List Nat) : List Holder :=
  ((List.range 16).flatMap fun n => [(n, 0), (n, 1)]).filterMap fun (n, k) => if b.strayOut n k heads then some (.engine n k) else none

/-- Begin the Invalidation at the front (R315): the cache is purged, translations in flight are marked, stamps go stale, notices go to the holders in the heads' masks. -/
def Block.beginInval (b : Block) (e : Env) : Block :=
  match b.pilot.invals with
  | [] => b
  | x :: rest =>
    let hit (t : StampTask) : Bool := b.invalSlice x.pasid t.slice && (t.done.map (·.1) ++ t.needs).any fun n => pagesMeet n.va n.len x.va x.size
    let mark (t : StampTask) : StampTask := if hit t then { t with halt := true } else t
    -- lists being read from the range are read again after the completion (R301)
    let again := (b.pilot.reading.map (·.2.task)).filter hit
    let b := b.dropReading hit
    let heads := b.matchHeads x
    let b := heads.foldl (fun b h => b.markStale x h) b
    let who := ((heads.flatMap fun h => tgetD b.pilot.holders h []) ++ b.strayEngines heads).eraseDups
    let x := { x with heads := heads, waiting := who, since := e.now }
    let notes := who.map fun w => (w, heads.filter fun h => (tgetD b.pilot.holders h []).contains w)
    { b with pilot := { b.pilot with
        cache := cachePurge b.pilot.cache x.pasid x.va x.size
        streams := b.pilot.streams.map fun y => (y.1, mark y.2)
        waiting := (b.pilot.waiting ++ again).map mark
        notices := b.pilot.notices ++ notes
        invals := x :: rest } }

/-- Start or restart the re-stamp of a head (R317). -/
def Block.restampHead (b : Block) (e : Env) (h : Nat) : Block :=
  match b.head h with
  | none => b
  | some v =>
    if !v.stale then b
    else
      let same (t : StampTask) : Bool := match t.why with | .restamp h' => h' = h | _ => false
      match b.pilot.streams.find? fun y => same y.2 with
      | some (s, t) => if t.asked.isSome && !t.pageWait then b else b.runTask e s t.restart
      | none =>
        if b.pilot.waiting.any same then b
        else b.newTask e (StampTask.new v.slice v.ctx (.restamp h) [⟨v.va, v.blen, v.read, v.write, v.image, v.buf⟩])

/-- Tasks halted by an invalidation start over once it has completed (R301, R317): one with a translation or a Page Request outstanding begins again with the answer. -/
def Block.unhalt (b : Block) (e : Env) : Block :=
  let b : Block := { b with pilot := { b.pilot with waiting := b.pilot.waiting.map fun t => if t.halt then t.restart else t } }
  b.pilot.streams.foldl (fun b (s, t) =>
    if !t.halt then b
    else if t.asked.isSome && !t.pageWait then
      { b with pilot := { b.pilot with streams := tput b.pilot.streams s { t.restart with asked := t.asked, pageReq := t.pageReq, crossed := t.crossed } } }
    else b.runTask e s { t.restart with pageWait := false }) b

/-- Complete the Invalidation at the front when no holder is waited for: its completion leaves, re-stamping begins, and the next one begins (R315, R317). -/
def Block.endInvals (e : Env) : (fuel : Nat) → Block → Block
  | 0, b => b
  | k + 1, b =>
    match b.pilot.invals with
    | [] => b
    | x :: rest =>
      if !x.waiting.isEmpty then b
      else
        let b := ((b.bump F.PL_INV_STAT_COUNT).tallyG (x.pasid.bind b.pasidSlice) 0x105 0 1).send (.invalDone x.pasid x.va x.size)
        let b := if x.escalated then b else b.raiseMax F.PL_INV_STAT_MAX_NS 0 (e.now - x.since)
        let b := { b with pilot := { b.pilot with invals := rest } }
        let b := x.heads.foldl (fun b h => b.restampHead e h) (b.unhalt e)
        Block.endInvals e k ((b.startTasks e).beginInval e)

/-- All invalidations that can end now. -/
def Block.settleInvals (b : Block) (e : Env) : Block := Block.endInvals e (b.pilot.invals.length + 1) b

/-- A holder has let go of everything an invalidation marked before its notice reached it: it is not waited for (R317). -/
def Block.hasLetGo (b : Block) (x : Inval) (w : Holder) : Bool :=
  (b.pilot.notices.any fun n => n.1 = w) && !(x.heads.any fun h => (tgetD b.pilot.holders h []).contains w) && !(b.strayEngines x.heads).contains w

/-- Holders that have let go are no longer waited for, and their notices lapse (R317). -/
def Block.dropReleased (b : Block) (e : Env) : Block :=
  match b.pilot.invals with
  | [] => b
  | x :: rest =>
    let gone := x.waiting.filter fun w => b.hasLetGo x w
    if gone.isEmpty then b
    else ({ b with pilot := { b.pilot with
        invals := { x with waiting := x.waiting.filter fun w => !gone.contains w } :: rest
        notices := b.pilot.notices.filter fun n => !gone.contains n.1 } }).settleInvals e

/-! ### Holders -/

/-- Byte i of a transfer lies in a marked run of one of the heads. -/
def Block.onMarked (b : Block) (job : Nat) (heads : List Nat) (t : Xfer) (wr : Bool) (i : Nat) : Bool :=
  match t.spot wr i with
  | some (k, x, _) => match b.bufHead job k with
    | some h => heads.contains h && ((b.runAt h x).map (·.stale)).getD true
    | none => false
  | none => false

/-- Where one side of a transfer halts when `i` is the next byte it moves there (R226): at the next 4 KiB boundary, on a run that is stale. -/
def Block.haltAt (b : Block) (job : Nat) (t : Xfer) (wr : Bool) (i : Nat) : Nat :=
  if ((b.spotRun job t wr i).map fun x => x.1.stale) == some true then b.boundary job t wr i else i

/-- A transfer that uses a marked head stops queuing requests past the next 4 KiB boundary, on its destination too if it copies (R226). A copy's source goes no further than its piece, and where stale runs keep a piece from being read whole, no byte of it leaves. -/
def Block.haltXfer (b : Block) (n k job : Nat) (t : Xfer) : Xfer :=
  match t.mv with
  | .copy c h =>
    let pe := pieceEnd c h.isSome t.done t.total
    let src := if t.issued < pe then min pe (b.haltAt job t false t.issued) else t.issued
    let at_ := b.outAt n k t
    let stuck := b.reading n k t && decide (src < pe) && !b.spanFresh job c.srcBuf (c.srcOff + src) (pe - src)
    { t with halted := some src, haltedOut := if h.isSome then none else some (if stuck then at_ else b.haltAt job t true at_) }
  | _ => { t with halted := some (b.haltAt job t false t.issued), haltedOut := none }

/-- A holder receives a notice naming heads (R226, R228, R316, R322). -/
def Block.receiveNotice (b : Block) (w : Holder) (heads : List Nat) : Block :=
  match w with
  | .engine n k =>
    match (b.berth n).stream with
    | none => b
    | some s =>
      b.modEng n k fun l => l.map fun t =>
        if t.failed.isNone && t.bufs.any (fun i => match b.bufHead s.job i with | some h => heads.contains h | none => false) then
          b.haltXfer n k s.job t
        else t
  | .core g => b.modCore g fun c => { c with tlb := c.tlb.filter fun y => !heads.contains y.2.2.2.1 }
  | _ => b

/-- A request of a transfer on a marked run is not answered yet. -/
def Block.onMarkedOut (b : Block) (n k job : Nat) (heads : List Nat) (t : Xfer) : Bool :=
  (b.ports.out.any fun x => match x.2.who with
    | .engine n' k' s i => n' = n && k' = k && s = t.serial && b.onMarked job heads t x.2.write i
    | _ => false) ||
  (b.ports.lanes.any fun l => l.2.any fun q => match q.req.who with
    | .engine n' k' s i => n' = n && k' = k && s = t.serial && b.onMarked job heads t q.req.write i
    | _ => false) ||
  b.host.reads.any fun x => match x.2 with
    | .transfer n' k' s i _ => n' = n && k' = k && s = t.serial && b.onMarked job heads t false i
    | _ => false

/-- The holder that sends a request, where it is no engine. -/
def Sender.holder : Sender → Option Holder
  | .lighter n _ _ => some (.lighter n)
  | .ferry _ _ => some .ferry
  | .manifest => some .manifest
  | .record _ | .posted _ | .lists _ => some .quay
  | _ => none

/-- Requests a holder has sent on marked runs, or queued at a port, are not all answered (R315). -/
def Block.staleOut (b : Block) (w : Holder) (heads : List Nat) : Bool :=
  let mine (r : MemReq) : Bool := r.who.holder == some w && b.onStale heads r
  (b.ports.out.any fun x => mine x.2) || (b.ports.lanes.any fun l => l.2.any fun q => mine q.req) ||
  b.host.reads.any fun x => match x.2 with | .asked r => mine r | _ => false

/-- A Hold transfer's writes on marked runs, sent to a port, are not all answered (R228). -/
def Block.holdOut (b : Block) (heads : List Nat) : Bool :=
  b.berths.any fun (n, x) => match x.stream with
    | none => false
    | some s => [0, 1].any fun k => match x.eng k with
      | t :: _ => (match t.mv with | .hold _ _ (some _) => b.onMarkedOut n k s.job heads t | _ => false)
      | [] => false

/-- A holder has done what the notice asks: an engine's first transfer issues no request on a marked run short of its halt, and those it issued are answered (R226); of one that its berth saves, or has saved, the requests issued before (R228); of a transfer given up nothing is waited for (R228). Any other unit that has sent requests on a marked run waits for their answers, and sends no more (R315). -/
def Block.mayAck (b : Block) (w : Holder) (heads : List Nat) : Bool :=
  match w with
  | .engine n k =>
    !b.strayOut n k heads && match (b.berth n).stream, (b.berth n).eng k with
    | some s, t :: _ =>
      if (b.berth n).saving.isSome then true
      else if s.stopped || t.failed.isSome then true
      else
        let short (lim : Option Nat) (at_ : Nat) : Bool := match lim with | some x => decide (at_ < x ∧ at_ < t.total) | none => false
        !b.onMarkedOut n k s.job heads t &&
          !(short t.halted t.issued && b.onMarked s.job heads t false t.issued) &&
          !(short t.haltedOut (b.outAt n k t) && b.onMarked s.job heads t true (b.outAt n k t))
    | _, _ => true
  | .core _ => true
  | .hold => !b.holdOut heads
  | _ => !b.staleOut w heads

/-! ### The cores' address translation -/

/-- The largest naturally aligned span of at most 2 MiB around va inside lo to hi (R322): its base and size. -/
def alignedSpan (va lo hi : Nat) : (k : Nat) → Nat × Nat
  | 0 => (va, 1)
  | k + 1 =>
    let n := 2 ^ (k + 1)
    if lo ≤ va / n * n ∧ va / n * n + n ≤ hi then (va / n * n, n) else alignedSpan va lo hi k

/-- The buffer of a command that covers an address: its number and its first address. -/
def Block.coverOf (b : Block) (c va : Nat) : Option (Nat × Nat) :=
  let bufs := ((tget b.quay.cmds c).map (·.bufs)).getD []
  ((List.zipIdx bufs).find? fun (y, _) => decide (y.va ≤ va ∧ va < y.va + y.len)).map fun (y, i) => (i, y.va)

/-- A core's miss (R322): the covering run's span enters the TLB; on a stale stamp the miss waits. -/
def Block.tlbFill (b : Block) (e : Env) (g c va : Nat) : Block :=
  match b.coverOf c va with
  | none => b
  | some (i, base) =>
    match b.bufHead c i with
    | none => b
    | some h =>
      match b.head h, b.runAt h (va - base) with
      | some hv, some r =>
        if hv.stale || r.stale then b.modCore g fun k => { k with miss := some va }
        else
          let lo := base + r.boff
          let (at_, size) := alignedSpan va lo (lo + r.len) 21
          let entry := (at_, r.phys + (at_ - lo), size, h, r.read, r.write)
          (b.hold_ h (.core g)).modCore g fun k => { k with tlb := (entry :: k.tlb).take 64, miss := none, progress := e.now }
      | _, _ => b

/-! ### The end of a re-stamp -/

/-- Transfers that use a head go on from their resume offset on the new runs (R227, R228); misses that wait refill (R322); records held for the ring are written (R268); held Lighter requests go on (R64). -/
def Block.resumeHead (b : Block) (e : Env) (h gen : Nat) : Block :=
  let b := b.berths.foldl (fun b (n, _) =>
    match (b.berth n).stream with
    | none => b
    | some s =>
      let go (t : Xfer) : Xfer := if t.bufs.any (fun i => b.bufHead s.job i = some h) then { t with halted := none, haltedOut := none, gen := gen } else t
      let b := b.modBerth n fun x => { x with me0 := x.me0.map go, me1 := x.me1.map go }
      let b := b.kickBoth e n
      (b.flushStaged e n 0).flushStaged e n 1) b
  let b : Block := { b with pilot := { b.pilot with lost := tdel b.pilot.lost h } }
  let b := b.cores.foldl (fun b (g, k) => match k.task, k.miss with
    | some c, some va => b.tlbFill e g c va
    | _, _ => b) b
  let b := b.quay.queues.foldl (fun b q => if q.2.ringHeads.contains h then Block.releaseHeld e q.1 (q.2.held.length + 1) b else b) b
  b.lighters.foldl (fun b (n, l) =>
    let held := l.held
    let b := b.modLighter n fun l => { l with held := [] }
    held.foldl (fun b q => match tget (b.lighter n).cmds q.tag with
      | some c => b.lighterGo n c q
      | none => b) b) b

/-- A re-stamp has failed (R227, R287, R289, R317, R526): the command fails, the ring's queue breaks, a standing command's launches fail with the same status, those under way too, a view stops. What a model or an open ARM holds is lost: the lists under way that use it fail, and every later one (R317; log 52). -/
def Block.restampLost (b : Block) (e : Env) (h st : Nat) : Block :=
  let open_ (x : Cmd) : Bool := match x.body with | .serve 1 .. => true | _ => false
  let kept := b.quay.cmds.any (fun c => c.2.heads.contains h && open_ c.2) || b.manifest.models.any fun m => m.2.heads.contains h
  let b : Block := if kept then { b with pilot := { b.pilot with lost := tput b.pilot.lost h st } } else b
  let b := (b.quay.cmds.filter fun c => c.2.heads.contains h && !open_ c.2).foldl (fun b c =>
    if c.2.ph = .running ∨ c.2.ph = .saved then
      let k := c.2.heads.idxOf h
      let b := b.failWith e c.1 st (if k < c.2.bufCount then some k else none) ukPilot 0 0 0
      match b.collOf c.1 with
      | some id => b.collFailed e id st true
      | none => b
    else (b.modCmd c.1 fun x => { x with faultBuf := if x.heads.idxOf h < x.bufCount then some (x.heads.idxOf h) else none }).endCmd c.1 st 0) b
  let b := b.quay.queues.foldl (fun b q =>
    let b := if q.2.ringHeads.contains h then b.breakQueue e q.1 else b
    match q.2.standing with
    | some (_, _, hs) => if hs.contains h then b.modQueue q.1 fun q => { q with standingDead := some st } else b
    | none => b) b
  b.quay.slices.foldl (fun b s => match s.2.view with
    | some (_, v, _) => if v = h then (b.freeStamp h).modSlice s.1 fun s => { s with view := none } else b
    | none => b) b

end Sys2Proof.Machine
end

