-- ==== Sys2Proof/Machine/ListOps.lean ====
section
/-! DEFINITION. Manifest's loading lists as jobs (R248, R249, R251): the dealing of items, the sections written into the serving areas, what the streams of a list run. -/

namespace Sys2Proof.Machine

open Sys2Proof

/-! ### Dealing (R251) -/

/-- One round over the ranks: an item to each rank below the cap while items are left. -/
def dealRound (cap : Nat) : (left : Nat) → List Nat → Nat × List Nat
  | left, [] => (left, [])
  | left, d :: ds =>
    if left = 0 ∨ cap ≤ d then let (l, r) := dealRound cap left ds; (l, d :: r)
    else let (l, r) := dealRound cap (left - 1) ds; (l, (d + 1) :: r)

/-- Rounds until nothing is left. -/
def dealRounds (cap : Nat) : (fuel left : Nat) → List Nat → List Nat
  | 0, _, ds => ds
  | k + 1, left, ds => if left = 0 then ds else let (l, r) := dealRound cap left ds; dealRounds cap k l r

/-- Deal m items by pace weights (R251): floor(m × w ÷ Σw) to each rank up to the cap ceil(9m ÷ 8S), the rest one at a time. -/
def dealItems (ws : List Nat) (m : Nat) : List Nat :=
  let sum := max 1 (ws.foldl (· + ·) 0)
  let cap := cdiv (9 * m) (8 * max 1 ws.length)
  let first := ws.map fun w => min cap (m * w / sum)
  dealRounds cap (m + 1) (m - first.foldl (· + ·) 0) first

/-- The first item of each rank's consecutive range. -/
def dealStarts : (from_ : Nat) → List Nat → List (Nat × Nat)
  | _, [] => []
  | k, d :: ds => (k, d) :: dealStarts (k + d) ds

/-! ### Lists -/

/-- A registered model. -/
def Block.model (b : Block) (m : Nat) : Option Model := tget b.manifest.models m

/-- The program a list runs: virtual address and records. -/
def Model.prog (m : Model) (phase : Nat) : Nat × ModelProg := if phase = 1 then (m.r.progPrefill, m.prefill) else (m.r.progStep, m.step)

/-- The pages, the valid position and the page-table offset of the model that runs a step (R242, R245). -/
def SeqEntry.from_ (s : SeqEntry) (fallback : Bool) : Nat := if fallback then s.fbPos else s.kvPos

/-- The slice of a list's entry. -/
def Block.entrySlice (b : Block) (en : ListEntry) : Nat := ((tget b.manifest.seqs en.seq).map (·.slice)).getD 0

/-- Offset of the list sections in a serving area: its second 64 KiB (R248). -/
def listOffset : Nat := 0x10000

/-- Offset of the logit record of list entry i: the serving area's third 64 KiB (R248). -/
def logitOffset (i : Nat) : Nat := 0x20000 + 2112 * i

/-- The header of one section (R248). -/
def Block.sectionHeader (b : Block) (l : LoadList) (sl : Nat) : List Byte :=
  let mine := (List.zipIdx l.entries).filter fun x => b.entrySlice x.1 = sl
  let live := maskOf ((mine.filter fun x => x.1.live).map (·.2))
  leBytes 4 l.listId ++ leBytes 2 l.model ++ leBytes 1 l.phase ++
  leBytes 1 ((if l.fallback then 1 else 0) + (if l.sliceB.isSome then 2 else 0)) ++
  leBytes 2 l.entries.length ++ leBytes 2 ((mine.head?.map (·.2)).getD 0) ++ leBytes 2 mine.length ++ leBytes 2 0 ++
  leBytes 4 (l.entries.foldl (fun n x => n + x.tokens) 0) ++ leBytes 4 0 ++ leBytes 8 l.built ++ leBytes 32 0 ++
  leBytes 64 live ++
  (List.range 16).flatMap (fun r => match (dealStarts 0 l.deal)[r]? with
    | some (k, d) => leBytes 2 k ++ leBytes 2 d
    | none => leBytes 4 0) ++ leBytes 64 0

/-- One entry of a section (R248); i is its index in the list. -/
def Block.sectionEntry (b : Block) (l : LoadList) (en : ListEntry) (i : Nat) : List Byte :=
  match tget b.manifest.seqs en.seq with
  | none => leBytes 64 0
  | some s =>
    let token := ((b.model l.model).map fun m => !m.r.denoise).getD false
    leBytes 2 en.seq ++ leBytes 2 0 ++ leBytes 4 (s.from_ en.fallback) ++ leBytes 4 en.tokens ++ leBytes 4 s.position ++
    leBytes 8 (s.g.ptOff + if en.fallback then 4 * s.g.ptCap else 0) ++ leBytes 8 s.g.ioOff ++
    leBytes 8 (if token then logitOffset i else 0) ++ leBytes 4 s.g.limit ++ leBytes 20 0

/-- One section: its header and its own sequences' entries (R248). -/
def Block.listSection (b : Block) (l : LoadList) (sl : Nat) : List Byte :=
  b.sectionHeader l sl ++ ((List.zipIdx l.entries).filter fun x => b.entrySlice x.1 = sl).flatMap fun x => b.sectionEntry l x.1 x.2

/-- Manifest writes into a buffer of an open ARM, through its slice's OTHER lane; on a stale run the write waits for the re-stamp. -/
def Block.armWrite (b : Block) (c k off : Nat) (data : List Byte) : Block :=
  match tget b.quay.cmds c with
  | none => b
  | some x =>
    let wait (b : Block) : Block := { b with manifest := { b.manifest with owed := b.manifest.owed ++ [(c, k, off, data)] } }
    if data.isEmpty then b
    else if !b.rangeFresh c k || b.manifest.owed.any fun o => o.1 = c then wait b
    else
      let (_, b) := ((b.bufHead c k).map fun h => b.hold_ h .manifest).getD b |>.laneRange c (b.slicePart x.slice) k off true true
        (fun _ => .manifest) data (data.length + 1) data.length 0
      b

/-- Writes that waited for a re-stamp go out. -/
def Block.flushOwed (b : Block) : Block :=
  let l := b.manifest.owed
  let b := { b with manifest := { b.manifest with owed := [] } }
  l.foldl (fun b (c, k, off, d) => b.armWrite c k off d) b

/-- Change a list. -/
def Block.modList (b : Block) (id : Nat) (f : LoadList → LoadList) : Block :=
  { b with manifest := { b.manifest with lists := tmod b.manifest.lists id f } }

/-- A list goes to its berths: the items are dealt by their pace weights and the sections written (R248, R251). -/
def Block.dealList (b : Block) (id : Nat) (berths : List Nat) : Block :=
  match tget b.manifest.lists id with
  | none => b
  | some l =>
    let items := ((b.model l.model).map (·.r.items)).getD 0
    let deal := dealItems (berths.map fun n => b.rd F.MF_PACE_WEIGHT n) items
    let l := { l with deal := deal, berths := berths }
    let b := b.modList id fun _ => l
    let b := (List.zip berths deal).foldl (fun b (n, d) => b.wr F.MF_PACE_DEALT n d) b
    (l.sliceA :: l.sliceB.toList).foldl (fun b sl => match tget b.manifest.armed sl with
      | some a => b.armWrite a.cmd 2 listOffset (b.listSection l sl)
      | none => b) b

end Sys2Proof.Machine
end

