-- ==== Sys2Proof/Machine/Special.lean ====
section
/-! DEFINITION. The special-function unit (R117, R118). A result that the manual gives exactly is that one; of any other the manual allows the two adjacent FP32 values, found here by exact integer arithmetic, and a free bit that depends on the function and the operand alone chooses between them (log 10). -/

namespace Sys2Proof.Machine

open Sys2Proof

/-- Fraction bits of the fixed-point arithmetic that places a result between its two neighbours. -/
def sfN : Nat := 900

/-- 1 in that fixed point. -/
def sfOne : Int := 2 ^ sfN

/-- The product of two fixed-point numbers, rounded down. -/
def sfMul (a b : Int) : Int := (a * b).fdiv sfOne

/-- exp(r) − the sum of r^n ÷ n! from term n on. -/
def sfExpTaylor (r : Int) : (fuel n : Nat) → (term : Int) → Int
  | 0, _, _ => 0
  | k + 1, n, t => t + sfExpTaylor r k (n + 1) ((sfMul t r).fdiv ((n + 1 : Nat) : Int))

/-- The sum of z^(2i + 1) ÷ (2i + 1), with signs s, 1 for atanh and −1 for atan. -/
def sfOdd (s : Int) (z2 : Int) : (fuel i : Nat) → (p : Int) → Int
  | 0, _, _ => 0
  | k + 1, i, p => p.fdiv ((2 * i + 1 : Nat) : Int) + sfOdd s z2 k (i + 1) (s * sfMul p z2)

/-- ln 2 = 2 atanh(1 ÷ 3). -/
def sfLn2 : Int := 2 * sfOdd 1 (sfOne.fdiv 9) 300 0 (sfOne.fdiv 3)

/-- π = 16 atan(1 ÷ 5) − 4 atan(1 ÷ 239). -/
def sfPi : Int :=
  16 * sfOdd (-1) (sfOne.fdiv 25) 210 0 (sfOne.fdiv 5) - 4 * sfOdd (-1) (sfOne.fdiv 57121) 70 0 (sfOne.fdiv 239)

/-- m × 2^e in fixed point, rounded down. -/
def sfFix (m e : Int) : Int :=
  let k := e + (sfN : Int)
  if 0 ≤ k then m * 2 ^ k.toNat else m.fdiv (2 ^ (-k).toNat)

/-- e^x of a fixed-point x, as a fixed-point number in [1, 2) and a power of two. -/
def sfExp (x : Int) : Int × Int :=
  let k := x.fdiv sfLn2
  (sfExpTaylor (x - k * sfLn2) 260 0 sfOne, k)

/-- ln z of a fixed-point z near 1: 2 atanh((z − 1) ÷ (z + 1)). -/
def sfLog (z : Int) : Int :=
  let t := ((z - sfOne) * sfOne).fdiv (z + sfOne)
  2 * sfOdd 1 (sfMul t t) 400 0 t

/-- sin r and cos r of a fixed-point r by their series. -/
def sfSinTaylor (r2 : Int) : (fuel n : Nat) → (term : Int) → Int
  | 0, _, _ => 0
  | k + 1, n, t => t - sfSinTaylor r2 k (n + 2) ((sfMul t r2).fdiv (((n + 1) * (n + 2) : Nat) : Int))

/-- The choice the manual leaves open, between a value's two FP32 neighbours. -/
def sfChoose (fn : Nat) (x : BitVec 32) : Nat := if (Config.sfu fn x).getLsbD 0 then 1 else 0

/-- A result whose magnitude lies strictly between m × 2^e rounded down to FP32 and the next FP32 value: one of the two. -/
def sfBetween (fn : Nat) (x : BitVec 32) (neg : Bool) (m : Nat) (e : Int) : Nat :=
  let q := max (e + (bitLen m : Int) - 24) fpFP32.emin
  let n := if q ≤ e then m * 2 ^ (e - q).toNat else m / 2 ^ (q - e).toNat
  fpFP32.code neg n q + sfChoose fn x

/-- A result whose magnitude lies strictly between 1 − 2^−24 and 1. -/
def sfBelowOne (fn : Nat) (x : BitVec 32) (neg : Bool) : Nat := fpFP32.signBit neg + 0x3F7FFFFF + sfChoose fn x

/-- An exact result m × 2^e. -/
def sfExact (neg : Bool) (m : Nat) (e : Int) : Nat :=
  let (n, q, _) := roundNE 24 fpFP32.emin m e
  fpFP32.code neg n q

/-- A fixed-point result. -/
def sfFixed (fn : Nat) (x : BitVec 32) (v : Int) : Nat :=
  sfBetween fn x (decide (v < 0)) v.natAbs (-(sfN : Int))

/-- A power of two. -/
def isPow2 (m : Nat) : Bool := m ≠ 0 && 2 ^ Nat.log2 m = m

/-- The integer a value equals, if it is one. -/
def intOf (m : Int) (e : Int) : Option Int :=
  if 0 ≤ e then some (m * 2 ^ e.toNat) else if m.fmod (2 ^ (-e).toNat) = 0 then some (m.fdiv (2 ^ (-e).toNat)) else none

/-- 2^x. -/
def sfExp2 (x : BitVec 32) (m e : Int) : Nat :=
  if 0 < m ∧ !dyLt m.natAbs e 128 0 then fpFP32.infCode false
  else if m < 0 ∧ dyLt 150 0 m.natAbs e then 0
  else match intOf m e with
    | some k => if k = -150 then sfBetween 0 x false 1 (-150) else sfExact false 1 k
    | none =>
      let v := sfFix m e
      let k := v.fdiv sfOne
      sfBetween 0 x false (sfExp (sfMul (v - k * sfOne) sfLn2)).1.natAbs (k - (sfN : Int))

/-- log₂ x of x = m × 2^e > 0. -/
def sfLog2 (x : BitVec 32) (m : Nat) (e : Int) : Nat :=
  let l := Nat.log2 m
  if isPow2 m then
    let k := e + (l : Int)
    if k = 0 then 0 else sfExact (decide (k < 0)) k.natAbs 0
  else
    -- z in [1, 2) for z below 3 ÷ 2, else halved
    let z := sfFix m (-(l : Int))
    let up := decide (3 * sfOne ≤ 2 * z)
    let k := e + (l : Int) + (if up then 1 else 0)
    let z := if up then sfFix m (-(l : Int) - 1) else z
    sfFixed 1 x (k * sfOne + (sfLog z * sfOne).fdiv sfLn2)

/-- 1 ÷ x of x = ±m × 2^e, m ≠ 0. At |x| = 2^−128 the quotient 2^128 lies between the largest finite magnitude and infinity, and the free bit chooses between these two (R117; log 10). -/
def sfRcp (x : BitVec 32) (neg : Bool) (m : Nat) (e : Int) : Nat :=
  if dyLt m e 1 (-128) then fpFP32.infCode neg
  else if !dyLt 1 (-128) m e then fpFP32.maxCode neg + sfChoose 2 x
  else if isPow2 m then sfExact neg 1 (-(e + (Nat.log2 m : Int)))
  else sfBetween 2 x neg (2 ^ 200 / m) (-200 - e)

/-- 1 ÷ √x of x = m × 2^e > 0. -/
def sfRsqrt (x : BitVec 32) (m : Nat) (e : Int) : Nat :=
  let (m, e) := if e.emod 2 = 0 then (m, e) else (2 * m, e - 1)
  if isPow2 m && Nat.log2 m % 2 = 0 then sfExact false 1 (-(e.fdiv 2) - ((Nat.log2 m / 2 : Nat) : Int))
  else sfBetween 3 x false (Nat.sqrt (2 ^ 400 / m)) (-200 - e.fdiv 2)

/-- tanh x of x = ±m × 2^e, m ≠ 0: (1 − u) ÷ (1 + u) with u = e^(−2|x|). -/
def sfTanh (x : BitVec 32) (neg : Bool) (m : Nat) (e : Int) : Nat :=
  if !dyLt m e 64 0 then sfBelowOne 4 x neg
  else
    let (f, k) := sfExp (-2 * sfFix m e)
    let u := f.fdiv (2 ^ (-k).toNat)
    let v := ((sfOne - u) * sfOne).fdiv (sfOne + u)
    sfBetween 4 x neg v.natAbs (-(sfN : Int))

/-- 1 ÷ (1 + e^−x) of x = ±m × 2^e, m ≠ 0. -/
def sfSigmoid (x : BitVec 32) (neg : Bool) (m : Nat) (e : Int) : Nat :=
  if !dyLt m e 150 0 then (if neg then sfChoose 5 x else sfBelowOne 5 x false)
  else
    let (f, k) := sfExp (-(sfFix m e))
    let u := f.fdiv (2 ^ (-k).toNat)
    let v := ((if neg then u else sfOne) * sfOne).fdiv (sfOne + u)
    sfFixed 5 x v

/-- sin x and cos x of x = ±m × 2^e, m ≠ 0, by quadrant of |x|. -/
def sfSinCos (cos : Bool) (x : BitVec 32) (neg : Bool) (m : Nat) (e : Int) : Nat :=
  let v := sfFix m e
  let half := sfPi.fdiv 2
  let q := v.fdiv half
  let r := v - q * half
  let r2 := sfMul r r
  let s := sfSinTaylor r2 130 1 r
  let c := sfSinTaylor r2 130 0 sfOne
  let k := (q.emod 4).toNat
  let y := if cos then (match k with | 0 => c | 1 => -s | 2 => -c | _ => s)
    else (match k with | 0 => s | 1 => c | 2 => -s | _ => -c)
  if cos then sfFixed 7 x y else sfFixed 6 x (if neg then -y else y)

/-- The special-function unit (R117): functions 0 to 7 in the order of the opcodes, one FP32 lane. -/
def sfu (fn : Nat) (x : BitVec 32) : BitVec 32 :=
  let inf := fpFP32.infCode
  let nan := fpFP32.nanCode
  BitVec.ofNat 32 <| match fpFP32.value x.toNat with
  | .nan _ => nan
  | .inf s =>
    match fn with
    | 0 => if s then 0 else inf false
    | 1 => if s then nan else inf false
    | 2 => fpFP32.signBit s
    | 3 => if s then nan else 0
    | 4 => sfExact s 1 0
    | 5 => if s then 0 else sfExact false 1 0
    | _ => nan
  | .fin s m e =>
    if m = 0 then
      match fn with
      | 0 => sfExact false 1 0
      | 1 => inf true
      | 2 => inf s
      | 3 => inf s
      | 4 => fpFP32.signBit s
      | 5 => sfExact false 1 (-1)
      | 6 => fpFP32.signBit s
      | _ => sfExact false 1 0
    else
      match fn with
      | 0 => sfExp2 x (if s then -(m : Int) else m) e
      | 1 => if s then nan else sfLog2 x m e
      | 2 => sfRcp x s m e
      | 3 => if s then nan else sfRsqrt x m e
      | 4 => sfTanh x s m e
      | 5 => sfSigmoid x s m e
      | 6 => sfSinCos false x s m e
      | _ => sfSinCos true x s m e

end Sys2Proof.Machine
end

