-- ==== Sys2Proof/Machine/Operands.lean ====
section
/-! DEFINITION. Berth instruction operands and their checks (R159 to R165, R204): register fields, berth-store ranges, operand quads, transfer shapes, lanes; and the issue of one instruction: checks in the order of R204, the effect, the step to the next instruction. -/

namespace Sys2Proof.Machine

open Sys2Proof

/-! ### Fields -/

/-- IMM_LO, unsigned (R159). -/
def immLo (f : IFields) : Nat := f.imm.toNat % 2 ^ 32

/-- IMM_LO sign-extended to 64 bits (R162). -/
def immLoS (f : IFields) : Int := (f.imm.setWidth 32).toInt

/-- IMM_HI sign-extended to 64 bits (R168). -/
def immHiW (f : IFields) : Word := ((f.imm >>> 32).setWidth 32).signExtend 64

/-- A flag chooses the immediate or sRB (R168, R172, R194). -/
def pickB (flag : Bool) (imm : Word) (r : Regs) (rb : Nat) : Word := if flag then imm else r.sreg rb

/-! ### Conditions of R204 -/

/-- A condition that fails an instruction, with its reason code. -/
abbrev Check := Bool × Nat

/-- The reason reported: the lowest among the conditions that hold (R204). -/
def firstReason : List Check → Option Nat
  | [] => none
  | (c, r) :: l =>
    if c then some (match firstReason l with
      | some k => min r k
      | none => r)
    else firstReason l

/-- A check made only when another condition has not failed: the extent of a range, when the values that define the range have passed (R204). -/
def Check.unless (c : Bool) (x : Check) : Check := (!c && x.1, x.2)

/-- A register field beyond its file (R160). -/
def regBad (i size : Nat) : Check := (decide (size ≤ i), 0x02)

/-- A group of n scalar registers from i on does not lie in s1 to s63 (R160). -/
def groupBad (i n : Nat) : Check := (decide (i = 0 ∨ 64 < i + n), 0x02)

/-- PE = 1 outside the VECTOR and SFU classes (R161). -/
def peBad (f : IFields) : Check := (f.pe && decide (f.op / 32 ≠ 3 ∧ f.op / 32 ≠ 6), 0x03)

/-- An address is outside the populated store, above 25 bits or not aligned (R125, R126, R163). -/
def baseBad (a align : Nat) : Check := (decide (storeBytes ≤ a ∨ a % align ≠ 0), 0x06)

/-- The last byte of a range of rows lies outside the populated store (R204). -/
def extentBad (a stride rows len : Nat) : Check := (decide (storeBytes < a + (rows - 1) * stride + len), 0x06)

/-- A value out of its range (R165, R177, R190, R192). -/
def rangeBad (c : Bool) : Check := (c, 0x07)

/-! ### Operand quads (R164) -/

/-- Read a quad. The strides are unsigned 64-bit values: R164 does not say whether they are signed (DESIGN CHOICE, log 81). -/
def quadAt (r : Regs) (i : Nat) : Quad := ⟨(r.sreg i).toNat, r.sreg (i + 1), (r.sreg (i + 2)).toNat, (r.sreg (i + 3)).toNat⟩

/-- The base checks of a quad in a format. -/
def Quad.baseChecks (q : Quad) (fmt : Nat) : List Check :=
  baseBad q.base 64 :: (if isMx fmt then [baseBad q.scale.toNat 64] else [])

/-- The stride of a quad's elements is out of range. -/
def Quad.strideBad (q : Quad) : Check := rangeBad (decide (q.stride % 64 ≠ 0))

/-- The stride of a quad's scales is out of range for vectors of k elements. -/
def Quad.sstrideBad (q : Quad) (k : Nat) : Check := rangeBad (decide (q.sstride % 64 ≠ 0 ∨ q.sstride < k / 32))

/-- The stride checks of a quad for vectors of k elements. -/
def Quad.strideChecks (q : Quad) (fmt k : Nat) : List Check :=
  q.strideBad :: (if isMx fmt then [q.sstrideBad k] else [])

/-- The extent checks of a quad for 64 vectors of k elements, each made when its own stride has passed (R204). -/
def Quad.extentChecks (q : Quad) (fmt k : Nat) : List Check :=
  (extentBad q.base q.stride 64 (packedLen fmt k)).unless q.strideBad.1 ::
    (if isMx fmt then [(extentBad q.scale.toNat q.sstride 64 (k / 32)).unless (q.sstrideBad k).1] else [])

/-- The berth-store ranges of a quad. -/
def Quad.ranges (q : Quad) (fmt k : Nat) : List (Nat × Nat) :=
  ((List.range 64).map fun i => (q.base + i * q.stride, packedLen fmt k)) ++
    (if isMx fmt then (List.range 64).map fun i => (q.scale.toNat + i * q.sstride, k / 32) else [])

/-! ### Transfer shapes (R165) -/

/-- A transfer shape: row length, row count, berth-store stride, far-side stride. -/
structure Shape where
  row : Nat
  rows : Nat
  sstride : Nat
  fstride : Nat
  deriving DecidableEq, Repr

/-- Read the shape at sRB: one row, or four registers when the 2D flag is set. The strides are unsigned 64-bit values: R165 does not say whether they are signed (DESIGN CHOICE, log 81). -/
def shapeAt (r : Regs) (f : IFields) : Shape :=
  if f.fl14 then ⟨(r.sreg f.rb).toNat, (r.sreg (f.rb + 1)).toNat, (r.sreg (f.rb + 2)).toNat, (r.sreg (f.rb + 3)).toNat⟩
  else ⟨(r.sreg f.rb).toNat, 1, 0, 0⟩

/-- The ranges of R165. -/
def Shape.bad (s : Shape) : Bool :=
  decide (s.row % 64 ≠ 0 ∨ s.row < 64 ∨ 16777216 < s.row ∨ s.rows < 1 ∨ 65536 < s.rows ∨ s.sstride % 64 ≠ 0 ∨ s.fstride % 64 ≠ 0)

/-! ### Lanes (R161) -/

/-- The mask of active lanes. -/
def laneMask (f : IFields) (r : Regs) : BitVec 256 :=
  if f.pe then (if f.pn then ~~~r.preg f.pred else r.preg f.pred) else BitVec.allOnes 256

/-- The active lanes, rising. -/
def activeLanes (f : IFields) (r : Regs) : List Nat := (List.range 256).filter fun l => (laneMask f r).getLsbD l

/-- Write vRD lane by lane: `g` gives each active lane's new value and flags; inactive lanes keep theirs (R161). -/
def mapLanes (f : IFields) (r : Regs) (g : Nat → BitVec 32 × VFlags) : Regs × VFlags :=
  (activeLanes f r).foldl (fun (r', fl) l => let (x, k) := g l; (r'.setLane f.rd l x, fl ||| k)) (r, 0)

/-! ### Uncorrectable data met by an instruction -/

/-- A berth-store word or tile that cannot be corrected ends the command (R132, R158, R205, R468). -/
def Block.berthData (b : Block) (e : Env) (n loc : Nat) (data : List Nat) : Block :=
  match (b.berth n).stream with
  | none => b
  | some s =>
    let b := b.alarm e { code := 0x0010, status := stUncorrectable, kind := ukBerth, idx := n, slice := some s.slice, ctx := s.ctx, data := data }
    b.failWith e s.job stUncorrectable none ukBerth n loc 0

/-- Check the berth-store ranges an instruction reads (R156); an uncorrectable word ends the command. The answer says whether the data is good. -/
def Block.readOk (e : Env) (n : Nat) : List (Nat × Nat) → Block → Bool × Block
  | [], b => (true, b)
  | (a, len) :: rs, b =>
    match b.eccRead n a len with
    | (some line, b) => (false, b.berthData e n line [n, line])
    | (none, b) => Block.readOk e n rs b

/-- The physical array behind a logical array (R155). -/
def Block.physArray (b : Block) (n log : Nat) : Nat :=
  match log with
  | 0 => b.rd F.BT_SPARE_MAP_LOG_0 n
  | 1 => b.rd F.BT_SPARE_MAP_LOG_1 n
  | 2 => b.rd F.BT_SPARE_MAP_LOG_2 n
  | 3 => b.rd F.BT_SPARE_MAP_LOG_3 n
  | 4 => b.rd F.BT_SPARE_MAP_LOG_4 n
  | 5 => b.rd F.BT_SPARE_MAP_LOG_5 n
  | 6 => b.rd F.BT_SPARE_MAP_LOG_6 n
  | _ => b.rd F.BT_SPARE_MAP_LOG_7 n

/-- A parity error of a tile met by a reader: counted against its physical array (R132). -/
def Block.parityMet (b : Block) (e : Env) (n t : Nat) : Block :=
  let a := b.physArray n (t / 2)
  let b := (b.bump F.BT_ARRAY_HEALTH_PARITY_COUNT n).wr F.BT_ARRAY_HEALTH_PARITY_SEEN n
    ((b.rd F.BT_ARRAY_HEALTH_PARITY_SEEN n) ||| 2 ^ a)
  let b := b.modBerth n fun x => { x with parityTimes := (a, e.now) :: x.parityTimes }
  b.berthData e n 0 [n, a, t]

/-- Check the tiles an instruction reads. -/
def Block.tilesOk (e : Env) (n : Nat) : List Nat → Block → Bool × Block
  | [], b => (true, b)
  | t :: ts, b => if ((b.berth n).regs.tile t).parityBad then (false, b.parityMet e n t) else Block.tilesOk e n ts b

/-- An instruction that reads or writes tiles has waited for the products under way in them (R129): none of those is interrupted any more (R131). -/
def Block.tilesDone (b : Block) (n : Nat) (ts : List Nat) : Block :=
  b.modStream n fun s => { s with products := s.products.filter fun p => !ts.contains p.tile }

/-! ### Issue -/

/-- What an instruction sees when it issues: the time, its berth, the stream, its fields, the registers, the transfers queued on each engine. -/
structure Cx where
  e : Env
  n : Nat
  s : Stream
  w : IWord
  f : IFields
  r : Regs
  q0 : Nat
  q1 : Nat

/-- The stream that can issue on a berth now: it runs, waits for nothing, has not ended or stopped, is not being saved. -/
def Block.issuer (b : Block) (n : Nat) : Option Stream :=
  let x := b.berth n
  match x.stream with
  | none => none
  | some s =>
    if (b.bstate n = bsRunning ∨ b.bstate n = bsToMoor) ∧ s.wait = none ∧ ¬ s.ended ∧ ¬ s.stopped ∧ x.saving = none ∧ x.resetting = none then
      some s
    else none

/-- What every issued instruction leaves beside its effect: the trail and progress of R473 and R474, Tally's event, the sampling countdown (R522). -/
def Block.issued (b : Block) (c : Cx) : Block :=
  let b := b.tallyB c.n (some c.s.slice) 0x001 0 1
  let b := b.modBerth c.n fun x => { x with trail := ((c.s.pc, c.f.op) :: x.trail).take 256, progress := c.e.now }
  if b.rd F.TL_SAMP_ENABLE c.n = 1 then
    if (b.berth c.n).countdown ≤ 1 then
      let (d, b) := b.draw
      let rec_ : SampleRec := ⟨0, c.s.pc, c.f.op, c.f.pe, c.s.ctx, c.s.prog,
        (Config.freeNat d).testBit 64, Config.freeNat d % 2 ^ 32, (Config.freeNat d / 2 ^ 32) % 2 ^ 32, false⟩
      b.modBerth c.n fun x => { x with countdown := b.rd F.TL_SAMP_PERIOD c.n, sampled := x.sampled ++ [rec_] }
    else b.modBerth c.n fun x => { x with countdown := x.countdown - 1 }
  else b

/-- Issue one instruction (R133, R204): a failing check leaves no effect but the illegal-instruction stop; else the effect `act`, which moves the program counter itself. -/
def Block.issue (e : Env) (n : Nat) (w : IWord) (checks : Cx → List Check) (act : Cx → Block → Block) (b : Block) : Block :=
  match b.issuer n with
  | none => b
  | some s =>
    let c : Cx := ⟨e, n, s, w, decodeFields w, (b.berth n).regs, (b.berth n).me0.length, (b.berth n).me1.length⟩
    match firstReason (checks c) with
    | some r => b.illegal e n s.pc c.f.op r
    | none => act c (b.issued c)

/-- An instruction that cannot issue yet is faulted at decode for what its word alone decides, reasons 0x02 to 0x05 (R204). -/
def Block.decodeFaults (b : Block) (e : Env) (n : Nat) (w : IWord) (checks : Cx → List Check) : Block :=
  match b.issuer n with
  | none => b
  | some s =>
    let c : Cx := ⟨e, n, s, w, decodeFields w, (b.berth n).regs, (b.berth n).me0.length, (b.berth n).me1.length⟩
    match firstReason ((checks c).filter fun x => decide (x.2 ≤ 5)) with
    | some r => b.illegal e n s.pc c.f.op r
    | none => b

/-- Fall through to the next instruction, unless the effect stopped the stream. -/
def Block.next (b : Block) (c : Cx) : Block :=
  match (b.berth c.n).stream with
  | some s => if s.stopped then b else b.reach c.e c.n (c.s.pc + 16)
  | none => b

/-- Change the registers and fall through. -/
def Cx.regs (c : Cx) (b : Block) (r : Regs) : Block := (b.modRegs c.n fun _ => r).next c

/-- Change the registers, raise exception flags and fall through. -/
def Cx.regsFlags (c : Cx) (b : Block) (x : Regs × VFlags) : Block :=
  ((b.modRegs c.n fun _ => x.1).modStream c.n fun s => { s with vflags := s.vflags ||| x.2 }).next c

/-- A berth instruction: the operand names an existing berth and a word of its row. -/
def berthInstr (row : BRow) (n : Nat) (w : IWord) (s : State) (checks : Cx → List Check) (act : Cx → Block → Block) : Out :=
  onUnit (decide (n < 16) && isRow row w) s fun e b => b.issue e n w checks act

end Sys2Proof.Machine
end

