-- ==== Sys2Proof/Machine/Move.lean ====
section
/-! DEFINITION. The meanings of the MOVE berth instructions (R190 to R192): each hands one transfer to a move engine; and the end of a transfer (R216). -/

namespace Sys2Proof.Machine

open Sys2Proof

/-- The engine an instruction names. -/
def Cx.engine (c : Cx) : Nat := if c.f.fl13 then 1 else 0

/-- The engine's queue is full (R136). -/
def queueFull (c : Cx) : Check := (decide (32 ≤ if c.f.fl13 then c.q1 else c.q0), 0x08)

/-- The counter field names one of 32 counters when it is used (R160, R190). -/
def counterBad (c : Cx) : Check := (!c.f.fl15 && decide (32 ≤ c.f.rd), 0x02)

/-- The register group of a shape (R165). -/
def shapeBad (c : Cx) : Check := groupBad c.f.rb (if c.f.fl14 then 4 else 1)

/-- A buffer offset of more than 40 bits (R190). -/
def offsetBad (o : Nat) : Check := rangeBad (decide (2 ^ 40 ≤ o))

/-- The checks of a berth-store side: base, then, when shape and offsets are in range, its extent (R204). -/
def storeChecks (a : Nat) (sh : Shape) (late : List Check) : List Check :=
  baseBad a 64 :: late ++ (if late.any (·.1) then [] else [extentBad a sh.sstride sh.rows sh.row])

/-- Hand a transfer to an engine and fall through (R190); a failure that the engine meets with it is taken before one of the next instruction (R206). -/
def Block.queueMove (b : Block) (c : Cx) (mv : Move) (store : Nat) (sh : Shape) : Block :=
  let serial := (b.berth c.n).nextSerial
  let t : Xfer := ⟨mv, store, sh.row, sh.rows, sh.sstride, sh.fstride, if c.f.fl15 then none else some c.f.rd, 0, [], 0, none, none, none, 0, serial⟩
  let b := (b.modBerth c.n fun x => { x with nextSerial := serial + 1 }).modEng c.n c.engine fun l => l ++ [t]
  let b := b.kick c.e c.n c.engine
  match (b.berth c.n).stream with
  | some s => if s.stopped then b.modStream c.n fun s => { s with pc := c.s.pc + 16 } else b.next c
  | none => b

/-- The checks of mv.in and mv.out. -/
def bufferChecks (c : Cx) : List Check :=
  let sh := shapeAt c.r c.f
  [counterBad c, shapeBad c, peBad c.f, (decide (7 < c.f.fn), 0x05)] ++
    storeChecks (c.r.sreg c.f.ra).toNat sh [rangeBad sh.bad, offsetBad (c.r.sreg c.f.rc).toNat] ++ [queueFull c]

/-- mv.in (R191). -/
def execMvIn (n : Nat) (w : IWord) (s : State) : Out :=
  berthInstr .mvIn n w s bufferChecks fun c b =>
    b.queueMove c (.buffer false (c.f.fn % 8) (c.r.sreg c.f.rc).toNat) (c.r.sreg c.f.ra).toNat (shapeAt c.r c.f)

/-- mv.out (R191). -/
def execMvOut (n : Nat) (w : IWord) (s : State) : Out :=
  berthInstr .mvOut n w s bufferChecks fun c b =>
    b.queueMove c (.buffer true (c.f.fn % 8) (c.r.sreg c.f.rc).toNat) (c.r.sreg c.f.ra).toNat (shapeAt c.r c.f)

/-- The checks of mv.hold: MODE 0 writes the berth store at sRA, MODE 1 a buffer at offset sRA; the Hold offset is a multiple of 64 (R191). -/
def holdChecks (c : Cx) : List Check :=
  let sh := shapeAt c.r c.f
  let a := (c.r.sreg c.f.ra).toNat
  let late := [rangeBad sh.bad, rangeBad (decide ((c.r.sreg (c.f.rc + 1)).toNat % 64 ≠ 0))]
  [counterBad c, shapeBad c, groupBad c.f.rc 2, peBad c.f, (decide (7 < c.f.fn ∨ 1 < c.f.mode), 0x05)] ++
    (if c.f.mode = 1 then offsetBad a :: late else storeChecks a sh late) ++ [queueFull c]

/-- mv.hold (R191, R220). -/
def execMvHold (n : Nat) (w : IWord) (s : State) : Out :=
  berthInstr .mvHold n w s holdChecks fun c b =>
    let a := (c.r.sreg c.f.ra).toNat
    let h := (c.r.sreg c.f.rc).toNat % 2 ^ 32
    let o := (c.r.sreg (c.f.rc + 1)).toNat
    if c.f.mode = 1 then b.queueMove c (.hold h o (some (c.f.fn % 8))) a (shapeAt c.r c.f)
    else b.queueMove c (.hold h o none) a (shapeAt c.r c.f)

/-- The fabric address in a register: offset, window, block (R191). -/
def fabricAddr (v : Word) : Nat × Nat × Nat := (v.toNat % 2 ^ 40, v.toNat / 2 ^ 40 % 2 ^ 12, v.toNat / 2 ^ 52 % 2 ^ 9)

/-- Bits [63:61] of a fabric address are 0 and the offset is aligned (R191, R192). -/
def windowBad (v : Word) (align : Nat) : Check := rangeBad (decide (2 ^ 61 ≤ v.toNat ∨ v.toNat % 2 ^ 40 % align ≠ 0))

/-- The checks of mv.win READ, WRITE and REDUCE, whose MODE goes up to `top` (R192). -/
def winChecks (top : Nat) (c : Cx) : List Check :=
  let sh := shapeAt c.r c.f
  [counterBad c, shapeBad c, peBad c.f, (decide (3 < c.f.fn ∨ top < c.f.mode), 0x05)] ++
    storeChecks (c.r.sreg c.f.ra).toNat sh [rangeBad sh.bad, windowBad (c.r.sreg c.f.rc) 64] ++ [queueFull c]

/-- Queue a window transfer. -/
def Block.queueWin (b : Block) (c : Cx) (op : Nat) (sh : Shape) : Block :=
  let (off, win, blk) := fabricAddr (c.r.sreg c.f.rc)
  b.queueMove c (.window op c.f.mode off win blk (c.r.sreg c.f.rb) (c.r.sreg (c.f.rb + 1))) (c.r.sreg c.f.ra).toNat sh

/-- mv.win READ (R192). -/
def execMvWinRead (n : Nat) (w : IWord) (s : State) : Out :=
  berthInstr .mvWinRead n w s (winChecks 0) fun c b => b.queueWin c 0 (shapeAt c.r c.f)

/-- mv.win WRITE (R192). -/
def execMvWinWrite (n : Nat) (w : IWord) (s : State) : Out :=
  berthInstr .mvWinWrite n w s (winChecks 0) fun c b => b.queueWin c 1 (shapeAt c.r c.f)

/-- mv.win ATOMIC (R192): one 64-bit operation; no shape is read; the line at sRA receives the old value. -/
def execMvWinAtomic (n : Nat) (w : IWord) (s : State) : Out :=
  berthInstr .mvWinAtomic n w s
    (fun c => [counterBad c, if c.f.mode = 2 then groupBad c.f.rb 2 else (false, 0), peBad c.f,
        (decide (3 < c.f.fn ∨ 4 < c.f.mode), 0x05)] ++
      storeChecks (c.r.sreg c.f.ra).toNat ⟨64, 1, 0, 0⟩ [windowBad (c.r.sreg c.f.rc) 8] ++ [queueFull c])
    fun c b => b.queueWin c 2 ⟨8, 1, 0, 0⟩

/-- mv.win REDUCE (R192). -/
def execMvWinReduce (n : Nat) (w : IWord) (s : State) : Out :=
  berthInstr .mvWinReduce n w s (winChecks 2) fun c b => b.queueWin c 3 (shapeAt c.r c.f)

/-! ### Completion -/

/-- The fence signals of a stream whose earlier transfers have all completed leave the berth (R194). -/
def Block.releaseSigs (b : Block) (e : Env) (n : Nat) : Block :=
  let x := b.berth n
  match x.stream with
  | none => b
  | some s =>
    let live := (x.me0 ++ x.me1).map (·.serial)
    let due := s.sigs.takeWhile fun g => live.all fun k => decide (g.2.2 ≤ k)
    let b := b.modStream n fun s => { s with sigs := s.sigs.drop due.length }
    due.foldl (fun b g => b.signal e g.1 g.2.1) b

/-- Engine k of a berth no longer reads stamps that none of its transfers uses (R314). -/
def Block.letGo (b : Block) (n k : Nat) (s : Stream) (t : Xfer) : Block :=
  let still := ((b.berth n).eng k).flatMap fun t => t.bufs
  (t.bufs.filter fun i => !still.contains i).foldl (fun b i => match b.bufHead s.job i with
    | some h => (match t.mv with | .hold .. => b.unhold h .hold | _ => b).unhold h (.engine n k)
    | none => b) b

/-- The copies of a MOVE command go to both engines in turn (R213), each engine with 4 KiB of the berth store for its pieces (log 96); when the last one has completed, the digest asked for is written: SHA-384 of the bytes written, in ascending order (R223, R277). -/
def Block.feedCopies (b : Block) (e : Env) (n : Nat) : Block :=
  let x := b.berth n
  match x.stream with
  | none => b
  | some s =>
    match tget b.quay.cmds s.job with
    | none => b
    | some cmd =>
      match cmd.body with
      | .move m =>
        match s.copies with
        | [] =>
          if s.digestOwed && x.me0.isEmpty && x.me1.isEmpty && !s.stopped then
            let dig := Config.sha384 ((m.written m.digBuf).flatMap fun (o, l) => (List.range l).map fun i => memGet s.digMem (o + i))
            let b := b.modStream n fun s => { s with digestOwed := false, digMem := [] }
            let lo := ((m.written m.digBuf).head?.map (·.1)).getD 0
            let va := (cmd.bufs[m.digBuf]?.map (·.va)).getD 0 + lo
            let b := b.measure s.slice 3 0 va dig
            let serial := (b.berth n).nextSerial
            let t : Xfer := ⟨.digest m.doutBuf m.doutOff (leBytes 48 dig.toNat), 0, 48, 1, 0, 0, none, 0, [], 0, none, none, none, 0, serial⟩
            ((b.modBerth n fun x => { x with nextSerial := serial + 1 }).modEng n 0 fun l => l ++ [t]).kick e n 0
          else b
        | cp :: rest =>
          -- the engine with the shorter queue takes the next copy, ME0 when they are equal (log 18)
          let k := if x.me1.length < x.me0.length then 1 else 0
          if 32 ≤ (x.eng k).length then b
          else
            let serial := x.nextSerial
            let t : Xfer := ⟨.copy cp (if m.holdDst then some m.hold else none), 4096 * k, cp.len, 1, 0, 0, none, 0, [], 0, none, none, none, 0, serial⟩
            let b := b.modStream n fun s => { s with copies := rest }
            ((b.modBerth n fun x => { x with nextSerial := serial + 1 }).modEng n k fun l => l ++ [t]).kick e n k
      | _ => b

/-- Queue copies as long as the engines take them. -/
def Block.feedAll (e : Env) (n : Nat) : (fuel : Nat) → Block → Block
  | 0, b => b
  | f + 1, b => Block.feedAll e n f (b.feedCopies e n)

/-- Narrow pieces of a copy still wait in the merge buffer: the copy completes only after their flush (R368). -/
def Block.mergeOwed (b : Block) (t : Xfer) : Bool :=
  match t.mv with
  | .copy _ (some h) => b.hold.stks.any fun x => x.2.merge.any fun m => m.handle = h
  | _ => false

/-- TRANSFER_COMPLETE (R216): every request of the engine's first transfer has been answered; its counter gains 1 (R137), the signals behind it leave (R194), the next transfer starts. -/
def execTransferComplete (n k : Nat) (s : State) : Out :=
  onUnit (decide (n < 16 ∧ k < 2)) s fun e b =>
    match (b.berth n).stream, (b.berth n).eng k with
    | some st, t :: _ =>
      if t.failed.isSome || !b.enginesRun n || b.outstanding n k t.serial ≠ 0 || !b.settledXfer n k t.serial || t.done < t.total || !t.staged.isEmpty || b.mergeOwed t then b
      else
        let b := b.modEng n k (·.drop 1)
        let b := b.letGo n k st t
        let b := match t.counter with
          | some c => b.modRegs n fun r => r.setC c (r.counter c + 1)
          | none => b
        let b := match t.mv with
          | .copy c _ => b.modCmd st.job fun x => { x with copied := x.copied + c.len }
          | _ => b
        let b := b.modBerth n fun x => { x with progress := e.now }
        let b := b.releaseSigs e n
        let b := Block.feedAll e n 65 b
        b.kick e n k
    | _, _ => b

end Sys2Proof.Machine
end

