-- ==== Sys2Proof/Machine/JobOps.lean ====
section
/-! DEFINITION. Dealing units to commands (R283, R337 to R341): candidates, virtual time, the choice of berths, streams and their start, saves waiting for the preemption reserve (R146), berths that join and leave a partition (R346). -/

namespace Sys2Proof.Machine

open Sys2Proof

/-! ### What a command needs -/

/-- The command runs on berths. -/
def Cmd.onBerths (x : Cmd) : Bool := match x.body with | .tensor _ => true | .move _ => true | .list _ _ => true | _ => false

/-- The list of a list's job. -/
def Block.listOf (b : Block) (x : Cmd) : Option LoadList :=
  match x.body with
  | .list _ id => tget b.manifest.lists id
  | _ => none

/-- The partition a command runs in. -/
def Block.cmdPart (b : Block) (x : Cmd) : Nat := match x.body with | .list p _ => p | _ => b.slicePart x.slice

/-- Berths a command needs: as many as it saved, its STREAMS, one, or its model's (R32, R150, R337). -/
def Block.needOf (b : Block) (c : Nat) (x : Cmd) : Nat :=
  if x.ph = .saved then (b.jobSlots c).length
  else match x.body with
    | .tensor t => t.streams
    | .move _ => 1
    | .ferry _ => 1
    | .list _ _ => (((b.listOf x).bind fun l => b.model l.model).map (·.r.streams)).getD 1
    | _ => 0

/-- An LC job: a launch or command of an LC queue, or a list with an LC sequence or on a fallback (R247, R338). -/
def Block.lcJob (b : Block) (x : Cmd) : Bool :=
  match x.body with
  | .list _ _ => match b.listOf x with
    | some l => l.fallback || l.entries.any fun en => ((tget b.manifest.seqs en.seq).map fun s => !s.g.be).getD false
    | none => false
  | _ => ((tget b.quay.queues x.q).map (·.lc)).getD false

/-! ### Waits (R282, R291, R292) -/

/-- What a waiting command's fences make of it: a wait not allowed any longer, a broken fence, or nothing. -/
def Block.waitFails (b : Block) (x : Cmd) : Option Nat :=
  let ws := x.openWaits.wait0.toList ++ x.openWaits.wait1.toList
  if ws.any fun w => !(b.fenceRights w.1 x.slice).1 then some stProtection
  else if b.evalWaits x.openWaits = .broken then some stFenceBroken
  else none

/-- Waiting commands whose waits fail complete. -/
def Block.settleWaits (b : Block) : Block :=
  b.quay.cmds.foldl (fun b (c, x) =>
    if x.ph = .waiting ∧ x.suspect = 0 ∧ !x.list? then
      match b.waitFails x with
      | some st => b.endCmd c st 0
      | none => b
    else b) b

/-- No earlier command of the queue is still to be dispatched (R283). -/
def Block.atHead (b : Block) (c : Nat) (x : Cmd) : Bool :=
  x.list? || x.ph = .saved || x.suspect ≠ 0 ||
  !(b.quay.cmds.any fun y => decide (y.1 < c) && y.2.q = x.q && (y.2.ph = .stamping || y.2.ph = .waiting) && y.2.suspect = 0)

/-- The slice of a command lets it be dispatched (R348, R349): an ACTIVE slice; in a QUIESCING one a general task that has been dispatched goes on. -/
def Block.sliceLets (b : Block) (x : Cmd) : Bool :=
  b.sliceState x.slice = slActive || (b.sliceState x.slice = slQuiescing && x.ph = .saved && match x.body with | .general _ => true | _ => false)

/-- A candidate (R283, R338, R348): its turn in its queue, its waits satisfied, its context live, its slice serving; a suspect only under its trial, its waits satisfied at its first dispatch (R479). -/
def Block.candidate (b : Block) (c : Nat) (x : Cmd) : Bool :=
  (x.ph = .waiting || x.ph = .saved) && b.atHead c x && x.suspect ≠ 1 && x.status = 0 &&
  (x.list? || (b.sliceLets x && (x.ph = .saved || x.suspect ≠ 0 || b.evalWaits x.openWaits = .yes))) &&
  (match tget b.quay.ctxs x.hdr.ctx with | some k => decide (k.st = .live) | none => false)

/-- A FERRY command. -/
def Cmd.ferry? (x : Cmd) : Bool := match x.body with | .ferry _ => true | _ => false

/-- The dispatcher gives a berth new work (R46, R152): no DRAIN, no removal under way, no reset, no trial. -/
def Block.takesWork (b : Block) (p n : Nat) : Bool :=
  b.rd F.BT_CTL_DRAIN n = 0 && !(b.rd F.BW_PART_DRAINING p).testBit n && (b.berth n).resetting.isNone &&
  !(b.quay.cmds.any fun x => x.2.suspect = 2 && x.2.units.contains n)

/-- A berth that Ferry has borrowed and that serves fewer than 8 FERRY commands (R410). -/
def Block.ferryHome (b : Block) (p : Nat) : Option Nat :=
  (b.partBerths p).find? fun n => b.bstate n = bsCollective && (b.berth n).stream.isNone && b.takesWork p n &&
    decide ((b.quay.cmds.filter fun y => y.2.units.contains n && y.2.ferry?).length < 8)

/-- The candidates that need a partition's berths: jobs, and the FERRY commands for which a berth must be borrowed (R338, R410). -/
def Block.berthCands (b : Block) (p : Nat) : List (Nat × Cmd) :=
  b.quay.cmds.filter fun (c, x) => (x.onBerths || (x.ferry? && (b.ferryHome p).isNone)) && b.cmdPart x = p && b.candidate c x

/-- The smallest of some virtual times. -/
def minRat : List Rat → Option Rat
  | [] => none
  | x :: xs => match minRat xs with
    | some y => some (min x y)
    | none => some x

/-- New candidates enter (R338): a slice that had none gets V_s raised to the smallest V of the slices that have candidates. -/
def Block.markReady (b : Block) (e : Env) (p : Nat) : Block :=
  (b.berthCands p).foldl (fun b (c, x) =>
    if x.ready then b
    else
      let old := (b.berthCands p).filter fun y => y.2.ready
      let b := if old.any fun y => y.2.slice = x.slice then b
        else match minRat (old.map fun y => b.vNow e y.2.slice) with
          | some v => let me := b.vNow e x.slice
                      if me < v then b.modSlice x.slice fun s => { s with vtime := s.vtime + (v - me) } else b
          | none => b
      b.modCmd c fun x => { x with ready := true }) b

/-- The element of a list with the least key, the first on ties. -/
def leastOn {α : Type} (lt : α → α → Bool) : List α → Option α
  | [] => none
  | x :: xs => match leastOn lt xs with
    | some y => if lt y x then some y else some x
    | none => some x

/-- When the queue of a candidate, or its slice's lists, were last served (R338). -/
def Block.servedAt (b : Block) (x : Cmd) : Nat :=
  if x.list? then ((tget b.quay.slices x.slice).map (·.listServed)).getD 0 else ((tget b.quay.queues x.q).map (·.lastServed)).getD 0

/-- The next of some candidates (R338): a suspect under trial, the oldest LC candidate, or the slice of smallest V in round robin over its queues and its lists. -/
def Block.nextOf (b : Block) (e : Env) (cs : List (Nat × Cmd)) : Option (Nat × Cmd) :=
  match cs.find? fun x => x.2.suspect = 2 with
  | some x => some x
  | none =>
    match cs.find? fun x => b.lcJob x.2 with
    | some x => some x
    | none =>
      match leastOn (fun (x y : Nat × Cmd) => decide (b.vNow e x.2.slice < b.vNow e y.2.slice)) cs with
      | none => none
      | some (_, x) =>
        leastOn (fun (y z : Nat × Cmd) => decide (b.servedAt y.2 < b.servedAt z.2)) (cs.filter fun y => y.2.slice = x.slice)

/-- The next job of a partition (R338). -/
def Block.chosen (b : Block) (e : Env) (p : Nat) : Option (Nat × Cmd) := b.nextOf e (b.berthCands p)

/-! ### Choosing berths (R337) -/

/-- A berth belongs to the set of a running job, whether its own stream still runs or has ended (R40, R337). -/
def Block.heldByJob (b : Block) (n : Nat) : Bool := b.quay.cmds.any fun x => x.2.onBerths && x.2.ph = .running && x.2.units.contains n

/-- The berths of a partition that can take a stream now. -/
def Block.idleBerths (b : Block) (p : Nat) : List Nat :=
  (b.partBerths p).filter fun n => b.bstate n = bsIdle && b.takesWork p n && !b.heldByJob n

/-- The program a command runs: its image's virtual address and entry offset. -/
def Block.progOf (b : Block) (x : Cmd) : Option (Nat × Nat) :=
  match x.body with
  | .tensor t => some (t.prog, t.img.codeOff)
  | .list _ _ => (b.listOf x).bind fun l => (b.model l.model).map fun m => let (v, p) := m.prog l.phase; (v, p.img.codeOff)
  | _ => none

/-- A berth is warm for a program (R76, R151): its cache holds the entry line. -/
def Block.warmFor (b : Block) (n : Nat) (x : Cmd) : Bool :=
  match b.progOf x with
  | some (v, off) => (b.berth n).icacheSlice = some x.slice && (b.berth n).hasLine v (off / 128)
  | none => false

/-- The memory port that holds the first run of the command's first buffer. -/
def Block.firstPort (b : Block) (x : Cmd) : Option Nat :=
  match x.heads with
  | h :: _ => (b.runAt h 0).bind fun r => if r.cls = 0 then some (r.phys / 2 ^ 36) else none
  | [] => none

/-- The idle berths in the order they are chosen (R337): warm ones, then those of the first buffer's quadrant, then by number. -/
def Block.berthOrder (b : Block) (x : Cmd) (ns : List Nat) : List Nat :=
  let far (n : Nat) : Bool := match b.firstPort x with | some p => decide (n / 4 ≠ p / 2) | none => true
  let key (n : Nat) : Nat := (if b.warmFor n x then 0 else 200) + (if far n then 100 else 0) + n
  sortBy (fun m n => decide (key m ≤ key n)) ns

/-! ### Starting -/

/-- The head of the image stamp among a command's stamps. -/
def Block.imageHead (b : Block) (x : Cmd) (prog : Nat) : Option Nat :=
  x.heads.find? fun h => ((b.head h).map fun v => v.image && decide (v.va = prog)).getD false

/-- The stream of one rank of a command (R32, R176, R213, R249). -/
def Block.newStream (b : Block) (c : Nat) (x : Cmd) (rank n : Nat) : Stream :=
  let base : Stream := ⟨x.hdr.ctx, x.slice, c, 0, 0, 0, rank, n, [], [], 0, 0, [], none, false, false, 0, false, [], [], false, [], []⟩
  match x.body with
  | .tensor t => { base with prog := t.prog, codeOff := t.img.codeOff, codeLen := t.img.codeLen, args := t.argWords, moors := t.moors, moorOff := t.moorOff }
  | .move m => { base with ended := true, copies := m.copies, digestOwed := m.digest }
  | .list _ id =>
    match tget b.manifest.lists id with
    | none => { base with ended := true }
    | some l => match b.model l.model with
      | none => { base with ended := true }
      | some m =>
        let (v, p) := m.prog l.phase
        { base with prog := v, codeOff := p.img.codeOff, codeLen := p.img.codeLen, moors := p.moors, moorOff := p.moorOff
                    args := [BitVec.ofNat 64 listOffset, if l.sliceB.isSome then BitVec.ofNat 64 listOffset else 0] }
  | _ => { base with ended := true }

/-- A stream takes a berth (R124, R479): the cache of another slice goes, the occupancy gains its context. -/
def Block.occupy (b : Block) (e : Env) (n : Nat) (s : Stream) (st : Nat) : Block :=
  ((b.setBstate e n st).wr F.BT_STATE_CONTEXT n s.ctx).modBerth n fun x => { x with
    stream := some s, busySince := e.now
    icache := if x.icacheSlice = some s.slice then x.icache else [], icacheSlice := some s.slice
    occupants := if x.occupants.contains s.ctx then x.occupants else x.occupants ++ [s.ctx]
    trail := [] }

/-- Start one stream on a berth: a MOVE's engines take its copies (R213), a program's stream begins at its code (R171). -/
def Block.startStream (b : Block) (e : Env) (c : Nat) (x : Cmd) (rank n total : Nat) : Block :=
  let s := b.newStream c x rank total
  let b := b.occupy e n s bsRunning
  match x.body with
  | .move _ => Block.feedAll e n 65 b
  | _ =>
    let b := match b.imageHead x s.prog with | some h => b.hold_ h (.engine n 0) | none => b
    b.reach e n s.codeOff

/-! ### Restores -/

/-- Begin the restore of a slot on a berth (R150). -/
def Block.startRestore (b : Block) (e : Env) (n slot : Nat) (sv : Saved) : Block :=
  let b := (b.occupy e n sv.stream bsRestoring).modBerth n fun x => { x with slot := some slot, reserveWait := true, moving := 0, moved := 0 }
  if b.reserveFree e n then b.takeReserve n else b.joinReserve n

/-! ### Starting a job -/

/-- The serial of a service of the dispatcher, for round robin (R338). -/
def Block.markServed (b : Block) (x : Cmd) : Block :=
  let k := b.quay.served + 1
  let b := { b with quay := { b.quay with served := k } }
  if x.list? then b.modSlice x.slice fun s => { s with listServed := k } else b.modQueue x.q fun q => { q with lastServed := k }

/-- Start a job, or restore its saved streams, on berths in rank order (R150, R337, R438). -/
def Block.startJob (b : Block) (e : Env) (c : Nat) (x : Cmd) (ns : List Nat) : Block :=
  let b := (b.modCmd c fun x => { x with ph := .running, units := ns, since := e.now, ran := true, ready := false }).markServed x
  if x.ph = .saved then
    let sl := sortBy (fun (a b : Nat × Saved) => decide (a.2.stream.rank ≤ b.2.stream.rank)) (b.slots.filter fun y => y.2.stream.job = c)
    (List.zip ns sl).foldl (fun b (n, k, sv) => b.startRestore e n k sv) b
  else
    let b := match x.body with
      | .tensor t => b.digestProgram x.slice t.prog t.img.ilen
      | .list _ id => b.dealList id ns
      | _ => b
    (List.zipIdx ns).foldl (fun b (n, r) => b.startStream e c x r n ns.length) b

/-- Commands of a partition that meet a condition and need more berths than it has complete with SERVICE_UNAVAILABLE; their slots are freed. -/
def Block.dropIf (b : Block) (p : Nat) (ok : Block → Nat → Cmd → Bool) : Block :=
  let k := (b.partBerths p).length
  b.quay.cmds.foldl (fun b (c, x) =>
    if ok b c x ∧ b.cmdPart x = p ∧ k < b.needOf c x then
      (b.dropSlots fun v => v.stream.job = c).endCmd c stUnavailable 0
    else b) b

/-- Commands that reach dispatch while their partition has too few berths (R41, R267). -/
def Block.dropWide (b : Block) (p : Nat) : Block := b.dropIf p fun b c x => b.candidate c x

/-- A command whose STREAMS counts against a partition's berths. -/
def Cmd.streamed (x : Cmd) : Bool := match x.body with | .tensor _ => true | .list _ _ => true | _ => false

/-- Queued and saved jobs whose STREAMS exceeds what a berth's leaving left (R346, R354). -/
def Block.dropQueued (b : Block) (p : Nat) : Block := b.dropIf p fun _ _ x => (x.ph = .waiting || x.ph = .saved) && x.streamed

/-- Owned berths that are gated are switched on when a dispatch needs them (R512). -/
def Block.wakeBerths (b : Block) (p k : Nat) : Block :=
  (((b.partBerths p).filter fun n => b.bstate n = bsGated).take k).foldl (fun b n => b.switchOn n) b

/-- A running job is on its way off its berths: a stream of it yields or is saved. -/
def Block.leaving (b : Block) (c : Nat) : Bool := (b.jobBerths c).any fun n => (b.berth n).leaving || (b.berth n).yield.isSome

/-- Berths of a partition about to be idle: those of jobs that yield or are saved, and scrubs of berths no job holds. -/
def Block.coming (b : Block) (p : Nat) : Nat :=
  ((b.partBerths p).filter fun n => b.rd F.BT_CTL_DRAIN n = 0 &&
    ((b.berth n).leaving || (b.berth n).yield.isSome || (b.bstate n = bsScrubbing && !b.heldByJob n) ||
      ((b.bstate n = bsScrubbing || b.bstate n = bsIdle) && b.quay.cmds.any fun x => x.2.onBerths && x.2.ph = .running && x.2.units.contains n && b.leaving x.1))).length

/-- The running jobs of a partition that may be yielded, largest V first (R340): never LC jobs, nor a suspect under trial. -/
def Block.yieldable (b : Block) (e : Env) (p : Nat) (ok : Block → Cmd → Bool) : List (Nat × Cmd) :=
  let js := b.quay.cmds.filter fun (_, x) => x.ph = .running && x.onBerths && b.cmdPart x = p && !b.lcJob x && x.suspect ≠ 2 && ok b x
  sortBy (fun (x y : Nat × Cmd) => decide (b.vNow e y.2.slice ≤ b.vNow e x.2.slice)) js

/-- Yield running jobs of a partition, largest V first, until enough berths will be free (R340). -/
def Block.yieldFor (b : Block) (e : Env) (p need : Nat) (ok : Block → Cmd → Bool) : Block :=
  (b.yieldable e p ok).foldl (fun b (c, _) =>
    if need ≤ (b.idleBerths p).length + b.coming p then b else b.yieldJob e c false) b

/-- The next job that a trigger of R340 yields, where a candidate needs that many berths and fewer will be free. -/
def Block.victim (b : Block) (e : Env) (p : Nat) (need : Option Nat) (ok : Block → Cmd → Bool) : Option Nat :=
  match need with
  | none => none
  | some k => if k ≤ (b.idleBerths p).length + b.coming p then none else ((b.yieldable e p ok).find? fun x => !b.leaving x.1).map (·.1)

/-- Row 1 of R340: the berths an LC candidate needs that finds too few idle, PREEMPT_LC set. -/
def Block.lcNeed (b : Block) (e : Env) (p : Nat) : Option Nat :=
  match b.chosen e p with
  | none => none
  | some (c, x) =>
    let n := b.needOf c x
    if x.suspect ≠ 2 && b.lcJob x && b.rd F.BW_SCHED_PREEMPT_LC p = 1 && decide ((b.idleBerths p).length < n) then some n else none

/-- Time is at a QUANTUM boundary of a partition in POOLED mode (R340). -/
def Block.atQuantum (b : Block) (e : Env) (p : Nat) : Bool :=
  let q := 1000 * b.rd F.BW_SCHED_QUANTUM p
  let since := e.now - tgetD b.quantumFrom p 0
  b.rd F.BW_MODE_MODE = 1 && b.partExists p && decide (0 < q ∧ 0 < since ∧ since % q = 0)

/-- Row 2 of R340: the berths a candidate waits for at a QUANTUM boundary. -/
def Block.quantumNeed (b : Block) (e : Env) (p : Nat) : Option Nat :=
  if !b.atQuantum e p then none
  else match b.chosen e p with
    | none => none
    | some (c, x) =>
      let n := b.needOf c x
      if n ≤ (b.idleBerths p).length || x.suspect = 2 then none else some n

/-- Row 2 of R340: a job has run a QUANTUM since its dispatch, and its slice's V exceeds the waiting candidate's, as they stand at the boundary. -/
def Block.overQuantum (b₀ : Block) (e : Env) (p : Nat) : Block → Cmd → Bool :=
  match b₀.chosen e p with
  | none => fun _ _ => false
  | some (_, x) =>
    let v := b₀.vNow e x.slice
    let q := 1000 * b₀.rd F.BW_SCHED_QUANTUM p
    fun b y => decide (q ≤ e.now - y.since) && decide (v < b.vNow e y.slice)

/-- JOB_DISPATCH of a partition's berths (R337, R338, R340). -/
def Block.dispatchBerths (b : Block) (e : Env) (p : Nat) : Block :=
  let b := (b.dropWide p).markReady e p
  match b.chosen e p with
  | none => b
  | some (c, x) =>
    let idle := b.idleBerths p
    let n := b.needOf c x
    if n ≤ idle.length then (if x.ferry? then b else b.startJob e c x ((b.berthOrder x idle).take n))
    else
      let b := b.wakeBerths p (n - idle.length)
      match b.lcNeed e p with
      | some need => b.yieldFor e p need fun _ _ => true
      | none => b

/-! ### Other units -/

/-- The oldest candidate whose body meets a condition. -/
def Block.oldest (b : Block) (ok : Cmd → Bool) : Option (Nat × Cmd) :=
  b.quay.cmds.find? fun (c, x) => ok x && b.candidate c x

/-- The FERRY command that a partition serves next, with its berth (R338, R410): one for which Ferry has a berth already, in the order of R338; else the one the dispatcher chose next, on an idle berth. -/
def Block.nextFerry (b : Block) (e : Env) (p : Nat) : Option (Nat × Cmd × Option Nat) :=
  match b.ferryHome p with
  | some n => (b.nextOf e (b.quay.cmds.filter fun (c, x) => x.ferry? && b.cmdPart x = p && b.candidate c x)).map fun y => (y.1, y.2, some n)
  | none => (b.chosen e p).bind fun y => if y.2.ferry? then some (y.1, y.2, (b.idleBerths p).head?) else none

/-- Dispatch a FERRY command of a partition (R404 to R410): a berth is borrowed, the source is read, and the collective starts when it is ready. -/
def Block.dispatchFerry (b : Block) (e : Env) (p : Nat) : Block :=
  let b := (b.dropWide p).markReady e p
  match b.nextFerry e p with
  | none => b
  | some (c, x, home) =>
    match x.body with
    | .ferry f =>
      match tget b.fabric.groups f.group with
      | none => b.endCmd c stProtection 0
      | some g =>
        if g.r.owner ≠ x.slice then b.endCmd c stProtection 0
        else if f.op ≠ 5 ∧ !b.rangeFresh c f.srcBuf then b
        else match home with
          | none => b.wakeBerths p 1
          | some n =>
            let b := if b.bstate n = bsCollective then b else b.setBstate e n bsCollective
            let b := (b.modCmd c fun x => { x with ph := .running, units := [n], since := e.now, ran := true, ready := false }).markServed x
            let id := b.fabric.nextColl
            let y : Coll := { entry := f.group, sq := 0, op := f.op, mode := f.mode, format := f.format, root := f.root, len := f.len, mask := 0
                              job := c, fromBerth := false, places := [], begun := false, timer := e.now, started := e.now, credits := []
                              sentTo := [], heard := [], own := [], parts := [], complete := [], bad := false }
            let b := { b with fabric := { b.fabric with colls := tput b.fabric.colls id y, nextColl := id + 1 } }
            if f.op = 5 then b.tryStart e id false
            else
              let hs := [f.srcBuf, f.dstBuf].filterMap fun k => b.bufHead c k
              let b := hs.foldl (fun b h => b.hold_ h .ferry) b
              match b.laneRange c p f.srcBuf f.srcOff false true (fun i => .ferry c i) [] (f.len + 1) f.len 0 with
              | (some (some st), b) =>
                ((({ b with fabric := { b.fabric with colls := tdel b.fabric.colls id } }).endCmd c st 0).faultEvent e c st ukBlock 0 0 0).ferryFree e c
              | (_, b) => b.tryStart e id false
    | _ => b

/-- LC_DATA: the command's 64 bytes, the header of R273 before its opaque body (R63, R276). -/
def lcData (h : CmdHdr) (data : List Byte) : List Byte :=
  leBytes 1 (h.irq.toNat + 2 * h.ext.toNat + 4 * h.noReplay.toNat) ++ leBytes 1 h.nbuf ++ leBytes 2 h.ctx ++ leBytes 4 h.tag ++
  leBytes 8 h.bufsVa ++ data.take 48

/-- Dispatch a command to a Lighter engine (R63): a CMD beat under a free tag. -/
def Block.dispatchLighter (b : Block) (e : Env) (n : Nat) : Block :=
  let l := b.lighter n
  if l.isolated || !e.ties.lighterMask.testBit n then b
  else if !b.domUp domLighter && b.asleep then b.switchOn domLighter
  else
    match b.oldest (fun x => match x.body with | .lighter k _ => k = n | _ => false), firstFrom (fun t => !thas l.cmds t) 256 0 with
    | some (c, x), some t =>
      let b := (b.modCmd c fun x => { x with ph := .running, units := [t], since := e.now, ran := true, ready := false }).markServed x
      b.modLighter n fun l => { l with cmds := tput l.cmds t c, sent := l.sent ++ [(t, x.hdr.ctx, lcData x.hdr (match x.body with | .lighter _ d => d | _ => []))] }
    | _, _ => b

/-! ### General cores (R278, R341) -/

/-- A general command. -/
def Cmd.general? (x : Cmd) : Bool := match x.body with | .general _ => true | _ => false

/-- A slice's core virtual time with its running tasks added (R341). -/
def Block.coreNow (b : Block) (e : Env) (sl : Nat) : Rat :=
  let base := ((tget b.quay.slices sl).map (·.coreV)).getD 0
  let w := max 1 (b.rd F.BW_SLICE_WEIGHT sl)
  b.cores.foldl (fun v (_, k) => match k.task with
    | some c => if ((tget b.quay.cmds c).map (·.slice)) = some sl then v + ((e.now - k.since : Nat) : Rat) / (w : Rat) else v
    | none => v) base

/-- The general tasks that could run now. -/
def Block.coreCands (b : Block) : List (Nat × Cmd) := b.quay.cmds.filter fun (c, x) => x.general? && b.candidate c x

/-- New general candidates enter under the same rule as berth candidates (R338, R341). -/
def Block.markCores (b : Block) (e : Env) : Block :=
  b.coreCands.foldl (fun b (c, x) =>
    if x.ready then b
    else
      let old := b.coreCands.filter fun y => y.2.ready
      let b := if old.any fun y => y.2.slice = x.slice then b
        else match minRat (old.map fun y => b.coreNow e y.2.slice) with
          | some v => let me := b.coreNow e x.slice
                      if me < v then b.modSlice x.slice fun s => { s with coreV := s.coreV + (v - me) } else b
          | none => b
      b.modCmd c fun x => { x with ready := true }) b

/-- The next general task: the slice of smallest core virtual time, round robin over its queues. -/
def Block.chosenTask (b : Block) (e : Env) : Option (Nat × Cmd) :=
  match leastOn (fun (x y : Nat × Cmd) => decide (b.coreNow e x.2.slice < b.coreNow e y.2.slice)) b.coreCands with
  | none => none
  | some (_, x) => leastOn (fun (y z : Nat × Cmd) => decide (b.servedAt y.2 < b.servedAt z.2)) (b.coreCands.filter fun y => y.2.slice = x.slice)

/-- A core can take a task. -/
def Core.free (k : Core) : Bool := k.on && !k.failed && k.task.isNone && k.resetStep.isNone

/-- Start or resume a general task on a core (R278, R341): the program counter at ENTRY, a0 ARGS, sp the end of buffer STACK. -/
def Block.dispatchCore (b : Block) (e : Env) (g : Nat) : Block :=
  let b := b.markCores e
  match b.chosenTask e with
  | none => b
  | some (c, x) =>
    let k := b.core g
    if k.failed then b
    else if !k.on then b.switchOn (domCore g)
    else if !k.free then b
    else
      match x.body with
      | .general t =>
        let sp := (x.bufs[t.stack]?.map fun y => y.va + y.len).getD 0
        let (pc, a0, sp, ran, regs) := x.task.getD (t.entry, BitVec.ofNat 64 t.args, BitVec.ofNat 64 sp, 0, CoreRegs.zero)
        let b := (b.modCmd c fun x => { x with ph := .running, units := [g], since := e.now, ran := true, ready := false, task := none }).markServed x
        b.modCore g fun k => { k with task := some c, ran := ran, since := e.now, taken := e.now, pc := pc, a0 := a0, sp := sp, regs := regs, miss := none, tlb := [], progress := e.now }
      | _ => b

/-- Charge a core's task from its last start (R341, R524). -/
def Block.chargeCore (b : Block) (e : Env) (g : Nat) : Block :=
  let k := b.core g
  match k.task.bind fun c => tget b.quay.cmds c with
  | none => b
  | some x =>
    let ns := e.now - k.since
    let w := max 1 (b.rd F.BW_SLICE_WEIGHT x.slice)
    let b := b.modSlice x.slice fun s => { s with coreV := s.coreV + (ns : Rat) / (w : Rat) }
    let b := { b with tally := { b.tally with coreNs := tupd b.tally.coreNs x.slice 0 (· + ns) } }
    b.modCore g fun k => { k with ran := k.ran + ns, since := e.now }

/-- A core lets its task go: registers scrubbed, its stamps no longer held (R299, R314, R322). -/
def Block.clearCore (b : Block) (e : Env) (g : Nat) : Block :=
  let b := (b.chargeCore e g).unholdAll (.core g)
  b.modCore g fun k => { k with task := none, ran := 0, pc := 0, a0 := 0, sp := 0, regs := CoreRegs.zero, miss := none, tlb := [], progress := e.now }

/-- A general task ends with a status, a DETAIL and a RESULT (R278). -/
def Block.endTask (b : Block) (e : Env) (g st detail result : Nat) : Block :=
  match (b.core g).task with
  | none => b
  | some c =>
    let b := b.clearCore e g
    ((b.modCmd c fun x => { x with result := result, units := [] }).endCmd c st detail).faultEvent e c st ukCore g 0 0

/-! ### Berths that join and leave a partition (R345, R346) -/

/-- A berth becomes a partition's: OWNED, PARTITION, pace weight 256, a place in BERTHS. -/
def Block.ownBerth (b : Block) (n p : Nat) : Block :=
  let b := ((b.wr F.BT_STATE_OWNED n 1).wr F.BT_STATE_PARTITION n p).wr F.MF_PACE_WEIGHT n 256
  b.wr F.BW_PART_BERTHS p (setBit (b.rd F.BW_PART_BERTHS p) n true)

/-- A berth leaves its partition. -/
def Block.disownBerth (b : Block) (n : Nat) : Block :=
  if b.rd F.BT_STATE_OWNED n = 0 then b
  else
    let p := b.rd F.BT_STATE_PARTITION n
    let b := (b.wr F.BT_STATE_OWNED n 0).wr F.BT_STATE_PARTITION n 0
    let b := b.wr F.BW_PART_BERTHS p (setBit (b.rd F.BW_PART_BERTHS p) n false)
    (b.wr F.BW_PART_DRAINING p (setBit (b.rd F.BW_PART_DRAINING p) n false)).dropQueued p

/-- The resizes in progress: partition, berths to add, berths to remove. -/
def Block.resizes (b : Block) : List (Running × Nat × Nat × Nat) :=
  (b.harbour.running.filter fun r => r.opcode = 0x0104).map fun r => (r, r.touches.headD 0, r.todo % 65536, r.todo / 65536)

/-- Resizes go on (R346): when every berth to remove is gated, those to add are switched on and scrubbed; when they have joined, the command replies DONE. -/
def Block.resizeGo (b : Block) (e : Env) : Block :=
  b.resizes.foldl (fun b (r, p, add, rem) =>
    if (bitsOf 16 rem).any fun n => (b.bstate n ≠ bsGated && b.bstate n ≠ bsFailed) || b.rd F.BT_STATE_OWNED n = 1 then b
    else
      let b := (bitsOf 16 add).foldl (fun b n =>
        if b.rd F.BT_STATE_OWNED n = 1 then b
        else if b.bstate n = bsGated then b.switchOn n
        else if b.bstate n = bsIdle then b.startScrub e n
        else b) b
      if (bitsOf 16 add).all fun n => (b.rd F.BT_STATE_OWNED n = 1 && b.rd F.BT_STATE_PARTITION n = p) || b.bstate n = bsFailed then
        b.endMgr e r.m 0x0104 rcDone
      else b) b

/-- A resize under way gives a berth to this partition. -/
def Block.joining (b : Block) (n : Nat) : Option Nat := (b.resizes.find? fun (_, _, add, _) => add.testBit n).map fun (_, p, _, _) => p

/-- A berth is free of work (R152, R346): DRAINED under DRAIN, and then removed if its partition loses it; else IDLE. -/
def Block.berthDrained (b : Block) (e : Env) (n : Nat) : Block :=
  let b := b.setBstate e n bsDrained
  let p := b.rd F.BT_STATE_PARTITION n
  if b.rd F.BT_STATE_OWNED n = 1 && (b.rd F.BW_PART_DRAINING p).testBit n then
    ((b.disownBerth n).wr F.BT_CTL_DRAIN n 0).startScrub e n
  else b

/-- What a scrubbed berth becomes (R37, R147, R152, R346, R479). -/
def Block.afterScrub (b : Block) (e : Env) (n : Nat) : Block :=
  if b.harbour.failed.contains (.berth n) then b.setBstate e n bsFailed
  else if b.rd F.BT_STATE_OWNED n = 0 then
    match b.joining n with
    | some p => (((b.ownBerth n p).setBstate e n bsIdle).modBerth n fun x => { x with idleSince := e.now }).resizeGo e
    | none => (b.gateBerth e n).resizeGo e
  else if b.rd F.BT_CTL_DRAIN n = 1 then b.berthDrained e n
  else
    let b := (b.setBstate e n bsIdle).modBerth n fun x => { x with idleSince := e.now }
    -- a restore that the dispatcher has already assigned to the berth keeps the occupancy (R479)
    let p := b.rd F.BT_STATE_PARTITION n
    let kept : Bool := match b.chosen e p with
      | some (c, x) => decide (x.ph = .saved) && decide (b.needOf c x ≤ (b.idleBerths p).length)
      | none => false
    if kept then b else b.modBerth n fun x => { x with occupants := [] }

/-- Set or clear DRAIN (R152, R340): set, the running job is yielded and the berth becomes DRAINED; cleared, a DRAINED berth is IDLE again. -/
def Block.setDrain (b : Block) (e : Env) (n : Nat) (on : Bool) : Block :=
  let b := b.wr F.BT_CTL_DRAIN n (if on then 1 else 0)
  if on then
    if b.bstate n = bsIdle then b.berthDrained e n
    else match (b.berth n).stream with
      | some st => b.yieldJob e st.job true
      | none => b
  else if b.bstate n = bsDrained then (b.setBstate e n bsIdle).modBerth n fun x => { x with idleSince := e.now }
  else b

end Sys2Proof.Machine
end

