-- ==== Sys2Proof/Machine/TearOps.lean ====
section
/-! DEFINITION. The end of contexts (R292, R298 to R301): fences that break, the start of a teardown, serving that ends with its context. -/

namespace Sys2Proof.Machine

open Sys2Proof

/-! ### Fences that break (R292, R293) -/

/-- A fence breaks: its mirror gets all ones, the commands that wait on it complete, and it is freed once nothing holds it. -/
def Block.breakFence (b : Block) (e : Env) (f : Nat) : Block :=
  match tget b.quay.fences f with
  | none => b
  | some x =>
    if x.broken then b
    else
      let b := b.noteWaits
      let b := { b with quay := { b.quay with fences := tput b.quay.fences f { x with broken := true } } }
      let b := match x.mirror with
        | some va => b.mirror e f va x.slice (2 ^ 64 - 1)
        | none => b
      b.settleWaits.freeFences

/-- Fences break together: each one first, then their waiters. -/
def Block.breakFences (b : Block) (e : Env) (ok : Fence → Bool) : Block :=
  ((b.quay.fences.filter fun x => ok x.2 && !x.2.broken).map (·.1)).foldl (fun b f => b.breakFence e f) b

/-! ### Serving (R231, R257) -/

/-- The open ARM of a slice. -/
def Block.armOf (b : Block) (sl : Nat) : Option Armed := tget b.manifest.armed sl

/-- A sequence leaves the table, or is marked to leave when its list completes (R231, R238). -/
def Block.freeSeq (b : Block) (i : Nat) : Block :=
  match tget b.manifest.seqs i with
  | none => b
  | some s =>
    if s.inList then { b with manifest := { b.manifest with seqs := tput b.manifest.seqs i { s with deferRelease := true } } }
    else { b with manifest := { b.manifest with seqs := tdel b.manifest.seqs i } }

/-- Serving of a slice ends with its context: every entry becomes FREE, and the ARM is closed (R231). -/
def Block.dropServing (b : Block) (sl : Nat) : Block :=
  let ids := (b.manifest.seqs.filter fun x => x.2.slice = sl).map (·.1)
  let b := ids.foldl (fun b i => b.freeSeq i) b
  { b with manifest := { b.manifest with
      armed := tdel b.manifest.armed sl
      owed := b.manifest.owed.filter fun o => ((b.armOf sl).map (·.cmd)) ≠ some o.1 } }

/-! ### Ending commands for a reason of their context -/

/-- Abort one command (R65, R284, R299, R412): what has not been dispatched ends at once; a unit stops what it runs. -/
def Block.abortCmd (b : Block) (e : Env) (c st : Nat) : Block :=
  match tget b.quay.cmds c with
  | none => b
  | some x =>
    match x.ph with
    | .stamping => b.endCmd c st 0
    | .waiting => b.endCmd c st 0
    | .ended => b
    | _ =>
      let b := b.modCmd c fun x => { x with aborting := true }
      match x.body with
      | .general _ =>
        match b.cores.find? fun k => k.2.task = some c with
        | some (g, _) => b.endTask e g st 0 0
        | none => b.endCmd c st 0
      | .ferry _ =>
        match b.collOf c with
        | some id => b.collFailed e id st true
        | none => (b.endCmd c st 0).ferryFree e c
      | .lighter n _ =>
        let b := b.modCmd c fun x => if x.status = 0 then { x with status := st } else x
        match (b.lighter n).cmds.find? fun y => y.2 = c with
        | some (t, _) => b.modLighter n fun l =>
            { l with aborts := if l.aborts.any fun a => a.1 = t then l.aborts else l.aborts ++ [(t, e.now)], held := l.held.filter fun q => q.tag ≠ t }
        | none => b.endCmd c st 0
      | .serve 1 _ _ _ => (b.dropServing x.slice).endCmd c st 0
      | .serve _ _ _ _ => b.endCmd c st 0
      | _ =>
        let b := b.failJob e c st 0 none
        match b.collOf c with
        | some id => match tget b.fabric.colls id with
          | some y => ((b.sendAbort e y).dropColl e id y).leaveColl e y
          | none => b
        | none => b

/-- Records of a context held for a full ring are dropped as its teardown starts (R299, R301). -/
def Block.fullDrops (b : Block) (e : Env) (k : Nat) : Block :=
  b.quay.queues.foldl (fun b q => if q.2.full && q.2.held.any fun h => h.r.ctx = k then b.dropHeldIf e q.1 fun h => h.r.ctx = k else b) b

/-- A QUEUE_CREATE under way is of a context: its header or its standing command names it. -/
def StampTask.createsFor (t : StampTask) (k : Nat) : Bool :=
  match t.why with
  | .queue _ h _ st => h.ctx = k || (st.map fun x => x.1.hdr.ctx) = some k
  | .standing _ h _ f _ _ => h.ctx = k || f.hdr.ctx = k
  | _ => false

/-- The slice and the header of a QUEUE_CREATE that a task is for. -/
def StampTask.creates (t : StampTask) : Option (Nat × CmdHdr) :=
  match t.why with
  | .queue sl h _ _ => some (sl, h)
  | .standing sl h _ _ _ _ => some (sl, h)
  | _ => none

/-- A QUEUE_CREATE of a context that is torn down while its stamping is under way completes with CONTEXT_TORN_DOWN (R299). -/
def Block.dropCreates (b : Block) (e : Env) (k : Nat) : Block :=
  let ts := (b.pilot.streams.map (·.2) ++ b.pilot.waiting ++ b.pilot.reading.map (·.2.task)).filter fun t => t.createsFor k
  let b := b.dropTasks fun t => t.createsFor k
  ts.foldl (fun b t => match t.creates with
    | some (sl, h) => b.adminDone e sl h stTorn 0 0
    | none => b) b

/-- Start the teardown of a context (R298, R299): TEARING, its bound queues STOPPED, its commands aborted, its fences broken. -/
def Block.tearCtx (b : Block) (e : Env) (k : Nat) : Block :=
  match tget b.quay.ctxs k with
  | none => b
  | some x =>
    if x.st = .tearing then b
    else
      let b : Block := { b with quay := { b.quay with
        ctxs := tput b.quay.ctxs k { x with st := .tearing, since := e.now }
        queues := b.quay.queues.map fun q => (q.1, if q.2.bind = k ∧ q.2.st = .live then { q.2 with st := .stopped } else q.2) } }
      let b := b.fullDrops e k
      let b := b.dropCreates e k
      let cs := (b.quay.cmds.filter fun c => c.2.hdr.ctx = k).map (·.1)
      let b := cs.foldl (fun b c => b.abortCmd e c stTorn) b
      b.breakFences e fun f => f.owner = k

/-- Heads that outlive the context whose tags they carry: rings, standing commands, models, views, an ARM's buffers. -/
def Block.keptHeads (b : Block) : List Nat :=
  (b.quay.queues.flatMap fun q => q.2.ringHeads ++ (q.2.held.flatMap fun h => h.heads) ++ (match q.2.standing with | some (_, _, hs) => hs | none => [])) ++
  (b.manifest.models.flatMap fun m => m.2.heads) ++ (b.quay.slices.filterMap fun s => s.2.view.map fun v => v.2.1) ++
  (b.quay.cmds.flatMap fun c => c.2.heads)

/-- Nothing of a tearing context runs or waits any longer (R299). -/
def Block.ctxQuiet (b : Block) (k : Nat) : Bool :=
  !(b.quay.cmds.any fun c => c.2.hdr.ctx = k) &&
  (List.range 16).all fun n => decide (b.rd F.BT_STATE_CONTEXT n ≠ k) &&
    ((b.berth n).stream.map (·.ctx)) != some k && (decide (b.bstate n ≠ bsScrubbing) || !(b.berth n).occupants.contains k)

/-- The context is FREE (R298, R299): its stamps are freed, its number can be used again. -/
def Block.freeCtx (b : Block) (k : Nat) : Block :=
  let keep := b.keptHeads
  let hs := b.pilot.stamps.filterMap fun (i, s) => match s with
    | .head _ _ _ _ _ cx _ _ _ _ _ _ => if cx = k ∧ ¬ keep.contains i then some i else none
    | _ => none
  let b := b.freeStamps hs
  { b with quay := { b.quay with ctxs := tdel b.quay.ctxs k, ctxFreed := b.quay.ctxFreed ++ [k] } }

end Sys2Proof.Machine
end

