-- ==== Sys2Proof/Machine/FaultOps.lean ====
section
/-! DEFINITION. Hangs, resets and suspects (R471 to R482), crash dumps (R489, R490). -/

namespace Sys2Proof.Machine

open Sys2Proof

/-! ### Crash dumps (R380, R489) -/

/-- Dump triggers of R490. -/
def dtBerth : Nat := 1
def dtCore : Nat := 2
def dtHarbour : Nat := 3
def dtHang : Nat := 4
def dtBlock : Nat := 5
def dtManager : Nat := 6

/-- A dump can be written: H0 is connected and both its channels are in service (R380). -/
def Block.dumpable (b : Block) (e : Env) : Bool := e.ties.holdMask.testBit 0 && !(b.chan 0).out && !(b.chan 1).out

/-- Slots of the used part of a dump record that one channel of H0 takes (R489, R490). -/
def dumpSlots : Nat := 0xE10000 / 4096 / 2

/-- Begin to write the dump at the front as stores on both channels of H0, unless PWR_WARN_N is low, a warm reset waits, or a channel is out of service (R71, R380, R489, R493). -/
def Block.startDump (b : Block) (e : Env) : Block :=
  if !b.mayStore || b.hold.dumpQueue.isEmpty || b.hold.dumpWriting || !b.dumpable e then b
  else
    let serial := (b.stack 0).serial
    let b := b.modStack 0 fun x => { x with serial := x.serial + 2 * dumpSlots }
    let b : Block := { b with hold := { b.hold with dumpWriting := true } }
    ([0, 1].foldl (fun b ch => b.modChan ch fun c => c.addOp e.now (.dump (serial + ch * dumpSlots) (b.hoursOf e 0))) b).syncMerge 0

/-- A berth without what a dump never holds: store contents, tile entries, vector and scalar registers (R474). -/
def Berth.bare (x : Berth) : Berth :=
  let regs (r : Regs) : Regs := { Regs.reset with p := r.p, c := r.c, tiles := r.tiles.map fun t => (t.1, { t.2 with q := [] }) }
  let engine (l : List Xfer) : List Xfer := l.map fun t => { t with staged := [] }
  { x with
    regs := regs x.regs, spare := [], me0 := engine x.me0, me1 := engine x.me1
    stream := x.stream.map fun s => { s with digMem := [], products := [] }
    saving := x.saving.map fun v => { v with stream := { v.stream with products := [] }, regs := regs v.regs, me0 := engine v.me0, me1 := engine v.me1 } }

/-- A core without its registers but the program counter (R474). -/
def Core.bare (k : Core) : Core := { k with a0 := 0, sp := 0, regs := CoreRegs.zero }

/-- Nothing captured: the unit-state sections of a dump without a reset unit (R477). -/
def Snapshot.empty : Snapshot := ⟨[], [], [], [], [], [], [], [], [], [], [], []⟩

/-- The block's tables as a dump record holds them (R490). -/
def Block.tables (b : Block) : Snapshot :=
  { berths := (List.range 16).map fun n => (n, (b.berth n).bare), cores := b.cores.map fun k => (k.1, k.2.bare)
    queues := b.quay.queues, cmds := b.quay.cmds, ctxs := b.quay.ctxs, fences := b.quay.fences, seqs := b.manifest.seqs
    regs := b.regs, alarms := b.log.alarms, events := b.log.events, traces := b.log.traces, graph := b.log.graph }

/-- The fences a command waits on or signals. -/
def syncFences (s : SyncExt) : List Nat := [s.wait0, s.wait1, s.sig].filterMap fun w => w.map (·.1)

/-- The capture before a reset, into the staging area (R474): the unit, the queues of the contexts active on it with their commands, and the fences those wait on or signal. -/
def Block.captureUnit (b : Block) (unit : Nat) (ctxs : List Nat) : Block :=
  let t := b.tables
  let queues := t.queues.filter fun q => ctxs.contains q.2.bind
  let cmds := t.cmds.filter fun c => queues.any fun q => q.1 = c.2.q
  let named := cmds.flatMap fun c => syncFences c.2.sync
  let c : Snapshot := { Snapshot.empty with
    berths := t.berths.filter fun x => x.1 = unit, cores := t.cores.filter fun x => 16 + x.1 = unit
    queues := queues, cmds := cmds, fences := t.fences.filter fun f => named.contains f.1 }
  { b with hold := { b.hold with staging := tput b.hold.staging unit c } }

/-- Take a unit's capture out of the staging area. -/
def Block.captured (b : Block) (unit : Nat) : Snapshot := (tget b.hold.staging unit).getD Snapshot.empty

/-- A dump trigger (R489): at most one dump waits behind the one being written; a later trigger, and one whose dump cannot be written, is counted. -/
def Block.dumpTrigger (b : Block) (e : Env) (trigger unit : Nat) (suspects : List Nat) (capture : Snapshot) : Block :=
  if decide (2 ≤ b.hold.dumpQueue.length) || !b.dumpable e then (b.bump F.LB_DUMP_NOT_WRITTEN).wr F.LB_FLAGS_DUMP_SKIPPED 0 1
  else
    let d : Dump := ⟨trigger, unit, e.now, e.epoch, b.level, b.hold.dumpCount + 1, suspects, b.rd F.LB_DUMP_NOT_WRITTEN, false, capture, b.tables⟩
    { b with hold := { b.hold with dumpQueue := b.hold.dumpQueue ++ [d], dumpCount := b.hold.dumpCount + 1 } }.startDump e

/-- How many starts ago a dump was written, as far as its EPOCH tells (R400, R490). -/
def Dump.age (d : Dump) (e : Env) : Nat := (e.epoch + 255 - d.epoch) % 255

/-- The record a new dump takes (R380): an empty one, else the oldest read one, else the oldest. -/
def Block.dumpSlot (b : Block) (e : Env) : Nat :=
  match firstFrom (fun i => !thas b.hold.dumps i) 8 0 with
  | some i => i
  | none =>
    let old (l : Table Dump) : Option (Nat × Dump) :=
      leastOn (fun (x y : Nat × Dump) => decide (y.2.age e < x.2.age e ∨ (y.2.age e = x.2.age e ∧ x.2.count < y.2.count))) l
    match old (b.hold.dumps.filter fun d => d.2.read) with
    | some (i, _) => i
    | none => ((old b.hold.dumps).map (·.1)).getD 0

/-- UNIT of R484: kind, index. -/
def unitWord (kind idx : Nat) : Nat := kind + 256 * idx

/-! ### Suspects (R479, R480) -/

/-- A REPLAY event: verdict 0 cleared, 1 guilty, 2 replay refused, 3 unattributed reset. -/
def Block.replayEvent (b : Block) (e : Env) (berth verdict ctx : Nat) : Block :=
  b.event e { code := 0x1006, status := if verdict = 1 ∨ verdict = 2 then stAborted else 0, kind := ukBerth, idx := berth
              slice := (tget b.quay.ctxs ctx).map (·.slice), ctx := ctx, data := [verdict, ctx] }

/-- The collective a job takes part in is left and its members told (R412). -/
def Block.quitColl (b : Block) (e : Env) (c : Nat) : Block :=
  match b.collOf c with
  | some id => match tget b.fabric.colls id with
    | some y => ((b.sendAbort e y).dropColl e id y).leaveColl e y
    | none => b
  | none => b

/-- Take a job off its berths so that it can run again (R479): where every stream lies complete in a slot it is restored from there; else it runs from the start. -/
def Block.requeueJob (b : Block) (e : Env) (c n susp : Nat) : Block :=
  match tget b.quay.cmds c with
  | none => b
  | some x =>
    let ns := b.jobBerths c
    let kept := (b.jobSlots c).length = ns.length ∧ ns.all fun k => b.bstate k = bsRestoring ∨ (k = n ∧ (b.berth k).slot.isSome)
    let b := if kept then b else b.quitColl e c
    let b := Block.grantReserve e 17 (ns.foldl (fun b k => if k = n then b else (b.chargeBerth e k).startScrub e k) b)
    if kept then b.modCmd c fun x => { x with ph := .saved, units := [], ready := false, suspect := susp }
    else
      let b := b.dropSlots fun v => v.stream.job = c
      if x.list? then (b.modCmd c fun x => { x with units := [] }).endCmd c stAborted 0
      else if x.status ≠ 0 ∨ x.aborting then (b.modCmd c fun x => { x with units := [] }).endCmd c x.status x.detail
      else if susp ≠ 0 ∧ x.hdr.noReplay then
        ((b.modCmd c fun x => { x with units := [] }).endCmd c stAborted 0).replayEvent e n 2 x.hdr.ctx
      else b.modCmd c fun x => { x with
        ph := .waiting, units := [], ready := false, suspect := susp, copied := 0, anchorFlags := false, fallback := false, result := 0 }

/-- A suspect is guilty (R480): its command completes with ABORTED, its slots are freed, its context is torn down. -/
def Block.convict (b : Block) (e : Env) (n c : Nat) : Block :=
  match tget b.quay.cmds c with
  | none => b
  | some x =>
    let b := (b.quitColl e c).bump F.LB_HANG_GUILTY
    let b := Block.grantReserve e 17 ((b.jobBerths c).foldl (fun b k => if k = n then b else (b.chargeBerth e k).startScrub e k) b)
    let b := b.dropSlots fun v => v.stream.job = c
    let b := (b.modCmd c fun x => { x with units := [], suspect := 0 }).endCmd c stAborted 0
    ((b.replayEvent e n 1 x.hdr.ctx).modBerth n fun y => { y with guilty := true, suspects := y.suspects.filter (· ≠ x.hdr.ctx) }).tearCtx e x.hdr.ctx

/-- The contexts of a berth's occupancy become suspects (R479): the one under trial is guilty; the interrupted command is put back, saved ones wait for their trial. -/
def Block.accuse (b : Block) (e : Env) (n : Nat) (torn : Option Nat) : Block :=
  let x := b.berth n
  let ks := x.occupants.filter fun k => some k ≠ torn
  let job := x.stream.map fun s => s.job
  let trial := job.any fun c => ((tget b.quay.cmds c).map fun y => decide (y.suspect = 2)).getD false
  if trial then match job with
    | some c => b.convict e n c
    | none => b
  else
    let b : Block := match job with
      | some c => b.requeueJob e c n (if (x.stream.map fun (s : Stream) => s.ctx) = torn then 0 else 1)
      | none => b
    -- commands of the other contexts of the occupancy wait for their trial in their slots
    let b := b.quay.cmds.foldl (fun b (c, y) =>
      if y.ph = .saved ∧ y.suspect = 0 ∧ ks.contains y.hdr.ctx then b.modCmd c fun y => { y with suspect := 1 } else b) b
    let left := ks.filter fun k => b.quay.cmds.any fun y => y.2.suspect = 1 && y.2.hdr.ctx = k
    let gone := ks.filter fun k => !left.contains k
    -- a suspect whose job has ended is cleared; a refused replay is no clearance
    let refused := job.any fun c => ((tget b.quay.cmds c).map fun y => decide (y.ph = .ended)).getD false
    let own := x.stream.map fun (s : Stream) => s.ctx
    let b := gone.foldl (fun b k => if some k = own then b else b.replayEvent e n 0 k) b
    b.modBerth n fun y => { y with suspects := sortBy (fun a b => decide (a ≤ b)) left, guilty := refused }

/-! ### The end of a berth reset (R475) -/

/-- RESET commands that wait for a unit reply DONE (R493). -/
def Block.resetReplies (b : Block) (e : Env) (unit : Nat) : Block :=
  (b.harbour.running.filter fun r => r.opcode = 0x0505 && r.touches.contains unit).foldl (fun b r => b.endMgr e r.m 0x0505 rcDone) b

/-- Fence a berth off (R41, R475 step 4): isolated and gated, STATE FAILED, out of its partition, its spare map of no more use. -/
def Block.fenceOff (b : Block) (e : Env) (n reason : Nat) : Block :=
  let b := match (b.berth n).stream with
    | some s => b.requeueJob e s.job n 0
    | none => b
  let b := (Block.grantReserve e 17 (b.startScrub e n)).gateBerth e n
  let b := (b.setBstate e n bsFailed).modBerth n fun x => { x with resetting := none, swapping := none }
  ((b.disownBerth n).failUnit e (.berth n)).alarm e { code := 0x0002, kind := ukBerth, idx := n, data := [reason] }

/-- Notices a reset unit held are answered by its reset (R316). -/
def Block.resetAcks (b : Block) (e : Env) (ok : Holder → Bool) : Block :=
  let b : Block := { b with pilot := { b.pilot with
      notices := b.pilot.notices.filter fun x => !ok x.1
      invals := b.pilot.invals.map fun x => { x with waiting := x.waiting.filter fun w => !ok w } } }
  b.settleInvals e

/-- A berth reset ends (R475, R479): alarm, suspects, dump; a passed check lets the berth be scrubbed, or powered up and scrubbed when it was off. -/
def Block.endReset (b : Block) (e : Env) (n : Nat) (r : BReset) (pass : Bool) : Block :=
  let b := b.accuse e n r.torn
  let b := (b.alarm e { code := 0x0001, kind := ukBerth, idx := n, data := [r.trigger, r.step] }).dumpTrigger e dtBerth (unitWord ukBerth n) (b.berth n).suspects (b.captured n)
  let b := (b.chargeBerth e n).modBerth n fun x => { x with resetting := none, occupants := [] }
  let b :=
    if pass then
      let b := (b.startScrub e n).putRepairs n
      b.unitBack e (.berth n)
    else b.fenceOff e n r.trigger
  let b := b.resetAcks e fun h => match h with | .engine m _ => m = n | _ => false
  (b.resetReplies e n).raise (24 + n)

/-- Start a berth reset after its capture (R474, R475); a berth already escalating merges (R493). A berth without power starts at step 3. -/
def Block.startReset (b : Block) (e : Env) (n trigger step : Nat) (torn : Option Nat) : Block :=
  if (b.berth n).resetting.isSome then b
  else
    let step := if b.domUp n then step else 3
    let b := b.captureUnit n ((b.berth n).occupants ++ ((b.berth n).stream.toList.map fun (s : Stream) => s.ctx))
    let using_ := (b.berth n).saving.isSome || b.bstate n = bsRestoring
    let b := ((b.giveUpSave n).setBstate e n bsResetting).modBerth n fun x => { x with
      resetting := some ⟨step, trigger, e.now, [], torn⟩, yield := none, entry := none, quiescing := none, saving := none, slot := none, reserveWait := false, moving := 0, moved := 0 }
    let b := if using_ then Block.grantReserve e 17 b else b
    let b := if step = 2 then b.orphan n else b
    if step = 3 then b.switchOn n else b

/-- A step of a berth reset ends (R475): at its check the berth is done; at its deadline the next step follows. -/
def Block.stepReset (b : Block) (e : Env) (n : Nat) (pass : Bool) : Block :=
  match (b.berth n).resetting with
  | none => b
  | some r =>
    if r.step = 3 && pass && !b.domUp n then b
    else if pass then b.endReset e n r true
    else if r.step = 1 then (b.orphan n).modBerth n fun x => { x with resetting := some { r with step := 2 } }
    else if r.step = 2 then
      let b := ((b.switchOff n).loseBerth n).switchOn n
      b.modBerth n fun x => { x with resetting := some { r with step := 3 } }
    else b.endReset e n { r with step := 4 } false

/-! ### General-core resets (R476) -/

/-- Start a core reset: its task's command completes with ABORTED and DETAIL 2. -/
def Block.startCoreReset (b : Block) (e : Env) (g trigger : Nat) : Block :=
  if (b.core g).resetStep.isSome then b
  else
    let b := b.captureUnit (16 + g) (((b.core g).task.bind (tget b.quay.cmds)).toList.map fun (x : Cmd) => x.hdr.ctx)
    let b := (b.endTask e g stAborted 2 0).boxReset fun ch => b.coreIsB g ch
    b.modCore g fun k => { k with resetStep := some (if k.on then 1 else 3, trigger), tlb := [] }

/-- A core reset ends: alarm, dump, and at step 4 the core is failed and gated. -/
def Block.endCoreReset (b : Block) (e : Env) (g step trigger : Nat) (pass : Bool) : Block :=
  let b := (b.alarm e { code := 0x0003, kind := ukCore, idx := g, data := [trigger, step] }).dumpTrigger e dtCore (unitWord ukCore g) [] (b.captured (16 + g))
  let b := b.modCore g fun k => { k with resetStep := none, progress := e.now }
  let b :=
    if pass then (b.modCore g fun k => { k with failed := false, newFw := k.newFw || decide (step = 3) && b.harbour.coreFw }).unitBack e (.core g)
    else (((b.switchOff (domCore g)).modCore g fun k => { k with failed := true, on := false }).failUnit e (.core g)).alarm e { code := 0x0004, kind := ukCore, idx := g }
  let b := b.resetAcks e fun h => h = .core g
  b.resetReplies e (16 + g)

/-- A step of a core reset ends. -/
def Block.stepCore (b : Block) (e : Env) (g : Nat) (pass : Bool) : Block :=
  match (b.core g).resetStep with
  | none => b
  | some (step, trigger) =>
    if pass then
      if step = 3 && !(b.core g).on then b else b.endCoreReset e g step trigger true
    else if step = 1 then b.modCore g fun k => { k with resetStep := some (2, trigger) }
    else if step = 2 then
      ((b.switchOff (domCore g)).switchOn (domCore g)).modCore g fun k => { k with resetStep := some (3, trigger), on := false }
    else b.endCoreReset e g 4 trigger false

/-! ### Verdicts (R480) -/

/-- The last suspect of a berth is cleared: an unattributed reset; three within 24 hours fence the berth off. -/
def Block.attribute (b : Block) (e : Env) (n : Nat) : Block :=
  let x := b.berth n
  if !x.suspects.isEmpty || x.guilty then b
  else
    let times := (x.unattributed.filter fun t => decide (e.now < t + 86400000000000)) ++ [e.now]
    let b := (b.modBerth n fun x => { x with unattributed := times }).replayEvent e n 3 0
    if 3 ≤ times.length ∧ b.bstate n ≠ bsFailed then b.fenceOff e n (Config.resetTrigger 5) else b

/-- A context is no suspect any longer. -/
def Block.clearSuspect (b : Block) (e : Env) (k : Nat) : Block :=
  let ns := (b.berths.filter fun x => x.2.suspects.contains k).map (·.1)
  let b := b.replayEvent e (ns.headD 0) 0 k
  ns.foldl (fun b n => (b.modBerth n fun x => { x with suspects := x.suspects.filter (· ≠ k) }).attribute e n) b

/-! ### The hang detector (R471, R472) -/

/-- The nodes of the wait-for graph: commands (0, serial) and streams (1 + rank, job). -/
def Block.hangNodes (b : Block) : List (Nat × Nat) :=
  let waitsFence (x : Cmd) : Bool := x.ph = .waiting && x.sync.wait0.isSome || x.ph = .waiting && x.sync.wait1.isSome
  let blocked (x : Cmd) : Bool := waitsFence x && b.evalWaits x.openWaits = .no
  let cmds := b.quay.cmds.filter fun (c, x) => !x.list? &&
    (blocked x || ((x.ph = .waiting || x.ph = .stamping) && b.quay.cmds.any fun y => decide (y.1 < c) && y.2.q = x.q && blocked y.2) ||
      (x.ph = .waiting && x.onBerths && b.rd F.BW_MODE_MODE = 0 && b.candidate c x))
  let streams := b.berths.filterMap fun x => x.2.stream.bind fun s => match s.wait with
    | some (.fence _ _) => some (1 + s.rank, s.job)
    | _ => none
  cmds.map (fun c => (0, c.1)) ++ streams

/-- The waits of a node on fences: number and value. -/
def Block.hangWaits (b : Block) (v : Nat × Nat) : List (Nat × Nat) :=
  if v.1 = 0 then
    match tget b.quay.cmds v.2 with
    | some x => (x.sync.wait0.toList ++ x.sync.wait1.toList).filter fun w => b.evalWait (some w) = .no
    | none => []
  else b.berths.filterMap fun x => x.2.stream.bind fun s =>
    if 1 + s.rank = v.1 ∧ s.job = v.2 then match s.wait with | some (.fence f u) => some (f, u) | _ => none else none

/-- The graph's edges from a node (R471). -/
def Block.hangEdges (b : Block) (nodes : List (Nat × Nat)) (v : Nat × Nat) : List (Nat × Nat) :=
  let toCmds := (b.hangWaits v).flatMap fun (f, u) => (b.quay.cmds.filter fun x => match x.2.sync.sig with
    | some (g, w) => x.2.ph ≠ .ended && g = f && decide (u ≤ w)
    | none => false).map fun x => (0, x.1)
  let toStreams := (b.hangWaits v).flatMap fun (f, _) => nodes.filter fun w => w.1 ≠ 0 &&
    ((tget b.quay.cmds w.2).map fun x => (b.fenceRights f x.slice).2).getD false
  let held := if v.1 = 0 then match tget b.quay.cmds v.2 with
    | some x => ((b.quay.cmds.filter fun y => decide (y.1 < v.2) && y.2.q = x.q && (y.2.ph = .waiting || y.2.ph = .stamping)).take 1).map fun y => (0, y.1)
    | none => [] else []
  let units := if v.1 = 0 ∧ b.rd F.BW_MODE_MODE = 0 then match tget b.quay.cmds v.2 with
    | some x => if x.ph = .waiting ∧ x.onBerths ∧ b.candidate v.2 x then
        ((b.partBerths (b.cmdPart x)).filterMap fun n => (b.berth n).stream.map fun s => s.job).eraseDups.flatMap fun j =>
          (0, j) :: nodes.filter fun w => w.1 ≠ 0 && w.2 = j else []
    | none => [] else []
  -- a running job waits through its streams
  let inner := if v.1 = 0 then nodes.filter fun w => w.1 ≠ 0 && w.2 = v.2 else []
  (toCmds ++ toStreams ++ held ++ units ++ inner).eraseDups

/-- Nodes reachable from some nodes. -/
def hangReach (next : (Nat × Nat) → List (Nat × Nat)) : (fuel : Nat) → List (Nat × Nat) → List (Nat × Nat)
  | 0, l => l
  | k + 1, l =>
    let new := (l.flatMap next).eraseDups.filter fun v => !l.contains v
    if new.isEmpty then l else hangReach next k (l ++ new)

/-- The cycles of the graph: the sets of nodes that reach one another. -/
def Block.hangCycles (b : Block) : List (List (Nat × Nat)) :=
  let nodes := b.hangNodes
  let fuel := nodes.length + b.quay.cmds.length + 1
  let from_ (v : Nat × Nat) := hangReach (b.hangEdges nodes) fuel (b.hangEdges nodes v)
  let own (v : Nat × Nat) := nodes.filter fun w => (from_ v).contains w && (from_ w).contains v
  ((nodes.filter fun v => (from_ v).contains v).map own).eraseDups

/-- Resolve a declared hang (R472): the context of the most recently fetched command of the cycle is torn down, that command with ABORTED. -/
def Block.resolveHang (b : Block) (e : Env) (cyc : List (Nat × Nat)) : Block :=
  let ids := cyc.map (·.2)
  match tget b.quay.cmds (ids.foldl max 0) with
  | none => b
  | some x =>
    let live := ids.all fun c => match (tget b.quay.cmds c).bind fun y => tget b.quay.ctxs y.hdr.ctx with
      | some k => decide (k.st = .live)
      | none => false
    if !live then b
    else
      let c := ids.foldl max 0
      let p := b.cmdPart x
      let b := (b.bump F.LB_HANG_CYCLES).raise 49
      let b := if x.ph = .running ∨ x.ph = .saved then b.abortCmd e c stAborted else b.endCmd c stAborted 0
      let b := b.modCmd c fun y => if y.status = 0 then { y with status := stAborted } else y
      let b := b.event e { code := 0x100A, status := stAborted, kind := ukBlock, idx := p, slice := some x.slice, ctx := x.hdr.ctx, data := [cyc.length, x.hdr.ctx] }
      let b := b.alarm e { code := 0x0006, kind := ukBlock, idx := p, data := [cyc.length] }
      (b.tearCtx e x.hdr.ctx).dumpTrigger e dtHang (unitWord ukBlock p) [] Snapshot.empty

/-- One scan of the hang detector: counts of cycles go on; a cycle met three times in a row is resolved, at most one (R471, R472). -/
def Block.hangScan (b : Block) (e : Env) : Block :=
  let b : Block := { b with log := { b.log with graph := b.hangNodes.map fun v => (v, b.hangEdges b.hangNodes v) } }
  let cs : List (List (Nat × Nat) × Nat) := b.hangCycles.map fun c => (c, 1 + ((b.log.hangs.find? fun h => h.1 = c).map (·.2)).getD 0)
  match cs.find? fun c => decide (3 ≤ c.2) with
  | some (c, _) =>
    -- at most one hang per scan: the others keep their count; the resolved one is counted afresh
    ({ b with log := { b.log with hangs := cs.map fun (x : List (Nat × Nat) × Nat) => if x.fst = c then (c, 0) else x } }).resolveHang e c
  | none => { b with log := { b.log with hangs := cs } }

/-! ### Spare arrays (R132, R152 to R155) -/

/-- The physical arrays the map names, in logical order (R152). -/
def Block.mapOf (b : Block) (n : Nat) : List Nat := (List.range 8).map fun l => b.physArray n l

/-- The physical arrays of a berth that are not marked failed (R153). -/
def Block.goodArrays (b : Block) (n : Nat) : List Nat := (List.range 9).filter fun a => !(b.rd F.BT_ARRAY_HEALTH_FAILED n).testBit a

/-- Mark a physical array failed (R132, R155): one in the map starts the swap; with no unfailed array left to complete the map the berth fails. -/
def Block.failArray (b : Block) (e : Env) (n a : Nat) : Block :=
  let mapped := (b.mapOf n).contains a
  let b := b.wr F.BT_ARRAY_HEALTH_FAILED n (b.rd F.BT_ARRAY_HEALTH_FAILED n ||| 2 ^ a)
  if !mapped || b.bstate n = bsFailed then b
  else if (b.goodArrays n).length < 8 then (b.fenceOff e n (Config.resetTrigger 6)).resetReplies e n
  else (b.modBerth n fun x => { x with swapping := some a }).setDrain e n true

/-- Three parity errors of an array within 24 hours: the Harbourmaster marks it failed (R132). -/
def Block.markWorn (b : Block) (e : Env) (n : Nat) : Block :=
  let worn (a : Nat) : Bool := decide (3 ≤ ((b.berth n).parityTimes.filter fun x => x.1 = a && decide (e.now < x.2 + 86400000000000)).length)
  ((b.goodArrays n).filter worn).foldl (fun b a => b.failArray e n a) b

end Sys2Proof.Machine
end

