-- ==== Sys2Proof/Machine/Jobs.lean ====
section
/-! DEFINITION. The ends of commands (R281, R286), yields, saves, restores, scrubs (R144 to R152), quantum boundaries (R340). -/

namespace Sys2Proof.Machine

open Sys2Proof

/-! ### The end of a command -/

/-- Requests a command made through the OTHER lanes, or merge-buffer entries of it, are still to be answered. -/
def Block.cmdBusy (b : Block) (c : Nat) : Bool :=
  let mine (r : MemReq) : Bool := match r.who with
    | .ferry k _ => decide (k = c)
    | _ => false
  b.strayOf c || b.ports.out.any (fun x => mine x.2) || b.ports.lanes.any (fun x => x.2.any fun r => mine r.req) ||
  b.lighters.any (fun x => x.2.gather.any fun g => g.c = c) ||
  b.hold.stks.any fun x => x.2.merge.any fun m => m.jobs.contains c

/-- Skew of a job's streams in µs (R525). -/
def skewUs (busy : Table Nat) : Nat :=
  match busy.map (·.2) with
  | [] => 0
  | t :: ts => (ts.foldl max t - ts.foldl min t) / 1000

/-- TL_PACE_p takes the skew of a job (R525). -/
def Block.notePace (b : Block) (p : Nat) (busy : Table Nat) : Block :=
  let k := min (skewUs busy) 0xFFFFFFFF
  (b.wr F.TL_PACE_LAST_US p k).raiseMax F.TL_PACE_MAX_US p k

/-- COMMAND_COMPLETE (R281, R285, R470, R480): the record, the signal, the vector; a failure of R469 then tears the context down; a suspect whose job has ended is cleared. -/
def execCommandComplete (c : Nat) (s : State) : Out :=
  onBlk s fun e b =>
    match tget b.quay.cmds c with
    | none => b
    | some x =>
      if x.ph ≠ .ended || x.list? || b.cmdBusy c then b
      else
        let b := match x.body with
          | .tensor t => if 2 ≤ t.streams then b.notePace (b.slicePart x.slice) x.busy else b
          | _ => b
        let tearing := ((tget b.quay.ctxs x.hdr.ctx).map fun k => decide (k.st = .tearing)).getD false
        let lighter := match x.body with | .lighter _ _ => true | _ => false
        let b := b.retire e c tearing
        let b := if x.suspect = 2 then b.clearSuspect e x.hdr.ctx else b
        if x.ran && tearsDown x.finalStatus && !lighter then b.tearCtx e x.hdr.ctx else b

/-- MSIX_MODERATE_EXPIRY (R286): the merged raises of a queue's vector are delivered as one. -/
def execMsixModerateExpiry (q : Nat) (s : State) : Out :=
  onBlk s fun e b =>
    match tget b.quay.queues q with
    | none => b
    | some x => if x.moderOwed && decide (x.moderUntil ≤ e.now) then b.raiseVector e q else b

/-! ### Yields and saves -/

/-- BERTH_YIELD (R148, R149, R340): the job on a berth is yielded where a trigger of R340 holds: DRAIN on the berth, or the job is the next one to make room for an LC candidate or at a QUANTUM boundary. -/
def execBerthYield (n : Nat) (s : State) : Out :=
  onUnit (decide (n < 16)) s fun e b =>
    let drain := b.rd F.BT_CTL_DRAIN n = 1
    match (b.berth n).stream.map (·.job) with
    | none => b
    | some c =>
      let p := b.rd F.BT_STATE_PARTITION n
      if drain || b.victim e p (b.lcNeed e p) (fun _ _ => true) = some c || b.victim e p (b.quantumNeed e p) (b.overQuantum e p) = some c then b.yieldJob e c drain else b

/-- HORIZON_EXPIRY (R148): while its moor entry is read or it runs to the moor, the berth saves in full from where it stands; in coll it yields later (R149). -/
def execHorizonExpiry (n : Nat) (s : State) : Out :=
  onUnit (decide (n < 16)) s fun e b =>
    match (b.berth n).yield, (b.berth n).stream with
    | some t, some st =>
      let coll := match st.wait with | some .coll => true | _ => false
      whenB ((b.bstate n = bsToMoor || (b.berth n).entry.isSome && !coll) && decide (t + 1000 * b.rd F.BT_CTL_HORIZON n ≤ e.now)) (fun b => b.quiesce e n none st.pc) b
    | _, _ => b

/-- The tiles whose entries a save writes. -/
def Saved.tiles (v : Saved) : List Nat :=
  (v.regs.tiles.filter fun t => match v.mask with | some (m, _, _) => m.testBit t.1 | none => true).map (·.1)

/-- The berth-store ranges a save writes. -/
def Saved.ranges (v : Saved) : List (Nat × Nat) :=
  match v.mask with
  | none => [(0, storeBytes)]
  | some (_, _, rs) => (bitsOf 64 rs).map fun g => (g * 0x50000, 0x50000)

/-- The checks of what a save reads (R132, R149, R156, R468): uncorrectable data fails the stream, whose berth is scrubbed, and no slot is kept. -/
def Block.saveCheck (b : Block) (e : Env) (n : Nat) (v : Saved) : Bool × Block :=
  match v.tiles.find? fun t => (v.regs.tile t).parityBad with
  | some t => (false, b.parityMet e n t)
  | none => v.ranges.foldl (fun (ok, b) (a, l) =>
    if !ok then (ok, b)
    else match b.eccRead n a l with
      | (some line, b) => (false, b.berthData e n line [n, line])
      | (none, b) => (true, b)) (true, b)

/-- SAVE_START (R145, R146, R149): the quiesced berth begins its save when the reserve is free, or waits in line. -/
def execSaveStart (n : Nat) (s : State) : Out :=
  onUnit (decide (n < 16)) s fun e b =>
    match (b.berth n).saving with
    | none => b
    | some v =>
      if !(b.berth n).reserveWait then b
      else if !b.reserveFree e n then b.joinReserve n
      else
        match b.saveCheck e n v with
        | (false, b) => Block.grantReserve e 17 (b.markWorn e n)
        | (true, b) =>
          match b.freeSlots e with
          | [] => b
          | k :: _ => (b.takeReserve n).modBerth n fun x => { x with slot := some k, moving := 0, moved := 0 }

/-- SAVE_COMPLETE (R144, R147, R339): every unit has been written; the slot holds the stream, the berth is charged and scrubbed; with its last stream the job is a candidate again. -/
def execSaveComplete (n : Nat) (s : State) : Out :=
  onUnit (decide (n < 16)) s fun e b =>
    match (b.berth n).saving, (b.berth n).slot with
    | some v, some k =>
      if (b.berth n).reserveWait || !b.saveOver n v then b
      else
        let b := ({ b with slots := tput b.slots k { v with early := decide (256 ≤ k) } }).modBerth n fun x => { x with saving := none, slot := none }
        (Block.grantReserve e 17 ((b.chargeBerth e n).startScrub e n)).endIfOver v.stream.job
    | _, _ => b

/-- RESTORE_COMPLETE (R148, R150): every unit has been read; the stream is back with its registers and its engines, and goes on where it was; a yield or a DRAIN that arrived meanwhile is taken up. -/
def execRestoreComplete (n : Nat) (s : State) : Out :=
  onUnit (decide (n < 16)) s fun e b =>
    match (b.berth n).slot.bind fun k => (tget b.slots k).map fun v => (k, v) with
    | none => b
    | some (k, v) =>
      if b.bstate n ≠ bsRestoring || (b.berth n).reserveWait || !b.saveOver n v then b
      else
        let asked := (b.berth n).yield.isSome
        let next := ((v.me0 ++ v.me1).map fun t => t.serial + 1).foldl max (b.berth n).nextSerial
        let b := (b.fillRegs n v.regs).modBerth n fun x => { x with
          stream := some v.stream, me0 := v.me0, me1 := v.me1, nextSerial := next, slot := none, moving := 0, moved := 0, yield := none
          sampled := x.sampled ++ v.sampled.map fun r => { r with restored := true } }
        let b := ({ b with slots := tdel b.slots k }.wipeSlot k v.stream.slice).setBstate e n bsRunning
        let b := match (tget b.quay.cmds v.stream.job).bind fun c => b.imageHead c v.stream.prog with
          | some h => b.hold_ h (.engine n 0)
          | none => b
        let b := (b.resumeProducts n v.stream.products).modStream n fun s => { s with products := [] }
        let b := b.kickBoth e n
        let b := if v.stream.ended then Block.feedAll e n 65 b else if v.stream.wait.isNone then b.reach e n v.stream.pc else b
        let b := Block.grantReserve e 17 b
        if b.rd F.BT_CTL_DRAIN n = 1 then b.yieldJob e v.stream.job true
        else if asked then b.askYield e n else b

/-- SCRUB_COMPLETE (R147): registers, tiles, counters and store read zero; the berth is idle, or becomes what waits for it. -/
def execScrubComplete (n : Nat) (s : State) : Out :=
  onUnit (decide (n < 16)) s fun e b =>
    whenB (b.bstate n = bsScrubbing) (fun b =>
      (b.modBerth n fun x => { x with
        regs := Regs.reset, spare := [], badBits := x.badBits.filter fun w => x.stuckBits.contains w.1, writeBack := [], reread := [] }).afterScrub e n) b

/-! ### Quantum and drain -/

/-- QUANTUM_BOUNDARY (R340): in POOLED mode, jobs that have run a QUANTUM and whose slice has had more are yielded for the candidate that waits for berths. -/
def execQuantumBoundary (p : Nat) (s : State) : Out :=
  onUnit (decide (p < 16)) s fun e b =>
    if b.atQuantum e p then
      let b := b.markReady e p
      match b.quantumNeed e p with
      | none => b
      | some need => b.yieldFor e p need (b.overQuantum e p)
    else b

/-- BERTH_DRAIN (R152, R155 steps 1 and 5, R340). -/
def execBerthDrain (n : Nat) (on : Bool) (s : State) : Out := onUnit (decide (n < 16)) s fun e b => b.setDrain e n on

end Sys2Proof.Machine
end

