-- ==== Sys2Proof/Machine/CmdOps.lean ====
section
/-! DEFINITION. Fetching a command (R272, R274, R282, R283) and launching a standing one (R288, R289). -/

namespace Sys2Proof

/-- Class codes of R266. -/
def Body.cls : Body → Nat
  | .tensor _ => 0
  | .move _ => 1
  | .serve _ _ _ _ => 2
  | .general _ => 3
  | .ferry _ => 4
  | .lighter n _ => 5 + n
  | .list _ _ => 9

end Sys2Proof

namespace Sys2Proof.Machine

open Sys2Proof

/-- Quay fetches a command (R272, R282, R283): a failed check ends it; else the lists it names are read, then Pilot stamps its buffers and its image. -/
def Block.fetchCmd (b : Block) (e : Env) (qn : Nat) (f : Fetched) (body : Body) : Block :=
  match tget b.quay.queues qn with
  | none => b
  | some q =>
    if q.k = 0 || q.cls ≠ body.cls || q.standing.isSome || !b.canFetch e qn q f.hdr.ext then b
    else
      let b := b.readSlots e qn q (slotsOf f.hdr.ext)
      let s := if f.hdr.ext then f.sync else SyncExt.none
      let f := { f with bufs := f.bufs.take f.hdr.nbuf }
      let (c, b) := b.addCmd (Cmd.new qn q f.hdr s body f.bufs)
      match b.checkSlot q.slice q.bind f s body with
      | some (step, st) => b.checkFailed c step st
      | none => (match listsOf f.hdr body with
        | [] => b.listsRead c f body
        | l => b.newTask e (StampTask.new q.slice f.hdr.ctx (.lists c f body) l)).startTasks e

/-- A value of launch L: the standing command's value and L − 1 (R288). -/
def liftWait (l : Nat) (w : Option (Nat × Nat)) : Option (Nat × Nat) := w.map fun (f, v) => (f, v + (l - 1))

/-- One launch of a standing queue (R288): it takes one slot of the tail's advance and runs the held command under its own values. -/
def Block.launch (b : Block) (qn : Nat) : Block :=
  match tget b.quay.queues qn with
  | none => b
  | some q =>
    match q.standing with
    | none => b
    | some (f, body, heads) =>
      let ready := q.st = .live && decide (b.sliceState q.slice = slActive) && decide (1 ≤ q.unfetched) && !q.full &&
        decide ((b.quay.cmds.filter fun x => x.2.q = qn).length < q.depth) &&
        decide (b.inflight q.slice < b.rd F.QY_SQUOTA_INFLIGHT q.slice) && decide (b.inflightAll < 16384)
      if !ready then b
      else
        let l := q.launches + 1
        let b := (b.advanceFetch qn 1).modQueue qn fun q => { q with launches := l }
        let pos := (q.fetch + 1) % (2 * 2 ^ q.n)
        let s : SyncExt := ⟨liftWait l f.sync.wait0, liftWait l f.sync.wait1, liftWait l f.sync.sig⟩
        let s := if f.hdr.ext then s else SyncExt.none
        let x := { Cmd.new qn q f.hdr s body f.bufs with heads := heads, launchPos := some pos, ph := .waiting }
        let (c, b) := b.addCmd x
        match b.ctxCheck q.slice q.bind f.hdr.ctx with
        | some st => b.checkFailed c (if st = stTorn then 0 else 1) st
        | none =>
          if s.uses.any fun (_, v, _) => decide (2 ^ 63 ≤ v) then b.checkFailed c 2 stFenceRange
          else match q.standingDead with
            | some st => b.endCmd c st 0
            | none => b

end Sys2Proof.Machine
end

