-- ==== Sys2Proof/Machine/SampleOps.lean ====
section
/-! DEFINITION. Manifest's sampler (R258, R259) and generator (R259, R261): SipHash-2-4 and the choice of a token. -/

namespace Sys2Proof.Machine

open Sys2Proof

/-! ### SipHash-2-4 -/

/-- The four words of SipHash's state. -/
structure Sip where
  v0 : Word
  v1 : Word
  v2 : Word
  v3 : Word

/-- One round. -/
def Sip.round (s : Sip) : Sip :=
  let a := s.v0 + s.v1
  let b := s.v1.rotateLeft 13 ^^^ a
  let a := a.rotateLeft 32
  let c := s.v2 + s.v3
  let d := s.v3.rotateLeft 16 ^^^ c
  let a := a + d
  let d := d.rotateLeft 21 ^^^ a
  let c := c + b
  let b := b.rotateLeft 17 ^^^ c
  ⟨a, b, c.rotateLeft 32, d⟩

/-- Take in one 64-bit word of the message. -/
def Sip.absorb (s : Sip) (m : Word) : Sip :=
  let s := { s with v3 := s.v3 ^^^ m }.round.round
  { s with v0 := s.v0 ^^^ m }

/-- SipHash-2-4 of whole 64-bit words under a 128-bit key k0, k1. -/
def sipHash (k0 k1 : Word) (ms : List Word) : Word :=
  let s : Sip := ⟨k0 ^^^ 0x736f6d6570736575, k1 ^^^ 0x646f72616e646f6d, k0 ^^^ 0x6c7967656e657261, k1 ^^^ 0x7465646279746573⟩
  let s := ms.foldl Sip.absorb s
  let s := s.absorb (BitVec.ofNat 64 (8 * ms.length % 256 * 2 ^ 56))
  let s := { s with v2 := s.v2 ^^^ 0xff }.round.round.round.round
  s.v0 ^^^ s.v1 ^^^ s.v2 ^^^ s.v3

/-- The generator's word for a message of two 64-bit words under a sequence's key (R259, R261). -/
def genWord (seed key m0 m1 : Word) : Word := sipHash seed key [m0, m1]

/-! ### The choice of a token (R259) -/

/-- A logit that is neither a NaN nor −∞. -/
def goodLogit (x : BitVec 32) : Bool :=
  match fpFP32.value x.toNat with
  | .nan _ => false
  | .inf neg => !neg
  | _ => true

/-- Candidates in descending order of logit, ascending token on ties. -/
def sortCands (l : List (Nat × BitVec 32)) : List (Nat × BitVec 32) :=
  sortBy (fun a b =>
    let o := numCmp (fpFP32.value a.2.toNat) (fpFP32.value b.2.toNat)
    decide (0 < o) || (o == 0 && decide (a.1 ≤ b.1))) l

/-- floor(x × 2^126) of a non-negative FP32 value; an infinity or a NaN gives 0. -/
def weightOf (x : BitVec 32) : Nat :=
  match fpFP32.value x.toNat with
  | .fin false m e => if 0 ≤ e + 126 then m * 2 ^ (e + 126).toNat else m / 2 ^ (-(e + 126)).toNat
  | _ => 0

/-- An FP32 value as a rational; 0 where it is not finite. -/
def ratOf (x : BitVec 32) : Rat :=
  match fpFP32.value x.toNat with
  | .fin neg m e =>
    let v : Rat := if 0 ≤ e then ((m * 2 ^ e.toNat : Nat) : Rat) else ((m : Nat) : Rat) / ((2 ^ (-e).toNat : Nat) : Rat)
    if neg then -v else v
  | _ => 0

/-- Running sums. -/
def sumsFrom : (acc : Nat) → List Nat → List Nat
  | _, [] => []
  | a, w :: ws => (a + w) :: sumsFrom (a + w) ws

/-- The token a logit record gives a sequence at a position (R258, R259); none when every candidate is NaN or −∞. -/
def sampleToken (g : SeqDesc) (position : Nat) (cands : List (Nat × BitVec 32)) : Option Nat :=
  let cs := (sortCands (cands.filter fun c => goodLogit c.2)).take g.topK
  match cs with
  | [] => none
  | (t₀, l₀) :: _ =>
    let greedy : Bool := match fpFP32.value g.temp.toNat with | .fin _ 0 _ => true | _ => false
    if greedy || cs.length = 1 then some t₀
    else
      let c := (fpMul fpFP32 (sfu 2 g.temp).toNat 0x3FB8AA3B).1
      let ws := cs.map fun (_, l) => weightOf (sfu 0 (BitVec.ofNat 32 (fpMul fpFP32 (fpSub fpFP32 l.toNat l₀.toNat).1 c).1))
      let sums := sumsFrom 0 ws
      let last := sums.getLastD 0
      let keep := if g.topP = 0x3F800000 then cs.length
        else match (List.zipIdx sums).find? fun x => decide (ratOf g.topP * (last : Rat) ≤ (x.1 : Rat)) with
          | some x => x.2 + 1
          | none => cs.length
      let top := (sums[keep - 1]?).getD 0
      let r := (genWord g.seed g.seqKey (BitVec.ofNat 64 position) 0).toNat
      let t := r * top / 2 ^ 64
      match (List.zip cs sums).find? fun x => decide (t < x.2) with
      | some x => some x.1.1
      | none => some t₀

/-- The noise words of a sequence, least significant byte first (R261). -/
def noiseBytes (g : SeqDesc) (words : Nat) : List Byte :=
  (List.range words).flatMap fun j => leBytes 8 (genWord g.seed g.seqKey 0xFFFFFFFFFFFFFFFF (BitVec.ofNat 64 j)).toNat

end Sys2Proof.Machine
end

