-- ==== Sys2Proof/Machine/ManifestOps.lean ====
section
/-! DEFINITION. Manifest's shared operations: output records and rings (R239, R240), pages (R241 to R244), the step builder (R245, R246), the deadline monitor (R253, R254), SERVE commands (R236 to R238). -/

namespace Sys2Proof

/-- A sequence descriptor's fields are in the ranges of R230 for a model of its kind. -/
def SeqDesc.ok (d : SeqDesc) (denoise : Bool) : Bool :=
  decide (1 ≤ d.topK ∧ d.topK ≤ 256 ∧ d.ptOff < 2 ^ 40 ∧ d.ptOff % 64 = 0 ∧ 1 ≤ d.ptCap ∧ d.ptCap ≤ 65535 ∧ d.stopN ≤ 4 ∧ d.ioOff < 2 ^ 40) &&
  decide (0 < Machine.ratOf d.topP ∧ Machine.ratOf d.topP ≤ 1) && (!denoise || decide (1 ≤ d.limit ∧ d.limit ≤ 4096))

/-- A slice may use a model: its OWNER or its SHARE (R232). -/
def ModelRec.usableBy (r : ModelRec) (sl : Nat) : Bool := r.owner = sl || r.share == some sl

end Sys2Proof

namespace Sys2Proof.Machine

open Sys2Proof

/-! ### Phases and reasons (R230) -/

def phPrefill : Nat := 1
def phDecode : Nat := 2
def phDenoise : Nat := 3
def phParked : Nat := 4
def phDone : Nat := 5
def prPages : Nat := 1
def prGuest : Nat := 2
def prDeadline : Nat := 3
def prFault : Nat := 4

/-- Change an entry of the sequence table. -/
def Block.modSeq (b : Block) (i : Nat) (f : SeqEntry → SeqEntry) : Block :=
  { b with manifest := { b.manifest with seqs := tmod b.manifest.seqs i f } }

/-- Change a slice's open ARM. -/
def Block.modArm (b : Block) (sl : Nat) (f : Armed → Armed) : Block :=
  { b with manifest := { b.manifest with armed := tmod b.manifest.armed sl f } }

/-- The model of an entry is a DENOISE model. -/
def Block.denoises (b : Block) (s : SeqEntry) : Bool := ((b.model s.g.model).map (·.r.denoise)).getD false

/-- The slice is armed: it has an open ARM and no DISARM under way (that a DISARM which waits for lists ends the serving at once is the model's choice, log 108). -/
def Block.serving (b : Block) (sl : Nat) : Bool := ((b.armOf sl).map fun a => a.disarm.isNone).getD false

/-! ### Output records (R239, R240) -/

/-- The 32 bytes of an output record. -/
def OutRecord.bytes (r : OutRecord) : List Byte :=
  leBytes 8 r.guestTag ++ leBytes 4 r.position ++ leBytes 4 r.value ++ leBytes 1 r.status ++ leBytes 1 r.kind ++ leBytes 1 r.phase ++
  leBytes 1 ((if r.late then 1 else 0) + (if r.stop then 2 else 0) + if r.predLate then 4 else 0) ++
  leBytes 2 r.seq ++ leBytes 2 r.parkReason ++ leBytes 6 r.time ++ leBytes 1 0 ++ leBytes 1 (if r.ringPhase then 128 else 0)

/-- Records in the output ring that the guest has not consumed. -/
def Armed.unread (a : Armed) : Nat := (a.prod + 2 * a.ringN - a.cons) % (2 * a.ringN)

/-- Write a record at the producer position. -/
def Block.ringPut (b : Block) (sl : Nat) (r : OutRecord) : Block :=
  match b.armOf sl with
  | none => b
  | some a =>
    let r := { r with ringPhase := decide (a.prod < a.ringN) }
    (b.armWrite a.cmd 1 (32 * (a.prod % a.ringN)) r.bytes).modArm sl fun a => { a with prod := (a.prod + 1) % (2 * a.ringN) }

/-- Write a record, or keep it while the ring has no room: records are never dropped. -/
def Block.putOut (b : Block) (sl : Nat) (r : OutRecord) : Block :=
  match b.armOf sl with
  | none => b
  | some a =>
    if a.held.isEmpty && decide (a.unread < a.ringN) then b.ringPut sl r
    else b.modArm sl fun a => { a with held := a.held ++ [r] }

/-- Write the kept records the ring has room for. -/
def Block.drainOut (sl : Nat) : (fuel : Nat) → Block → Block
  | 0, b => b
  | k + 1, b =>
    match b.armOf sl with
    | none => b
    | some a => match a.held with
      | [] => b
      | r :: rs => if a.unread < a.ringN then Block.drainOut sl k ((b.modArm sl fun a => { a with held := rs }).ringPut sl r) else b

/-- The record of a sequence as it stands now. -/
def Block.outOf (_ : Block) (e : Env) (i : Nat) (s : SeqEntry) (kind status value : Nat) (late stop predLate : Bool) : OutRecord :=
  { slice := s.slice, guestTag := s.g.guestTag.toNat, position := s.position, value := value % 2 ^ 32, status := status, kind := kind
    phase := s.phase, late := late, stop := stop, predLate := predLate, seq := i, parkReason := s.parkReason
    time := e.now / 1000 % 2 ^ 48, ringPhase := false }

/-- The fourth field of a record of a step without a token (R239): the step index of a DENOISE sequence; the manual names no value for a TOKEN one (log 22). -/
def Block.noToken (b : Block) (s : SeqEntry) : Nat × Block :=
  if b.denoises s then (s.position, b) else let (d, b) := b.draw; (Config.freeNat d, b)

/-- A time lies past a deadline in µs, 0 for none (R256). -/
def pastDue (now deadline : Nat) : Bool := decide (deadline ≠ 0 ∧ deadline < now / 1000)

/-- A record past the DEADLINE of its step is counted (R256). -/
def Block.countLate (b : Block) (late : Bool) (p : Nat) : Block := if late then b.bump F.MF_PLATE_LATE p else b

/-- A NOTICE record, with LATE past the deadline in force for its step, 0 for a record of no step (R239, R256). -/
def Block.noticeOut (b : Block) (e : Env) (i status deadline : Nat) : Block :=
  match tget b.manifest.seqs i with
  | none => b
  | some s => let (d, b) := b.noToken s
              let late := pastDue e.now deadline
              (b.countLate late (b.slicePart s.slice)).putOut s.slice (b.outOf e i s 4 status d late false false)

/-- Park a sequence (R231, R244): its phase is kept for its return, and for want of pages the fallback step it was owed too. -/
def Block.parkSeq (b : Block) (i reason : Nat) : Block :=
  let k := b.manifest.parkings + 1
  let b := { b with manifest := { b.manifest with parkings := k } }
  b.modSeq i fun s => { s with
    resumePhase := if s.phase = phParked then s.resumePhase else s.phase, phase := phParked, parkReason := reason, parkedAt := k, pred := 0
    fbModel := if reason = prPages then s.fbModel else none, onFallback := decide (reason = prPages) && s.onFallback }

/-- A parked sequence returns to RESUME_PHASE. -/
def Block.unpark (b : Block) (i : Nat) : Block :=
  b.modSeq i fun s => { s with phase := s.resumePhase, parkReason := 0, resumePhase := 0 }

/-! ### Pages (R241 to R244) -/

/-- Append page numbers to a slice's free ring, at its producer position. -/
def Block.pushPages (b : Block) (sl : Nat) (ps : List Nat) : Block :=
  ps.foldl (fun b p =>
    match b.armOf sl with
    | none => b
    | some a =>
      (b.armWrite a.cmd 3 (4 * (a.appended % a.freeN)) (leBytes 4 p)).modArm sl fun a =>
        { a with free := a.free ++ [p], appended := a.appended + 1 }) b

/-- Take up to k pages of a pool from the consumer's end of a free ring (R241): the pages, how many numbers beyond the pool were discarded on the way, and what is left. -/
def popPages (pool : Nat) : (k : Nat) → List Nat → List Nat × Nat × List Nat
  | 0, l => ([], 0, l)
  | _ + 1, [] => ([], 0, [])
  | k + 1, p :: l =>
    if p < pool then let (ps, bad, r) := popPages pool k l; (p :: ps, bad, r)
    else let (ps, bad, r) := popPages pool (k + 1) l; (ps, bad + 1, r)

/-- Numbers beyond the pool have been discarded and counted (R241). -/
def Block.badPages (b : Block) (sl bad : Nat) : Block := if bad = 0 then b else b.bump F.MF_PSTAT_BAD_PAGES (b.slicePart sl) bad

/-- A free ring too short for what is asked keeps its pages and loses the numbers beyond the pool: the pages close up in the ring towards the producer's end (R241, R243; DESIGN CHOICE, log 124). -/
def Block.keepPages (b : Block) (sl bad : Nat) (ps : List Nat) : Block :=
  if bad = 0 then b
  else match b.armOf sl with
    | none => b
    | some a =>
      let first := a.appended - ps.length
      let b := (b.badPages sl bad).modArm sl fun a => { a with free := ps }
      (List.zipIdx ps).foldl (fun b (p, i) => b.armWrite a.cmd 3 (4 * ((first + i) % a.freeN)) (leBytes 4 p)) b

/-- Pages a model needs for its positions up to `last` (R243). -/
def Model.pagesFor (m : Model) (last : Nat) : Nat := cdiv (last + 1) m.r.tpp * m.r.ppc

/-- What giving a sequence its pages comes to. -/
inductive Paging where
  | given
  | tooMany
  | short
  deriving DecidableEq, Repr

/-- Give a sequence the pages for a step of a model up to position `last` (R243): from the free ring into its table, all of them or none. -/
def Block.givePages (b : Block) (i : Nat) (s : SeqEntry) (m : Model) (fallback : Bool) (last : Nat) : Paging × Block :=
  let have_ := if fallback then s.fbPages else s.pages
  let need := m.pagesFor last
  if need ≤ have_.length then (.given, b)
  else if s.g.ptCap < need then (.tooMany, b)
  else
    match b.armOf s.slice with
    | none => (.short, b)
    | some a =>
      let (ps, bad, left) := popPages a.poolPages (need - have_.length) a.free
      if ps.length < need - have_.length then (.short, b.keepPages s.slice bad ps)
      else
        let b := (b.modArm s.slice fun a => { a with free := left }).badPages s.slice bad
        let off := s.g.ptOff + 4 * (have_.length + if fallback then s.g.ptCap else 0)
        let b := b.armWrite a.cmd 2 off (ps.flatMap fun p => leBytes 4 p)
        (.given, b.modSeq i fun s => if fallback then { s with fbPages := s.fbPages ++ ps } else { s with pages := s.pages ++ ps })

/-! ### The work of a step (R245) -/

/-- Where the next chunk of prompt tokens begins. -/
def SeqEntry.chunkFrom (s : SeqEntry) (denoise : Bool) : Nat := (if denoise then s.g.promptLen else s.position) - s.pending

/-- Tokens of a sequence's step from the model's valid position on (R245), with at most `room` new prompt tokens, and the last position it writes: none for a DENOISE step. Where the valid position of a prefill step lags the chunk, the tokens in between count against TOKEN_BUDGET and in TOKENS too (DESIGN CHOICE, log 109). -/
def SeqEntry.stepTokens (s : SeqEntry) (denoise fallback : Bool) (room : Nat) : Nat × Option Nat :=
  let v := s.from_ fallback
  if s.phase = phPrefill then
    let n := min s.pending room
    if n = 0 then (0, none) else
    let end_ := s.chunkFrom denoise + n
    (end_ - v, some (end_ - 1))
  else if denoise then (1, none)
  else (s.position + 1 - v, some s.position)

/-! ### The deadline monitor (R253, R254) -/

/-- The step time of a list of n sequences and t tokens in ns; none where the record cannot be evaluated. -/
def Block.stepTime (b : Block) (e : Env) (p : Nat) (m : Model) (phase n t : Nat) : Option Rat :=
  wcTime ((m.prog phase).2.wcAt n t) (b.partClock p) (b.rateD e p) (b.rateH e p)

/-- Steps still to be run (R254). -/
def SeqEntry.stepsLeft (s : SeqEntry) (denoise : Bool) : Nat :=
  if s.g.schedule && denoise then s.g.limit - s.position else 1

/-- The monitor acts on a sequence: LC, with a deadline, outside determinism mode. -/
def Block.monitored (b : Block) (p : Nat) (s : SeqEntry) : Bool :=
  !s.g.be && decide (s.g.deadline ≠ 0) && b.rd F.MF_PCTL_DET p = 0

/-- The fallback a sequence's step may move to. -/
def Block.fallbackOf (b : Block) (s : SeqEntry) : Option (Nat × Model) :=
  (b.model s.g.model).bind fun m => m.r.fallback.bind fun h => (b.model h).map fun f => (h, f)

/-- A prediction meets a deadline: now + first + k × rest, times in ns, deadline in µs; a time that cannot be evaluated meets none. -/
def meets (now : Nat) (first rest : Option Rat) (k deadline : Nat) : Bool :=
  match first, (if k = 0 then some 0 else rest) with
  | some a, some r => decide (((now / 1000 : Nat) : Rat) + (a + (k : Rat) * r) / 1000 ≤ (deadline : Rat))
  | _, _ => false

/-- Where the monitor lets a step run. -/
inductive Decision where
  | primary
  | fallback
  | skip
  deriving DecidableEq, Repr

/-- The table of R254 for a step in a list of n sequences and t tokens of the primary m. -/
def Block.decideStep (b : Block) (e : Env) (p : Nat) (m : Model) (s : SeqEntry) (n t : Nat) : Decision :=
  if !b.monitored p s then .primary
  else
    let fb := if s.g.fallbackOk then b.fallbackOf s else none
    let tp := b.stepTime e p m s.phase n t
    let tf := match fb with | some (_, f) => b.stepTime e p f s.phase n t | none => tp
    let left := s.stepsLeft m.r.denoise
    if meets e.now tp tf (left - 1) s.g.deadline then .primary
    else if fb.isSome then .fallback
    else if s.g.skip then .skip
    else .primary

/-! ### The step builder (R246) -/

/-- The sequence can be placed (R246). -/
def Block.seqReady (b : Block) (p : Nat) (s : SeqEntry) : Bool :=
  (s.phase = phPrefill || s.phase = phDecode || s.phase = phDenoise) && !s.inList && b.serving s.slice &&
  decide (b.slicePart s.slice = p ∧ b.sliceState s.slice = slActive)

/-- The model a sequence's next step runs on, and whether it is a fallback step: a queued one runs on the fallback it was assigned to (R257). -/
def Block.stepModel (b : Block) (s : SeqEntry) : Option (Nat × Model × Bool) :=
  match s.fbModel with
  | some h => (b.model h).map fun f => (h, f, true)
  | none => (b.model s.g.model).map fun m => (s.g.model, m, false)

/-- Move a sequence's step to the FALLBACK lane, on the fallback of its model (R246, R255). -/
def Block.toFallback (b : Block) (i : Nat) : Block :=
  b.modSeq i fun s => { s with onFallback := true, fbModel := (b.fallbackOf s).map (·.1) }

/-- The lanes of R246 in order: fallback, LC, BE. -/
def SeqEntry.lane (s : SeqEntry) : Nat := if s.fbLane then 0 else if s.g.be then 2 else 1

/-- A deadline as an order: none is last. -/
def SeqEntry.due (s : SeqEntry) : Nat := if s.g.deadline = 0 then 2 ^ 64 else s.g.deadline

/-- The order of two sequences by a list of keys. -/
def keysLe : List Nat → List Nat → Bool
  | a :: as, b :: bs => if a = b then keysLe as bs else decide (a < b)
  | _, _ => true

/-- What the builder has put together so far. -/
structure Building where
  entries : List ListEntry
  tokens : Nat
  slices : List Nat

/-- Records a slice's output ring must still take for the sequences in its lists. -/
def Block.recordsOwed (b : Block) (w : Building) (sl : Nat) : Nat :=
  let inLists := (b.manifest.seqs.filter fun x => x.2.slice = sl && x.2.inList).length
  let here := (w.entries.filter fun x => b.entrySlice x = sl).length
  2 * (inLists + here)

/-- The ring of a slice has room for one sequence more (R240). -/
def Block.ringRoom (b : Block) (w : Building) (sl : Nat) : Bool :=
  match b.armOf sl with
  | some a => decide (a.unread + a.held.length + b.recordsOwed w sl + 2 ≤ a.ringN)
  | none => false

/-- One sequence at the builder (R246): it is placed, passed over, parked, or moved to the fallback; the answer says whether the builder goes on. PRED counts whole microseconds, rounded up, and is the present time where the step time cannot be evaluated (DESIGN CHOICE, log 110). -/
def Block.placeSeq (b : Block) (e : Env) (p : Nat) (m : Model) (lcLeft : Bool) (w : Building) (i : Nat) : Bool × Building × Block :=
  match tget b.manifest.seqs i with
  | none => (true, w, b)
  | some s =>
    let fallback := s.fbLane
    let be := (w.entries.filter fun x => ((tget b.manifest.seqs x.seq).map fun y => y.g.be).getD false).length
    if m.r.maxSeq ≤ w.entries.length then (false, w, b)
    else if s.g.be && lcLeft && decide (b.rd F.MF_PCTL_BE_FLOOR p * m.r.maxSeq / 256 ≤ be) then (true, w, b)
    else if !w.slices.contains s.slice && w.slices.length = 2 then (true, w, b)
    else if !b.ringRoom w s.slice then (true, w, b)
    else
      let (n, last) := s.stepTokens m.r.denoise fallback (m.r.tokenBudget - w.tokens)
      if n = 0 then (false, w, b)
      else
        let (pg, b) := match last with
          | some l => b.givePages i s m fallback l
          | none => (.given, b)
        match pg with
        | .tooMany => (true, w, (b.parkSeq i prFault).noticeOut e i stQuota s.g.deadline)
        | .short => (true, w, (b.parkSeq i prPages).noticeOut e i stOK s.g.deadline)
        | .given =>
          let place (pred : Bool) : Building := { entries := w.entries ++ [⟨i, n, true, pred, s.g.deadline, fallback⟩], tokens := w.tokens + n
                                                  slices := if w.slices.contains s.slice then w.slices else w.slices ++ [s.slice] }
          let t := b.stepTime e p m s.phase (w.entries.length + 1) (w.tokens + n)
          let predUs := e.now / 1000 + ((t.map fun x => (x / 1000).ceil.toNat).getD 0)
          if fallback then
            let late := b.monitored p s && !meets e.now (some 0) t (s.stepsLeft m.r.denoise) s.g.deadline
            (true, place late, b.modSeq i fun s => { s with pred := predUs, onFallback := true })
          else
            match b.decideStep e p m s (w.entries.length + 1) (w.tokens + n) with
            | .primary => (true, place false, b.modSeq i fun s => { s with pred := predUs })
            | .fallback => (true, w, b.toFallback i)
            | .skip =>
              (true, w, ((b.parkSeq i prDeadline).noticeOut e i stDeadline s.g.deadline).bump F.MF_PLATE_MISSED p)

/-- A latency-critical sequence of the set is still ready on the model and not in the list: the builder has passed it over. -/
def Block.lcLeft (b : Block) (p h : Nat) (lc : List Nat) (w : Building) : Bool :=
  lc.any fun j => !(w.entries.any fun x => x.seq = j) &&
    ((tget b.manifest.seqs j).map fun s => b.seqReady p s && ((b.stepModel s).map fun x => decide (x.1 = h)).getD false).getD false

/-- Place the ready sequences in order until the builder stops. -/
def Block.placeAll (e : Env) (p h : Nat) (m : Model) (lc : List Nat) : List Nat → Building → Block → Building × Block
  | [], w, b => (w, b)
  | i :: is, w, b =>
    let (go, w, b) := b.placeSeq e p m (b.lcLeft p h lc w) w i
    if go then Block.placeAll e p h m lc is w b else (w, b)

/-- The stamp heads of a list's buffers 0 to 7 (R249), then those of its model's programs. -/
def Block.listHeads (b : Block) (m : Model) (slA : Nat) (slB : Option Nat) : List Nat :=
  let none_ := 262144
  let arm (sl k : Nat) : Nat := ((b.armOf sl).bind fun a => b.bufHead a.cmd k).getD none_
  let weights := if m.r.inHold then none_ else (m.heads[2]?).getD none_
  [arm slA 2, weights, arm slA 0, (slB.map fun s => arm s 2).getD none_, (slB.map fun s => arm s 0).getD none_, none_, none_, none_] ++ m.heads.take 2

/-- A list has been put together: it takes the next LIST_ID, its sequences are in it, and its job is a candidate (R246 to R249). -/
def Block.makeList (b : Block) (e : Env) (p h : Nat) (m : Model) (phase : Nat) (fallback : Bool) (w : Building) : Block :=
  match w.slices with
  | [] => b
  | slA :: rest =>
    let id := b.manifest.nextList
    let n := (tgetD b.manifest.listIds p 0 + 1) % 2 ^ 32
    let ctx := (((b.armOf slA).bind fun a => tget b.quay.cmds a.cmd).map fun c => c.hdr.ctx).getD 0
    let x : Cmd := { q := 8192 + id, slice := slA, hdr := ⟨false, false, false, 0, ctx, 0, 0⟩, sync := SyncExt.none, body := .list p id, bufs := []
                     heads := b.listHeads m slA rest.head?, ph := .waiting, status := 0, detail := 0, faultBuf := none, result := 0
                     anchorFlags := false, fallback := fallback, noSignal := true, units := [], launchPos := none, since := 0, ran := false
                     met0 := false, met1 := false, ready := false, busy := [], task := none, suspect := 0, aborting := false, copied := 0 }
    let (c, b) := b.addCmd x
    let l : LoadList := { partition := p, model := h, phase := phase, fallback := fallback, entries := w.entries, sliceA := slA, sliceB := rest.head?
                          job := c, built := e.now / 1000, deal := [], berths := [], status := none, listId := n }
    let b := { b with manifest := { b.manifest with
      lists := tput b.manifest.lists id l, nextList := id + 1, listIds := tput b.manifest.listIds p n } }
    let b := (w.entries.foldl (fun b x => b.modSeq x.seq fun s => { s with inList := true }) b).tallyG none 0x106 p 1
    -- a list that uses a stamp whose re-stamp failed fails with its status (R317)
    match (List.zipIdx x.heads).findSome? fun (h, k) => (tget b.pilot.lost h).map fun st => (k, st) with
    | some (k, st) => (b.modCmd c fun x => { x with faultBuf := if k < 8 then some k else none }).endCmd c st 0
    | none => b

/-- One run of a partition's step builder (R246, R247). -/
def Block.buildList (b : Block) (e : Env) (p : Nat) : Block :=
  let idle := (b.idleBerths p).length
  let ready := b.manifest.seqs.filter fun (_, s) => b.seqReady p s &&
    ((b.stepModel s).map fun x => decide (x.2.1.r.streams ≤ idle)).getD false
  if b.rd F.MF_PCTL_EN p = 0 || decide (16 ≤ (b.manifest.lists.filter fun l => l.2.partition = p).length) then b
  else match leastOn (fun (x y : Nat × SeqEntry) => !keysLe [y.2.lane, y.2.due, y.1] [x.2.lane, x.2.due, x.1]) ready with
    | none => b
    | some (_, s₀) =>
      match b.stepModel s₀ with
      | none => b
      | some (h, m, fallback) =>
        let same := ready.filter fun (_, s) => s.phase = s₀.phase && (fallback || !s.fbLane) &&
          ((b.stepModel s).map fun x => decide (x.1 = h)).getD false
        let key (x : Nat × SeqEntry) : List Nat := if x.2.lane = 2 then [2, x.2.lastEnd, x.1] else [x.2.lane, x.2.due, x.1]
        let order := (sortBy (fun (x y : Nat × SeqEntry) => keysLe (key x) (key y)) same).map (·.1)
        let lc := (same.filter fun x => !x.2.g.be).map (·.1)
        let (w, b) := Block.placeAll e p h m lc order ⟨[], 0, []⟩ b
        let b := b.makeList e p h m s₀.phase fallback w
        -- lists with an LC sequence and fallback lists take idle berths at once (R247)
        if w.entries.isEmpty then b else if fallback || w.entries.any (fun x => lc.contains x.seq) then b.dispatchBerths e p else b

/-! ### SERVE commands (R236 to R238) -/

/-- The lists in flight that hold a slice's sequences. -/
def Block.listsOf (b : Block) (sl : Nat) : List Nat :=
  (b.manifest.lists.filter fun l => l.2.sliceA = sl || l.2.sliceB == some sl).map (·.1)

/-- DISARMs whose lists have completed end, and with each its ARM (R236). -/
def Block.settleDisarm (b : Block) : Block :=
  b.manifest.armed.foldl (fun b (sl, a) =>
    match a.disarm with
    | some c => if (b.listsOf sl).isEmpty then
        let b := (b.endCmd a.cmd stOK 0).endCmd c stOK 0
        { b with manifest := { b.manifest with armed := tdel b.manifest.armed sl, owed := b.manifest.owed.filter fun o => o.1 ≠ a.cmd } }
      else b
    | none => b) b

/-- Return a freed entry's pages and free it (R236, R238). -/
def Block.releaseSeq (b : Block) (i : Nat) : Block :=
  match tget b.manifest.seqs i with
  | none => b
  | some s =>
    if s.inList then b.modSeq i fun s => { s with deferRelease := true }
    else
      let b := { b with manifest := { b.manifest with seqs := tdel b.manifest.seqs i } }
      b.pushPages s.slice (s.pages ++ s.fbPages)

/-- Copy the masked fields of a descriptor (R236). -/
def SeqEntry.update (s : SeqEntry) (mask : Nat) (d : SeqDesc) : SeqEntry :=
  let g := s.g
  let g := if mask.testBit 0 then { g with be := d.be } else g
  let g := if mask.testBit 1 then { g with deadline := d.deadline, period := d.period } else g
  let g := if mask.testBit 2 then { g with temp := d.temp, topK := d.topK, topP := d.topP } else g
  let g := if mask.testBit 3 then { g with stopN := d.stopN, stop := d.stop } else g
  let g := if mask.testBit 4 then { g with seed := d.seed } else g
  let g := if mask.testBit 5 then { g with fallbackOk := d.fallbackOk, skip := d.skip, schedule := d.schedule } else g
  { s with g := if mask.testBit 6 then { g with limit := d.limit } else g }

/-- Carry out an UPDATE on an entry: a new DEADLINE also returns one parked for its deadline (R231). -/
def Block.applyUpdate (b : Block) (i mask : Nat) (d : SeqDesc) : Block :=
  let b := b.modSeq i fun s => s.update mask d
  match tget b.manifest.seqs i with
  | some s => if mask.testBit 1 && s.phase = phParked && s.parkReason = prDeadline then b.unpark i else b
  | none => b

/-- Sequences parked for pages are retried in the order of their parking, up to the first that cannot be served (R244). -/
def Block.retryPages (sl : Nat) : List Nat → Block → Block
  | [], b => b
  | i :: is, b =>
    match tget b.manifest.seqs i with
    | none => Block.retryPages sl is b
    | some s =>
      let s' := { s with phase := s.resumePhase }
      match b.stepModel s with
      | none => b
      | some (_, m, fb) =>
        match (s'.stepTokens m.r.denoise fb m.r.tokenBudget).2 with
        | none => Block.retryPages sl is (b.unpark i)
        | some last =>
          match b.givePages i s m fb last with
          | (.given, b) => Block.retryPages sl is (b.unpark i)
          | (_, b) => b

/-- The lowest n sequence IDs whose entries are FREE; which IDs Manifest assigns is open (log 12). -/
def Block.freeSeqIds (b : Block) (n : Nat) : List Nat := ((List.range 16384).filter fun i => !thas b.manifest.seqs i).take n

/-- Entries of a partition's share that are not FREE. -/
def Block.shareUsed (b : Block) (p : Nat) : Nat := (b.manifest.seqs.filter fun x => b.slicePart x.2.slice = p).length

/-- Entries of a slice that are not FREE. -/
def Block.seqsUsed (b : Block) (sl : Nat) : Nat := (b.manifest.seqs.filter fun x => x.2.slice = sl).length

/-- A new entry (R230, R231). -/
def newSeq (sl : Nat) (d : SeqDesc) (denoise : Bool) : SeqEntry :=
  { slice := sl, g := d, phase := if 0 < d.promptLen then phPrefill else if denoise then phDenoise else phDecode, onFallback := false
    position := if denoise then 0 else d.promptLen, pending := d.promptLen, parkReason := 0, resumePhase := 0, fbPos := 0, kvPos := 0
    pages := [], fbPages := [], pred := 0, inList := false, fbModel := none, parkedAt := 0, lastEnd := 0, deferUpdate := none
    deferPark := false, deferRelease := false, anyFallback := false }

/-- ARM (R236, R237). -/
def Block.serveArm (b : Block) (c : Nat) (x : Cmd) (v : ServeBody) : Block :=
  let a := v.arg0.toNat
  let ring := if a % 65536 = 0 then 65536 else a % 65536
  let free := a / 65536 % 65536
  let okRing := decide (64 ≤ ring) && isPow2 ring
  if thas b.manifest.armed x.slice then b.endCmd c stQuota 0
  else if !okRing || free = 0 || decide (4096 < free) || decide (x.bufs.length < 4) then b.endCmd c stAborted 0
  else
    let pool := ((x.bufs[0]?).map fun y => y.len / 131072).getD 0
    let arm : Armed := { cmd := c, ringN := ring, freeN := 1024 * free, vector := a / 2 ^ 32 % 2048, msix := a.testBit 43, prod := 0, cons := 0
                         held := [], free := [], appended := 0, poolPages := pool, disarm := none }
    let b := { b with manifest := { b.manifest with armed := tput b.manifest.armed x.slice arm } }
    b.modCmd c fun x => { x with ph := .running, ran := true }

/-- DISARM (R236): every entry of the slice becomes FREE, those in a list when it completes. -/
def Block.serveDisarm (b : Block) (c : Nat) (x : Cmd) : Block :=
  if !b.serving x.slice then b.endCmd c stUnavailable 0
  else
    let ids := (b.manifest.seqs.filter fun y => y.2.slice = x.slice).map (·.1)
    let b := ids.foldl (fun b i => b.freeSeq i) b
    let b := b.modCmd c fun x => { x with ph := .running, ran := true }
    (b.modArm x.slice fun a => { a with disarm := some c }).settleDisarm

/-- ADD (R236, R237, R262): all sequences or none; each assigned ID goes into its descriptor's SEQ field. -/
def Block.serveAdd (b : Block) (c : Nat) (x : Cmd) (v : ServeBody) (ds : List SeqDesc) : Block :=
  let p := b.slicePart x.slice
  let usable := ds.all fun d => ((b.model d.model).map fun m => m.r.usableBy x.slice).getD false
  let good := ds.all fun d => match b.model d.model with
    | some m => d.ok m.r.denoise && (b.rd F.MF_PCTL_DET p = 0 || m.r.detSafe)
    | none => false
  if !b.serving x.slice then b.endCmd c stUnavailable 0
  else if v.count = 0 ∨ 512 < v.count ∨ ds.length ≠ v.count ∨ x.bufs.isEmpty then b.endCmd c stAborted 0
  else if !usable then b.endCmd c stUnavailable 0
  else if b.rd F.MF_SQUOTA_QUOTA x.slice < b.seqsUsed x.slice + v.count ∨ b.rd F.MF_PCTL_ENTRIES p < b.shareUsed p + v.count then
    b.endCmd c stQuota 0
  else if !good then b.endCmd c stAborted 0
  else
    let ids := b.freeSeqIds v.count
    let b := (List.zip ids ds).foldl (fun b (i, d) =>
      let denoise := ((b.model d.model).map fun m => m.r.denoise).getD false
      { b with manifest := { b.manifest with seqs := tput b.manifest.seqs i (newSeq x.slice d denoise) } }) b
    let b := (List.zipIdx ids).foldl (fun b (i, k) =>
      (b.laneRange c p 0 (128 * k) true true (fun _ => .manifest) (leBytes 2 i) 3 2 0).2) b
    b.endCmd c stOK 0

/-- The entry a command's SEQ names, when it is one of the slice (R237): one whose RELEASE waits for its list is still one (R238). -/
def Block.serveSeq (b : Block) (x : Cmd) (v : ServeBody) : Option SeqEntry :=
  match tget b.manifest.seqs (v.seq % 16384) with
  | some s => if s.slice = x.slice then some s else none
  | none => none

/-- UPDATE (R236 to R238, R262). -/
def Block.serveUpdate (b : Block) (c : Nat) (x : Cmd) (v : ServeBody) (d : SeqDesc) : Block :=
  let i := v.seq % 16384
  if !b.serving x.slice then b.endCmd c stUnavailable 0
  else match b.serveSeq x v with
    | none => b.endCmd c stProtection 0
    | some s =>
      let mask := v.arg0.toNat % 128
      let m := b.model s.g.model
      let ok := match m with
        | some m => (s.update mask d).g.ok m.r.denoise && (b.rd F.MF_PCTL_DET (b.slicePart x.slice) = 0 || m.r.detSafe)
        | none => false
      if !ok then b.endCmd c stAborted 0
      else
        let b := if s.inList then b.modSeq i fun s => { s with deferUpdate := some (match s.deferUpdate with
            | some (k, o) => (k ||| mask, (({ s with g := o } : SeqEntry).update mask d).g)
            | none => (mask, d)) } else b.applyUpdate i mask d
        b.endCmd c stOK 0

/-- APPEND (R236, R231); of a sequence in a list it waits for the list (log 23). -/
def Block.serveAppend (b : Block) (c : Nat) (x : Cmd) (v : ServeBody) (tokens : List Nat) : Block :=
  let i := v.seq % 16384
  if !b.serving x.slice then b.endCmd c stUnavailable 0
  else match b.serveSeq x v with
    | none => b.endCmd c stProtection 0
    | some s =>
      if b.denoises s || tokens.length ≠ v.count then b.endCmd c stAborted 0
      else if s.inList then b
      else
        let b := match b.armOf x.slice with
          | some a => b.armWrite a.cmd 2 (s.g.ioOff + 4 * s.position) (tokens.flatMap fun t => leBytes 4 t)
          | none => b
        let b := b.modSeq i fun s => { s with
          position := s.position + v.count, pending := s.pending + v.count
          phase := if s.phase = phParked then phParked else phPrefill
          resumePhase := if s.phase = phParked then phPrefill else s.resumePhase }
        b.endCmd c stOK 0

/-- PARK (R236, R238): one that is parked or DONE stays as it is. -/
def Block.servePark (b : Block) (e : Env) (c : Nat) (x : Cmd) (v : ServeBody) : Block :=
  let i := v.seq % 16384
  if !b.serving x.slice then b.endCmd c stUnavailable 0
  else match b.serveSeq x v with
    | none => b.endCmd c stProtection 0
    | some s =>
      let b := if s.phase = phParked ∨ s.phase = phDone then b
        else if s.inList then b.modSeq i fun s => { s with deferPark := true }
        else (b.parkSeq i prGuest).noticeOut e i stOK 0
      b.endCmd c stOK 0

/-- RESUME (R231, R236, R237): a sequence parked for pages waits for them. -/
def Block.serveResume (b : Block) (c : Nat) (x : Cmd) (v : ServeBody) : Block :=
  let i := v.seq % 16384
  if !b.serving x.slice then b.endCmd c stUnavailable 0
  else match b.serveSeq x v with
    | none => b.endCmd c stProtection 0
    | some s =>
      if s.phase ≠ phParked then b.endCmd c stAborted 0
      else (if s.parkReason = prPages then b else b.unpark i).endCmd c stOK 0

/-- RELEASE (R236, R238). -/
def Block.serveRelease (b : Block) (c : Nat) (x : Cmd) (v : ServeBody) : Block :=
  if !b.serving x.slice then b.endCmd c stUnavailable 0
  else match b.serveSeq x v with
    | none => b.endCmd c stProtection 0
    | some _ => (b.releaseSeq (v.seq % 16384)).endCmd c stOK 0

/-- PAGES (R236, R237, R244). -/
def Block.servePages (b : Block) (c : Nat) (x : Cmd) (v : ServeBody) (nums : List Nat) : Block :=
  if !b.serving x.slice then b.endCmd c stUnavailable 0
  else match b.armOf x.slice with
    | none => b.endCmd c stUnavailable 0
    | some a =>
      if nums.length ≠ v.count then b.endCmd c stAborted 0
      else if a.freeN < a.free.length + v.count then b.endCmd c stQuota 0
      else
        let b := b.pushPages x.slice nums
        let parked := sortBy (fun (y z : Nat × SeqEntry) => decide (y.2.parkedAt ≤ z.2.parkedAt))
          (b.manifest.seqs.filter fun y => y.2.slice = x.slice && y.2.phase = phParked && y.2.parkReason = prPages)
        (Block.retryPages x.slice (parked.map (·.1)) b).endCmd c stOK 0

/-- A SERVE command reads its buffer 0 (R236). -/
def Cmd.readsBuf (x : Cmd) : Bool :=
  !x.bufs.isEmpty && match x.body with | .serve sop .. => sop = 3 || sop = 4 || sop = 5 || sop = 9 | _ => false

/-- What a SERVE command reads can be read now: its buffer's stamp is not stale (R315). -/
def Block.serveFresh (b : Block) (c : Nat) (x : Cmd) : Bool := !x.readsBuf || b.rangeFresh c 0

/-- Carry out a SERVE command whose turn has come: what it reads, Manifest holds (R314). -/
def Block.serveAct (b : Block) (e : Env) (c : Nat) (x : Cmd) : Block :=
  match x.body with
  | .serve sop v ds ws =>
    let b := match b.bufHead c 0 with | some h => if x.readsBuf then b.hold_ h .manifest else b | none => b
    match sop with
    | 1 => b.serveArm c x v
    | 2 => b.serveDisarm c x
    | 3 => b.serveAdd c x v ds
    | 4 => match ds with | d :: _ => b.serveUpdate c x v d | [] => b.endCmd c stAborted 0
    | 5 => b.serveAppend c x v ws
    | 6 => b.servePark e c x v
    | 7 => b.serveResume c x v
    | 8 => b.serveRelease c x v
    | 9 => b.servePages c x v ws
    | _ => b.endCmd c stAborted 0
  | _ => b

/-- Carry out the SERVE commands whose turn has come, oldest first, until none is left that can act. -/
def Block.serveGo (e : Env) : (fuel : Nat) → Block → Block
  | 0, b => b
  | k + 1, b =>
    let b := b.settleWaits
    match b.quay.cmds.find? fun (c, x) => x.ph = .waiting && (match x.body with
        | .serve sop v _ _ => !(sop = 5 && ((b.serveSeq x v).map (·.inList)).getD false)
        | _ => false) && b.serveFresh c x && b.candidate c x with
    | none => b
    | some (c, x) => Block.serveGo e k (b.serveAct e c x)

/-- All SERVE commands that can act now. -/
def Block.settleServe (b : Block) (e : Env) : Block := Block.serveGo e (b.quay.cmds.length + 1) b

end Sys2Proof.Machine
end

