-- ==== Sys2Proof/Machine/Manifest.lean ====
section
/-! DEFINITION. The meanings of the SERVE commands (R235 to R238), the step builder (R246), the end of a list (R245, R252, R256 to R259), moors (R199, R200, R255), models (R232 to R234) and SERVE_CONFIG (R262, R264). -/

namespace Sys2Proof

/-- A record's fields are in range (R232). -/
def ModelRec.ok (r : ModelRec) : Bool :=
  decide (1 ≤ r.maxSeq ∧ r.maxSeq ≤ 512 ∧ 1 ≤ r.streams ∧ r.streams ≤ 16 ∧ 1 ≤ r.tokenBudget ∧ 16 ≤ r.tpp ∧ r.tpp ≤ 4096 ∧
    1 ≤ r.ppc ∧ r.ppc ≤ 4096 ∧ r.items ≤ 65535 ∧ r.noise ≤ 65535 ∧ r.kind ≤ 1 ∧ (r.kind = 1 ∨ r.noise = 0)) && Machine.isPow2 r.tpp &&
  (r.inHold || decide (1 ≤ r.wlen ∧ r.wlen < 2 ^ 40))

end Sys2Proof

namespace Sys2Proof.Machine

open Sys2Proof

/-! ### SERVE commands -/

/-- ARM: the slice is armed; the command stays open. -/
def execArm (q : Nat) (f : Fetched) (v : ServeBody) (s : State) : Out :=
  onBlk s fun e b => (b.fetchCmd e q f (.serve 1 v [] [])).settleServe e

/-- DISARM: the slice's entries become FREE; the ARM and this command complete when its lists have. -/
def execDisarm (q : Nat) (f : Fetched) (v : ServeBody) (s : State) : Out :=
  onBlk s fun e b => (b.fetchCmd e q f (.serve 2 v [] [])).settleServe e

/-- ADD: all COUNT sequences or none. -/
def execAdd (q : Nat) (f : Fetched) (v : ServeBody) (ds : List SeqDesc) (s : State) : Out :=
  onBlk s fun e b => (b.fetchCmd e q f (.serve 3 v ds [])).settleServe e

/-- UPDATE: the masked fields of one sequence. -/
def execUpdate (q : Nat) (f : Fetched) (v : ServeBody) (d : SeqDesc) (s : State) : Out :=
  onBlk s fun e b => (b.fetchCmd e q f (.serve 4 v [d] [])).settleServe e

/-- APPEND: tokens at POSITION of a TOKEN sequence. -/
def execAppend (q : Nat) (f : Fetched) (v : ServeBody) (tokens : List Nat) (s : State) : Out :=
  onBlk s fun e b => (b.fetchCmd e q f (.serve 5 v [] tokens)).settleServe e

/-- PARK: reason GUEST. -/
def execPark (q : Nat) (f : Fetched) (v : ServeBody) (s : State) : Out :=
  onBlk s fun e b => (b.fetchCmd e q f (.serve 6 v [] [])).settleServe e

/-- RESUME: back to RESUME_PHASE. -/
def execResume (q : Nat) (f : Fetched) (v : ServeBody) (s : State) : Out :=
  onBlk s fun e b => (b.fetchCmd e q f (.serve 7 v [] [])).settleServe e

/-- RELEASE: the entry is free, its pages return to the free ring. -/
def execRelease (q : Nat) (f : Fetched) (v : ServeBody) (s : State) : Out :=
  onBlk s fun e b => (b.fetchCmd e q f (.serve 8 v [] [])).settleServe e

/-- PAGES: page numbers join the free ring. -/
def execPages (q : Nat) (f : Fetched) (v : ServeBody) (nums : List Nat) (s : State) : Out :=
  onBlk s fun e b => (b.fetchCmd e q f (.serve 9 v [] nums)).settleServe e

/-! ### Lists -/

/-- Manifest's reads of an open ARM's buffers pass Breakwater (R239, R241, R333 to R335): the consumption index at the start of the serving area, then the free ring from its consumer position on; none while the OTHER bucket is short. -/
def Block.takeArmReads (b : Block) (e : Env) (sl : Nat) (a : Armed) : Option Block :=
  let p := b.slicePart sl
  let read (k off len : Nat) (b : Block) : Option Block :=
    if len = 0 then some b
    else match b.bufHead a.cmd k with
      | some h => (b.takeRead e p h off len).map fun b => b.hold_ h .manifest
      | none => some b
  (read 2 0 8 b).bind (read 3 (4 * ((a.appended - a.free.length) % a.freeN)) (4 * a.free.length))

/-- What Manifest reads before a build (R239, R241): consumption indices and the page numbers its free rings hold; a read that waits for tokens leaves what is known. -/
def Block.takeReads (b : Block) (e : Env) (reads : List ServeReads) : Block :=
  reads.foldl (fun b r =>
    match (b.armOf r.slice).bind fun a => (b.takeArmReads e r.slice a).map fun b => (a, b) with
    | none => b
    | some (a, b) =>
      let cons := r.consumed % (2 * a.ringN)
      let a' := { a with cons := cons }
      let a' := if a'.unread ≤ a.ringN then a' else a
      let free := (List.zipIdx a.free).map fun (p, i) => (r.free[i]?).getD p
      let b := b.modArm r.slice fun _ => { a' with free := free }
      Block.drainOut r.slice (a.held.length + 1) b) b

/-- LIST_BUILD (R246 to R249): one run of a partition's step builder. -/
def execListBuild (p : Nat) (reads : List ServeReads) (s : State) : Out :=
  onUnit (decide (p < 16)) s fun e b => ((b.flushOwed.settleServe e).takeReads e reads).buildList e p

/-- The rate of one stream: items over busy time (R252). -/
def paceRate (items busy : Nat) : Rat := (items : Rat) / (busy : Rat)

/-- Pace weights follow the rates of a list's berths (R252); a list without a rate leaves them. What is rounded towards zero is the quotient by 8 (DESIGN CHOICE, log 111). -/
def Block.updatePace (b : Block) (l : LoadList) (busy : Table Nat) : Block :=
  let rows := (List.zipIdx l.berths).map fun (n, r) => (n, (l.deal[r]?).getD 0, tgetD busy r 0)
  let b := rows.foldl (fun b (n, _, t) => b.wr F.MF_PACE_BUSY n (min 0xFFFF (t / 1000))) b
  if rows.any fun r => r.2.2 = 0 then b
  else
    let rates := rows.map fun r => paceRate r.2.1 r.2.2
    let mean := rates.foldl (· + ·) 0 / (rates.length : Rat)
    if mean = 0 then b
    else (List.zip rows rates).foldl (fun b (r, q) =>
      let w := b.rd F.MF_PACE_WEIGHT r.1
      let d : Rat := (256 * (q / mean) - (w : Rat)) / 8
      let step : Int := if 0 ≤ d then d.floor else d.ceil
      b.wr F.MF_PACE_WEIGHT r.1 (clampN 64 1024 ((w : Int) + step).toNat)) b

/-- What a step leaves in its entry apart from its outcome (R238, R252, R256): the deadline of the next step where the step completed, the flags of the step, deferred commands. A DEADLINE of 0, which means none, stays 0 (DESIGN CHOICE, log 112); `fallback` says that a step of the schedule ran on the fallback. -/
def Block.stepEnded (b : Block) (e : Env) (i : Nat) (fallback completed : Bool) : Block :=
  let b := b.modSeq i fun s => { s with
    inList := false, onFallback := false, fbModel := none, pred := 0, lastEnd := e.now, anyFallback := s.anyFallback || fallback
    g := if completed && !s.g.schedule && s.g.period ≠ 0 && s.g.deadline ≠ 0 then { s.g with deadline := s.g.deadline + s.g.period } else s.g }
  match tget b.manifest.seqs i with
  | none => b
  | some s => match s.deferUpdate with
    | some (mask, d) => (b.modSeq i fun s => { s with deferUpdate := none }).applyUpdate i mask d
    | none => b

/-- A deferred PARK takes effect at the end of the list (R238); one that is DONE stays so. -/
def Block.parkDeferred (b : Block) (i : Nat) : Block :=
  match tget b.manifest.seqs i with
  | some s => if s.deferPark then
      let b := b.modSeq i fun s => { s with deferPark := false }
      if s.phase = phDone ∨ s.phase = phParked then b else b.parkSeq i prGuest
    else b
  | none => b

/-- A sequence's step has failed with a status (R257, R258): its record carries it and the sequence parks with reason FAULT. -/
def Block.stepFault (b : Block) (e : Env) (i : Nat) (en : ListEntry) (denoise predLate : Bool) (st : Nat) : Block :=
  let b := ((b.stepEnded e i false false).modSeq i fun s => { s with deferPark := false }).parkSeq i prFault
  match tget b.manifest.seqs i with
  | none => b
  | some s =>
    let (d, b) := b.noToken s
    let late := pastDue e.now en.deadline
    let b := b.countLate late (b.slicePart s.slice)
    b.putOut s.slice (b.outOf e i s (if denoise then 2 else 1) st d late false predLate)

/-- One sequence's step has completed (R231, R239, R245, R256, R258, R261). -/
def Block.stepDone (b : Block) (e : Env) (m : Model) (st : Nat) (en : ListEntry) (outs : List StepOut) : Block :=
  let i := en.seq
  match tget b.manifest.seqs i with
  | none => b
  | some s =>
    let p := b.slicePart s.slice
    let denoise := m.r.denoise
    let late := pastDue e.now en.deadline
    let fb := en.fallback
    let st := if fb then stFallback else st
    let v := s.from_ fb
    let end_ := v + en.tokens
    -- what is sampled at POSITION where the step samples: at the end of a DECODE step and of the chunk that takes the last pending token (R258)
    let last := decide (s.phase ≠ phPrefill) || decide (s.pending ≤ end_ - s.chunkFrom denoise)
    let drawn := sampleToken s.g s.position (((outs.find? fun o => o.seq = i).map (·.cands)).getD [])
    if !denoise && last && drawn.isNone then b.stepFault e i en false en.predLate stAborted else
    let b := if fb then (b.bump F.MF_PLATE_FALLBACK p).tallyG (some s.slice) 0x107 p 1 else b
    let valid (s : SeqEntry) : SeqEntry := if fb then { s with fbPos := end_ } else { s with kvPos := end_ }
    let record (b : Block) (kind value : Nat) (stop : Bool) : Block :=
      match tget b.manifest.seqs i with
      | none => b
      | some s =>
        let b := b.countLate late p
        b.putOut s.slice (b.outOf e i s kind st value late stop en.predLate)
    -- phase and position after a step that sampled a token
    let token (b : Block) : Block :=
      match drawn with
      | none => b
      | some t =>
        let stop := (s.g.stop.take s.g.stopN).contains t
        let done := stop || decide (s.g.limit ≤ s.position + 1)
        let b := (b.modSeq i fun s => { s with position := s.position + 1, phase := if done then phDone else phDecode }).stepEnded e i false true
        record (b.parkDeferred i) 1 t stop
    if s.phase = phPrefill then
      let n := end_ - s.chunkFrom denoise
      let b := b.modSeq i fun s => { valid s with pending := s.pending - n }
      if n < s.pending then
        let b := (b.stepEnded e i false true).parkDeferred i
        if ((tget b.manifest.seqs i).map fun s => decide (s.phase = phParked)).getD false then b.noticeOut e i stOK en.deadline else b
      else if denoise then
        let b := match b.armOf s.slice with
          | some a => b.armWrite a.cmd 2 s.g.ioOff (noiseBytes s.g (1024 * m.r.noise))
          | none => b
        let b := ((b.modSeq i fun s => { s with phase := phDenoise }).stepEnded e i false true).parkDeferred i
        if ((tget b.manifest.seqs i).map fun s => decide (s.phase = phParked)).getD false then b.noticeOut e i stOK en.deadline else b
      else token b
    else if denoise then
      let done := decide (s.g.limit ≤ s.position + 1)
      let b := ((b.modSeq i fun s => { s with position := s.position + 1, phase := if done then phDone else phDenoise }).stepEnded e i fb true).parkDeferred i
      let b := record b 2 s.position false
      if done then match tget b.manifest.seqs i with
        | some s =>
          let b := b.countLate late p
          b.putOut s.slice (b.outOf e i s 3 (if s.anyFallback then stFallback else st) 0xFFFFFFFF late false en.predLate)
        | none => b
      else b
    else token (b.modSeq i valid)

/-- One entry of a completed list: a released one goes (R238), a withdrawn one keeps its fallback step or parks (R257), another's step is done. -/
def Block.entryDone (b : Block) (e : Env) (m : Model) (st : Nat) (en : ListEntry) (outs : List StepOut) : Block :=
  let i := en.seq
  match tget b.manifest.seqs i with
  | none => b
  | some s =>
    if s.deferRelease then (b.modSeq i fun s => { s with inList := false, deferRelease := false }).releaseSeq i
    else if !en.live then
      let b := b.modSeq i fun s => { s with inList := false, deferUpdate := none, pred := 0 }
      let b := match s.deferUpdate with
        | some (mask, d) => b.applyUpdate i mask d
        | none => b
      if s.deferPark then ((b.modSeq i fun s => { s with deferPark := false }).parkSeq i prGuest).noticeOut e i stOK en.deadline else b
    else b.stepDone e m st en outs

/-- The slice whose buffer a list's failure names (R249, R257). -/
def LoadList.blamed (l : LoadList) (fbuf : Option Nat) : Option Nat :=
  match fbuf with
  | some k => if k = 0 ∨ k = 2 then some l.sliceA else if k = 3 ∨ k = 4 then l.sliceB else none
  | none => none

/-- One entry of a failed list (R257): the sequences of the slice to blame, or all where none is named, park with the status; the others are placed again, as are all of a list never dispatched whose partition has lost its last berth (`again`). -/
def Block.entryFailed (b : Block) (e : Env) (l : LoadList) (denoise again : Bool) (st : Nat) (blamed : Option Nat) (en : ListEntry) : Block :=
  let i := en.seq
  match tget b.manifest.seqs i with
  | none => b
  | some s =>
    if s.deferRelease then (b.modSeq i fun s => { s with inList := false, deferRelease := false }).releaseSeq i
    else if again || (blamed.isSome && l.sliceB.isSome && blamed ≠ some s.slice) then
      let b := b.modSeq i fun s => { s with inList := false, deferUpdate := none, pred := 0 }
      let b := match s.deferUpdate with
        | some (mask, d) => b.applyUpdate i mask d
        | none => b
      let b := b.parkDeferred i
      if s.deferPark then b.noticeOut e i stOK en.deadline else b
    else b.stepFault e i en denoise en.predLate st

/-- Raise an armed slice's vector (R240). -/
def Block.raiseArm (b : Block) (sl : Nat) : Block :=
  match b.armOf sl with
  | some a =>
    let mine := ((tget b.quay.slices sl).map fun x => decide (x.msixBase ≤ a.vector ∧ a.vector < x.msixBase + x.msixCount)).getD false
    if a.msix && mine then b.msix a.vector else b
  | none => b

/-- Set a partition's DET (R262); once it is 1 every step runs on its primary: steps owed to the fallback are dropped from its lane. -/
def Block.setDet (b : Block) (p : Nat) (det : Bool) : Block :=
  let b := b.wr F.MF_PCTL_DET p (if det then 1 else 0)
  if det then { b with manifest := { b.manifest with seqs := b.manifest.seqs.map fun (i, s) =>
    (i, if b.slicePart s.slice = p then { s with fbModel := none, onFallback := false } else s) } }
  else b

/-- What SERVE_CONFIG returns: the words of MF_PCTL_p and of the MF_SQUOTA_s it wrote (R234). -/
def Block.serveApplied (b : Block) (p : Nat) (sl : Option Nat) : List Nat :=
  (b.reg .mfPctl p).toNat :: (sl.map fun i => (b.reg .mfSquota i).toNat).toList

/-- SERVE_CONFIGs whose change of DET waited for the lists of a partition take effect, oldest first (R262). -/
def Block.settleDet (b : Block) (e : Env) (p : Nat) : Block :=
  if b.manifest.lists.any fun l => l.2.partition = p then b
  else
    let due := b.manifest.detWait.filter fun w => w.partition = p
    due.foldl (fun b w => let b := b.setDet p w.det; b.endMgr e w.m 0x0704 w.ret (b.serveApplied p w.slice))
      { b with manifest := { b.manifest with detWait := b.manifest.detWait.filter fun w => w.partition ≠ p } }

/-- LIST_COMPLETE (R231, R245, R252, R257, R525): the list's job has ended; its sequences take their outcome, their slices their records and vectors. -/
def execListComplete (p id : Nat) (outs : List StepOut) (s : State) : Out :=
  onUnit (decide (p < 16)) s fun e b =>
    match tget b.manifest.lists id with
    | none => b
    | some l =>
      match tget b.quay.cmds l.job with
      | none => b
      | some x =>
        if l.partition ≠ p || x.ph ≠ .ended then b
        else
          let st := x.status
          let denoise := ((b.model l.model).map fun m => m.r.denoise).getD false
          let blamed := l.blamed x.faultBuf
          let again := decide (st = stUnavailable) && !x.ran && (b.partBerths p).isEmpty
          -- the serving context a failure tears down (R257, R469): the slice's to blame, whose sequences become FREE without a record, else the
          -- job's own, section A's, whose sequences first park with the status
          let freed := if tearsDown st then blamed else none
          let torn := if tearsDown st then some (blamed.getD l.sliceA) else none
          let tornCtx := torn.bind fun sl => (b.armOf sl).bind fun a => (tget b.quay.cmds a.cmd).map fun c => c.hdr.ctx
          let sls := l.sliceA :: l.sliceB.toList
          let before := sls.map fun sl => (sl, (b.armOf sl).map fun a => (a.prod, a.held.length))
          let b : Block := match b.model l.model with
            | some m =>
              if st = stOK then l.entries.foldl (fun b en => b.entryDone e m (if x.anchorFlags then stAnchor else stOK) en outs) b
              else l.entries.foldl (fun b en =>
                if freed.isSome && (tget b.manifest.seqs en.seq).map (fun y => y.slice) == freed then (b.modSeq en.seq fun s => { s with inList := false }).freeSeq en.seq
                else b.entryFailed e l denoise again st blamed en) b
            | none => b
          let b := ((b.updatePace l x.busy).notePace p x.busy).stir e
          let b : Block := { b with
            manifest := { b.manifest with lists := tdel b.manifest.lists id }
            quay := { b.quay with cmds := tdel b.quay.cmds l.job } }
          let b := match tornCtx with | some k => b.tearCtx e k | none => b
          let b := before.foldl (fun b (sl, old) =>
            if ((b.armOf sl).map fun a => (a.prod, a.held.length)) ≠ old then b.raiseArm sl else b) b
          ((b.settleDisarm).settleDet e p).settleServe e

/-! ### Moors -/

/-- The fields of a moor's live mask (R199). -/
def moorMask (w : IWord) : Nat × Nat × Nat :=
  ((w.extractLsb' 16 16).toNat, (w.extractLsb' 32 32).toNat, (w.extractLsb' 64 64).toNat)

/-- The report of a moor to the monitor (R255): LC sequences on their primary that would miss their deadline are withdrawn. -/
def Block.moorReport (b : Block) (e : Env) (job off : Nat) : Block :=
  match (tget b.quay.cmds job).bind fun x => (match x.body with | .list _ id => some id | _ => none) with
  | none => b
  | some id =>
    match tget b.manifest.lists id with
    | none => b
    | some l =>
      match b.model l.model with
      | none => b
      | some m =>
        match (m.prog l.phase).2.rest.find? fun r => r.1 = off with
          | none => b
          | some (_, rec_) =>
            let p := l.partition
            let rest := wcTime rec_ (b.partClock p) (b.rateD e p) (b.rateH e p)
            let n := l.entries.length
            let t := l.entries.foldl (fun n x => n + x.tokens) 0
            let out (en : ListEntry) : Bool :=
              match tget b.manifest.seqs en.seq with
              | none => false
              | some s =>
                en.live && !en.fallback && b.monitored p { s with g := { s.g with deadline := en.deadline } } && s.g.fallbackOk &&
                (match b.fallbackOf s with
                 | some (_, f) => !meets e.now rest (b.stepTime e p f l.phase n t) (s.stepsLeft m.r.denoise - 1) en.deadline
                 | none => false)
            let gone := l.entries.filter out
            if gone.isEmpty then b
            else
              let l := { l with entries := l.entries.map fun en => if out en then { en with live := false } else en }
              let b := b.modList id fun _ => l
              let b := gone.foldl (fun b en => b.toFallback en.seq) b
              (l.sliceA :: l.sliceB.toList).foldl (fun b sl =>
                match b.armOf sl with
                | some a =>
                  let live := maskOf (((List.zipIdx l.entries).filter fun x => x.1.live && b.entrySlice x.1 = sl).map (·.2))
                  b.armWrite a.cmd 2 (listOffset + 64) (leBytes 64 live)
                | none => b) b

/-- moor (R199, R200, R255): the monitor is told; with a yield pending the berth saves here, at the mask extended by what queued transfers touch. -/
def execMoor (n : Nat) (w : IWord) (s : State) : Out :=
  berthInstr .moor n w s (fun c => [peBad c.f]) fun c b =>
    let b := b.moorReport c.e c.s.job c.s.pc
    if (b.berth n).yield.isNone || b.bstate n ≠ bsToMoor then b.next c
    else
      let (tiles, vregs, store) := moorMask w
      let x := b.berth n
      let moved := regionMask ((x.me0 ++ x.me1).flatMap Xfer.ranges)
      (b.tallyB n (some c.s.slice) 0x00B 0 1).quiesce c.e n (some (tiles, vregs, store ||| moved)) (c.s.pc + 16)

/-! ### Models -/

/-- A Manifest program's image, records and rest table are well formed and bounded (R233, R234). -/
def progOk (p : ModelProg) : Bool :=
  p.img.ok && !p.base.unbounded && !p.perSeq.unbounded && !p.perToken.unbounded && decide (p.rest.length = p.img.restN ∧ p.img.wcOff + 192 ≤ p.img.ilen ∧ p.img.restOff + 64 * p.img.restN ≤ p.img.ilen) &&
  p.rest.all fun r => !r.2.unbounded && decide (r.1 < p.img.ilen)

/-- A fallback suits a primary (R234). -/
def Block.fallbackFits (b : Block) (r : ModelRec) (f : Nat) : Bool :=
  match b.model f with
  | some m => m.r.kind = r.kind && (!r.denoise || decide (m.r.noise = r.noise)) && m.r.usableBy r.owner &&
      (r.share.toList.all fun s => m.r.usableBy s) && m.r.fallback.isNone
  | none => false

/-- The slices of a model may use it (R234): of one partition, and granted its Hold weights. -/
def Block.modelAllowed (b : Block) (r : ModelRec) : Bool :=
  let sls := r.owner :: r.share.toList
  (sls.all fun s => b.sliceExists s && decide (b.slicePart s = b.slicePart r.owner)) &&
  (!r.inHold || match b.holdObj (r.weights % 2 ^ 32) with
    | some o => sls.all fun s => o.readable s
    | none => false)

/-- MODEL_REGISTER (R232 to R234): its programs and weights are stamped under OWNER, then it takes the slot. -/
def execModelRegister (m : Mgr) (r : ModelRec) (prefill step : ModelProg) (s : State) : Out :=
  onBlk s fun e b => b.manager e m 0x0701 fun b =>
    let held := b.harbour.running.filterMap fun x => if x.opcode = 0x0701 then some x.todo else none
    if !r.ok || !progOk prefill || !progOk step || !(r.fallback.toList.all fun f => b.fallbackFits r f) then b.reply m 0x0701 rcBadArg
    else match firstFrom (fun i => !thas b.manifest.models i && !held.contains i) 1024 0 with
      | none => b.reply m 0x0701 rcNoResource
      | some slot =>
        if !b.modelAllowed r then b.reply m 0x0701 rcDenied
        else
          let ctx := ((tget b.quay.slices r.owner).map (·.baseCtx)).getD 0
          let needs : List Need := [⟨r.progPrefill, prefill.img.ilen, true, false, true, 0⟩, ⟨r.progStep, step.img.ilen, true, false, true, 1⟩] ++
            (if r.inHold then [] else [⟨r.weights, r.wlen, true, false, false, 2⟩])
          (b.startMgr e m 0x0701 [] slot).newTask e (StampTask.new r.owner ctx (.model m slot r prefill step) needs)

/-- MODEL_RETIRE (R234): BUSY while an entry names the model, or a model names it as its fallback. -/
def execModelRetire (m : Mgr) (h : Nat) (s : State) : Out :=
  onBlk s fun e b => b.manager e m 0x0702 fun b =>
    match b.model h with
    | none => b.reply m 0x0702 rcBadArg
    | some x =>
      if b.manifest.seqs.any (fun y => y.2.g.model = h || y.2.fbModel == some h) || b.manifest.models.any (fun y => y.2.r.fallback == some h) then b.reply m 0x0702 rcBusy
      else
        let b := { b with manifest := { b.manifest with models := tdel b.manifest.models h } }
        (b.freeStamps x.heads).reply m 0x0702 rcDone

/-- FALLBACK_SET (R234): from the next list built. -/
def execFallbackSet (m : Mgr) (primary : Nat) (fallback : Option Nat) (s : State) : Out :=
  onBlk s fun e b => b.manager e m 0x0703 fun b =>
    match b.model primary with
    | none => b.reply m 0x0703 rcBadArg
    | some x =>
      if !(fallback.toList.all fun f => decide (f ≠ primary) && b.fallbackFits x.r f) ||
          (fallback.isSome && b.manifest.models.any fun y => y.2.r.fallback == some primary) then b.reply m 0x0703 rcBadArg
      else
        let b := { b with manifest := { b.manifest with models := tput b.manifest.models primary { x with r := { x.r with fallback := fallback } } } }
        b.reply m 0x0703 rcDone

/-- SERVE_CONFIG (R234, R262, R264): MF_PCTL_p and one slice's quota, CLAMPED with the values applied; a change of DET waits for the lists in flight. -/
def execServeConfig (m : Mgr) (p entries beFloor : Nat) (en det : Bool) (sl : Option (Nat × Nat)) (s : State) : Out :=
  onBlk s fun e b => b.manager e m 0x0704 fun b =>
    if !b.partExists p || !(sl.toList.all fun x => b.sliceExists x.1) then b.reply m 0x0704 rcBadArg
    else
      let others := ((List.range 16).filter (· ≠ p)).foldl (fun n q => n + b.rd F.MF_PCTL_ENTRIES q) 0
      let ents := min entries (16384 - others)
      let floor := min beFloor 255
      let b := ((b.wr F.MF_PCTL_ENTRIES p ents).wr F.MF_PCTL_BE_FLOOR p floor).wr F.MF_PCTL_EN p (if en then 1 else 0)
      let b := match sl with
        | some (i, q) => b.wr F.MF_SQUOTA_QUOTA i (min q 16384)
        | none => b
      let clamped := ents ≠ entries || floor ≠ beFloor || sl.toList.any fun x => decide (16384 < x.2)
      let ret := if clamped then rcClamped else rcDone
      let i := sl.map (·.1)
      if b.rd F.MF_PCTL_DET p = (if det then 1 else 0) && !(b.manifest.detWait.any fun w => w.partition = p) then b.reply m 0x0704 ret (b.serveApplied p i)
      else
        let b := { b.startMgr e m 0x0704 [] ret with manifest := { b.manifest with detWait := b.manifest.detWait ++ [(⟨p, det, m, ret, i⟩ : DetWait)] } }
        b.settleDet e p

end Sys2Proof.Machine
end

