-- ==== Sys2Proof/Machine/Queues.lean ====
section
/-! DEFINITION. The meanings of doorbells and launches (R269 to R271, R288), fetched commands (R276, R282), the dispatcher (R337) and the admin queue (R295 to R300). -/

namespace Sys2Proof.Machine

open Sys2Proof

/-! ### Doorbells -/

/-- A position from a doorbell field (R271). -/
def doorPos (n : Nat) (v : BitVec 32) : Nat := (v.toNat / 2 ^ 31 * 2 ^ n + v.toNat % 65536) % (2 * 2 ^ n)

/-- A new SQ_TAIL (R271). -/
def Block.ringTail (b : Block) (qn : Nat) (q : Queue) (v : BitVec 32) : Block :=
  let d := (doorPos q.n v + 2 * 2 ^ q.n - q.tail) % (2 * 2 ^ q.n)
  if d = 0 then b.bump F.QY_DB_STALE_DUPLICATE
  else if d ≤ 2 ^ q.n - q.unfetched then b.modQueue qn fun q => { q with tail := (q.tail + d) % (2 * 2 ^ q.n) }
  else b.bump F.QY_DB_STALE_OUT_OF_RANGE

/-- A new CQ_HEAD (R271, R272): records held for want of room follow. -/
def Block.ringHead (b : Block) (e : Env) (qn : Nat) (q : Queue) (v : BitVec 32) : Block :=
  let d := (doorPos q.m v + 2 * 2 ^ q.m - q.cqHead) % (2 * 2 ^ q.m)
  if d = 0 then b.bump F.QY_DB_STALE_DUPLICATE
  else if d ≤ q.unread then
    Block.releaseHeld e qn (q.held.length + 1) (b.modQueue qn fun q => { q with cqHead := (q.cqHead + d) % (2 * 2 ^ q.m) })
  else b.bump F.QY_DB_STALE_OUT_OF_RANGE

/-- Whole 4-byte fields are covered. -/
def wholeFields (be : Nat) : Bool := (be % 16 = 0 || be % 16 = 15) && (be / 16 % 16 = 0 || be / 16 % 16 = 15)

/-- A refused doorbell write is counted (R270). -/
def Block.doorReject (b : Block) (f : Fld) (sl : Nat) : Block := (b.bump f).tallyG (some sl) 0x101 0 1

/-- DOORBELL_WRITE (R20, R269 to R271, R295): the five checks in order, then the fields its byte enables cover. -/
def execDoorbellWrite (page k : Nat) (pasid : Option Nat) (be : Nat) (sq cq : BitVec 32) (s : State) : Out :=
  onHost s fun e b =>
    match pasid, tget b.quay.slices page with
    | none, _ => b.doorReject F.QY_DB_REJECT_NO_PASID page
    | _, none => b.doorReject F.QY_DB_REJECT_NO_QUEUE page
    | some ps, some x =>
      if ps ≠ x.pasid then b.doorReject F.QY_DB_REJECT_PASID_MISMATCH page
      else match b.findQueue page k with
        | none => b.doorReject F.QY_DB_REJECT_NO_QUEUE page
        | some (qn, q) =>
          if q.st = .broken ∨ q.st = .stopped then b.doorReject F.QY_DB_REJECT_NO_QUEUE page
          else if !wholeFields be then b.doorReject F.QY_DB_REJECT_MALFORMED page
          else
            let b := (b.stir e).tallyG (some page) 0x100 0 1
            let b := if be % 16 = 15 then b.ringTail qn q sq else b
            if be / 16 % 16 = 15 then match tget b.quay.queues qn with
              | some q => b.ringHead e qn q cq
              | none => b
            else b

/-- STANDING_LAUNCH (R288, R289): one launch of the held command. -/
def execStandingLaunch (q : Nat) (s : State) : Out := onBlk s fun _ b => b.launch q

/-! ### Fetched commands -/

/-- TENSOR (R276, R282). -/
def execTensorCommand (q : Nat) (f : Fetched) (t : TensorBody) (s : State) : Out :=
  onBlk s fun e b => b.fetchCmd e q f (.tensor t)

/-- MOVE (R276, R277, R282). -/
def execMoveCommand (q : Nat) (f : Fetched) (t : MoveBody) (s : State) : Out :=
  onBlk s fun e b => b.fetchCmd e q f (.move t)

/-- GENERAL (R276, R278, R282). -/
def execGeneralCommand (q : Nat) (f : Fetched) (t : GeneralBody) (s : State) : Out :=
  onBlk s fun e b => b.fetchCmd e q f (.general t)

/-- FERRY (R276, R282). -/
def execFerryCommand (q : Nat) (f : Fetched) (t : FerryBody) (s : State) : Out :=
  onBlk s fun e b => b.fetchCmd e q f (.ferry t)

/-- LIGHTERn (R63, R276, R282): the port is the one of its queue's class. -/
def execLighterCommand (q : Nat) (f : Fetched) (data : List Byte) (s : State) : Out :=
  onBlk s fun e b =>
    match tget b.quay.queues q with
    | some x => b.fetchCmd e q f (.lighter (x.cls - 5) data)
    | none => b

/-- Whether a dispatch unit exists. -/
def unitOk : DispatchUnit → Bool
  | .berths p => decide (p < 16)
  | .core g => decide (g < 8)
  | .ferry p => decide (p < 16)
  | .lighter n => decide (n < 4)

/-- JOB_DISPATCH (R267, R282, R283, R337 to R341, R410, R512): waits that failed end their commands, SERVE commands act, and the unit takes its next candidate; nothing is dispatched on the way to DROWSE, in it or in ANCHOR. -/
def execJobDispatch (u : DispatchUnit) (s : State) : Out :=
  onUnit (unitOk u) s fun e b =>
    if b.asleep then b
    else
      let b := (b.flushOwed.settleWaits).settleServe e
      match u with
      | .berths p => if b.partExists p then b.dispatchBerths e p else b
      | .core g => b.dispatchCore e g
      | .ferry p => if b.partExists p then b.dispatchFerry e p else b
      | .lighter n => b.dispatchLighter e n

/-! ### Admin commands: contexts -/

/-- CTX_CREATE (R295, R296). -/
def execCtxCreate (sl : Nat) (h : CmdHdr) (s : State) : Out :=
  onBlk s fun e b => b.admin e sl h fun b =>
    if b.rd F.QY_SQUOTA_CONTEXTS sl ≤ b.ctxCount sl then b.adminDone e sl h stQuota 0 0
    else match b.newCtx sl with
      | none => b.adminDone e sl h stQuota 0 0
      | some (n, b) => b.adminDone e sl h stOK 0 n

/-- CTX_DESTROY (R295, R296, R299): it completes when the teardown has finished. -/
def execCtxDestroy (sl : Nat) (h : CmdHdr) (c : Nat) (s : State) : Out :=
  onBlk s fun e b => b.admin e sl h fun b =>
    match tget b.quay.ctxs (c % 4096) with
    | none => b.adminDone e sl h stProtection 0 0
    | some x =>
      if x.slice ≠ sl then b.adminDone e sl h stProtection 0 0
      else
        let b := b.tearCtx e (c % 4096)
        { b with quay := { b.quay with ctxs := tmod b.quay.ctxs (c % 4096) fun x => { x with waiter := some (h, false) } } }

/-- CTX_DESTROY_ALL (R295, R300): every context of the slice is torn down; it completes with a new base context. -/
def execCtxDestroyAll (sl : Nat) (h : CmdHdr) (s : State) : Out :=
  onBlk s fun e b => b.admin e sl h fun b =>
    let ids := (b.quay.ctxs.filter fun x => x.2.slice = sl).map (·.1)
    let b := ids.foldl (fun b k => b.tearCtx e k) b
    { b with quay := { b.quay with ctxs := b.quay.ctxs.map fun x => if x.2.slice = sl then (x.1, { x.2 with waiter := some (h, true) }) else x } }

/-- CONTEXT_TEARDOWN (R298, R299). -/
def execContextTeardown (c : Nat) (s : State) : Out := onBlk s fun e b => b.tearCtx e c

/-- What waits for a context's teardown goes on (R295): CTX_DESTROY completes; CTX_DESTROY_ALL, with the slice's last context, drops the PASID's translations and makes a new base context. -/
def Block.afterTeardown (b : Block) (e : Env) (sl : Nat) (w : Option (CmdHdr × Bool)) : Block :=
  match w with
  | none => b
  | some (h, all) =>
    if !all then b.adminDone e sl h stOK 0 0
    else if b.quay.ctxs.any fun x => x.2.slice = sl then b
    else
      let b := { b with pilot := { b.pilot with cache := cachePurge b.pilot.cache (some (b.pasidOf sl)) 0 (2 ^ 64) } }
      match b.newCtx sl with
      | none => b.adminDone e sl h stQuota 0 0
      | some (n, b) => (b.modSlice sl fun x => { x with baseCtx := n }).adminDone e sl h stOK 0 n

/-- TEARDOWN_COMPLETE (R299): nothing of the context runs any longer; it is FREE. -/
def execTeardownComplete (c : Nat) (s : State) : Out :=
  onBlk s fun e b =>
    match tget b.quay.ctxs c with
    | none => b
    | some x => if x.st = .tearing ∧ b.ctxQuiet c then (b.freeCtx c).afterTeardown e x.slice x.waiter else b

/-! ### Admin commands: queues -/

/-- The arguments of QUEUE_CREATE are in range (R267, R288, R296, R297, R342). -/
def Block.queueArgsOk (b : Block) (e : Env) (sl : Nat) (q : QueueBody) : Bool :=
  decide (1 ≤ q.k ∧ q.k ≤ 255 ∧ q.cls ≤ 8 ∧ 4 ≤ q.n ∧ q.n ≤ 16 ∧ 4 ≤ q.m ∧ q.m ≤ 16 ∧ 1 ≤ q.depth ∧ q.depth ≤ 256 ∧ q.moderate ≤ 1023 ∧
    q.sqVa % (64 * 2 ^ q.n) = 0 ∧ q.cqVa % (32 * 2 ^ q.m) = 0) &&
  (b.findQueue sl q.k).isNone &&
  (q.bind = 0 || match tget b.quay.ctxs q.bind with | some x => decide (x.slice = sl ∧ x.st = .live) | none => false) &&
  (q.vector.toList.all fun v => match tget b.quay.slices sl with
    | some x => decide (x.msixBase ≤ v ∧ v < x.msixBase + x.msixCount)
    | none => false) &&
  (decide (q.cls < 5) || e.ties.lighterMask.testBit (q.cls - 5)) &&
  (!q.standing || q.cls = 0 || q.cls = 1 || decide (5 ≤ q.cls)) &&
  (!q.lc || (q.standing && q.cls = 0) || q.cls = 2)

/-- QUEUE_CREATE (R268, R288, R295 to R297, R342, R343): a standing command is read and checked, the rings and its buffers are stamped, then the queue exists. -/
def execQueueCreate (sl : Nat) (h : CmdHdr) (q : QueueBody) (standing : Option (Fetched × Body)) (s : State) : Out :=
  onBlk s fun e b => b.admin e sl h fun b =>
    let held := (b.quay.queues.filter fun x => x.2.slice = sl).length
    if b.rd F.QY_SQUOTA_QUEUES sl ≤ held || decide (8192 ≤ b.quay.queues.length) then b.adminDone e sl h stQuota 0 0
    else if !b.queueArgsOk e sl q || standing.isSome ≠ q.standing then b.adminDone e sl h stAborted 0 0
    else
      let base := ((tget b.quay.slices sl).map (·.baseCtx)).getD 0
      match standing with
      | none => b.newTask e (StampTask.new sl base (.queue sl h q none) (QueueBody.rings q))
      | some (f, body) =>
        let f := { f with bufs := f.bufs.take f.hdr.nbuf }
        if body.cls ≠ q.cls then b.adminDone e sl h stAborted 0 0
        else (b.newTask e (StampTask.new sl f.hdr.ctx (.standing sl h q f body false)
          [⟨q.standingVa, 64 * slotsOf f.hdr.ext, true, false, false, 0⟩])).startTasks e

/-- QUEUE_DESTROY (R287, R295): fetching stops; the command completes when the queue is freed. Doorbell writes to a queue under QUEUE_DESTROY pass step 4 of R270, one that a teardown had STOPPED among them (DESIGN CHOICE between R295 and R301, log 107). -/
def execQueueDestroy (sl : Nat) (h : CmdHdr) (k : Nat) (s : State) : Out :=
  onBlk s fun e b => b.admin e sl h fun b =>
    match b.findQueue sl k with
    | none => b.adminDone e sl h stAborted 0 0
    | some (qn, _) =>
      if k = 0 ∨ 255 < k then b.adminDone e sl h stAborted 0 0
      else b.modQueue qn fun q => { q with st := if q.st = .broken then .broken else .destroying, destroyer := some h }

/-- QUEUE_FREE (R265, R289, R295, R343): a destroyed queue's commands and records are done: it is freed with its stamps and its admitted load. -/
def execQueueFree (q : Nat) (s : State) : Out :=
  onBlk s fun e b =>
    match tget b.quay.queues q with
    | none => b
    | some x =>
      match x.destroyer with
      | none => b
      | some h =>
        if b.quay.cmds.any (fun c => c.2.q = q) || !x.held.isEmpty then b
        else
          let p := b.slicePart x.slice
          let b := b.freeStamps (x.ringHeads ++ match x.standing with | some (_, _, hs) => hs | none => [])
          let b := b.wr F.BW_SCHED_LC_LOAD p (b.rd F.BW_SCHED_LC_LOAD p - x.load)
          { b with quay := { b.quay with queues := tdel b.quay.queues q } }.adminDone e x.slice h (if (b.ctxCheck x.slice 0 h.ctx).isSome then stTorn else stOK) 0 0

/-! ### Admin commands: fences -/

/-- FENCE_CREATE (R290, R293 to R296). -/
def execFenceCreate (sl : Nat) (h : CmdHdr) (init mirror : Nat) (s : State) : Out :=
  onBlk s fun e b => b.admin e sl h fun b =>
    let owned := (b.quay.fences.filter fun x => x.2.slice = sl).length
    if b.rd F.QY_SQUOTA_FENCES sl ≤ owned then b.adminDone e sl h stQuota 0 0
    else if 2 ^ 63 ≤ init then b.adminDone e sl h stAborted 0 0
    else match b.newFence ⟨init, h.ctx, sl, [], if mirror = 0 then none else some mirror, false⟩ with
      | none => b.adminDone e sl h stQuota 0 0
      | some (n, b) => b.adminDone e sl h stOK 0 n

/-- An admin command on a fence its slice may act on, by a condition. -/
def Block.onFence (b : Block) (e : Env) (sl : Nat) (h : CmdHdr) (f : Nat) (may : Fence → Bool) (act : Fence → Block → Block) : Block :=
  match tget b.quay.fences f with
  | none => b.adminDone e sl h stProtection 0 0
  | some x => if may x then act x b else b.adminDone e sl h stProtection 0 0

/-- FENCE_DESTROY (R292, R295, R296): the fence breaks, its waiters complete with FENCE_BROKEN. -/
def execFenceDestroy (sl : Nat) (h : CmdHdr) (f : Nat) (s : State) : Out :=
  onBlk s fun e b => b.admin e sl h fun b =>
    b.onFence e sl h f (fun x => x.slice = sl) fun _ b => (b.breakFence e f).adminDone e sl h stOK 0 0

/-- FENCE_GRANT (R291, R295, R296): the slice's rights are added or replaced; at most seven slices. -/
def execFenceGrant (sl : Nat) (h : CmdHdr) (f peer : Nat) (wait signal : Bool) (s : State) : Out :=
  onBlk s fun e b => b.admin e sl h fun b =>
    if 512 ≤ peer then b.adminDone e sl h stAborted 0 0
    else b.onFence e sl h f (fun x => x.slice = sl) fun x b =>
      let b := b.noteWaits
      let others := x.rights.filter fun g => g.slice ≠ peer
      if 7 ≤ others.length then b.adminDone e sl h stQuota 0 0
      else
        let b := { b with quay := { b.quay with fences := tput b.quay.fences f { x with rights := others ++ [(⟨peer, wait, signal⟩ : Grant)] } } }
        b.adminDone e sl h stOK 0 0

/-- FENCE_RELEASE (R293, R295): the acting slice leaves the right list; a broken fence nothing holds is freed. -/
def execFenceRelease (sl : Nat) (h : CmdHdr) (f : Nat) (s : State) : Out :=
  onBlk s fun e b => b.admin e sl h fun b =>
    b.onFence e sl h f (fun x => x.rights.any fun g => g.slice = sl) fun x b =>
      let b := b.noteWaits
      let b : Block := { b with quay := { b.quay with fences := tput b.quay.fences f { x with rights := x.rights.filter fun g => g.slice ≠ sl } } }
      b.freeFences.adminDone e sl h stOK 0 0

/-- FENCE_READ (R292, R295, R296): a broken fence reads all ones. -/
def execFenceRead (sl : Nat) (h : CmdHdr) (f : Nat) (s : State) : Out :=
  onBlk s fun e b => b.admin e sl h fun b =>
    b.onFence e sl h f (fun _ => (b.fenceRights f sl).1) fun x b => b.adminDone e sl h stOK 0 (if x.broken then 2 ^ 64 - 1 else x.value)

/-- FENCE_SIGNAL (R290, R295, R296): the range is checked before the right. -/
def execFenceSignal (sl : Nat) (h : CmdHdr) (f v : Nat) (s : State) : Out :=
  onBlk s fun e b => b.admin e sl h fun b =>
    if 2 ^ 63 ≤ v then (b.bump F.QY_FENCE_STAT_RANGE).adminDone e sl h stFenceRange 0 0
    else b.onFence e sl h f (fun _ => (b.fenceRights f sl).2) fun _ b => b.adminDone e sl h stOK 0 0 (some (f, v))

end Sys2Proof.Machine
end

