-- ==== Sys2Proof/Machine/BerthHw.lean ====
section
/-! DEFINITION. The hardware of a berth beside its streams: spare arrays (R132, R152 to R155), store correction and remapping (R154, R156, R157), operating points (R141 to R143). -/

namespace Sys2Proof.Machine

open Sys2Proof

/-- An access discarded under R12: counted; a read returns 0. -/
def Block.accessErr (b : Block) : Block := { b.bump F.GLB_ACCESS_ERR_COUNT with readData := 0 }

/-! ### Spare arrays -/

/-- SPARE_MAP_WRITE (R153): it takes effect on a drained or gated berth, with eight distinct fields of 0 to 8 that name no failed array; the array under replacement gives way to the one now in its place (R155 step 3). -/
def execSpareMapWrite (n : Nat) (v : Word) (s : State) : Out :=
  onUnit (decide (n < 16)) s fun _ b =>
    let old := b.mapOf n
    let new := (List.range 8).map fun l => v.toNat / 16 ^ l % 16
    if (b.bstate n = bsDrained || b.bstate n = bsGated) && new.Nodup && new.all fun a => (b.goodArrays n).contains a then
      let b := b.setReg .btSpareMap n (v &&& 0xFFFFFFFF)
      b.modBerth n fun x => { x with swapping := x.swapping.map fun a => (((old.zip new).find? fun y => y.1 = a).map (·.2)).getD a }
    else b.wr F.BT_ARRAY_HEALTH_MAP_REJECT n 1

/-- ARRAY_MARK_FAILED (R132, R155). -/
def execArrayMarkFailed (n a : Nat) (s : State) : Out :=
  onUnit (decide (n < 16 ∧ a < 9)) s fun e b => whenB (!b.harbour.down) (fun b => b.failArray e n a) b

/-- ARRAY_SELF_TEST (R132): the known-pattern test of an array of an idle berth; a mismatch marks it failed. -/
def execArraySelfTest (n a : Nat) (pass : Bool) (s : State) : Out :=
  onUnit (decide (n < 16 ∧ a < 9)) s fun e b =>
    whenB ((b.bstate n = bsIdle || b.bstate n = bsDrained) && !pass) (fun b => b.failArray e n a) b

/-- The microcode activation in progress (R464): its command, the berth it has come to, the berths left. -/
def Block.ucodeRun (b : Block) : Option (Running × Nat × Nat) :=
  (b.harbour.running.find? fun r => r.opcode = 0x0502 && r.todo / 65536 = 2).bind fun r =>
    (bitsOf 16 (r.todo % 65536)).head?.map fun n => (r, n, r.todo % 65536)

/-- Go on with the microcode activation (R464): a failed berth is passed over, a gated one has the new microcode when it is switched on, another is drained and tested. -/
def Block.ucodeGo (e : Env) : (fuel : Nat) → Block → Block
  | 0, b => b
  | k + 1, b =>
    match b.harbour.running.find? fun r => r.opcode = 0x0502 && r.todo / 65536 = 2 with
    | none => b
    | some r =>
      match (bitsOf 16 (r.todo % 65536)).head? with
      | none => b.endMgr e r.m 0x0502 rcDone
      | some n =>
        let skip (b : Block) : Block := { b with harbour := { b.harbour with
          running := b.harbour.running.map fun x => if x = r then { x with todo := x.todo - 2 ^ n } else x } }
        if b.bstate n = bsFailed then Block.ucodeGo e k (skip b)
        else if b.bstate n = bsGated then Block.ucodeGo e k (skip (b.modBerth n fun x => { x with newUcode := true }))
        else b.setDrain e n true

/-- The microcode activation leaves a berth behind and goes on with the next (R464, R467). -/
def Block.ucodeNext (b : Block) (e : Env) (n : Nat) : Block :=
  Block.ucodeGo e 18 { b with harbour := { b.harbour with
    running := b.harbour.running.map fun x => if x.opcode = 0x0502 && x.todo / 65536 = 2 && (x.todo % 65536).testBit n then { x with todo := x.todo - 2 ^ n } else x } }

/-- ARRAY_TEST_COMPLETE (R155 steps 4 and 5, R464, R467): the test of the array put into the map, or of a berth with new microcode. A pass clears DRAIN; a failed array is marked, and with no array left, or for microcode, the berth fails. -/
def execArrayTestComplete (n : Nat) (pass : Bool) (s : State) : Out :=
  onUnit (decide (n < 16)) s fun e b =>
    if b.bstate n ≠ bsDrained || b.harbour.down then b
    else match (b.berth n).swapping with
      | some a =>
        if (b.goodArrays n).contains a then
          if pass then (b.modBerth n fun x => { x with swapping := none }).setDrain e n false
          else b.failArray e n a
        else b
      | none => match b.ucodeRun with
        | some (_, k, _) =>
          if k ≠ n then b
          else if pass then ((b.modBerth n fun x => { x with newUcode := true }).setDrain e n false).ucodeNext e n
          else ((b.fenceOff e n (Config.resetTrigger 7)).resetReplies e n).ucodeNext e n
        | none => b

/-! ### Berth store -/

/-- STORE_APERTURE_ACCESS (R12, R128, R154, R156, R468): 8 bytes of berth store through the second bank port; a word that cannot be corrected gives no data and an alarm. -/
def execStoreApertureAccess (n off : Nat) (write : Bool) (v : Word) (s : State) : Out :=
  onUnit (decide (n < 16)) s fun e b =>
    let ap := b.rd F.BT_STORE_BASE_APERTURE n
    let a := ap * 0x80000 + (off - 0x80000)
    if off < 0x80000 || 0x100000 ≤ off || off % 8 ≠ 0 || 40 ≤ ap then b.accessErr
    else if write then if b.domUp n then b.store n a (leBytes 8 v.toNat) else b
    else match b.eccRead n a 8 with
      | (none, b) =>
        if b.domUp n then { b with readData := BitVec.ofNat 64 (ofLeBytes (b.load n a 8)) }
        else let (d, b) := b.draw; { b with readData := Config.freeWord d }
      | (some line, b) =>
        let (d, b) := b.draw
        { b.alarm e { code := 0x0010, kind := ukBerth, idx := n, data := [n, line] } with readData := Config.freeWord d }

/-- A bit of a switched-on berth's store goes wrong, and may stay wrong (R156), or an entry of one of its tiles does (R132), which no rule foretells: whether, where and whether it is stuck is a free value, drawn at each clock cycle of an empty queue (log 32). -/
def Block.softError (b : Block) : Block :=
  let (d, b) := b.draw
  let k := Config.freeNat d
  let n := k / 4 % 16
  let word := k / 64 % 2621440
  if !b.domUp n then b
  else if k % 4 = 1 then b.modBerth n fun x => { x with
    badBits := tupd x.badBits word 0 (· + 1)
    stuckBits := if k / 167772160 % 2 = 1 ∧ !x.stuckBits.contains word then word :: x.stuckBits else x.stuckBits }
  else if k % 4 = 2 then b.modRegs n fun r => r.setTile (word % 16) { r.tile (word % 16) with badEntries := word / 16 % 4096 :: (r.tile (word % 16)).badEntries }
  else b

/-- STORE_WRITE_BACK (R156): the corrected word is written back; a bit that is not stuck is good again. A newer write has dropped the write-back. -/
def execStoreWriteBack (n word : Nat) (s : State) : Out :=
  onUnit (decide (n < 16)) s fun _ b =>
    whenB ((b.berth n).writeBack.contains word) (fun b => b.modBerth n fun x => { x with
      writeBack := x.writeBack.filter (· ≠ word), reread := x.reread ++ [word]
      badBits := x.badBits.filter fun w => w.1 ≠ word || x.stuckBits.contains word }) b

/-- Install a stuck line in the lowest free remap entry, with the corrected line in its spare storage, and record the repair (R157, R158); with every entry valid an alarm is raised. -/
def Block.installRemap (b : Block) (e : Env) (n line : Nat) : Block :=
  if (b.remaps n).any fun r => r.1 = line then b
  else match firstFrom (fun i => b.rd F.BT_REMAP_VALID (16 * n + i) = 0) 16 0 with
    | none => b.alarm e { code := 0x0020, kind := ukBerth, idx := n, data := [line] }
    | some i =>
      let k := 16 * n + i
      let copy := b.load n (64 * line) 64
      let b := ((b.wr F.BT_REMAP_VALID k 1).wr F.BT_REMAP_LINE k line).wr F.BT_REMAP_STUCK k 1
      let b := b.modBerth n fun x => { x with spare := tput x.spare i copy }
      { b with hold := { b.hold with repairs := if b.hold.repairs.contains (n, line) then b.hold.repairs else b.hold.repairs ++ [(n, line)] } }

/-- STORE_REREAD (R156, R157): the word is read again after its write-back; a bit still in error is stuck. -/
def execStoreReread (n word : Nat) (s : State) : Out :=
  onUnit (decide (n < 16)) s fun e b =>
    if (b.berth n).reread.contains word then
      let b := b.modBerth n fun x => { x with reread := x.reread.filter (· ≠ word) }
      if (b.berth n).stuckBits.contains word then b.installRemap e n (word / 8) else b
    else b

/-! ### Operating points -/

/-- OPERATING_POINT_CHANGE (R141 to R143, R511): the berth moves to its ceiling, at most once in 1 ms; results and latencies already converted stay. LOCKSTEP is set by every move a lockstep partition makes together, a rise too (DESIGN CHOICE, log 89). -/
def execOperatingPointChange (n p : Nat) (s : State) : Out :=
  onUnit (decide (n < 16 ∧ p < 16)) s fun e b =>
    match tget b.watch.ceilings n with
    | none => b
    | some (_, t, lock) =>
      let since := (b.berth n).oppSince
      if t ≠ p || b.rd F.BT_CLOCK_OPP n = p || b.power.thermTrip || (since ≠ 0 && e.now < since + 1000000) then b
      else
        let b := ((b.wr F.BT_CLOCK_OPP n p).bumpWrap F.BT_CLOCK_CHANGES n).wr F.BT_CLOCK_LOCKSTEP n (if lock then 1 else 0)
        (b.modBerth n fun x => { x with oppSince := e.now }).raise 16

end Sys2Proof.Machine
end

