-- ==== Sys2Proof/Machine/Cores.lean ====
section
/-! DEFINITION. The general cores: TLB misses (R322), the ends of a task (R278), the dealing of the cores among slices (R341). -/

namespace Sys2Proof.Machine

open Sys2Proof

/-- MMU_MISS (R278, R306, R314, R322): the buffer that covers the address gives the TLB an entry; an address in no buffer ends the task with PROTECTION_FAULT, and a miss on a stale stamp waits on the core's stream. -/
def execMmuMiss (g va : Nat) (s : State) : Out :=
  onUnit (decide (g < 8)) s fun e b =>
    match (b.core g).task with
    | none => b
    | some c => if (b.coverOf c va).isNone then b.endTask e g stProtection 0 0 else b.tlbFill e g c va

/-- GENERAL_TASK_ECALL (R278): code 0 ends the task with its result, any other with ABORTED and DETAIL 3. -/
def execGeneralTaskEcall (g : Nat) (a7 a0 : Word) (s : State) : Out :=
  onUnit (decide (g < 8)) s fun e b =>
    if (b.core g).resetStep.isSome then b
    else if a7 = 0 then b.endTask e g stOK 0 a0.toNat else b.endTask e g stAborted 3 0

/-- GENERAL_TASK_LIMIT (R278, R341): a task that has run longer than LIMIT ends with ABORTED and DETAIL 1. -/
def execGeneralTaskLimit (g : Nat) (s : State) : Out :=
  onUnit (decide (g < 8)) s fun e b =>
    let k := b.core g
    match k.task.bind fun c => tget b.quay.cmds c with
    | some x => match x.body with
      | .general t => whenB (decide (1000 * t.limit < k.ran + (e.now - k.since))) (fun b => b.endTask e g stAborted 1 0) b
      | _ => b
    | none => b

/-- GENERAL_TASK_TRAP (R278): an access outside its buffers ends a task with PROTECTION_FAULT, any other trap with ABORTED and DETAIL 2. -/
def execGeneralTaskTrap (g : Nat) (outside : Bool) (s : State) : Out :=
  onUnit (decide (g < 8)) s fun e b =>
    if (b.core g).resetStep.isSome then b
    else if outside then b.endTask e g stProtection 0 0 else b.endTask e g stAborted 2 0

/-- Save the task of a core (R341, R464): its registers go to the firmware save area, the core is scrubbed, and the task is a candidate again. -/
def Block.saveTask (b : Block) (e : Env) (g : Nat) : Block :=
  let b := b.chargeCore e g
  let k := b.core g
  match k.task with
  | none => b
  | some c => (b.modCmd c fun x => { x with ph := .saved, units := [], ready := false, task := some (k.pc, k.a0, k.sp, k.ran, k.regs) }).clearCore e g

/-- CORE_TIMESLICE (R341): after 10 ms a task gives way where a task of a slice with a smaller core virtual time waits. -/
def execCoreTimeslice (g : Nat) (s : State) : Out :=
  onUnit (decide (g < 8)) s fun e b =>
    let k := b.core g
    match k.task.bind fun c => tget b.quay.cmds c with
    | none => b
    | some x =>
      let b := b.markCores e
      let waits := b.coreCands.any fun y => y.2.slice ≠ x.slice && decide (b.coreNow e y.2.slice < b.coreNow e x.slice)
      whenB (decide (k.taken + 10000000 ≤ e.now) && waits && k.resetStep.isNone) (fun b => b.saveTask e g) b

end Sys2Proof.Machine
end

