-- ==== Sys2Proof/Machine/Faults.lean ====
section
/-! DEFINITION. Faults, hangs, resets and the Logbook: the meanings of R316, R471 to R491. -/

namespace Sys2Proof.Machine

open Sys2Proof

/-! ### Hangs (R471 to R473) -/

/-- HANG_SCAN (R471, R472). -/
def execHangScan (s : State) : Out := onBlk s fun e b => b.hangScan e

/-- Requests of a berth's two engines that wait for their answers. -/
def Block.engineBusy (b : Block) (n : Nat) : Bool :=
  let x := b.berth n
  (x.me0.any fun t => decide (b.outstanding n 0 t.serial ≠ 0)) || (x.me1.any fun t => decide (b.outstanding n 1 t.serial ≠ 0))

/-- Requests of FERRY commands that run on a borrowed berth. -/
def Block.ferryBusy (b : Block) (n : Nat) : Bool :=
  b.ports.out.any fun x => match x.2.who with
    | .ferry c _ => (((tget b.quay.cmds c).map (·.units)).getD []).contains n
    | _ => false

/-- A stream whose time without progress does not count: in fwait, bar or coll, or a MOVE's copies with no request issued (R473). -/
def Block.mayStand (b : Block) (n : Nat) (s : Stream) : Bool :=
  let copies := match tget b.quay.cmds s.job with
    | some x => match x.body with | .move _ => true | _ => false
    | none => false
  let waits := match s.wait with
    | some (.counter _ _) => true
    | some (.fence _ _) => true
    | some .bar => true
    | some .coll => true
    | _ => false
  if copies then !b.engineBusy n else waits

/-- A berth counts as hung after 50 ms without progress (R473). -/
def Block.berthHung (b : Block) (e : Env) (n : Nat) : Bool :=
  let st := b.bstate n
  let due := decide ((b.berth n).progress + 50000000 ≤ e.now) && (b.berth n).resetting.isNone
  due && (if st = bsCollective then b.engineBusy n || b.ferryBusy n
    else if st = bsScrubbing || st = bsRestoring then true
    else if st = bsRunning || st = bsToMoor || st = bsSaving then
      match (b.berth n).stream with
      | some s => !b.mayStand n s
      | none => false
    else false)

/-- A general core counts as hung (R473): a task, and no instruction retired for 50 ms. -/
def Block.coreHung (b : Block) (e : Env) (g : Nat) : Bool :=
  let k := b.core g
  k.task.isSome && k.resetStep.isNone && decide (k.progress + 50000000 ≤ e.now)

/-- PROGRESS_WATCHDOG (R473): the hung unit is counted, its Bell source raised, its reset started. -/
def execProgressWatchdog (berth : Bool) (n : Nat) (s : State) : Out :=
  onUnit (decide (n < if berth then 16 else 8)) s fun e b =>
    if berth then whenB (b.berthHung e n) (fun b => ((b.bump F.LB_HANG_WATCHDOG).raise (24 + n)).startReset e n (Config.resetTrigger 1) 1 none) b
    else whenB (b.coreHung e n) (fun b => ((b.bump F.LB_HANG_WATCHDOG).raise (40 + n)).startCoreReset e n (Config.resetTrigger 1)) b

/-! ### Resets (R474 to R476, R493) -/

/-- BERTH_RESET (R474, R475): trigger 2 is a teardown whose abort failed: it begins at step 2, and the torn-down context is no suspect. -/
def execBerthReset (n trigger : Nat) (s : State) : Out :=
  onUnit (decide (n < 16)) s fun e b =>
    let torn := ((b.berth n).stream.map fun s => s.ctx).bind fun k =>
      (tget b.quay.ctxs k).bind fun x => if x.st = .tearing then some k else none
    b.startReset e n (Config.resetTrigger trigger) (if trigger = 2 then 2 else 1) torn

/-- RESET_STEP (R475 to R477): a step of a berth's or a core's reset passes its check or fails it; the Harbourmaster carries the steps out. -/
def execResetStep (n : Nat) (pass : Bool) (s : State) : Out :=
  onUnit (decide (n < 24)) s fun e b =>
    if b.harbour.down then b else if n < 16 then b.stepReset e n pass else b.stepCore e (n - 16) pass

/-- CORE_RESET (R474, R476). -/
def execCoreReset (g : Nat) (s : State) : Out :=
  onUnit (decide (g < 8)) s fun e b => b.startCoreReset e g (Config.resetTrigger 0)

/-- HOLDER_ESCALATION (R316): a holder that has not acknowledged 3 µs after its notice: its berth or core is reset, and the Invalidation waits for that. The other holders acknowledge by construction. -/
def execHolderEscalation (h : Holder) (s : State) : Out :=
  onBlk s fun e b =>
    let late := b.pilot.invals.head?.any fun x => x.waiting.contains h && decide (x.since + 3000 ≤ e.now)
    let note (b : Block) : Block :=
      let b : Block := { b with pilot := { b.pilot with invals := match b.pilot.invals with | x :: l => { x with escalated := true } :: l | [] => [] } }
      (b.bump F.PL_INV_STAT_ESCALATED).raise 50
    match h with
    | .engine n _ => whenB (late && decide (n < 16) && (b.berth n).resetting.isNone) (fun b => (note b).startReset e n (Config.resetTrigger 4) 1 none) b
    | .core g => whenB (late && decide (g < 8) && (b.core g).resetStep.isNone) (fun b => (note b).startCoreReset e g (Config.resetTrigger 4)) b
    | _ => b

/-! ### Suspects (R479, R480) -/

/-- SUSPECT_TRIAL (R479): the suspects of a partition one at a time, in ascending context number; the one under trial is the partition's next dispatch. -/
def execSuspectTrial (k : Nat) (s : State) : Out :=
  onUnit (decide (k < 4096)) s fun _ b =>
    match b.quay.cmds.find? fun x => x.2.suspect = 1 && x.2.hdr.ctx = k with
    | none => b
    | some (c, x) =>
      let p := b.cmdPart x
      let others := b.quay.cmds.any fun y => b.cmdPart y.2 = p && (y.2.suspect = 2 || y.2.suspect = 1 && decide (y.2.hdr.ctx < k))
      if others then b else (b.modCmd c fun y => { y with suspect := 2 }).bump F.LB_HANG_REPLAYS

/-- SUSPECT_CLEARED (R480): it has run one QUANTUM since its dispatch without a further reset. -/
def execSuspectCleared (k : Nat) (s : State) : Out :=
  onUnit (decide (k < 4096)) s fun e b =>
    match b.quay.cmds.find? fun x => x.2.suspect = 2 && x.2.hdr.ctx = k with
    | none => b
    | some (_, x) =>
      if x.ph = .running ∧ x.since + 1000 * b.rd F.BW_SCHED_QUANTUM (b.cmdPart x) ≤ e.now then
        let b : Block := { b with quay := { b.quay with cmds := b.quay.cmds.map fun y => (y.1, if y.2.hdr.ctx = k then { y.2 with suspect := 0 } else y.2) } }
        b.clearSuspect e k
      else b

/-! ### Memory ports (R482) -/

/-- PORT_ISOLATED (R482): a request unanswered for 1 ms: the port is isolated, and its outstanding requests end with DATA_UNCORRECTABLE. -/
def execPortIsolated (p : Nat) (s : State) : Out :=
  onUnit (decide (p < 8)) s fun e b =>
    let mine := b.ports.out.filter fun x => x.2.port = p
    if b.ports.isolated.contains p || !(mine.any fun x => decide (x.2.since + 1000000 ≤ e.now)) then b
    else
      let b : Block := { b with ports := { b.ports with isolated := b.ports.isolated ++ [p], out := b.ports.out.filter fun x => x.2.port ≠ p } }
      let b := (b.failUnit e (.port p)).alarm e { code := 0x0052, kind := ukPort, idx := p }
      (sortBy (fun (x y : Nat × MemReq) => decide (x.2.failRank ≤ y.2.failRank)) mine).foldl (fun b (_, r) =>
        if 1024 ≤ r.slice then b else (b.inflightKey r.slice r.ctx false).memFailed e r stUncorrectable ukPort p r.addr) b

/-! ### Crash dumps (R380, R489) -/

/-- A dump has been written, or cannot be: a block reset that waited for it replies and follows (R478). -/
def Block.dumpOver (b : Block) (e : Env) (d : Dump) : Block :=
  if d.trigger = dtBlock then
    let b := b.resetReplies e 255
    { b with harbour := { b.harbour with resetOwed := true } }
  else b

/-- DUMP_WRITE (R380, R489, R478): with its programs ended on both channels, the dump at the front stands in its record; the next dump begins. -/
def execDumpWrite (s : State) : Out :=
  onBlk s fun e b =>
    let busy := [0, 1].any fun ch => (b.chan ch).ops.any fun o => match o with | .dump .. => true | _ => false
    match b.hold.dumpQueue with
    | [] => b
    | d :: l =>
      if !b.hold.dumpWriting || busy then b
      else
        let i := b.dumpSlot e
        let b : Block := { b with hold := { b.hold with dumps := tput b.hold.dumps i d, dumpQueue := l, dumpWriting := false } }
        let b := (((b.bumpWrap F.LB_DUMP_WRITTEN).wr F.LB_DUMP_LAST 0 i).syncMerge 0).startDump e
        b.dumpOver e d

/-- Dumps that wait while a channel of H0 is out of service are not written (R380, R489). -/
def Block.dropDumps (b : Block) (e : Env) : Block :=
  if b.dumpable e || b.hold.dumpQueue.isEmpty then b
  else
    let gone := b.hold.dumpQueue
    let b : Block := { b with hold := { b.hold with dumpQueue := [], dumpWriting := false } }
    let b := (b.bump F.LB_DUMP_NOT_WRITTEN 0 gone.length).wr F.LB_FLAGS_DUMP_SKIPPED 0 1
    gone.foldl (fun b d => b.dumpOver e d) b

/-! ### The Logbook's commands (R487 to R491) -/

/-- ALARM_IRQ is high (R69, R485). -/
def Block.alarmIrq (b : Block) : Bool := b.log.alarms.any fun a => a.unacked ≠ 0

/-- ALARM_NOTIFY (R487): a source's occurrences are told to the leaseholder at most once every NOTIFY_MS, with its latest record. -/
def execAlarmNotify (source : Nat) (s : State) : Out :=
  onBlk s fun e b =>
    match b.log.alarms[source]? with
    | none => b
    | some a =>
      let due := match a.notified with
        | some t => decide (t + 1000000 * b.rd F.LB_CTL_NOTIFY_MS ≤ e.now)
        | none => true
      if a.owed && due then
        let b : Block := { b with log := { b.log with alarms := b.log.alarms.set source { a with notified := some e.now, owed := false } } }
        b.notice e 0 0 0 (a.last.bytes.map fun x => x.toNat)
      else b

/-- The 192 bytes of an alarm entry (R485). -/
def Alarm.bytes (a : Alarm) (i : Nat) : List Byte :=
  leBytes 2 a.code ++ leBytes 2 (a.unitKind + 256 * a.unitIdx) ++ leBytes 2 i ++ leBytes 2 0 ++ leBytes 8 a.count ++ leBytes 8 a.unacked ++
  List.replicate 40 0 ++ a.first.bytes ++ a.last.bytes

/-- The records of a ring from a SEQ on; one below the oldest held means the oldest (R487). -/
def ringFrom (l : List LogRec) (first : Nat) : List LogRec :=
  match l with
  | [] => []
  | r :: _ => let d := (first + 2 ^ 32 - r.seq) % 2 ^ 32; if 2 ^ 31 ≤ d then l else l.drop d

/-- SEQ of the first record held, or of the next one. -/
def firstSeq (l : List LogRec) (next : Nat) : Nat := match l with | r :: _ => r.seq | [] => next % 2 ^ 32

/-- LOG_READ (R487, R491): records, or alarm entries, written to the host; reading events consumes them. -/
def execLogRead (m : Mgr) (cls first addr len : Nat) (s : State) : Out :=
  onBlk s fun e b => b.manager e m 0x0681 fun b =>
    if 2 < cls ∨ 0x4000000 < len then b.reply m 0x0681 rcBadArg
    else if cls = 0 then
      let l := ((List.zipIdx b.log.alarms).filter fun x => decide (first ≤ x.2)).take (len / 192)
      (if l.isEmpty then b else b.send (.untranslated addr (l.flatMap fun x => x.1.bytes x.2))).reply m 0x0681 rcDone [l.length, 0]
    else
      let ring := if cls = 1 then b.log.events else b.log.traces
      let l := (ringFrom ring first).take (len / 64)
      let b := if l.isEmpty then b else b.send (.untranslated addr (l.flatMap fun r => r.bytes))
      let b : Block := if cls = 1 ∧ ¬ l.isEmpty then
          { b with log := { b.log with events := (ringFrom ring first).drop (len / 64) } } else b
      let held := if cls = 1 then firstSeq b.log.events b.log.seqE else firstSeq b.log.traces b.log.seqT
      b.reply m 0x0681 rcDone [l.length, held]

/-- LOG_ACK (R488, R491): UNACKED of one source, or of all, becomes zero. -/
def execLogAck (m : Mgr) (source : Nat) (s : State) : Out :=
  onBlk s fun e b => b.manager e m 0x0682 fun b =>
    if source ≠ 0xFFFF ∧ b.log.alarms.length ≤ source then b.reply m 0x0682 rcBadArg
    else
      let b : Block := { b with log := { b.log with alarms := (List.zipIdx b.log.alarms).map fun x =>
        if source = 0xFFFF ∨ x.2 = source then { x.1 with unacked := 0 } else x.1 } }
      b.reply m 0x0682 rcDone

/-- LOG_ROUTE (R203, R487, R491): tracing of a slice, and its route to the debug trace port. -/
def execLogRoute (m : Mgr) (sl : Nat) (tracing port : Bool) (s : State) : Out :=
  onBlk s fun e b => b.manager e m 0x0683 fun b =>
    if !b.sliceExists sl then b.reply m 0x0683 rcBadArg
    else (b.modSlice sl fun x => { x with tracing := tracing, tracePort := port }).reply m 0x0683 rcDone

/-- LOG_DUMP (R489, R491): BUSY while two dumps are queued; without H0's channels no dump can be written. -/
def execLogDump (m : Mgr) (s : State) : Out :=
  onBlk s fun e b => b.manager e m 0x0684 fun b =>
    if 2 ≤ b.hold.dumpQueue.length then b.reply m 0x0684 rcBusy
    else if !b.dumpable e then (b.dumpTrigger e dtManager (unitWord ukHarbour 0) [] Snapshot.empty).reply m 0x0684 rcNoResource
    else (b.dumpTrigger e dtManager (unitWord ukHarbour 0) [] Snapshot.empty).reply m 0x0684 rcDone

/-- LOG_CONFIG (R491, R492): values outside their ranges are clamped, and the reply then says so. -/
def execLogConfig (m : Mgr) (evRate trRate notifyMs : Nat) (s : State) : Out :=
  onBlk s fun e b => b.manager e m 0x0685 fun b =>
    let ev := clampN 1 65535 evRate
    let tr := clampN 1 25000000 trRate
    let ms := clampN 1 10000 notifyMs
    let b := ((b.wr F.LB_CTL_EV_RATE 0 ev).wr F.LB_CTL_TR_RATE 0 tr).wr F.LB_CTL_NOTIFY_MS 0 ms
    if ev = evRate ∧ tr = trRate ∧ ms = notifyMs then b.reply m 0x0685 rcDone else b.reply m 0x0685 rcClamped [ev, tr, ms]

end Sys2Proof.Machine
end

