-- ==== Sys2Proof/Machine/ImageCode.lean ====
section
/-! DEFINITION. The bytes of a configuration image and of the identity seed (R417, R448 to R450): CRC-32, the header and its checks, the directory, the field records. -/

namespace Sys2Proof.Machine

open Sys2Proof

/-! ### CRC-32 (R417, R448) -/

/-- One bit of the CRC-32 division, reflected. -/
def crc32Bit (c : Nat) : Nat := if c % 2 = 1 then (c / 2) ^^^ 0xEDB88320 else c / 2

/-- Eight bits of the CRC-32 division. -/
def crc32Byte (c : Nat) (x : Byte) : Nat :=
  crc32Bit (crc32Bit (crc32Bit (crc32Bit (crc32Bit (crc32Bit (crc32Bit (crc32Bit (c ^^^ x.toNat))))))))

/-- CRC-32 of R448: initial value 0xFFFF_FFFF, reflected input and output, final inversion. -/
def crc32 (d : List Byte) : Nat := d.foldl crc32Byte 0xFFFFFFFF ^^^ 0xFFFFFFFF

/-- SEED_CRC matches SEED, taken as 32 bytes from its low end (R417, log 3). -/
def Fuses.seedOk (f : Fuses) : Bool := crc32 (leBytes 32 f.seed.toNat) = f.seedCrc

end Sys2Proof.Machine

namespace Sys2Proof

open Sys2Proof.Machine

/-! ### The image (R448 to R450) -/

/-- n bytes of an image from an offset; a byte it was not given reads 0xFF (log 103). -/
def CfgImage.piece (x : CfgImage) (off n : Nat) : List Byte :=
  let d := (x.bytes.drop off).take n
  d ++ List.replicate (n - d.length) 0xFF

/-- The little-endian number at an offset. -/
def CfgImage.num (x : CfgImage) (off n : Nat) : Nat := ofLeBytes (x.piece off n)

/-- The header's fields (R448). -/
def CfgImage.seq (x : CfgImage) : Nat := x.num 8 8
def CfgImage.length (x : CfgImage) : Nat := x.num 16 4
def CfgImage.count (x : CfgImage) : Nat := x.num 20 2

/-- What HCRC covers: bytes 0 to 59 and the whole directory. -/
def CfgImage.covered (x : CfgImage) : List Byte := x.piece 0 60 ++ x.piece 64 (16 * x.count)

/-- A directory entry: SECTION, OFFSET, SLEN, SCRC (R448). -/
def CfgImage.entry (x : CfgImage) (i : Nat) : Nat × Nat × Nat × Nat :=
  (x.num (64 + 16 * i) 1, x.num (68 + 16 * i) 4, x.num (72 + 16 * i) 4, x.num (76 + 16 * i) 4)

/-- The checks of a header in the order of HDR_A (R450, R453): 0 valid, 1 bad MAGIC or FORMAT, 2 bad LENGTH or directory, 3 bad HCRC. An entry lies within LENGTH when it and its section do (log 103). -/
def CfgImage.hdr (x : CfgImage) : Nat :=
  let inside := decide (64 + 16 * x.count ≤ x.length) && (List.range (min x.count 64)).all fun i =>
    let (_, off, len, _) := x.entry i
    decide (off + len ≤ x.length)
  if x.piece 0 8 ≠ [0x54, 0x58, 0x43, 0x46, 1, 0, 0, 0] then 1
  else if x.length < 128 ∨ 0x1000000 < x.length ∨ x.count = 0 ∨ 64 < x.count ∨ !inside then 2
  else if crc32 x.covered ≠ x.num 60 4 then 3
  else 0

/-- The field records of a section, up to the one that ends the list (R449); an integer is given as two's complement, read as signed where its field is signed. -/
def CfgImage.records (x : CfgImage) (signed : Nat → Bool) (base : Nat) : (n : Nat) → Nat → List CfgField
  | 0, _ => []
  | n + 1, off =>
    let id := x.num off 2
    if id = 0 then []
    else
      let v := x.num (off + 8) 8
      let f : CfgField :=
        if x.num (off + 2) 1 = 1 then ⟨id, some (x.piece (base + v) (min (x.num (off + 4) 4) 0x1000000)), 0⟩
        else ⟨id, none, if signed id then (BitVec.ofNat 64 v).toInt else v⟩
      f :: x.records signed base n (off + 16)

/-- A section: its ID, whether SCRC matches, its records (R448, R449). -/
def CfgImage.section_ (x : CfgImage) (signed : Nat → Bool) (i : Nat) : CfgSection :=
  let (id, off, len, crc) := x.entry i
  ⟨id, crc32 (x.piece off len) = crc, x.records signed off (len / 16) off⟩

/-- The sections in directory order. -/
def CfgImage.sections (x : CfgImage) (signed : Nat → Bool) : List CfgSection := (List.range (min x.count 64)).map (x.section_ signed)

/-- Every SCRC matches (R465). -/
def CfgImage.crcsOk (x : CfgImage) : Bool := (x.sections fun _ => false).all fun s => s.crcOk

/-- The image with another SEQ, and HCRC again over the header (R465). -/
def CfgImage.withSeq (x : CfgImage) (n : Nat) : CfgImage :=
  let y : CfgImage := ⟨x.piece 0 8 ++ leBytes 8 n ++ x.bytes.drop 16⟩
  ⟨y.piece 0 60 ++ leBytes 4 (crc32 y.covered) ++ y.bytes.drop 64⟩

end Sys2Proof
end

