-- ==== Sys2Proof/Machine/LinkOps.lean ====
section
/-! DEFINITION. The links' shared operations (R387 to R394): states, retraining, lanes due for replacement. -/

namespace Sys2Proof.Machine

open Sys2Proof

/-- States of FE_LINK_l (R388). -/
def lkDown : Nat := 0
def lkTraining : Nat := 1
def lkUp : Nat := 2
def lkIdle : Nat := 3
def lkExiting : Nat := 4

/-- A link's STATE. -/
def Block.lstate (b : Block) (l : Nat) : Nat := b.rd F.FE_LINK_STATE l

/-- Change a lane of a link. -/
def Block.modLane (b : Block) (l n : Nat) (f : Lane → Lane) : Block :=
  b.modLink l fun x => x.modLane n f

/-- Send a link-control field: 0 IDLE, 1 SWAP_REQ, 2 SWAP_GO, with lane and comma count (R386). -/
def Block.sendLctl (b : Block) (e : Env) (l kind lane at_ : Nat) : Block :=
  (b.newFlit e l true (2 ^ kind + 8 * lane) at_ []).modLink l fun x => { x with lctl := x.lctl ++ [(kind, lane, at_)] }

/-- A direction that starts, after training or idle, sends some commas on its transmit lanes, from which its comma counts run on (R385, R390), and then what waited. -/
def Block.startLanes (b : Block) (e : Env) (l : Nat) (commas : Lane → List Nat) : Block :=
  let waiting := (b.link l).unsent
  let b := b.modLink l fun x =>
    let start (n : Nat) (y : Lane) : Lane := (commas y).foldl (fun y c => y.sendComma n c) { y with part := (0, 0), slots := 0 }
    { x.order.foldl (fun x n => x.modLane n (start n)) x with commaAt := e.now, unsent := [] }
  waiting.foldl (fun b f => b.putFlit e l f) b

/-- A direction leaves idle (R390): one comma, or two after an idle period of more than 100 us, and then what waited. -/
def Block.leaveIdle (b : Block) (e : Env) (l : Nat) : Block :=
  let long := decide ((b.link l).idleAt + 100000 < e.now)
  let b := b.modLink l fun x => { x with idleSent := false, txIdle := false, chunkWaits := false }
  b.startLanes e l fun y => if long then [y.txCount + 1, y.txCount + 2] else [y.txCount + 1]

/-- The receiver's own direction leaves idle when the other one sends (R390). -/
def Block.wakeTx (b : Block) (e : Env) (l : Nat) : Block := if (b.link l).txIdle then b.leaveIdle e l else b

/-- A discarded codeword or flit is answered with NAK, in a flit sent for it (R387). -/
def Block.sendNak (b : Block) (e : Env) (l : Nat) : Block :=
  ((b.modLink l fun x => { x with nakOwed := true }).wakeTx e l).newFlit e l true 0 0 []

/-- The index of FE_LANE_l_n. -/
def laneIdx (l n : Nat) : Nat := 9 * l + n

/-- A link retrains (R387, R389, R394): replaced lanes come back into service when it has trained (R393); source 53 is raised (R495). -/
def Block.retrain (b : Block) (l : Nat) : Block :=
  ((b.raise 53).wr F.FE_LINK_STATE l lkTraining).modLink l fun x =>
    { x with swap := none, replaysOf := (0, 0), nakOwed := false, idleSent := false, idleSeq := none, peerIdle := false, txIdle := false, chunkWaits := false }

/-- In stage S4, once L1 has trained or failed, L0 is retrained to full rate (R388, R460). -/
def Block.raiseL0 (b : Block) (l : Nat) : Block :=
  if l = 1 && b.harbour.stage == some 3 && (b.link 0).startHalf then (b.modLink 0 fun x => { x with startHalf := false }).retrain 0 else b

/-- The spare lane can be used: not in service, its own last scan met both thresholds (R392). -/
def Block.spareReady (b : Block) (l : Nat) : Bool := b.rd F.FE_LINK_SPARE_USED l = 0 && ((b.link l).lane 8).good

/-- Symbols corrected on a lane in the last second. -/
def Lane.symsIn (x : Lane) (now : Nat) : Nat := (x.syms.filter fun y => decide (now < y.1 + 1000000000)).foldl (fun n y => n + y.2) 0

/-- An active lane is due for replacement (R392). -/
def Block.laneDue (b : Block) (e : Env) (l n : Nat) : Bool :=
  let x := (b.link l).lane n
  x.active && (decide (2 ≤ x.lowScans) || decide (1000000 < x.symsIn e.now))

/-- A lane that is due where the spare cannot be used: the link retrains at width 4 (R394). -/
def Block.narrowIfDue (b : Block) (e : Env) (l n : Nat) : Block :=
  if b.laneDue e l n && (b.link l).swap.isNone && !b.spareReady l then
    ((b.retrain l).wr F.FE_LINK_WIDTH l 1).alarm e { code := 0x0030, kind := ukLink, idx := l, data := [n] }
  else b

/-- A lane's margin: width, then height. -/
def Block.margin (b : Block) (l n : Nat) : Nat := 256 * b.rd F.FE_LANE_EYE_W (laneIdx l n) + b.rd F.FE_LANE_EYE_H (laneIdx l n)

/-- The lane whose scan ends next: the active lanes and the spare in rotation, but those retired or in a swap (R391, R393, R414). -/
def Block.scanLane (b : Block) (l : Nat) : Option Nat :=
  let x := b.link l
  let inSwap (n : Nat) : Bool := match x.swap with | some w => w.lane = n || n = 8 | none => false
  let ok := (List.range 9).filter fun n => ((x.lane n).active || n = 8) && !inSwap n && b.rd F.FE_LANE_RETIRED (laneIdx l n) = 0
  (ok.find? fun n => decide (x.scanFrom ≤ n)).or ok.head?

/-- The four lanes of 0 to 8 with the largest margins, lower lanes first on ties (R394). -/
def Block.bestLanes (b : Block) (l : Nat) : List Nat :=
  (sortBy (fun x y => decide (b.margin l y ≤ b.margin l x)) (List.range 9)).take 4

/-- Flits kept after a sequence: what its acknowledgement leaves. -/
def afterAck (kept : List Nat) (ack : Nat) : List Nat :=
  if kept.contains ack then (kept.dropWhile (· ≠ ack)).drop 1 else kept

end Sys2Proof.Machine
end

