-- ==== Sys2Proof/Machine/BootOps.lean ====
section
/-! DEFINITION. Boot and configuration (R400, R417 to R423, R450 to R460): the choice of a bundle, the fields of the configuration image, what a reset leaves, the opening of units. -/

namespace Sys2Proof

/-! ### Bundles (R421) -/

/-- The ROM accepts a header. -/
def Bundle.accepted (x : Bundle) (f : Machine.Fuses) : Bool :=
  x.magicOk && x.fits && x.keyDigestOk && decide (x.keyIndex < 4) && !f.revoke.testBit x.keyIndex && x.sigOk &&
  decide (f.svnHm ≤ x.svnHm ∧ f.svnCore ≤ x.svnCore ∧ f.svnUcode ≤ x.svnUcode)

/-- The bytes of a report entry (R453). -/
def i64Bytes (v : Int) : List Byte := Machine.leBytes 8 (v % 2 ^ 64).toNat

end Sys2Proof

namespace Sys2Proof.Machine

open Sys2Proof

/-- The bundle in a slot: false A, true B. -/
def Harbour.bundle (h : Harbour) (b : Bool) : Option Bundle := if b then h.bundleB else h.bundleA

/-- Put a bundle into a slot. -/
def Harbour.setBundle (h : Harbour) (b : Bool) (x : Option Bundle) : Harbour := if b then { h with bundleB := x } else { h with bundleA := x }

/-- The slots whose headers the ROM accepts, in the order it tries them: the larger SEQ first, A on a tie (R421). -/
def Harbour.bootOrder (h : Harbour) (f : Fuses) : List (Bool × Bundle) :=
  let a := (h.bundleA.filter fun x => x.accepted f).toList.map fun x => (false, x)
  let b := (h.bundleB.filter fun x => x.accepted f).toList.map fun x => (true, x)
  match a, b with
  | [(_, x)], [(_, y)] => if x.seq < y.seq then b ++ a else a ++ b
  | _, _ => a ++ b

/-- The bundle the ROM boots: the first whose Harbourmaster firmware matches its digest (R421). -/
def Harbour.bootChoice (h : Harbour) (f : Fuses) : Option (Bool × Bundle) := (h.bootOrder f).find? fun x => x.2.hmDigestOk

/-- The bundle booted. -/
def Harbour.running? (h : Harbour) : Option Bundle := h.booted.bind h.bundle

/-- Lifecycle of R417: 3 for RETURNED. -/
def Fuses.stage (f : Fuses) : Nat := min f.lifecycle 3

/-- HMAC-SHA-384 (R419). -/
def hmac384 (key msg : List Byte) : List Byte :=
  let h (pad : Byte) (m : List Byte) : List Byte := leBytes 48 (Config.sha384 ((padTo 128 key).map (· ^^^ pad) ++ m)).toNat
  h 0x5C (h 0x36 msg)

/-- Key derivation in counter mode with HMAC-SHA-384 (R419; the widths of SP 800-108's fields are log 101's): n blocks of 48 bytes. -/
def deriveKey (n : Nat) (key label context : List Byte) : List Byte :=
  let be32 (v : Nat) : List Byte := (leBytes 4 v).reverse
  (List.range n).flatMap fun i => hmac384 key (be32 (i + 1) ++ label ++ [0] ++ context ++ be32 (384 * n))

/-- The bytes of a label. -/
def ascii (s : String) : List Byte := s.toList.map fun c => BitVec.ofNat 8 c.toNat

/-- A signature's 96 bytes. -/
def sign96 (key msg : List Byte) : List Byte := (padTo 96 (Config.p384Sign key msg)).take 96

/-- The ROM derives DeviceID, Alias for the firmware about to run, and the storage key from SEED, and signs Alias' certificate (R419, R430); in RETURNED it never reads SEED (R418). -/
def Block.romDerive (b : Block) (e : Env) (firmware : BitVec 384) : Block :=
  if e.fuses.stage = 3 then b
  else
    let seed := leBytes 32 e.fuses.seed.toNat
    let device := deriveKey 1 seed (ascii "TX-DEVICEID") []
    let alias_ := deriveKey 1 seed (ascii "TX-ALIAS") (leBytes 48 firmware.toNat)
    let body := Config.certBody (Config.p384Public alias_)
    { b with
      ports := { b.ports with storageKey := deriveKey 2 seed (ascii "TX-STORAGE") (leBytes 2 e.fuses.svnHm) }
      harbour := { b.harbour with dice := ⟨Config.p384Public device, Config.p384Public alias_, alias_, body ++ sign96 device body, seed ++ device⟩ } }

/-- The ROM erases its working memory before it jumps to firmware (R419). -/
def Block.romErase (b : Block) : Block := { b with harbour := { b.harbour with dice := { b.harbour.dice with romWork := [] } } }

/-- Stage S0 (R417 to R421, R456, R462): a block whose seed or lifecycle forbids it stays CLOSED; with no bundle the ROM offers recovery. -/
def Block.runS0 (b : Block) (e : Env) : Block :=
  if e.fuses.stage = 0 || (e.fuses.stage ≠ 3 && !e.fuses.seedOk) then b
  else match b.harbour.bootChoice e.fuses with
    | none => { b with harbour := { b.harbour with recovering := true } }
    | some (slot, x) =>
      let (d, b) := b.draw
      let b := (b.romDerive e x.hmDigest).romErase
      { b with
        ports := { b.ports with internalKey := d + 1 }
        harbour := { b.harbour with
          booted := some slot, svnHm := x.svnHm, svnCore := x.svnCore, svnUcode := x.svnUcode, stage := some 0
          hmDigest := x.hmDigest, coreDigest := x.coreDigest, ucodeDigest := x.ucodeDigest }
        watch := { b.watch with kicked := e.now, warned := false, wdogStopped := false } }

/-- After a reset the ROM runs S0 as soon as its domains are on (R79, R80, R456). -/
def Block.startRom (b : Block) (e : Env) : Block :=
  if b.baseUp then { b with power := { b.power with romWaits := false } }.runS0 e else { b with power := { b.power with romWaits := true } }

/-! ### Reset (R70, R402, R428, R433, R478) -/

/-- A reset interrupted the program of a stack's notice page, or that program failed (R370). -/
def Block.noticeTorn (b : Block) (h : Nat) : Bool :=
  (b.stack h).noticeTorn || [2 * h, 2 * h + 1].any fun ch => match (b.chan ch).ops with
    | .notice _ :: _ => true
    | _ => false

/-- What a Hold stack keeps when the block is reset: what its device holds (R356, R369, R370). -/
def Block.keptStack (b : Block) (hours h : Nat) (x : Stack) : Stack :=
  let lost : List MergeWrite := [⟨0xFFFFFFFF, 0xFFFFFFFF, 0, [], []⟩]
  { Stack.reset with serial := x.serial, hours := hours, notice := if b.noticeTorn h then lost else x.notice.map fun n => { n with jobs := [], pieces := [] } }

/-- What a Hold channel keeps; units still to be erased, and those programmed for a change that no commit has made visible, are erased afterwards (R369). -/
def Channel.kept (c : Channel) (unreferenced : List Nat) : Channel := { Channel.reset with
  ops := (c.ops.filter fun o => match o with | .erase _ => true | _ => false) ++ unreferenced.map HoldOp.erase
  erases := c.erases, bad := c.bad, free := c.free, spares := c.spares, units := c.units, peRated := c.peRated, planes := c.planes, reserved := c.reserved, fails := c.fails
  journal := c.journal, reloc := c.reloc, noticeUnit := c.noticeUnit, relocAt := c.relocAt, overUnits := c.overUnits, overAt := c.overAt, used := c.used }

/-- Units of a channel that a change not yet committed has been written to, but the relocation unit in use. -/
def Block.uncommitted (b : Block) (ch : Nat) : List Nat :=
  (b.pendingOf (ch / 2)).filterMap fun c => match c with
    | .unit k _ new => if k = ch && !(b.chan ch).reloc.contains new then some new else none
    | .remap .. => none
    | .slot .. => none

/-- What the Hold keeps: objects, dumps, repairs, the epoch record, its stacks' contents; the PWR_WARN_N pin is as it is. -/
def Block.keptHold (b : Block) (hours : Nat → Nat) : Hold :=
  { Hold.reset with
      objs := b.hold.objs.map fun x => (x.1, { x.2 with treeSeen := [] }), gens := b.hold.gens, dumps := b.hold.dumps, repairs := b.hold.repairs, epochRecord := b.hold.epochRecord
      powerWarn := b.hold.powerWarn
      chans := b.hold.chans.map fun x => (x.1, x.2.kept (b.uncommitted x.1))
      stks := b.hold.stks.map fun x => (x.1, b.keptStack (hours x.1) x.1 x.2) }

/-- What the configuration memory keeps. -/
def Harbour.kept (h : Harbour) : Harbour := { Harbour.reset with bundleA := h.bundleA, bundleB := h.bundleB, imageA := h.imageA, imageB := h.imageB }

/-- The remap entries of the Hold lie in the stacks' journals, and outlive a reset (R364, R369). -/
def Block.keptRegs (b : Block) (wk : Bool) : Table Word :=
  b.regs.filter fun x => (RegKind.hdRemap.index? x.1).isSome || (wk && decide (0xB00000 ≤ x.1 % 2 ^ 32 ∧ x.1 % 2 ^ 32 < 0xB80000))

/-- The block a power-on reset leaves, before S0 (R70, R72): the stacks' powered hours add up (R359), the domains that hold no berth and no core are switched on (R79). -/
def Block.afterPorst (b : Block) (e : Env) : Block :=
  let b' : Block := { Block.reset with
    regs := b.keptRegs false, hold := b.keptHold (b.hoursOf e), harbour := b.harbour.kept
    ports := { Ports.reset with draws := b.ports.draws }, power := { Power.reset with pdGood := b.power.pdGood } }
  b'.powerUp

/-- The block a warm reset leaves, before S0 (R70): Watchkeeper and what it holds stand; out of DROWSE or ANCHOR the block is ACTIVE, and its domains 24 to 33 are switched on where they are off (R79, R80, R512). -/
def Block.afterWarm (b : Block) (e : Env) : Block :=
  let b' : Block := { Block.reset with
    regs := b.keptRegs true, hold := { b.keptHold (fun h => (b.stack h).hours) with dumpCount := b.hold.dumpCount }, watch := b.watch, power := { b.power with wrstWaiting := false }
    harbour := { b.harbour.kept with released := e.now, cold := false }
    ports := { Ports.reset with draws := b.ports.draws } }
  (b'.wr F.WK_STATE_STATE 0 wkActive).powerUp

/-! ### Configuration fields (R451, R452) -/

/-- A field of the release: integer bounds, multiple and default, or a blob's bounds. -/
inductive FieldDef where
  | int (lo hi mult dflt : Int)
  | blob (lo hi : Nat)
  deriving DecidableEq, Repr

/-- A run of n fields of one kind, from an ID on. -/
def fieldRun (id n : Nat) (d : FieldDef) : List (Nat × FieldDef) := (List.range n).map fun i => (id + i, d)

/-- The fields of the release, with their IDs, in ascending order. -/
def cfgFields : List (Nat × FieldDef) := List.flatten
  [ fieldRun 0x0101 1 (.int 0 511 1 0), fieldRun 0x0102 1 (.blob 1 8192), fieldRun 0x0201 4 (.blob 48 48), fieldRun 0x0301 1 (.int 0 1 1 0),
    fieldRun 0x0302 1 (.int 0 256 1 64), fieldRun 0x0310 8 (.int 1 64 1 64), fieldRun 0x0401 1 (.int 4 64 1 16), fieldRun 0x0402 1 (.int 1 63 1 24),
    fieldRun 0x0403 1 (.int 1 65535 1 2190), fieldRun 0x0501 1 (.int 10 100000 10 1000), fieldRun 0x0502 1 (.int 1 60000 1 20),
    fieldRun 0x0503 1 (.int 0 1000 1 2), fieldRun 0x0601 1 (.int 0 100 1 20), fieldRun 0x0602 1 (.int 100 65000 100 2000),
    fieldRun 0x0700 48 (.int (-64) 63 1 0), fieldRun 0x0740 16 (.int (-32) 31 1 0) ]

/-- A field of the release by its ID. -/
def fieldDef (id : Nat) : Option FieldDef := (cfgFields.find? fun x => x.1 = id).map (·.2)

/-- The capacity field of a memory port that is not connected (R452). -/
def skipField (e : Env) (id : Nat) : Bool := decide (0x0310 ≤ id ∧ id < 0x0318) && !e.memConnected (id - 0x0310)

/-- A multiple of m from v, rounded down, or up where that would fall below lo (R451). -/
def toMultiple (v m lo : Int) : Int := let d := v / m * m; if d < lo then d + m else d

/-- Clamp reasons of R453. -/
def crBelow : Nat := 1
def crAbove : Nat := 2
def crMultiple : Nat := 3
def crUnknown : Nat := 4
def crMissing : Nat := 5

/-- The state of an application: what is applied, the decisions, latest first. -/
structure CfgRun where
  ints : List (Nat × Int)
  blobs : List (Nat × List Byte)
  log : List ClampEntry

/-- A field has been applied. -/
def CfgRun.has (r : CfgRun) (id : Nat) : Bool := (r.ints.any fun x => x.1 = id) || r.blobs.any fun x => x.1 = id

/-- Record a decision. -/
def CfgRun.note (r : CfgRun) (id reason : Nat) (bad : Bool) (given applied : Int) : CfgRun :=
  { r with log := ⟨id, reason, bad, given, applied⟩ :: r.log }

/-- What an integer record gives: the value applied, and the reason if it is not the one given. -/
def clampInt (lo hi mult v : Int) : Int × Option Nat :=
  if v < lo then (lo, some crBelow)
  else if hi < v then (hi, some crAbove)
  else if v % mult ≠ 0 then (toMultiple v mult lo, some crMultiple)
  else (v, none)

/-- Apply one record (R451 steps 1 to 3). -/
def CfgRun.field (e : Env) (r : CfgRun) (x : CfgField) : CfgRun :=
  let given : Int := match x.blob with | some d => (d.length : Int) | none => x.value
  if skipField e x.id then r
  else match fieldDef x.id with
    | none => r.note x.id crUnknown false given 0
    | some d =>
      if r.has x.id then r.note x.id crUnknown false given 0
      else match d with
        | .int lo hi mult _ =>
          let (v, why) := clampInt lo hi mult x.value
          let r := { r with ints := r.ints ++ [(x.id, v)] }
          match why with
          | some w => r.note x.id w false x.value v
          | none => r
        | .blob lo hi =>
          let data := x.blob.getD []
          if data.length < lo then r.note x.id crBelow false data.length 0
          else if hi < data.length then r.note x.id crAbove false data.length 0
          else { r with blobs := r.blobs ++ [(x.id, data)] }

/-- The sections that are applied: each ID once, from its first entry (R450). -/
def firstSections : List CfgSection → List Nat → List CfgSection
  | [], _ => []
  | x :: l, seen => if seen.contains x.id then firstSections l seen else x :: firstSections l (x.id :: seen)

/-- A field holds signed values: its MIN is negative (R449, R452). -/
def fieldSigned (id : Nat) : Bool := match fieldDef id with | some (.int lo _ _ _) => decide (lo < 0) | _ => false

/-- Apply an image, or none of it under factory defaults: its records, then the defaults of what it does not give (R450, R451). -/
def applyImage (e : Env) (img : Option CfgImage) : CfgRun × List Nat :=
  let secs := firstSections ((img.map (·.sections fieldSigned)).getD []) []
  let bad := (secs.filter fun s => !s.crcOk).map (·.id)
  let r := (secs.filter fun s => s.crcOk).foldl (fun r s => s.fields.foldl (CfgRun.field e) r) ⟨[], [], []⟩
  let r := cfgFields.foldl (fun r (id, d) =>
    if r.has id || (r.log.any fun x => x.field = id ∧ (x.reason = crBelow ∨ x.reason = crAbove)) then r
    else
      let flag := bad.contains (id / 256)
      match d with
      | .int _ _ _ dflt =>
        if skipField e id then { r with ints := r.ints ++ [(id, 0)] }
        else { r with ints := r.ints ++ [(id, dflt)] }.note id crMissing flag 0 dflt
      | .blob _ _ => r.note id crMissing flag 0 0) r
  (r, bad)

/-- The image chosen (R450): the valid one with the larger SEQ, A on a tie; its source code. -/
def Harbour.chooseImage (h : Harbour) : Nat × Option CfgImage :=
  let a := h.imageA.filter fun x => x.hdr = 0
  let b := h.imageB.filter fun x => x.hdr = 0
  match a, b with
  | some x, some y => if x.seq < y.seq then (1, b) else (0, a)
  | some _, none => (0, a)
  | none, some _ => (1, b)
  | none, none => (2, none)

/-- Stage S1's reading of the configuration (R450 to R455): what is applied and the report of it. -/
def Block.applyConfig (b : Block) (e : Env) : Block :=
  let (src, img) := if e.fuses.stage = 3 then (2, none) else b.harbour.chooseImage
  let (r, bad) := applyImage e img
  let log := r.log.reverse
  let hdr (x : Option CfgImage) : Nat := (x.map (·.hdr)).getD 1
  let rep : ClampReport := ⟨src, hdr b.harbour.imageA, hdr b.harbour.imageB, min bad.length 255, (img.map (·.seq)).getD 0, log.take 256, min (log.length - 256) 0xFFFF⟩
  let b : Block := { b with harbour := { b.harbour with cfg := ⟨r.ints, r.blobs⟩, report := rep } }
  let v (id : Nat) : Nat := b.cfgInt id 0
  let b := ((((b.wr F.FE_ID_BLOCK_ID 0 (v 0x0101)).wr F.BW_MODE_MODE 0 (v 0x0301)).wr F.BW_SAVE_SLOTS 0 (v 0x0302)).wr F.HD_CTL_RETAIN_H 0 (v 0x0403))
  let b := (List.range 8).foldl (fun b h => (b.wr F.HD_STACK_STRENGTH h (v 0x0401)).wr F.HD_STACK_RELOC h (v 0x0402)) b
  let b := (b.wr F.FE_CTL_REMOTE_TO 0 (v 0x0501)).wr F.FY_CTL_COLL_TO 0 (v 0x0502)
  let b := (List.range 2).foldl (fun b l => b.wr F.FE_LINK_IDLE_US l (v 0x0503)) b
  (List.range 16).foldl (fun b n => (b.wr F.BT_CTL_HORIZON n (v 0x0601)).wr F.BW_SCHED_QUANTUM n (v 0x0602)) b

/-- Start-up ends with S3 (R455): factory defaults were applied. -/
def Block.factory (b : Block) : Bool := b.harbour.report.source = 2

/-! ### Opening units (R345, R433, R458 to R460) -/

/-- Assign a granule (R320). -/
def Block.setGranule (b : Block) (g v : Nat) : Block :=
  let old := (b.reg .plGranule (g / 4)).toNat
  let sh := 2 ^ (16 * (g % 4))
  b.setReg .plGranule (g / 4) (BitVec.ofNat 64 (old - old / sh % 65536 * sh + v * sh))

/-- A memory port opens (R345, R433): the MAC region is clear, the firmware reserve is assigned. -/
def Block.openPort (b : Block) (e : Env) (p : Nat) : Block :=
  if b.ports.opened.contains p then b
  else
    let lo := b.reserveFirst e p
    let b := (List.range (b.dataTop p - lo)).foldl (fun b i => b.setGranule (lo + i) (0x8000 + 0x3FF)) b
    { b with ports := { b.ports with opened := b.ports.opened ++ [p] }, harbour := { b.harbour with openUnits := b.harbour.openUnits ++ [.port p] } }

/-- A port is opened once its controller is ready and the stage that opens it has begun: M0 and M1 in S3, the others in S4. -/
def Block.openPorts (b : Block) (e : Env) : Block :=
  e.memPorts.foldl (fun b p =>
    let due := match b.harbour.stage with | some st => decide ((if p < 2 then 2 else 3) ≤ st) | none => false
    if due && b.ports.ready.contains p && !b.harbour.failed.contains (.port p) && !(p ≥ 2 && (b.factory || e.fuses.stage = 3)) then b.openPort e p else b) b

/-- A unit named twice is listed once. -/
def Block.markOpen (b : Block) (u : OpenUnit) : Block :=
  if b.harbour.openUnits.contains u then b else { b with harbour := { b.harbour with openUnits := b.harbour.openUnits ++ [u] } }

/-- A stack opens (R356, R369, R370): its journal replayed, the writes its notice page lists reported as not stored. -/
def Block.openStack (b : Block) (e : Env) (h : Nat) : Block :=
  if b.harbour.failed.contains (.stack h) then b
  else
    let b := (b.stack h).notice.foldl (fun b w => b.event e { code := 0x1005, kind := ukStack, idx := h, data := [w.handle, w.slot] }) b
    let b := b.bump F.HD_MERGE_NOT_STORED 0 (b.stack h).notice.length
    let b := (b.modStack h fun x => { x with notice := [], lapSince := e.now }).wr F.HD_STACK_STATE h hsReady
    let b := b.wr F.HD_LIFE_RETIRED h (min 0xFFFF ((b.chan (2 * h)).bad.length + (b.chan (2 * h + 1)).bad.length))
    ((b.countSpares e h).countWear e h).markOpen (.stack h)

/-- A channel that starts is sent RESET and IDENT (R59), before the erases it has still to do. -/
def Channel.begin (c : Channel) (now : Nat) : Channel := { c with ops := [.reset, .ident] ++ c.ops, opAt := now }

/-- A stack that opens reads INIT, with every slot decoded at t = 64 (R363, R458); its channels start. -/
def Block.initStack (b : Block) (e : Env) (h : Nat) : Block :=
  if e.ties.holdMask.testBit h && !b.harbour.failed.contains (.stack h) then
    let b := (b.wr F.HD_STACK_STATE h hsInit).wr F.HD_STACK_FULL_DECODE h 1
    [2 * h, 2 * h + 1].foldl (fun b ch => b.modChan ch fun c => c.begin e.now) b
  else b

/-- A RESET or IDENT of a stack's start is still to end. -/
def Block.starting (b : Block) (h : Nat) : Bool := [2 * h, 2 * h + 1].any fun ch => (b.chan ch).ops.any fun o => o = .reset || o = .ident

/-- A berth opens after its test (R458, R460): IDLE, its repairs written back (R158); S3's at operating point 7. -/
def Block.openBerth (b : Block) (e : Env) (n : Nat) : Block :=
  if b.domUp n && !b.harbour.failed.contains (.berth n) && !(b.berth n).opened then
    let b := (b.setBstate e n bsIdle).wr F.BT_CLOCK_OPP n 7
    ((b.modBerth n fun x => { x with opened := true, idleSince := e.now, newUcode := false }).putRepairs n).markOpen (.berth n)
  else b

/-- Whether a unit of S3 or S4 can be opened now. -/
def Block.unitReady (b : Block) (e : Env) (u : OpenUnit) : Bool :=
  match u with
  | .berth n => b.domUp n
  | .core g => (b.core g).on
  | .port p => !e.memConnected p || b.ports.opened.contains p
  | .stack h => !b.starting h
  | .link l => b.linkUp l
  | .channel _ => true

/-- A unit is ready, or failed and passed over. -/
def Block.unitSettled (b : Block) (e : Env) (u : OpenUnit) : Bool := b.unitReady e u || b.harbour.failed.contains u

/-- The units without which the block stays CLOSED: M0, M1 and the channels of H0 (R3, R459). -/
def vitalUnits : List OpenUnit := [.port 0, .port 1, .stack 0, .channel 0, .channel 1]

/-- The other units of S3 whose opening ends it (R458). -/
def s3Units : List OpenUnit := (List.range 4).map OpenUnit.berth ++ (List.range 8).map OpenUnit.core ++ [.stack 1]

/-- The units S4 opens (R460). -/
def s4Units : List OpenUnit :=
  (List.range 12).map (fun n => OpenUnit.berth (4 + n)) ++ (List.range 6).map (fun p => OpenUnit.port (2 + p)) ++
  (List.range 6).map (fun h => OpenUnit.stack (2 + h)) ++ [.link 0, .link 1]

/-- A connected unit (R2): berths, cores and links always are. -/
def Env.connected (e : Env) (u : OpenUnit) : Bool :=
  match u with
  | .port p => e.memConnected p
  | .stack h => decide (h < 8) && e.ties.holdMask.testBit h
  | .channel ch => decide (ch < 16) && e.ties.holdMask.testBit (ch / 2)
  | _ => true

/-- A unit is out of service from the start. -/
def Block.markFailed (b : Block) (u : OpenUnit) : Block :=
  if b.harbour.failed.contains u then b else { b with harbour := { b.harbour with failed := b.harbour.failed ++ [u] } }

/-- Unit kind and index of an opening unit, for UNIT of R484. -/
def unitLog : OpenUnit → Nat × Nat
  | .berth n => (ukBerth, n)
  | .core g => (ukCore, g)
  | .port p => (ukPort, p)
  | .stack h => (ukStack, h)
  | .link l => (ukLink, l)
  | .channel ch => (ukStack, ch / 2)

/-- A partition comes to be over some berths that are open and unowned; its QUANTUM boundaries count from now (R37, R340). -/
def Block.newPartition (b : Block) (e : Env) (p : Nat) (ns : List Nat) : Block :=
  let b := (b.wr F.BW_PART_VALID p 1).wr F.BW_PART_BERTHS p 0
  let b : Block := { b with quantumFrom := tput b.quantumFrom p e.now }
  ns.foldl (fun b n => if b.bstate n = bsIdle then (b.ownBerth n p).modBerth n fun x => { x with idleSince := e.now } else b.ownBerth n p) b

/-- A store is in progress (R82, R400): STORE_BUSY; between two sectors of the configuration memory it is low. -/
def Block.storeBusy (b : Block) : Bool :=
  b.harbour.xspi.isSome && !b.harbour.xspiGap || b.hold.dumpWriting || (b.hold.stks.any fun x => x.2.flushing.isSome) ||
  (b.chan 0).ops.any fun o => match o with | .table .. => true | _ => false

/-- A stage's units begin to open: domains on, stacks in INIT, the link in training. -/
def Block.beginUnits (b : Block) (e : Env) (us : List OpenUnit) : Block :=
  us.foldl (fun b u =>
    if b.harbour.failed.contains u || !e.connected u then b
    else match u with
      | .berth n => b.switchOn n
      -- a warm reset leaves the domain on: only the core's reset is released
      | .core g => if b.domUp (domCore g) then b.modCore g fun k => { k with on := true, progress := e.now } else b.switchOn (domCore g)
      | .stack h => b.initStack e h
      | .link l => b.retrain l
      | .port _ | .channel _ => b) b

/-- The level S4 ends with (R422, R457, R460, R482). -/
def Block.fullLevel (b : Block) : Nat := if b.harbour.failed.isEmpty && !b.harbour.checkerFailed then lvFull else lvDegraded

end Sys2Proof.Machine
end

