-- ==== Sys2Proof/Machine/Boot.lean ====
section
/-! DEFINITION. Start-up, recovery, updates in service: the meanings of R70, R71, R451 to R478. -/

namespace Sys2Proof.Machine

open Sys2Proof

/-! ### Resets of the block (R70, R71, R400) -/

/-- POWER_ON_RESET (R70, R456): every domain is reset, the always-on one too; on release the domains 24 to 33 are switched on, and the ROM runs S0. -/
def execPowerOnReset (s : State) : Out :=
  .next { s with aon := ⟨0, 1⟩, blk := (s.blk.afterPorst s.env).startRom ⟨0, 1, s.ties, s.fuses⟩ }

/-- A warm reset takes effect (R70, R400, R402): a new epoch, and the ROM runs S0. -/
def State.warm (s : State) : State :=
  let ep := nextEpoch s.aon.epoch
  { s with aon := ⟨s.aon.ns, ep⟩, blk := (s.blk.afterWarm s.env).startRom ⟨s.aon.ns, ep, s.ties, s.fuses⟩ }

/-- WARM_RESET (R71): it waits while STORE_BUSY is high. -/
def execWarmReset (s : State) : Out :=
  if s.blk.storeBusy then .next { s with blk := { s.blk with power := { s.blk.power with wrstWaiting := true } } } else .next s.warm

/-- WARM_RESET_EFFECT (R70, R71): the deferred reset, once the store has ended. -/
def execWarmResetEffect (s : State) : Out :=
  if s.blk.power.wrstWaiting && !s.blk.storeBusy then .next s.warm else .next s

/-! ### Stages (R422, R451 to R461) -/

/-- STAGE_S1 (R422, R451): component digests, then the configuration image. -/
def execStageS1 (s : State) : Out :=
  onBlk s fun e b =>
    match b.harbour.stage, b.harbour.running? with
    | some 0, some x =>
      let b := b.applyConfig e
      let b : Block := { b with harbour := { b.harbour with coreFw := x.coreDigestOk, ucode := x.ucodeDigestOk, stage := some 1 } }
      let b := if x.coreDigestOk then b else (List.range 8).foldl (fun b g => (b.modCore g fun k => { k with failed := true }).markFailed (.core g)) b
      if x.ucodeDigestOk then b else (List.range 16).foldl (fun b n => b.markFailed (.berth n)) b
    | _, _ => b

/-- A checker of a unit has failed (R381, R457): the unit is out of service, and an alarm names it. -/
def Block.checkerFails (b : Block) (e : Env) (u : OpenUnit) : Block :=
  let (k, i) := unitLog u
  let b := { b with harbour := { b.harbour with checkerFailed := true } }.markFailed u
  let b := match u with
    | .berth n => b.setBstate e n bsFailed
    | .core g => b.modCore g fun k => { k with failed := true }
    | .stack h => ((b.wr F.HD_STACK_CH_FAIL h 3).wr F.HD_STACK_STATE h hsFailed).modChan (2 * h) (fun c => { c with out := true }) |>.modChan (2 * h + 1) fun c => { c with out := true }
    | .channel ch =>
      let h := ch / 2
      let b := (b.modChan ch fun c => { c with out := true }).wr F.HD_STACK_CH_FAIL h (b.rd F.HD_STACK_CH_FAIL h ||| 2 ^ (ch % 2))
      if b.rd F.HD_STACK_CH_FAIL h = 3 then (b.wr F.HD_STACK_STATE h hsFailed).markFailed (.stack h) else b
    | _ => b
  b.alarm e { code := 0x0050, kind := k, idx := i, data := [Config.resetTrigger 8] }

/-- STAGE_S2 (R457): failing checkers take their units out of service; then the units of S3 begin to open; L0 trains once the epoch is recorded (R400). -/
def execStageS2 (failed : List OpenUnit) (s : State) : Out :=
  onBlk s fun e b =>
    if b.harbour.stage ≠ some 1 then b
    else
      let b := failed.eraseDups.foldl (fun b u => b.checkerFails e u) b
      let b : Block := { b with harbour := { b.harbour with stage := some 2 } }
      let b := b.modLink 0 fun x => { x with startHalf := true }
      ((b.beginUnits e (s3Units ++ [.stack 0])).openPorts e).recordEpoch e

/-- STAGE_S3 (R400, R458, R461): with quadrant 0 open, M0, M1 and H0 connected (R3) and the epoch recorded, service is REDUCED, and S4 begins. -/
def execStageS3 (s : State) : Out :=
  let b := s.blk
  let e := s.env
  let vital := vitalUnits.all fun u => e.connected u && b.unitReady e u && !b.harbour.failed.contains u
  if b.harbour.stage ≠ some 2 || b.harbour.down || !b.harbour.epochTaken || !vital || !(s3Units.filter fun u => e.connected u).all (fun u => b.unitSettled e u) then .next s
  else
    let b : Block := { b with harbour := { b.harbour with stage := some 3 } }
    let b := ((List.range 2).filter fun h => e.connected (.stack h)).foldl (fun b h => b.openStack e h) b
    let b := (List.range 4).foldl (fun b n => b.openBerth e n) b
    let b := (List.range 8).foldl (fun b g => if (b.core g).on then b.markOpen (.core g) else b) b
    let b := if b.rd F.BW_MODE_MODE = 1 then b.newPartition e 0 ((List.range 4).filter fun n => (b.berth n).opened) else b
    let b := b.setLevel e lvReduced
    let b :=
      if b.factory || e.fuses.stage = 3 then b
      else
        let retry := if b.lstate 0 = lkDown then [OpenUnit.link 1, .link 0] else [.link 1]
        let b := b.beginUnits e (s4Units.filter fun u => match u with | .link _ => false | _ => true)
        (retry.foldl (fun b u => match u with | .link l => b.retrain l | _ => b) b).openPorts e
    .next { s with blk := b }

/-- STAGE_S4 (R460, R461): with every unit open or failed, decoding goes to STRENGTH and service is FULL or DEGRADED. -/
def execStageS4 (s : State) : Out :=
  onBlk s fun e b =>
    let settled := (s4Units.filter fun u => e.connected u).all fun u => b.unitSettled e u
    let slow := (b.link 0).startHalf && b.linkUp 0
    if b.harbour.stage ≠ some 3 || b.harbour.down || b.factory || e.fuses.stage = 3 || !settled || slow then b
    else
      let b : Block := { b with harbour := { b.harbour with stage := some 4 } }
      let b := ((List.range 8).filter fun h => decide (2 ≤ h) && e.connected (.stack h)).foldl (fun b h => b.openStack e h) b
      let b := (List.range 12).foldl (fun b n => b.openBerth e (4 + n)) b
      let b := (List.range 8).foldl (fun b h => b.wr F.HD_STACK_FULL_DECODE h 0) b
      let b := if b.rd F.BW_MODE_MODE = 1 then
          ((List.range 16).filter fun n => (b.berth n).opened && b.rd F.BT_STATE_OWNED n = 0 && !b.harbour.failed.contains (.berth n) && b.bstate n ≠ bsFailed).foldl (fun b n => b.ownBerth n 0) b
        else b
      b.setLevel e b.fullLevel

/-- MQ_READY (R458): the port opens once the stage that opens it has begun. -/
def execMqReady (p : Nat) (s : State) : Out :=
  onUnit (decide (p < 8)) s fun e b =>
    if b.ports.ready.contains p || !e.memConnected p then b
    else ({ b with ports := { b.ports with ready := b.ports.ready ++ [p] } }).openPorts e

/-- The stage that opens a unit and its bound in ns (R459, R460). -/
def openBound (u : OpenUnit) (stage : Nat) : Option Nat :=
  if stage = 2 ∧ (vitalUnits ++ s3Units).contains u then some 2000000000
  else if stage = 3 ∧ s4Units.contains u then some 8000000000 else none

/-- UNIT_OPEN_TIMEOUT (R459, R460): a unit not open by its bound is failed; without M0, M1 or H0 the block stays CLOSED. -/
def execUnitOpenTimeout (u : OpenUnit) (s : State) : Out :=
  onBlk s fun e b =>
    match b.harbour.stage with
    | none => b
    | some st => match openBound u st with
      | none => b
      | some t =>
        let isOpen := b.harbour.openUnits.contains u || e.connected u && b.unitReady e u
        let absent := !e.connected u && !vitalUnits.contains u
        if e.now < b.harbour.released + t || isOpen || b.harbour.failed.contains u || absent || (st = 3 && (b.factory || e.fuses.stage = 3)) then b
        else
          let (k, i) := unitLog u
          (b.markFailed u).alarm e { code := 0x0051, kind := k, idx := i, data := [st + 1] }

/-! ### Recovery (R462) -/

/-- The ROM answers through mailbox N0. -/
def Block.romReply (b : Block) (ret : Nat) : Block := b.boxReply 2 ret 0

/-- RECOVERY_HEADER (R421, R462). -/
def execRecoveryHeader (x : Bundle) (s : State) : Out :=
  onBlk s fun e b =>
    if !b.harbour.recovering then b
    else if x.accepted e.fuses then { b with harbour := { b.harbour with recovery := some (x, 0) } }.romReply rcDone
    else b.romReply rcDenied

/-- RECOVERY_DATA (R462): pieces of 256 bytes in ascending offset; the header sector of slot A is erased first, and each sector is a store. -/
def execRecoveryData (off : Nat) (data : List Byte) (s : State) : Out :=
  onBlk s fun _ b =>
    if !b.harbour.recovering then b
    else match b.harbour.recovery with
      | none => b.romReply rcBadArg
      | some (x, next) =>
        if off < next || data.length ≠ 256 || 0x1000000 < off + 256 then b.romReply rcBadArg
        else if !b.mayStore then b.romReply rcBusy
        else
          let fresh := decide (next = 0 ∨ off / 65536 ≠ (next - 1) / 65536)
          { b with harbour := { b.harbour with
              bundleA := none, recovery := some (x, off + 256), xspi := if fresh then some ((b.harbour.xspi).getD 0 + 1) else b.harbour.xspi } }.romReply rcDone

/-- RECOVERY_COMMIT (R84, R462): no store starts while the power warning lasts; only with every digest matched is the header sector written; a warm reset follows. -/
def execRecoveryCommit (s : State) : Out :=
  onBlk s fun _ b =>
    if !b.harbour.recovering then b
    else match b.harbour.recovery with
      | none => b.romReply rcBadArg
      | some (x, _) =>
        if !b.mayStore then b.romReply rcBusy
        else if x.hmDigestOk && x.coreDigestOk && x.ucodeDigestOk then
          { b with harbour := { b.harbour with recovery := none, writingBundle := some x, xspi := some ((b.harbour.xspi).getD 0 + 1) } }.romReply rcDone
        else { b with harbour := { b.harbour with recovery := none } }.romReply rcDenied

/-! ### Updates in service (R463 to R467) -/

/-- An update of firmware or configuration runs (R466). -/
def Block.updating (b : Block) : Bool := b.harbour.running.any fun r => r.opcode = 0x0501 || r.opcode = 0x0502 || r.opcode = 0x0503

/-- The slot the block did not boot from. -/
def Harbour.other (h : Harbour) : Bool := !(h.booted.getD true)

/-- The SVNs the parts run: the lower one where parts run both images (R464, R426). -/
def mixSvn (old new parts total : Nat) : Nat := if parts = 0 then old else if parts = total then new else min old new

/-- The staged bundle. -/
def Harbour.stagedBundle (h : Harbour) : Option Bundle := h.staged.bind h.bundle

/-- Cores and berths that run the staged image. -/
def Block.newCores (b : Block) : Nat := b.cores.countP fun k => k.2.newFw
def Block.newBerths (b : Block) : Nat := b.berths.countP fun x => x.2.newUcode

/-- The running SVN of the general-core firmware and of the microcode (R423, R464). -/
def Block.runCore (b : Block) : Nat := mixSvn b.harbour.svnCore ((b.harbour.stagedBundle.map (·.svnCore)).getD 0) b.newCores 8
def Block.runUcode (b : Block) : Nat := mixSvn b.harbour.svnUcode ((b.harbour.stagedBundle.map (·.svnUcode)).getD 0) b.newBerths 16

/-- The digest of the image that runs on the most parts; where both run on as many, the older one (R464, log 101). -/
def Block.coreImage (b : Block) : BitVec 384 := if 8 < 2 * b.newCores then (b.harbour.stagedBundle.map (·.coreDigest)).getD 0 else b.harbour.coreDigest
def Block.ucodeImage (b : Block) : BitVec 384 := if 16 < 2 * b.newBerths then (b.harbour.stagedBundle.map (·.ucodeDigest)).getD 0 else b.harbour.ucodeDigest

/-- FW_STAGE (R463, R466, R467): the header is checked, then the slot not booted from is written sector by sector, its header first erased and last written. -/
def execFwStage (m : Mgr) (x : Bundle) (addr len : Nat) (s : State) : Out :=
  onBlk s fun e b => b.manager e m 0x0501 fun b =>
    let _ := addr
    if b.updating then b.reply m 0x0501 rcBusy
    else if len = 0 ∨ 0x1000000 < len then b.reply m 0x0501 rcBadArg
    else if !x.accepted e.fuses then b.reply m 0x0501 rcDenied
    else if x.ucodeRelease ≠ 0x00020001 then b.reply m 0x0501 rcBadArg
    else if !b.mayStore then b.reply m 0x0501 rcTimeout
    else
      let h := b.harbour
      let seq := ((h.running?.map (·.seq)).getD 0) + 1
      let b := (b.startMgr e m 0x0501 [] 0)
      -- parts that run the bundle staged before become parts of the running image
      let core := b.runCore
      let uc := b.runUcode
      let (coreImage, ucImage) := (b.coreImage, b.ucodeImage)
      let b : Block := { b with
        cores := b.cores.map fun k => (k.1, { k.2 with newFw := false }), berths := b.berths.map fun y => (y.1, { y.2 with newUcode := false }) }
      { b with harbour := { (b.harbour.setBundle h.other none) with
          svnCore := core, svnUcode := uc, coreDigest := coreImage, ucodeDigest := ucImage, staged := none, writingBundle := some { x with seq := seq }, xspi := some (cdiv len 65536 + 1) } }

/-- Sessions end, the lease is reserved for its key for 1 s, what the S0 buffer holds is answered with TIMEOUT (R464, R477, R503). -/
def Block.resetHm (b : Block) (e : Env) : Block :=
  let key := (b.leaseNow e).map fun l => (l.key, e.now + 1000000000)
  let b := b.boxReset fun ch => ch = 0
  { b with harbour := { b.harbour with
      down := true, sessions := [], lease := none, reserved := key, replies := [], pieces := [], recovery := none
      xspi := none, xspiGap := false, writingImage := none, writingBundle := none } }

/-- FW_ACTIVATE (R464, R466): the staged bundle for one component, part by part. -/
def execFwActivate (m : Mgr) (component parts : Nat) (s : State) : Out :=
  onBlk s fun e b => b.manager e m 0x0502 fun b =>
    if b.updating then b.reply m 0x0502 rcBusy
    else match b.harbour.staged.bind fun t => (b.harbour.bundle t).map fun x => (t, x) with
      | none => b.reply m 0x0502 rcBadArg
      | some (t, x) =>
        if ((b.harbour.bundle (!t)).map (·.seq)).getD 0 ≥ x.seq ∨ 2 < component then b.reply m 0x0502 rcBadArg
        else if component = 0 then
          if x.hmDigestOk then (b.startMgr e m 0x0502 [] 0).resetHm e else b.reply m 0x0502 rcDenied
        else if component = 1 then
          if !x.coreDigestOk then b.reply m 0x0502 rcDenied
          else
            let b := (bitsOf 8 parts).foldl (fun b g =>
              if (b.core g).failed then b else (b.saveTask e g).modCore g fun k => { k with newFw := true, tlb := [] }) b
            { b with harbour := { b.harbour with coreFw := true } }.reply m 0x0502 rcDone
        else if !x.ucodeDigestOk then b.reply m 0x0502 rcDenied
        else Block.ucodeGo e 18 (b.startMgr e m 0x0502 [] (2 * 65536 + parts % 65536))

/-- CONFIG_WRITE (R465 to R467): header and section CRCs are checked; the slot not applied at start is written, its header first erased and last written. -/
def execConfigWrite (m : Mgr) (img : CfgImage) (addr len : Nat) (s : State) : Out :=
  onBlk s fun e b => b.manager e m 0x0503 fun b =>
    let _ := addr
    let img : CfgImage := ⟨img.bytes.take len⟩
    if b.updating then b.reply m 0x0503 rcBusy
    else if len < 128 ∨ 0x1000000 < len ∨ img.hdr ≠ 0 ∨ !img.crcsOk then b.reply m 0x0503 rcBadArg
    else if !b.mayStore then b.reply m 0x0503 rcTimeout
    else
      let h := b.harbour
      let valid (x : Option CfgImage) : Nat := ((x.filter fun y => y.hdr = 0).map (·.seq)).getD 0
      let seq := max (valid h.imageA) (valid h.imageB) + 1
      let b := b.startMgr e m 0x0503 [] 0
      let h := b.harbour
      let h : Harbour := if h.report.source = 0 then { h with imageB := none } else { h with imageA := none }
      { b with harbour := { h with writingImage := some (img.withSeq seq), xspi := some (cdiv len 65536 + 1) } }

/-- XSPI_SECTOR_COMPLETE (R82, R463, R465, R467): each sector is one store; the next one starts, unless PWR_WARN_N is low or a warm reset waits; the last one puts the new header in its slot. -/
def execXspiSectorComplete (s : State) : Out :=
  onBlk s fun e b =>
    let h := b.harbour
    let finish (b : Block) (op ret : Nat) : Block :=
      (b.harbour.running.filter fun r => r.opcode = op).foldl (fun b r => b.endMgr e r.m op ret) b
    match h.xspi with
    | none => b
    | some n =>
      if h.xspiGap then b
      else if n ≤ 1 then
        let b : Block := { b with harbour := { h with xspi := none, writingBundle := none, writingImage := none } }
        match h.writingBundle, h.writingImage with
        | some x, _ =>
          if h.recovering then { b with harbour := b.harbour.setBundle false (some x), power := { b.power with wrstWaiting := true } }
          else finish { b with harbour := { (b.harbour.setBundle h.other (some x)) with staged := some h.other } } 0x0501 rcDone
        | none, some x =>
          finish (if h.report.source = 0 then { b with harbour := { b.harbour with imageB := some x } }
            else { b with harbour := { b.harbour with imageA := some x } }) 0x0503 rcDone
        | none, none => b
      else if !b.mayStore then
        let b : Block := { b with harbour := { h with xspi := none, writingBundle := none, writingImage := none, recovery := none } }
        finish (finish b 0x0501 rcTimeout) 0x0503 rcTimeout
      else { b with harbour := { h with xspi := some (n - 1), xspiGap := true } }

/-- STORE_BUSY has fallen after a sector (R82): the next sector's store begins, unless PWR_WARN_N has fallen or a warm reset waits; the update then ends with TIMEOUT (R463, R467). -/
def Block.nextSector (b : Block) (e : Env) : Block :=
  let h := b.harbour
  if !h.xspiGap then b
  else if b.mayStore then { b with harbour := { h with xspiGap := false } }
  else
    let b : Block := { b with harbour := { h with xspi := none, xspiGap := false, writingBundle := none, writingImage := none, recovery := none } }
    [0x0501, 0x0503].foldl (fun b op => (b.harbour.running.filter fun r => r.opcode = op).foldl (fun b r => b.endMgr e r.m op rcTimeout) b) b

/-- The clamp report as CONFIG_REPORT writes it (R453). -/
def ClampReport.bytes (r : ClampReport) : List Byte :=
  [0x54, 0x58, 0x43, 0x52] ++ leBytes 1 r.source ++ leBytes 1 r.hdrA ++ leBytes 1 r.hdrB ++ leBytes 1 r.badSect ++ leBytes 8 r.seq ++
  leBytes 2 r.entries.length ++ leBytes 2 r.dropped ++ List.replicate 44 0 ++
  r.entries.flatMap fun x => leBytes 2 x.field ++ leBytes 1 x.reason ++ leBytes 1 x.badSect.toNat ++ leBytes 4 0 ++ i64Bytes x.given ++ i64Bytes x.applied

/-- CONFIG_REPORT (R453, R466). -/
def execConfigReport (m : Mgr) (addr len : Nat) (s : State) : Out :=
  onBlk s fun e b => b.manager e m 0x0504 fun b =>
    if len < 6208 then b.reply m 0x0504 rcBadArg
    else (b.send (.untranslated addr b.harbour.report.bytes)).reply m 0x0504 rcDone

/-- RESET (R466, R475 to R478, R493): a berth or core escalates, or joins an escalation under way; the Harbourmaster is reset alone; a block reset writes its dump first, replies, and follows when the reply is out. -/
def execReset (m : Mgr) (k : ResetKind) (s : State) : Out :=
  onBlk s fun e b => b.manager e m 0x0505 fun b =>
    match k with
    | .berth n => if 16 ≤ n then b.reply m 0x0505 rcBadArg
      else (b.startMgr e m 0x0505 [n] 0).startReset e n (Config.resetTrigger 3) 1 none
    | .core g => if 8 ≤ g then b.reply m 0x0505 rcBadArg
      else (b.startMgr e m 0x0505 [16 + g] 0).startCoreReset e g (Config.resetTrigger 3)
    | .harbourmaster => (b.startMgr e m 0x0505 [] 0).resetHm e
    | .block =>
      let queued := b.hold.dumpQueue.length
      let b := (b.startMgr e m 0x0505 [255] 0).dumpTrigger e dtBlock (unitWord ukBlock 0) [] Snapshot.empty
      if b.hold.dumpQueue.length = queued then
        let b := b.endMgr e m 0x0505 rcDone
        { b with harbour := { b.harbour with resetOwed := true } }
      else b

/-- CALIB_APPLY (R465, R466): one trim, clamped as in an image; Watchkeeper uses it from its next sample. -/
def execCalibApply (m : Mgr) (field : Nat) (v : Int) (s : State) : Out :=
  onBlk s fun e b => b.manager e m 0x0506 fun b =>
    let ok := decide (0x0700 ≤ field ∧ field ≤ 0x072F ∨ 0x0740 ≤ field ∧ field ≤ 0x074F)
    match (if ok then fieldDef field else none) with
    | some (.int lo hi mult _) =>
      let (w, why) := clampInt lo hi mult v
      let b : Block := { b with harbour := { b.harbour with trims := (b.harbour.trims.filter fun x => x.1 ≠ field) ++ [(field, w)] } }
      if why.isSome then b.reply m 0x0506 rcClamped [(w % 2 ^ 64).toNat] else b.reply m 0x0506 rcDone
    | _ => b.reply m 0x0506 rcBadArg

/-- The stage under way: the one after the last that ended, where start-up goes on. -/
def Block.stageNow (b : Block) (e : Env) : Nat :=
  match b.harbour.stage with
  | none => 0
  | some n => if n = 3 && (b.factory || e.fuses.stage = 3) then 3 else min 4 (n + 1)

/-- Masks of a list of units: berths, cores, ports, stacks, links. -/
def unitMasks (us : List OpenUnit) : List Nat :=
  [maskOf (us.filterMap fun u => match u with | .berth n => some n | _ => none),
   maskOf (us.filterMap fun u => match u with | .core n => some n | _ => none),
   maskOf (us.filterMap fun u => match u with | .port n => some n | _ => none),
   maskOf (us.filterMap fun u => match u with | .stack n => some n | _ => none),
   maskOf (us.filterMap fun u => match u with | .link n => some n | _ => none)]

/-- STAGE_STATUS (R345, R466): the stage, the open and the failed units, the first reserved granule of every port. -/
def execStageStatus (m : Mgr) (s : State) : Out :=
  onBlk s fun e b => b.manager e m 0x0507 fun b =>
    let open_ := b.harbour.openUnits.filter fun u => !b.harbour.failed.contains u
    b.reply m 0x0507 rcDone ([b.stageNow e] ++ unitMasks open_ ++ unitMasks b.harbour.failed ++
      (List.range 8).map fun p => if e.memConnected p then b.reserveFirst e p else 0)

/-- When a running command replies TIMEOUT (R349, R466): a quiesce at its own bound, any other after 1 s. -/
def Block.timeoutAt (b : Block) (r : Running) : Nat :=
  if r.opcode = 0x0108 then
    match r.touches.head?.bind fun t => (tget b.quay.slices (t - 16)).bind (·.quiesce) with
    | some (_, t) => t
    | none => r.since + 1000000000
  else r.since + 1000000000

/-- MANAGER_COMMAND_TIMEOUT (R349, R378, R466): the command replies TIMEOUT and goes on; its end is told by a notice. -/
def execManagerCommandTimeout (seq : Nat) (s : State) : Out :=
  onBlk s fun e b =>
    match b.harbour.running.find? fun r => r.m.seq = seq && !r.late with
    | none => b
    | some r =>
      if b.harbour.down || e.now < b.timeoutAt r then b
      else
        let b : Block := { b with harbour := { b.harbour with running := b.harbour.running.map fun x => if x = r then { x with late := true } else x } }
        if (tget b.harbour.sessions r.m.session).isSome then b.reply r.m r.opcode rcTimeout else b

/-! ### The Harbourmaster's return (R464, R477) -/

/-- What an abandoned command leaves: its stamping tasks and its waits go with it. -/
def Block.abandon (b : Block) (m : Mgr) : Block :=
  let mine (t : StampTask) : Bool := match t.why with
    | .model m' _ _ _ _ => m' = m
    | .view m' _ _ => m' = m
    | _ => false
  { b.dropTasks mine with
    pilot := { (b.dropTasks mine).pilot with harvests := b.pilot.harvests.filter fun h => h.m ≠ m }
    manifest := { b.manifest with detWait := b.manifest.detWait.filter fun x => x.m ≠ m } }

/-- HARBOURMASTER_RETURN (R464, R477): the ROM has run S0 again; commands of range 0x01xx go on, an activation of the Harbourmaster has ended, any other is abandoned with an event; an alarm and a dump follow. -/
def execHarbourmasterReturn (s : State) : Out :=
  onBlk s fun e b =>
    if !b.harbour.down then b
    else match b.harbour.bootChoice e.fuses with
      | none => b
      | some (slot, x) =>
        let b := (b.romDerive e x.hmDigest).romErase
        let b : Block := { b with
          harbour := { b.harbour with down := false, booted := some slot, svnHm := x.svnHm, hmDigest := x.hmDigest }
          watch := { b.watch with kicked := e.now, warned := false, wdogStopped := false } }
        let act (r : Running) : Bool := r.opcode = 0x0502 && decide (r.todo / 65536 = 0)
        let gone := b.harbour.running.filter fun r => r.opcode / 256 ≠ 1 && !act r
        let b := (b.harbour.running.filter act).foldl (fun b r => b.endMgr e r.m r.opcode rcDone) b
        let b := gone.foldl (fun b r =>
          (b.abandon r.m).event e { code := 0x1007, kind := ukHarbour, idx := 0, data := [r.opcode, r.m.seq] }) b
        let b : Block := { b with harbour := { b.harbour with running := b.harbour.running.filter fun r => r.opcode / 256 = 1 } }
        (b.alarm e { code := 0x0005, kind := ukHarbour, idx := 0, data := [(gone.map (·.opcode)).headD 0] }).dumpTrigger e dtHarbour (unitWord ukHarbour 0) [] Snapshot.empty

end Sys2Proof.Machine
end

