-- ==== Sys2Proof/Machine/Memory.lean ====
section
/-! DEFINITION. The meanings of the memory-side events: a port cycle of Breakwater (R335), a response of a memory controller (R56 to R58, R432, R433), an instruction-cache fill (R124). -/

namespace Sys2Proof.Machine

open Sys2Proof

/-- The 64-bit operation of an ATOMIC (R192): add, swap, compare-and-swap, signed maximum, signed minimum. -/
def atomicOp (mode : Nat) (old operand compare : Word) : Word :=
  match mode with
  | 0 => old + operand
  | 1 => operand
  | 2 => if old = compare then operand else old
  | 3 => if old.slt operand then operand else old
  | _ => if operand.slt old then operand else old

/-- The element operation of a REDUCE (R192): 64-bit add, FP32 add, FP32 maximum. -/
def reduceOp (mode : Nat) (a b : List Byte) : List Byte :=
  match mode with
  | 0 => (List.zipWith (fun x y => leBytes 8 (x + y)) (toElems 8 a) (toElems 8 b)).flatten
  | 1 => addElems fpFP32 a b
  | _ => (List.zipWith (fun x y => leBytes 4 (fpMinMax fpFP32 true x y).1) (toElems 4 a) (toElems 4 b)).flatten

/-- What an ATOMIC or REDUCE request makes of the bytes at its offset (R224). -/
def remoteOp (m : FabMsg) (old : List Byte) : List Byte :=
  if m.op = 3 then
    leBytes 8 (atomicOp m.mod (BitVec.ofNat 64 (ofLeBytes (old.take 8))) m.operand (BitVec.ofNat 64 (ofLeBytes (m.data.take 8)))).toNat
  else reduceOp m.mod old m.data

/-- REGULATOR_ADMIT (R335, R336): one cycle of port x. -/
def execRegulatorAdmit (x : Nat) (s : State) : Out :=
  onUnit (decide (x < 28)) s fun e b => b.portCycle e x

/-- A request that combines with the bytes it finds: an ATOMIC or REDUCE on a window (R224). -/
def Block.combines (b : Block) (r : MemReq) : Bool :=
  match r.who with
  | .window id _ => match tget b.fabric.serving id with
    | some x => decide (3 ≤ x.m.op)
    | none => false
  | _ => false

/-- The read half of a read-modify-write has returned the unit's plain bytes: the merged lines are written under the same tag (R215, R224). -/
def Block.writeBackUnit (b : Block) (key : Nat) (r : MemReq) (unit : List Byte) : Block :=
  let o := r.addr % 128
  let (b, d) := match r.who with
    | .window id off =>
      match tget b.fabric.serving id with
      | some x =>
        if x.m.op = 3 ∨ x.m.op = 4 then
          let old := (unit.drop o).take r.len
          let m := if x.m.op = 4 then { x.m with data := (x.m.data.drop off).take r.len } else x.m
          ({ b with fabric := { b.fabric with serving := tput b.fabric.serving id { x with old := BitVec.ofNat 64 (ofLeBytes (old.take 8)) } } },
            remoteOp m old)
        else (b, r.data)
      | none => (b, r.data)
    | _ => (b, r.data)
  let whole := mergeAt unit o d
  let lines := sealLines (b.keyGen r.slice r.ctx) (r.addr / 128 * 128) r.lines.1 r.lines.2 whole
  { b with ports := { b.ports with out := tput b.ports.out key { r with rmw := false, write := true, data := whole, wdata := lines } } }

/-- MEMORY_RESPONSE (R56 to R58, R432, R433): the tag is freed; an uncorrectable unit or a MAC mismatch fails the request, good data reaches its requester, the read half of a read-modify-write is followed by its write. A response that names no outstanding request is none; one that outlived its key is discarded (R436). -/
def execMemoryResponse (port sub tag err : Nat) (data : List Byte) (macs : List Word) (s : State) : Out :=
  onUnit (decide (port < 8 ∧ sub < 4)) s fun e b =>
    let key := reqKey port sub tag
    match tget b.ports.out key with
    | none => b
    | some r =>
      let b := { b with ports := { b.ports with out := tdel b.ports.out key } }
      if 1024 ≤ r.slice then
        (b.bump F.CU_STAT_LATE_RSP).alarm e { code := 0x0012, kind := ukCustoms, idx := 0, slice := some (r.slice - 1024), data := [r.slice - 1024] }
      else
        let gen := b.keyGen r.slice r.ctx
        let unit := r.addr / 128 * 128
        let o := r.addr % 128
        let done (b : Block) : Block := b.inflightKey r.slice r.ctx false
        let b' := if 2 ≤ err then (done b).memFailed e r stUncorrectable ukPort port r.addr
        else if r.write && !r.rmw then (done b).memAnswer e r []
        else
          match readUnit gen unit (r.reads (b.combines r)) data macs with
          | .error a => (done b).macFail e r a
          | .ok plain =>
            if r.rmw then b.writeBackUnit key r plain
            else (done b).memAnswer e r ((plain.drop o).take r.len)
        b'.readDone e r.who

/-- ICACHE_FILL_COMPLETE (R124): the line the stream waits for is in the cache, and issue resumes. -/
def execIcacheFillComplete (n : Nat) (s : State) : Out :=
  onUnit (decide (n < 16)) s fun _ b =>
    match (b.berth n).stream with
    | none => b
    | some st =>
      match st.wait with
      | some (.icache line) =>
        if (b.berth n).hasLine st.prog line then
          (b.modStream n fun s => { s with wait := none }).modBerth n fun x => x.touchLine st.prog line
        else b
      | _ => b

end Sys2Proof.Machine
end

