-- ==== Sys2Proof/Machine/Fabric.lean ====
section
/-! DEFINITION. The meanings of the fabric's requests and responses, of the window and group commands, and of PING (R395 to R403, R414, R415, R516). -/

namespace Sys2Proof

/-- Bytes a request reaches: an ATOMIC 8, the others their LEN (R395). -/
def FabMsg.span (r : FabMsg) : Nat := if r.op = 3 then 8 else 64 * r.len

/-- The words of a window record. -/
def WinRec.words (r : WinRec) : List Nat :=
  [r.window, r.owner, r.berthStore.toNat, r.berth, r.read.toNat + 2 * r.write.toNat + 4 * r.atomic.toNat + 8 * r.reduce.toNat,
   r.byGroup.toNat, r.peer, r.epoch, r.base, r.size]

end Sys2Proof

namespace Sys2Proof.Machine

open Sys2Proof

/-- This block's fabric ID. -/
def Block.blockId (b : Block) : Nat := b.rd F.FE_ID_BLOCK_ID

/-- The expected epoch of a source at a window, 0 where it is not the PEER, and the previous one (R398); none for a source that is no member of the group, which has no PREV_EPOCH. -/
def Block.peerEpochs (b : Block) (w : Window) (src : Nat) : Option (Nat × Nat) :=
  if w.r.byGroup then
    match tget b.fabric.groups w.r.peer with
    | some g => (g.r.members.find? fun x => x.1 = src).map fun x => (x.2, tgetD g.prevEpochs src 0)
    | none => none
  else some (if w.r.peer = src then w.r.epoch else 0, w.prevEpoch)

/-- What the checks of R398 decide. -/
inductive Admit where
  | ok (w : Window)
  | misroute
  | epochDrop
  | refuse (st : Nat)

/-- The checks of R398, in order. -/
def Block.screenMsg (b : Block) (r : FabMsg) : Admit :=
  if r.dst ≠ b.blockId then .misroute
  else match tget b.fabric.windows r.window with
    | none => .refuse stWindowClosed
    | some w =>
      if w.closing.isSome then .refuse stWindowClosed
      else if b.sliceState w.r.owner ≠ slActive then .refuse stWindowClosed
      else match b.peerEpochs w r.src with
        | none => .refuse stWindowClosed
        | some (want, prev) =>
          if want ≠ r.epoch ∨ want = 0 then (if r.epoch = prev then .epochDrop else .refuse stWindowClosed)
          else
            let perm := match r.op with | 1 => w.r.read | 2 => w.r.write | 3 => w.r.atomic | _ => w.r.reduce
            if !perm then .refuse stProtection
            else if w.r.size < r.offset + r.span then .refuse stProtection
            else if w.r.berthStore then
              let st := b.bstate w.r.berth
              let mine : Bool := match tget b.quay.ctxs (b.rd F.BT_STATE_CONTEXT w.r.berth) with | some c => decide (c.slice = w.r.owner) | none => false
              if (st = bsRunning ∨ st = bsToMoor ∨ st = bsCollective) ∧ mine then .ok w else .refuse stWindowClosed
            else .ok w

/-- A request on a berth store, through the bank's second port (R224). -/
def Block.serveStore (b : Block) (e : Env) (id : Nat) (w : Window) (r : FabMsg) : Block :=
  let a := w.r.base + r.offset
  let n := w.r.berth
  let (bad, b) := if r.op = 2 then (none, b) else b.eccRead n a r.span
  match bad with
  | some line => (b.dataAlarm e stUncorrectable ukBerth n line w.r.owner).servePiece e id 0 stUncorrectable (List.replicate r.span 0)
  | none =>
    let old := b.load n a r.span
    let b := match r.op with
      | 1 => b
      | 2 => b.store n a r.data
      | _ => b.store n a (remoteOp r old)
    let b := { b with fabric := { b.fabric with serving := tmod b.fabric.serving id fun x => { x with old := BitVec.ofNat 64 (ofLeBytes old) } } }
    b.servePiece e id 0 stOK (if r.op = 1 then old else List.replicate r.span 0)

/-- A request on device DRAM: it passes Customs under the owner's key, an ATOMIC or REDUCE as a read-modify-write (R224, R318). -/
def Block.serveDram (b : Block) (e : Env) (id : Nat) (w : Window) (r : FabMsg) : Block :=
  let a := w.r.base + r.offset
  let ctx := ((tget b.quay.slices w.r.owner).map (·.baseCtx)).getD 0
  (unitPieces a 8 r.span 0).foldl (fun b (off, len) =>
    let d := if r.op = 2 then (r.data.drop off).take len else []
    b.enterMem e { memReq (.window id off) (a + off) len (decide (r.op ≠ 1)) w.r.owner ctx 0 with rmw := decide (3 ≤ r.op), data := d }) b

/-- INBOUND_REQUEST (R224, R398): checked in order; dropped and counted, refused, or carried out. -/
def execInboundRequest (l : Nat) (r : FabMsg) (s : State) : Out :=
  onUnit (decide (l < 2 ∧ 1 ≤ r.op ∧ r.op ≤ 4)) s fun e b =>
    match b.screenMsg r with
    | .misroute => b.bump F.FE_STAT_MISROUTE
    | .epochDrop => b.bump F.FE_STAT_EPOCH_DROP
    | .refuse st => (b.bump F.FE_STAT_REFUSED).sendLink e l (respond r st 0 [])
    | .ok w =>
      let id := b.fabric.nextServe
      let b := { b with fabric := { b.fabric with
        serving := tput b.fabric.serving id ⟨l, r, r.span, 0, [], 0⟩, nextServe := id + 1
        windows := tput b.fabric.windows r.window { w with inflight := w.inflight + 1 } } }
      if r.span = 0 then b.serveDone e id
      else if w.r.berthStore then b.serveStore e id w r else b.serveDram e id w r

/-- Take an outstanding fabric request out of the table. -/
def Block.endReq (b : Block) (tag : Nat) : Block := { b with fabric := { b.fabric with reqs := tdel b.fabric.reqs tag } }

/-- The status a response's STATUS stands for (R22, R193): its failure code; a byte that names no failure gives an open one of them (log 29). -/
def Block.remoteStatus (b : Block) (st : Nat) : Nat × Block :=
  if failCodes.contains st then (st, b)
  else
    let (d, b) := b.draw
    (failCodes.getD (Config.freeNat d % failCodes.length) stAborted, b)

/-- A fabric request fails its transfer (R225, R399): a WRITE or REDUCE sent before a save the saved or restored one; a READ or ATOMIC given up by then fails nothing. -/
def Block.requestFailed (b : Block) (e : Env) (q : FabReq) (st l : Nat) : Block :=
  match q.gone with
  | none => b.failXfer e q.b q.e q.serial st ukLink l 0 0
  | some o => if q.op = 1 ∨ q.op = 3 then b.strayFailed e o q.e q.serial st ukLink l 0 else b

/-- REMOTE_RESPONSE (R399): accepted only in the current epoch and for an outstanding request; a status other than OK fails the transfer. -/
def execRemoteResponse (l : Nat) (r : FabMsg) (s : State) : Out :=
  onUnit (decide (l < 2 ∧ r.op = 8)) s fun e b =>
    match (if r.epoch = e.epoch then tget b.fabric.reqs r.tag else none) with
    | none => b.bump F.FE_STAT_STALE_RSP
    | some q =>
      if q.ping.isSome then b.bump F.FE_STAT_STALE_RSP
      else
        let b := b.endReq r.tag
        if r.status ≠ stOK then
          let (st, b) := b.remoteStatus r.status
          b.requestFailed e q st l
        else if q.gone.isSome then b
        else
          let b := match q.op with
            | 0 => b.gotData q.b q.e q.serial q.off q.store r.data
            | 2 => b.gotData q.b q.e q.serial q.off q.store (leBytes 8 r.operand.toNat)
            | _ => b.wrote q.b q.e q.serial q.bytes
          (b.answered e q.b).kick e q.b q.e

/-- REMOTE_TIMEOUT (R225, R399, R516): a request unanswered after REMOTE_TO fails its transfer; a PING replies TIMEOUT. -/
def execRemoteTimeout (tag : Nat) (s : State) : Out :=
  onBlk s fun e b =>
    match tget b.fabric.reqs tag with
    | none => b
    | some q =>
      if e.now < q.since + b.rd F.FE_CTL_REMOTE_TO * 1000 then b
      else
        let b := (b.endReq tag).bump F.FE_STAT_TIMEOUTS
        match q.ping with
        | some (m, _) => b.endMgr e m 0x0408 rcTimeout
        | none => b.requestFailed e q stTimeoutRemote q.link

/-! ### Windows and groups -/

/-- Every granule of a range is assigned to a slice (R397). -/
def Block.ownsRange (b : Block) (sl base size : Nat) : Bool :=
  (List.range (cdiv (base % 2 ^ 21 + size) (2 ^ 21))).all fun i => b.granule (base / 2 ^ 21 * 2 ^ 21 + i * 2 ^ 21) = some sl

/-- WINDOW_OPEN (R397). -/
def execWindowOpen (m : Mgr) (r : WinRec) (s : State) : Out :=
  onBlk s fun e b => b.manager e m 0x0401 fun b =>
    let ranges := decide (r.window < 4096 ∧ r.owner < 512 ∧ r.peer < 512 ∧ r.epoch < 256 ∧ 64 ≤ r.size ∧ r.size ≤ 2 ^ 40)
    let back := if r.berthStore then
        decide (r.berth < 16 ∧ r.base % 64 = 0 ∧ r.base + r.size ≤ storeBytes) && (b.partBerths (b.slicePart r.owner)).contains r.berth
      else decide (r.base % 4096 = 0 ∧ r.size % 4096 = 0 ∧ r.base < 2 ^ 39) && b.ownsRange r.owner r.base r.size
    let grp := !r.byGroup || match tget b.fabric.groups r.peer with | some g => g.r.owner = r.owner | none => false
    if !ranges || !back || !grp then b.reply m 0x0401 rcBadArg
    else if thas b.fabric.windows r.window then b.reply m 0x0401 rcBusy
    else if b.sliceState r.owner ≠ slActive then b.reply m 0x0401 rcDenied
    else ({ b with fabric := { b.fabric with windows := tput b.fabric.windows r.window ⟨r, 0, none, 0⟩ } }).reply m 0x0401 rcDone

/-- WINDOW_CLOSE (R414, R415): checked requests complete, and the reply follows them. -/
def execWindowClose (m : Mgr) (win : Nat) (s : State) : Out :=
  onBlk s fun e b => b.manager e m 0x0402 fun b =>
    match tget b.fabric.windows win with
    | none => b.reply m 0x0402 rcBadArg
    | some w =>
      if w.closing.isSome then b.reply m 0x0402 rcBadArg
      else
        let b := { b with fabric := { b.fabric with windows := tput b.fabric.windows win { w with closing := some (some m) } } }
        (b.startMgr e m 0x0402 [] win).closeIfIdle e win

/-- WINDOW_INFO (R415): the record and PREV_EPOCH. -/
def execWindowInfo (m : Mgr) (win : Nat) (s : State) : Out :=
  onBlk s fun e b => b.manager e m 0x0403 fun b =>
    match tget b.fabric.windows win with
    | none => b.reply m 0x0403 rcBadArg
    | some w => b.reply m 0x0403 rcDone (w.r.words ++ [w.prevEpoch])

/-- GROUP_SET (R403, R404, R414, R415). -/
def execGroupSet (m : Mgr) (r : GroupRec) (s : State) : Out :=
  onBlk s fun e b => b.manager e m 0x0404 fun b =>
    let n := r.members.length
    let ids := r.members.map (·.1)
    let ranges := decide (r.entry < 256 ∧ 1 ≤ r.slots ∧ r.slots ≤ 64 ∧ r.owner < 512 ∧ r.key < 2 ^ 32 ∧ 1 ≤ n ∧ n ≤ 512 ∧ r.seq0 < 2 ^ 32) &&
      r.members.all fun x => decide (x.1 < 512 ∧ x.2 < 256)
    let inUse := b.fabric.groups.any fun g => g.1 ≠ r.entry && g.2.r.key = r.key
    let slots := b.fabric.groups.foldl (fun k g => k + g.2.r.slots) 0
    let words := b.fabric.groups.foldl (fun k g => k + g.2.r.members.length) 0
    if !ranges || ids.eraseDups.length ≠ n || ids[r.myRank]? ≠ some b.blockId || inUse then b.reply m 0x0404 rcBadArg
    else if thas b.fabric.groups r.entry then b.reply m 0x0404 rcBusy
    else if 64 < slots + r.slots ∨ 65536 < words + n then b.reply m 0x0404 rcNoResource
    else ({ b with fabric := { b.fabric with groups := tput b.fabric.groups r.entry ⟨r, [], r.seq0, [], []⟩ } }).reply m 0x0404 rcDone

/-- A window begins to close, with no command waiting for it. -/
def Block.closeWindow (b : Block) (e : Env) (win : Nat) : Block :=
  ({ b with fabric := { b.fabric with windows := tmod b.fabric.windows win fun w =>
      { w with closing := match w.closing with | some x => some x | none => some none } } }).closeIfIdle e win

/-- GROUP_FREE (R414, R415): windows naming the entry close. -/
def execGroupFree (m : Mgr) (entry : Nat) (s : State) : Out :=
  onBlk s fun e b => b.manager e m 0x0405 fun b =>
    if !thas b.fabric.groups entry then b.reply m 0x0405 rcBadArg
    else if b.fabric.colls.any fun x => x.2.entry = entry then b.reply m 0x0405 rcBusy
    else
      let ws := (b.fabric.windows.filter fun w => w.2.r.byGroup && w.2.r.peer = entry).map (·.1)
      let b := ws.foldl (fun b w => b.closeWindow e w) b
      ({ b with fabric := { b.fabric with groups := tdel b.fabric.groups entry } }).reply m 0x0405 rcDone

/-- PEER_EPOCH (R401): every window entry and group member that names the block takes the new expected epoch, the old one becomes PREV_EPOCH. -/
def execPeerEpoch (m : Mgr) (blk epoch : Nat) (s : State) : Out :=
  onBlk s fun e b => b.manager e m 0x0406 fun b =>
    if 512 ≤ blk ∨ epoch = 0 ∨ 256 ≤ epoch then b.reply m 0x0406 rcBadArg
    else
      let ws := b.fabric.windows.map fun (x : Nat × Window) =>
        if !x.2.r.byGroup && x.2.r.peer = blk then (x.1, { x.2 with prevEpoch := x.2.r.epoch, r := { x.2.r with epoch := epoch } }) else x
      let gs := b.fabric.groups.map fun (x : Nat × Group) =>
        match x.2.r.members.find? fun y => y.1 = blk with
        | some (_, old) => (x.1, { x.2 with
            prevEpochs := tput x.2.prevEpochs blk old
            r := { x.2.r with members := x.2.r.members.map fun y => if y.1 = blk then (blk, epoch) else y } })
        | none => x
      ({ b with fabric := { b.fabric with windows := ws, groups := gs } }).reply m 0x0406 rcDone

/-- LINK_CONFIG (R415): values out of range are clamped; a change of rate or width retrains. -/
def execLinkConfig (m : Mgr) (l : Nat) (half narrow : Bool) (idleUs marginW marginH : Nat) (s : State) : Out :=
  onBlk s fun e b => b.manager e m 0x0407 fun b =>
    if 2 ≤ l then b.reply m 0x0407 rcBadArg
    else
      let x := b.link l
      let i := min idleUs 1000
      let w := min marginW 255
      let h := min marginH 255
      let changed := x.allowHalf ≠ half ∨ x.allowNarrow ≠ narrow
      let b := ((b.wr F.FE_LINK_IDLE_US l i).wr F.FE_LINK_MARGIN_W l w).wr F.FE_LINK_MARGIN_H l h
      let b := b.modLink l fun x => { x with allowHalf := half, allowNarrow := narrow }
      let b := if changed ∧ b.lstate l ≠ lkDown then (b.retrain l).wr F.FE_LINK_WIDTH l narrow.toNat else b
      if i ≠ idleUs ∨ w ≠ marginW ∨ h ≠ marginH then b.reply m 0x0407 rcClamped [half.toNat, narrow.toNat, i, w, h]
      else b.reply m 0x0407 rcDone

/-! ### PING (R516) -/

/-- A PING or PONG message. -/
def Block.pingMsg (b : Block) (op dst epoch tag : Nat) (ts : List Nat) : FabMsg :=
  { op := op, mod := 0, src := b.blockId, dst := dst, epoch := epoch, status := 0, tag := tag, len := 1, window := 0, offset := 0
    operand := 0, data := ts.flatMap (leBytes 8) ++ List.replicate (64 - 8 * ts.length) 0 }

/-- PING (R516): t1 is taken as the message leaves; the reply waits for the PONG. -/
def execPing (m : Mgr) (blk : Nat) (s : State) : Out :=
  onBlk s fun e b => b.manager e m 0x0408 fun b =>
    if 512 ≤ blk then b.reply m 0x0408 rcBadArg
    else
      let l := b.ferryLink blk
      let tag := b.fabric.nextTag
      let q : FabReq := ⟨16, 2, 0, blk, 0, 0, 0, 0, 0, e.now, l, some (m, e.now), none⟩
      let msg := b.pingMsg 0x20 blk e.epoch tag [e.now]
      (({ b with fabric := { b.fabric with reqs := tput b.fabric.reqs tag q, nextTag := (tag + 1) % 2 ^ 32 } }).startMgr e m 0x0408 [] blk).sendLink e l msg

/-- PING_RECEIVE (R516): t2 and t3 are taken, and the PONG carries t1, t2 and t3. -/
def execPingReceive (l : Nat) (r : FabMsg) (s : State) : Out :=
  onUnit (decide (l < 2)) s fun e b =>
    if r.dst ≠ b.blockId then b.bump F.FE_STAT_MISROUTE
    else b.sendLink e l (b.pingMsg 0x21 r.src r.epoch r.tag [ofLeBytes (r.data.take 8), e.now, e.now])

/-- The 64-bit two's complement of an integer. -/
def word64 (x : Int) : Nat := (BitVec.ofInt 64 x).toNat

/-- PONG_RECEIVE (R399, R516): t4 is taken; the reply gives t1 to t4, the round trip and the offset. -/
def execPongReceive (l : Nat) (r : FabMsg) (s : State) : Out :=
  onUnit (decide (l < 2)) s fun e b =>
    match (if r.epoch = e.epoch then tget b.fabric.reqs r.tag else none) with
    | none => b.bump F.FE_STAT_STALE_RSP
    | some q =>
      match q.ping with
      | none => b.bump F.FE_STAT_STALE_RSP
      | some (m, t1) =>
        let t2 := ofLeBytes ((r.data.drop 8).take 8)
        let t3 := ofLeBytes ((r.data.drop 16).take 8)
        let t4 := e.now
        let trip : Int := ((t4 : Int) - t1) - ((t3 : Int) - t2)
        let off : Int := (((t2 : Int) - t1) + ((t3 : Int) - t4)).fdiv 2
        (b.endReq r.tag).endMgr e m 0x0408 rcDone [t1, t2, t3, t4, word64 trip, word64 off]

end Sys2Proof.Machine
end

