-- ==== Sys2Proof/Machine/Partitions.lean ====
section
/-! DEFINITION. Partitions, regulators and slices: the meanings of R328 to R353 and R436. -/

namespace Sys2Proof.Machine

open Sys2Proof

/-! ### Partitions (R328, R346) -/

/-- A slice belongs to a partition. -/
def Block.partHasSlices (b : Block) (p : Nat) : Bool := b.quay.slices.any fun x => b.slicePart x.1 = p

/-- A berth that can join a partition: opened, unowned, not failed. -/
def Block.canJoin (b : Block) (n : Nat) : Bool :=
  (b.berth n).opened && b.rd F.BT_STATE_OWNED n = 0 && !b.harbour.failed.contains (.berth n) && b.bstate n ≠ bsFailed

/-- A berth leaves a partition that is destroyed: free of work it is gated; what a scrub or reset still holds is gated after it. -/
def Block.releaseBerth (b : Block) (e : Env) (n : Nat) : Block :=
  let b := (b.disownBerth n).wr F.BT_CTL_DRAIN n 0
  if b.bstate n = bsIdle ∨ b.bstate n = bsDrained then b.gateBerth e n else b

/-- A partition is destroyed: its berths are released, its registers and buckets are as after start-up. -/
def Block.dropPartition (b : Block) (e : Env) (p : Nat) : Block :=
  let b := (b.partBerths p).foldl (fun b n => b.releaseBerth e n) b
  let b := ((b.setReg .bwPart p 0).setReg .bwSched p (RegKind.bwSched).resetWord).wr F.BW_SCHED_QUANTUM p (b.cfgInt 0x0602 2000)
  let b := (List.range 28).foldl (fun b x => b.setReg .bwRate (32 * p + x) (RegKind.bwRate).resetWord) b
  { (b.setReg .mfPctl p (RegKind.mfPctl).resetWord) with
    ports := { b.ports with buckets := b.ports.buckets.filter fun x => x.1 / 32 ≠ p }
    quantumFrom := tdel b.quantumFrom p }

/-- A partition comes to be over some berths; those that are gated are switched on (R80). -/
def Block.makePartition (b : Block) (e : Env) (p : Nat) (ns : List Nat) : Block :=
  ns.foldl (fun b n => if b.bstate n = bsGated then b.switchOn n else b) (b.newPartition e p ns)

/-- MODE_SET (R41, R328): every partition goes; POOLED makes partition 0 over every working berth. -/
def execModeSet (m : Mgr) (mode : Nat) (s : State) : Out :=
  onBlk s fun e b => b.partCommand e m 0x0101 (List.range 16) (.modeSet m mode) fun b =>
    if 1 < mode then b.reply m 0x0101 rcBadArg
    else if !b.quay.slices.isEmpty then b.reply m 0x0101 rcNotQuiesced
    else
      let b := ((List.range 16).filter fun p => b.partExists p).foldl (fun b p => b.dropPartition e p) b
      let b := b.wr F.BW_MODE_MODE 0 mode
      let b := if mode = 1 then b.makePartition e 0 ((List.range 16).filter fun n => b.canJoin n) else b
      b.reply m 0x0101 rcDone

/-- PARTITION_CREATE (R328). -/
def execPartitionCreate (m : Mgr) (p berths : Nat) (s : State) : Out :=
  onBlk s fun e b => b.partCommand e m 0x0102 [p] (.partitionCreate m p berths) fun b =>
    if b.rd F.BW_MODE_MODE = 1 then b.reply m 0x0102 rcDenied
    else if 16 ≤ p ∨ berths = 0 ∨ 2 ^ 16 ≤ berths then b.reply m 0x0102 rcBadArg
    else if b.partExists p || !(bitsOf 16 berths).all (fun n => b.canJoin n) then b.reply m 0x0102 rcBadArg
    else (b.makePartition e p (bitsOf 16 berths)).reply m 0x0102 rcDone

/-- PARTITION_DESTROY (R328). -/
def execPartitionDestroy (m : Mgr) (p : Nat) (s : State) : Out :=
  onBlk s fun e b => b.partCommand e m 0x0103 [p] (.partitionDestroy m p) fun b =>
    if b.rd F.BW_MODE_MODE = 1 then b.reply m 0x0103 rcDenied
    else if !b.partExists p then b.reply m 0x0103 rcBadArg
    else if b.partHasSlices p then b.reply m 0x0103 rcNotQuiesced
    else (b.dropPartition e p).reply m 0x0103 rcDone

/-- The berths an armed LC queue needs (R342, R346). -/
def Block.queueStreams (b : Block) (q : Queue) : Nat :=
  match q.standing with
  | some (_, .tensor t, _) => t.streams
  | some _ => 0
  | none => ((b.manifest.models.map (·.2)).filter fun x => x.r.owner = q.slice || x.r.share = some q.slice).foldl (fun k x => max k x.r.streams) 0

/-- The most berths an armed LC queue of a partition needs. -/
def Block.lcStreams (b : Block) (p : Nat) : Nat :=
  (b.quay.queues.filter fun x => x.2.lc && b.slicePart x.2.slice = p).foldl (fun k x => max k (b.queueStreams x.2)) 0

/-- The removal of a berth begins (R346): DRAINING and DRAIN; a gated or a drained berth leaves at once. -/
def Block.beginRemove (b : Block) (e : Env) (n : Nat) : Block :=
  if b.rd F.BT_STATE_OWNED n = 0 then b
  else if b.bstate n = bsGated ∨ b.bstate n = bsFailed then (b.disownBerth n).wr F.BT_CTL_DRAIN n 0
  else
    let p := b.rd F.BT_STATE_PARTITION n
    let b := b.wr F.BW_PART_DRAINING p (setBit (b.rd F.BW_PART_DRAINING p) n true)
    if b.bstate n = bsDrained then b.berthDrained e n else b.setDrain e n true

/-- PARTITION_RESIZE (R328, R345, R346): the berths in REMOVE drain and leave, then those in ADD join. -/
def execPartitionResize (m : Mgr) (p add remove : Nat) (s : State) : Out :=
  onBlk s fun e b => b.partCommand e m 0x0104 [p] (.partitionResize m p add remove) fun b =>
    let adds := bitsOf 16 add
    let rems := bitsOf 16 remove
    let gone (n : Nat) : Bool := b.harbour.failed.contains (.berth n)
    let mine (n : Nat) : Bool := b.rd F.BT_STATE_OWNED n = 1 && b.rd F.BT_STATE_PARTITION n = p
    if !b.partExists p ∨ 2 ^ 16 ≤ add ∨ 2 ^ 16 ≤ remove then b.reply m 0x0104 rcBadArg
    else if b.rd F.BW_MODE_MODE = 1 && !rems.all gone then b.reply m 0x0104 rcDenied
    else if !(rems.all fun n => mine n || gone n) || !adds.all (fun n => b.canJoin n) then b.reply m 0x0104 rcBadArg
    else
      let count := ((List.range 16).filter fun n => (mine n && !rems.contains n) || adds.contains n).length
      if b.partHasSlices p && count = 0 then b.reply m 0x0104 rcBadArg
      else if count < b.lcStreams p ∨ b.lcCapacity p count < b.rd F.BW_SCHED_LC_LOAD p then b.reply m 0x0104 rcNoResource
      else (rems.foldl (fun b n => b.beginRemove e n) (b.startMgr e m 0x0104 [p] (remove * 65536 + add))).resizeGo e

/-! ### Regulators (R333, R334) -/

/-- A port's capacity for RATE + OTHER, GB/s (R333). -/
def portCapacity (x : Nat) : Nat := if x < 8 then 1078 else if x < 24 then 128 else if x < 26 then 200 else 128

/-- A regulated port is connected (R2). -/
def Env.portConnected (e : Env) (x : Nat) : Bool :=
  if x < 8 then e.memConnected x else if x < 24 then e.ties.holdMask.testBit ((x - 8) / 2) else true

/-- GB/s the other partitions leave at a port. -/
def Block.portRoom (b : Block) (p x : Nat) : Nat :=
  portCapacity x - ((List.range 16).filter fun q => q ≠ p && b.partExists q).foldl
    (fun k q => k + b.rd F.BW_RATE_RATE (32 * q + x) + b.rd F.BW_RATE_OTHER (32 * q + x)) 0

/-- RATE and OTHER within a room (R334): reduced in proportion, each rounded down, what is left goes to RATE. -/
def fitRates (room rate other : Nat) : Nat × Nat :=
  if rate + other ≤ room then (rate, other)
  else
    let o := other * room / (rate + other)
    (room - o, o)

/-- RATE at least 1 GB/s, out of OTHER where the port has no more room (R334). -/
def atLeastOne (room : Nat) (r : Nat × Nat) : Nat × Nat :=
  if r.1 ≠ 0 then r
  else if r.1 + r.2 < room then (1, r.2)
  else if r.2 = 0 then r else (1, r.2 - 1)

/-- REGULATOR_SET (R328, R334): clamped, and the tokens held are cut to the new depths. -/
def execRegulatorSet (m : Mgr) (p x rate other burst : Nat) (borrow : Bool) (s : State) : Out :=
  onBlk s fun e b => b.partCommand e m 0x0105 [p] (.regulatorSet m p x rate other burst borrow) fun b =>
    if !b.partExists p ∨ 28 ≤ x ∨ 4096 ≤ rate ∨ 4096 ≤ other then b.reply m 0x0105 rcBadArg
    else
      let room := b.portRoom p x
      let r := fitRates room rate other
      let r := if e.portConnected x && !(b.partBerths p).isEmpty then atLeastOne room r else r
      let bu := clampN 1 64 burst
      let i := 32 * p + x
      let old := b.bucket e p x
      let b := (((b.wr F.BW_RATE_RATE i r.1).wr F.BW_RATE_OTHER i r.2).wr F.BW_RATE_BURST i bu).wr F.BW_RATE_BORROW i borrow.toNat
      let b := b.setBucket p x ⟨min old.rate (r.1 * bu * 1000), min old.other (r.2 * bu * 1000), e.now⟩
      if r = (rate, other) ∧ bu = burst then b.reply m 0x0105 rcDone
      else b.reply m 0x0105 rcClamped [r.1, r.2, bu, borrow.toNat]

/-- SCHED_SET (R328, R340, R343): QUANTUM is clamped; a change of it starts its boundaries afresh. -/
def execSchedSet (m : Mgr) (p quantum admitOpp lcShare : Nat) (preemptLc : Bool) (s : State) : Out :=
  onBlk s fun e b => b.partCommand e m 0x010D [p] (.schedSet m p quantum admitOpp lcShare preemptLc) fun b =>
    if !b.partExists p ∨ 16 ≤ admitOpp ∨ 256 ≤ lcShare then b.reply m 0x010D rcBadArg
    else if (b.partBerths p).length * 1000000 * lcShare / 256 < b.rd F.BW_SCHED_LC_LOAD p then b.reply m 0x010D rcNoResource
    else
      let q := clampN 100 65000 quantum
      let b : Block := if b.rd F.BW_SCHED_QUANTUM p = q then b else { b with quantumFrom := tput b.quantumFrom p e.now }
      let b := (((b.wr F.BW_SCHED_QUANTUM p q).wr F.BW_SCHED_ADMIT_OPP p admitOpp).wr F.BW_SCHED_LC_SHARE p lcShare).wr F.BW_SCHED_PREEMPT_LC p preemptLc.toNat
      if q = quantum then b.reply m 0x010D rcDone else b.reply m 0x010D rcClamped [q, admitOpp, lcShare, preemptLc.toNat]

/-! ### Slices: what a record may hold (R330, R331) -/

/-- The fields of a slice record lie in their ranges (R302, R330), but for the admin rings; quotas too small for what a slice is given at creation are raised, not refused (R331). -/
def recordOk (r : SliceRec) : Bool :=
  decide (1 ≤ r.weight ∧ r.weight ≤ 255 ∧ r.msixBase < 2048 ∧ r.msixCount ≤ 2048 ∧ (r.msixCount = 0 ∨ r.msixBase + r.msixCount ≤ 2048) ∧
    r.qContexts < 2 ^ 12 ∧ r.qInflight ≤ 16384 ∧ r.qFences ≤ 65536 ∧ r.qQueues ≤ 256 ∧ r.stampQuota < 2 ^ 19 ∧ r.serveQuota < 2 ^ 15 ∧
    r.granFirst < 2 ^ 18 ∧ r.granCount ≤ 2 ^ 18)

/-- The admin rings of a slice record are well formed (R268, R330). -/
def adminRingsOk (r : SliceRec) : Bool :=
  decide (4 ≤ r.adminN ∧ r.adminN ≤ 16 ∧ 4 ≤ r.adminM ∧ r.adminM ≤ 16 ∧ r.adminSq < 2 ^ 64 ∧ r.adminCq < 2 ^ 64 ∧
    r.adminSq % (64 * 2 ^ r.adminN) = 0 ∧ r.adminCq % (32 * 2 ^ r.adminM) = 0)

/-- A granule can be assigned (R331, R345, R347): unassigned and cleared, on a connected port that has opened, below the MAC region. -/
def Block.granuleFree (b : Block) (e : Env) (g : Nat) : Bool :=
  let p := g / 2 ^ 15
  e.memConnected p && b.ports.opened.contains p && decide (g < b.dataTop p) && (b.granule (g * 2 ^ 21)).isNone && !b.granuleDirty g

/-- A vector of another slice than sl, or of a mailbox. -/
def Block.vectorOfOther (b : Block) (sl v : Nat) : Bool :=
  (b.quay.slices.any fun x => x.1 ≠ sl && decide (x.2.msixBase ≤ v ∧ v < x.2.msixBase + x.2.msixCount)) ||
  ((List.range 8).any fun c => b.rd F.MB_CFG_VEC_EN c = 1 && b.rd F.MB_CFG_VECTOR c = v)

/-- Stamp entries the other slices' quotas leave (R307). -/
def Block.stampRoomFor (b : Block) (sl : Nat) : Nat :=
  262144 - (b.quay.slices.filter fun x => x.1 ≠ sl).foldl (fun k x => k + b.rd F.PL_SQUOTA_QUOTA x.1) 0

/-- What the ENTRIES of the other partitions leave of the sequence table (R331; log 114). -/
def Block.entriesRoom (b : Block) (p : Nat) : Nat :=
  16384 - ((List.range 16).filter (· ≠ p)).foldl (fun n q => n + b.rd F.MF_PCTL_ENTRIES q) 0

/-- Write a slice's quotas, each within its bound (R307, R331). -/
def Block.setQuotas (b : Block) (sl : Nat) (r : SliceRec) : Block :=
  let b := (((b.wr F.QY_SQUOTA_CONTEXTS sl r.qContexts).wr F.QY_SQUOTA_INFLIGHT sl r.qInflight).wr F.QY_SQUOTA_FENCES sl r.qFences).wr F.QY_SQUOTA_QUEUES sl r.qQueues
  (b.wr F.PL_SQUOTA_QUOTA sl (min r.stampQuota (b.stampRoomFor sl))).wr F.MF_SQUOTA_QUOTA sl (min r.serveQuota (b.entriesRoom (b.slicePart sl)))

/-- Steps 1 to 4 of R332: binding, quotas, granules, a fresh key, vectors. The base context's number tags the slice's traffic from then on (R11). -/
def Block.bindSlice (b : Block) (sl ctx : Nat) (r : SliceRec) : Block :=
  let x : Slice := {
    pasid := r.pasid, baseCtx := ctx, msixBase := r.msixBase, msixCount := r.msixCount, granFirst := r.granFirst, granCount := r.granCount
    vtime := 0, coreV := 0, listServed := 0, tracing := false, tracePort := false, savedMode := false, quiesce := none, exports := 0
    log := [], chain := 0, logLost := false, view := none, objectsRead := [] }
  let b : Block := { b with
    quay := { b.quay with slices := tput b.quay.slices sl x }
    tally := { b.tally with berthNs := tdel b.tally.berthNs sl, coreNs := tdel b.tally.coreNs sl } }
  let b := ((b.wr F.BW_SLICE_PARTITION sl r.partition).wr F.BW_SLICE_WEIGHT sl r.weight).wr F.BW_SLICE_STATE sl 0
  let b := (b.setQuotas sl r).setGranules r.granFirst r.granCount (some sl)
  let (d, b) := b.draw
  { b with ports := { b.ports with keys := tput b.ports.keys sl (d + 1) } }.wr F.CU_KEY_VALID sl 1

/-- Why a record cannot be bound (R331). -/
def Block.refuseBind (b : Block) (e : Env) (sl : Nat) (r : SliceRec) : Option Nat :=
  if !recordOk r || decide (512 ≤ sl ∨ 2 ^ 20 ≤ r.pasid) || b.sliceExists sl || (b.quay.slices.any fun x => x.2.pasid = r.pasid) || !b.partExists r.partition then
    some rcBadArg
  else if !(List.range r.granCount).all (fun i => b.granuleFree e (r.granFirst + i)) ||
      (List.range r.msixCount).any (fun i => b.vectorOfOther sl (r.msixBase + i)) || decide (8192 ≤ b.quay.queues.length) || decide (4095 ≤ b.quay.ctxs.length) then
    some rcNoResource
  else none

/-- No slice is created while debug is unlocked or the block is RETURNED (R417, R424). -/
def Block.noNewSlice (b : Block) (e : Env) : Bool := b.harbour.debug || e.fuses.stage = 3

/-- SLICE_CREATE (R330 to R332): the slice is bound, and queue 0 is created once its rings are stamped. -/
def execSliceCreate (m : Mgr) (r : SliceRec) (s : State) : Out :=
  onBlk s fun e b => b.partCommand e m 0x0106 [r.partition, 16 + r.slice] (.sliceCreate m r) fun b =>
    if b.noNewSlice e then b.reply m 0x0106 rcDenied
    else if !adminRingsOk r then b.reply m 0x0106 rcBadArg
    else match b.refuseBind e r.slice r with
      | some rc => b.reply m 0x0106 rc
      | none =>
        let (ctx, b) := (b.newCtx r.slice).getD (0, b)
        let b := b.bindSlice r.slice ctx { r with qContexts := max 1 r.qContexts, qQueues := max 1 r.qQueues, qInflight := max 1 r.qInflight }
        let rings : List Need := [⟨r.adminSq, 64 * 2 ^ r.adminN, true, false, false, 0⟩, ⟨r.adminCq, 32 * 2 ^ r.adminM, false, true, false, 1⟩]
        (b.startMgr e m 0x0106 [r.partition, 16 + r.slice] 0).newTask e (StampTask.new r.slice 0 (.adminQueue r.slice m r) rings)

/-- Charge what runs of a slice at its present weight (R339, R341). -/
def Block.settleCharges (b : Block) (e : Env) : Block :=
  let b := (b.berths.map (·.1)).foldl (fun b n => b.chargeBerth e n) b
  (b.cores.map (·.1)).foldl (fun b g => b.chargeCore e g) b

/-- The record of SLICE_RESIZE with the fields its mask leaves out taken from the slice (R347). -/
def Block.masked (b : Block) (sl : Nat) (x : Slice) (k : ResizeMask) (r : SliceRec) : SliceRec :=
  { r with
    slice := sl
    weight := if k.weight then r.weight else b.rd F.BW_SLICE_WEIGHT sl
    qContexts := if k.qyQuota then r.qContexts else b.rd F.QY_SQUOTA_CONTEXTS sl
    qInflight := if k.qyQuota then r.qInflight else b.rd F.QY_SQUOTA_INFLIGHT sl
    qFences := if k.qyQuota then r.qFences else b.rd F.QY_SQUOTA_FENCES sl
    qQueues := if k.qyQuota then r.qQueues else b.rd F.QY_SQUOTA_QUEUES sl
    stampQuota := if k.stampQuota then r.stampQuota else b.rd F.PL_SQUOTA_QUOTA sl
    serveQuota := if k.serveQuota then r.serveQuota else b.rd F.MF_SQUOTA_QUOTA sl
    msixBase := if k.vectors then r.msixBase else x.msixBase
    msixCount := if k.vectors then r.msixCount else x.msixCount
    granFirst := if k.granules then r.granFirst else x.granFirst
    granCount := if k.granules then r.granCount else x.granCount }

/-- Granules of a slice that a new range leaves out are to be cleared (R347): those below it, those above it. -/
def Block.wipeGranules (b : Block) (sl first count first' count' : Nat) : Block :=
  let lo := if count' = 0 then count else min count (first' - first)
  let hi := if count' = 0 then 0 else min count (first + count - (first' + count'))
  let ws : List Wipe := [⟨none, first, lo, sl, 0, 0⟩, ⟨none, first + count - hi, hi, sl, 0, 0⟩]
  { b with ports := { b.ports with wipes := b.ports.wipes ++ ws.filter fun w => w.count ≠ 0 } }

/-- SLICE_RESIZE (R307, R331, R347): granules left out are not VALID from now on, and are cleared. -/
def execSliceResize (m : Mgr) (sl : Nat) (mask : ResizeMask) (r : SliceRec) (s : State) : Out :=
  onBlk s fun e b => b.partCommand e m 0x0107 [16 + sl] (.sliceResize m sl mask r) fun b =>
    match tget b.quay.slices sl with
    | none => b.reply m 0x0107 rcBadArg
    | some x =>
      let r := b.masked sl x mask r
      let had (g : Nat) : Bool := decide (x.granFirst ≤ g ∧ g < x.granFirst + x.granCount)
      if b.sliceState sl ≠ slActive || !recordOk r || r.qQueues = 0 then b.reply m 0x0107 rcBadArg
      else if !(List.range r.granCount).all (fun i => had (r.granFirst + i) || b.granuleFree e (r.granFirst + i)) ||
          (List.range r.msixCount).any (fun i => b.vectorOfOther sl (r.msixBase + i)) then b.reply m 0x0107 rcNoResource
      else
        let b := ((b.settleCharges e).wr F.BW_SLICE_WEIGHT sl r.weight).setQuotas sl r
        let b := ((b.setGranules x.granFirst x.granCount none).setGranules r.granFirst r.granCount (some sl)).wipeGranules sl x.granFirst x.granCount r.granFirst r.granCount
        let b := b.modSlice sl fun x => { x with msixBase := r.msixBase, msixCount := r.msixCount, granFirst := r.granFirst, granCount := r.granCount }
        if b.rd F.PL_SQUOTA_QUOTA sl = r.stampQuota ∧ b.rd F.MF_SQUOTA_QUOTA sl = r.serveQuota then b.reply m 0x0107 rcDone
        else b.reply m 0x0107 rcClamped [(b.reg .qySquota sl).toNat, b.rd F.PL_SQUOTA_QUOTA sl, b.rd F.MF_SQUOTA_QUOTA sl]

/-! ### Quiesce (R348 to R350) -/

/-- Something of a slice runs on a unit (R349): a job, a task, a transfer of Ferry or of a Lighter port, a list. -/
def Block.sliceRuns (b : Block) (sl : Nat) : Bool :=
  (b.quay.cmds.any fun (_, x) => x.slice = sl && (match x.body with
    | .serve _ _ _ _ => false
    | .list _ _ => false
    | .general _ => x.ph = .running || x.ph = .saved
    | _ => x.ph = .running)) ||
  (b.manifest.lists.any fun l => l.2.sliceA = sl || l.2.sliceB = some sl) ||
  (b.berths.any fun x => (x.2.stream.map (·.slice)) = some sl)

/-- SLICE_QUIESCE (R349): no fetching and no placing any more, and none of its commands is a candidate (R338, R348); SAVE yields the running jobs. -/
def execSliceQuiesce (m : Mgr) (sl mode timeoutMs : Nat) (s : State) : Out :=
  onBlk s fun e b => b.partCommand e m 0x0108 [16 + sl] (.sliceQuiesce m sl mode timeoutMs) fun b =>
    if !b.sliceExists sl || b.sliceState sl ≠ slActive || decide (1 < mode ∨ timeoutMs < 1 ∨ 10000 < timeoutMs) then b.reply m 0x0108 rcBadArg
    else
      let b := (b.startMgr e m 0x0108 [16 + sl] mode).wr F.BW_SLICE_STATE sl slQuiescing
      let b := b.modSlice sl fun x => { x with savedMode := decide (mode = 1), quiesce := some (m, e.now + timeoutMs * 1000000) }
      let b : Block := { b with quay := { b.quay with cmds := b.quay.cmds.map fun (y : Nat × Cmd) => (y.1, if y.2.slice = sl ∧ !y.2.list? then { y.2 with ready := false } else y.2) } }
      if mode = 0 then b
      else
        let js := b.quay.cmds.filter fun (_, x) => x.slice = sl && x.ph = .running && x.onBerths && !x.list?
        js.foldl (fun b (c, _) => b.yieldJob e c true) b

/-- QUIESCE_DONE (R349 step 5): nothing of the slice runs and its key has nothing in flight. -/
def execQuiesceDone (sl : Nat) (s : State) : Out :=
  onBlk s fun e b =>
    match tget b.quay.slices sl with
    | none => b
    | some x =>
      if b.sliceState sl ≠ slQuiescing || b.sliceRuns sl || b.rd F.CU_KEY_INFLIGHT sl ≠ 0 then b
      else
        let b := (b.wr F.BW_SLICE_STATE sl slQuiesced).modSlice sl fun x => { x with quiesce := none }
        match x.quiesce with
        | some (m, _) => b.endMgr e m 0x0108 rcDone
        | none => b

/-- SLICE_UNQUIESCE (R350). -/
def execSliceUnquiesce (m : Mgr) (sl : Nat) (s : State) : Out :=
  onBlk s fun e b => b.partCommand e m 0x0109 [16 + sl] (.sliceUnquiesce m sl) fun b =>
    if b.sliceExists sl && b.sliceState sl = slExporting then b.reply m 0x0109 rcBusy
    else if !b.sliceExists sl || b.sliceState sl ≠ slQuiesced then b.reply m 0x0109 rcBadArg
    else (b.wr F.BW_SLICE_STATE sl slActive).reply m 0x0109 rcDone

/-! ### Removal (R351, R436) -/

/-- Step 2 of R351: the slice's queues go, held records are dropped and counted, their signals applied, admitted loads taken off. -/
def Block.dropQueues (b : Block) (e : Env) (sl : Nat) : Block :=
  let p := b.slicePart sl
  let qs := b.quay.queues.filter fun x => x.2.slice = sl
  let b := qs.foldl (fun b (qn, q) =>
    let b := b.dropHeld e qn
    b.wr F.BW_SCHED_LC_LOAD p (b.rd F.BW_SCHED_LC_LOAD p - q.load)) b
  { b with quay := { b.quay with queues := b.quay.queues.filter fun x => x.2.slice ≠ sl } }

/-- Step 3 of R351: windows close, group entries are freed with the windows that name them, Hold grants and fence rights are withdrawn. -/
def Block.dropGrants (b : Block) (e : Env) (sl : Nat) : Block :=
  let gs := (b.fabric.groups.filter fun g => g.2.r.owner = sl).map (·.1)
  let ws := (b.fabric.windows.filter fun w => w.2.r.owner = sl || (w.2.r.byGroup && gs.contains w.2.r.peer)).map (·.1)
  let b := ws.foldl (fun b w => b.closeWindow e w) b
  let b : Block := { b with
    fabric := { b.fabric with groups := b.fabric.groups.filter fun g => g.2.r.owner ≠ sl }
    hold := { b.hold with objs := b.hold.objs.map fun o => (o.1, { o.2 with grants := o.2.grants.filter fun g => g.1 ≠ sl }) }
    quay := { b.quay with fences := b.quay.fences.map fun f => (f.1, { f.2 with rights := f.2.rights.filter fun g => g.slice ≠ sl }) } }
  (b.stopLog sl).freeFences

/-- Models of a removed owner are retired, and fallbacks that name them cleared. -/
def Block.dropModels (b : Block) (sl : Nat) : Block :=
  let gone := (b.manifest.models.filter fun x => x.2.r.owner = sl).map (·.1)
  { b with manifest := { b.manifest with models := (b.manifest.models.filter fun x => x.2.r.owner ≠ sl).map fun (x : Nat × Model) =>
      (x.1, { x.2 with r := { x.2.r with fallback := x.2.r.fallback.filter fun h => !gone.contains h, share := x.2.r.share.filter fun h => h ≠ sl } }) } }

/-- Step 4 of R351: the slice's stamps, translations and stamping tasks go. -/
def Block.dropStamps (b : Block) (sl pasid : Nat) : Block :=
  let b := b.freeStamps ((b.pilot.stamps.filter fun y => y.2.slice = sl).map (·.1))
  { b with
    pilot := { b.pilot with
      stamps := b.pilot.stamps.filter fun y => y.2.slice ≠ sl
      cache := cachePurge b.pilot.cache (some pasid) 0 (2 ^ 64) }
    quay := { b.quay with digested := b.quay.digested.filter fun x => x.1 ≠ sl } }.dropTasks fun t => t.slice = sl

/-- SLICE_REMOVE (R49, R328, R351, R354, R436): NOT_QUIESCED while the slice is QUIESCING, though its quiesce is in progress; steps 1 to 4, then the key slot begins to close. -/
def execSliceRemove (m : Mgr) (sl : Nat) (s : State) : Out :=
  onBlk s fun e b =>
   if b.sliceExists sl && b.sliceState sl = slQuiescing then
    { b with harbour := { b.harbour with inTurn := false } }.manager e m 0x010A fun b => b.reply m 0x010A rcNotQuiesced
   else b.partCommand e m 0x010A [16 + sl] (.sliceRemove m sl) fun b =>
    match tget b.quay.slices sl with
    | none => b.reply m 0x010A rcBadArg
    | some x =>
      if b.sliceState sl = slExporting then b.reply m 0x010A rcBusy
      else if b.sliceState sl ≠ slQuiesced then b.reply m 0x010A rcNotQuiesced
      else
        let b := (b.startMgr e m 0x010A [16 + sl] 0).wr F.BW_SLICE_STATE sl slRemoving
        let b := ((b.quay.ctxs.filter fun k => k.2.slice = sl).map (·.1)).foldl (fun b k => b.tearCtx e k) b
        let b := ((b.quay.cmds.filter fun c => c.2.slice = sl && !c.2.list?).map (·.1)).foldl (fun b c => b.retire e c true) b
        let b := b.dropSlots fun v => v.stream.slice = sl
        let b := (((b.dropQueues e sl).dropServing sl).dropGrants e sl).dropModels sl
        let b := (b.dropStamps sl x.pasid).wr F.CU_KEY_CLOSING sl 1
        { b with ports := { b.ports with closing := tput b.ports.closing sl e.now } }

/-- KEY_ZEROISE (R351 steps 5 and 6, R436): once the slots of the slice's saved jobs are cleared, with nothing in flight, or 100 µs after CLOSING, the key is gone, what is still outstanding will be discarded, and the slice is ABSENT. -/
def execKeyZeroise (sl : Nat) (s : State) : Out :=
  onBlk s fun e b =>
    match tget b.ports.closing sl, tget b.quay.slices sl with
    | some t, some x =>
      if (b.rd F.CU_KEY_INFLIGHT sl ≠ 0 ∧ e.now < t + 100000) ∨ b.ports.wipes.any (fun w => w.slot.isSome && w.slice = sl) then b
      else
        let vec (v : Nat) : Bool := decide (x.msixBase ≤ v ∧ v < x.msixBase + x.msixCount)
        let b : Block := { b with
          ports := { b.ports with
            closing := tdel b.ports.closing sl
            out := b.ports.out.map fun r => if r.2.slice = sl ∧ r.2.ctx ≠ 0 then (r.1, { r.2 with slice := 1024 + sl }) else r }
          host := { b.host with msix := b.host.msix.filter fun y => !vec y.1 } }
        let b := b.dropSlice sl
        match b.harbour.running.find? fun r => r.opcode = 0x010A && r.touches.contains (16 + sl) with
        | some r => b.endMgr e r.m 0x010A rcDone
        | none => b
    | _, _ => b

/-! ### Migration (R352, R353, R431) -/

/-- The 64 bytes of a slice record (R330). -/
def recordBytes (r : SliceRec) : List Byte :=
  leBytes 2 r.slice ++ leBytes 1 r.partition ++ leBytes 1 r.weight ++ leBytes 4 r.pasid ++ leBytes 8 r.adminSq ++ leBytes 8 r.adminCq ++
  leBytes 1 r.adminN ++ leBytes 1 r.adminM ++ leBytes 2 r.msixBase ++ leBytes 2 r.msixCount ++ leBytes 2 0 ++
  leBytes 8 (r.qQueues + r.qFences * 2 ^ 12 + r.qInflight * 2 ^ 32 + r.qContexts * 2 ^ 48) ++
  leBytes 4 r.stampQuota ++ leBytes 2 r.serveQuota ++ leBytes 2 0 ++ leBytes 4 r.granFirst ++ leBytes 4 r.granCount ++ leBytes 8 0

/-- The virtual address of a ring of a queue. -/
def Block.ringVa (b : Block) (q : Queue) (i : Nat) : Nat := ((q.ringHeads[i]?.bind b.head).map (·.va)).getD 0

/-- One queue in an export image (R297, R352). -/
def Block.exportQueue (b : Block) (q : Queue) : ImageQueue :=
  { body := { k := q.k, cls := q.cls, standing := q.standing.isSome, lc := q.lc, bind := q.bind, vector := q.vector, sqVa := b.ringVa q 0, cqVa := b.ringVa q 1
              n := q.n, m := q.m, depth := q.depth, moderate := q.moderate, rate := q.rate, standingVa := q.standingVa }
    held := q.standing.map fun y => (y.1, y.2.1), head := q.fetch, tail := q.tail, cqHead := q.cqHead, cqTail := q.cqTail }

/-- The export image of a slice (R352): its record, its queues with the admin queue first, its contexts with the base context first, its fences, its Manifest entries, its held commands with their save slots. -/
def Block.exportImage (b : Block) (sl : Nat) (x : Slice) : SliceImage :=
  let qs := b.quay.queues.filter fun q => q.2.slice = sl
  let qs := qs.filter (fun q => q.2.k = 0) ++ qs.filter fun q => q.2.k ≠ 0
  let admin : Queue → Nat → Nat := fun q i => b.ringVa q i
  let r : SliceRec := {
    slice := sl, partition := b.slicePart sl, weight := 0, pasid := x.pasid
    adminSq := ((qs.head?).map fun q => admin q.2 0).getD 0, adminCq := ((qs.head?).map fun q => admin q.2 1).getD 0
    adminN := ((qs.head?).map (·.2.n)).getD 0, adminM := ((qs.head?).map (·.2.m)).getD 0
    msixBase := 0, msixCount := 0, qContexts := 0, qInflight := 0, qFences := 0, qQueues := 0, stampQuota := 0, serveQuota := 0, granFirst := 0, granCount := 0 }
  { r := b.masked sl x ⟨false, false, false, false, false, false⟩ r
    queues := qs.map fun q => b.exportQueue q.2
    ctxs := x.baseCtx :: ((b.quay.ctxs.filter fun k => k.2.slice = sl && k.1 ≠ x.baseCtx).map (·.1))
    fences := (b.quay.fences.filter fun f => f.2.slice = sl).map fun (n, f) => ⟨n, f.owner, f.value, f.broken, f.rights.map fun g => (g.slice, g.wait, g.signal), f.mirror⟩
    seqs := (b.manifest.seqs.filter fun y => y.2.slice = sl).map fun (n, y) =>
      ⟨n, y.g, y.phase, y.onFallback, y.position, y.pending, y.parkReason, y.resumePhase, y.fbPos, y.kvPos, y.pages, y.fbPages⟩
    arm := b.armOf sl
    jobs := (b.quay.cmds.filter fun c => c.2.slice = sl && !c.2.list?).map fun (c, y) =>
      { queue := qs.findIdx fun q => q.1 = y.q, hdr := y.hdr, sync := y.sync, body := y.body, bufs := y.bufs, launchPos := y.launchPos
        anchorFlags := y.anchorFlags, busy := y.busy, copied := y.copied, slots := (b.slots.filter fun v => v.2.stream.job = c).map (·.2) } }

/-- SLICE_EXPORT (R352, R431): the sealed image goes to the host in untranslated writes; STATE is EXPORTING until they are out. The layout of the image is open (log 44). -/
def execSliceExport (m : Mgr) (sl addr len keyId : Nat) (s : State) : Out :=
  onBlk s fun e b => b.partCommand e m 0x010B [16 + sl] (.sliceExport m sl addr len keyId) fun b =>
    match tget b.quay.slices sl, tget b.harbour.migKeys keyId with
    | some x, some key =>
      if b.sliceState sl ≠ slQuiesced || !x.savedMode then b.reply m 0x010B rcBadArg
      else
        let img := b.exportImage sl x
        let image := Config.sealedImage (recordBytes img.r) img key
        if len < image.length then b.reply m 0x010B rcNoResource
        else
          let b := (b.modSlice sl fun x => { x with exports := x.exports + 1 }).wr F.BW_SLICE_STATE sl slExporting
          (b.send (.untranslated addr image)).startMgr e m 0x010B [16 + sl] 0
    | _, _ => b.reply m 0x010B rcBadArg

/-- Exports whose writes are out end (R352): the slice is QUIESCED again, and the command replies DONE. -/
def Block.endExports (b : Block) (e : Env) : Block :=
  (b.harbour.running.filter fun r => r.opcode = 0x010B).foldl (fun b r =>
    (b.wr F.BW_SLICE_STATE (r.touches.headD 0 - 16) slQuiesced).endMgr e r.m 0x010B rcDone) b

/-- SLICE_IMPORT (R331, R353, R431): a verified image is bound as in R332 under the numbers it gives; its slice is QUIESCED, with its held and saved commands, once its rings and their buffers are stamped. -/
def execSliceImport (m : Mgr) (sl p addr len keyId : Nat) (verified : Bool) (img : SliceImage) (s : State) : Out :=
  onBlk s fun e b => b.partCommand e m 0x010C [p, 16 + sl] (.sliceImport m sl p addr len keyId verified img) fun b =>
    let _ := (addr, len)
    let r := { img.r with slice := sl, partition := p }
    if b.noNewSlice e || !thas b.harbour.migKeys keyId || !verified then b.reply m 0x010C rcDenied
    else match b.refuseBind e sl r with
      | some rc => b.reply m 0x010C rc
      | none =>
        let taken := img.ctxs.isEmpty || (img.ctxs.any fun c => c = 0 || thas b.quay.ctxs c) || (img.fences.any fun f => thas b.quay.fences f.num) ||
          (img.seqs.any fun y => thas b.manifest.seqs y.num) || decide ((b.freeSlots e).length < (img.jobs.flatMap (·.slots)).length)
        if taken then b.reply m 0x010C rcNoResource
        else (((b.bindSlice sl (img.ctxs.headD 0) r).importReserve e sl img).startMgr e m 0x010C [p, 16 + sl] 0).newTask e
          (StampTask.new sl 0 (.imported sl m { img with r := r }) (sliceNeeds img))

end Sys2Proof.Machine
end

