-- ==== Sys2Proof/Machine/Security.lean ====
section
/-! DEFINITION. SPDM, the lease, reports and keys: the meanings of R423 to R431, R437 to R439 and R454. -/

namespace Sys2Proof.Machine

open Sys2Proof

/-! ### SPDM (R425, R426) -/

/-- Response codes of SPDM (PRESUMED, DSP0274: log 24). -/
def spDigests : Nat := 0x01
def spCertificate : Nat := 0x02
def spChallenge : Nat := 0x03
def spVersion : Nat := 0x04
def spMeasurements : Nat := 0x60
def spCapabilities : Nat := 0x61
def spAlgorithms : Nat := 0x63
def spKeyExchange : Nat := 0x64
def spFinish : Nat := 0x65
def spHeartbeat : Nat := 0x68
def spEndSession : Nat := 0x6C
def spError : Nat := 0x7F

/-- The Harbourmaster's firmware runs: it answers SPDM requests and commands (R421, R477). -/
def Block.hmUp (b : Block) : Bool := b.harbour.stage.isSome && !b.harbour.down

/-- An SPDM request: the firmware answers it, or nothing does. -/
def Block.spdm (b : Block) (f : Block → Block) : Block := if b.hmUp then f b else b

/-- Answer with n bytes whose values the manual leaves open: certificates, digests, signatures, key shares (log 24). -/
def Block.spdmFree (b : Block) (ses code n : Nat) : Block :=
  let (d, b) := b.draw
  b.send (.spdm ses code (freeBytesOf d n))

/-- GET_VERSION: SPDM 1.3. -/
def execGetVersion (ses : Nat) (s : State) : Out := onBlk s fun _ b => b.spdm fun b => b.send (.spdm ses spVersion [0x13])

/-- GET_CAPABILITIES. -/
def execGetCapabilities (ses : Nat) (s : State) : Out := onBlk s fun _ b => b.spdm fun b => b.spdmFree ses spCapabilities 16

/-- NEGOTIATE_ALGORITHMS: ECDSA P-384, SHA-384, secp384r1 and AES-256-GCM are the only ones. -/
def execNegotiateAlgorithms (ses : Nat) (s : State) : Out := onBlk s fun _ b => b.spdm fun b => b.spdmFree ses spAlgorithms 32

/-- The certificate chain: DeviceID's from the configuration image, then Alias' (R419, R425, R452). -/
def Block.certChain (b : Block) : List Byte :=
  ((b.harbour.cfg.blobs.find? fun x => x.1 = 0x0102).map (·.2)).getD [] ++ b.harbour.dice.aliasCert

/-- What Alias signs (R419): the message with its signature behind it. -/
def Block.signed (b : Block) (msg : List Byte) : List Byte := msg ++ sign96 b.harbour.dice.aliasKey msg

/-- GET_DIGESTS: the digest of the chain DeviceID, Alias. -/
def execGetDigests (ses : Nat) (s : State) : Out :=
  onBlk s fun _ b => b.spdm fun b => b.send (.spdm ses spDigests (leBytes 48 (Config.sha384 b.certChain).toNat))

/-- GET_CERTIFICATE: a piece of the chain. -/
def execGetCertificate (ses off len : Nat) (s : State) : Out :=
  onBlk s fun _ b => b.spdm fun b => b.send (.spdm ses spCertificate ((b.certChain.drop off).take len))

/-- CHALLENGE: the nonce, beside what SPDM's message holds (log 24), is signed with Alias. -/
def execChallenge (ses : Nat) (nonce : List Byte) (s : State) : Out :=
  onBlk s fun _ b => b.spdm fun b =>
    let (d, b) := b.draw
    b.send (.spdm ses spChallenge (b.signed (nonce ++ freeBytesOf d 96)))

/-- One record of the configuration digest (R449, R454). -/
def Applied.record (a : Applied) (x : Nat × FieldDef) : List Byte :=
  match x.2 with
  | .int _ _ _ _ => leBytes 2 x.1 ++ [0, 0] ++ leBytes 4 0 ++ i64Bytes (((a.ints.find? fun y => y.1 = x.1).map (·.2)).getD 0)
  | .blob _ _ =>
    let d := ((a.blobs.find? fun y => y.1 = x.1).map (·.2)).getD []
    leBytes 2 x.1 ++ [1, 0] ++ leBytes 4 d.length ++ leBytes 8 0 ++ d

/-- The configuration digest (R426, R454). -/
def Block.configDigest (b : Block) : BitVec 384 := Config.sha384 (cfgFields.flatMap b.harbour.cfg.record)

/-- DEBUG of reports and of CU_SEC (R424). -/
def Block.debugOn (b : Block) (e : Env) : Bool := b.harbour.debug || e.fuses.stage = 1

/-- Measurement 5 (R426). -/
def Block.identity (b : Block) (e : Env) : List Byte :=
  leBytes 8 (b.reg .glbId 0).toNat ++ leBytes 1 e.fuses.stage ++ leBytes 2 b.harbour.svnHm ++ leBytes 2 b.runCore ++ leBytes 2 b.runUcode ++
    leBytes 1 (b.debugOn e).toNat

/-- Measurements 1 to 4 (R426, R464): the running components and the configuration; what stands for a component not loaded is an open value. -/
def Block.measurements (b : Block) : List Byte × Block :=
  let (d1, b) := b.draw
  let (d2, b) := b.draw
  (([b.harbour.hmDigest, if b.harbour.coreFw then b.coreImage else Config.freeDigest d1, if b.harbour.ucode then b.ucodeImage else Config.freeDigest d2, b.configDigest].flatMap fun x => leBytes 48 x.toNat), b)

/-- GET_MEASUREMENTS (R426): the five blocks, signed with the nonce. -/
def execGetMeasurements (ses : Nat) (nonce : List Byte) (s : State) : Out :=
  onBlk s fun e b => b.spdm fun b =>
    let (ms, b) := b.measurements
    b.send (.spdm ses spMeasurements (b.signed (ms ++ b.identity e ++ nonce)))

/-- KEY_EXCHANGE: a session, at most four at once. -/
def execKeyExchange (nonce : List Byte) (s : State) : Out :=
  onBlk s fun _ b => b.spdm fun b =>
    if 4 ≤ b.harbour.sessions.length then b.send (.spdm 0 spError [])
    else
      let id := b.harbour.nextSession
      let b : Block := { b with harbour := { b.harbour with sessions := tput b.harbour.sessions id ⟨3, none, false⟩, nextSession := id + 1 } }
      let (d, b) := b.draw
      b.send (.spdm id spKeyExchange (b.signed (nonce ++ freeBytesOf d 96)))

/-- The manager-key digests of the configuration (R425, R452). -/
def Block.managerKeys (b : Block) : List (List Byte) :=
  (b.harbour.cfg.blobs.filter fun x => decide (0x0201 ≤ x.1 ∧ x.1 ≤ 0x0204)).map (·.2)

/-- The rights a requester's session gains (R425, R455): the key they rest on, and whether it is a ROM root key. -/
def Block.rightsOf (b : Block) (e : Env) (who : Requester) : Option (List Byte) × Bool :=
  if !who.mutualAuth then (none, false)
  else if b.managerKeys.contains who.rootDigest then (some who.rootDigest, false)
  else if b.managerKeys.isEmpty then
    match who.romRoot with
    | some k => if k < 4 ∧ ¬ e.fuses.revoke.testBit k then (some who.rootDigest, true) else (none, false)
    | none => (none, false)
  else (none, false)

/-- FINISH: the session is established, with management rights for a matching key (R425, R455). -/
def execFinish (ses : Nat) (who : Requester) (s : State) : Out :=
  onBlk s fun e b => b.spdm fun b =>
    match tget b.harbour.sessions ses with
    | some x =>
      if x.stage = 3 then
        let (key, rom) := b.rightsOf e who
        { b with harbour := { b.harbour with sessions := tput b.harbour.sessions ses ⟨4, key, rom⟩ } }.send (.spdm ses spFinish [])
      else b.send (.spdm ses spError [])
    | none => b.send (.spdm ses spError [])

/-- HEARTBEAT. -/
def execHeartbeat (ses : Nat) (s : State) : Out :=
  onBlk s fun _ b => b.spdm fun b =>
    if ((tget b.harbour.sessions ses).map (·.stage)) = some 4 then b.send (.spdm ses spHeartbeat []) else b.send (.spdm ses spError [])

/-- END_SESSION. -/
def execEndSession (ses : Nat) (s : State) : Out :=
  onBlk s fun _ b => b.spdm fun b =>
    if thas b.harbour.sessions ses then
      { b with harbour := { b.harbour with sessions := tdel b.harbour.sessions ses, pieces := tdel b.harbour.pieces ses } }.send (.spdm ses spEndSession [])
    else b.send (.spdm ses spError [])

/-! ### The lease (R428, R464) -/

/-- Grant the lease to a key, its period clamped (R428, R445). -/
def Block.grantLease (b : Block) (e : Env) (m : Mgr) (op ms : Nat) : Block :=
  let t := clampN 100 60000 ms
  match b.mgrKey m with
  | none => b
  | some k =>
    let b : Block := { b with harbour := { b.harbour with lease := some ⟨k, e.now + t * 1000000, t⟩, reserved := none } }
    if t = ms then b.reply m op rcDone else b.reply m op rcClamped [t]

/-- Another key holds the lease, or has it kept for it (R428, R464). -/
def Block.leaseOfOther (b : Block) (e : Env) (m : Mgr) : Bool :=
  (match b.leaseNow e with | some l => b.mgrKey m != some l.key | none => false) ||
  (match b.harbour.reserved with | some (k, t) => decide (e.now < t) && b.mgrKey m != some k | none => false)

/-- LEASE_ACQUIRE (R428, R444). -/
def execLeaseAcquire (m : Mgr) (ms : Nat) (s : State) : Out :=
  onBlk s fun e b => b.manager e m 0x0201 fun b =>
    if b.leaseOfOther e m then b.reply m 0x0201 rcLeaseHeld else b.grantLease e m 0x0201 ms

/-- LEASE_RENEW (R428): the period starts again. -/
def execLeaseRenew (m : Mgr) (ms : Nat) (s : State) : Out := onBlk s fun e b => b.manager e m 0x0202 fun b => b.grantLease e m 0x0202 ms

/-- LEASE_RELEASE (R428). -/
def execLeaseRelease (m : Mgr) (s : State) : Out :=
  onBlk s fun e b => b.manager e m 0x0203 fun b => { b with harbour := { b.harbour with lease := none } }.reply m 0x0203 rcDone

/-- LEASE_EXPIRY (R428): the period has passed; commands already running go on. -/
def execLeaseExpiry (s : State) : Out :=
  onBlk s fun e b =>
    match b.harbour.lease with
    | some l => if l.till ≤ e.now then { b with harbour := { b.harbour with lease := none } } else b
    | none => b

/-! ### Reports (R437, R439) -/

/-- A report (R439): identity and firmware, configuration, measurements, chain and log, and Alias' signature over them. -/
def Block.reportBytes (b : Block) (e : Env) (sl : Nat) (nonce : List Byte) (flags part berths : Nat) (chain : BitVec 384)
    (log : List (Nat × Nat × Nat × BitVec 384)) : List Byte × Block :=
  let (ms, b) := b.measurements
  (b.signed ([0x54, 0x58, 0x52, 0x50] ++ leBytes 2 1 ++ leBytes 2 sl ++ leBytes 8 (b.reg .glbId 0).toNat ++ nonce ++ leBytes 1 e.fuses.stage ++ leBytes 1 flags ++
    leBytes 1 (b.rd F.BW_MODE_MODE) ++ leBytes 1 part ++ leBytes 2 berths ++ leBytes 2 b.harbour.svnHm ++ leBytes 2 b.runCore ++ leBytes 2 b.runUcode ++
    leBytes 2 log.length ++ leBytes 2 0 ++ ms ++ leBytes 48 chain.toNat ++ List.replicate 16 0 ++
    log.flatMap (fun (k, h, va, g) => logBytes k h va g)), b)

/-- SLICE_REPORT (R439, R444). -/
def execSliceReport (m : Mgr) (sl : Nat) (nonce : List Byte) (addr len : Nat) (s : State) : Out :=
  onBlk s fun e b => b.manager e m 0x0204 fun b =>
    match tget b.quay.slices sl with
    | none => b.reply m 0x0204 rcBadArg
    | some x =>
      if b.sliceState sl = slRemoving then b.reply m 0x0204 rcBusy
      else if nonce.length ≠ 32 ∨ len < 416 + 64 * x.log.length then b.reply m 0x0204 rcBadArg
      else
        let p := b.slicePart sl
        let flags := (b.debugOn e).toNat + 2 * x.logLost.toNat + 4 * b.rd F.MF_PCTL_DET p
        let (d, b) := b.reportBytes e sl nonce flags p (b.rd F.BW_PART_BERTHS p) x.chain x.log
        (b.send (.untranslated addr d)).reply m 0x0204 rcDone

/-- BLOCK_REPORT (R439): slice 0x3FF, the partition fields zero, no entries. -/
def execBlockReport (m : Mgr) (nonce : List Byte) (addr len : Nat) (s : State) : Out :=
  onBlk s fun e b => b.manager e m 0x0205 fun b =>
    if nonce.length ≠ 32 ∨ len < 416 then b.reply m 0x0205 rcBadArg
    else
      let (d, b) := b.reportBytes e 0x3FF nonce (b.debugOn e).toNat 0 0 0 []
      (b.send (.untranslated addr d)).reply m 0x0205 rcDone

/-! ### Keys, fuses, debug (R423, R424, R431) -/

/-- MIGRATION_KEY (R431, R445). -/
def execMigrationKey (m : Mgr) (id : Nat) (key : List Byte) (s : State) : Out :=
  onBlk s fun e b => b.manager e m 0x0206 fun b =>
    if 256 ≤ id ∨ key.length ≠ 32 then b.reply m 0x0206 rcBadArg
    else if !thas b.harbour.migKeys id && decide (4 ≤ b.harbour.migKeys.length) then b.reply m 0x0206 rcNoResource
    else { b with harbour := { b.harbour with migKeys := tput b.harbour.migKeys id key } }.reply m 0x0206 rcDone

/-- The fuse counters after ROLLBACK_COMMIT: each named one rises to the SVN of its running component (R417, R423). -/
def burned (f : Fuses) (mask hm : Nat) (core ucode : Option Nat) : Fuses :=
  { f with
    svnHm := if mask.testBit 0 then max f.svnHm hm else f.svnHm
    svnCore := if mask.testBit 1 then max f.svnCore (core.getD 0) else f.svnCore
    svnUcode := if mask.testBit 2 then max f.svnUcode (ucode.getD 0) else f.svnUcode }

/-- ROLLBACK_COMMIT (R423, R445): a component that is not loaded has no running SVN. -/
def execRollbackCommit (m : Mgr) (mask : Nat) (s : State) : Out :=
  let e := s.env
  let b := s.blk
  let raw := decide (e.fuses.stage = 0 ∨ e.fuses.stage = 3)
  let acts := !b.harbour.down && b.mayCommand e m 0x0207 && !raw && decide (mask < 8)
  let fs := if acts then burned s.fuses mask b.harbour.svnHm (if b.harbour.coreFw then some b.runCore else none) (if b.harbour.ucode then some b.runUcode else none)
    else s.fuses
  .next { s with fuses := fs, blk := b.manager e m 0x0207 fun b =>
    if raw then b.reply m 0x0207 rcDenied else if 8 ≤ mask then b.reply m 0x0207 rcBadArg else b.reply m 0x0207 rcDone }

/-- DEBUG_UNLOCK (R424): only while no slice exists; it lasts until the next warm reset. -/
def execDebugUnlock (m : Mgr) (s : State) : Out :=
  onBlk s fun e b => b.manager e m 0x0208 fun b =>
    if !b.quay.slices.isEmpty then b.reply m 0x0208 rcNotQuiesced
    else { b with harbour := { b.harbour with debug := true } }.reply m 0x0208 rcDone

end Sys2Proof.Machine
end

