-- ==== Sys2Proof/Machine/BellMail.lean ====
section
/-! DEFINITION. Bell and the mailboxes: the meanings of R494 to R509. -/

namespace Sys2Proof.Machine

open Sys2Proof

/-! ### Bell (R494 to R500) -/

/-- An agent exists. -/
def agentOk : Agent → Bool
  | .harbourmaster => true
  | .core g => decide (g < 8)
  | .host => false

/-- The Bell target an agent is. -/
def targetOf : Agent → Nat
  | .harbourmaster => 8
  | .core g => g
  | .host => 16

/-- BL_RAISE (R495, R496): software sources only. -/
def execBlRaise (who : Agent) (v : Word) (s : State) : Out :=
  onUnit (agentOk who) s fun _ b =>
    let n := F.BL_RAISE_SOURCE.of v
    if n < 256 then b.bump F.BL_STAT_RAISE_REJECT else b.raise n

/-- A source belongs to a bank: its target and its class. -/
def Block.inBank (b : Block) (t : Nat) (fast : Bool) (n : Nat) : Bool := b.rd F.BL_TARGET_TARGET n = t && b.rd F.BL_TARGET_CLASS n = fast.toNat

/-- The PENDING source of a bank with the highest PRIORITY, lowest number first (R496). -/
def Block.claimable (b : Block) (t : Nat) (fast : Bool) : Option Nat :=
  ((b.listed .blTarget).filter fun n => b.rd F.BL_TARGET_STATE n = 1 && b.inBank t fast n).foldl (fun o n =>
    match o with
    | none => some n
    | some k => if b.rd F.BL_TARGET_PRIORITY k < b.rd F.BL_TARGET_PRIORITY n ∨ (b.rd F.BL_TARGET_PRIORITY k = b.rd F.BL_TARGET_PRIORITY n ∧ n < k) then some n else o) none

/-- BL_CLAIM (R494, R496, R500): the agent's own banks only. -/
def execBlClaim (who : Agent) (t : Nat) (fast : Bool) (s : State) : Out :=
  onUnit (agentOk who) s fun _ b =>
    if t ≠ targetOf who then b.accessErr
    else match b.claimable t fast with
      | some n => { b.wr F.BL_TARGET_STATE n 2 with readData := BitVec.ofNat 64 (1024 + n) }
      | none => { b with readData := 0 }

/-- BL_COMPLETE (R494, R496): a completion of a source that is not ACTIVE, or of another bank, is ignored and counted. -/
def execBlComplete (who : Agent) (t : Nat) (fast : Bool) (v : Word) (s : State) : Out :=
  onUnit (agentOk who) s fun _ b =>
    let n := F.BL_COMPLETE_SOURCE.of v
    if t ≠ targetOf who then b.accessErr
    else if !b.inBank t fast n then b.bump F.BL_STAT_STRAY_COMPLETE
    else match b.rd F.BL_TARGET_STATE n with
      | 2 => b.wr F.BL_TARGET_STATE n 0
      | 3 => b.wr F.BL_TARGET_STATE n 1
      | _ => b.bump F.BL_STAT_STRAY_COMPLETE

/-- BL_TARGET_WRITE (R499, R500): the Harbourmaster alone; TARGET and CLASS move only while the source is INACTIVE. -/
def execBlTargetWrite (who : Agent) (n : Nat) (v : Word) (s : State) : Out :=
  onUnit (agentOk who) s fun _ b =>
    if who ≠ .harbourmaster ∨ 1024 ≤ n then b.accessErr
    else
      let t := F.BL_TARGET_TARGET.of v
      let c := F.BL_TARGET_CLASS.of v
      if 10 ≤ t then b
      else if b.rd F.BL_TARGET_STATE n ≠ 0 ∧ (b.rd F.BL_TARGET_TARGET n ≠ t ∨ b.rd F.BL_TARGET_CLASS n ≠ c) then b.bump F.BL_STAT_RETARGET_REJECT
      else (((b.wr F.BL_TARGET_TARGET n t).wr F.BL_TARGET_CLASS n c).wr F.BL_TARGET_ENABLE n (F.BL_TARGET_ENABLE.of v)).wr F.BL_TARGET_PRIORITY n (F.BL_TARGET_PRIORITY.of v)

/-! ### Mailboxes (R501 to R507) -/

/-- Bytes of a channel's buffer (R502). -/
def boxBytes (ch : Nat) : Nat := if ch = 0 then 1984 else 448

/-- The party can reach the channel: the host has no window on S1 (R501), and none with its port off (R79). -/
def Block.reaches (b : Block) (ch : Nat) (byHost : Bool) : Bool := !byHost || (b.hostUp && ch ≠ 1)

/-- Write bytes at the start of a channel's buffer. -/
def Block.boxPut (b : Block) (ch : Nat) (d : List Byte) : Block :=
  let x := tgetD b.boxes ch Mailbox.reset
  let d := d.take (boxBytes ch)
  { b with boxes := tput b.boxes ch { x with buf := d ++ x.buf.drop d.length } }

/-- MB_POST (R502): end A writes its request and posts it. -/
def execMbPost (ch : Nat) (byHost : Bool) (frame : List Byte) (s : State) : Out :=
  onUnit (decide (ch < 8)) s fun e b =>
    if !b.reaches ch byHost then b
    else if byHost ≠ b.hostIsA ch then b.bump F.MB_STAT_WRONG_END ch
    else if b.rd F.MB_STATE_STATE ch ≠ 0 ∧ b.rd F.MB_STATE_STATE ch ≠ 3 then b.bump F.MB_STAT_BUSY_POST ch
    else
      let b := b.boxPut ch frame
      let b : Block := { b with boxes := tupd b.boxes ch Mailbox.reset fun x => { x with posted := e.now } }
      ((b.wr F.MB_STATE_STATE ch 1).bump F.MB_STAT_POSTS ch).tellEnd ch false

/-- A field of the frame in a buffer (R504). -/
def Block.boxField (b : Block) (ch off n : Nat) : Nat := ofLeBytes ((((tget b.boxes ch).map (·.buf)).getD []).drop off |>.take n)

/-- The Harbourmaster looks at a frame it has taken (R505, R506): one too long for the buffer is answered BAD_ARG, a piece but the last is gathered and answered DONE, a piece of another request or beyond 65,536 bytes ends the gathering with BAD_ARG. -/
def Block.takeFrame (b : Block) : Block :=
  let op := b.boxField 0 0 2
  let len := b.boxField 0 2 2
  let seq := b.boxField 0 4 4
  let more := decide (b.boxField 0 10 2 / 4 % 2 = 1)
  let setG (b : Block) (g : Option (Nat × Nat × Nat)) : Block := { b with boxes := tupd b.boxes 0 Mailbox.reset fun x => { x with gather := g } }
  if 1984 < 16 + len then (setG b none).boxReply 0 rcBadArg 0
  else
    let g := (tgetD b.boxes 0 Mailbox.reset).gather
    let had := match g with | some (_, _, n) => n | none => 0
    let other := match g with | some (o, q, _) => decide (o ≠ op ∨ q ≠ seq) | none => false
    if other || decide (65536 < had + len) then (setG b none).boxReply 0 rcBadArg 0
    else if more then (setG b (some (op, seq, had + len))).boxReply 0 rcDone 0
    else setG b none

/-- MB_TAKE (R502, R505): end B takes what is posted. -/
def execMbTake (ch : Nat) (byHost : Bool) (s : State) : Out :=
  onUnit (decide (ch < 8)) s fun _ b =>
    if !b.reaches ch byHost || (ch = 0 && !b.hmUp) then b
    else if byHost ≠ b.hostIsB ch then b.bump F.MB_STAT_WRONG_END ch
    else if b.rd F.MB_STATE_STATE ch ≠ 1 then b
    else
      let b := b.wr F.MB_STATE_STATE ch 2
      if ch = 0 then b.takeFrame else b

/-- Words of reply data one message carries on S0 (R502, R506; log 26). -/
def replyWords : Nat := 246

/-- The Harbourmaster's first waiting reply goes out on S0 (R428, R478, R505, R506): what does not fit waits for CONTINUE; a session that has ended leaves an event; a block reset waits only for its own reply. -/
def Block.replyOut (b : Block) (e : Env) : Block :=
  match b.harbour.replies with
  | [] => b
  | r :: rs =>
    let b : Block := { b with harbour := { b.harbour with replies := rs } }
    let b := if (tget b.harbour.sessions r.session).isSome then b else b.event e { code := 0x1008, kind := ukHarbour, idx := 0, data := [r.opcode, r.seq, r.retcode] }
    let b : Block := if r.data.length ≤ replyWords then b
      else { b with harbour := { b.harbour with pieces := tput b.harbour.pieces r.session (r.seq :: r.retcode :: r.data.drop replyWords) } }
    if b.harbour.resetOwed ∧ r.opcode = 0x0505 then
      { b with harbour := { b.harbour with resetOwed := false }, power := { b.power with wrstWaiting := true } }
    else b

/-- MB_REPLY (R502, R505): in TAKEN, the reply's code and length go to MB_ACK and end A is told. -/
def execMbReply (ch : Nat) (byHost : Bool) (v : Word) (frame : List Byte) (s : State) : Out :=
  onUnit (decide (ch < 8)) s fun e b =>
    if !b.reaches ch byHost || (ch = 0 && !b.hmUp) then b
    else if byHost ≠ b.hostIsB ch then b.bump F.MB_STAT_WRONG_END ch
    else if b.rd F.MB_STATE_STATE ch ≠ 2 then b
    else
      let seq := b.boxSeq ch
      let rc := F.MB_REPLY_RETCODE.of v
      let b := ((b.boxPut ch frame).boxReply ch rc (F.MB_REPLY_LENGTH.of v)).wr F.MB_ACK_SEQ ch seq
      if ch = 0 ∧ rc = rcDone then b.replyOut e else b

/-- MAILBOX_TIMEOUT (R503, R514): what nobody took returns to IDLE. -/
def execMailboxTimeout (ch : Nat) (s : State) : Out :=
  onUnit (decide (ch < 8)) s fun e b =>
    let x := tgetD b.boxes ch Mailbox.reset
    if b.rd F.MB_STATE_STATE ch = 1 ∧ x.posted + b.rd F.MB_CFG_TIMEOUT_US ch * 1000 ≤ e.now then
      (((b.wr F.MB_STATE_STATE ch 0).wr F.MB_STATE_TIMEOUT ch 1).bump F.MB_STAT_TIMEOUTS ch).tellEnd ch true
    else b

/-- CONTINUE (R506): the next piece of a reply, under the same SEQ; with none outstanding BAD_ARG. -/
def execContinue (m : Mgr) (s : State) : Out :=
  onBlk s fun _ b =>
    if b.harbour.down then b
    else if (tget b.harbour.sessions m.session).isNone then b.reply m 0 rcDenied
    else match tget b.harbour.pieces m.session with
      | some (q :: rc :: d) =>
        if q ≠ m.seq then b.reply m 0 rcBadArg
        else
          let rest := d.drop replyWords
          let b : Block := { b with harbour := { b.harbour with
            pieces := if rest.isEmpty then tdel b.harbour.pieces m.session else tput b.harbour.pieces m.session (q :: rc :: rest) } }
          b.reply m 0 rc (d.take replyWords)
      | _ => b.reply m 0 rcBadArg

/-- MAILBOX_CONFIG (R509). -/
def execMailboxConfig (m : Mgr) (ch : Nat) (dir : Bool) (vector : Nat) (vecEn : Bool) (timeoutUs : Nat) (s : State) : Out :=
  onBlk s fun e b => b.manager e m 0x0509 fun b =>
    if 8 ≤ ch ∨ 2048 ≤ vector then b.reply m 0x0509 rcBadArg
    else if ch = 0 then b.reply m 0x0509 rcDenied
    else if b.rd F.MB_STATE_STATE ch = 1 ∨ b.rd F.MB_STATE_STATE ch = 2 then b.reply m 0x0509 rcBusy
    else if b.quay.slices.any fun x => decide (x.2.msixBase ≤ vector ∧ vector < x.2.msixBase + x.2.msixCount) then b.reply m 0x0509 rcNoResource
    else
      let t := clampN 10 100000 timeoutUs
      let b := (((b.wr F.MB_CFG_DIR ch dir.toNat).wr F.MB_CFG_VECTOR ch vector).wr F.MB_CFG_VEC_EN ch vecEn.toNat).wr F.MB_CFG_TIMEOUT_US ch t
      if t = timeoutUs then b.reply m 0x0509 rcDone else b.reply m 0x0509 rcClamped [dir.toNat, vector, vecEn.toNat, t]

end Sys2Proof.Machine
end

