-- ==== Sys2Proof/Machine/Hold.lean ====
section
/-! DEFINITION. The meanings of the Hold's commands and events (R219 to R222, R356 to R383). -/

namespace Sys2Proof.Machine

open Sys2Proof

/-! ### Manager commands (R378) -/

/-- Units of objects of a partition's slices (HD_PSHARE_p.UNITS). -/
def Block.unitsCharged (b : Block) (p : Nat) : Nat :=
  b.hold.objs.foldl (fun n x => if b.slicePart x.2.owner = p then n + x.2.place.foldl (fun m y => m + y.2.length) 0 else n) 0

/-- Take n free units of a channel, least erased first. -/
def Block.takeUnits (ch : Nat) : (n : Nat) → Block → List Nat × Block
  | 0, b => ([], b)
  | n + 1, b =>
    match b.freshUnit ch with
    | none => ([], b)
    | some (u, b) => let (us, b) := Block.takeUnits ch n b; (u :: us, b)

/-- OBJ_CREATE (R377, R378): reserves the units and answers the handle. -/
def execObjCreate (m : Mgr) (owner stackMask slots : Nat) (s : State) : Out :=
  onBlk s fun e b => b.manager e m 0x0301 fun b =>
    let hs := bitsOf 8 stackMask
    let chans := hs.flatMap fun h => [2 * h, 2 * h + 1].filter fun ch => !(b.chan ch).out
    let per := cdiv (cdiv slots (max 1 chans.length)) 4096
    let p := b.slicePart owner
    let bad := stackMask = 0 ∨ 256 ≤ stackMask ∨ slots = 0 ∨ 2 ^ 32 ≤ slots ∨ ¬ b.sliceExists owner ∨
      hs.any (fun h => !e.ties.holdMask.testBit h || b.hstate h = hsFailed || b.hstate h = hsAbsent)
    let short := b.level = lvClosed ∨ b.level = lvReduced ∨ hs.any (fun h => b.hstate h ≠ hsReady) ∨
      chans.any (fun ch => decide ((b.chan ch).free.length < per + (b.chan ch).spares)) ∨
      b.rd F.HD_PSHARE_UNITS p < b.unitsCharged p + per * chans.length ∨ 65535 ≤ b.hold.objs.length
    if bad then b.reply m 0x0301 rcBadArg
    else if short then b.reply m 0x0301 rcNoResource
    else
      let (d, b) := b.draw
      let free := (List.range 65536).filter fun i => !thas b.hold.objs i
      let idx := (free[(Config.freeNat d) % max 1 free.length]?).getD 0
      let g := (tgetD b.hold.gens idx 0 + 1) % 65536
      let g := if g * 65536 + idx = 0 ∨ g * 65536 + idx = 0xFFFFFFFF then (g + 1) % 65536 else g
      let (place, b) := chans.foldl (fun (pl, b) ch => let (us, b) := Block.takeUnits ch per b; (pl ++ [(ch, us)], b)) ([], b)
      let o : HoldObj := ⟨owner, stackMask, slots, false, 0, [], [], [], [], [], place, [], [], []⟩
      ({ b with hold := { b.hold with objs := tput b.hold.objs idx o, gens := tput b.hold.gens idx g } }).reply m 0x0301 rcDone
        [g * 65536 + idx]

/-- OBJ_SEAL (R378, R382): write grants are revoked, writes in flight and the merge buffer finish, then the tree is built. -/
def execObjSeal (m : Mgr) (handle : Nat) (s : State) : Out :=
  onBlk s fun e b => b.manager e m 0x0302 fun b =>
    match b.holdObj handle with
    | none => b.reply m 0x0302 rcBadArg
    | some o =>
      if o.sealed then b.reply m 0x0302 rcBadArg
      else if b.sealing.any (fun r => r.todo = handle) then b.reply m 0x0302 rcBusy
      else
        let b := b.modObj (handle % 65536) fun o =>
          { o with grants := (o.grants.filter fun g => g.2.1).map fun g => (g.1, true, false), root := 0, tree := [], treeAt := [], treeSeen := [] }
        (b.startMgr e m 0x0302 [] handle).finishSeals e

/-- A transfer, a grant or a registered model names the object (R378). -/
def Block.objNamed (b : Block) (handle : Nat) (o : HoldObj) : Bool :=
  o.grants.any (fun g => g.2.1 || g.2.2) ||
  b.berths.any (fun (_, x) => (x.me0 ++ x.me1).any fun t => match t.mv with
    | .hold h _ _ => h = handle
    | .copy _ (some h) => h = handle
    | _ => false) ||
  b.manifest.models.any (fun x => x.2.r.inHold && x.2.r.weights = handle) || b.sealing.any (fun r => r.todo = handle)

/-- OBJ_DELETE (R378): the units are erased before reuse. -/
def execObjDelete (m : Mgr) (handle : Nat) (s : State) : Out :=
  onBlk s fun e b => b.manager e m 0x0303 fun b =>
    match b.holdObj handle with
    | none => b.reply m 0x0303 rcBadArg
    | some o =>
      if b.objNamed handle o then b.reply m 0x0303 rcBusy
      else
        let b := { b with hold := { b.hold with objs := tdel b.hold.objs (handle % 65536) } }
        let b := o.place.foldl (fun b (ch, us) => us.foldl (fun b u =>
          (b.moveUnit ch u u).modChan ch fun c => c.addOp e.now (.erase u)) b) b
        let b := o.place.foldl (fun b (ch, _) => b.freeOver e ch) b
        let b := bitsOf 8 o.stackMask |>.foldl (fun b h =>
          (b.modStack h fun x => { x with merge := x.merge.filter fun w => w.handle ≠ handle }).syncMerge h) b
        b.reply m 0x0303 rcDone

/-- OBJ_GRANT (R378). -/
def execObjGrant (m : Mgr) (handle sl : Nat) (read write : Bool) (s : State) : Out :=
  onBlk s fun e b => b.manager e m 0x0304 fun b =>
    match b.holdObj handle with
    | none => b.reply m 0x0304 rcBadArg
    | some o =>
      let others := o.grants.filter fun g => g.1 ≠ sl
      let p := b.slicePart sl
      let held := b.hold.objs.foldl (fun n x => n + (x.2.grants.filter fun g => b.slicePart g.1 = p && b.sliceExists g.1).length) 0
      let fresh := others.length = o.grants.length
      if !b.sliceExists sl then b.reply m 0x0304 rcBadArg
      else if (read && !o.sealed) || (write && (o.sealed || b.sealing.any fun r => r.todo = handle)) then b.reply m 0x0304 rcDenied
      else if fresh ∧ (8 ≤ others.length ∨ b.rd F.HD_PSHARE_GRANTS p ≤ held) then b.reply m 0x0304 rcNoResource
      else (b.modObj (handle % 65536) fun o => { o with grants := others ++ [(sl, read, write)] }).reply m 0x0304 rcDone

/-- OBJ_REVOKE (R378, R382): transfers already started complete. -/
def execObjRevoke (m : Mgr) (handle sl : Nat) (s : State) : Out :=
  onBlk s fun e b => b.manager e m 0x0305 fun b =>
    match b.holdObj handle with
    | none => b.reply m 0x0305 rcBadArg
    | some _ =>
      if !b.sliceExists sl then b.reply m 0x0305 rcBadArg
      else (b.modObj (handle % 65536) fun o => { o with grants := o.grants.filter fun g => g.1 ≠ sl }).reply m 0x0305 rcDone

/-- OBJ_INFO (R378): length, state, stacks, owner, lost-slot count, root, grants. -/
def execObjInfo (m : Mgr) (handle : Nat) (s : State) : Out :=
  onBlk s fun e b => b.manager e m 0x0306 fun b =>
    match b.holdObj handle with
    | none => b.reply m 0x0306 rcBadArg
    | some o => b.reply m 0x0306 rcDone
        ([o.slots, o.sealed.toNat, o.stackMask, o.owner, o.lost.length, o.root.toNat] ++
          o.grants.flatMap fun g => [g.1, g.2.1.toNat + 2 * g.2.2.toNat])

/-- HOLD_STATUS (R378): the stack's four registers. -/
def execHoldStatus (m : Mgr) (h : Nat) (s : State) : Out :=
  onBlk s fun e b => b.manager e m 0x0307 fun b =>
    if 8 ≤ h then b.reply m 0x0307 rcBadArg
    else b.reply m 0x0307 rcDone
      [(b.reg .hdStack h).toNat, (b.reg .hdEcc h).toNat, (b.reg .hdScrubLap h).toNat, (b.reg .hdLife h).toNat]

/-- DUMP_READ (R378, R491): the record, sealed for the session, goes out in untranslated writes; it is marked read. -/
def execDumpRead (m : Mgr) (record addr len : Nat) (s : State) : Out :=
  onBlk s fun e b => b.manager e m 0x0308 fun b =>
    match (if record < 8 then tget b.hold.dumps record else none) with
    | none => b.reply m 0x0308 rcBadArg
    | some d =>
      let (k, b) := b.draw
      let b := b.send (.untranslated addr ((Config.freeBytes k).take len))
      ({ b with hold := { b.hold with dumps := tput b.hold.dumps record { d with read := true } } }).reply m 0x0308 rcDone

/-- Write a field with its applied value; the answer adds whether it differs from the one given. -/
def Block.applyField (b : Block) (f : Fld) (i : Nat) (v : Option Nat) (lo hi : Nat) : Bool × Block :=
  match v with
  | none => (false, b)
  | some x => let y := clampN lo hi x; (decide (y ≠ x), b.wr f i y)

/-- HOLD_CONFIG (R378, R383): values outside a field's range are clamped, and the reply then says CLAMPED with the applied values. -/
def execHoldConfig (m : Mgr) (c : HoldCfg) (s : State) : Out :=
  onBlk s fun e b => b.manager e m 0x0309 fun b =>
    if 8 ≤ c.stack ∨ 16 ≤ c.partition then b.reply m 0x0309 rcBadArg
    else
      let (c1, b) := b.applyField F.HD_CTL_RETAIN_H 0 c.retainH 1 65535
      let (c2, b) := b.applyField F.HD_CTL_LAP_MAX_D 0 c.lapMaxD 1 255
      let (c3, b) := b.applyField F.HD_CTL_MERGE_AGE 0 c.mergeAge 1 100
      let (c4, b) := b.applyField F.HD_CTL_WEAR_GAP 0 c.wearGap 1 65535
      let (c5, b) := b.applyField F.HD_STACK_STRENGTH c.stack c.strength 4 64
      let (c6, b) := b.applyField F.HD_STACK_RELOC c.stack c.reloc 1 63
      let (c7, b) := b.applyField F.HD_PSHARE_GRANTS c.partition c.grants 0 65535
      let (c8, b) := b.applyField F.HD_PSHARE_UNITS c.partition c.units 0 (2 ^ 32 - 1)
      if c1 || c2 || c3 || c4 || c5 || c6 || c7 || c8 then
        b.reply m 0x0309 rcClamped [(b.reg .hdCtl 0).toNat, (b.reg .hdStack c.stack).toNat, (b.reg .hdPshare c.partition).toNat]
      else b.reply m 0x0309 rcDone

/-! ### Sensing and delivery -/

/-- HOLD_SLOT_SENSE (R219): the sense scheduler issues PAGE_READ for the next slot the regulator admits on the channel. -/
def execHoldSlotSense (ch : Nat) (s : State) : Out :=
  onUnit (decide (ch < 16)) s fun e b => if (b.chan ch).out then b else b.portCycle e (8 + ch)

/-- Deliver a slot to the transfer that asked for it (R219, R220): MODE 0 into the berth store, MODE 1 towards its buffer's ports. -/
def Block.deliverSlot (b : Block) (e : Env) (ch n k serial lin : Nat) (data : List Byte) : Block :=
  match b.xfer n k serial with
  | none => b
  | some t =>
    let b := (b.tallyG (b.sliceOn n) 0x108 ch 1).answered e n
    match t.mv with
    | .hold _ off dram =>
      let (at_, len) := t.slotPart off lin
      let d := (data.drop at_).take len
      if t.failed.isSome then b
      else match dram with
        | none => b.gotData n k serial lin (t.place lin).1 d
        | some _ => (b.modXfer n k serial fun t => { t with staged := stage t.staged lin d }).flushStaged e n k
    | _ => b

/-- HOLD_SLOT_DELIVER (R221, R222, R361 to R364): the oldest sensed slot of the channel is decoded, escalated, retried, checked, and delivered or failed. -/
def execHoldSlotDeliver (ch : Nat) (r : SlotRead) (s : State) : Out :=
  onUnit (decide (ch < 16)) s fun e b =>
    match (b.chan ch).sensing with
    | [] => b
    | q :: rest =>
      let h := ch / 2
      let b := b.modChan ch fun c => { c with sensing := rest, busyAt := e.now, senseAt := e.now }
      match b.holdObj q.handle with
      | none => b
      | some o =>
        let addr := ((o.addrOf q.slot).map (·.2)).getD 0
        let idx := q.handle % 65536
        let d := b.decodeSlot h r
        let b := b.countDecode h d
        match d with
        | none =>
          let b := b.loseSlot idx q.slot
          match q.xfer with
          | some (n, k, serial, _) => b.failXfer e n k serial stUncorrectable ukStack h addr q.handle
          | none => b.dataAlarm e stUncorrectable ukStack h addr o.owner
        | some (w, c, _) =>
          let b := b.dueReloc h addr c q.handle q.slot w.data
          match q.xfer with
          | none => b
          | some (n, k, serial, lin) =>
            if !slotPasses w o q.handle q.slot then b.failXfer e n k serial stIntegrity ukStack h addr q.handle
            else (b.modObj idx fun o => { o with treeSeen := if o.treeSeen.contains (q.slot / treeFan) then o.treeSeen else o.treeSeen ++ [q.slot / treeFan] }).deliverSlot e ch n k serial lin w.data

/-! ### Programs, erases, stores -/

/-- The images of some slots of a page to be programmed, in order (R359). -/
def Block.imagesOf (e : Env) (h : Nat) : List MergeWrite → Block → List (List Byte) × Block
  | [], b => ([], b)
  | w :: ws, b =>
    let (i, b) := b.nextImage e h w.handle w.slot kindObject w.whole
    let (is, b) := Block.imagesOf e h ws b
    (i :: is, b)

/-- Writes by pages of four (R356). -/
def pagesOf (ws : List MergeWrite) : List (List MergeWrite) := (List.range (cdiv ws.length 4)).map fun i => (ws.drop (4 * i)).take 4

/-- The place of a merge buffer's write at home: channel and address. -/
def Block.homeOf (b : Block) (w : MergeWrite) : Option (Nat × Nat) := (b.holdObj w.handle).bind fun o => o.home w.slot

/-- The writes a flush programs in pages of one kind: on a channel, first copies or later ones. -/
def Block.flushGroup (b : Block) (h ch : Nat) (again : Bool) (ws : List MergeWrite) : List MergeWrite :=
  ws.filter fun w => (b.homeOf w).any (fun x => x.1 = ch) && !(b.chan ch).out && b.slotUsed h w.handle w.slot = again

/-- The pages of data a flush of some writes programs. -/
def Block.flushPages (b : Block) (h : Nat) (ws : List MergeWrite) : Nat :=
  [(2 * h, false), (2 * h, true), (2 * h + 1, false), (2 * h + 1, true)].foldl (fun n x => n + cdiv (b.flushGroup h x.1 x.2 ws).length 4) 0

/-- The writes of a merge buffer that one flush takes: the longest run of its first 16 that makes at most four pages (R367; log 125). -/
def Block.flushTakes (b : Block) (h : Nat) : List MergeWrite :=
  let ws := (b.stack h).merge.take 16
  ws.take (((List.range (ws.length + 1)).reverse.find? fun n => decide (b.flushPages h (ws.take n) ≤ 4)).getD 0)

/-- Writes of a flush become whole slots: a first write over zeros, a later one over the current copy, whose bytes are a free value (R366; log 95). -/
def Block.wholeWrites (b : Block) (h : Nat) : List MergeWrite → List MergeWrite × Block
  | [] => ([], b)
  | w :: ws =>
    let (d, b) := b.draw
    let again := b.slotUsed h w.handle w.slot
    let below := (List.range 4096).map fun i => if again then Config.freeByte (d * 4096 + i + 2 ^ 96) else 0
    let (rest, b) := b.wholeWrites h ws
    ({ w with pieces := [(0, w.over below)] } :: rest, b)

/-- A page of a flush: first copies at the home place of its first slot, later ones in an overflow unit (R366, R367); its slots are written when the store's journal page stands. -/
def Block.flushPage (b : Block) (e : Env) (h ch : Nat) (again : Bool) (part : List MergeWrite) : Block :=
  let moved := if again then b.overPage ch else none
  let b := match moved with | some (_, b) => b | none => b
  let (is, b) := Block.imagesOf e h part b
  let home := part.filterMap fun w => (b.homeOf w).map (·.2)
  let slots := match moved with | some ((u, i), _) => (List.range part.length).map fun k => slotAddr ch u (i + k) | none => home
  let a := slots.headD 0
  let then_ := List.zipWith (fun (w : MergeWrite) a => Commit.slot w.handle w.slot (leafOf w.whole) (moved.map fun _ => a)) part slots
  (b.modChan ch fun c => c.addPage e.now (unitOf a % 32768) (a % 4096 / 4) slots is .flush).modStack h fun x => { x with committing := x.committing ++ then_ }

/-- The journal page that ends a store joins a channel's commands, four slots of KIND 1 (R359, R367); what bytes it holds is not stated (log 123). -/
def Block.journalPage (b : Block) (e : Env) (h : Nat) : HoldOp × Block :=
  let (d, b) := b.draw
  let (is, b) := b.controlPage e h kindTable (Config.freeBytes d)
  (.journal is, b)

/-- The store that flushes a stack's merge buffer and commits the changes that wait begins (R82, R366 to R368). -/
def Block.startFlush (b : Block) (e : Env) (h : Nat) : Block :=
  let (ws, b) := b.wholeWrites h (b.flushTakes h)
  let groups := [(2 * h, false), (2 * h, true), (2 * h + 1, false), (2 * h + 1, true)].map fun x => (x.1, x.2, b.flushGroup h x.1 x.2 ws)
  let b := (b.modStack h fun x => { x with
    merge := ws ++ x.merge.drop ws.length, flushing := some ws.length, committing := x.commits, commits := [], wanted := false }).syncMerge h
  let b := groups.foldl (fun b (ch, again, mine) => (pagesOf mine).foldl (fun b part => b.flushPage e h ch again part) b) b
  if b.flushOps h then b
  else
    let (j, b) := b.journalPage e h
    b.modChan (b.ownChan h) fun c => c.addOp e.now j

/-- A stack has something to store: writes or changes. -/
def Stack.owes (x : Stack) : Bool := !x.merge.isEmpty || !x.commits.isEmpty

/-- A stack whose changes wait begins a store for them, unless one is in progress or may not start (R71, R84, R364, R367). -/
def Block.commitNow (b : Block) (e : Env) (h : Nat) : Block :=
  let x := b.stack h
  if x.commits.isEmpty || x.flushing.isSome || !b.mayStore then b else b.startFlush e h

/-- Every stack that owes a store, and that has none in progress, begins it (R84, R512), if stores may start. -/
def Block.flushAll (b : Block) (e : Env) : Block :=
  if !b.mayStore then b
  else (List.range 8).foldl (fun b h => if !(b.stack h).owes || (b.stack h).flushing.isSome then b else b.startFlush e h) b

/-- The image of a slot programmed again, under a new SERIAL (R359). -/
def Block.again (e : Env) (h : Nat) : List (List Byte) → Block → List (List Byte) × Block
  | [], b => ([], b)
  | i :: is, b =>
    let w := slotWord (i.take 4096 ++ i.drop 4288)
    let (x, b) := b.nextImage e h w.obj w.slot w.kind w.data
    let (xs, b) := Block.again e h is b
    (x :: xs, b)

/-- The page that takes the place of one whose PROGRAM has failed: the next of the relocation unit, else of an overflow unit (R364, R365; log 6). -/
def Block.otherPage (b : Block) (ch : Nat) : Option ((Nat × Nat) × Block) :=
  let c := b.chan ch
  match c.reloc.head?.filter fun _ => decide (c.relocAt < 4096) with
  | some u => some ((u, c.relocAt), (b.modChan ch fun c => { c with relocAt := c.relocAt + 4 }).turnReloc ch)
  | none => b.overPage ch

/-- A PROGRAM of a page has failed (R364, R365, R367, R375): its slots are programmed again elsewhere; a relocated copy has its new address, any other slot a remap entry of KIND 1, at their commit; the second failure retires the unit. -/
def Block.programFailed (b : Block) (e : Env) (ch unit : Nat) (slots : List Nat) (images : List (List Byte)) (why : ProgFor) : Block :=
  let h := ch / 2
  match b.otherPage ch with
  | none => (slots.foldl (fun b a => b.noRemap h a) b).countFail e ch unit
  | some ((u, at_), b) =>
    let to_ (a : Nat) : Nat := slotAddr ch u (at_ + slots.findIdx (· = a))
    let turned (cs : List Commit) : List Commit :=
      let dsts := cs.filterMap fun c => match c with | .remap _ d _ => some d | .unit .. => none | .slot .. => none
      (cs.map fun c => match c with
        | .remap s d k => if slots.contains d then .remap s (to_ d) k else c
        | .unit .. => c
        | .slot .. => c) ++ (slots.filter fun a => !dsts.contains a).map fun a => .remap a (to_ a) 1
    let (is, b) := Block.again e h images b
    let (why, b) := match why with
      | .copy cs => (ProgFor.copy (turned cs), b)
      | .flush => (ProgFor.flush, b.modStack h fun x => { x with committing := turned x.committing })
    (b.modChan ch fun c => { c with
      ops := .program u (at_ / 4) (slots.map to_) is why :: c.ops
      used := if c.used.contains u then c.used else c.used ++ [u] }).countFail e ch unit

/-- A unit's rewrite has failed to program (R375): the fresh unit counts a failure, and its second one puts another in its place. -/
def Block.rewriteFailed (b : Block) (e : Env) (ch old new : Nat) (slots : List Nat) (then_ : List Commit) : Block :=
  let h := ch / 2
  let serial := (b.stack h).serial
  let b := (b.modStack h fun x => { x with serial := x.serial + slots.length }).countFail e ch new
  let redo (b : Block) (u : Nat) : Block := b.modChan ch fun c => { c with
    ops := .rewrite old u slots serial (b.hoursOf e h) (then_.map fun c => match c with
      | .unit k o n => if n = new then .unit k o u else .unit k o n
      | .remap .. => c
      | .slot .. => c) :: c.ops
    used := if c.used.contains u then c.used else c.used ++ [u] }
  if (b.chan ch).bad.contains new then (match b.freshUnit ch with | some (u, b) => redo b u | none => b) else redo b new

/-- An erase has ended well: the unit is blank and counts one more; one of the controller's own stays so, another is free (R358, R367, R374). -/
def Channel.erasedUnit (c : Channel) (u : Nat) : Channel :=
  { c with
    erases := tupd c.erases u 0 (· + 1), used := c.used.filter (· ≠ u)
    free := if c.journal.contains u || c.reloc.contains u || c.noticeUnit = u then c.free else c.free ++ [u] }

/-- What the end of a channel's command does (R59, R364, R365, R367, R370, R374, R375, R400): a RESET or IDENT that fails takes the channel out (log 6); a page or unit that stands brings its changes to a store; with a flush's pages in, its journal page follows and ends it; what fails is programmed again. -/
def Block.commandEnded (b : Block) (e : Env) (ch : Nat) (op : HoldOp) (ok : Bool) : Block :=
  let h := ch / 2
  let again (o : HoldOp) (b : Block) : Block := b.modChan ch fun c => { c with ops := o :: c.ops }
  match op with
  | .reset => if ok then b else b.channelOut e ch
  | .ident => if ok then b.identChannel ch else b.channelOut e ch
  | .erase u => if ok then (b.modChan ch fun c => c.erasedUnit u).countWear e h else b.retireUnit e ch u
  | .program u _ slots images why =>
    if !ok then b.programFailed e ch u slots images why
    else match why with
      | .copy cs => cs.foldl (fun b c => b.toCommit h c) b
      | .flush =>
        if !b.flushOps h && (b.stack h).flushing.isSome && !b.journalOps h then
          let (j, b) := b.journalPage e h
          again j b
        else b
  | .rewrite old new slots _ _ cs => if ok then cs.foldl (fun b c => b.toCommit h c) b else b.rewriteFailed e ch old new slots cs
  | .notice _ =>
    let b := if ok then b else (b.modStack h fun x => { x with noticeTorn := true }).countFail e ch (b.chan ch).noticeUnit
    -- a page that ends once the warning has cleared is erased
    if b.hold.powerWarn then (if ok then b.modStack h fun x => { x with notice := x.merge.take 16 } else b)
    else (b.modStack h fun x => { x with noticeTorn := false }).modChan ch fun c => c.addOp e.now (.erase c.noticeUnit)
  | .journal _ =>
    if ok then b.flushDone e h
    else
      let (j, b) := (b.countFail e ch ((b.chan ch).journal.headD 0)).journalPage e h
      again j b
  | .dump serial hours => if ok then b else again (.dump serial hours) b
  | .table is =>
    if !ok then again (.table is) b
    else
      let b : Block := { b with hold := { b.hold with epochRecord := b.startEpoch e }, harbour := { b.harbour with epochTaken := true } }
      -- the epoch is recorded: L0 may train (R400, R458)
      if b.harbour.failed.contains (.link 0) then b else b.retrain 0

/-- HOLD_COMMAND_COMPLETE (R59, R367, R374, R375, R400): the command under way on the channel ends, as its STATUS says, and the next is issued; a store for changes that wait begins, and so does the record of the epoch, which EPOCH then shows. -/
def execHoldCommandComplete (ch : Nat) (ok : Bool) (s : State) : Out :=
  if 16 ≤ ch then .fault .noSuchUnit
  else
    let e := s.env
    let h := ch / 2
    match (s.blk.chan ch).ops with
    | [] => .next s
    | op :: rest =>
      let b := (s.blk.modChan ch fun c => { c with ops := rest, opAt := e.now }).commandEnded e ch op ok
      let b := (((b.clearReloc e ch).commitNow e h).finishSeals e).recordEpoch e
      let ep := match op with | .table _ => if ok then s.blk.startEpoch e else s.aon.epoch | _ => s.aon.epoch
      .next { s with aon := { s.aon with epoch := ep }, blk := b.syncMerge h }

/-- RELOCATION (R364, R375, R382): the corrected slot joins those for the next page of the channel's relocation unit, whose place it takes, under a new SERIAL and HOURS; with four of them the page is programmed. None starts while the power warning lasts. Three relocations of a unit within a lap retire it. -/
def execRelocation (h fromSlot toSlot : Nat) (s : State) : Out :=
  onUnit (decide (h < 8 ∧ toSlot < 2 ^ 28)) s fun e b =>
    let ch := 2 * h + fromSlot / 2 ^ 27
    if b.hold.powerWarn || (b.chan ch).out || !(b.stack h).relocQueue.contains fromSlot then b
    else if b.remapFull h fromSlot then
      (b.modStack h fun x => { x with relocQueue := x.relocQueue.filter (· ≠ fromSlot), corrected := tdel x.corrected fromSlot }).noRemap h fromSlot
    else if b.nextReloc ch ≠ some toSlot then b
    else
      let x := tgetD (b.stack h).corrected fromSlot (0, 0, [])
      let unit := unitOf (b.physOf h fromSlot) % 32768
      let b := b.modStack h fun x => { x with relocQueue := x.relocQueue.filter (· ≠ fromSlot), corrected := tdel x.corrected fromSlot }
      let (i, b) := b.nextImage e h x.1 x.2.1 kindObject x.2.2
      let b := (b.bump F.HD_ECC_RELOCATED h).modChan ch fun c => { c with
        relocs := tupd c.relocs unit 0 (· + 1), relocSince := if c.relocPage.isEmpty then e.now else c.relocSince
        relocPage := c.relocPage ++ [(fromSlot, i)] }
      let b := if 4 ≤ (b.chan ch).relocPage.length then b.closeReloc e ch else b
      if 3 ≤ tgetD (b.chan ch).relocs unit 0 then b.retireUnit e ch unit else b

/-- The unit with the most FROM addresses of a stack's remap entries, with their number. -/
def Block.fullestUnit (b : Block) (h : Nat) : Option (Nat × Nat) :=
  let us := (b.remapsOf h).map fun i => unitOf (b.rd F.HD_REMAP_FROM (32 * h + i))
  us.eraseDups.foldl (fun m u => let n := us.count u; match m with
    | some (_, k) => if k < n then some (u, n) else m
    | none => some (u, n)) none

/-- REMAP_FOLD (R365, R372): with 24 entries valid, or 4 of one unit, the unit with most is rewritten whole; a queued unit is rewritten in the same way on an idle channel, at once with every entry taken. -/
def execRemapFold (h : Nat) (s : State) : Out :=
  onUnit (decide (h < 8)) s fun e b =>
    let n := (b.remapsOf h).length
    let queued := (b.stack h).foldQueue.head?
    let full := match b.fullestUnit h with
      | some (u, k) => if 24 ≤ n ∨ 4 ≤ k then some u else none
      | none => none
    let pick := if n = 32 then queued.or full else full.or (queued.filter fun u => b.dredges e (2 * h + u / 32768))
    match pick with
    | none => b
    | some u =>
      let ch := 2 * h + u / 32768
      if b.hold.powerWarn || (b.chan ch).out then b else b.foldUnit e ch (u % 32768)

/-- MERGE_FLUSH (R71, R84, R366 to R368): a full, aged, sealed or read merge buffer is flushed as a store; no store starts while the power warning lasts or a warm reset waits. -/
def execMergeFlush (h : Nat) (s : State) : Out :=
  onUnit (decide (h < 8)) s fun e b =>
    let x := b.stack h
    let old := match x.merge with | w :: _ => decide (w.at_ + b.rd F.HD_CTL_MERGE_AGE * 1000000 ≤ e.now) | [] => false
    if !b.mayStore || x.flushing.isSome || !x.owes || !(decide (16 ≤ x.merge.length) || old || x.wanted || b.sealNeeds h || !x.commits.isEmpty) then b
    else b.startFlush e h

/-! ### The Dredger -/

/-- DREDGER_READ (R362, R364, R371 to R373): the Dredger's oldest sense of the channel, of a slot of its lap, is decoded and not delivered; with none in flight and no committed slot left, the lap ends. -/
def execDredgerRead (ch slot : Nat) (r : SlotRead) (s : State) : Out :=
  onUnit (decide (ch < 16)) s fun e b =>
    let h := ch / 2
    match (b.chan ch).dredging with
    | [] => if b.dredges e ch && (b.nextDredge ch (b.chan ch).lapSlot).isNone then b.lapEnd e h else b
    | a :: rest =>
      if a ≠ slot then b
      else
        let b := b.modChan ch fun c => { c with dredging := rest, lapSlot := slot % 2 ^ 27 + 1 }
        let owner := b.ownerAt ch (unitOf slot % 32768) (slot % 4096)
        let d := b.decodeSlot h r
        let b := b.countDecode h d
        let b := match d with
          | none =>
            let sl := ((owner.bind fun x => tget b.hold.objs x.1).map fun (o : HoldObj) => o.owner).getD 0
            (match owner with | some (i, j) => b.loseSlot i j | none => b).dataAlarm e stUncorrectable ukStack h slot sl
          | some (w, k, _) =>
            let b := b.dueReloc h slot k w.obj w.slot w.data
            if w.hours + b.rd F.HD_CTL_RETAIN_H < b.hoursOf e h ∨ b.rd F.HD_STACK_RELOC h / 2 < k then
              b.modStack h fun x => { x with foldQueue := if x.foldQueue.contains (unitOf slot) then x.foldQueue else x.foldQueue ++ [unitOf slot] }
            else b
        b.lapEnd e h

/-- LAP_ALARM (R373): a lap still running after LAP_MAX_D days raises HOLD_LAP, once for each lap. -/
def execLapAlarm (h : Nat) (s : State) : Out :=
  onUnit (decide (h < 8)) s fun e b =>
    let days := b.rd F.HD_CTL_LAP_MAX_D
    let x := b.stack h
    let up := b.hstate h = hsReady ∨ b.hstate h = hsReadOnly
    if up ∧ ¬ x.lapAlarmed ∧ x.lapSince + days * 86400000000000 < e.now then
      (b.modStack h fun x => { x with lapAlarmed := true }).alarm e { code := 0x0023, kind := ukStack, idx := h, data := [days] }
    else b

/-- WEAR_LEVEL (R374): on an idle channel with a gap of erase counts above WEAR_GAP, the least-erased unit that holds committed data is rewritten into the most-erased free unit; none starts while the power warning lasts (R84). -/
def execWearLevel (ch : Nat) (s : State) : Out :=
  onUnit (decide (ch < 16)) s fun e b =>
    let c := b.chan ch
    let all := (b.unitsOn ch ++ c.free).map c.erased
    let gap := all.foldl max 0 - (match all with | x :: xs => xs.foldl min x | [] => 0)
    match leastBy c.erased (b.unitsOn ch), leastBy (fun u => 2 ^ 32 - c.erased u) c.blank with
    | some old, some new =>
      if b.rd F.HD_CTL_WEAR_GAP < gap ∧ b.dredges e ch ∧ ¬ b.hold.powerWarn ∧ ¬ b.moving ch old ∧ ¬ b.relocating ch old then
        if b.heldIn ch old then b.modStack (ch / 2) fun x => { x with wanted := true } else b.rewriteInto e ch old new
      else b
    | _, _ => b

/-- HOLD_COMMAND_TIMEOUT (R59, R482): a command past its timing by ten times takes its channel out of service. -/
def execHoldCommandTimeout (ch : Nat) (s : State) : Out :=
  onUnit (decide (ch < 16)) s fun e b =>
    let c := b.chan ch
    if c.out || !c.overdue e.now then b else b.channelOut e ch

end Sys2Proof.Machine
end

