-- ==== Sys2Proof/Machine/Links.lean ====
section
/-! DEFINITION. The meanings of the links' events (R387 to R394, R414). -/

namespace Sys2Proof.Machine

open Sys2Proof

/-- A NAK (R387): the flits kept after its sequence are replayed; the same flit replayed 16 times retrains the link. -/
def Block.replay (b : Block) (e : Env) (l ack : Nat) : Block :=
  let kept := afterAck (b.link l).kept ack
  match kept with
  | [] => b
  | f :: _ =>
    let (g, n) := (b.link l).replaysOf
    let n := if g = f then n + 1 else 1
    let b := (b.bump F.FE_LINK_REPLAYS l kept.length).modLink l fun x => { x with replaysOf := (f, n) }
    let b := (kept.filterMap (tget (b.link l).flits)).foldl (fun b f => b.putFlit e l f) b
    if 16 ≤ n then b.retrain l else b

/-- The flits kept after an acknowledgement; one that covers the IDLE notice lets the direction go idle (R387, R389). -/
def Block.takeAck (b : Block) (e : Env) (l ack : Nat) : Block :=
  let b := b.modLink l fun x => { x with kept := afterAck x.kept ack }
  match (b.link l).idleSeq with
  | none => b
  | some q =>
    if (b.link l).kept.contains q then b
    else (b.modLink l fun x => { x with idleSeq := none, txIdle := true, chunkWaits := false, idleAt := e.now }).wr F.FE_LINK_STATE l lkIdle

/-- The other direction sends (R389, R390): its IDLE notice stands only as this flit says, this block's direction leaves idle to acknowledge, and the link is UP with both running. -/
def Block.peerSends (b : Block) (e : Env) (l : Nat) (idle : Bool) : Block :=
  let b := b.modLink l fun x => { x with peerIdle := idle }
  if idle then b
  else
    let b := (List.range 9).foldl (fun b n => if ((b.link l).lane n).idleDet then b.modLane l n fun y => { y with idleDet := false } else b) b
    let b := b.wakeTx e l
    if b.lstate l = lkIdle ∨ b.lstate l = lkExiting then b.wr F.FE_LINK_STATE l lkUp else b

/-- FLIT_RECEIVE (R387, R389, R390, R392): up to 15 symbols are corrected; a codeword or flit that fails is answered with NAK; good flits are taken once each, in sequence order; ACK and NAK act on the flits kept. The corrected symbols are counted on the lane the draw gives (the operand does not say where they lay; log 5). -/
def execFlitReceive (l seq symErrs : Nat) (crcOk : Bool) (ack : Nat) (nak idle : Bool) (s : State) : Out :=
  onUnit (decide (l < 2)) s fun e b =>
    if !b.linkUp l then b
    else if 15 < symErrs || !crcOk then b.sendNak e l
    else
      let b := if symErrs = 0 then b else
        let (d, b) := b.draw
        let n := Config.freeNat d % 9
        let b := (b.bump F.FE_LANE_FEC_SYM (laneIdx l n) symErrs).modLane l n fun x =>
          { x with syms := (x.syms.filter fun y => decide (e.now < y.1 + 1000000000)) ++ [(e.now, symErrs)] }
        b.narrowIfDue e l n
      if !b.linkUp l then b
      else
        let b := if nak then b.replay e l ack else b
        let b := b.takeAck e l ack
        let x := b.link l
        if seq = x.rxSeq then (b.modLink l fun x => { x with rxSeq := (seq + 1) % 4096, nakOwed := false }).peerSends e l idle
        else if (x.rxSeq + 4096 - seq) % 4096 ≤ 512 then b
        else b.sendNak e l

/-- LINK_TRAINED (R388, R393, R394): the link is UP at the rate and width reached, within what LINK_CONFIG allows; its lanes are in service again, the spare among the four of width 4 counting as used; a failed link returns; in stage S4 L0 follows L1 to full rate (R460). -/
def execLinkTrained (l : Nat) (half narrow : Bool) (s : State) : Out :=
  onUnit (decide (l < 2)) s fun e b =>
    if b.lstate l ≠ lkTraining then b
    else
      let x := b.link l
      let half := half || x.allowHalf || x.startHalf
      let four := narrow || x.allowNarrow || b.rd F.FE_LINK_WIDTH l = 1
      let act := if four then b.bestLanes l else List.range 8
      let b := (((b.wr F.FE_LINK_STATE l lkUp).wr F.FE_LINK_RATE l half.toNat).wr F.FE_LINK_WIDTH l four.toNat).wr F.FE_LINK_SPARE_USED l (act.contains 8).toNat
      let b := (List.range 9).foldl (fun b n =>
        (b.wr F.FE_LANE_RETIRED (laneIdx l n) 0).modLane l n fun y => { y with
          active := act.contains n, tx := act.contains n, locked := act.contains n, idleDet := false, lowScans := 0, comma := Config.commaStart l true e.now % 65536 }) b
      let b := (b.modLink l fun x => { x with txSpare := none, rxAt := e.now }).startLanes e l fun _ => [Config.commaStart l false e.now % 65536]
      let b := { b with harbour := { b.harbour with openUnits := if b.harbour.openUnits.contains (OpenUnit.link l) then b.harbour.openUnits
        else b.harbour.openUnits ++ [OpenUnit.link l] } }
      ((b.unitBack e (.link l)).raise 53).raiseL0 l

/-- LINK_TRAIN_FAIL (R394, R396, R482): the link stays DOWN, LINK_DOWN is raised, service is degraded; its traffic moves to the other link. -/
def execLinkTrainFail (l : Nat) (s : State) : Out :=
  onUnit (decide (l < 2)) s fun e b =>
    if b.lstate l ≠ lkTraining then b
    else
      let b := (b.wr F.FE_LINK_STATE l lkDown).alarm e { code := 0x0031, kind := ukLink, idx := l }
      ((b.failUnit e (.link l)).raise 53).raiseL0 l

/-- LINK_IDLE_ENTRY (R389, R414): after IDLE_US without a chunk the IDLE notice goes out; the direction is idle once it is acknowledged. A swap keeps it back. -/
def execLinkIdleEntry (l : Nat) (s : State) : Out :=
  onUnit (decide (l < 2)) s fun e b =>
    let us := b.rd F.FE_LINK_IDLE_US l
    let x := b.link l
    if b.linkUp l ∧ !x.txIdle ∧ us ≠ 0 ∧ x.lastChunk + us * 1000 ≤ e.now ∧ x.swap = none ∧ x.idleSeq = none then
      (b.sendLctl e l 0 0 0).modLink l fun y => { y with idleSent := true, idleSeq := some x.txSeq }
    else b

/-- LINK_IDLE_EXIT (R389, R390): with a chunk to send the direction sends the pattern and a comma; the link is UP once the other direction runs as well. -/
def execLinkIdleExit (l : Nat) (s : State) : Out :=
  onUnit (decide (l < 2)) s fun e b =>
    let x := b.link l
    if b.lstate l = lkIdle ∧ x.txIdle ∧ x.chunkWaits then (b.wr F.FE_LINK_STATE l (if x.peerIdle then lkExiting else lkUp)).leaveIdle e l
    else b

/-- LANE_IDLE_DETECT (R389): accepted after the IDLE notice; otherwise a link fault, and the link retrains. -/
def execLaneIdleDetect (l n : Nat) (s : State) : Out :=
  onUnit (decide (l < 2 ∧ n < 9)) s fun _ b =>
    if !b.linkUp l then b
    else
      let b := b.modLane l n fun x => { x with idleDet := true }
      if (b.link l).peerIdle then (if b.lstate l = lkUp then b.wr F.FE_LINK_STATE l lkIdle else b) else b.retrain l

/-- LANE_SCAN (R391, R392, R394, R414): the scan of the lane whose turn it is ends and its margin is recorded; a lane that is due where no spare can be used narrows the link. -/
def execLaneScan (l n eyeW eyeH : Nat) (s : State) : Out :=
  onUnit (decide (l < 2 ∧ n < 9 ∧ eyeW < 64 ∧ eyeH < 256)) s fun e b =>
    let i := laneIdx l n
    if !b.linkUp l || b.scanLane l ≠ some n then b
    else
      let low := decide (eyeW < b.rd F.FE_LINK_MARGIN_W l) || decide (eyeH < b.rd F.FE_LINK_MARGIN_H l)
      let b := ((b.wr F.FE_LANE_EYE_W i eyeW).wr F.FE_LANE_EYE_H i eyeH).wr F.FE_LANE_LOW i low.toNat
      let b := b.modLane l n fun x => { x with good := !low, lowScans := if low then x.lowScans + 1 else 0 }
      (b.modLink l fun x => { x with scanFrom := n + 1 }).narrowIfDue e l n

/-- SWAP_REQ (R392, R393): a swap onto the spare begins: this block asks for a lane that is due, or the switch port asks. -/
def execSwapReq (l n : Nat) (fromPeer : Bool) (s : State) : Out :=
  onUnit (decide (l < 2 ∧ n < 8)) s fun e b =>
    if b.lstate l ≠ lkUp ∨ (b.link l).swap ≠ none ∨ b.rd F.FE_LINK_SPARE_USED l = 1 then b
    else if fromPeer then
      -- lane 8 goes on from where lane n stands, and carries a copy of what follows
      b.modLink l fun x =>
        let y := x.lane n
        { x.modLane 8 fun z => { z with part := y.part, pos := y.pos, txCount := y.txCount, slots := y.slots } with swap := some ⟨n, true, 1, 0⟩ }
    else if b.laneDue e l n && b.spareReady l then
      (b.sendLctl e l 1 n 0).modLink l fun x => { x with swap := some ⟨n, false, 1, 0⟩ }
    else b

/-- SPARE_LANE_LOCKED (R393): lane 8 is aligned to the lane's comma count, and SWAP_GO goes out with SWAP_AT two commas ahead. -/
def execSpareLaneLocked (l : Nat) (s : State) : Out :=
  onUnit (decide (l < 2)) s fun e b =>
    match (b.link l).swap with
    | some w =>
      if w.fromPeer || w.step ≠ 1 then b
      else
        let x := b.link l
        let at_ := (x.rxComma (b.rd F.FE_LINK_RATE l = 1) e.now w.lane + 2) % 65536
        ((b.modLane l 8 fun y => { y with locked := true, comma := (x.lane w.lane).comma }).sendLctl e l 2 w.lane at_).modLink l fun x => { x with swap := some { w with step := 2, at_ := at_ } }
    | none => b

/-- SWAP_GO (R393): the switch port fixes the comma count at which the spare replaces the lane it asked for. -/
def execSwapGo (l n swapAt : Nat) (s : State) : Out :=
  onUnit (decide (l < 2 ∧ n < 8 ∧ swapAt < 65536)) s fun _ b =>
    match (b.link l).swap with
    | some w => if w.fromPeer && w.step = 1 && w.lane = n then b.modLink l fun x => { x with swap := some { w with step := 2, at_ := swapAt } } else b
    | none => b

/-- SWAP_AT (R393): at that comma lane 8 stands in for the lane, which is RETIRED: in the receive direction for a swap of this block's, in the transmit direction for one that the switch port asked for. -/
def execSwapAt (l comma : Nat) (s : State) : Out :=
  onUnit (decide (l < 2 ∧ comma < 65536)) s fun _ b =>
    match (b.link l).swap with
    | some w =>
      if w.step = 2 ∧ w.at_ = comma then
        let b := if w.fromPeer then
            ((b.modLane l w.lane fun x => { x with tx := false }).modLane l 8 fun x => { x with tx := true }).modLink l fun x => { x with swap := none, txSpare := some w.lane }
          else ((b.modLane l w.lane fun x => { x with active := false }).modLane l 8 fun x => { x with active := true }).modLink l fun x => { x with swap := none }
        ((b.wr F.FE_LANE_RETIRED (laneIdx l w.lane) 1).wr F.FE_LINK_SPARE_USED l 1).wr F.FE_LINK_SPARE_FOR l w.lane
      else b
    | none => b

end Sys2Proof.Machine
end

