-- ==== Sys2Proof/Machine/Pilot.lean ====
section
/-! DEFINITION. The meanings of Pilot's events and of the dirty-log commands (R226, R227, R310 to R317, R320, R324 to R327). -/

namespace Sys2Proof.Machine

open Sys2Proof

/-- STALE_NOTICE (R226, R315, R322): a holder receives its oldest notice and halts what the notice names. -/
def execStaleNotice (h : Holder) (s : State) : Out :=
  onBlk s fun _ b =>
    match b.pilot.notices.find? fun x => x.1 = h with
    | none => b
    | some n => ({ b with pilot := { b.pilot with notices := b.pilot.notices.erase n } }).receiveNotice h n.2

/-- STALE_ACKNOWLEDGE (R226, R315): a holder that has received its notice and halted acknowledges; the last acknowledgement completes the invalidation. -/
def execStaleAcknowledge (h : Holder) (s : State) : Out :=
  onBlk s fun e b =>
    match b.pilot.invals with
    | [] => b
    | x :: rest =>
      if x.waiting.contains h && b.hasLetGo x h then b.dropReleased e
      else if !x.waiting.contains h || b.pilot.notices.any (fun n => n.1 = h) || !b.mayAck h x.heads then b
      else ({ b with pilot := { b.pilot with invals := { x with waiting := x.waiting.filter (· ≠ h) } :: rest } }).settleInvals e

/-- RESTAMP_COMPLETE (R227, R287, R289, R317): a re-stamp whose translations are in ends: new runs with a new GEN and STALE clear, or its failure. -/
def execRestampComplete (head : Nat) (s : State) : Out :=
  onBlk s fun e b =>
    let mine (t : StampTask) : Bool := match t.why with | .restamp h => h = head | _ => false
    match b.pilot.streams.find? fun y => mine y.2 with
    | none => b
    | some (st, t) =>
      let b' := { b with pilot := { b.pilot with streams := tdel b.pilot.streams st } }
      match t.failed with
      | some f => (b'.restampLost e head f).startTasks e
      | none =>
        if !t.needs.isEmpty || t.halt then b
        else
          match b'.head head, t.done with
          | some v, (_, runs) :: _ =>
            if v.runs < runs.length ∧ b'.rd F.PL_SQUOTA_QUOTA v.slice + v.runs < b'.stampsUsed v.slice + runs.length then (b'.restampLost e head stQuota).startTasks e
            else
              let old := (stampRuns b'.pilot.stamps v.runs v.first).map (·.1)
              let t0 := old.foldl (fun t i => tdel t i) b'.pilot.stamps
              let idx := freeEntries t0 runs.length
              let gen := (v.gen + 1) % 2 ^ 16
              let t1 := tput t0 head (.head v.blen v.va runs.length (idx.headD 0) v.slice v.ctx false v.image v.read v.write v.buf gen)
              let b1 := { b' with pilot := { b'.pilot with stamps := writeRuns t1 v.slice v.ctx runs idx } }
              ((b1.tallyG (some v.slice) 0x103 0 (runs.length + 1)).resumeHead e head gen).startTasks e
          | _, _ => b'.startTasks e

/-- INVALIDATION_REQUEST (R310, R315): requests are processed one at a time in arrival order; 32 may wait. -/
def execInvalidationRequest (pasid : Option Nat) (va size : Nat) (s : State) : Out :=
  onBlk s fun e b =>
    if 32 < b.pilot.invals.length then b
    else
      let first := b.pilot.invals.isEmpty
      let b := { b with pilot := { b.pilot with
          invals := b.pilot.invals ++ [⟨pasid, va, size, [], [], false, e.now⟩]
          streams := b.pilot.streams.map fun y => (y.1, b.overtaken pasid va size y.2) } }
      if first then (b.beginInval e).settleInvals e else b

/-- The size code of the largest page not above a translation's size (R310). -/
def pageCode (bytes : Nat) : Nat := if 2 ^ 30 ≤ bytes then 2 else if 2 ^ 21 ≤ bytes then 1 else 0

/-- The translations of a completion enter the cache, each split into pages of one size (R308, R310); `va` lies in the first. -/
def Block.addPages (b : Block) (e : Env) (pasid : Nat) : (va : Nat) → List Trans → Block
  | _, [] => b
  | va, x :: xs =>
    let s := pageCode x.bytes
    let pb := pageBytes s
    let base := va / max 1 x.bytes * x.bytes
    let cls := (b.classify e x.phys).1
    let cache := (List.range (x.bytes / pb)).foldl (fun c i => cacheAdd c pasid s (base / pb + i) (x.phys + i * pb) cls x.read x.write) b.pilot.cache
    Block.addPages { b with pilot := { b.pilot with cache := cache } } e pasid (base + x.bytes) xs

/-- The task of a stream fails (R311). -/
def Block.failStream (b : Block) (e : Env) (st : Nat) (t : StampTask) (code : Nat) : Block :=
  if t.restamps then { b with pilot := { b.pilot with streams := tput b.pilot.streams st { t with failed := some code, asked := none, pageReq := none } } }
  else (({ b with pilot := { b.pilot with streams := tdel b.pilot.streams st } }).stampFailed e t code).startTasks e

/-- The range of virtual addresses that the translations of a completion cover; `va` lies in the first. -/
def transSpan (va : Nat) (l : List Trans) : Nat × Nat :=
  match l with
  | [] => (va, 0)
  | x :: _ => (va / max 1 x.bytes * x.bytes, l.foldl (fun n y => n + y.bytes) 0)

/-- A Translation Completion was overtaken by an invalidation of a range it covers, or that was asked for (R313). -/
def Block.overtook (b : Block) (t : StampTask) (va : Nat) (r : AtsResult) : Bool :=
  let span := match r with | .pages l => transSpan va l | _ => (va, 0)
  t.crossed.any fun x => pagesMeet va (4096 * b.askCount t va) x.1 x.2 || pagesMeet span.1 span.2 x.1 x.2

/-- A halted task keeps its stream, with nothing outstanding, until the Invalidation Completion (R301, R317). -/
def Block.restStream (b : Block) (st : Nat) (t : StampTask) : Block :=
  { b with pilot := { b.pilot with streams := tput b.pilot.streams st { t with asked := none, pageReq := none, crossed := [] } } }

/-- The answer to what a task asked the host is in: a halted one rests, another goes on with what follows. -/
def Block.afterAsk (b : Block) (st : Nat) (t : StampTask) (go : Block → Block) : Block := if t.halt then b.restStream st t else go b

/-- TRANSLATION_COMPLETION (R310 to R313, R317): its pages enter the cache and stamping goes on; U set or an error fails it; one overtaken by an invalidation is discarded and asked for again. -/
def execTranslationCompletion (stream : Nat) (r : AtsResult) (s : State) : Out :=
  onUnit (decide (stream < 64)) s fun e b =>
    match tget b.pilot.streams stream with
    | none => b
    | some t =>
      match t.asked with
      | none => b
      | some va =>
        let t' := { t with asked := none, crossed := [] }
        if t.pageReq.isSome || t.pageWait then b
        else if b.overtook t va r then (b.bump F.PL_MISS_STAT_DISCARDED).afterAsk stream t' fun b => b.runTask e stream t'
        else match r with
          | .untrans => (b.bump F.PL_MISS_STAT_UNTRANS).afterAsk stream t' fun b => b.failStream e stream t' stTranslation
          | .fail => (b.bump F.PL_MISS_STAT_ATS_FAIL).afterAsk stream t' fun b => b.failStream e stream t' stTranslation
          | .pages l => (b.addPages e (b.pasidOf t.slice) va l).afterAsk stream t' fun b => (b.runTask e stream t').startTasks e

/-- Page Requests that waited for allocation go out while there is room (R312). -/
def Block.pageRoom (b : Block) (e : Env) : Block :=
  b.pilot.streams.foldl (fun b (s, t) => if t.pageWait then b.askPage e s t (t.asked.getD 0) else b) b

/-- PRG_RESPONSE (R310 to R312): Success (code 0) retries the translation; Invalid Request (1) fails it; any other is a Response Failure, which also stops PRI. -/
def execPrgResponse (stream code : Nat) (s : State) : Out :=
  onUnit (decide (stream < 64)) s fun e b =>
    match tget b.pilot.streams stream with
    | none => b
    | some t =>
      match t.pageReq, t.asked with
      | some _, some va =>
        let t := { t with pageReq := none }
        if code = 0 then
          -- the cached translation without the permission is dropped and asked for again
          let b := { b with pilot := { b.pilot with cache := cachePurge b.pilot.cache (some (b.pasidOf t.slice)) va 4096 } }
          let t := { t with answered := some va, asked := none }
          (b.afterAsk stream t fun b => b.runTask e stream t).pageRoom e
        else
          let b := if code = 1 then b else { b with host := { b.host with priStopped := true } }
          ((b.bump F.PL_MISS_STAT_PRI_FAIL).afterAsk stream t fun b => b.failStream e stream t stTranslation).pageRoom e
      | _, _ => b

/-- PRI_TIMEOUT (R311): no PRG Response within PL_CTL.PRI_TIMEOUT. -/
def execPriTimeout (stream : Nat) (s : State) : Out :=
  onUnit (decide (stream < 64)) s fun e b =>
    match tget b.pilot.streams stream with
    | none => b
    | some t =>
      match t.pageReq with
      | some since =>
        if e.now < since + b.rd F.PL_CTL_PRI_TIMEOUT * 1000000 then b
        else
          let t := { t with pageReq := none }
          ((b.bump F.PL_MISS_STAT_PRI_FAIL).afterAsk stream t fun b => b.failStream e stream t stTranslation).pageRoom e
      | none => b

/-- One granule's 16 bits as a write leaves them: VALID in a MAC region or on an unconnected port, and reserved owners, are discarded; reserved bits stay 0 (R320, R327). -/
def Block.granuleBits (b : Block) (e : Env) (g old new : Nat) : Nat :=
  let owner := new % 1024
  let valid := decide (32768 ≤ new)
  if 512 ≤ owner ∧ owner ≠ 0x3FF then old
  else if valid && !b.backed e (g * 2 ^ 21) then old
  else (if valid then 32768 else 0) + owner

/-- GRANULE_WRITE (R320, R327): the Harbourmaster writes PL_GRANULE_g. -/
def execGranuleWrite (g : Nat) (v : Word) (s : State) : Out :=
  onUnit (decide (g < 65536)) s fun e b =>
    let old := (b.reg .plGranule g).toNat
    let part (w n : Nat) : Nat := w / 2 ^ (16 * n) % 65536
    b.setReg .plGranule g (BitVec.ofNat 64 ((List.range 4).foldl (fun a n =>
      a + b.granuleBits e (4 * g + n) (part old n) (part v.toNat n) * 2 ^ (16 * n)) 0))

/-! ### Dirty logs (R324 to R326) -/

/-- DIRTY_START. -/
def execDirtyStart (m : Mgr) (sl base pages logA logB : Nat) (s : State) : Out :=
  onBlk s fun e b => b.manager e m 0x0801 fun b =>
    if !b.sliceExists sl || decide (base % 4096 ≠ 0 ∨ pages = 0 ∨ 2 ^ 28 < pages ∨ logA % 64 ≠ 0 ∨ logB % 64 ≠ 0) then b.reply m 0x0801 rcBadArg
    else if thas b.pilot.dirty sl || b.pilot.logLines.any fun l => l.sl = sl then b.reply m 0x0801 rcBusy
    else if 64 ≤ b.pilot.dirty.length then b.reply m 0x0801 rcNoResource
    else ({ b with pilot := { b.pilot with dirty := tput b.pilot.dirty sl ⟨base, pages, logA, logB, 0, false, []⟩ } }).reply m 0x0801 rcDone

/-- A harvest ends once no line of its log is being read: its lines are in the log, and the reply goes out (R325, R326). -/
def Block.endHarvests (b : Block) (e : Env) : Block :=
  let waits (h : Harvest) : Bool := b.pilot.logLines.any fun l => l.sl = h.sl && l.log = h.log
  let b' : Block := { b with pilot := { b.pilot with harvests := b.pilot.harvests.filter waits } }
  (b.pilot.harvests.filter fun h => !waits h).foldl (fun b h => b.endMgr e h.m h.op rcDone h.data) b'

/-- Harvest a log (R326): the other one becomes active, the cached lines of the former are written back, and the reply says which was harvested, how many bits are set, and OVERFLOW, which it clears. Lines still being read are written back when their reads come in. -/
def Block.harvest (b : Block) (e : Env) (m : Mgr) (op sl : Nat) (stop : Bool) : Block :=
  match tget b.pilot.dirty sl with
  | none => b.reply m op rcBadArg
  | some d =>
    if b.pilot.logLines.any fun l => l.sl = sl && l.log ≠ d.active then b.reply m op rcBusy
    else
      let data := [d.active, d.set.length, d.overflow.toNat]
      let d' := { d with active := 1 - d.active, overflow := false, set := [] }
      let b : Block := { b with pilot := { b.pilot with dirty := if stop then tdel b.pilot.dirty sl else tput b.pilot.dirty sl d' } }
      let mine := b.pilot.logLines.filter fun l => l.sl = sl && l.log = d.active
      let b := (mine.filter (·.filled)).foldl (fun b l => b.writeLine l) b
      if mine.all (·.filled) then b.reply m op rcDone data
      else
        let b := b.startMgr e m op [] 0
        { b with pilot := { b.pilot with harvests := b.pilot.harvests ++ [⟨m, op, sl, d.active, data⟩] } }

/-- A cached line's contents come in (R325): they are merged; a line of a log that is active no longer is written back. A read that fails leaves OVERFLOW set (log 51). -/
def Block.lineIn (b : Block) (e : Env) (sl log line : Nat) (d : Option (List Byte)) : Block :=
  match b.pilot.logLines.find? fun l => l.sl = sl && l.log = log && l.line = line with
  | none => b
  | some l =>
    let old := d.getD []
    let l' := { l with filled := true, bytes := (List.zipIdx l.bytes).map fun (x, i) => x ||| old.getD i 0 }
    let b : Block := { b with pilot := { b.pilot with
      logLines := b.pilot.logLines.map fun x => if x = l then l' else x
      dirty := if d.isSome then b.pilot.dirty else tmod b.pilot.dirty sl fun x => { x with overflow := true } } }
    if (tget b.pilot.dirty sl).map (·.active) = some log then b.evictLines else (b.writeLine l').endHarvests e

/-- DIRTY_HARVEST. -/
def execDirtyHarvest (m : Mgr) (sl : Nat) (s : State) : Out :=
  onBlk s fun e b => b.manager e m 0x0802 fun b => b.harvest e m 0x0802 sl false

/-- DIRTY_STOP. -/
def execDirtyStop (m : Mgr) (sl : Nat) (s : State) : Out :=
  onBlk s fun e b => b.manager e m 0x0803 fun b => b.harvest e m 0x0803 sl true

end Sys2Proof.Machine
end

