-- ==== Sys2Proof/Machine/Watch.lean ====
section
/-! DEFINITION. Watchkeeper: sensors, operating points, power states, the Harbourmaster watchdog: the meanings of R72, R79 to R84, R370, R390, R509 to R514. -/

namespace Sys2Proof.Machine

open Sys2Proof

/-- Watchkeeper decides: after THERM_TRIP it takes no further decision (R511). -/
def Block.decides (b : Block) : Bool := !b.power.thermTrip

/-! ### POWER_SET (R509) -/

/-- POWER_SET (R509, R513): the fields given are written within their ranges, those that depend on them stay within theirs. -/
def execPowerSet (m : Mgr) (c : PowerCfg) (s : State) : Out :=
  onBlk s fun e b => b.manager e m 0x0508 fun b =>
    let old (f : Fld) (v : Option Nat) : Nat := v.getD (b.rd f)
    let crit := clampN 80 114 (old F.WK_CTL_T_CRIT c.tCrit)
    let thr := clampN 60 crit (old F.WK_CTL_T_THROTTLE c.tThrottle)
    let rel := min (thr - 1) (old F.WK_CTL_T_RELEASE c.tRelease)
    let vm := clampN 5 100 (old F.WK_CTL_V_MARGIN c.vMargin)
    let opp := min 15 (old F.WK_CTL_MAX_OPP c.maxOpp)
    let cap := clampN 50 250 (old F.WK_CTL_POWER_CAP_W c.powerCap)
    let gateMs := clampN 1 255 (old F.WK_POLICY_BERTH_GATE_MS c.berthGateMs)
    let idleMs := clampN 1 255 (old F.WK_POLICY_DROWSE_IDLE_MS c.drowseIdleMs)
    let auto := min 65535 (old F.WK_POLICY_AUTO_GATE c.autoGate)
    let lock := min 65535 (old F.WK_POLICY_LOCKSTEP c.lockstep)
    let anchor := old F.WK_POLICY_ANCHOR_ALLOW (c.anchorAllow.map Bool.toNat)
    let drowse := old F.WK_POLICY_DROWSE_ALLOW (c.drowseAllow.map Bool.toNat)
    let same := decide (crit = old F.WK_CTL_T_CRIT c.tCrit ∧ thr = old F.WK_CTL_T_THROTTLE c.tThrottle ∧ rel = old F.WK_CTL_T_RELEASE c.tRelease ∧
      vm = old F.WK_CTL_V_MARGIN c.vMargin ∧ opp = old F.WK_CTL_MAX_OPP c.maxOpp ∧ cap = old F.WK_CTL_POWER_CAP_W c.powerCap) &&
      decide (gateMs = old F.WK_POLICY_BERTH_GATE_MS c.berthGateMs ∧ idleMs = old F.WK_POLICY_DROWSE_IDLE_MS c.drowseIdleMs ∧
      auto = old F.WK_POLICY_AUTO_GATE c.autoGate ∧ lock = old F.WK_POLICY_LOCKSTEP c.lockstep)
    let b := (((b.wr F.WK_CTL_T_CRIT 0 crit).wr F.WK_CTL_T_THROTTLE 0 thr).wr F.WK_CTL_T_RELEASE 0 rel).wr F.WK_CTL_V_MARGIN 0 vm
    let b := (b.wr F.WK_CTL_MAX_OPP 0 opp).wr F.WK_CTL_POWER_CAP_W 0 cap
    let b := (((b.wr F.WK_POLICY_AUTO_GATE 0 auto).wr F.WK_POLICY_LOCKSTEP 0 lock).wr F.WK_POLICY_ANCHOR_ALLOW 0 anchor).wr F.WK_POLICY_DROWSE_ALLOW 0 drowse
    let b := (b.wr F.WK_POLICY_BERTH_GATE_MS 0 gateMs).wr F.WK_POLICY_DROWSE_IDLE_MS 0 idleMs
    if same then b.reply m 0x0508 rcDone else b.reply m 0x0508 rcClamped [(b.reg .wkCtl 0).toNat, (b.reg .wkPolicy 0).toNat]

/-! ### Sensors (R510) -/

/-- The middle one of some samples; of an even number the lower middle (log 27). -/
def median (l : List Int) : Int := ((sortBy (fun a b => decide (a ≤ b)) l)[(l.length - 1) / 2]?).getD 0

/-- A trim: the one CALIB_APPLY set, else the applied one (R465). -/
def Block.trim (b : Block) (id : Nat) : Int :=
  match b.harbour.trims.find? fun x => x.1 = id with
  | some x => x.2
  | none => ((b.harbour.cfg.ints.find? fun x => x.1 = id).map (·.2)).getD 0

/-- A 16-bit two's complement field. -/
def to16 (v : Int) : Nat := (v % 65536).toNat

/-- The signed value of a 16-bit field. -/
def of16 (v : Nat) : Int := if 32768 ≤ v then (v : Int) - 65536 else v

/-- A thermal sample is filtered, in 1/128 °C (R510); above 115 °C THERM_TRIP rises (R72). -/
def Block.tempSample (b : Block) (n : Nat) (code : Int) : Block :=
  let l := ((code + b.trim (0x0700 + n)) :: tgetD b.watch.temps n []).take 5
  let y := tgetD b.watch.tempY n 0
  let y := y + (16 * median l - y) / 16
  let b : Block := { b with
    watch := { b.watch with temps := tput b.watch.temps n l, tempY := tput b.watch.tempY n y }
    power := { b.power with thermTrip := b.power.thermTrip || decide (115 * 128 < y) } }
  (b.wr F.WK_TEMP_NOW n (to16 (y / 16))).wr F.WK_TEMP_MAX n (to16 (max (of16 (b.rd F.WK_TEMP_MAX n)) (y / 16)))

/-- A voltage sample is filtered, in 1/16 mV (R510). -/
def Block.voltSample (b : Block) (n : Nat) (code : Int) : Block :=
  let l := ((code + b.trim (0x0740 + n)) :: tgetD b.watch.volts n []).take 3
  let y := tgetD b.watch.voltY n 0
  let y := y + (16 * median l - y) / 4
  let b : Block := { b with watch := { b.watch with volts := tput b.watch.volts n l, voltY := tput b.watch.voltY n y } }
  (b.wr F.WK_VOLT_NOW n (y / 16).toNat).wr F.WK_VOLT_MIN n (min (b.rd F.WK_VOLT_MIN n) (y / 16).toNat)

/-- SENSOR_SAMPLE (R69, R72, R510): a thermal code is signed, in 1/8 °C; a voltage code unsigned, in mV. -/
def execSensorSample (thermal : Bool) (n : Nat) (code : BitVec 12) (s : State) : Out :=
  onUnit (decide (n < (if thermal then 48 else 16))) s fun _ b =>
    if thermal then b.tempSample n code.toInt else b.voltSample n code.toNat

/-! ### Ceilings (R511) -/

/-- The rules that act on a berth at a tick: thermal, critical, voltage, power cap, and whether a release raises it. -/
structure Rules where
  thermal : Bool
  crit : Option Nat
  volt : Bool
  power : Bool
  release : Bool

/-- The rules a berth meets, with the 10 ms mean of the power in 1/8 W. -/
def Block.rulesOf (b : Block) (n mean : Nat) (powerRelease : Bool) : Rules :=
  let t (i : Nat) : Int := tgetD b.watch.tempY i 0
  let hi := max (t (2 * n)) (t (2 * n + 1))
  let deg (f : Fld) : Int := 128 * (b.rd f : Int)
  let crit := [2 * n, 2 * n + 1].find? fun i => decide (deg F.WK_CTL_T_CRIT < t i)
  let volt := decide (tgetD b.watch.voltY (n / 4) 0 < 16 * ((Config.pairedMv (b.rd F.BT_CLOCK_OPP n) : Int) - b.rd F.WK_CTL_V_MARGIN))
  let power := decide (8 * b.rd F.WK_CTL_POWER_CAP_W < mean) && b.rd F.BT_STATE_OWNED n = 1
  ⟨decide (deg F.WK_CTL_T_THROTTLE < hi), crit, volt, power, decide (hi < deg F.WK_CTL_T_RELEASE) || powerRelease⟩

/-- The ceiling the rules give from an operating point, before any clamp: the lowest of those that lower it. -/
def Rules.ceiling (r : Rules) (opp : Nat) : Nat :=
  if r.crit.isSome then 0
  else if r.thermal || r.volt || r.power then opp - 1
  else if r.release then opp + 1
  else opp

/-- What a berth's rules count and raise (R511). -/
def Block.applyRules (b : Block) (e : Env) (n : Nat) (r : Rules) : Block :=
  let b := if r.thermal then b.bump F.WK_THROT_THERMAL else b
  let b := match r.crit with
    | some i => (((b.bump F.WK_THROT_CRIT).event e { code := 0x1009, kind := ukBerth, idx := n, data := [i, to16 (tgetD b.watch.tempY i 0 / 16)] }).raise 17)
    | none => b
  let b := if r.volt then (b.bump F.WK_THROT_VOLT).raise 18 else b
  if r.power then (b.bump F.WK_THROT_POWER).raise 19 else b

/-- A core pair at half clock above T_THROTTLE, at full clock again below T_RELEASE (R511). -/
def Block.corePair (b : Block) (i : Nat) : Block :=
  let t := tgetD b.watch.tempY (36 + i) 0
  let set (b : Block) (h : Bool) : Block := (b.modCore (2 * i) fun k => { k with halfClock := h }).modCore (2 * i + 1) fun k => { k with halfClock := h }
  if 128 * (b.rd F.WK_CTL_T_THROTTLE : Int) < t then set b true
  else if t < 128 * (b.rd F.WK_CTL_T_RELEASE : Int) then set b false else b

/-- The mean of the last n samples. -/
def meanOf (l : List Nat) (n : Nat) : Nat := (l.take n).foldl (· + ·) 0 / max 1 (l.take n).length

/-- CEILING_TICK (R511, R514): on a 1 ms boundary, with the power of the last millisecond in 1/8 W. -/
def execCeilingTick (watts8 : Nat) (s : State) : Out :=
  onBlk s fun e b =>
    if e.now % 1000000 ≠ 0 || !b.decides then b
    else
      let w := min watts8 65535
      let l := (w :: b.watch.power).take 100
      let mean := meanOf l 10
      let cap := 8 * b.rd F.WK_CTL_POWER_CAP_W
      let below := if mean < cap - 40 then b.watch.below + 1 else 0
      let b : Block := { b with watch := { b.watch with power := l, below := below } }
      let b := ((b.wr F.WK_POWER_NOW 0 w).wr F.WK_POWER_MEAN_10MS 0 mean).wr F.WK_POWER_MEAN_100MS 0 (meanOf l 100)
      let b := (List.range 4).foldl (fun b i => b.corePair i) b
      let rules := (List.range 16).map fun n => (n, b.rulesOf n mean (decide (10 ≤ below)))
      let top := min (b.rd F.WK_CTL_MAX_OPP) (if b.harbour.stage = some 4 then 15 else 7)
      let own := rules.map fun (n, r) => (n, min top (r.ceiling (b.rd F.BT_CLOCK_OPP n)))
      let b := rules.foldl (fun b (n, r) => b.applyRules e n r) b
      let locked (n : Nat) : Bool := b.rd F.BT_STATE_OWNED n = 1 && (b.rd F.WK_POLICY_LOCKSTEP).testBit (b.rd F.BT_STATE_PARTITION n)
      let lowest (p : Nat) : Nat := own.foldl (fun k x => if b.rd F.BT_STATE_OWNED x.1 = 1 ∧ b.rd F.BT_STATE_PARTITION x.1 = p then min k x.2 else k) 15
      let cs : Table (Nat × Nat × Bool) := own.map fun (n, c) => (n, c, if locked n then lowest (b.rd F.BT_STATE_PARTITION n) else c, locked n)
      { b with watch := { b.watch with ceilings := cs } }

/-! ### Power domains (R80, R512) -/

/-- The block is awake again once every domain that was switched on is up; wake requests are claimed and completed (R498, R512). -/
def Block.settleWake (b : Block) : Block :=
  if b.rd F.WK_STATE_STATE ≠ wkExiting || !((List.range 34).all fun d => !b.power.pdEn.testBit d && !b.power.pdWant.testBit d || b.domUp d) then b
  else
    let b := (b.wr F.WK_STATE_STATE 0 wkActive).raise 20
    let ws := (b.listed .blTarget).filter fun n => b.rd F.BL_TARGET_TARGET n = 9 && b.rd F.BL_TARGET_ENABLE n = 1 && b.rd F.BL_TARGET_STATE n = 1
    ws.foldl (fun b n => b.wr F.BL_TARGET_STATE n 0) b

/-- POWER_GOOD (R80, R158, R512): a rail that is good releases its domain; an opened berth is then given its repairs and scrubbed; a rail that is off can be switched on again. After a reset the ROM starts with the last of its domains (R456). -/
def execPowerGood (d : Nat) (high : Bool) (s : State) : Out :=
  onUnit (decide (d < 34)) s fun e b =>
    let b : Block := { b with power := { b.power with pdGood := setBit b.power.pdGood d high } }
    if high then
      if !b.power.pdEn.testBit d || b.domUp d then b
      else
        let b : Block := { b with power := { b.power with pdUp := setBit b.power.pdUp d true } }
        let b :=
          if d < 16 then
            if (b.berth d).opened && b.bstate d = bsGated then (b.putRepairs d).startScrub e d else b
          else if d < 24 then b.modCore (d - 16) fun k => { k with on := true, progress := e.now }
          else if b.power.romWaits then b.startRom e else b
        b.settleWake
    else if b.power.pdWant.testBit d then b.switchOn d else b

/-- A berth is free for gating (R37, R512): unowned, or idle for BERTH_GATE_MS under AUTO_GATE; never one that a resize is giving to a partition. -/
def Block.gateDue (b : Block) (e : Env) (n : Nat) : Bool :=
  let x := b.berth n
  let p := b.rd F.BT_STATE_PARTITION n
  b.domUp n && x.opened && x.resetting.isNone && x.swapping.isNone &&
  (if b.rd F.BT_STATE_OWNED n = 0 then (b.bstate n = bsIdle || b.bstate n = bsDrained) && (b.joining n).isNone
   else b.bstate n = bsIdle && (b.rd F.WK_POLICY_AUTO_GATE).testBit p && decide (x.idleSince + b.rd F.WK_POLICY_BERTH_GATE_MS * 1000000 ≤ e.now))

/-- BERTH_GATE (R37, R79, R512): a failed berth is switched off and stays FAILED. -/
def execBerthGate (n : Nat) (s : State) : Out :=
  onUnit (decide (n < 16)) s fun e b =>
    if !b.decides then b
    else if b.bstate n = bsFailed then (if b.power.pdEn.testBit n then b.switchOff n else b)
    else if b.gateDue e n then b.gateBerth e n else b

/-! ### DROWSE and ANCHOR (R81, R512, R514) -/

/-- Nothing that keeps the block awake is under way (R512), and no unit is being reset. -/
def Block.quiet (b : Block) : Bool :=
  b.quay.cmds.isEmpty && b.manifest.lists.isEmpty && !b.storeBusy &&
  ((List.range 16).all fun n => !bsBusy (b.bstate n) && b.bstate n ≠ bsScrubbing && (b.berth n).resetting.isNone) &&
  ((List.range 8).all fun g => (b.core g).task.isNone && (b.core g).resetStep.isNone) &&
  (b.lighters.all fun x => x.2.cmds.isEmpty) &&
  (b.hold.chans.all fun x => x.2.waiting.isEmpty && x.2.sensing.isEmpty && x.2.ops.isEmpty)

/-- Start-up has ended (R455, R456). -/
def Block.started (b : Block) (e : Env) : Bool := b.harbour.stage = some 4 || (b.harbour.stage = some 3 && (b.factory || e.fuses.stage = 3))

/-- Gate what DROWSE leaves off (R79): berths, general cores, Lighter ports, Hold controller. -/
def Block.drowseOff (b : Block) (e : Env) : Block :=
  let b := (List.range 16).foldl (fun b n =>
    if !b.power.pdEn.testBit n then b
    else if (b.berth n).opened && b.bstate n ≠ bsFailed then b.gateBerth e n else b.switchOff n) b
  let b := (List.range 8).foldl (fun b g => (b.switchOff (domCore g)).modCore g fun k => { k with on := false, tlb := [] }) b
  let b := (List.range 16).foldl (fun b ch => if (b.chan ch).dredging.isEmpty then b else b.modChan ch fun c => { c with dredging := [] }) b
  (b.switchOff domLighter).switchOff domHold

/-- DROWSE_ENTRY (R81, R512, R514): dispatch stops and the merge buffers are flushed; with the store ended the domains go off. -/
def execDrowseEntry (s : State) : Out :=
  onBlk s fun e b =>
    let st := b.rd F.WK_STATE_STATE
    if !b.decides then b
    else if st = wkEntering then
      if !b.quiet then b
      else if (b.hold.stks.any fun x => x.2.owes) && b.mayStore then b.flushAll e
      else
        let b : Block := { (b.drowseOff e) with watch := { b.watch with drowseSince := e.now } }
        (b.wr F.WK_STATE_STATE 0 wkDrowse).raise 20
    else if b.asleep || st = wkExiting || b.rd F.WK_POLICY_DROWSE_ALLOW ≠ 1 || !b.started e || !b.quiet ||
        decide (e.now < b.watch.quietSince + b.rd F.WK_POLICY_DROWSE_IDLE_MS * 1000000) then b
    else
      let b : Block := { b with watch := { b.watch with drowseSince := e.now } }
      let b := (b.wr F.WK_STATE_STATE 0 wkEntering).raise 20
      b.flushAll e

/-- A wake event of R512 has occurred: a doorbell since the entry, a candidate, an enabled source of a core or of Watchkeeper, a manager command. -/
def Block.wakes (b : Block) (cause source : Nat) : Bool :=
  match cause with
  | 1 => decide (b.watch.drowseSince ≤ b.watch.quietSince)
  | 2 => b.quay.cmds.any fun (c, x) => b.candidate c x
  | 3 => decide (source < 1024) && b.rd F.BL_TARGET_ENABLE source = 1 && b.rd F.BL_TARGET_STATE source = 1 &&
      (b.rd F.BL_TARGET_TARGET source = 9 || (decide (b.rd F.BL_TARGET_TARGET source < 8) && !(b.core (b.rd F.BL_TARGET_TARGET source)).on))
  | 4 => b.hmUp
  | _ => false

/-- DROWSE_EXIT (R498, R512): the domains of what is in service are switched on, the cause is recorded; an entry under way ends. -/
def execDrowseExit (cause source : Nat) (s : State) : Out :=
  onBlk s fun _ b =>
    let st := b.rd F.WK_STATE_STATE
    if !b.decides || !b.wakes cause source || (st ≠ wkDrowse && st ≠ wkEntering) then b
    else
      let b := b.wr F.WK_STATE_WAKE_CAUSE 0 cause
      let b := if cause = 3 then b.wr F.WK_STATE_WAKE_SOURCE 0 source else b
      let b := if st = wkDrowse then b.bump F.WK_STATE_WAKES else b
      let b := if st = wkEntering then b
        else
          let b := ((List.range 16).filter fun n => b.rd F.BT_STATE_OWNED n = 1 && b.bstate n ≠ bsFailed).foldl (fun b n => b.switchOn n) b
          let b := ((List.range 8).filter fun g => !(b.core g).failed).foldl (fun b g => b.switchOn (domCore g)) b
          (b.switchOn domLighter).switchOn domHold
      (b.wr F.WK_STATE_STATE 0 wkExiting).settleWake

/-- ANCHOR_ENTRY (R79, R81, R512): every switchable domain goes off. -/
def execAnchorEntry (s : State) : Out :=
  onBlk s fun e b =>
    if !b.decides || b.rd F.WK_STATE_STATE ≠ wkDrowse || b.rd F.WK_POLICY_ANCHOR_ALLOW ≠ 1 || !b.quay.slices.isEmpty || b.storeBusy ||
        decide (e.now < b.watch.drowseSince + 1000000000) then b
    else
      let b := (List.range 34).foldl (fun b d => b.switchOff d) b
      { b with harbour := { b.harbour with down := true } }.wr F.WK_STATE_STATE 0 wkAnchor

/-- The wake from ANCHOR (R512): a warm reset, with its cause. -/
def State.anchorWake (s : State) (cause : Nat) : State :=
  let t := s.warm
  { t with blk := t.blk.wr F.WK_STATE_WAKE_CAUSE 0 cause }

/-- HOST_ACTIVITY (R69, R512): HOST_ACT rises, and wakes a block in ANCHOR. -/
def execHostActivity (s : State) : Out :=
  let s : State := { s with blk := { s.blk with watch := { s.blk.watch with hostAct := true } } }
  if s.blk.rd F.WK_STATE_STATE = wkAnchor && s.blk.decides then .next (s.anchorWake 5) else .next s

/-- PR_IDLE_DET_FALL (R390, R512): the lane relocks, the peer's direction runs again and the own one leaves idle; on an active lane a block in ANCHOR wakes. -/
def execPrIdleDetFall (l n : Nat) (s : State) : Out :=
  if 2 ≤ l ∨ 9 ≤ n then .fault .noSuchUnit
  else
    let b := s.blk
    let lane := (b.link l).lane n
    if !lane.idleDet then .next s
    else if b.rd F.WK_STATE_STATE = wkAnchor then
      if lane.active && b.decides then .next (s.anchorWake 6) else .next s
    else
      let b := b.modLane l n fun x => { x with idleDet := false, locked := true }
      let idle := (b.link l).txIdle
      let b := b.modLink l fun x => { x with peerIdle := false, txIdle := false, idleSent := false, chunkWaits := false }
      let b := if b.linkUp l then b.wr F.FE_LINK_STATE l lkUp else b
      .next { s with blk := if idle && b.linkUp l then b.leaveIdle s.env l else b }

/-! ### Power warning (R84, R370) -/

/-- POWER_WARNING (R84, R370): no store starts, and each stack with held writes programs its notice page. -/
def execPowerWarning (s : State) : Out :=
  onBlk s fun e b =>
    if b.hold.powerWarn then b
    else
      let b : Block := { b with hold := { b.hold with powerWarn := true } }
      (List.range 8).foldl (fun b h =>
        if (b.stack h).merge.isEmpty then b else b.programNotice e h) b

/-- A stack's notice page after a warning without supply loss (R370): a program not begun is withdrawn, a page programmed or torn is erased. -/
def Block.clearNotice (b : Block) (e : Env) (h : Nat) : Block :=
  let x := b.stack h
  let isNotice (o : HoldOp) : Bool := match o with | .notice _ => true | _ => false
  let b := [2 * h, 2 * h + 1].foldl (fun b ch => b.modChan ch fun c => { c with ops := c.ops.take 1 ++ (c.ops.drop 1).filter fun o => !isNotice o }) b
  if x.notice.isEmpty && !x.noticeTorn then b
  else (b.modStack h fun x => { x with notice := [], noticeTorn := false }).modChan (b.ownChan h) fun c => c.addOp e.now (.erase c.noticeUnit)

/-- POWER_WARNING_CLEAR (R84, R370): the notice pages are erased, held writes are flushed, a dump and the record of the epoch that waited start. -/
def execPowerWarningClear (s : State) : Out :=
  onBlk s fun e b =>
    if !b.hold.powerWarn then b
    else
      let b : Block := { b with hold := { b.hold with powerWarn := false } }
      let b := (List.range 8).foldl (fun b h => b.clearNotice e h) b
      ((b.flushAll e).startDump e).recordEpoch e

/-! ### The watchdog (R513) -/

/-- WDOG_KICK (R513): the write sets PERIOD_MS within its range; KICK restarts the period. -/
def execWdogKick (v : Word) (s : State) : Out :=
  onBlk s fun e b =>
    if !b.hmUp then b
    else
      let b := b.wr F.WK_WDOG_PERIOD_MS 0 (clampN 50 10000 (F.WK_WDOG_PERIOD_MS.of v))
      if F.WK_WDOG_KICK.of v = 1 then { b with watch := { b.watch with kicked := e.now, warned := false } } else b

/-- The watchdog runs (R513). -/
def Block.watching (b : Block) : Bool := b.decides && b.hmUp && !b.watch.wdogStopped

/-- WDOG_WARNING (R513). -/
def execWdogWarning (s : State) : Out :=
  onBlk s fun e b =>
    if !b.watching || b.watch.warned || decide (e.now < b.watch.kicked + b.rd F.WK_WDOG_PERIOD_MS * 500000) then b
    else { b with watch := { b.watch with warned := true } }.raise 21

/-- WDOG_EXPIRY (R477, R513): the Harbourmaster is reset alone. -/
def execWdogExpiry (s : State) : Out :=
  onBlk s fun e b =>
    if !b.watching || decide (e.now < b.watch.kicked + b.rd F.WK_WDOG_PERIOD_MS * 1000000) then b
    else
      let b := b.bump F.WK_WDOG_EXPIRED
      (b.event e { code := 0x100B, kind := ukHarbour, idx := 0, data := [b.rd F.WK_WDOG_EXPIRED] }).resetHm e

end Sys2Proof.Machine
end

