-- ==== Sys2Proof/Machine/Tally.lean ====
section
/-! DEFINITION. Tally: counters, sampling, bandwidth windows, engine time, pace and tenant views: the meanings of R440 and R515 to R528. -/

namespace Sys2Proof.Machine

open Sys2Proof

/-! ### Counters (R517 to R521) -/

/-- The units a berth event's SUB may name: two move engines for 0x007 and 0x008, none otherwise (R517). -/
def berthSubs (code : Nat) : Nat := if code = 0x007 ∨ code = 0x008 then 2 else 1

/-- How many values SUB takes for a block event; 0 where the table of R518 has no such event. -/
def blockSubs (code : Nat) : Nat :=
  match code with
  | 0x100 => 1 | 0x101 => 1 | 0x102 => 8 | 0x103 => 1 | 0x104 => 1 | 0x105 => 1 | 0x106 => 16
  | 0x107 => 16 | 0x108 => 16 | 0x109 => 1 | 0x10A => 2 | 0x10B => 28 | 0x10C => 8
  | _ => 0

/-- A berth event of R518's table. -/
def isBerthEvent (code : Nat) : Bool := decide (0x001 ≤ code ∧ code ≤ 0x00C)

/-- TALLY_SET accepts an event and SUB in a counter (R517, R518). -/
def TlCfgOk (c : TlCounter) (code sub : Nat) : Bool :=
  match c with
  | .berth _ _ => isBerthEvent code && decide (sub < berthSubs code)
  | .block _ =>
    if isBerthEvent code then decide (sub < 16 * berthSubs code) else decide (sub < blockSubs code)

/-- Index of a counter among its kind's registers (R528). -/
def counterIndex : TlCounter → Nat
  | .berth b i => 64 * b + i
  | .block i => i

/-- A counter's value register (R528). -/
def countReg : TlCounter → RegKind
  | .berth _ _ => .tlBcnt
  | .block _ => .tlGcnt

/-- The field of a counter's count. -/
def countFld : TlCounter → Fld
  | .berth _ _ => F.TL_BCNT_COUNT
  | .block _ => F.TL_GCNT_COUNT

/-- Whether a counter exists (R517). -/
def counterOk : TlCounter → Bool
  | .berth b i => decide (b < 16 ∧ i < 64)
  | .block i => decide (i < 256)

/-- A counter's configuration word from its fields, and back (R528). -/
def Block.setCounter (b : Block) (c : TlCounter) (x : TlCfg) : Block :=
  let i := counterIndex c
  match c with
  | .berth _ _ =>
    let b := (((b.wr F.TL_BCFG_ENABLE i x.enable.toNat).wr F.TL_BCFG_MODE i x.level.toNat).wr F.TL_BCFG_TENANT i x.tenant.toNat).wr
      F.TL_BCFG_SLICE_EN i x.sliceEn.toNat
    ((b.wr F.TL_BCFG_SLICE i x.slice).wr F.TL_BCFG_SUB i x.sub).wr F.TL_BCFG_EVENT i x.event
  | .block _ =>
    let b := (((b.wr F.TL_GCFG_ENABLE i x.enable.toNat).wr F.TL_GCFG_MODE i x.level.toNat).wr F.TL_GCFG_TENANT i x.tenant.toNat).wr
      F.TL_GCFG_SLICE_EN i x.sliceEn.toNat
    ((b.wr F.TL_GCFG_SLICE i x.slice).wr F.TL_GCFG_SUB i x.sub).wr F.TL_GCFG_EVENT i x.event

/-- COUNTER_CLEAR (R521): COUNT becomes the count of the events of the same cycle, 0 without one. -/
def execCounterClear (c : TlCounter) (evs : Nat) (s : State) : Out :=
  onUnit (counterOk c) s fun _ b => b.wr (countFld c) (counterIndex c) evs

/-- TALLY_SET (R518, R527): an event or SUB outside the tables is refused; COUNT stays as it is (R521). -/
def execTallySet (m : Mgr) (c : TlCounter) (cfg : TlCfg) (s : State) : Out :=
  onBlk s fun e b => b.manager e m 0x0601 fun b =>
    if !counterOk c || !TlCfgOk c cfg.event cfg.sub || decide (512 ≤ cfg.slice) then b.reply m 0x0601 rcBadArg
    else (b.setCounter c cfg).reply m 0x0601 rcDone

/-- TALLY_READ (R520, R527): value and time of each counter, in list order. -/
def execTallyRead (m : Mgr) (cs : List TlCounter) (s : State) : Out :=
  onBlk s fun e b => b.manager e m 0x0602 fun b =>
    if decide (256 < cs.length) || !cs.all counterOk then b.reply m 0x0602 rcBadArg
    else b.reply m 0x0602 rcDone (cs.flatMap fun c => [(b.reg (countReg c) (counterIndex c)).toNat, e.now])

/-! ### Sampling (R522) -/

/-- The 32 bytes of a sample record (R522). -/
def SampleRec.bytes (r : SampleRec) : List Byte :=
  leBytes 8 r.time ++ leBytes 4 r.addr ++ leBytes 1 r.opcode ++
  leBytes 1 (r.predicated.toNat + 2 * r.held.toNat + 4 * r.restored.toNat) ++ leBytes 2 (r.ctx % 4096) ++
  leBytes 4 r.stall ++ leBytes 4 r.latency ++ leBytes 4 (r.prog / 64 % 2 ^ 32) ++ leBytes 4 0

/-- Write a berth's sampling fields; setting ENABLE loads the countdown (R522). -/
def Block.setSampling (b : Block) (n period : Nat) (wrap enable : Bool) : Block :=
  let b := ((b.wr F.TL_SAMP_PERIOD n period).wr F.TL_SAMP_WRAP n wrap.toNat).wr F.TL_SAMP_ENABLE n enable.toNat
  if enable then b.modBerth n fun x => { x with countdown := period } else b

/-- SAMPLE_SET (R527): a PERIOD outside 1 to 1,048,575 is clamped, and the reply then gives it. -/
def execSampleSet (m : Mgr) (mask period : Nat) (wrap enable : Bool) (s : State) : Out :=
  onBlk s fun e b => b.manager e m 0x0603 fun b =>
    if 65536 ≤ mask then b.reply m 0x0603 rcBadArg
    else
      let p := clampN 1 1048575 period
      let b := (bitsOf 16 mask).foldl (fun b n => b.setSampling n p wrap enable) b
      if p = period then b.reply m 0x0603 rcDone else b.reply m 0x0603 rcClamped [p]

/-- SAMPLE_READ (R527): the records, oldest first, as far as the length holds them; the buffer is then empty. -/
def execSampleRead (m : Mgr) (n addr len : Nat) (s : State) : Out :=
  onBlk s fun e b => b.manager e m 0x0604 fun b =>
    if 16 ≤ n ∨ len < 32 then b.reply m 0x0604 rcBadArg
    else
      let l := (b.berth n).samples.take (len / 32)
      let b := if l.isEmpty then b else b.send (.untranslated addr (l.flatMap SampleRec.bytes))
      (b.modBerth n fun x => { x with samples := [] }).reply m 0x0604 rcDone [l.length]

/-! ### Bandwidth windows (R523) -/

/-- TL_BWCTL takes its fields, WINDOW_US clamped; every window restarts, LAST and PEAK are cleared (R523). -/
def Block.setWindows (b : Block) (e : Env) (us : Nat) (partEn : Bool) (part : Nat) : Block :=
  let b := ((b.wr F.TL_BWCTL_WINDOW_US 0 (clampN 1 10000 us)).wr F.TL_BWCTL_PART_EN 0 partEn.toNat).wr F.TL_BWCTL_PART 0 part
  let b := (List.range 28).foldl (fun b x => b.setReg .tlBwin x 0) b
  { b with tally := { b.tally with window := [], since := e.now } }

/-- TL_BWCTL_WRITE (R523, R528). -/
def execTlBwctlWrite (v : Word) (s : State) : Out :=
  onBlk s fun e b => b.setWindows e (F.TL_BWCTL_WINDOW_US.of v) (decide (F.TL_BWCTL_PART_EN.of v = 1)) (F.TL_BWCTL_PART.of v)

/-- WINDOW_SET (R527). -/
def execWindowSet (m : Mgr) (windowUs : Nat) (partEn : Bool) (part : Nat) (s : State) : Out :=
  onBlk s fun e b => b.manager e m 0x0605 fun b =>
    let us := clampN 1 10000 windowUs
    let p := min 15 part
    let b := b.setWindows e us partEn p
    if us = windowUs ∧ p = part then b.reply m 0x0605 rcDone else b.reply m 0x0605 rcClamped [us, partEn.toNat, p]

/-- BANDWIDTH_WINDOW_END (R523): LAST takes the window's count in 64-byte units, PEAK the largest LAST; the next window begins where this one ended. -/
def execBandwidthWindowEnd (s : State) : Out :=
  onBlk s fun e b =>
    let w := 1000 * b.rd F.TL_BWCTL_WINDOW_US
    whenB (decide (b.tally.since + w ≤ e.now)) (fun b =>
      let b := (List.range 28).foldl (fun b x =>
        let k := tgetD b.tally.window x 0 / 64
        (b.wr F.TL_BWIN_LAST x k).raiseMax F.TL_BWIN_PEAK x k) b
      { b with tally := { b.tally with window := [], since := b.tally.since + w } }) b

/-! ### Engine time and pace (R524, R525) -/

/-- Berth-nanoseconds charged to a slice, those of running streams among them (R339, R524). -/
def Block.berthTime (b : Block) (e : Env) (sl : Nat) : Nat :=
  b.berths.foldl (fun t (_, x) => match x.stream with
    | some s => (b.chargeTo s.job).foldl (fun t (s', k, of_) =>
        if s' = sl then t + (e.now - x.busySince) * k / max 1 of_ else t) t
    | none => t) (tgetD b.tally.berthNs sl 0)

/-- Core-nanoseconds charged to a slice, those of running tasks among them (R341, R524). -/
def Block.coreTime (b : Block) (e : Env) (sl : Nat) : Nat :=
  b.cores.foldl (fun t (_, k) => match k.task.bind fun c => tget b.quay.cmds c with
    | some x => if x.slice = sl then t + (e.now - k.since) else t
    | none => t) (tgetD b.tally.coreNs sl 0)

/-- PACE_READ (R413, R525): TL_PACE_p of every partition, and the lateness of the peers named; reading clears the largest values. -/
def execPaceRead (m : Mgr) (blocks : List Nat) (s : State) : Out :=
  onBlk s fun e b => b.manager e m 0x0607 fun b =>
    if decide (64 < blocks.length) || !blocks.all (fun x => decide (x < 512)) then b.reply m 0x0607 rcBadArg
    else
      let ps := (List.range 16).map fun p => (b.reg .tlPace p).toNat
      let (ls, late) := blocks.foldl (fun (ls, late) x =>
        let (mx, last) := tgetD late x (0, 0)
        (ls ++ [mx * 2 ^ 32 + last], tmod late x fun y => (0, y.2))) (([] : List Nat), b.fabric.late)
      let b := (List.range 16).foldl (fun b p => b.wr F.TL_PACE_MAX_US p 0) b
      { b with fabric := { b.fabric with late := late } }.reply m 0x0607 rcDone (ps ++ ls)

/-! ### Tenant views (R440, R526) -/

/-- Rounded down to a multiple of 4,096 (R440). -/
def coarse (n : Nat) : Nat := n / 4096 * 4096

/-- The counters a slice's view shows, in register-address order (R526). -/
def Block.viewCounts (b : Block) (sl : Nat) : List Nat :=
  let bs := (b.listed .tlBcfg).filter fun i =>
    b.rd F.TL_BCFG_TENANT i = 1 && b.rd F.TL_BCFG_SLICE_EN i = 1 && b.rd F.TL_BCFG_SLICE i = sl
  let gs := (b.listed .tlGcfg).filter fun i =>
    b.rd F.TL_GCFG_TENANT i = 1 && b.rd F.TL_GCFG_SLICE_EN i = 1 && b.rd F.TL_GCFG_SLICE i = sl
  ((bs.map fun i => coarse (b.rd F.TL_BCNT_COUNT i)) ++ gs.map fun i => coarse (b.rd F.TL_GCNT_COUNT i)).take 504

/-- What a slice's view shows of the present 1 ms boundary; Watchkeeper's power estimate is a free value (log 5). -/
def Block.viewOf (b : Block) (e : Env) (sl : Nat) : ViewSnap × Block :=
  let (d, b) := b.draw
  (⟨e.now, coarse (b.berthTime e sl / 1000 % 2 ^ 48), coarse (b.coreTime e sl / 1000 % 2 ^ 48), 5 * (Config.freeNat d % 13108), b.viewCounts sl⟩, b)

/-- Events whose occurrences no command tells: cycles in which a unit of a berth is busy or held, and misses of the MAC cache (R518). -/
def cycleEvents : List Nat := [0x002, 0x003, 0x004, 0x005, 0x006, 0x00A, 0x10C]

/-- What the cycles of 10 ns may add to a counter (R517, R518): level mode goes by cycles, but for the two counts of units moved, which a command tells. -/
def cycleCounts (mode code : Nat) : Bool := cycleEvents.contains code || (mode = 1 && code ≠ 0x007 && code ≠ 0x008)

/-- Whether a berth event may hold: one of a stream only while a stream runs there; the stream's slice must pass the filter (R519). -/
def Block.mayHold (b : Block) (n code en sl : Nat) : Bool :=
  let who := (b.berth n).stream.map (·.slice)
  (who.isSome || code = 0x009 || code = 0x00C) && sliceHits en sl who

/-- The counters of cycles run on for 10 ns of an empty queue (R517 to R519): how many cycles an event held is a free value below 256 (log 33). Block events without a slice tag pass no filter. -/
def Block.cycleTally (b : Block) : Block :=
  let bs := (b.listed .tlBcfg).filter fun i =>
    b.rd F.TL_BCFG_ENABLE i = 1 && cycleCounts (b.rd F.TL_BCFG_MODE i) (b.rd F.TL_BCFG_EVENT i) &&
    b.mayHold (i / 64) (b.rd F.TL_BCFG_EVENT i) (b.rd F.TL_BCFG_SLICE_EN i) (b.rd F.TL_BCFG_SLICE i)
  let gs := (b.listed .tlGcfg).filter fun i =>
    let ev := b.rd F.TL_GCFG_EVENT i
    b.rd F.TL_GCFG_ENABLE i = 1 && cycleCounts (b.rd F.TL_GCFG_MODE i) ev &&
    (if ev < 0x100 then b.mayHold (b.rd F.TL_GCFG_SUB i % 16) ev (b.rd F.TL_GCFG_SLICE_EN i) (b.rd F.TL_GCFG_SLICE i)
     else b.rd F.TL_GCFG_SLICE_EN i = 0 || (ev ≠ 0x106 && ev ≠ 0x10A && ev ≠ 0x10B))
  let add (cnt ovf : Fld) (b : Block) (i : Nat) : Block :=
    let (d, b) := b.draw
    b.countIn cnt ovf i (Config.freeNat d % 256)
  gs.foldl (add F.TL_GCNT_COUNT F.TL_GCNT_OVF) (bs.foldl (add F.TL_BCNT_COUNT F.TL_BCNT_OVF) b)

/-- At a 1 ms boundary the views' values are taken (R440). -/
def Block.snapViews (b : Block) (e : Env) : Block :=
  b.quay.slices.foldl (fun b (sl, x) =>
    if x.view.isSome then
      let (v, b) := b.viewOf e sl
      { b with tally := { b.tally with snaps := tput b.tally.snaps sl v } }
    else b) { b with tally := { b.tally with snaps := [] } }

/-- The fields of the page from offset 8 on (R526). -/
def ViewSnap.bytes (v : ViewSnap) : List Byte :=
  leBytes 8 v.time ++ leBytes 8 v.berthUs ++ leBytes 8 v.coreUs ++ leBytes 2 v.powerW ++ leBytes 2 v.counts.length ++
  List.replicate 28 0 ++ v.counts.flatMap fun n => leBytes 8 n

/-- Where a view's page stands: its run, while the stamp is fresh (R526). -/
def Block.viewPlace (b : Block) (h : Nat) : Option RunView :=
  (b.runAt h 0).bind fun r => if r.stale then none else some r

/-- VIEW_UPDATE (R526): within 100 µs of the boundary, SEQ odd, the fields, SEQ even; a page whose stamp is stale waits for its re-stamp. -/
def execViewUpdate (sl : Nat) (s : State) : Out :=
  onUnit (decide (sl < 512)) s fun e b =>
    match (tget b.quay.slices sl).bind (·.view), tget b.tally.snaps sl with
    | some (va, h, seq), some v =>
      match b.viewPlace h with
      | none => b
      | some r => whenB (decide (e.now ≤ v.time + 100000)) (fun b =>
          let put (b : Block) (o : Nat) (d : List Byte) : Block :=
            b.postWrite e sl r.ctx (r.phys + o) r.cls (va + o) d (.write (r.phys + o) sl d)
          let b := put (put (put b 0 (leBytes 8 (seq + 1))) 8 v.bytes) 0 (leBytes 8 (seq + 2))
          let b := { b with tally := { b.tally with snaps := tdel b.tally.snaps sl } }
          b.modSlice sl fun x => { x with view := some (va, h, (seq + 2) % 2 ^ 64) }) b
    | _, _ => b

/-- A slice's view stops: its stamp is freed (R526). -/
def Block.stopView (b : Block) (sl : Nat) : Block :=
  match (tget b.quay.slices sl).bind (·.view) with
  | none => b
  | some (_, h, _) =>
    let b := (b.freeStamp h).modSlice sl fun x => { x with view := none }
    { b with tally := { b.tally with snaps := tdel b.tally.snaps sl } }

/-- VIEW_SET (R526, R527): the page is stamped under the slice's tags; address 0 stops the view. -/
def execViewSet (m : Mgr) (sl va : Nat) (s : State) : Out :=
  onBlk s fun e b => b.manager e m 0x0606 fun b =>
    if !b.sliceExists sl || decide (va % 4096 ≠ 0) then b.reply m 0x0606 rcBadArg
    else
      let b := b.stopView sl
      if va = 0 then b.reply m 0x0606 rcDone
      else (b.startMgr e m 0x0606 [16 + sl] va).newTask e (StampTask.new sl (b.baseCtxOf sl) (.view m sl va) [⟨va, 4096, false, true, false, 0⟩])

end Sys2Proof.Machine
end

