-- ==== Sys2Proof/Machine/Control.lean ====
section
/-! DEFINITION. Accesses to the block's registers from inside and from the host: the control space (R8, R12 to R15, R500, R501), BAR0 (R18, R19), BAR2 (R21, R319), the MSI-X table (R286), completions of host reads (R52). -/

namespace Sys2Proof.Machine

open Sys2Proof

/-! ### Values that registers compute when read -/

/-- 1 for true. -/
def bit (c : Bool) : Nat := c.toNat

/-- Set several fields of a word. -/
def putFields (v : Word) (l : List (Fld × Nat)) : Word := l.foldl (fun v x => x.1.into v x.2) v

/-- The bundle in the slot not booted fails R421; an empty slot does (log 7). -/
def Block.otherBad (b : Block) (e : Env) : Bool :=
  match b.harbour.booted with
  | none => true
  | some s => match b.harbour.bundle !s with
    | some x => !x.accepted e.fuses || !x.hmDigestOk
    | none => true

/-- A running SVN exceeds its counter (R423). -/
def Block.rollbackPending (b : Block) (e : Env) : Bool :=
  decide (e.fuses.svnHm < b.harbour.svnHm) || (b.harbour.coreFw && decide (e.fuses.svnCore < b.runCore)) ||
  (b.harbour.ucode && decide (e.fuses.svnUcode < b.runUcode))

/-- CU_SEC (R446). -/
def Block.secFields (b : Block) (e : Env) : List (Fld × Nat) :=
  [(F.CU_SEC_SVN_UCODE, e.fuses.svnUcode), (F.CU_SEC_SVN_CORE, e.fuses.svnCore), (F.CU_SEC_SVN_HM, e.fuses.svnHm),
   (F.CU_SEC_ROLLBACK_PENDING, bit (b.rollbackPending e)), (F.CU_SEC_OTHER_BAD, bit (b.otherBad e)),
   (F.CU_SEC_SLOT, bit (b.harbour.booted.getD false)), (F.CU_SEC_LEASE, bit (b.leaseNow e).isSome),
   (F.CU_SEC_DEBUG, bit (b.debugOn e)), (F.CU_SEC_LIFECYCLE, e.fuses.stage)]

/-- The berth is idle and holds the first line of the program about to be dispatched (R124, R151). -/
def Block.isWarm (b : Block) (e : Env) (n : Nat) : Bool :=
  b.bstate n = bsIdle && match b.chosen e (b.rd F.BT_STATE_PARTITION n) with
    | some (_, x) => b.warmFor n x
    | none => false

/-- Sequences of a partition. -/
def Block.seqsOf (b : Block) (p : Nat) : List SeqEntry := (b.manifest.seqs.filter fun x => b.slicePart x.2.slice = p).map (·.2)

/-- Fields of a register that the block computes from what else it holds. -/
def Block.computed (b : Block) (e : Env) (k : RegKind) (i : Nat) : List (Fld × Nat) :=
  match k with
  | .glbId => [(F.GLB_ID_BUILD, e.ties.build)]
  | .glbConfig => [(F.GLB_CONFIG_MEM_MASK, e.ties.memMask), (F.GLB_CONFIG_HOLD_MASK, e.ties.holdMask), (F.GLB_CONFIG_LIGHTER_MASK, e.ties.lighterMask)]
  | .qyFenceStat => [(F.QY_FENCE_STAT_FREE, 65536 - b.quay.fences.length)]
  | .qyCmdStat => [(F.QY_CMD_STAT_INFLIGHT, b.inflightAll)]
  | .plStat => [(F.PL_STAT_STAMP_FREE, 262144 - b.pilot.stamps.length), (F.PL_STAT_STREAMS_BUSY, b.pilot.streams.length + b.cores.countP fun x => x.2.miss.isSome), (F.PL_STAT_CACHE_VALID, b.pilot.cache.length)]
  | .plInvStat => [(F.PL_INV_STAT_QUEUED, b.pilot.invals.length - 1)]
  | .plSquota => [(F.PL_SQUOTA_USED, b.stampsUsed i)]
  | .mfPstat => [(F.MF_PSTAT_ACTIVE, (b.seqsOf i).length), (F.MF_PSTAT_PARKED, (b.seqsOf i).countP fun s => s.phase = 4),
      (F.MF_PSTAT_LISTS, b.manifest.lists.countP fun l => l.2.partition = i)]
  | .mfSquota => [(F.MF_SQUOTA_ARMED, bit (thas b.manifest.armed i)), (F.MF_SQUOTA_USED, b.manifest.seqs.countP fun s => s.2.slice = i)]
  | .feId => [(F.FE_ID_EPOCH, e.epoch)]
  | .fyStat => [(F.FY_STAT_SLOTS_SET, b.fabric.groups.foldl (fun n g => n + g.2.r.slots) 0)]
  | .fyLate =>
    let l := tgetD b.fabric.late (b.rd F.FY_LATE_SEL_PEER) (0, 0)
    [(F.FY_LATE_MAX_US, min l.1 F.FY_LATE_MAX_US.max), (F.FY_LATE_LAST_US, min l.2 F.FY_LATE_LAST_US.max)]
  | .cuSec => b.secFields e
  | .cuStat => [(F.CU_STAT_KEYS, (List.range 512).countP fun s => b.rd F.CU_KEY_VALID s = 1)]
  | .bwMode => [(F.BW_MODE_PARTITIONS, (List.range 16).countP fun p => b.partExists p)]
  | .bwSave => [(F.BW_SAVE_FREE, (b.freeSlots e).length)]
  | .bwPart => [(F.BW_PART_SLICES, b.quay.slices.countP fun s => b.slicePart s.1 = i)]
  | .bwSlice => [(F.BW_SLICE_SAVED, b.slots.countP fun x => x.2.stream.slice = i)]
  | .bwPort => [(F.BW_PORT_COMMITTED, (List.range 16).foldl (fun n p =>
      if b.partExists p then n + b.rd F.BW_RATE_RATE (32 * p + i) + b.rd F.BW_RATE_OTHER (32 * p + i) else n) 0)]
  | .tlSamp => [(F.TL_SAMP_FILL, (b.berth i).samples.length)]
  | .tlSlice => [(F.TL_SLICE_BERTH_US, b.berthTime e i / 1000)]
  | .tlScore => [(F.TL_SCORE_BERTH_US, b.coreTime e i / 1000)]
  | .lbAlarm => [(F.LB_ALARM_SOURCES, b.log.alarms.length), (F.LB_ALARM_UNACKED, b.log.alarms.countP fun a => a.unacked ≠ 0)]
  | .lbDump => [(F.LB_DUMP_QUEUED, b.hold.dumpQueue.length)]
  | .wkState =>
    if b.rd F.WK_STATE_STATE = wkActive ∧ (List.range 16).any fun n => b.bstate n = bsGated then [(F.WK_STATE_STATE, wkGated)] else []
  | .wkNs => [(F.WK_NS_NS, e.now)]
  | .btState => [(F.BT_STATE_WARM, bit (b.isWarm e i))]
  | .btEccStatus =>
    let used := (b.remaps i).length
    [(F.BT_ECC_STATUS_REMAP_USED, used), (F.BT_ECC_STATUS_REMAP_FULL, bit (used = 16))]
  | _ => []

/-- A register as it reads (R8): computed fields filled in, write-only fields 0. -/
def Block.readWord (b : Block) (e : Env) (k : RegKind) (i : Nat) : Word :=
  putFields (b.reg k i) (b.computed e k i) &&& ~~~k.woMask

/-! ### What a write sets -/

/-- Values outside a field's stated range that a write adjusts (the register tables). -/
def clampWrite (k : RegKind) (v : Word) : Word :=
  let c (f : Fld) (lo hi : Nat) (v : Word) : Word := f.into v (clampN lo hi (f.of v))
  let z (f : Fld) (v : Word) : Word := if f.of v = 0 then f.into v 1 else v
  match k with
  | .btCtl => c F.BT_CTL_HORIZON 0 100 v
  | .plCtl => c F.PL_CTL_PREFETCH 1 16 (c F.PL_CTL_PRI_TIMEOUT 1 10000 v)
  | .bwSched => c F.BW_SCHED_QUANTUM 100 65000 v
  | .hdCtl => z F.HD_CTL_LAP_MAX_D (z F.HD_CTL_WEAR_GAP (c F.HD_CTL_MERGE_AGE 1 100 v))
  | .hdStack => z F.HD_STACK_RELOC (c F.HD_STACK_STRENGTH 4 64 v)
  | .feCtl => c F.FE_CTL_REMOTE_TO 10 100000 v
  | .fyCtl => z F.FY_CTL_COLL_TO v
  | .lbCtl => z F.LB_CTL_EV_RATE (c F.LB_CTL_NOTIFY_MS 1 10000 (c F.LB_CTL_TR_RATE 1 25000000 v))
  | .mbCfg => c F.MB_CFG_TIMEOUT_US 10 100000 v
  | .tlSamp => z F.TL_SAMP_PERIOD v
  | .wkCtl =>
    let crit := clampN 80 114 (F.WK_CTL_T_CRIT.of v)
    let thr := clampN 60 crit (F.WK_CTL_T_THROTTLE.of v)
    let rel := min (thr - 1) (F.WK_CTL_T_RELEASE.of v)
    c F.WK_CTL_V_MARGIN 5 100 (c F.WK_CTL_POWER_CAP_W 50 250
      (putFields v [(F.WK_CTL_T_CRIT, crit), (F.WK_CTL_T_THROTTLE, thr), (F.WK_CTL_T_RELEASE, rel)]))
  | .wkPolicy => z F.WK_POLICY_BERTH_GATE_MS (z F.WK_POLICY_DROWSE_IDLE_MS v)
  | _ => v

/-- A stored word after a write under the access codes (R8): RW fields take the value, RW1C and RW1S bits clear or set, the rest stays. -/
def RegKind.written (k : RegKind) (old v : Word) : Word :=
  (((old &&& ~~~k.rwMask) ||| (clampWrite k v &&& k.rwMask)) &&& ~~~(v &&& k.w1cMask)) ||| (v &&& k.w1sMask)

/-- Store a written register. -/
def Block.storeReg (b : Block) (k : RegKind) (i : Nat) (v : Word) : Block := b.setReg k i (k.written (b.reg k i) v)

/-- BT_REMAP_i takes an entry (R157): a line newly mapped has open contents in its spare storage until it is written (log 28). -/
def Block.writeRemap (b : Block) (i : Nat) (v : Word) : Block :=
  let old := (b.rd F.BT_REMAP_VALID i, b.rd F.BT_REMAP_LINE i)
  let b := b.storeReg .btRemap i v
  if b.rd F.BT_REMAP_VALID i = 1 ∧ (b.rd F.BT_REMAP_VALID i, b.rd F.BT_REMAP_LINE i) ≠ old then
    let (d, b) := b.draw
    let bytes := (List.range 64).map fun j => BitVec.ofNat 8 ((Config.freeWord (d + j)).toNat % 256)
    let b : Block := { b with ports := { b.ports with draws := b.ports.draws + 64 } }
    b.modBerth (i / 16) fun x => { x with spare := tput x.spare (i % 16) bytes }
  else b

/-- BW_RATE takes new rates (R334): tokens held are kept up to the new depth. -/
def Block.writeRate (b : Block) (e : Env) (i : Nat) (v : Word) : Block :=
  let old := b.bucket e (i / 32) (i % 32)
  let b := b.storeReg .bwRate i v
  let d := b.rd F.BW_RATE_BURST i * 1000
  b.setBucket (i / 32) (i % 32) ⟨min old.rate (b.rd F.BW_RATE_RATE i * d), min old.other (b.rd F.BW_RATE_OTHER i * d), e.now⟩

/-- A counter's configuration register (R521): CLEAR makes COUNT 0. -/
def Block.writeCounter (b : Block) (k : RegKind) (clear count : Fld) (i : Nat) (v : Word) : Block :=
  let b := b.storeReg k i v
  if clear.of v = 1 then b.wr count i 0 else b

/-- A write of a register with an effect beyond its fields, or of any other (R8 and the registers' descriptions). -/
def Block.writeReg (b : Block) (e : Env) (k : RegKind) (i : Nat) (v : Word) : Block :=
  match k with
  | .btCtl => (b.storeReg k i v).setDrain e i (F.BT_CTL_DRAIN.of v = 1)
  | .btArrayHealth =>
    let fresh := (bitsOf 9 v.toNat).filter fun a => !(b.rd F.BT_ARRAY_HEALTH_FAILED i).testBit a
    let b := b.setReg k i (b.reg k i &&& ~~~(v &&& k.w1cMask))
    fresh.foldl (fun b a => b.failArray e i a) b
  | .btRemap => b.writeRemap i v
  | .bwRate => b.writeRate e i v
  | .bwSched =>
    let old := b.rd F.BW_SCHED_QUANTUM i
    let b := b.storeReg k i v
    if b.rd F.BW_SCHED_QUANTUM i = old then b else { b with quantumFrom := tput b.quantumFrom i e.now }
  | .tlBcfg => b.writeCounter k F.TL_BCFG_CLEAR F.TL_BCNT_COUNT i v
  | .tlGcfg => b.writeCounter k F.TL_GCFG_CLEAR F.TL_GCNT_COUNT i v
  | .tlSamp =>
    let b := b.storeReg k i v
    if b.rd F.TL_SAMP_ENABLE i = 1 then b.modBerth i fun x => { x with countdown := b.rd F.TL_SAMP_PERIOD i } else b
  | .qySquota | .plSquota | .mfPctl | .mfSquota => b -- these change by manager commands only (R264, R302, R327)
  | _ => b.storeReg k i v

/-! ### Who may access what (R14, R500, R501) -/

/-- The end of a channel that an agent of the control space is: A true, B false (R501). -/
def Block.insideEnd (b : Block) (who : Agent) (ch : Nat) : Option Bool :=
  match who with
  | .harbourmaster => if ch = 0 then some false else if ch = 1 then some true else if ch = 2 ∧ b.harbour.recovering then some false else none
  | .core g =>
    if ch = 0 ∨ b.boxCore ch ≠ g ∨ (ch = 2 ∧ b.harbour.recovering) then none
    else if ch = 1 then some false
    else if b.rd F.MB_CFG_DIR ch = 0 then some false else some true
  | .host => none

/-- The end of a channel that the host is, the manager on S0 (R501). -/
def Block.hostEnd (b : Block) (ch : Nat) : Option Bool :=
  if ch = 1 then none else if b.hostIsA ch then some true else some false

/-- A register of a channel window. -/
def RegKind.isBox : RegKind → Bool
  | .mbPost | .mbState | .mbAck | .mbTake | .mbReply | .mbCfg | .mbStat | .mbNotify => true
  | _ => false

/-- A register of a Bell bank. -/
def RegKind.isBank : RegKind → Bool
  | .blClaim | .blComplete | .blMask | .blFclaim | .blFcomplete | .blFmask => true
  | _ => false

/-- An access of an agent to a register is granted (R14, R500). -/
def Block.granted (b : Block) (who : Agent) (k : RegKind) (i : Nat) (write : Bool) : Bool :=
  match who with
  | .harbourmaster => true
  | .core g =>
    if k.isBank then i = g else if k.isBox then (b.insideEnd who i).isSome
    else if write then k = .blRaise else k.coreReads
  | .host => false

/-- A write to a channel's registers by an end (R501, R502); `end_` is none for a party that is neither. Only MB_CFG is the Harbourmaster's. -/
def Block.writeBox (b : Block) (k : RegKind) (ch : Nat) (end_ : Option Bool) (v : Word) : Block :=
  let wrong := b.bump F.MB_STAT_WRONG_END ch
  match k with
  | .mbState => if end_ = some true then b.storeReg k ch v else wrong
  | .mbNotify => if ch = 0 ∧ end_ = some true then b.storeReg k ch v else wrong
  | .mbAck | .mbStat => b
  | _ => wrong

/-- A write of 8 bytes of a channel's buffer (R502): the end that owns it. -/
def Block.writeBuf (b : Block) (ch off : Nat) (end_ : Option Bool) (d : List Byte) : Block :=
  let st := b.rd F.MB_STATE_STATE ch
  let owner := if st = 0 ∨ st = 3 then some true else if st = 2 then some false else none
  if end_.isNone || end_ ≠ owner then b.bump F.MB_STAT_WRONG_END ch
  else
    let x := tgetD b.boxes ch Mailbox.reset
    let buf := x.buf ++ List.replicate (boxBytes ch - x.buf.length) 0
    { b with boxes := tput b.boxes ch { x with buf := buf.take off ++ d ++ buf.drop (off + d.length) } }

/-- Eight bytes of a channel's buffer. -/
def Block.bufWord (b : Block) (ch off : Nat) : Word := BitVec.ofNat 64 (b.boxField ch off 8)

/-- The channel and buffer offset at a control-space address. -/
def boxAt (a : Nat) : Option (Nat × Nat) :=
  let ch := (a - 0x980000) / 0x1000
  let off := (a - 0x980000) % 0x1000
  if 0x980000 ≤ a ∧ ch < 8 ∧ 0x40 ≤ off ∧ off < 0x40 + boxBytes ch then some (ch, off - 0x40) else none

/-- The channel and window offset at a BAR0 offset: N0 to N5, then S0 (R18, R501). -/
def barBox (a : Nat) : Option (Nat × Nat) :=
  if 0x1000 ≤ a ∧ a < 0x1C00 then some ((a - 0x1000) / 0x200 + 2, a % 0x200)
  else if 0x2000 ≤ a ∧ a < 0x3000 then some (0, a - 0x2000)
  else none

/-- The notice ring (R507). -/
def inNotices (a : Nat) : Bool := decide (0x980800 ≤ a ∧ a < 0x981000)

/-- The doorbell slot at a control-space address: page and queue index (R13, R20). -/
def doorAt (a : Nat) : Option (Nat × Nat) :=
  if 0x200000 ≤ a ∧ a < 0x400000 then some ((a - 0x200000) / 0x1000, a % 0x1000 / 16) else none

/-- The berth and offset of a store aperture (R151). -/
def apertureAt (a : Nat) : Option (Nat × Nat) :=
  if 0x1000000 ≤ a ∧ a < 0x2000000 ∧ 0x80000 ≤ a % 0x100000 then some ((a - 0x1000000) / 0x100000, a % 0x100000) else none

/-! ### MSI-X (R53, R286) -/

/-- A host write to the MSI-X table: address low and high, data, vector control; clearing the mask delivers a pending vector. -/
def Block.msixWrite (b : Block) (off v : Nat) : Block :=
  if 32768 ≤ off ∨ off % 4 ≠ 0 then b
  else
    let n := off / 16
    let x := b.msixEntry n
    let put (x : MsixEntry) (b : Block) : Block := { b with host := { b.host with msix := tput b.host.msix n x } }
    match off % 16 / 4 with
    | 0 => put { x with addr := x.addr / 2 ^ 32 * 2 ^ 32 + v % 2 ^ 32 } b
    | 1 => put { x with addr := v % 2 ^ 32 * 2 ^ 32 + x.addr % 2 ^ 32 } b
    | 2 => put { x with data := v % 2 ^ 32 } b
    | _ =>
      let masked := v % 2 = 1
      if x.pending && !masked && b.host.msixEnable && !b.host.msixMask then
        (put { x with masked := false, pending := false } b).send (.msix n x.addr x.data)
      else put { x with masked := masked } b

/-- MSIX_TABLE_WRITE (R53, R286). -/
def execMsixTableWrite (off : Nat) (v : BitVec 32) (s : State) : Out := onHost s fun _ b => b.msixWrite off v.toNat

/-- Four bytes of the MSI-X table. -/
def Block.msixWord (b : Block) (off : Nat) : Nat :=
  let x := b.msixEntry (off / 16)
  match off % 16 / 4 with
  | 0 => x.addr % 2 ^ 32
  | 1 => x.addr / 2 ^ 32 % 2 ^ 32
  | 2 => x.data % 2 ^ 32
  | _ => bit x.masked

/-- Eight bytes of the pending-bit array. -/
def Block.pendingWord (b : Block) (off : Nat) : Nat :=
  maskOf ((List.range 64).filter fun j => (b.msixEntry (off * 8 + j)).pending)

/-- A 32-bit read of the MSI-X table or of the pending-bit array (R18, R53); 0 elsewhere. -/
def Block.msixRead32 (b : Block) (off : Nat) : Word :=
  BitVec.ofNat 64 <|
    if 0x4000 ≤ off ∧ off < 0xC000 then b.msixWord (off - 0x4000)
    else if 0xC000 ≤ off ∧ off < 0xC100 then b.pendingWord ((off - 0xC000) / 8 * 8) / 2 ^ (off % 8 * 8) % 2 ^ 32
    else 0

/-! ### Reads -/

/-- A read of a register (R8): its value is returned, its RC fields are cleared to their reset value and keep what events of the same cycle give: (lowest bit, count). -/
def Block.readReg (b : Block) (e : Env) (k : RegKind) (i : Nat) (evs : List (Nat × Nat)) : Block :=
  let v := b.readWord e k i
  let cleared := (b.reg k i &&& ~~~k.rcMask) ||| (k.resetWord &&& k.rcMask)
  let kept := evs.foldl (fun w x =>
    match k.rcFields.find? fun f => f.1 = x.1 with
    | some (lo, n) => let f : Fld := ⟨k, lo, n⟩; f.into w (min f.max (if x.2 = 0 then f.of w else if f.of k.resetWord = 0 then f.of w + x.2 else x.2))
    | none => w) cleared
  let b := if k.rcMask = 0 then b else b.setReg k i kept
  let b : Block := match k with
    | .fyLate =>
      let mx := ((evs.filter fun x => x.1 = 32).map (·.2)).foldl max 0
      { b with fabric := { b.fabric with late := tmod b.fabric.late (b.rd F.FY_LATE_SEL_PEER) fun y => (mx, y.2) } }
    | _ => b
  { b with readData := v }

/-- A read of the host in BAR0 (R18, R19): identity page, channel windows, MSI-X table and pending bits; the rest reads 0. A notice slot holds a secured message (log 5). -/
def Block.barRead (b : Block) (e : Env) (off : Nat) (evs : List (Nat × Nat)) : Block :=
  let give (b : Block) (n : Nat) : Block := { b with readData := BitVec.ofNat 64 n }
  if off = 0 then give b (b.readWord e .glbId 0).toNat
  else if off = 8 then give b (b.readWord e .glbService 0).toNat
  else if off = 16 then give b (b.readWord e .glbConfig 0).toNat
  else match barBox off with
    | some (ch, o) =>
      if 0x800 ≤ o then let (d, b) := b.draw; { b with readData := Config.freeWord d }
      else if 0x40 ≤ o then { b with readData := b.bufWord ch (o - 0x40) }
      else match regAt (0x980000 + 0x1000 * ch + o) with
        | some (k, i) => b.readReg e k i evs
        | none => give b 0
    | none =>
      if 0x4000 ≤ off ∧ off < 0xC000 then give b (b.msixWord (off - 0x4000) + 2 ^ 32 * b.msixWord (off - 0x4000 + 4))
      else if 0xC000 ≤ off ∧ off < 0xC100 then give b (b.pendingWord (off - 0xC000))
      else give b 0

/-- A write of the host in BAR0 (R18, R19, R501): channel windows and the MSI-X table; the rest is dropped. -/
def Block.barWrite (b : Block) (off : Nat) (v : Word) : Block :=
  match barBox off with
  | some (ch, o) =>
    if 0x800 ≤ o then b
    else if 0x40 ≤ o then b.writeBuf ch (o - 0x40) (b.hostEnd ch) (leBytes 8 v.toNat)
    else match regAt (0x980000 + 0x1000 * ch + o) with
      | some (k, i) => b.writeBox k i (b.hostEnd ch) v
      | none => b
  | none =>
    if 0x4000 ≤ off ∧ off < 0xC000 then (b.msixWrite (off - 0x4000) (v.toNat % 2 ^ 32)).msixWrite (off - 0x4000 + 4) (v.toNat / 2 ^ 32) else b

/-! ### REGISTER_WRITE and RC_REGISTER_READ -/

/-- An agent exists: its power domain is on, and it is not in reset (R79). -/
def Block.awake (b : Block) : Agent → Bool
  | .harbourmaster => !b.harbour.down
  | .core g => b.domUp (domCore g) && (b.core g).on && (b.core g).resetStep.isNone
  | .host => b.hostUp

/-- The write of a register by an agent that may make it; a register with a row of its own has that row's effect. -/
def writeKind (who : Agent) (k : RegKind) (i : Nat) (v : Word) (s : State) : Out :=
  let end_ := s.blk.insideEnd who i
  match k with
  | .btSpareMap => execSpareMapWrite i v s
  | .plGranule => execGranuleWrite i v s
  | .tlBwctl => execTlBwctlWrite v s
  | .wkWdog => execWdogKick v s
  | .blRaise => execBlRaise who v s
  | .blComplete => execBlComplete who i false v s
  | .blFcomplete => execBlComplete who i true v s
  | .blTarget => execBlTargetWrite who i v s
  | .mbPost => if F.MB_POST_POST.of v = 0 then .next s
      else if end_ = some true then execMbPost i false [] s else onBlk s fun _ b => b.bump F.MB_STAT_WRONG_END i
  | .mbTake => if F.MB_TAKE_TAKE.of v = 0 then .next s
      else if end_ = some false then execMbTake i false s else onBlk s fun _ b => b.bump F.MB_STAT_WRONG_END i
  | .mbReply => if end_ = some false then execMbReply i false v [] s else onBlk s fun _ b => b.bump F.MB_STAT_WRONG_END i
  | .mbCfg => if who = .harbourmaster then onBlk s fun _ b => b.storeReg k i v else onBlk s fun _ b => b.bump F.MB_STAT_WRONG_END i
  | .mbState | .mbAck | .mbStat | .mbNotify => onBlk s fun _ b => b.writeBox k i end_ v
  | _ => onBlk s fun e b => b.writeReg e k i v

/-- The host posts, takes and replies by MB_POST and the like (R18, R501); a write to a doorbell page without a PASID is one that DOORBELL_WRITE rejects (R20, R269). -/
def hostKind (off : Nat) (v : Word) (s : State) : Out :=
  match (barBox off).bind fun (ch, o) => if o < 0x40 then regAt (0x980000 + 0x1000 * ch + o) else none with
  | some (.mbPost, i) => if F.MB_POST_POST.of v = 0 then .next s else execMbPost i true [] s
  | some (.mbTake, i) => if F.MB_TAKE_TAKE.of v = 0 then .next s else execMbTake i true s
  | some (.mbReply, i) => execMbReply i true v [] s
  | _ => match doorAt off with
    | some (p, k) => if off % 16 = 8 then .next s else execDoorbellWrite p k none 0xFF (v.setWidth 32) ((v >>> 32).setWidth 32) s
    | none => onBlk s fun _ b => b.barWrite off v

/-- A write that R12 discards: counted. -/
def writeBad (s : State) : Out := onBlk s fun _ b => b.bump F.GLB_ACCESS_ERR_COUNT

/-- REGISTER_WRITE (R8, R12, R14, R79): hardware's update of a field in the same cycle comes after the write, a clear of an RW1S bit before it (log 80); an access of another size or place, or without a grant, is discarded and counted; with the host port's domains off the host reaches nothing. -/
def execRegisterWrite (who : Agent) (addr bits : Nat) (v : Word) (s : State) : Out :=
  match who with
  | .host =>
    if !s.blk.hostUp then .next s
    else if bits = 64 ∧ addr % 8 = 0 then hostKind addr v s
    else if bits = 32 ∧ addr % 4 = 0 ∧ 0x4000 ≤ addr ∧ addr < 0xC000 then onBlk s fun _ b => b.msixWrite (addr - 0x4000) (v.toNat % 2 ^ 32)
    else .next s
  | _ =>
    if !agentOk who then .fault .noSuchUnit
    else if !s.blk.awake who then .next s
    else if bits ≠ 64 ∨ addr % 8 ≠ 0 then writeBad s
    else
      let bad : Out := writeBad s
      match regAt addr with
      | some (k, i) => if s.blk.granted who k i true then writeKind who k i v s else bad
      | none =>
        match boxAt addr with
        | some (ch, off) =>
          if who = .harbourmaster || (s.blk.insideEnd who ch).isSome then
            onBlk s fun _ b => b.writeBuf ch off (b.insideEnd who ch) (leBytes 8 v.toNat)
          else bad
        | none =>
          if who ≠ .harbourmaster then bad
          else match doorAt addr, apertureAt addr with
            | some (p, k), _ =>
              if addr % 16 = 8 then .next s
              else execDoorbellWrite p k ((tget s.blk.quay.slices p).map (·.pasid)) 0xFF (v.setWidth 32) ((v >>> 32).setWidth 32) s
            | none, some (n, off) => execStoreApertureAccess n off true v s
            | none, none => if inNotices addr then .next s else bad

/-- RC_REGISTER_READ (R8, R12, R14): the value is returned; RC fields are cleared and keep an event of the same cycle. -/
def execRcRegisterRead (who : Agent) (addr bits : Nat) (evs : List (Nat × Nat)) (s : State) : Out :=
  match who with
  | .host => if !s.blk.hostUp then .next s else onBlk s fun e b =>
      if bits = 64 ∧ addr % 8 = 0 then b.barRead e addr evs
      else if bits = 32 ∧ addr % 4 = 0 then { b with readData := b.msixRead32 addr }
      else { b with readData := 0 }
  | _ =>
    if !agentOk who then .fault .noSuchUnit
    else if !s.blk.awake who then .next s
    else
      let bad : Out := onBlk s fun _ b => b.accessErr
      if bits ≠ 64 ∨ addr % 8 ≠ 0 then bad
      else match regAt addr with
        | some (k, i) =>
          if !s.blk.granted who k i false then bad
          else match k with
            | .blClaim => execBlClaim who i false s
            | .blFclaim => execBlClaim who i true s
            | _ => onBlk s fun e b => b.readReg e k i evs
        | none =>
          match boxAt addr with
          | some (ch, off) =>
            if who = .harbourmaster || (s.blk.insideEnd who ch).isSome then onBlk s fun _ b => { b with readData := b.bufWord ch off } else bad
          | none =>
            if who ≠ .harbourmaster then bad
            else match doorAt addr, apertureAt addr with
              | some _, _ => onBlk s fun _ b => { b with readData := 0 }
              | none, some (n, off) => execStoreApertureAccess n off false 0 s
              | none, none =>
                if inNotices addr then onBlk s fun _ b => let (d, b) := b.draw; { b with readData := Config.freeWord d } else bad

/-! ### The host port: BAR2 and completions -/

/-- HOST_BAR2_ACCESS (R21, R318, R319): unbacked offsets and a PASID of no slice are answered Unsupported Request; the rest passes Customs under the slice's tags, one request a 128-byte unit. -/
def execHostBar2Access (write : Bool) (off len : Nat) (pasid : Option Nat) (data : List Byte) (s : State) : Out :=
  onHost s fun e b =>
    let len := if write then data.length else len
    let open_ (a : Nat) : Bool := b.backed e a && b.ports.opened.contains (a / 2 ^ 36)
    if len = 0 then b
    else if !open_ off || !open_ (off + len - 1) then b.send (.bar2 1 [])
    else match pasid.bind b.pasidSlice with
      | none => b.send (.bar2 1 [])
      | some sl =>
        let ctx := ((tget b.quay.slices sl).map (·.baseCtx)).getD 0
        (unitPieces off (len / 128 + 2) len 0).foldl (fun b (o, n) =>
          let r := memReq .bar2 (off + o) n write sl ctx 0
          b.enterMem e { r with data := if write then (data.drop o).take n else [] }) b

/-- The statuses a failed transfer may end with (R22). -/
def failStatuses : List Nat :=
  [stAborted, stTranslation, stProtection, stUncorrectable, stIntegrity, stUnavailable]

/-- HOST_COMPLETION (R52, R216): the completion answers its request's read; the status of a failed read is an open value (log 29). -/
def execHostCompletion (tag : Nat) (ok : Bool) (data : List Byte) (s : State) : Out :=
  onBlk s fun e b =>
    match tget b.host.reads tag with
    | none => b
    | some w =>
      let b : Block := { b with host := { b.host with reads := tdel b.host.reads tag } }
      match w with
      | .other | .stray _ _ _ => b
      | .logLine sl log line => b.lineIn e sl log line (if ok then some data else none)
      | .transfer n k serial off store =>
        if ok then ((b.gotData n k serial off store data).answered e n).kick e n k
        else
          let (d, b) := b.draw
          b.failXfer e n k serial (failStatuses.getD (Config.freeNat d % 6) stAborted) ukBlock 0 0 0
      | .asked r =>
        if ok then (b.memAnswer e r data).readDone e r.who
        else
          let (d, b) := b.draw
          (b.memFailed e r (failStatuses.getD (Config.freeNat d % 6) stAborted) ukBlock 0 r.addr).readDone e r.who

end Sys2Proof.Machine
end

