-- ==== Sys2Proof/Machine/Ferry.lean ====
section
/-! DEFINITION. The meanings of Ferry's commands: the coll instruction and its completion (R197, R198), Ferry messages (R405, R412), the collective timeout (R411). -/

namespace Sys2Proof.Machine

open Sys2Proof

/-- A coll that works on tiles: ALL_REDUCE and BROADCAST with MODE 0 (R197). -/
def collTiles (f : IFields) : Bool := f.mode = 0 && (f.fn = 0 || f.fn = 3)

/-- Bytes a coll writes at sRB in each stream (R406); none for tiles and BARRIER. -/
def collResult (fn streams len members : Nat) : Nat :=
  match fn with
  | 0 => len
  | 1 => len / max 1 members
  | 2 => members * streams * len
  | 3 => streams * len
  | 4 => streams * len
  | _ => 0

/-- The checks of coll (R197, R204): format, selector, addresses, length. A length that is no multiple of 64 is reason 0x07 (DESIGN CHOICE, log 86); FA is checked where elements are added, in ALL_REDUCE and REDUCE_SCATTER alone (DESIGN CHOICE, log 87). -/
def collChecks (members : Nat) (c : Cx) : List Check :=
  let bytes := !collTiles c.f && decide (c.f.fn ≤ 4)
  let a := (c.r.sreg c.f.ra).toNat
  let d := (c.r.sreg c.f.rb).toNat
  let len := (c.r.sreg c.f.rc).toNat
  let late := rangeBad (bytes && decide (len % 64 ≠ 0))
  [peBad c.f,
   (decide (c.f.fn ≤ 1) && (c.f.mode = 1 && decide (c.f.fa ≠ 0xB) || c.f.mode = 2 && decide (c.f.fa ≠ 0xB ∧ c.f.fa ≠ 0x8)), 0x04),
   (decide (5 < c.f.fn) || (decide (c.f.fn = 0 ∨ c.f.fn = 1 ∨ c.f.fn = 3) && decide (2 < c.f.mode)) || (c.f.fn = 1 && c.f.mode = 0), 0x05)] ++
  (if bytes then [baseBad a 64, baseBad d 64, late] ++
    (if late.1 then [] else [extentBad a 0 1 len, extentBad d 0 1 (collResult c.f.fn c.s.streams len members)]) else [])

/-- Two streams of a job give the same operation, mode, group, length and mask (R197), and, as the model adds, the same root and format (DESIGN CHOICE, log 88). -/
def Coll.agrees (x y : Coll) : Bool :=
  x.op = y.op && x.mode = y.mode && x.entry = y.entry && x.len = y.len && x.mask = y.mask && x.root = y.root && x.format = y.format

/-- The collective a coll instruction asks for; fields its operation does not use are 0. -/
def Cx.coll (c : Cx) : Coll :=
  let tiles := collTiles c.f
  let bytes := !tiles && decide (c.f.fn ≤ 4)
  { entry := immLo c.f % 256, sq := 0, op := c.f.fn, mode := if c.f.fn = 2 ∨ c.f.fn = 4 ∨ c.f.fn = 5 then 1 else c.f.mode
    format := if decide (c.f.fn ≤ 1) && !tiles then c.f.fa else 0
    root := if c.f.fn = 3 then c.f.imm.toNat / 2 ^ 32 % 512 else 0
    len := if bytes then (c.r.sreg c.f.rc).toNat else 0, mask := if tiles then immLo c.f / 65536 else 0
    job := c.s.job, fromBerth := true, places := [(c.s.rank, c.n, (c.r.sreg c.f.ra).toNat, (c.r.sreg c.f.rb).toNat)]
    begun := false, timer := c.e.now, started := c.e.now, credits := [], sentTo := [], heard := [], own := [], parts := [], complete := [], bad := false }

/-- Tiles of the mask that do not combine across the streams of this block (R197, R108). -/
def Block.ownClash (b : Block) (x : Coll) : Bool := x.tiles && (tilesOf x.mask).any fun t => (b.ownTile x t).isNone

/-- What the streams of this block give to a collective is read (R132, R156, R205): an uncorrectable word or tile entry ends the command with DATA_UNCORRECTABLE, and the collective with it. The answer says whether the data is good. -/
def Block.contribOk (b : Block) (e : Env) (id : Nat) (x : Coll) : Bool × Block :=
  if x.op = 5 || !x.fromBerth then (true, b)
  else
    let (ok, b) := x.byRank.foldl (fun (ok, b) (_, n, src, _) =>
      if !ok then (false, b)
      else if x.tiles then
        let (ok, b) := Block.tilesOk e n (tilesOf x.mask) b
        (ok, if ok then b else b.markWorn e n)
      else Block.readOk e n [(src, x.len)] b) (true, b)
    (ok, if ok then b else b.endColl e id stUncorrectable x true)

/-- A collective of this block's streams takes part in the group once its contribution is at hand and good; tiles that do not combine end it with ABORTED (R197, R205). -/
def Block.enterColl (b : Block) (e : Env) (id : Nat) (x : Coll) : Block :=
  if !b.ready x then b
  else match b.contribOk e id x with
    | (false, b) => b
    | (true, b) => if b.ownClash x then b.collFailed e id stAborted true else b.tryStart e id false

/-- Collectives whose data was bad when their turn came end with it (R132, R156). -/
def Block.endBad (b : Block) (e : Env) : Block :=
  b.fabric.colls.foldl (fun b y =>
    if !y.2.bad then b
    else match b.contribOk e y.1 y.2 with
      | (false, b) => b
      | (true, b) => (b.modColl y.1 fun x => { x with bad := false }).tryStart e y.1 false) b

/-- coll (R197, R198): it issues once both engine queues are empty and holds issue; with the job's last stream the block takes part in the group. A group of another slice fails with PROTECTION_FAULT, streams that disagree and anchors that do not match with ABORTED. -/
def execColl (n : Nat) (w : IWord) (s : State) : Out :=
  onUnit (decide (n < 16) && isRow .coll w) s fun e b =>
    let x := b.berth n
    let f := decodeFields w
    let members := ((tget b.fabric.groups (immLo f % 256)).map fun g => g.r.members.length).getD 0
    if !x.me0.isEmpty || !x.me1.isEmpty then b.decodeFaults e n w (collChecks members)
    else b.issue e n w (collChecks members) fun c b =>
      let y := c.coll
      match tget b.fabric.groups y.entry with
      | none => b.failWith c.e c.s.job stProtection none ukBerth c.n 0 0
      | some g =>
        if g.r.owner ≠ c.s.slice then b.failWith c.e c.s.job stProtection none ukBerth c.n 0 0
        else
          let b := ((b.setBstate e c.n bsCollective).tilesDone c.n (tilesOf y.mask)).modStream c.n fun s => { s with wait := some .coll }
          match b.collOf c.s.job with
          | none =>
            let id := b.fabric.nextColl
            let b := { b with fabric := { b.fabric with colls := tput b.fabric.colls id y, nextColl := id + 1 } }
            b.enterColl e id y
          | some id =>
            match tget b.fabric.colls id with
            | none => b
            | some z =>
              let z' := { z with places := z.places ++ y.places }
              let b := b.modColl id fun _ => z'
              if !z.agrees y then b.collFailed e id stAborted true else b.enterColl e id z'

/-- A stream goes on after its coll; a yield asked meanwhile is taken up now (R149). -/
def Block.afterColl (b : Block) (e : Env) (n : Nat) : Block :=
  match (b.berth n).stream with
  | none => b
  | some st =>
    let b := b.reach e n (st.pc + 16)
    if (b.berth n).yield.isSome then (b.modBerth n fun x => { x with yield := none }).askYield e n else b

/-- COLLECTIVE_COMPLETE (R198, R406): the result is in every stream, or written to the FERRY command's destination, and the collective's slot is free. -/
def execCollectiveComplete (id : Nat) (s : State) : Out :=
  onBlk s fun e b =>
    match tget b.fabric.colls id with
    | none => b
    | some x =>
      match tget b.fabric.groups x.entry with
      | none => b
      | some g =>
        if !x.whole g.r then b
        else match b.contribOk e id x with
        | (false, b) => b
        | (true, b) =>
        if x.tiles && (List.zipIdx (tilesOf x.mask)).any fun (t, k) => (b.resultTile x g.r k t).isNone then
          b.collFailed e id stAborted true
        else if x.fromBerth then
          let b := (b.giveResult x g.r).tallyG (some g.r.owner) 0x109 0 1
          let b := (b.leaveColl e x).dropColl e id x
          x.places.foldl (fun b (_, n, _, _) => b.afterColl e n) b
        else
          match tget b.quay.cmds x.job with
          | none => b.dropColl e id x
          | some c =>
            match c.body with
            | .ferry f =>
              if f.op ≠ 5 ∧ !b.rangeFresh x.job f.dstBuf then b
              else
                let (d, b) := b.draw
                let r := if f.op = 5 then [] else b.resultBytes x g.r d
                let (bad, b) := if f.op = 5 then (none, b)
                  else b.laneRange x.job (b.slicePart c.slice) f.dstBuf f.dstOff true true (fun i => .ferry x.job i) r (r.length + 1) r.length 0
                let b := (b.dropColl e id x).tallyG (some g.r.owner) 0x109 0 1
                match bad with
                | some (some st) => ((b.endCmd x.job st 0).faultEvent e x.job st ukBlock 0 0 0).ferryFree e x.job
                | _ => (b.endCmd x.job 0 0).ferryFree e x.job
            | _ => b.dropColl e id x

/-- A Ferry message whose epoch is not the one expected of its source (R402). -/
def Group.oldEpoch (g : Group) (src epoch : Nat) : Bool := match g.r.members[src]? with | some (_, want) => want ≠ epoch | none => false

/-- The group and its collective that an inbound Ferry message is for (R402, R405): a message of an unknown group, of another epoch than its source's, or for a collective completed or timed out is dropped and counted. -/
def Block.ferryIn (b : Block) (key sq : Nat) (src : FerryFrom) (f : (entry : Nat) → Group → Option (Nat × Coll) → Block) : Block :=
  match b.groupByKey key with
  | none => b.bump F.FY_STAT_LATE_DROP
  | some (entry, g) =>
    if g.oldEpoch src.src src.epoch then b.bump F.FY_STAT_LATE_DROP
    else match b.findColl entry sq with
      | none => if g.finished.contains sq then b.bump F.FY_STAT_LATE_DROP else f entry g none
      | some y => f entry g (some y)

/-- The whole index of a part from its 16 bits, by the parts of its source that have come (R395; log 116). -/
def Coll.chunkIndex (x : Coll) (src chunk : Nat) : Nat := (x.parts.filter fun p => p.1 = src).length / 65536 * 65536 + chunk % 65536

/-- FERRY_DATA (R402, R405): a part of a peer's contribution for a collective in flight. Tiles that do not combine end the collective with ABORTED (R408). -/
def execFerryData (_l key sq : Nat) (src : FerryFrom) (chunk : Nat) (part : FerryPart) (last : Bool) (s : State) : Out :=
  onBlk s fun e b => b.ferryIn key sq src fun _ g y =>
    match y with
    | none => b
    | some (id, x) =>
      if !(g.r.peerRanks.contains src.src) then b
      else
        let b := b.heardFrom e id src.src g.r
        let b := b.modColl id fun x => { x with
          parts := x.parts ++ [(src.src, x.chunkIndex src.src chunk, part)]
          complete := if last && !x.complete.contains src.src then x.complete ++ [src.src] else x.complete }
        let clash := match partTile part with
          | some (k, t) => x.op = 0 && (match (tilesOf x.mask)[k]? with
            | some i => (match b.ownTile x i with | some o => !o.fits t | none => true)
            | none => true)
          | none => false
        if clash then b.collFailed e id stAborted true else b

/-- FERRY_CREDIT (R402, R405): permits DATA to a peer; for a sequence not started it is kept. -/
def execFerryCredit (_l key sq : Nat) (src : FerryFrom) (s : State) : Out :=
  onBlk s fun e b => b.ferryIn key sq src fun entry g y =>
    match y with
    | none => { b with fabric := { b.fabric with groups := tput b.fabric.groups entry { g with credits := g.credits ++ [(sq, src.src)] } } }
    | some (id, x) =>
      if !(g.r.peerRanks.contains src.src) then b
      else
        let b := b.heardFrom e id src.src g.r
        let first := !x.credits.contains src.src
        let b := b.modColl id fun x => { x with credits := if first then x.credits ++ [src.src] else x.credits }
        if first && !x.sentTo.contains src.src && (x.feeds g.r).contains src.src then
          match b.contribOk e id x with
          | (false, b) => b
          | (true, b) => (b.sendData e g.r x src.src).modColl id fun x => { x with sentTo := x.sentTo ++ [src.src] }
        else b

/-- FERRY_ABORT (R402, R412): the collective ends with ABORTED; one this block has not started meets the ABORT as soon as it starts. -/
def execFerryAbort (_l key sq : Nat) (src : FerryFrom) (s : State) : Out :=
  onBlk s fun e b => b.ferryIn key sq src fun entry g y =>
    match y with
    | some (id, _) => b.collFailed e id stAborted false
    | none =>
      if sq ≠ g.nextSeq then b
      else match b.fabric.colls.find? fun x => x.2.entry = entry && !x.2.begun with
        | some (id, _) => b.collFailed e id stAborted false
        | none => b

/-- COLLECTIVE_TIMEOUT (R411): COLL_TO has passed since the last message; a collective that is whole has completed instead. -/
def execCollectiveTimeout (id : Nat) (s : State) : Out :=
  onBlk s fun e b =>
    match tget b.fabric.colls id with
    | none => b
    | some x =>
      let due := x.begun && decide (x.timer + b.rd F.FY_CTL_COLL_TO * 1000000 ≤ e.now)
      let whole := ((tget b.fabric.groups x.entry).map fun g => x.whole g.r).getD false
      let members := ((tget b.fabric.groups x.entry).map fun g => g.r.members.length).getD 0
      if due && !whole then (b.loseResult x (collResult x.op x.places.length x.len members)).collFailed e id stCollTimeout false else b

end Sys2Proof.Machine
end

