-- ==== Sys2Proof/Machine/Scalar.lean ====
section
/-! DEFINITION. The meanings of the CTRL and SCALAR berth instructions (R168 to R176), and the end of a stream (R170). -/

namespace Sys2Proof.Machine

open Sys2Proof

/-! ### CTRL class -/

/-- nop (R171): no effect but the step to the next instruction. A word of an unassigned opcode is illegal with reason 0x01 (R166, log 14). -/
def execNop (n : Nat) (w : IWord) (s : State) : Out :=
  berthInstr .nop n w s (fun c => [(!assignedOp c.f.op, 0x01), peBad c.f]) fun c b => b.next c

/-- The target of a branch: the instruction's offset plus 16 × IMM_LO (R168); an offset below 0 lies outside the code. -/
def branchTarget (c : Cx) : Int := (c.s.pc : Int) + 16 * immLoS c.f

/-- Control reaches a branch target (R171); an offset below 0 is illegal there. No instruction stands outside the code, so the opcode of its event is 0 (DESIGN CHOICE, log 82). -/
def Block.reachInt (b : Block) (c : Cx) (t : Int) : Block :=
  if t < 0 then b.illegal c.e c.n (t.emod (2 ^ 64)).toNat 0 0x0C else b.reach c.e c.n t.toNat

/-- An offset lies in the range of a loop's entry, from its target to the loop instruction (R169). -/
def inLoop (x : Nat × Nat) (t : Int) : Bool := decide ((min x.1 x.2 : Nat) ≤ t ∧ t ≤ (max x.1 x.2 : Nat))

/-- A br or brc taken at pc removes the loop entries whose range it leaves (R169). -/
def leaveLoops (l : List (Nat × Nat)) (pc t : Int) : List (Nat × Nat) :=
  l.filter fun x => !(inLoop x pc && !inLoop x t)

/-- A taken branch (R168, R169). -/
def Block.takeBranch (b : Block) (c : Cx) : Block :=
  let t := branchTarget c
  (b.modStream c.n fun s => { s with loops := leaveLoops s.loops c.s.pc t }).reachInt c t

/-- br (R168). -/
def execBr (n : Nat) (w : IWord) (s : State) : Out :=
  berthInstr .br n w s (fun c => [peBad c.f]) fun c b => b.takeBranch c

/-- The condition of brc (R168): 0 EQ, 1 NE, 2 LT, 3 GE, 4 LTU, 5 GEU. -/
def brcHolds (fn : Nat) (x y : Word) : Bool :=
  match fn with
  | 0 => x = y
  | 1 => x ≠ y
  | 2 => x.slt y
  | 3 => !x.slt y
  | 4 => x.ult y
  | _ => !x.ult y

/-- brc (R168). -/
def execBrc (n : Nat) (w : IWord) (s : State) : Out :=
  berthInstr .brc n w s (fun c => [peBad c.f, (decide (5 < c.f.fn), 0x05)]) fun c b =>
    let y := if c.f.fl13 then immHiW c.f else c.r.sreg c.f.rb
    if brcHolds c.f.fn (c.r.sreg c.f.ra) y then b.takeBranch c else b.next c

/-- loop (R169): 0 or 1 exits and writes 0; a larger count is taken down and the back edge taken. -/
def execLoop (n : Nat) (w : IWord) (s : State) : Out :=
  berthInstr .loop n w s
    (fun c => [peBad c.f,
      (decide (1 < (c.r.sreg c.f.ra).toNat) && !(c.s.loops.any fun x => x.1 = c.s.pc) && decide (8 ≤ c.s.loops.length), 0x0B)])
    fun c b =>
      let v := c.r.sreg c.f.ra
      if v.toNat ≤ 1 then
        ((b.modStream c.n fun s => { s with loops := s.loops.filter fun x => x.1 ≠ c.s.pc }).modRegs c.n
          fun r => r.setS c.f.ra 0).next c
      else
        let t := branchTarget c
        let loops := if c.s.loops.any fun x => x.1 = c.s.pc then c.s.loops else c.s.loops ++ [(c.s.pc, t.toNat)]
        ((b.modStream c.n fun s => { s with loops := loops }).modRegs c.n fun r => r.setS c.f.ra (v - 1)).reachInt c t

/-- end (R170): issue stops; the stream ends at STREAM_END. -/
def execEndStream (n : Nat) (w : IWord) (s : State) : Out :=
  berthInstr .endStream n w s (fun c => [peBad c.f]) fun c b => b.modStream c.n fun s => { s with ended := true }

/-! ### SCALAR class -/

/-- salu (R172). -/
def saluOp (fn : Nat) (x y : Word) : Word :=
  match fn with
  | 0 => x + y
  | 1 => x - y
  | 2 => x &&& y
  | 3 => x ||| y
  | 4 => x ^^^ y
  | 5 => x <<< (y.toNat % 64)
  | 6 => x >>> (y.toNat % 64)
  | 7 => x.sshiftRight (y.toNat % 64)
  | 8 => if x.slt y then 1 else 0
  | 9 => if x.ult y then 1 else 0
  | 10 => if x.slt y then x else y
  | 11 => if x.slt y then y else x
  | 12 => if x.ult y then x else y
  | _ => if x.ult y then y else x

/-- salu (R172). -/
def execSalu (n : Nat) (w : IWord) (s : State) : Out :=
  berthInstr .salu n w s (fun c => [peBad c.f, (decide (13 < c.f.fn), 0x05)]) fun c b =>
    c.regs b (c.r.setS c.f.rd (saluOp c.f.fn (c.r.sreg c.f.ra) (pickB c.f.fl13 c.f.imm c.r c.f.rb)))

/-- smul (R173): 0 the low half, 1 the high half of the signed product, 2 of the unsigned one. -/
def smulOp (fn : Nat) (x y : Word) : Word :=
  match fn with
  | 0 => x * y
  | 1 => BitVec.ofInt 64 ((x.toInt * y.toInt).fdiv (2 ^ 64))
  | _ => BitVec.ofNat 64 (x.toNat * y.toNat / 2 ^ 64)

/-- smul (R173). -/
def execSmul (n : Nat) (w : IWord) (s : State) : Out :=
  berthInstr .smul n w s (fun c => [peBad c.f, (decide (2 < c.f.fn), 0x05)]) fun c b =>
    c.regs b (c.r.setS c.f.rd (smulOp c.f.fn (c.r.sreg c.f.ra) (c.r.sreg c.f.rb)))

/-- sdiv (R173): 0 div, 1 divu, 2 rem, 3 remu; a quotient by 0 is all ones, a remainder by 0 the dividend. -/
def sdivOp (fn : Nat) (x y : Word) : Word :=
  if y = 0 then (if fn ≤ 1 then BitVec.allOnes 64 else x)
  else
    match fn with
    | 0 => BitVec.ofInt 64 (x.toInt.tdiv y.toInt)
    | 1 => x / y
    | 2 => BitVec.ofInt 64 (x.toInt.tmod y.toInt)
    | _ => x % y

/-- sdiv (R173). -/
def execSdiv (n : Nat) (w : IWord) (s : State) : Out :=
  berthInstr .sdiv n w s (fun c => [peBad c.f, (decide (3 < c.f.fn), 0x05)]) fun c b =>
    c.regs b (c.r.setS c.f.rd (sdivOp c.f.fn (c.r.sreg c.f.ra) (c.r.sreg c.f.rb)))

/-- The address sRA + IMM_LO of a scalar or vector access. -/
def effAddr (c : Cx) : Int := ((c.r.sreg c.f.ra).toNat : Int) + immLoS c.f

/-- The checks of an access of len bytes at sRA + IMM_LO, aligned to len's unit (R125, R126, R163; log 16: bits [63:25] of sRA itself must be 0). -/
def accessBad (c : Cx) (align len : Nat) : Check :=
  let a := effAddr c
  (decide (2 ^ 25 ≤ (c.r.sreg c.f.ra).toNat ∨ a < 0 ∨ a.emod (align : Int) ≠ 0 ∨ (storeBytes : Int) < a + (len : Int)), 0x06)

/-- sld (R174). -/
def execSld (n : Nat) (w : IWord) (s : State) : Out :=
  berthInstr .sld n w s (fun c => [peBad c.f, accessBad c 8 8]) fun c b =>
    let a := (effAddr c).toNat
    let (ok, b) := Block.readOk c.e c.n [(a, 8)] b
    if ok then c.regs b (c.r.setS c.f.rd (BitVec.ofNat 64 (ofLeBytes (b.load c.n a 8)))) else b

/-- sst (R174). -/
def execSst (n : Nat) (w : IWord) (s : State) : Out :=
  berthInstr .sst n w s (fun c => [peBad c.f, accessBad c 8 8]) fun c b =>
    (b.store c.n (effAddr c).toNat (leBytes 8 (c.r.sreg c.f.rb).toNat)).next c

/-- nmov (R175): 0 reads an anchor register, 1 writes one, only where its tile is empty. -/
def execNmov (n : Nat) (w : IWord) (s : State) : Out :=
  berthInstr .nmov n w s
    (fun c =>
      let v := (c.r.sreg c.f.ra).toInt
      [if c.f.fn = 0 then regBad c.f.ra 16 else if c.f.fn = 1 then regBad c.f.rd 16 else (false, 0),
       peBad c.f, (decide (1 < c.f.fn), 0x05),
       (c.f.fn = 1 && (decide (v < -512 ∨ 511 < v) || !(c.r.tile c.f.rd).empty), 0x0A)])
    fun c b =>
      if c.f.fn = 0 then c.regs b (c.r.setS c.f.rd ((c.r.tile c.f.ra).anchor.signExtend 64))
      else c.regs b (c.r.setTile c.f.rd { c.r.tile c.f.rd with anchor := (c.r.sreg c.f.ra).setWidth 10 })

/-- The item sget reads (R176). -/
def sgetItem (c : Cx) : Word :=
  match c.f.fn with
  | 0 => (c.r.tile (immLo c.f)).status
  | 1 => (c.r.tile (immLo c.f)).scaleWord
  | 2 => c.s.vflags.setWidth 64
  | 3 => c.s.vflags.setWidth 64
  | 4 => BitVec.ofNat 64 c.s.rank
  | 5 => BitVec.ofNat 64 c.s.streams
  | _ => c.s.args.getD (immLo c.f) 0

/-- sget (R176): FN 3 also clears the exception flags. -/
def execSget (n : Nat) (w : IWord) (s : State) : Out :=
  berthInstr .sget n w s
    (fun c => [peBad c.f,
      (decide (6 < c.f.fn) || (decide (c.f.fn = 0 ∨ c.f.fn = 1 ∨ c.f.fn = 6) && decide (15 < immLo c.f)), 0x05)])
    fun c b =>
      let b := if c.f.fn = 3 then b.modStream c.n fun s => { s with vflags := 0 } else if c.f.fn ≤ 1 then b.tilesDone c.n [immLo c.f] else b
      c.regs b (c.r.setS c.f.rd (sgetItem c))

end Sys2Proof.Machine
end

