-- ==== Sys2Proof/Machine/Sync.lean ====
section
/-! DEFINITION. The meanings of the SYNC berth instructions fsig, fwait and bar with their events (R194 to R196), of trap and mark (R202, R203), of a sampled instruction (R522) and of the end of a stream (R170, R284). -/

namespace Sys2Proof.Machine

open Sys2Proof

/-- V of fsig and fwait (R194). -/
def syncValue (c : Cx) : Word := pickB (!c.f.fl14) c.f.imm c.r c.f.rb

/-- The Quay fence an instruction names. -/
def syncFence (c : Cx) : Nat := (c.r.sreg c.f.ra).toNat % 65536

/-- A stream ends its job's command with a status. -/
def Block.endJob (b : Block) (c : Cx) (st : Nat) : Block := b.failWith c.e c.s.job st none ukBerth c.n 0 0

/-- fsig on a local counter (R194). -/
def execFsig (n : Nat) (w : IWord) (s : State) : Out :=
  berthInstr .fsig n w s (fun c => [regBad c.f.rd 32, peBad c.f]) fun c b =>
    c.regs b (c.r.setC c.f.rd (c.r.counter c.f.rd + syncValue c))

/-- fsig on a Quay fence (R194, R291): a value from 2^63 on and a missing right end the command; the signal leaves once the transfers queued before it have completed. -/
def execFsigFence (n : Nat) (w : IWord) (s : State) : Out :=
  berthInstr .fsigFence n w s (fun c => [peBad c.f]) fun c b =>
    let v := (syncValue c).toNat
    let f := syncFence c
    if 2 ^ 63 ≤ v then (b.bump F.QY_FENCE_STAT_RANGE).endJob c stFenceRange
    else if !(b.fenceRights f c.s.slice).2 then b.endJob c stProtection
    else
      let at_ := (b.berth c.n).nextSerial
      ((b.modStream c.n fun s => { s with sigs := s.sigs ++ [(f, v, at_)] }).releaseSigs c.e c.n).next c

/-- What a stream's wait sees: a local counter or a Quay fence against V (R195). -/
def Block.waitView (b : Block) (n : Nat) (w : Wait) : WaitView :=
  match w with
  | .counter c v => if v ≤ ((b.berth n).regs.counter c).toNat then .yes else .no
  | .fence f v => b.evalWait (some (f, v))
  | _ => .no

/-- fwait (R195, R291, R292): issue is held until the target reaches V; unsatisfied on the way to a moor, the berth saves at once (R148). -/
def execFwait (n : Nat) (w : IWord) (s : State) : Out :=
  berthInstr .fwait n w s (fun c => [if c.f.fl13 then (false, 0) else regBad c.f.rd 32, peBad c.f]) fun c b =>
    let v := (syncValue c).toNat
    let f := syncFence c
    if c.f.fl13 && !(b.fenceRights f c.s.slice).1 then b.endJob c stProtection
    else
      let wt : Wait := if c.f.fl13 then .fence f v else .counter c.f.rd v
      match b.waitView c.n wt with
      | .yes => b.next c
      | .broken => b.endJob c stFenceBroken
      | .no =>
        let b := b.modStream c.n fun s => { s with wait := some wt }
        if b.bstate c.n = bsToMoor then b.quiesce c.e c.n none c.s.pc else b

/-- FWAIT_SATISFIED (R195): the target has reached V, and issue goes on; a broken fence ends the command. -/
def execFwaitSatisfied (n : Nat) (s : State) : Out :=
  onUnit (decide (n < 16)) s fun e b =>
    match (b.berth n).stream with
    | none => b
    | some st =>
      if (b.berth n).leaving || st.stopped then b
      else
        match st.wait with
        | none => b
        | some w =>
          match b.waitView n w with
          | .yes => (b.modStream n fun s => { s with wait := none }).reach e n (st.pc + 16)
          | .broken => b.failWith e st.job stFenceBroken none ukBerth n 0 0
          | .no => b

/-- Every stream of a job that has not ended stands at a bar (R196); a saved one holds its peers. -/
def Block.barFull (b : Block) (job : Nat) : Bool :=
  (b.jobSlots job).isEmpty && !(b.jobBerths job).isEmpty &&
  (b.jobBerths job).all fun n => match (b.berth n).stream with
    | some s => s.atBar && !(b.berth n).leaving && decide (b.bstate n ≠ bsRestoring)
    | none => false

/-- bar (R196): the stream waits; short of its peers on the way to a moor, it saves at once (R148). -/
def execBar (n : Nat) (w : IWord) (s : State) : Out :=
  berthInstr .bar n w s (fun c => [peBad c.f]) fun c b =>
    let b := b.modStream c.n fun s => { s with wait := some .bar, atBar := true }
    if b.bstate c.n = bsToMoor ∧ ¬ b.barFull c.s.job then b.quiesce c.e c.n none c.s.pc else b

/-- BARRIER_RELEASE (R196): the streams go on together. -/
def execBarrierRelease (job : Nat) (s : State) : Out :=
  onBlk s fun e b =>
    whenB (b.barFull job) (fun b => (b.jobBerths job).foldl (fun b n =>
      match (b.berth n).stream with
      | some st => (b.modStream n fun s => { s with wait := none, atBar := false }).reach e n (st.pc + 16)
      | none => b) b) b

/-- trap (R202): the command ends with ABORTED, event TRAP names the code and the offset; the context stays. -/
def execTrap (n : Nat) (w : IWord) (s : State) : Out :=
  berthInstr .trap n w s (fun c => [peBad c.f]) fun c b =>
    (b.failJob c.e c.s.job stAborted 0 none).jobEvent c.e c.s.job 0x1001 stAborted ukBerth c.n [immLo c.f % 65536, c.s.pc]

/-- mark (R203): a trace record with the tag and the value sRA, when the slice is traced. -/
def execMark (n : Nat) (w : IWord) (s : State) : Out :=
  berthInstr .mark n w s (fun c => [peBad c.f]) fun c b =>
    (b.trace c.e c.s.slice { code := 0x2001, kind := ukBerth, idx := c.n, slice := some c.s.slice, ctx := c.s.ctx
                             data := [immLo c.f % 65536, (c.r.sreg c.f.ra).toNat] }).next c

/-- INSTRUCTION_SAMPLE (R522): the sampled instruction completes and its record is written; a full buffer overwrites its oldest record or drops the new one, counted either way. -/
def execInstructionSample (n : Nat) (s : State) : Out :=
  onUnit (decide (n < 16)) s fun e b =>
    match (b.berth n).sampled with
    | [] => b
    | r :: rest =>
      let r := { r with time := e.now }
      let full := decide (4096 ≤ (b.berth n).samples.length)
      let wrap := b.rd F.TL_SAMP_WRAP n = 1
      let b := if full then b.bump F.TL_SAMP_DROPPED n else b
      b.modBerth n fun x => { x with
        sampled := rest
        samples := if !full then x.samples ++ [r] else if wrap then x.samples.drop 1 ++ [r] else x.samples }

/-! ### The end of a stream -/

/-- A stream's work is over: it has issued end and its transfers and signals are done (R170), or it has stopped and its issued requests have been answered (R284). -/
def Block.streamOver (b : Block) (n : Nat) (s : Stream) : Bool :=
  let x := b.berth n
  if s.stopped then (x.me0.all fun t => b.outstanding n 0 t.serial = 0) && x.me1.all fun t => b.outstanding n 1 t.serial = 0
  else s.ended && x.me0.isEmpty && x.me1.isEmpty && s.sigs.isEmpty && s.copies.isEmpty && !s.digestOwed && s.wait.isNone

/-- STREAM_END (R170, R284): the stream leaves its berth, which is charged and scrubbed; with the last one the job has ended. A collective the stopped stream took part in ends for its members (R412). -/
def execStreamEnd (n : Nat) (s : State) : Out :=
  onUnit (decide (n < 16)) s fun e b =>
    match (b.berth n).stream with
    | none => b
    | some st =>
      if (b.berth n).leaving || (b.berth n).resetting.isSome || b.bstate n = bsRestoring || !b.streamOver n st then b
      else
        let b := match b.collOf st.job with
          | some id => if st.stopped then
              match tget b.fabric.colls id with
              | some x => (b.sendAbort e x).dropColl e id x
              | none => b
            else b
          | none => b
        ((b.chargeBerth e n).startScrub e n).endIfOver st.job

end Sys2Proof.Machine
end

