-- ==== Sys2Proof/Machine/Tensor.lean ====
section
/-! DEFINITION. The meanings of the TENSOR berth instructions and vsum.x (R177 to R182, R188). -/

namespace Sys2Proof.Machine

open Sys2Proof

/-- The register, format, K and operand checks of tmma and of the pre-pass (R177, R178, R204); `sel` are the selector checks of reason 0x05. R177's bound on K holds for the pre-pass too, whose range R105 calls one of any length (DESIGN CHOICE, log 119). -/
def tensorChecks (c : Cx) (sel : List Check) : List Check :=
  let k := (c.r.sreg c.f.rc).toNat
  let a := quadAt c.r c.f.ra
  let b := quadAt c.r c.f.rb
  let kBad := rangeBad (decide (k < 1 ∨ 1048576 < k) || (isMx c.f.fa && decide (k % 32 ≠ 0)))
  [regBad c.f.rd 16, groupBad c.f.ra 4, groupBad c.f.rb 4, peBad c.f, (!pairOk c.f.fa c.f.fb, 0x04)] ++ sel ++
  a.baseChecks c.f.fa ++ b.baseChecks c.f.fb ++
  [kBad] ++ a.strideChecks c.f.fa k ++ b.strideChecks c.f.fb k ++
  (a.extentChecks c.f.fa k ++ b.extentChecks c.f.fb k).map (Check.unless kBad.1)

/-- The two operands of tmma and of the pre-pass, with the ranges they read. -/
def tensorOperands (c : Cx) (b : Block) : Operand × Operand × List (Nat × Nat) :=
  let k := (c.r.sreg c.f.rc).toNat
  let qa := quadAt c.r c.f.ra
  let qb := quadAt c.r c.f.rb
  let rm := b.remaps c.n
  let rd := b.loadByte c.n rm
  (qa.operand c.f.fa rd, qb.operand c.f.fb rd, qa.ranges c.f.fa k ++ qb.ranges c.f.fb k)

/-- The anchor tmma names for an empty tile (R102): FIXED, SCAN or REUSE. -/
def tmmaAnchor (c : Cx) (x y : Operand) (k : Nat) : Int :=
  match c.f.mode with
  | 0 => (BitVec.ofNat 10 (immLo c.f)).toInt
  | 1 => prepass x y k
  | _ => (c.r.tile (immLo c.f % 16)).anchor.toInt

/-- The time, ns, by which a product of length k has ended (R135): P + 2K + 72 cycles of the slowest tensor clock, and 12 of the store's. -/
def productEnd (now k : Nat) : Nat := now + cdiv ((cdiv k 256 + 2 * k + 72) * 100) (oppClock 0) + 7

/-- A product longer than one 32-step boundary may be stopped there by a save, as long as it runs (R131, R145). -/
def Block.noteProduct (b : Block) (c : Cx) (base : Tile) : Block :=
  let k := (c.r.sreg c.f.rc).toNat
  if k ≤ 32 then b
  else b.modStream c.n fun s => { s with
    products := s.products ++ [⟨c.f.rd, base, c.f.fa, c.f.fb, quadAt c.r c.f.ra, quadAt c.r c.f.rb, k, 0, productEnd c.e.now k⟩] }

/-- tmma (R177). -/
def execTmma (n : Nat) (w : IWord) (s : State) : Out :=
  berthInstr .tmma n w s (fun c => tensorChecks c [(decide (2 < c.f.mode), 0x05)]) fun c b =>
    let k := (c.r.sreg c.f.rc).toNat
    let (x, y, rs) := tensorOperands c b
    let (ok, b) := Block.readOk c.e c.n rs b
    if ok then
      let t := (c.r.tile c.f.rd).begin (tmmaAnchor c x y k) x y
      c.regs ((b.tilesDone c.n [c.f.rd]).noteProduct c t) (c.r.setTile c.f.rd (t.mulAdd x y k))
    else b

/-- tanchor FN 0 and FN 1 (R178): the anchor register takes what `g` makes of its value and the pre-pass; the tile must be empty. -/
def tanchorScan (row : BRow) (n : Nat) (w : IWord) (s : State) (g : Int → Int → Int) : Out :=
  berthInstr row n w s
    (fun c => tensorChecks c [(decide (2 < c.f.fn), 0x05)] ++ [(!(c.r.tile c.f.rd).empty, 0x0A)])
    fun c b =>
      let (x, y, rs) := tensorOperands c b
      let (ok, b) := Block.readOk c.e c.n rs b
      if ok then
        let t := c.r.tile c.f.rd
        let v := g t.anchor.toInt (prepass x y (c.r.sreg c.f.rc).toNat)
        c.regs b (c.r.setTile c.f.rd { t with anchor := BitVec.ofInt 10 v })
      else b

/-- tanchor.set (R178). -/
def execTanchorSet (n : Nat) (w : IWord) (s : State) : Out := tanchorScan .tanchorSet n w s fun _ p => p

/-- tanchor.max (R105, R178). -/
def execTanchorMax (n : Nat) (w : IWord) (s : State) : Out := tanchorScan .tanchorMax n w s fun a p => max a p

/-- tanchor.rebase (R107, R178). -/
def execTanchorRebase (n : Nat) (w : IWord) (s : State) : Out :=
  berthInstr .tanchorRebase n w s (fun c => [regBad c.f.rd 16, regBad c.f.ra 16, peBad c.f]) fun c b =>
    c.regs (b.tilesDone c.n [c.f.rd, c.f.ra]) (c.r.setTile c.f.rd ((c.r.tile c.f.rd).rebase (c.r.tile c.f.ra).anchor))

/-- tclr (R97, R179). -/
def execTclr (n : Nat) (w : IWord) (s : State) : Out :=
  berthInstr .tclr n w s (fun c => [regBad c.f.rd 16, peBad c.f]) fun c b =>
    c.regs (b.tilesDone c.n [c.f.rd]) (c.r.setTile c.f.rd (c.r.tile c.f.rd).clear)

/-- tcomb (R108, R179). -/
def execTcomb (n : Nat) (w : IWord) (s : State) : Out :=
  berthInstr .tcomb n w s
    (fun c => [regBad c.f.rd 16, regBad c.f.ra 16, peBad c.f, (!(c.r.tile c.f.rd).fits (c.r.tile c.f.ra), 0x09)])
    fun c b =>
      let (ok, b) := Block.tilesOk c.e c.n [c.f.rd, c.f.ra] (b.tilesDone c.n [c.f.rd, c.f.ra])
      if ok then
        c.regs b (c.r.setTile c.f.rd ((c.r.tile c.f.rd).join (c.r.tile c.f.ra)))
      else b.markWorn c.e c.n

/-- The multiplier D of a drain (R109, R180). -/
def drainD (c : Cx) : BitVec 32 := if c.f.fl13 then (c.r.sreg c.f.rc).setWidth 32 else 0x3F800000

/-- The command's completion carries ANCHOR_FLAGS (R111). -/
def Block.anchorFlag (b : Block) (job : Nat) (on : Bool) : Block :=
  if on then b.modCmd job fun x => { x with anchorFlags := true } else b

/-- Write output rows into the berth store, row 0 first. -/
def Block.storeRows (n base stride : Nat) : List (List Byte) → (r : Nat) → Block → Block
  | [], _, b => b
  | x :: xs, r, b => Block.storeRows n base stride xs (r + 1) (b.store n (base + r * stride) x)

/-- Formats tdrain writes (R180). -/
def drainFmt (f : Nat) : Bool := decide (f = 0x0 ∨ f = 0x1 ∨ f = 0x8 ∨ f = 0x9 ∨ f = 0xB)

/-- tdrain (R109, R110, R180). -/
def execTdrain (n : Nat) (w : IWord) (s : State) : Out :=
  berthInstr .tdrain n w s
    (fun c =>
      let base := (c.r.sreg c.f.rb).toNat
      let stride := (c.r.sreg (c.f.rb + 1)).toNat
      let len := packedLen c.f.fa 64
      let strideBad := rangeBad (decide (stride % 64 ≠ 0 ∨ stride < len))
      [regBad c.f.ra 16, groupBad c.f.rb 2, peBad c.f, (!drainFmt c.f.fa, 0x04), baseBad base 64,
       strideBad, (extentBad base stride 64 len).unless strideBad.1])
    fun c b =>
      let (ok, b) := Block.tilesOk c.e c.n [c.f.ra] (b.tilesDone c.n [c.f.ra])
      if ok then
        let t := c.r.tile c.f.ra
        let d := drainD c
        let rows := (List.range 64).map fun r => t.drainRow c.f.fa d c.f.fl14 r
        ((Block.storeRows c.n (c.r.sreg c.f.rb).toNat (c.r.sreg (c.f.rb + 1)).toNat rows 0 b).anchorFlag c.s.job (t.drainFlags d)).next c
      else b.markWorn c.e c.n

/-- tquant (R112, R181): element rows first, then the scale bytes (log 17: an output that overlaps itself). -/
def execTquant (n : Nat) (w : IWord) (s : State) : Out :=
  berthInstr .tquant n w s
    (fun c =>
      let q := quadAt c.r c.f.rb
      [regBad c.f.ra 16, groupBad c.f.rb 4, peBad c.f, (!isMx c.f.fa, 0x04)] ++ q.baseChecks c.f.fa ++ q.strideChecks c.f.fa 64 ++
        q.extentChecks c.f.fa 64)
    fun c b =>
      let (ok, b) := Block.tilesOk c.e c.n [c.f.ra] (b.tilesDone c.n [c.f.ra])
      if ok then
        let t := c.r.tile c.f.ra
        let d := drainD c
        let q := quadAt c.r c.f.rb
        let rows := (List.range 64).map fun r => t.quantRow c.f.fa d c.f.fl14 r
        let b := Block.storeRows c.n q.base q.stride (rows.map (·.2)) 0 b
        let b := Block.storeRows c.n q.scale.toNat q.sstride (rows.map (·.1)) 0 b
        (b.anchorFlag c.s.job (t.drainFlags d)).next c
      else b.markWorn c.e c.n

/-- vsum.x (R116, R188). -/
def execVsumX (n : Nat) (w : IWord) (s : State) : Out :=
  berthInstr .vsumX n w s (fun c => [regBad c.f.rd 16, regBad c.f.ra 32]) fun c b =>
    let lanes := (activeLanes c.f c.r).map fun l => (c.r.lane c.f.ra l).toNat
    c.regs (b.tilesDone c.n [c.f.rd]) (c.r.setTile c.f.rd ((c.r.tile c.f.rd).vsum ((c.r.sreg c.f.rb).toNat % 4096) lanes))

end Sys2Proof.Machine
end

