-- ==== Sys2Proof/Machine/Vector.lean ====
section
/-! DEFINITION. The meanings of the VECTOR and SFU berth instructions (R183 to R189). -/

namespace Sys2Proof.Machine

open Sys2Proof

/-- The vector formats: FP32 and BF16 (R183). -/
def vecFmtBad (f : IFields) : Check := (decide (f.fa ≠ 0xB ∧ f.fa ≠ 0x8), 0x04)

/-- One lane of an arithmetic instruction: one FP32 element, or two BF16 elements (R183). -/
def laneOp (fa : Nat) (g : FpFmt → Nat → Nat → Nat → Nat × VFlags) (a b c : BitVec 32) : BitVec 32 × VFlags :=
  if fa = 0xB then
    let (x, f) := g fpFP32 a.toNat b.toNat c.toNat
    (BitVec.ofNat 32 x, f)
  else
    let (lo, f) := g fpBF16 (a.toNat % 65536) (b.toNat % 65536) (c.toNat % 65536)
    let (hi, k) := g fpBF16 (a.toNat / 65536) (b.toNat / 65536) (c.toNat / 65536)
    (BitVec.ofNat 32 (lo + 65536 * hi), f ||| k)

/-- An arithmetic instruction (R183) with the operation g on one element; vfma alone uses vRC. -/
def vecArith (row : BRow) (useC : Bool) (n : Nat) (w : IWord) (s : State) (g : FpFmt → Nat → Nat → Nat → Nat × VFlags) : Out :=
  berthInstr row n w s
    (fun c => [regBad c.f.rd 32, regBad c.f.ra 32, regBad c.f.rb 32, if useC then regBad c.f.rc 32 else (false, 0), vecFmtBad c.f])
    fun c b => c.regsFlags b (mapLanes c.f c.r fun l =>
      laneOp c.f.fa g (c.r.lane c.f.ra l) (c.r.lane c.f.rb l) (c.r.lane c.f.rc l))

/-- vadd (R183). -/
def execVadd (n : Nat) (w : IWord) (s : State) : Out := vecArith .vadd false n w s fun f a b _ => fpAdd f a b
/-- vsub (R183). -/
def execVsub (n : Nat) (w : IWord) (s : State) : Out := vecArith .vsub false n w s fun f a b _ => fpSub f a b
/-- vmul (R183). -/
def execVmul (n : Nat) (w : IWord) (s : State) : Out := vecArith .vmul false n w s fun f a b _ => fpMul f a b
/-- vfma (R183). -/
def execVfma (n : Nat) (w : IWord) (s : State) : Out := vecArith .vfma true n w s fun f a b c => fpFma f a b c
/-- vmin (R183). -/
def execVmin (n : Nat) (w : IWord) (s : State) : Out := vecArith .vmin false n w s fun f a b _ => fpMinMax f false a b
/-- vmax (R183). -/
def execVmax (n : Nat) (w : IWord) (s : State) : Out := vecArith .vmax false n w s fun f a b _ => fpMinMax f true a b

/-- Element e of a packed register of 512 16-bit elements (R183). -/
def elem16 (r : Regs) (v e : Nat) : Nat := (r.lane v (e / 2)).toNat / 2 ^ (16 * (e % 2)) % 65536

/-- Element e of a packing: vRA lane e, or vRB lane e − 256 (R184). -/
def packElem (f : IFields) (r : Regs) (fmt : FpFmt) (e : Nat) : Nat × VFlags :=
  fpNarrow fmt (if e < 256 then (r.lane f.ra e).toNat else (r.lane f.rb (e - 256)).toNat)

/-- One lane of vcvt (R184). -/
def vcvtLane (f : IFields) (r : Regs) (l : Nat) : BitVec 32 × VFlags :=
  let pack (fmt : FpFmt) : BitVec 32 × VFlags :=
    let (lo, k) := packElem f r fmt (2 * l)
    let (hi, h) := packElem f r fmt (2 * l + 1)
    (BitVec.ofNat 32 (lo + 65536 * hi), k ||| h)
  let one (x : Nat × VFlags) : BitVec 32 × VFlags := (BitVec.ofNat 32 x.1, x.2)
  match f.fn with
  | 0 => pack fpBF16
  | 1 => pack fpFP16
  | 2 => one (fpWiden fpBF16 (elem16 r f.ra (256 * (immLo f % 2) + l)))
  | 3 => one (fpWiden fpFP16 (elem16 r f.ra (256 * (immLo f % 2) + l)))
  | k => one (fpIntegral k (r.lane f.ra l).toNat)

/-- vcvt (R184). -/
def execVcvt (n : Nat) (w : IWord) (s : State) : Out :=
  berthInstr .vcvt n w s
    (fun c => [regBad c.f.rd 32, regBad c.f.ra 32, if c.f.fn ≤ 1 then regBad c.f.rb 32 else (false, 0), (decide (6 < c.f.fn), 0x05)])
    fun c b => c.regsFlags b (mapLanes c.f c.r (vcvtLane c.f c.r))

/-- A predicate with the active lanes' bits replaced (R161). -/
def predMerge (f : IFields) (r : Regs) (old new : BitVec 256) : BitVec 256 := (old &&& ~~~laneMask f r) ||| (new &&& laneMask f r)

/-- vcmp (R185). -/
def execVcmp (n : Nat) (w : IWord) (s : State) : Out :=
  berthInstr .vcmp n w s
    (fun c => [regBad c.f.rd 8, regBad c.f.ra 32, regBad c.f.rb 32, (decide (5 < c.f.fn), 0x05)])
    fun c b =>
      let rs := (activeLanes c.f c.r).map fun l => (l, fpCmp c.f.fn (c.r.lane c.f.ra l).toNat (c.r.lane c.f.rb l).toNat)
      let bits := BitVec.ofNat 256 (maskOf ((rs.filter fun x => x.2.1).map (·.1)))
      let fl := rs.foldl (fun (m : VFlags) x => m ||| x.2.2) 0
      c.regsFlags b (c.r.setP c.f.rd (predMerge c.f c.r (c.r.preg c.f.rd) bits), fl)

/-- vsel (R185): FN[2:0] names the selecting predicate. An FN above 7 is unassigned, reason 0x05 (DEDUCED, log 122). -/
def execVsel (n : Nat) (w : IWord) (s : State) : Out :=
  berthInstr .vsel n w s
    (fun c => [regBad c.f.rd 32, regBad c.f.ra 32, regBad c.f.rb 32, (decide (7 < c.f.fn), 0x05)])
    fun c b => c.regsFlags b (mapLanes c.f c.r fun l =>
      (if (c.r.preg c.f.fn).getLsbD l then c.r.lane c.f.ra l else c.r.lane c.f.rb l, 0))

/-- plog (R185). -/
def plogOp (f : IFields) (a b : BitVec 256) : BitVec 256 :=
  match f.fn with
  | 0 => a &&& b
  | 1 => a ||| b
  | 2 => a ^^^ b
  | 3 => a &&& ~~~b
  | 4 => ~~~a
  | 5 => BitVec.allOnes 256
  | 6 => 0
  | _ =>
    let lo := immLo f % 256
    let hi := immLo f / 256 % 256
    if hi < lo then a else a ||| (BitVec.ofNat 256 (2 ^ (hi + 1) - 2 ^ lo))

/-- plog (R185); inactive lanes of pRD keep their bits (R161). -/
def execPlog (n : Nat) (w : IWord) (s : State) : Out :=
  berthInstr .plog n w s
    (fun c => [regBad c.f.rd 8,
      if c.f.fn ≤ 4 ∨ c.f.fn = 7 then regBad c.f.ra 8 else (false, 0),
      if c.f.fn ≤ 3 then regBad c.f.rb 8 else (false, 0),
      (decide (7 < c.f.fn), 0x05)])
    fun c b =>
      c.regs b (c.r.setP c.f.rd (predMerge c.f c.r (c.r.preg c.f.rd) (plogOp c.f (c.r.preg c.f.ra) (c.r.preg c.f.rb))))

/-- The address of 64-byte piece k of a vector access (R186; log 16: sRC is unsigned). The stride of vld is sRC as R186 says, where the opcode table lists RB (DEDUCED, log 121). -/
def pieceAddr (c : Cx) (k : Nat) : Int :=
  effAddr c + (k : Int) * (if c.f.fl13 then ((c.r.sreg c.f.rc).toNat : Int) else 64)

/-- The checks of the sixteen pieces (R125, R126, R163). -/
def piecesBad (c : Cx) : Check :=
  (decide (2 ^ 25 ≤ (c.r.sreg c.f.ra).toNat) || (List.range 16).any fun k =>
    let a := pieceAddr c k
    decide (a < 0 ∨ a.emod 64 ≠ 0 ∨ (storeBytes : Int) < a + 64), 0x06)

/-- Where lane l of a vector access lies. -/
def laneAddr (c : Cx) (l : Nat) : Nat := (pieceAddr c (l / 16)).toNat + 4 * (l % 16)

/-- vld (R186). -/
def execVld (n : Nat) (w : IWord) (s : State) : Out :=
  berthInstr .vld n w s (fun c => [regBad c.f.rd 32, piecesBad c]) fun c b =>
    let (ok, b) := Block.readOk c.e c.n ((List.range 16).map fun k => ((pieceAddr c k).toNat, 64)) b
    if ok then
      c.regsFlags b (mapLanes c.f c.r fun l => (BitVec.ofNat 32 (ofLeBytes (b.load c.n (laneAddr c l) 4)), 0))
    else b

/-- vst (R186): the bytes of an inactive lane are unchanged (R161). Lanes are stored in rising order, which shows where pieces overlap (DESIGN CHOICE, log 85). -/
def execVst (n : Nat) (w : IWord) (s : State) : Out :=
  berthInstr .vst n w s (fun c => [regBad c.f.rb 32, piecesBad c]) fun c b =>
    ((activeLanes c.f c.r).foldl (fun b l => b.store c.n (laneAddr c l) (leBytes 4 (c.r.lane c.f.rb l).toNat)) b).next c

/-- vbcast (R187). -/
def execVbcast (n : Nat) (w : IWord) (s : State) : Out :=
  berthInstr .vbcast n w s (fun c => [regBad c.f.rd 32]) fun c b =>
    c.regsFlags b (mapLanes c.f c.r fun _ => ((c.r.sreg c.f.ra).setWidth 32, 0))

/-- vlane (R187). -/
def execVlane (n : Nat) (w : IWord) (s : State) : Out :=
  berthInstr .vlane n w s (fun c => [regBad c.f.ra 32]) fun c b =>
    c.regs b (c.r.setS c.f.rd ((c.r.lane c.f.ra (immLo c.f % 256)).setWidth 64))

/-- vred (R187): FN 0 maximum, FN 1 minimum, of the active lanes. -/
def execVred (n : Nat) (w : IWord) (s : State) : Out :=
  berthInstr .vred n w s (fun c => [regBad c.f.ra 32, (decide (1 < c.f.fn), 0x05)]) fun c b =>
    let (v, fl) := fpReduce (c.f.fn = 0) ((activeLanes c.f c.r).map fun l => (c.r.lane c.f.ra l).toNat)
    c.regsFlags b (c.r.setS c.f.rd (BitVec.ofNat 64 v), fl)

/-! ### SFU class -/

/-- A special function of each active lane (R117, R189). -/
def sfuInstr (row : BRow) (fn n : Nat) (w : IWord) (s : State) : Out :=
  berthInstr row n w s (fun c => [regBad c.f.rd 32, regBad c.f.ra 32, (decide (c.f.fa ≠ 0xB), 0x04)]) fun c b =>
    c.regsFlags b (mapLanes c.f c.r fun l => (sfu fn (c.r.lane c.f.ra l), 0))

/-- exp2 (R117, R189). -/
def execExp2 (n : Nat) (w : IWord) (s : State) : Out := sfuInstr .exp2 0 n w s
/-- log2 (R117, R189). -/
def execLog2 (n : Nat) (w : IWord) (s : State) : Out := sfuInstr .log2 1 n w s
/-- rcp (R117, R189). -/
def execRcp (n : Nat) (w : IWord) (s : State) : Out := sfuInstr .rcp 2 n w s
/-- rsqrt (R117, R189). -/
def execRsqrt (n : Nat) (w : IWord) (s : State) : Out := sfuInstr .rsqrt 3 n w s
/-- tanh (R117, R189). -/
def execTanh (n : Nat) (w : IWord) (s : State) : Out := sfuInstr .tanh 4 n w s
/-- sigmoid (R117, R189). -/
def execSigmoid (n : Nat) (w : IWord) (s : State) : Out := sfuInstr .sigmoid 5 n w s
/-- sin (R117, R189). -/
def execSin (n : Nat) (w : IWord) (s : State) : Out := sfuInstr .sin 6 n w s
/-- cos (R117, R189). -/
def execCos (n : Nat) (w : IWord) (s : State) : Out := sfuInstr .cos 7 n w s

end Sys2Proof.Machine
end

