-- ==== Sys2Proof/Machine/Dispatch.lean ====
section
/-! DEFINITION. One arm per command of the table: the dispatch to the meanings. -/

namespace Sys2Proof.Machine

open Sys2Proof

/-- The effect of a command on everything but the queue. -/
def exec (i : Instr) (s : State) : Host.Outcome State Fault Refusal :=
  match i with
  | .registerWrite who addr bits v => Sys2Proof.Machine.execRegisterWrite who addr bits v s
  | .rcRegisterRead who addr bits evs => Sys2Proof.Machine.execRcRegisterRead who addr bits evs s
  | .doorbellWrite page k pasid be sq cq => Sys2Proof.Machine.execDoorbellWrite page k pasid be sq cq s
  | .standingLaunch q => Sys2Proof.Machine.execStandingLaunch q s
  | .hostBar2Access write off len pasid data => Sys2Proof.Machine.execHostBar2Access write off len pasid data s
  | .msixTableWrite off v => Sys2Proof.Machine.execMsixTableWrite off v s
  | .hostCompletion tag ok data => Sys2Proof.Machine.execHostCompletion tag ok data s
  | .tensorCommand q f body => Sys2Proof.Machine.execTensorCommand q f body s
  | .moveCommand q f body => Sys2Proof.Machine.execMoveCommand q f body s
  | .generalCommand q f body => Sys2Proof.Machine.execGeneralCommand q f body s
  | .ferryCommand q f body => Sys2Proof.Machine.execFerryCommand q f body s
  | .lighterCommand q f data => Sys2Proof.Machine.execLighterCommand q f data s
  | .jobDispatch u => Sys2Proof.Machine.execJobDispatch u s
  | .commandComplete c => Sys2Proof.Machine.execCommandComplete c s
  | .msixModerateExpiry q => Sys2Proof.Machine.execMsixModerateExpiry q s
  | .ctxCreate sl h => Sys2Proof.Machine.execCtxCreate sl h s
  | .ctxDestroy sl h c => Sys2Proof.Machine.execCtxDestroy sl h c s
  | .ctxDestroyAll sl h => Sys2Proof.Machine.execCtxDestroyAll sl h s
  | .queueCreate sl h body standing => Sys2Proof.Machine.execQueueCreate sl h body standing s
  | .queueDestroy sl h k => Sys2Proof.Machine.execQueueDestroy sl h k s
  | .queueFree q => Sys2Proof.Machine.execQueueFree q s
  | .fenceCreate sl h init mirror => Sys2Proof.Machine.execFenceCreate sl h init mirror s
  | .fenceDestroy sl h f => Sys2Proof.Machine.execFenceDestroy sl h f s
  | .fenceGrant sl h f peer wait signal => Sys2Proof.Machine.execFenceGrant sl h f peer wait signal s
  | .fenceRelease sl h f => Sys2Proof.Machine.execFenceRelease sl h f s
  | .fenceRead sl h f => Sys2Proof.Machine.execFenceRead sl h f s
  | .fenceSignal sl h f v => Sys2Proof.Machine.execFenceSignal sl h f v s
  | .contextTeardown c => Sys2Proof.Machine.execContextTeardown c s
  | .teardownComplete c => Sys2Proof.Machine.execTeardownComplete c s
  | .nop b w => Sys2Proof.Machine.execNop b w s
  | .br b w => Sys2Proof.Machine.execBr b w s
  | .brc b w => Sys2Proof.Machine.execBrc b w s
  | .loop b w => Sys2Proof.Machine.execLoop b w s
  | .endStream b w => Sys2Proof.Machine.execEndStream b w s
  | .streamEnd b => Sys2Proof.Machine.execStreamEnd b s
  | .salu b w => Sys2Proof.Machine.execSalu b w s
  | .smul b w => Sys2Proof.Machine.execSmul b w s
  | .sdiv b w => Sys2Proof.Machine.execSdiv b w s
  | .sld b w => Sys2Proof.Machine.execSld b w s
  | .sst b w => Sys2Proof.Machine.execSst b w s
  | .nmov b w => Sys2Proof.Machine.execNmov b w s
  | .sget b w => Sys2Proof.Machine.execSget b w s
  | .tmma b w => Sys2Proof.Machine.execTmma b w s
  | .tanchorSet b w => Sys2Proof.Machine.execTanchorSet b w s
  | .tanchorMax b w => Sys2Proof.Machine.execTanchorMax b w s
  | .tanchorRebase b w => Sys2Proof.Machine.execTanchorRebase b w s
  | .tclr b w => Sys2Proof.Machine.execTclr b w s
  | .tcomb b w => Sys2Proof.Machine.execTcomb b w s
  | .tdrain b w => Sys2Proof.Machine.execTdrain b w s
  | .tquant b w => Sys2Proof.Machine.execTquant b w s
  | .vadd b w => Sys2Proof.Machine.execVadd b w s
  | .vsub b w => Sys2Proof.Machine.execVsub b w s
  | .vmul b w => Sys2Proof.Machine.execVmul b w s
  | .vfma b w => Sys2Proof.Machine.execVfma b w s
  | .vmin b w => Sys2Proof.Machine.execVmin b w s
  | .vmax b w => Sys2Proof.Machine.execVmax b w s
  | .vcvt b w => Sys2Proof.Machine.execVcvt b w s
  | .vcmp b w => Sys2Proof.Machine.execVcmp b w s
  | .vsel b w => Sys2Proof.Machine.execVsel b w s
  | .plog b w => Sys2Proof.Machine.execPlog b w s
  | .vld b w => Sys2Proof.Machine.execVld b w s
  | .vst b w => Sys2Proof.Machine.execVst b w s
  | .vbcast b w => Sys2Proof.Machine.execVbcast b w s
  | .vlane b w => Sys2Proof.Machine.execVlane b w s
  | .vred b w => Sys2Proof.Machine.execVred b w s
  | .vsumX b w => Sys2Proof.Machine.execVsumX b w s
  | .exp2 b w => Sys2Proof.Machine.execExp2 b w s
  | .log2 b w => Sys2Proof.Machine.execLog2 b w s
  | .rcp b w => Sys2Proof.Machine.execRcp b w s
  | .rsqrt b w => Sys2Proof.Machine.execRsqrt b w s
  | .tanh b w => Sys2Proof.Machine.execTanh b w s
  | .sigmoid b w => Sys2Proof.Machine.execSigmoid b w s
  | .sin b w => Sys2Proof.Machine.execSin b w s
  | .cos b w => Sys2Proof.Machine.execCos b w s
  | .mvIn b w => Sys2Proof.Machine.execMvIn b w s
  | .mvOut b w => Sys2Proof.Machine.execMvOut b w s
  | .mvHold b w => Sys2Proof.Machine.execMvHold b w s
  | .mvWinRead b w => Sys2Proof.Machine.execMvWinRead b w s
  | .mvWinWrite b w => Sys2Proof.Machine.execMvWinWrite b w s
  | .mvWinAtomic b w => Sys2Proof.Machine.execMvWinAtomic b w s
  | .mvWinReduce b w => Sys2Proof.Machine.execMvWinReduce b w s
  | .fsig b w => Sys2Proof.Machine.execFsig b w s
  | .fsigFence b w => Sys2Proof.Machine.execFsigFence b w s
  | .fwait b w => Sys2Proof.Machine.execFwait b w s
  | .fwaitSatisfied b => Sys2Proof.Machine.execFwaitSatisfied b s
  | .bar b w => Sys2Proof.Machine.execBar b w s
  | .barrierRelease job => Sys2Proof.Machine.execBarrierRelease job s
  | .coll b w => Sys2Proof.Machine.execColl b w s
  | .collectiveComplete id => Sys2Proof.Machine.execCollectiveComplete id s
  | .moor b w => Sys2Proof.Machine.execMoor b w s
  | .trap b w => Sys2Proof.Machine.execTrap b w s
  | .mark b w => Sys2Proof.Machine.execMark b w s
  | .instructionSample b => Sys2Proof.Machine.execInstructionSample b s
  | .icacheFillComplete b => Sys2Proof.Machine.execIcacheFillComplete b s
  | .transferComplete b e => Sys2Proof.Machine.execTransferComplete b e s
  | .memoryResponse port sub tag err data macs => Sys2Proof.Machine.execMemoryResponse port sub tag err data macs s
  | .regulatorAdmit x => Sys2Proof.Machine.execRegulatorAdmit x s
  | .berthYield b => Sys2Proof.Machine.execBerthYield b s
  | .horizonExpiry b => Sys2Proof.Machine.execHorizonExpiry b s
  | .saveStart b => Sys2Proof.Machine.execSaveStart b s
  | .saveComplete b => Sys2Proof.Machine.execSaveComplete b s
  | .restoreComplete b => Sys2Proof.Machine.execRestoreComplete b s
  | .scrubComplete b => Sys2Proof.Machine.execScrubComplete b s
  | .quantumBoundary p => Sys2Proof.Machine.execQuantumBoundary p s
  | .berthDrain b on => Sys2Proof.Machine.execBerthDrain b on s
  | .spareMapWrite b v => Sys2Proof.Machine.execSpareMapWrite b v s
  | .arrayMarkFailed b a => Sys2Proof.Machine.execArrayMarkFailed b a s
  | .arraySelfTest b a pass => Sys2Proof.Machine.execArraySelfTest b a pass s
  | .arrayTestComplete b pass => Sys2Proof.Machine.execArrayTestComplete b pass s
  | .storeApertureAccess b off write v => Sys2Proof.Machine.execStoreApertureAccess b off write v s
  | .storeWriteBack b word => Sys2Proof.Machine.execStoreWriteBack b word s
  | .storeReread b word => Sys2Proof.Machine.execStoreReread b word s
  | .operatingPointChange b n => Sys2Proof.Machine.execOperatingPointChange b n s
  | .staleNotice h => Sys2Proof.Machine.execStaleNotice h s
  | .staleAcknowledge h => Sys2Proof.Machine.execStaleAcknowledge h s
  | .restampComplete head => Sys2Proof.Machine.execRestampComplete head s
  | .invalidationRequest pasid va size => Sys2Proof.Machine.execInvalidationRequest pasid va size s
  | .holderEscalation h => Sys2Proof.Machine.execHolderEscalation h s
  | .translationCompletion stream r => Sys2Proof.Machine.execTranslationCompletion stream r s
  | .prgResponse stream code => Sys2Proof.Machine.execPrgResponse stream code s
  | .priTimeout stream => Sys2Proof.Machine.execPriTimeout stream s
  | .mmuMiss g va => Sys2Proof.Machine.execMmuMiss g va s
  | .granuleWrite g v => Sys2Proof.Machine.execGranuleWrite g v s
  | .dirtyStart m sl base pages logA logB => Sys2Proof.Machine.execDirtyStart m sl base pages logA logB s
  | .dirtyHarvest m sl => Sys2Proof.Machine.execDirtyHarvest m sl s
  | .dirtyStop m sl => Sys2Proof.Machine.execDirtyStop m sl s
  | .generalTaskEcall g a7 a0 => Sys2Proof.Machine.execGeneralTaskEcall g a7 a0 s
  | .generalTaskLimit g => Sys2Proof.Machine.execGeneralTaskLimit g s
  | .generalTaskTrap g outside => Sys2Proof.Machine.execGeneralTaskTrap g outside s
  | .coreTimeslice g => Sys2Proof.Machine.execCoreTimeslice g s
  | .arm q f body => Sys2Proof.Machine.execArm q f body s
  | .disarm q f body => Sys2Proof.Machine.execDisarm q f body s
  | .add q f body descs => Sys2Proof.Machine.execAdd q f body descs s
  | .update q f body desc => Sys2Proof.Machine.execUpdate q f body desc s
  | .append q f body tokens => Sys2Proof.Machine.execAppend q f body tokens s
  | .park q f body => Sys2Proof.Machine.execPark q f body s
  | .resume q f body => Sys2Proof.Machine.execResume q f body s
  | .release q f body => Sys2Proof.Machine.execRelease q f body s
  | .pages q f body nums => Sys2Proof.Machine.execPages q f body nums s
  | .listBuild p reads => Sys2Proof.Machine.execListBuild p reads s
  | .listComplete p id outs => Sys2Proof.Machine.execListComplete p id outs s
  | .modelRegister m r prefill step => Sys2Proof.Machine.execModelRegister m r prefill step s
  | .modelRetire m handle => Sys2Proof.Machine.execModelRetire m handle s
  | .fallbackSet m primary fallback => Sys2Proof.Machine.execFallbackSet m primary fallback s
  | .serveConfig m p entries beFloor en det sl => Sys2Proof.Machine.execServeConfig m p entries beFloor en det sl s
  | .modeSet m mode => Sys2Proof.Machine.execModeSet m mode s
  | .partitionCreate m p berths => Sys2Proof.Machine.execPartitionCreate m p berths s
  | .partitionDestroy m p => Sys2Proof.Machine.execPartitionDestroy m p s
  | .partitionResize m p add remove => Sys2Proof.Machine.execPartitionResize m p add remove s
  | .regulatorSet m p x rate other burst borrow => Sys2Proof.Machine.execRegulatorSet m p x rate other burst borrow s
  | .sliceCreate m r => Sys2Proof.Machine.execSliceCreate m r s
  | .sliceResize m sl mask r => Sys2Proof.Machine.execSliceResize m sl mask r s
  | .sliceQuiesce m sl mode timeoutMs => Sys2Proof.Machine.execSliceQuiesce m sl mode timeoutMs s
  | .quiesceDone sl => Sys2Proof.Machine.execQuiesceDone sl s
  | .sliceUnquiesce m sl => Sys2Proof.Machine.execSliceUnquiesce m sl s
  | .sliceRemove m sl => Sys2Proof.Machine.execSliceRemove m sl s
  | .keyZeroise sl => Sys2Proof.Machine.execKeyZeroise sl s
  | .sliceExport m sl addr len keyId => Sys2Proof.Machine.execSliceExport m sl addr len keyId s
  | .sliceImport m sl p addr len keyId verified img => Sys2Proof.Machine.execSliceImport m sl p addr len keyId verified img s
  | .schedSet m p quantum admitOpp lcShare preemptLc => Sys2Proof.Machine.execSchedSet m p quantum admitOpp lcShare preemptLc s
  | .objCreate m owner stackMask slots => Sys2Proof.Machine.execObjCreate m owner stackMask slots s
  | .objSeal m handle => Sys2Proof.Machine.execObjSeal m handle s
  | .objDelete m handle => Sys2Proof.Machine.execObjDelete m handle s
  | .objGrant m handle sl read write => Sys2Proof.Machine.execObjGrant m handle sl read write s
  | .objRevoke m handle sl => Sys2Proof.Machine.execObjRevoke m handle sl s
  | .objInfo m handle => Sys2Proof.Machine.execObjInfo m handle s
  | .holdStatus m h => Sys2Proof.Machine.execHoldStatus m h s
  | .dumpRead m record addr len => Sys2Proof.Machine.execDumpRead m record addr len s
  | .holdConfig m c => Sys2Proof.Machine.execHoldConfig m c s
  | .holdSlotSense ch => Sys2Proof.Machine.execHoldSlotSense ch s
  | .holdSlotDeliver ch r => Sys2Proof.Machine.execHoldSlotDeliver ch r s
  | .holdCommandComplete ch ok => Sys2Proof.Machine.execHoldCommandComplete ch ok s
  | .relocation h fromSlot toSlot => Sys2Proof.Machine.execRelocation h fromSlot toSlot s
  | .remapFold h => Sys2Proof.Machine.execRemapFold h s
  | .mergeFlush h => Sys2Proof.Machine.execMergeFlush h s
  | .dredgerRead ch slot r => Sys2Proof.Machine.execDredgerRead ch slot r s
  | .lapAlarm h => Sys2Proof.Machine.execLapAlarm h s
  | .wearLevel ch => Sys2Proof.Machine.execWearLevel ch s
  | .flitReceive l seq symErrs crcOk ack nak idle => Sys2Proof.Machine.execFlitReceive l seq symErrs crcOk ack nak idle s
  | .linkTrained l half narrow => Sys2Proof.Machine.execLinkTrained l half narrow s
  | .linkIdleEntry l => Sys2Proof.Machine.execLinkIdleEntry l s
  | .linkIdleExit l => Sys2Proof.Machine.execLinkIdleExit l s
  | .laneIdleDetect l n => Sys2Proof.Machine.execLaneIdleDetect l n s
  | .laneScan l n eyeW eyeH => Sys2Proof.Machine.execLaneScan l n eyeW eyeH s
  | .swapReq l n fromPeer => Sys2Proof.Machine.execSwapReq l n fromPeer s
  | .swapGo l n swapAt => Sys2Proof.Machine.execSwapGo l n swapAt s
  | .swapAt l comma => Sys2Proof.Machine.execSwapAt l comma s
  | .inboundRequest l r => Sys2Proof.Machine.execInboundRequest l r s
  | .remoteResponse l r => Sys2Proof.Machine.execRemoteResponse l r s
  | .remoteTimeout tag => Sys2Proof.Machine.execRemoteTimeout tag s
  | .ferryData l key sq src chunk part last => Sys2Proof.Machine.execFerryData l key sq src chunk part last s
  | .ferryCredit l key sq src => Sys2Proof.Machine.execFerryCredit l key sq src s
  | .ferryAbort l key sq src => Sys2Proof.Machine.execFerryAbort l key sq src s
  | .collectiveTimeout id => Sys2Proof.Machine.execCollectiveTimeout id s
  | .windowOpen m r => Sys2Proof.Machine.execWindowOpen m r s
  | .windowClose m win => Sys2Proof.Machine.execWindowClose m win s
  | .windowInfo m win => Sys2Proof.Machine.execWindowInfo m win s
  | .groupSet m r => Sys2Proof.Machine.execGroupSet m r s
  | .groupFree m entry => Sys2Proof.Machine.execGroupFree m entry s
  | .peerEpoch m blk epoch => Sys2Proof.Machine.execPeerEpoch m blk epoch s
  | .linkConfig m l half narrow idleUs marginW marginH => Sys2Proof.Machine.execLinkConfig m l half narrow idleUs marginW marginH s
  | .ping m blk => Sys2Proof.Machine.execPing m blk s
  | .pingReceive l r => Sys2Proof.Machine.execPingReceive l r s
  | .pongReceive l r => Sys2Proof.Machine.execPongReceive l r s
  | .lighterMreq n id tag buf off len write data => Sys2Proof.Machine.execLighterMreq n id tag buf off len write data s
  | .lighterDone n tag status => Sys2Proof.Machine.execLighterDone n tag status s
  | .lighterAbortAck n tag => Sys2Proof.Machine.execLighterAbortAck n tag s
  | .lighterAbortTimeout n => Sys2Proof.Machine.execLighterAbortTimeout n s
  | .getVersion ses => Sys2Proof.Machine.execGetVersion ses s
  | .getCapabilities ses => Sys2Proof.Machine.execGetCapabilities ses s
  | .negotiateAlgorithms ses => Sys2Proof.Machine.execNegotiateAlgorithms ses s
  | .getDigests ses => Sys2Proof.Machine.execGetDigests ses s
  | .getCertificate ses off len => Sys2Proof.Machine.execGetCertificate ses off len s
  | .challenge ses nonce => Sys2Proof.Machine.execChallenge ses nonce s
  | .getMeasurements ses nonce => Sys2Proof.Machine.execGetMeasurements ses nonce s
  | .keyExchange nonce => Sys2Proof.Machine.execKeyExchange nonce s
  | .finish ses who => Sys2Proof.Machine.execFinish ses who s
  | .heartbeat ses => Sys2Proof.Machine.execHeartbeat ses s
  | .endSession ses => Sys2Proof.Machine.execEndSession ses s
  | .leaseAcquire m ms => Sys2Proof.Machine.execLeaseAcquire m ms s
  | .leaseRenew m ms => Sys2Proof.Machine.execLeaseRenew m ms s
  | .leaseRelease m => Sys2Proof.Machine.execLeaseRelease m s
  | .leaseExpiry => Sys2Proof.Machine.execLeaseExpiry s
  | .sliceReport m sl nonce addr len => Sys2Proof.Machine.execSliceReport m sl nonce addr len s
  | .blockReport m nonce addr len => Sys2Proof.Machine.execBlockReport m nonce addr len s
  | .migrationKey m id key => Sys2Proof.Machine.execMigrationKey m id key s
  | .rollbackCommit m mask => Sys2Proof.Machine.execRollbackCommit m mask s
  | .debugUnlock m => Sys2Proof.Machine.execDebugUnlock m s
  | .powerOnReset => Sys2Proof.Machine.execPowerOnReset s
  | .warmReset => Sys2Proof.Machine.execWarmReset s
  | .warmResetEffect => Sys2Proof.Machine.execWarmResetEffect s
  | .stageS1 => Sys2Proof.Machine.execStageS1 s
  | .stageS2 failed => Sys2Proof.Machine.execStageS2 failed s
  | .stageS3 => Sys2Proof.Machine.execStageS3 s
  | .stageS4 => Sys2Proof.Machine.execStageS4 s
  | .mqReady p => Sys2Proof.Machine.execMqReady p s
  | .unitOpenTimeout u => Sys2Proof.Machine.execUnitOpenTimeout u s
  | .recoveryHeader b => Sys2Proof.Machine.execRecoveryHeader b s
  | .recoveryData off data => Sys2Proof.Machine.execRecoveryData off data s
  | .recoveryCommit => Sys2Proof.Machine.execRecoveryCommit s
  | .fwStage m b addr len => Sys2Proof.Machine.execFwStage m b addr len s
  | .fwActivate m component parts => Sys2Proof.Machine.execFwActivate m component parts s
  | .configWrite m img addr len => Sys2Proof.Machine.execConfigWrite m img addr len s
  | .configReport m addr len => Sys2Proof.Machine.execConfigReport m addr len s
  | .reset m k => Sys2Proof.Machine.execReset m k s
  | .calibApply m field v => Sys2Proof.Machine.execCalibApply m field v s
  | .stageStatus m => Sys2Proof.Machine.execStageStatus m s
  | .xspiSectorComplete => Sys2Proof.Machine.execXspiSectorComplete s
  | .managerCommandTimeout seq => Sys2Proof.Machine.execManagerCommandTimeout seq s
  | .hangScan => Sys2Proof.Machine.execHangScan s
  | .progressWatchdog berth n => Sys2Proof.Machine.execProgressWatchdog berth n s
  | .berthReset b trigger => Sys2Proof.Machine.execBerthReset b trigger s
  | .resetStep b pass => Sys2Proof.Machine.execResetStep b pass s
  | .coreReset g => Sys2Proof.Machine.execCoreReset g s
  | .harbourmasterReturn => Sys2Proof.Machine.execHarbourmasterReturn s
  | .suspectTrial c => Sys2Proof.Machine.execSuspectTrial c s
  | .suspectCleared c => Sys2Proof.Machine.execSuspectCleared c s
  | .portIsolated p => Sys2Proof.Machine.execPortIsolated p s
  | .dumpWrite => Sys2Proof.Machine.execDumpWrite s
  | .alarmNotify source => Sys2Proof.Machine.execAlarmNotify source s
  | .logRead m cls first addr len => Sys2Proof.Machine.execLogRead m cls first addr len s
  | .logAck m source => Sys2Proof.Machine.execLogAck m source s
  | .logRoute m sl tracing port => Sys2Proof.Machine.execLogRoute m sl tracing port s
  | .logDump m => Sys2Proof.Machine.execLogDump m s
  | .logConfig m evRate trRate notifyMs => Sys2Proof.Machine.execLogConfig m evRate trRate notifyMs s
  | .blRaise who v => Sys2Proof.Machine.execBlRaise who v s
  | .blClaim who t fast => Sys2Proof.Machine.execBlClaim who t fast s
  | .blComplete who t fast v => Sys2Proof.Machine.execBlComplete who t fast v s
  | .blTargetWrite who n v => Sys2Proof.Machine.execBlTargetWrite who n v s
  | .mbPost ch byHost frame => Sys2Proof.Machine.execMbPost ch byHost frame s
  | .mbTake ch byHost => Sys2Proof.Machine.execMbTake ch byHost s
  | .mbReply ch byHost v frame => Sys2Proof.Machine.execMbReply ch byHost v frame s
  | .mailboxTimeout ch => Sys2Proof.Machine.execMailboxTimeout ch s
  | .continue m => Sys2Proof.Machine.execContinue m s
  | .powerSet m c => Sys2Proof.Machine.execPowerSet m c s
  | .mailboxConfig m ch dir vector vecEn timeoutUs => Sys2Proof.Machine.execMailboxConfig m ch dir vector vecEn timeoutUs s
  | .sensorSample thermal n code => Sys2Proof.Machine.execSensorSample thermal n code s
  | .ceilingTick watts8 => Sys2Proof.Machine.execCeilingTick watts8 s
  | .powerGood d high => Sys2Proof.Machine.execPowerGood d high s
  | .berthGate b => Sys2Proof.Machine.execBerthGate b s
  | .drowseEntry => Sys2Proof.Machine.execDrowseEntry s
  | .drowseExit cause source => Sys2Proof.Machine.execDrowseExit cause source s
  | .anchorEntry => Sys2Proof.Machine.execAnchorEntry s
  | .hostActivity => Sys2Proof.Machine.execHostActivity s
  | .powerWarning => Sys2Proof.Machine.execPowerWarning s
  | .powerWarningClear => Sys2Proof.Machine.execPowerWarningClear s
  | .wdogKick v => Sys2Proof.Machine.execWdogKick v s
  | .wdogWarning => Sys2Proof.Machine.execWdogWarning s
  | .wdogExpiry => Sys2Proof.Machine.execWdogExpiry s
  | .counterClear c evs => Sys2Proof.Machine.execCounterClear c evs s
  | .tlBwctlWrite v => Sys2Proof.Machine.execTlBwctlWrite v s
  | .bandwidthWindowEnd => Sys2Proof.Machine.execBandwidthWindowEnd s
  | .viewUpdate sl => Sys2Proof.Machine.execViewUpdate sl s
  | .tallySet m c cfg => Sys2Proof.Machine.execTallySet m c cfg s
  | .tallyRead m cs => Sys2Proof.Machine.execTallyRead m cs s
  | .sampleSet m mask period wrap enable => Sys2Proof.Machine.execSampleSet m mask period wrap enable s
  | .sampleRead m b addr len => Sys2Proof.Machine.execSampleRead m b addr len s
  | .windowSet m windowUs partEn part => Sys2Proof.Machine.execWindowSet m windowUs partEn part s
  | .viewSet m sl va => Sys2Proof.Machine.execViewSet m sl va s
  | .paceRead m blocks => Sys2Proof.Machine.execPaceRead m blocks s
  | .holdCommandTimeout ch => Sys2Proof.Machine.execHoldCommandTimeout ch s
  | .linkTrainFail l => Sys2Proof.Machine.execLinkTrainFail l s
  | .prIdleDetFall l n => Sys2Proof.Machine.execPrIdleDetFall l n s
  | .spareLaneLocked l => Sys2Proof.Machine.execSpareLaneLocked l s

end Sys2Proof.Machine
end

