-- ==== Sys2Proof/Machine/Step.lean ====
section
/-! DEFINITION. One step: the command at the front of the queue acts; on an empty queue the always-on clock ticks. -/

namespace Sys2Proof.Machine

open Sys2Proof

/-- What the Hold controller does by itself: relocations that have waited share a page (R364), the Dredger senses (R371, R372), seals go on (R378), the epoch of a start is recorded (R400), and dumps that H0 cannot take are dropped (R380). -/
def Block.holdTick (b : Block) (e : Env) : Block :=
  let b := (List.range 16).foldl (fun b ch => (b.relocDue e ch).dredge e ch) b
  ((b.finishSeals e).recordEpoch e).dropDumps e

/-- What berths that yield do by themselves (R145, R148). -/
def Block.berthTick (b : Block) (e : Env) : Block := (List.range 16).foldl (fun b n => b.yieldTick e n) b

/-- One AONCLK cycle of 10 ns: the nanosecond counter runs on (R69, R513, R515; log 13: commands take no time); a bit of berth store may go wrong (R156, log 32); counters of cycles run on (R517, log 33); holders that have let go of what an invalidation marked are not waited for (R317), collectives whose data was bad end (R156), lists that have been read are taken (R282), exports whose image is out end (R352), and the next sector of the configuration memory begins (R82); the Hold controller and berths that yield go on; at a 1 ms boundary Tally takes what the tenant views show (R440, R526). -/
def tick (s : State) : State :=
  let t := { s with aon := { s.aon with ns := (s.aon.ns + 10) % 2 ^ 64 }, blk := s.blk.softError.cycleTally }
  let t := { t with blk := ((((t.blk.dropReleased t.env).readsDone t.env).endExports t.env).endBad t.env).nextSector t.env }
  let t := { t with blk := (t.blk.holdTick t.env).berthTick t.env }
  if t.aon.ns % 1000000 = 0 then { t with blk := t.blk.snapViews t.env } else t

/-- Take the command at the front of the queue and run it with the queue's rest; on an empty queue a manager command that has waited takes its turn (R329), or time passes. -/
def step (s : State) : Host.Outcome State Fault Refusal :=
  match s.pending with
  | [] => match s.blk.turn with
    | some (c, b) => exec c { s with blk := b }
    | none => .next (tick s)
  | c :: rest => exec c { s with pending := rest }

/-- The state with the command that a table word spells put at the front of its queue; the table gives no bits, so no word spells one. -/
def State.withFetchWord (s : State) (nbits w : Nat) : State :=
  match decodeTableWord nbits w with
  | some c => { s with pending := c :: s.pending }
  | none => s

end Sys2Proof.Machine
end

