-- ==== Sys2Proof/Safety.lean ====
section
/-! DEFINITION. What a safe step is, what a command leaves alone, and the situations in which the rules say a command has its effect: the terms the statements use. -/

namespace Sys2Proof.Machine

open Sys2Proof

/-- The step neither faults nor is refused. -/
def Safe (o : Host.Outcome State Fault Refusal) : Prop := ∃ t, o = .next t

/-- Every waiting command is well formed, those that wait with the Harbourmaster (R329) among them. -/
def State.queueWf (s : State) : Prop := ∀ c ∈ s.pending ++ s.blk.harbour.deferred, c.wf = true

/-- A command answers a next state that holds the block b and is otherwise unchanged: ties, fuses, the always-on counters and the queue. -/
def Gives (c : Instr) (s : State) (b : Block) : Prop := exec c s = .next { s with blk := b }

/-! ### Berth instructions -/

/-- An address of one of Tally's 1,024 berth counters or 256 block counters (R517, R521). -/
def tallyAddr (a : Nat) : Prop := (∃ i, i < 1024 ∧ a = RegKind.tlBcnt.addr i) ∨ ∃ i, i < 256 ∧ a = RegKind.tlGcnt.addr i

/-- What any issued instruction may change beside its own effect: Tally's counters, the draw counter, and of its own berth the trail, the time of progress, the sampling, the order of the cached lines and where its stream stands. -/
def IssueFrame (b b' : Block) (n : Nat) : Prop :=
  (∀ a, ¬ tallyAddr a → tget b'.regs a = tget b.regs a) ∧
  b' = { b with regs := b'.regs, berths := b'.berths, ports := { b.ports with draws := b'.ports.draws } } ∧
  (∀ m, m ≠ n → b'.berth m = b.berth m)

/-- A word of a row issues on berth n for the stream st (R133). -/
abbrev CanIssue (s : State) (n : Nat) (row : BRow) (w : IWord) (st : Stream) : Prop :=
  n < 16 ∧ isRow row w = true ∧ s.blk.issuer n = some st

/-- An instruction at offset pc lies in the code of the stream's image (R171). -/
abbrev Stream.inCode (st : Stream) (pc : Nat) : Prop := st.codeOff ≤ pc ∧ pc + 16 ≤ st.codeOff + st.codeLen

/-- What the instruction sees. -/
def State.cx (s : State) (n : Nat) (w : IWord) (st : Stream) : Cx :=
  ⟨s.env, n, st, w, decodeFields w, (s.blk.berth n).regs, (s.blk.berth n).me0.length, (s.blk.berth n).me1.length⟩

/-- The stream moved to offset pc: it waits where the instruction cache does not hold the line there (R124, R171). -/
def Stream.movedTo (st : Stream) (x : Berth) (pc : Nat) : Stream :=
  { st with pc := pc, wait := if x.hasLine st.prog (pc / 128) then none else some (.icache (pc / 128)) }

/-- The issued instruction leaves berth n with registers r and stream st', all else as `IssueFrame` says. -/
def Issued (s : State) (c : Instr) (n : Nat) (r : Regs) (st' : Stream) : Prop :=
  ∃ b', Gives c s b' ∧ (b'.berth n).regs = r ∧ (b'.berth n).stream = some st' ∧
    (b'.berth n).me0 = (s.blk.berth n).me0 ∧ (b'.berth n).me1 = (s.blk.berth n).me1 ∧ IssueFrame s.blk b' n

/-- The stream once an instruction has waited for the products under way in tiles it uses (R129, R131). -/
def Stream.tilesDone (st : Stream) (ts : List Nat) : Stream := { st with products := st.products.filter fun p => !ts.contains p.tile }

/-- Berth n quiesces for a save from offset pc, at a mask that meets a condition (R145); where its engines stand empty the save has begun, with the stream, its scalar registers, counters and predicates, and in full its store and, where no product is under way, its tiles. -/
abbrev Quiesces (b b' : Block) (n pc : Nat) (st : Stream) (ok : Option (Nat × Nat × Nat) → Prop) : Prop :=
  b'.bstate n = 4 ∧ (b'.berth n).regs = (b.berth n).regs ∧
  ((b'.berth n).saving = none → ∃ q, (b'.berth n).quiescing = some q ∧ q.pc = pc ∧ ok q.mask) ∧
  ((b.berth n).me0 = [] → (b.berth n).me1 = [] →
    ∃ sv, (b'.berth n).saving = some sv ∧ ok sv.mask ∧ (b'.berth n).yield = none ∧ (b'.berth n).quiescing = none ∧
      sv.stream = { st with pc := pc, products := sv.stream.products } ∧
      sv.regs.s = (b.berth n).regs.s ∧ sv.regs.c = (b.berth n).regs.c ∧ sv.regs.p = (b.berth n).regs.p ∧
      (sv.mask = none → sv.regs.v = (b.berth n).regs.v ∧ sv.regs.store = b.fullStore n ∧ (st.products = [] → sv.regs.tiles = (b.berth n).regs.tiles)))

/-- Nothing that the block does by itself is due: no mapping is being withdrawn, no list read, no collective ends, no command of the manager goes on, no unit of the Hold works, no berth yields. -/
def Block.calm (b : Block) : Prop :=
  b.pilot.invals = [] ∧ b.pilot.reading = [] ∧ b.fabric.colls = [] ∧ b.harbour.running = [] ∧ b.harbour.xspiGap = false ∧ b.harbour.stage ≠ some 2 ∧
  b.hold.dumpQueue = [] ∧ (∀ ch, ch < 16 → (b.chan ch).relocPage = [] ∧ ((b.chan ch).out = true ∨ (b.hstate (ch / 2) ≠ hsReady ∧ b.hstate (ch / 2) ≠ hsReadOnly))) ∧ ∀ n, n < 16 → (b.berth n).entry = none ∧ (b.berth n).quiescing = none

/-- Lanes of vRD written under the mask of R161: an active lane takes g, an inactive one keeps its value; every other lane, predicate, register, tile, counter and byte stays. -/
def LanesWritten (f : IFields) (r r' : Regs) (g : Nat → BitVec 32) : Prop :=
  (∀ l, l < 256 → r'.lane f.rd l = if (laneMask f r).getLsbD l then g l else r.lane f.rd l) ∧
  (∀ v l, v ≠ f.rd → l < 256 → r'.lane v l = r.lane v l) ∧ r' = { r with v := r'.v }

/-- The exception flags that lanes raise together (R114). -/
def flagsOf (f : IFields) (r : Regs) (g : Nat → VFlags) : VFlags := (activeLanes f r).foldl (fun m l => m ||| g l) 0

/-- A word of a row writes vRD lane by lane with g, ORs the lanes' flags into the stream's, and falls through. -/
def WritesLanes (s : State) (n : Nat) (w : IWord) (st : Stream) (c : Instr) (g : Nat → BitVec 32 × VFlags) : Prop :=
  let f := decodeFields w
  let r := (s.blk.berth n).regs
  ∃ r', Issued s c n r' ({ st with vflags := st.vflags ||| flagsOf f r fun l => (g l).2 }.movedTo (s.blk.berth n) (st.pc + 16)) ∧
    LanesWritten f r r' fun l => (g l).1

/-- The part of an operand from reduction index k on (R105). -/
def Operand.from (o : Operand) (k : Nat) : Operand :=
  { o with elem := fun i j => o.elem i (k + j), scale := fun i j => o.scale i (k / 32 + j) }

/-- Two tiles hold the same entries and the same status word (R95, R96). -/
def Tile.same (t u : Tile) : Prop :=
  (∀ i, i < 4096 → t.get i = u.get i) ∧ t.anchor = u.anchor ∧ t.status = u.status ∧ t.scaleWord = u.scaleWord

/-- A command hands berth n's engine k one more transfer, behind those queued, and the stream goes on; registers and stores of all berths keep their contents (R190). -/
def QueuesMove (s : State) (n : Nat) (st : Stream) (c : Instr) (k : Nat) (mv : Move) (store : Nat) (sh : Shape) (counter : Option Nat) : Prop :=
  ∃ b' t l, Gives c s b' ∧ (b'.berth n).eng k = l ++ [t] ∧ l.length = ((s.blk.berth n).eng k).length ∧
    t.mv = mv ∧ t.store = store ∧ t.rowLen = sh.row ∧ t.rows = sh.rows ∧ t.storeStride = sh.sstride ∧ t.farStride = sh.fstride ∧
    t.counter = counter ∧ t.serial = (s.blk.berth n).nextSerial ∧ (b'.berth n).nextSerial = (s.blk.berth n).nextSerial + 1 ∧
    (∃ st', (b'.berth n).stream = some st' ∧ st'.pc = st.pc + 16) ∧ ∀ m, (b'.berth m).regs = (s.blk.berth m).regs

/-- An alarm of this code and unit stands in Logbook's table with an occurrence not yet notified (R485). -/
def Block.alarmed (b : Block) (code kind idx : Nat) : Prop :=
  ∃ a ∈ b.log.alarms, a.code = code ∧ a.unitKind = kind ∧ a.unitIdx = idx ∧ a.owed = true ∧ 1 ≤ a.unacked

/-! ### Completion records, the admin queue -/

/-- The block sends one record into a queue's completion ring, at the slot and with the phase of its position (R272, R280); other messages may stand before and behind it. -/
def RecordSent (s : State) (b' : Block) (qn : Nat) (q : Queue) (pos tag ctx st detail result : Nat) : Prop :=
  ∃ pre post r a, b'.host.out = s.blk.host.out ++ pre ++ HostMsg.record qn (q.cqTail % 2 ^ q.m) a q.slice r :: post ∧
    r.tag = tag ∧ r.ctx = ctx ∧ r.status = st ∧ r.detail = detail ∧ r.result = result ∧ r.sqHead = pos % 65536 ∧
    r.phase = decide (q.cqTail / 2 ^ q.m % 2 = 0) ∧ r.time = s.aon.ns / 1000 % 2 ^ 48

/-- A queue can take a record: it is live, its completion ring has room and no record waits before. -/
abbrev Queue.takes (q : Queue) : Prop := q.st = .live ∧ q.full = false ∧ q.held = []

/-- The next record of a queue can be written to host memory at once (R268, R272, R334): the queue takes one, none of its records waits in a lane, its ring's stamp is fresh and writable there, and its partition's OTHER bucket at the host port holds the 32 bytes with nothing waiting before. -/
abbrev Block.recordReady (b : Block) (e : Env) (qn : Nat) (q : Queue) : Prop :=
  q.takes ∧ b.recordWaits qn = false ∧ ((b.recordPlace q).any fun x => decide (x.2.cls ≠ 0)) = true ∧
  (b.takeOther e (b.slicePart q.slice) 27 32).isSome = true

/-- A table holds a at k, at the place where rising keys have it. -/
abbrev Placed {α : Type} (t : Table α) (k : Nat) (a : α) : Prop := tput t k a = t

/-- The slice's admin queue is qn, the next admin command with header h is fetched and passes the checks of its header (R282, R283, R295), and its record can be written at once. -/
abbrev AdminReady (s : State) (sl : Nat) (h : CmdHdr) (qn : Nat) (q : Queue) : Prop :=
  s.blk.findQueue sl 0 = some (qn, q) ∧ Placed s.blk.quay.queues qn q ∧ s.blk.canFetch s.env qn q false = true ∧
  s.blk.ctxCheck sl 0 h.ctx = none ∧ h.ext = false ∧ h.nbuf ≤ 8 ∧ s.blk.recordReady s.env qn q

/-- An admin command leaves the block b' and completes at once with a status and a result (R295). -/
def AdminGives (c : Instr) (s : State) (h : CmdHdr) (qn : Nat) (q : Queue) (st result : Nat) (b' : Block) : Prop :=
  Gives c s b' ∧ RecordSent s b' qn q ((q.fetch + 1) % (2 * 2 ^ q.n)) h.tag h.ctx st 0 result

/-- A stamping task is with Pilot: it waits for a stream, or stands in one (R306). -/
def Block.stamping (b : Block) (t : StampTask) : Prop :=
  t ∈ b.pilot.waiting ∨ ∃ k x, tget b.pilot.streams k = some x ∧ x.why = t.why ∧ x.slice = t.slice ∧ x.ctx = t.ctx ∧ x.needs = t.needs

/-- What Quay does with a fetched command of a queue's class that passes its checks: a new command with its header, body and buffers stands in the table, the fetch position moves past its slots (R272, R276, R282). -/
def Fetches (c : Instr) (s : State) (qn : Nat) (q : Queue) (f : Fetched) (body : Body) : Prop :=
  ∃ b' x y, Gives c s b' ∧ tget b'.quay.cmds s.blk.quay.nextCmd = some x ∧ x.hdr = f.hdr ∧ x.body = body ∧ x.q = qn ∧ x.slice = q.slice ∧
    x.bufs = f.bufs.take f.hdr.nbuf ∧ b'.quay.nextCmd = s.blk.quay.nextCmd + 1 ∧
    tget b'.quay.queues qn = some y ∧ y.fetch = (q.fetch + slotsOf f.hdr.ext) % (2 * 2 ^ q.n)

/-! ### SERVE commands -/

/-- A command is a SERVE command whose turn may come. -/
def servesNow (x : Cmd) : Bool := x.ph = .waiting && match x.body with | .serve _ _ _ _ => true | _ => false

/-- The SERVE command is fetched as the command c, nothing is left to stamp, its waits are satisfied, no other SERVE command waits, and what it reads is stamped afresh (R236, R274, R282, R283, R315); m is the block and x the command at its turn. -/
abbrev ServeTurn (s : State) (q : Nat) (f : Fetched) (body : Body) (c : Nat) (x : Cmd) (m : Block) : Prop :=
  m = (s.blk.fetchCmd s.env q f body).settleWaits ∧ x.body = body ∧ m.candidate c x = true ∧ Placed m.quay.cmds c x ∧
  (m.quay.cmds.filter fun y => servesNow y.2) = [(c, x)] ∧ m.serveFresh c x = true

/-- The command c of the block has ended with a status (R281). -/
def Block.endedWith (b : Block) (c st : Nat) : Prop := ∃ z, tget b.quay.cmds c = some z ∧ z.ph = .ended ∧ z.status = st

/-! ### Manager commands -/

/-- A manager command's session and frame, and its opcode; none for the other rows. -/
def mgrOf (c : Instr) : Option (Mgr × Nat) :=
  match c with
  | .modeSet m _ => some (m, 0x0101)
  | .partitionCreate m _ _ => some (m, 0x0102)
  | .partitionDestroy m _ => some (m, 0x0103)
  | .partitionResize m _ _ _ => some (m, 0x0104)
  | .regulatorSet m _ _ _ _ _ _ => some (m, 0x0105)
  | .sliceCreate m _ => some (m, 0x0106)
  | .sliceResize m _ _ _ => some (m, 0x0107)
  | .sliceQuiesce m _ _ _ => some (m, 0x0108)
  | .sliceUnquiesce m _ => some (m, 0x0109)
  | .sliceRemove m _ => some (m, 0x010A)
  | .sliceExport m _ _ _ _ => some (m, 0x010B)
  | .sliceImport m _ _ _ _ _ _ _ => some (m, 0x010C)
  | .schedSet m _ _ _ _ _ => some (m, 0x010D)
  | .leaseAcquire m _ => some (m, 0x0201)
  | .leaseRenew m _ => some (m, 0x0202)
  | .leaseRelease m => some (m, 0x0203)
  | .sliceReport m _ _ _ _ => some (m, 0x0204)
  | .blockReport m _ _ _ => some (m, 0x0205)
  | .migrationKey m _ _ => some (m, 0x0206)
  | .rollbackCommit m _ => some (m, 0x0207)
  | .debugUnlock m => some (m, 0x0208)
  | .objCreate m _ _ _ => some (m, 0x0301)
  | .objSeal m _ => some (m, 0x0302)
  | .objDelete m _ => some (m, 0x0303)
  | .objGrant m _ _ _ _ => some (m, 0x0304)
  | .objRevoke m _ _ => some (m, 0x0305)
  | .objInfo m _ => some (m, 0x0306)
  | .holdStatus m _ => some (m, 0x0307)
  | .dumpRead m _ _ _ => some (m, 0x0308)
  | .holdConfig m _ => some (m, 0x0309)
  | .windowOpen m _ => some (m, 0x0401)
  | .windowClose m _ => some (m, 0x0402)
  | .windowInfo m _ => some (m, 0x0403)
  | .groupSet m _ => some (m, 0x0404)
  | .groupFree m _ => some (m, 0x0405)
  | .peerEpoch m _ _ => some (m, 0x0406)
  | .linkConfig m _ _ _ _ _ _ => some (m, 0x0407)
  | .ping m _ => some (m, 0x0408)
  | .fwStage m _ _ _ => some (m, 0x0501)
  | .fwActivate m _ _ => some (m, 0x0502)
  | .configWrite m _ _ _ => some (m, 0x0503)
  | .configReport m _ _ => some (m, 0x0504)
  | .reset m _ => some (m, 0x0505)
  | .calibApply m _ _ => some (m, 0x0506)
  | .stageStatus m => some (m, 0x0507)
  | .powerSet m _ => some (m, 0x0508)
  | .mailboxConfig m _ _ _ _ _ => some (m, 0x0509)
  | .tallySet m _ _ => some (m, 0x0601)
  | .tallyRead m _ => some (m, 0x0602)
  | .sampleSet m _ _ _ _ => some (m, 0x0603)
  | .sampleRead m _ _ _ => some (m, 0x0604)
  | .windowSet m _ _ _ => some (m, 0x0605)
  | .viewSet m _ _ => some (m, 0x0606)
  | .paceRead m _ => some (m, 0x0607)
  | .logRead m _ _ _ _ => some (m, 0x0681)
  | .logAck m _ => some (m, 0x0682)
  | .logRoute m _ _ _ => some (m, 0x0683)
  | .logDump m => some (m, 0x0684)
  | .logConfig m _ _ _ => some (m, 0x0685)
  | .modelRegister m _ _ _ => some (m, 0x0701)
  | .modelRetire m _ => some (m, 0x0702)
  | .fallbackSet m _ _ => some (m, 0x0703)
  | .serveConfig m _ _ _ _ _ _ => some (m, 0x0704)
  | .dirtyStart m _ _ _ _ _ => some (m, 0x0801)
  | .dirtyHarvest m _ => some (m, 0x0802)
  | .dirtyStop m _ => some (m, 0x0803)
  | _ => none

/-- The Harbourmaster is up, and the command may be executed for its session (R425, R427, R455). -/
abbrev MgrReady (s : State) (m : Mgr) (op : Nat) : Prop := s.blk.harbour.down = false ∧ s.blk.mayCommand s.env m op = true

/-- MgrReady for the range 0x01xx, of which no command is in progress, or waits before this one (R329). -/
abbrev PartReady (s : State) (m : Mgr) (op : Nat) (ts : List Nat) : Prop :=
  MgrReady s m op ∧ s.blk.touched ts = false ∧ s.blk.inProgress = false ∧ (s.blk.harbour.inTurn = true ∨ s.blk.harbour.deferred = [])

/-- A manager command leaves the block b', whose last reply is its own (R25, R505). -/
def MgrGives (c : Instr) (s : State) (ret : Nat) (data : List Nat) (b' : Block) : Prop :=
  ∃ m op, mgrOf c = some (m, op) ∧ Gives c s b' ∧ b'.harbour.replies = s.blk.harbour.replies ++ [⟨m.session, m.seq, op, ret, data⟩]

/-- No register but those of the named kinds differs. -/
def regsBut (ks : List RegKind) (b b' : Block) : Prop := ∀ k i, k ∉ ks → i < k.count → b'.reg k i = b.reg k i

/-! ### What every step keeps -/

/-- The fuses hold what fu held, and no rollback counter is lower (R417, R423). -/
def Fuses.from (fu gu : Fuses) : Prop :=
  gu = { fu with svnHm := gu.svnHm, svnCore := gu.svnCore, svnUcode := gu.svnUcode } ∧
  fu.svnHm ≤ gu.svnHm ∧ fu.svnCore ≤ gu.svnCore ∧ fu.svnUcode ≤ gu.svnUcode

/-- The instance's ties stand, its fuses only advance, the epoch is 1 to 255 (R400), every waiting command is well formed. -/
def State.Inv (ti : Ties) (fu : Fuses) (s : State) : Prop :=
  s.ties = ti ∧ fu.from s.fuses ∧ 1 ≤ s.aon.epoch ∧ s.aon.epoch ≤ 255 ∧ s.queueWf

end Sys2Proof.Machine
end

