-- ==== Sys2Proof/Certificates/Slice0/Obligations.lean ====
section
/-! DEFINITION. The statements for the provers: what the numbered rules of spec/ say the commands of the block do. -/

open Sys2Proof Sys2Proof.Machine

/-! ### The queue of commands, time, reset -/

/-- The block's step takes the command at the front of the queue and is exec of it on the state with the queue's rest (the model's queue, log 13). -/
def Obligations.StepRunsFrontCommand : Prop :=
  ∀ (s : State) (c : Instr) (rest : List Instr),
    Sys2Proof.Machine.step { s with pending := c :: rest } = Sys2Proof.Machine.exec c { s with pending := rest }

/-- On an empty queue a manager command that waits for the one in progress takes its turn (R329); else one cycle of the 100 MHz always-on clock passes: WK_NS advances by 10 (R69, R513; the model's choice of what an empty queue does, log 13). In a block where nothing is due that it does by itself (withdrawn mappings, lists read, collectives and manager commands that end, the Hold's own work, yields), everything else stays but, at a 1 ms boundary, what Tally has taken for the tenant views (R440, R526), the draw counter, the counters of Tally, which count cycles (R517; by how much is free, log 33), and bits of berth store and entries of tiles that may go wrong (R132, R156; the model's choice of when, log 32): no word has fewer bits in error, no stuck word is forgotten, no tile loses its parity error, and nothing else of a tile or a berth differs. -/
def Obligations.EmptyQueueIsOneClockCycle : Prop :=
  ∀ s : State, s.pending = [] →
    (∀ c b, s.blk.turn = some (c, b) → Sys2Proof.Machine.step s = Sys2Proof.Machine.exec c { s with blk := b }) ∧
    (s.blk.turn = none → ∃ t, Sys2Proof.Machine.step s = .next t ∧ t.aon.ns = (s.aon.ns + 10) % 2 ^ 64 ∧ t.aon.epoch = s.aon.epoch ∧
      t.ties = s.ties ∧ t.fuses = s.fuses ∧ t.pending = [] ∧ (s.blk.calm →
      (t.aon.ns % 1000000 ≠ 0 → t.blk.tally = s.blk.tally) ∧
      t.blk = { s.blk with
        ports := { s.blk.ports with draws := t.blk.ports.draws }, tally := { s.blk.tally with snaps := t.blk.tally.snaps }
        regs := t.blk.regs, berths := t.blk.berths } ∧
      regsBut [.tlBcnt, .tlGcnt] s.blk t.blk ∧
      ∀ n,
        let x := s.blk.berth n
        let y := t.blk.berth n
        y = { x with badBits := y.badBits, stuckBits := y.stuckBits, regs := { x.regs with tiles := y.regs.tiles } } ∧
        (∀ i, y.regs.tile i = { x.regs.tile i with badEntries := (y.regs.tile i).badEntries } ∧
          ∀ j ∈ (x.regs.tile i).badEntries, j ∈ (y.regs.tile i).badEntries) ∧
        (∀ w, tgetD x.badBits w 0 ≤ tgetD y.badBits w 0) ∧ ∀ w ∈ x.stuckBits, w ∈ y.stuckBits))

/-- Right after PORST_N (R70, R515): every control-space register holds its reset value, WK_NS is 0, the epoch is 1 (R416), the service level is CLOSED (R459), every berth is scrubbed and gated, no slice, context, queue, fence, stamp, object, window or command exists, and no command waits. -/
def Obligations.ResetLeavesEverythingAtItsResetValue : Prop :=
  let s := State.reset
  (∀ (k : RegKind) (i : Nat), s.blk.reg k i = k.resetWord) ∧ s.aon.ns = 0 ∧ s.aon.epoch = 1 ∧ s.blk.rd F.GLB_SERVICE_LEVEL = 0 ∧
  (∀ n, s.blk.berth n = Berth.reset ∧ s.blk.bstate n = bsGated) ∧
  s.blk.quay.slices = [] ∧ s.blk.quay.ctxs = [] ∧ s.blk.quay.queues = [] ∧ s.blk.quay.fences = [] ∧ s.blk.quay.cmds = [] ∧
  s.blk.pilot.stamps = [] ∧ s.blk.hold.objs = [] ∧ s.blk.fabric.windows = [] ∧ s.pending = []

/-! ### Berth instructions -/

/-- CTRL class (R168 to R171): nop falls through; br goes to the instruction's offset plus 16 × IMM_LO; brc goes there when its condition holds and falls through otherwise; loop takes its count down and goes back, or exits with 0; end stops issue. Registers other than loop's sRA stay. Control that reaches an offset outside the code, by a branch, a back edge or falling through, ends the command with ILLEGAL_INSTRUCTION there (of an offset below 0, which the model does not hold, only that it ends it); so does a back edge that would make a ninth loop entry, which has no effect. -/
def Obligations.ControlInstructionsMoveTheStream : Prop :=
  ∀ (s : State) (n : Nat) (w : IWord) (st : Stream) (cmd : Cmd),
    let f := decodeFields w
    let r := (s.blk.berth n).regs
    let x := s.blk.berth n
    let tgt : Int := (st.pc : Int) + 16 * (f.imm.setWidth 32).toInt
    let inside (v : Int) (l : Nat × Nat) : Bool := decide ((min l.1 l.2 : Nat) ≤ v ∧ v ≤ (max l.1 l.2 : Nat))
    let kept := st.loops.filter fun l => !(inside st.pc l && !inside tgt l)
    let y := if f.fl13 then ((f.imm >>> 32).setWidth 32).signExtend 64 else r.sreg f.rb
    let a := r.sreg f.ra
    let holds : Bool := match f.fn with
      | 0 => a = y | 1 => a ≠ y | 2 => a.slt y | 3 => !a.slt y | 4 => a.ult y | _ => !a.ult y
    let known := st.loops.any fun l => l.1 = st.pc
    let stopsAt (c : Instr) (r' : Regs) (pc : Int) (reason : Nat) : Prop :=
      ∃ b' st' cmd', Gives c s b' ∧ (b'.berth n).regs = r' ∧ (b'.berth n).stream = some st' ∧ st'.stopped = true ∧ (0 ≤ pc → st'.pc = pc.toNat) ∧
        tget b'.quay.cmds st.job = some cmd' ∧ cmd'.status = 0x60 ∧ cmd'.detail = reason
    (CanIssue s n .nop w st → f.pe = false → f.op = 0 → st.inCode (st.pc + 16) →
      Issued s (.nop n w) n r (st.movedTo x (st.pc + 16))) ∧
    (CanIssue s n .br w st → f.pe = false → 0 ≤ tgt → st.inCode tgt.toNat →
      Issued s (.br n w) n r ({ st with loops := kept }.movedTo x tgt.toNat)) ∧
    (CanIssue s n .brc w st → f.pe = false → f.fn ≤ 5 → holds = true → 0 ≤ tgt → st.inCode tgt.toNat →
      Issued s (.brc n w) n r ({ st with loops := kept }.movedTo x tgt.toNat)) ∧
    (CanIssue s n .brc w st → f.pe = false → f.fn ≤ 5 → holds = false → st.inCode (st.pc + 16) →
      Issued s (.brc n w) n r (st.movedTo x (st.pc + 16))) ∧
    (CanIssue s n .loop w st → f.pe = false → a.toNat ≤ 1 → st.inCode (st.pc + 16) →
      Issued s (.loop n w) n (r.setS f.ra 0) ({ st with loops := st.loops.filter fun l => l.1 ≠ st.pc }.movedTo x (st.pc + 16))) ∧
    (CanIssue s n .loop w st → f.pe = false → 1 < a.toNat → known = true ∨ st.loops.length < 8 → 0 ≤ tgt → st.inCode tgt.toNat →
      Issued s (.loop n w) n (r.setS f.ra (a - 1))
        ({ st with loops := if known then st.loops else st.loops ++ [(st.pc, tgt.toNat)] }.movedTo x tgt.toNat)) ∧
    (CanIssue s n .endStream w st → f.pe = false → Issued s (.endStream n w) n r { st with ended := true }) ∧
    (tget s.blk.quay.cmds st.job = some cmd → cmd.status = 0 → f.pe = false →
      (CanIssue s n .nop w st → f.op = 0 → ¬ st.inCode (st.pc + 16) → stopsAt (.nop n w) r (st.pc + 16) 0x0C) ∧
      (CanIssue s n .br w st → ¬ (0 ≤ tgt ∧ st.inCode tgt.toNat) → stopsAt (.br n w) r tgt 0x0C) ∧
      (CanIssue s n .brc w st → f.fn ≤ 5 → holds = true → ¬ (0 ≤ tgt ∧ st.inCode tgt.toNat) → stopsAt (.brc n w) r tgt 0x0C) ∧
      (CanIssue s n .loop w st → 1 < a.toNat → known = true ∨ st.loops.length < 8 → ¬ (0 ≤ tgt ∧ st.inCode tgt.toNat) →
        stopsAt (.loop n w) (r.setS f.ra (a - 1)) tgt 0x0C) ∧
      (CanIssue s n .loop w st → 1 < a.toNat → known = false → 8 ≤ st.loops.length → stopsAt (.loop n w) r st.pc 0x0B))

/-- SCALAR arithmetic (R172, R173): salu writes sRD by its function code from sRA and sRB or the immediate; smul gives the low half, the high half of the signed or of the unsigned product; sdiv gives quotient or remainder, truncated toward zero, with all ones and the dividend for a divisor of 0. sRD = s0 discards the result (R122). -/
def Obligations.ScalarArithmeticWritesItsResult : Prop :=
  ∀ (s : State) (n : Nat) (w : IWord) (st : Stream),
    let f := decodeFields w
    let r := (s.blk.berth n).regs
    let x := s.blk.berth n
    let a := r.sreg f.ra
    let y := if f.fl13 then f.imm else r.sreg f.rb
    let z := r.sreg f.rb
    let salu : List Word := [a + y, a - y, a &&& y, a ||| y, a ^^^ y, a <<< (y.toNat % 64), a >>> (y.toNat % 64),
      a.sshiftRight (y.toNat % 64), if a.slt y then 1 else 0, if a.ult y then 1 else 0,
      if a.slt y then a else y, if a.slt y then y else a, if a.ult y then a else y, if a.ult y then y else a]
    let smul : List Word := [a * z, BitVec.ofInt 64 ((a.toInt * z.toInt).fdiv (2 ^ 64)), BitVec.ofNat 64 (a.toNat * z.toNat / 2 ^ 64)]
    let sdiv : List Word := if z = 0 then [BitVec.allOnes 64, BitVec.allOnes 64, a, a]
      else [BitVec.ofInt 64 (a.toInt.tdiv z.toInt), a / z, BitVec.ofInt 64 (a.toInt.tmod z.toInt), a % z]
    f.pe = false → st.inCode (st.pc + 16) →
    (∀ v, CanIssue s n .salu w st → salu[f.fn]? = some v → Issued s (.salu n w) n (r.setS f.rd v) (st.movedTo x (st.pc + 16))) ∧
    (∀ v, CanIssue s n .smul w st → smul[f.fn]? = some v → Issued s (.smul n w) n (r.setS f.rd v) (st.movedTo x (st.pc + 16))) ∧
    (∀ v, CanIssue s n .sdiv w st → sdiv[f.fn]? = some v → Issued s (.sdiv n w) n (r.setS f.rd v) (st.movedTo x (st.pc + 16)))

/-- nmov and sget (R175, R176): nmov reads an anchor register sign-extended, or writes one whose tile is empty from a value in −512 to 511; sget reads a tile's status word or scale word, the exception flags (FN 3 also clears them), the rank, the number of streams, an argument word (0 where none was given). -/
def Obligations.SpecialReadsGiveTheNamedItem : Prop :=
  ∀ (s : State) (n : Nat) (w : IWord) (st : Stream),
    let f := decodeFields w
    let r := (s.blk.berth n).regs
    let x := s.blk.berth n
    let i := f.imm.toNat % 2 ^ 32
    let go := st.movedTo x (st.pc + 16)
    let item : List Word := [(r.tile i).status, (r.tile i).scaleWord, st.vflags.setWidth 64, st.vflags.setWidth 64,
      BitVec.ofNat 64 st.rank, BitVec.ofNat 64 st.streams, st.args.getD i 0]
    f.pe = false → st.inCode (st.pc + 16) →
    (CanIssue s n .nmov w st → f.fn = 0 → f.ra < 16 →
      Issued s (.nmov n w) n (r.setS f.rd ((r.tile f.ra).anchor.signExtend 64)) go) ∧
    (CanIssue s n .nmov w st → f.fn = 1 → f.rd < 16 → (r.tile f.rd).empty = true →
      -512 ≤ (r.sreg f.ra).toInt → (r.sreg f.ra).toInt ≤ 511 →
      Issued s (.nmov n w) n (r.setTile f.rd { r.tile f.rd with anchor := (r.sreg f.ra).setWidth 10 }) go) ∧
    (∀ v, CanIssue s n .sget w st → (f.fn = 0 ∨ f.fn = 1 ∨ f.fn = 6 → i ≤ 15) → item[f.fn]? = some v →
      Issued s (.sget n w) n (r.setS f.rd v) (if f.fn = 3 then { st with vflags := 0 }.movedTo x (st.pc + 16) else if f.fn ≤ 1 then (st.tilesDone [i]).movedTo x (st.pc + 16) else go))

/-- Scalar accesses to the berth store (R125, R163, R174, R156): sld reads and sst writes the 8 bytes at sRA + IMM_LO, little-endian, in a store without errors; sst leaves every other byte of the berth's store alone, and every byte of every other berth. -/
def Obligations.ScalarAccessesReachEightBytes : Prop :=
  ∀ (s : State) (n : Nat) (w : IWord) (st : Stream),
    let f := decodeFields w
    let r := (s.blk.berth n).regs
    let x := s.blk.berth n
    let rm := s.blk.remaps n
    let ea : Int := ((r.sreg f.ra).toNat : Int) + (f.imm.setWidth 32).toInt
    f.pe = false → st.inCode (st.pc + 16) → x.badBits = [] → (r.sreg f.ra).toNat < 2 ^ 25 → 0 ≤ ea → ea % 8 = 0 → ea + 8 ≤ 0x1400000 →
    (CanIssue s n .sld w st →
      Issued s (.sld n w) n (r.setS f.rd (BitVec.ofNat 64 (ofLeBytes ((List.range 8).map fun i => s.blk.loadByte n rm (ea.toNat + i)))))
        (st.movedTo x (st.pc + 16))) ∧
    (CanIssue s n .sst w st → Memory.wf r.store →
      ∃ b', Gives (.sst n w) s b' ∧ IssueFrame s.blk b' n ∧ (b'.berth n).stream = some (st.movedTo x (st.pc + 16)) ∧
        (b'.berth n).regs = { r with store := (b'.berth n).regs.store } ∧ Memory.wf (b'.berth n).regs.store ∧
        (∀ i, i < 8 → b'.loadByte n rm (ea.toNat + i) = (r.sreg f.rb).extractLsb' (8 * i) 8) ∧
        (∀ a, a < ea.toNat ∨ ea.toNat + 8 ≤ a → b'.loadByte n rm a = s.blk.loadByte n rm a))

/-- An instruction that fails a check has no effect but the stop (R204): the job's command takes status ILLEGAL_INSTRUCTION with the reason in DETAIL, its streams stop, event ILLEGAL names offset, opcode and reason; registers and store of the berth keep their values. Here: the function codes, register fields and formats of the scalar and vector arithmetic rows. -/
def Obligations.IllegalInstructionsStopTheJob : Prop :=
  ∀ (s : State) (n : Nat) (w : IWord) (st : Stream) (cmd : Cmd),
    let f := decodeFields w
    let reason : BRow → Nat → Prop := fun row k =>
      match row with
      | .salu => if f.pe then k = 0x03 else 13 < f.fn ∧ k = 0x05
      | .smul => if f.pe then k = 0x03 else 2 < f.fn ∧ k = 0x05
      | .sdiv => if f.pe then k = 0x03 else 3 < f.fn ∧ k = 0x05
      | .vadd | .vsub | .vmul | .vmin | .vmax => if 32 ≤ f.rd ∨ 32 ≤ f.ra ∨ 32 ≤ f.rb then k = 0x02 else f.fa ≠ 0xB ∧ f.fa ≠ 0x8 ∧ k = 0x04
      | .nop => f.op ≠ 0 ∧ k = 0x01
      | _ => False
    let stops (c : Instr) (k : Nat) : Prop :=
      ∃ b', Gives c s b' ∧ (b'.berth n).regs = (s.blk.berth n).regs ∧
        (∃ st', (b'.berth n).stream = some st' ∧ st'.stopped = true ∧ st'.pc = st.pc) ∧
        (∃ cmd', tget b'.quay.cmds st.job = some cmd' ∧ cmd'.status = 0x60 ∧ cmd'.detail = k)
    tget s.blk.quay.cmds st.job = some cmd → cmd.status = 0 →
    (∀ k, CanIssue s n .salu w st → reason .salu k → stops (.salu n w) k) ∧
    (∀ k, CanIssue s n .smul w st → reason .smul k → stops (.smul n w) k) ∧
    (∀ k, CanIssue s n .sdiv w st → reason .sdiv k → stops (.sdiv n w) k) ∧
    (∀ k, CanIssue s n .vadd w st → reason .vadd k → stops (.vadd n w) k) ∧
    (∀ k, CanIssue s n .vsub w st → reason .vsub k → stops (.vsub n w) k) ∧
    (∀ k, CanIssue s n .vmul w st → reason .vmul k → stops (.vmul n w) k) ∧
    (∀ k, CanIssue s n .vmin w st → reason .vmin k → stops (.vmin n w) k) ∧
    (∀ k, CanIssue s n .vmax w st → reason .vmax k → stops (.vmax n w) k) ∧
    (∀ k, CanIssue s n .nop w st → reason .nop k → stops (.nop n w) k)
/-- VECTOR arithmetic (R183, R161): vadd, vsub, vmul, vfma, vmin and vmax act lane by lane on FP32 lanes, or on the two BF16 halves of each lane; inactive lanes keep their values and raise no flag; the lanes' exception flags are ORed into the stream's. -/
def Obligations.VectorArithmeticActsOnActiveLanes : Prop :=
  ∀ (s : State) (n : Nat) (w : IWord) (st : Stream),
    let f := decodeFields w
    let r := (s.blk.berth n).regs
    let lanes (g : FpFmt → Nat → Nat → Nat → Nat × VFlags) : Nat → BitVec 32 × VFlags := fun l =>
      let a := (r.lane f.ra l).toNat
      let b := (r.lane f.rb l).toNat
      let c := (r.lane f.rc l).toNat
      if f.fa = 0xB then (BitVec.ofNat 32 (g fpFP32 a b c).1, (g fpFP32 a b c).2)
      else
        let lo := g fpBF16 (a % 65536) (b % 65536) (c % 65536)
        let hi := g fpBF16 (a / 65536) (b / 65536) (c / 65536)
        (BitVec.ofNat 32 (lo.1 + 65536 * hi.1), lo.2 ||| hi.2)
    st.inCode (st.pc + 16) → f.rd < 32 → f.ra < 32 → f.rb < 32 → f.fa = 0xB ∨ f.fa = 0x8 →
    (CanIssue s n .vadd w st → WritesLanes s n w st (.vadd n w) (lanes fun m a b _ => fpAdd m a b)) ∧
    (CanIssue s n .vsub w st → WritesLanes s n w st (.vsub n w) (lanes fun m a b _ => fpSub m a b)) ∧
    (CanIssue s n .vmul w st → WritesLanes s n w st (.vmul n w) (lanes fun m a b _ => fpMul m a b)) ∧
    (CanIssue s n .vfma w st → f.rc < 32 → WritesLanes s n w st (.vfma n w) (lanes fun m a b c => fpFma m a b c)) ∧
    (CanIssue s n .vmin w st → WritesLanes s n w st (.vmin n w) (lanes fun m a b _ => fpMinMax m false a b)) ∧
    (CanIssue s n .vmax w st → WritesLanes s n w st (.vmax n w) (lanes fun m a b _ => fpMinMax m true a b))

/-- Lane moves (R184, R185, R187, R161): vcvt FN 4 to 6 rounds lanes to integral values; vsel picks vRA or vRB by the predicate FN names; vbcast copies the low half of sRA to the active lanes; vlane copies one lane, zero-extended, to sRD; vred gives sRD the maximum or minimum of the active lanes. -/
def Obligations.LaneMovesAndSelections : Prop :=
  ∀ (s : State) (n : Nat) (w : IWord) (st : Stream),
    let f := decodeFields w
    let r := (s.blk.berth n).regs
    let x := s.blk.berth n
    let go := st.movedTo x (st.pc + 16)
    st.inCode (st.pc + 16) →
    (CanIssue s n .vcvt w st → f.rd < 32 → f.ra < 32 → f.fn = 4 ∨ f.fn = 5 ∨ f.fn = 6 →
      WritesLanes s n w st (.vcvt n w) fun l =>
        (BitVec.ofNat 32 (fpIntegral f.fn (r.lane f.ra l).toNat).1, (fpIntegral f.fn (r.lane f.ra l).toNat).2)) ∧
    (CanIssue s n .vcvt w st → f.rd < 32 → f.ra < 32 → f.rb < 32 → f.fn = 0 ∨ f.fn = 1 →
      let fmt := if f.fn = 0 then fpBF16 else fpFP16
      let el (k : Nat) := fpNarrow fmt (if k < 256 then (r.lane f.ra k).toNat else (r.lane f.rb (k - 256)).toNat)
      WritesLanes s n w st (.vcvt n w) fun l =>
        (BitVec.ofNat 32 ((el (2 * l)).1 + 65536 * (el (2 * l + 1)).1), (el (2 * l)).2 ||| (el (2 * l + 1)).2)) ∧
    (CanIssue s n .vcvt w st → f.rd < 32 → f.ra < 32 → f.fn = 2 ∨ f.fn = 3 →
      let fmt := if f.fn = 2 then fpBF16 else fpFP16
      let el (k : Nat) := (r.lane f.ra (k / 2)).toNat / 2 ^ (16 * (k % 2)) % 65536
      WritesLanes s n w st (.vcvt n w) fun l =>
        (BitVec.ofNat 32 (fpWiden fmt (el (256 * (f.imm.toNat % 2) + l))).1, (fpWiden fmt (el (256 * (f.imm.toNat % 2) + l))).2)) ∧
    (CanIssue s n .vsel w st → f.rd < 32 → f.ra < 32 → f.rb < 32 → f.fn < 8 →
      WritesLanes s n w st (.vsel n w) fun l => (if (r.preg f.fn).getLsbD l then r.lane f.ra l else r.lane f.rb l, 0)) ∧
    (CanIssue s n .vbcast w st → f.rd < 32 → WritesLanes s n w st (.vbcast n w) fun _ => ((r.sreg f.ra).setWidth 32, 0)) ∧
    (CanIssue s n .vlane w st → f.ra < 32 →
      Issued s (.vlane n w) n (r.setS f.rd ((r.lane f.ra (f.imm.toNat % 256)).setWidth 64)) go) ∧
    (CanIssue s n .vred w st → f.ra < 32 → f.fn ≤ 1 →
      let red := fpReduce (f.fn = 0) ((activeLanes f r).map fun l => (r.lane f.ra l).toNat)
      Issued s (.vred n w) n (r.setS f.rd (BitVec.ofNat 64 red.1)) ({ st with vflags := st.vflags ||| red.2 }.movedTo x (st.pc + 16)))

/-- Predicates (R185, R161): vcmp and plog write the bits of active lanes of pRD and keep the others; plog's function codes are and, or, exclusive or, and-not, not, all ones, zero, and setting the lanes of a range. -/
def Obligations.PredicatesAreWrittenUnderTheMask : Prop :=
  ∀ (s : State) (n : Nat) (w : IWord) (st : Stream),
    let f := decodeFields w
    let r := (s.blk.berth n).regs
    let x := s.blk.berth n
    let a := r.preg f.ra
    let b := r.preg f.rb
    let lo := f.imm.toNat % 256
    let hi := f.imm.toNat / 256 % 256
    let bit (l : Nat) : Option Bool := [a.getLsbD l && b.getLsbD l, a.getLsbD l || b.getLsbD l, a.getLsbD l != b.getLsbD l,
      a.getLsbD l && !b.getLsbD l, !a.getLsbD l, true, false, a.getLsbD l || decide (lo ≤ l ∧ l ≤ hi)][f.fn]?
    let cmp (l : Nat) := fpCmp f.fn (r.lane f.ra l).toNat (r.lane f.rb l).toNat
    st.inCode (st.pc + 16) → f.rd < 8 →
    (CanIssue s n .plog w st → f.fn < 8 → (f.fn ≤ 4 ∨ f.fn = 7 → f.ra < 8) → (f.fn ≤ 3 → f.rb < 8) →
      ∃ p, Issued s (.plog n w) n (r.setP f.rd p) (st.movedTo x (st.pc + 16)) ∧
        ∀ l, l < 256 → p.getLsbD l = if (laneMask f r).getLsbD l then (bit l).getD false else (r.preg f.rd).getLsbD l) ∧
    (CanIssue s n .vcmp w st → f.fn ≤ 5 → f.ra < 32 → f.rb < 32 →
      ∃ p, Issued s (.vcmp n w) n (r.setP f.rd p)
          ({ st with vflags := st.vflags ||| flagsOf f r fun l => (cmp l).2 }.movedTo x (st.pc + 16)) ∧
        ∀ l, l < 256 → p.getLsbD l = if (laneMask f r).getLsbD l then (cmp l).1 else (r.preg f.rd).getLsbD l)

/-- The special functions (R117, R189, R161): each active lane takes the function's value, inactive lanes keep theirs, no exception flag is raised. The special inputs and the exact cases of R117's table, NaN inputs among them, take the table's results whatever the unit's free choice between two neighbours is; R117's bound on the other results is not stated. -/
def Obligations.SpecialFunctionsActOnActiveLanes : Prop :=
  (∀ (s : State) (n : Nat) (w : IWord) (st : Stream),
    let f := decodeFields w
    let r := (s.blk.berth n).regs
    let lane (k : Nat) : Nat → BitVec 32 × VFlags := fun l => (sfu k (r.lane f.ra l), 0)
    st.inCode (st.pc + 16) → f.rd < 32 → f.ra < 32 → f.fa = 0xB →
    (CanIssue s n .exp2 w st → WritesLanes s n w st (.exp2 n w) (lane 0)) ∧
    (CanIssue s n .log2 w st → WritesLanes s n w st (.log2 n w) (lane 1)) ∧
    (CanIssue s n .rcp w st → WritesLanes s n w st (.rcp n w) (lane 2)) ∧
    (CanIssue s n .rsqrt w st → WritesLanes s n w st (.rsqrt n w) (lane 3)) ∧
    (CanIssue s n .tanh w st → WritesLanes s n w st (.tanh n w) (lane 4)) ∧
    (CanIssue s n .sigmoid w st → WritesLanes s n w st (.sigmoid n w) (lane 5)) ∧
    (CanIssue s n .sin w st → WritesLanes s n w st (.sin n w) (lane 6)) ∧
    (CanIssue s n .cos w st → WritesLanes s n w st (.cos n w) (lane 7))) ∧
  (∀ x : BitVec 32, x.extractLsb' 23 8 = 255 → x.extractLsb' 0 23 ≠ 0 → ∀ k, k < 8 → sfu k x = 0x7FC00000) ∧
  (∀ z : BitVec 32, z = 0 ∨ z = 0x80000000 →
    sfu 0 z = 0x3F800000 ∧ sfu 1 z = 0xFF800000 ∧ sfu 2 z = z ||| 0x7F800000 ∧ sfu 3 z = z ||| 0x7F800000 ∧
    sfu 4 z = z ∧ sfu 5 z = 0x3F000000 ∧ sfu 6 z = z ∧ sfu 7 z = 0x3F800000) ∧
  (∀ x : BitVec 32, (0x43000000 ≤ x ∧ x ≤ 0x7F800000 → sfu 0 x = 0x7F800000) ∧
    (0xC3160001 ≤ x ∧ x ≤ 0xFF800000 → sfu 0 x = 0) ∧
    (0x80000001 ≤ x ∧ x ≤ 0xFF800000 → sfu 1 x = 0x7FC00000 ∧ sfu 3 x = 0x7FC00000)) ∧
  sfu 1 0x7F800000 = 0x7F800000 ∧ sfu 2 0x7F800000 = 0 ∧ sfu 2 0xFF800000 = 0x80000000 ∧ sfu 3 0x7F800000 = 0 ∧
  sfu 4 0x7F800000 = 0x3F800000 ∧ sfu 4 0xFF800000 = 0xBF800000 ∧ sfu 5 0x7F800000 = 0x3F800000 ∧ sfu 5 0xFF800000 = 0 ∧
  sfu 6 0x7F800000 = 0x7FC00000 ∧ sfu 6 0xFF800000 = 0x7FC00000 ∧ sfu 7 0x7F800000 = 0x7FC00000 ∧ sfu 7 0xFF800000 = 0x7FC00000 ∧
  -- the FP32 codes of 2^k and of the integer k
  let pow (k : Int) : Nat := if -126 ≤ k then (k + 127).toNat * 2 ^ 23 else 2 ^ (k + 149).toNat
  let int (k : Int) : Nat := if k = 0 then 0 else
    (if k < 0 then 2 ^ 31 else 0) + (Nat.log2 k.natAbs + 126) * 2 ^ 23 + k.natAbs * 2 ^ (23 - Nat.log2 k.natAbs)
  (∀ k, -149 ≤ k → k ≤ 127 → sfu 0 (.ofNat 32 (int k)) = .ofNat 32 (pow k) ∧ sfu 1 (.ofNat 32 (pow k)) = .ofNat 32 (int k)) ∧
  (∀ k s, -127 ≤ k → k ≤ 127 → s = 0 ∨ s = 2 ^ 31 → sfu 2 (.ofNat 32 (s + pow k)) = .ofNat 32 (s + pow (-k))) ∧
  (∀ k, -74 ≤ k → k ≤ 63 → sfu 3 (.ofNat 32 (pow (2 * k))) = .ofNat 32 (pow (-k)))

/-- Vector accesses to the berth store (R186, R161): vld gives each active lane the four bytes at its address, vst writes those of the active lanes' and leaves every other byte of the store alone; sixteen pieces of 64 bytes, sRC apart or adjoining. Stated where no two pieces overlap, in a store without errors. -/
def Obligations.VectorAccessesReachTheirPieces : Prop :=
  ∀ (s : State) (n : Nat) (w : IWord) (st : Stream),
    let f := decodeFields w
    let r := (s.blk.berth n).regs
    let x := s.blk.berth n
    let rm := s.blk.remaps n
    let ea : Int := ((r.sreg f.ra).toNat : Int) + (f.imm.setWidth 32).toInt
    let step : Int := if f.fl13 then ((r.sreg f.rc).toNat : Int) else 64
    let at_ (l : Nat) : Nat := (ea + ((l / 16 : Nat) : Int) * step).toNat + 4 * (l % 16)
    let on (l : Nat) : Prop := l < 256 ∧ (laneMask f r).getLsbD l = true
    st.inCode (st.pc + 16) → x.badBits = [] → (r.sreg f.ra).toNat < 2 ^ 25 → 0 ≤ ea → ea % 64 = 0 → step % 64 = 0 → 64 ≤ step →
    ea + 15 * step + 64 ≤ 0x1400000 →
    (CanIssue s n .vld w st → f.rd < 32 →
      WritesLanes s n w st (.vld n w) fun l =>
        (BitVec.ofNat 32 (ofLeBytes ((List.range 4).map fun i => s.blk.loadByte n rm (at_ l + i))), 0)) ∧
    (CanIssue s n .vst w st → f.rb < 32 → Memory.wf r.store →
      ∃ b', Gives (.vst n w) s b' ∧ IssueFrame s.blk b' n ∧ (b'.berth n).stream = some (st.movedTo x (st.pc + 16)) ∧
        (b'.berth n).regs = { r with store := (b'.berth n).regs.store } ∧ Memory.wf (b'.berth n).regs.store ∧
        (∀ l i, on l → i < 4 → b'.loadByte n rm (at_ l + i) = (r.lane f.rb l).extractLsb' (8 * i) 8) ∧
        (∀ a, (∀ l, on l → a < at_ l ∨ at_ l + 4 ≤ a) → b'.loadByte n rm a = s.blk.loadByte n rm a))
/-- Exact accumulation (R97, R98, R100, R105, R108, R119). A tile's content does not depend on the order in which products are added, nor on how the reduction is divided: an entry takes any permutation of its products to the same value, flags and count, and a reduction done in two parts gives the tile of the undivided one: entries, anchor, status word and scale word. The anchor pre-pass over a whole range is the maximum of the pre-passes over the parts of a division. Combining two tiles of one anchor adds every entry modulo 2^160, ORs the flags, adds the counts up to 0xFFFF_FFFF; the result is EMPTY only if both were, and anchor and scale word are those of the operand that is not. -/
def Obligations.TilesAddDivideAndCombineExactly : Prop :=
  (∀ (t : Tile) (i : Nat) (ps qs : List (Option (Int × Int))), ps.Perm qs → t.addAt i ps = t.addAt i qs) ∧
  (∀ (t : Tile) (a b : Operand) (k l : Nat), ((isMx a.fmt || isMx b.fmt) = true → k % 32 = 0) →
    Tile.same ((t.mulAdd a b k).mulAdd (a.from k) (b.from k) l) (t.mulAdd a b (k + l))) ∧
  (∀ (a b : Operand) (k l : Nat), (isMx a.fmt = true → k % 32 = 0) →
    prepass a b (k + l) = max (prepass a b k) (prepass (a.from k) (b.from k) l)) ∧
  ∀ (d s : Tile) (free : Word), d.fits s = true → (s.q.map (·.1)).Nodup →
    let c := d.combine s free
    (∀ i, c.get i = d.get i + s.get i) ∧ c.nf = (d.nf || s.nf) ∧ c.low = (d.low || s.low) ∧
    c.count = min (d.count + s.count) 0xFFFFFFFF ∧ c.ovf = (d.ovf || s.ovf || decide (2 ^ 31 < d.count + s.count)) ∧
    c.empty = (d.empty && s.empty) ∧ (d.empty = false → c.anchor = d.anchor ∧ c.scaleWord = d.scaleWord) ∧
    (d.empty = true → s.empty = false → c.anchor = s.anchor ∧ c.scaleWord = s.scaleWord)

/-- TENSOR instructions (R177 to R182, R188): each writes its tile and nothing else of the berth, or, tdrain and tquant, the berth store. tclr clears all but the anchor (R97); the tanchor rows write the anchor of an empty tile or rebase; tmma begins an empty tile and adds the products; tcomb combines; vsum.x adds the active lanes into one entry. Stated in a store without errors and for tiles without parity errors. -/
def Obligations.TensorInstructionsWriteTheirTile : Prop :=
  ∀ (s : State) (n : Nat) (w : IWord) (st : Stream),
    let f := decodeFields w
    let r := (s.blk.berth n).regs
    let x := s.blk.berth n
    let c := s.cx n w st
    let t := r.tile f.rd
    let u := r.tile f.ra
    let k := (r.sreg f.rc).toNat
    let go (ts : List Nat) := (st.tilesDone ts).movedTo x (st.pc + 16)
    let one := st.tilesDone [f.rd]
    let rd := s.blk.loadByte n (s.blk.remaps n)
    let a := (quadAt r f.ra).operand f.fa rd
    let b := (quadAt r f.rb).operand f.fb rd
    st.inCode (st.pc + 16) → x.badBits = [] →
    (CanIssue s n .tclr w st → f.pe = false → f.rd < 16 →
      Issued s (.tclr n w) n (r.setTile f.rd { Tile.reset with anchor := t.anchor }) (go [f.rd])) ∧
    (CanIssue s n .tanchorRebase w st → f.pe = false → f.rd < 16 → f.ra < 16 →
      Issued s (.tanchorRebase n w) n (r.setTile f.rd (t.rebase u.anchor)) (go [f.rd, f.ra])) ∧
    (CanIssue s n .tanchorSet w st → f.fn = 0 → firstReason (tensorChecks c []) = none → t.empty = true →
      Issued s (.tanchorSet n w) n (r.setTile f.rd { t with anchor := BitVec.ofInt 10 (prepass a b k) }) (st.movedTo x (st.pc + 16))) ∧
    (CanIssue s n .tanchorMax w st → firstReason (tensorChecks c []) = none → t.empty = true →
      Issued s (.tanchorMax n w) n (r.setTile f.rd { t with anchor := BitVec.ofInt 10 (max t.anchor.toInt (prepass a b k)) }) (st.movedTo x (st.pc + 16))) ∧
    (CanIssue s n .tmma w st → f.mode ≤ 2 → firstReason (tensorChecks c []) = none →
      Issued s (.tmma n w) n (r.setTile f.rd ((t.begin (tmmaAnchor c a b k) a b).mulAdd a b k))
        ({ one with products := if k ≤ 32 then one.products
            else one.products ++ [(⟨f.rd, t.begin (tmmaAnchor c a b k) a b, f.fa, f.fb, quadAt r f.ra, quadAt r f.rb, k, 0, productEnd s.aon.ns k⟩ : Product)] }.movedTo x (st.pc + 16))) ∧
    (CanIssue s n .tcomb w st → f.pe = false → f.rd < 16 → f.ra < 16 → t.fits u = true → t.empty = false ∨ u.empty = false →
      t.parityBad = false → u.parityBad = false →
      Issued s (.tcomb n w) n (r.setTile f.rd (t.combine u 0)) (go [f.rd, f.ra])) ∧
    (CanIssue s n .vsumX w st → f.rd < 16 → f.ra < 32 →
      Issued s (.vsumX n w) n
        (r.setTile f.rd (t.vsum ((r.sreg f.rb).toNat % 4096) ((activeLanes f r).map fun l => (r.lane f.ra l).toNat))) (go [f.rd]))

/-- Drains (R109, R110, R111, R180, R181): tdrain writes the 64 rows of packed results at sRB, a stride apart; tquant writes the element rows and then the scale bytes; tiles and registers stay, the stream goes on, and a tile with OVF or LOW, or a non-finite D, marks the command with ANCHOR_FLAGS. Stated for rows that do not overlap, and a destination without remapped lines. -/
def Obligations.DrainsWriteTheBerthStore : Prop :=
  ∀ (s : State) (n : Nat) (w : IWord) (st : Stream) (cmd : Cmd),
    let f := decodeFields w
    let r := (s.blk.berth n).regs
    let x := s.blk.berth n
    let u := r.tile f.ra
    let d : BitVec 32 := if f.fl13 then (r.sreg f.rc).setWidth 32 else 0x3F800000
    let base := (r.sreg f.rb).toNat
    let q := quadAt r f.rb
    let go := (st.tilesDone [f.ra]).movedTo x (st.pc + 16)
    let after (b' : Block) : Prop := (b'.berth n).stream = some go ∧
      (b'.berth n).regs = { r with store := (b'.berth n).regs.store } ∧
      ∃ cmd', tget b'.quay.cmds st.job = some cmd' ∧ cmd'.anchorFlags = (cmd.anchorFlags || u.drainFlags d)
    st.inCode (st.pc + 16) → u.parityBad = false → f.pe = false → f.ra < 16 → s.blk.remaps n = [] → Memory.wf r.store →
    tget s.blk.quay.cmds st.job = some cmd →
    (CanIssue s n .tdrain w st → 0 < f.rb → f.rb ≤ 62 → f.fa = 0 ∨ f.fa = 1 ∨ f.fa = 8 ∨ f.fa = 9 ∨ f.fa = 0xB →
      let stride := (r.sreg (f.rb + 1)).toNat
      let len := packedLen f.fa 64
      base % 64 = 0 → stride % 64 = 0 → len ≤ stride → base + 63 * stride + len ≤ 0x1400000 →
      ∃ b', Gives (.tdrain n w) s b' ∧ after b' ∧
        (∀ i j v, i < 64 → (u.drainRow f.fa d f.fl14 i)[j]? = some v → memGet (b'.berth n).regs.store (base + i * stride + j) = v) ∧
        (∀ p, (∀ i, i < 64 → p < base + i * stride ∨ base + i * stride + len ≤ p) →
          memGet (b'.berth n).regs.store p = memGet r.store p)) ∧
    (CanIssue s n .tquant w st → 0 < f.rb → f.rb ≤ 60 → isMx f.fa = true →
      firstReason (q.baseChecks f.fa ++ q.strideChecks f.fa 64 ++ q.extentChecks f.fa 64) = none →
      packedLen f.fa 64 ≤ q.stride → 2 ≤ q.sstride →
      (q.scale.toNat + 63 * q.sstride + 2 ≤ q.base ∨ q.base + 63 * q.stride + packedLen f.fa 64 ≤ q.scale.toNat) →
      ∃ b', Gives (.tquant n w) s b' ∧ after b' ∧
        (∀ i j v, i < 64 → (u.quantRow f.fa d f.fl14 i).2[j]? = some v → memGet (b'.berth n).regs.store (q.base + i * q.stride + j) = v) ∧
        (∀ i j v, i < 64 → (u.quantRow f.fa d f.fl14 i).1[j]? = some v →
          memGet (b'.berth n).regs.store (q.scale.toNat + i * q.sstride + j) = v) ∧
        (∀ p, (∀ i, i < 64 → (p < q.base + i * q.stride ∨ q.base + i * q.stride + packedLen f.fa 64 ≤ p) ∧
            (p < q.scale.toNat + i * q.sstride ∨ q.scale.toNat + i * q.sstride + 2 ≤ p)) →
          memGet (b'.berth n).regs.store p = memGet r.store p))
/-- MOVE instructions (R190 to R192): each hands one transfer to the engine FL13 names, with its far side, berth-store address, shape and counter, behind those queued, and the stream goes on; registers and stores keep their contents. -/
def Obligations.MoveInstructionsQueueOneTransfer : Prop :=
  ∀ (s : State) (n : Nat) (w : IWord) (st : Stream),
    let f := decodeFields w
    let r := (s.blk.berth n).regs
    let k := if f.fl13 then 1 else 0
    let a := (r.sreg f.ra).toNat
    let v := r.sreg f.rc
    let sh : Shape := if f.fl14 then ⟨(r.sreg f.rb).toNat, (r.sreg (f.rb + 1)).toNat, (r.sreg (f.rb + 2)).toNat, (r.sreg (f.rb + 3)).toNat⟩
      else ⟨(r.sreg f.rb).toNat, 1, 0, 0⟩
    let counter := if f.fl15 then none else some f.rd
    let shapeOk := 0 < f.rb ∧ f.rb + (if f.fl14 then 4 else 1) ≤ 64 ∧ sh.bad = false
    let storeOk (len rows stride : Nat) := a % 64 = 0 ∧ a + (rows - 1) * stride + len ≤ 0x1400000
    let off := v.toNat % 2 ^ 40
    let win := v.toNat / 2 ^ 40 % 2 ^ 12
    let blk := v.toNat / 2 ^ 52 % 2 ^ 9
    let window (op : Nat) : Move := .window op f.mode off win blk (r.sreg f.rb) (r.sreg (f.rb + 1))
    st.inCode (st.pc + 16) → f.pe = false → (f.fl15 = true ∨ f.rd < 32) → ((s.blk.berth n).eng k).length < 32 →
    (CanIssue s n .mvIn w st → shapeOk → storeOk sh.row sh.rows sh.sstride → f.fn < 8 → v.toNat < 2 ^ 40 →
      QueuesMove s n st (.mvIn n w) k (.buffer false f.fn v.toNat) a sh counter) ∧
    (CanIssue s n .mvOut w st → shapeOk → storeOk sh.row sh.rows sh.sstride → f.fn < 8 → v.toNat < 2 ^ 40 →
      QueuesMove s n st (.mvOut n w) k (.buffer true f.fn v.toNat) a sh counter) ∧
    (CanIssue s n .mvHold w st → shapeOk → 0 < f.rc → f.rc + 2 ≤ 64 → (r.sreg (f.rc + 1)).toNat % 64 = 0 → f.fn < 8 → f.mode = 0 →
      storeOk sh.row sh.rows sh.sstride →
      QueuesMove s n st (.mvHold n w) k (.hold (v.toNat % 2 ^ 32) (r.sreg (f.rc + 1)).toNat none) a sh counter) ∧
    (CanIssue s n .mvHold w st → shapeOk → 0 < f.rc → f.rc + 2 ≤ 64 → (r.sreg (f.rc + 1)).toNat % 64 = 0 → f.fn < 8 → f.mode = 1 →
      a < 2 ^ 40 →
      QueuesMove s n st (.mvHold n w) k (.hold (v.toNat % 2 ^ 32) (r.sreg (f.rc + 1)).toNat (some f.fn)) a sh counter) ∧
    (CanIssue s n .mvWinRead w st → shapeOk → storeOk sh.row sh.rows sh.sstride → v.toNat < 2 ^ 61 → off % 64 = 0 → f.fn = 0 → f.mode = 0 →
      QueuesMove s n st (.mvWinRead n w) k (window 0) a sh counter) ∧
    (CanIssue s n .mvWinWrite w st → shapeOk → storeOk sh.row sh.rows sh.sstride → v.toNat < 2 ^ 61 → off % 64 = 0 → f.fn = 1 → f.mode = 0 →
      QueuesMove s n st (.mvWinWrite n w) k (window 1) a sh counter) ∧
    (CanIssue s n .mvWinAtomic w st → storeOk 64 1 0 → v.toNat < 2 ^ 61 → off % 8 = 0 → f.fn = 2 → f.mode ≤ 4 →
      (f.mode = 2 → 0 < f.rb ∧ f.rb + 2 ≤ 64) →
      QueuesMove s n st (.mvWinAtomic n w) k (window 2) a ⟨8, 1, 0, 0⟩ counter) ∧
    (CanIssue s n .mvWinReduce w st → shapeOk → storeOk sh.row sh.rows sh.sstride → v.toNat < 2 ^ 61 → off % 64 = 0 → f.fn = 3 → f.mode ≤ 2 →
      QueuesMove s n st (.mvWinReduce n w) k (window 3) a sh counter)

/-- Signals (R194, R137, R290): fsig adds V to a local counter; the fence form raises a live fence with the right to V at once when nothing is queued before it, and otherwise holds the signal with the serial of the next transfer. -/
def Obligations.SignalsReachCountersAndFences : Prop :=
  ∀ (s : State) (n : Nat) (w : IWord) (st : Stream) (fe : Fence),
    let f := decodeFields w
    let r := (s.blk.berth n).regs
    let x := s.blk.berth n
    let v := if f.fl14 then r.sreg f.rb else f.imm
    let k := (r.sreg f.ra).toNat % 65536
    let go := st.movedTo x (st.pc + 16)
    f.pe = false → st.inCode (st.pc + 16) →
    (CanIssue s n .fsig w st → f.rd < 32 → Issued s (.fsig n w) n (r.setC f.rd (r.counter f.rd + v)) go) ∧
    (CanIssue s n .fsigFence w st → v.toNat < 2 ^ 63 → tget s.blk.quay.fences k = some fe → fe.broken = false →
      (s.blk.fenceRights k st.slice).2 = true → st.sigs = [] →
      ∃ b', Gives (.fsigFence n w) s b' ∧ (b'.berth n).regs = r ∧ (∀ m, m ≠ k → tget b'.quay.fences m = tget s.blk.quay.fences m) ∧
        (x.me0 = [] → x.me1 = [] → (b'.berth n).stream = some go ∧ tget b'.quay.fences k = some { fe with value := max fe.value v.toNat }) ∧
        ((∃ t, t ∈ x.me0 ++ x.me1 ∧ t.serial < x.nextSerial) →
          (b'.berth n).stream = some { go with sigs := [(k, v.toNat, x.nextSerial)] } ∧ tget b'.quay.fences k = some fe))

/-- Waits (R195, R291): fwait falls through when its counter or fence has reached V and holds issue otherwise, here on a berth that no yield drives to a moor; FWAIT_SATISFIED lets a waiting stream go on when the target has been reached, and leaves it waiting before. -/
def Obligations.WaitsHoldIssueUntilTheirTarget : Prop :=
  ∀ (s : State) (n : Nat) (w : IWord) (st : Stream) (fe : Fence),
    let f := decodeFields w
    let r := (s.blk.berth n).regs
    let x := s.blk.berth n
    let v := (if f.fl14 then r.sreg f.rb else f.imm).toNat
    let k := (r.sreg f.ra).toNat % 65536
    let go := st.movedTo x (st.pc + 16)
    st.inCode (st.pc + 16) →
    (f.pe = false → CanIssue s n .fwait w st → s.blk.bstate n = 2 → f.fl13 = false → f.rd < 32 →
      Issued s (.fwait n w) n r (if v ≤ (r.counter f.rd).toNat then go else { st with wait := some (.counter f.rd v) })) ∧
    (f.pe = false → CanIssue s n .fwait w st → s.blk.bstate n = 2 → f.fl13 = true → (s.blk.fenceRights k st.slice).1 = true →
      tget s.blk.quay.fences k = some fe → fe.broken = false →
      Issued s (.fwait n w) n r (if v ≤ fe.value then go else { st with wait := some (.fence k v) })) ∧
    (∀ c t, n < 16 → x.stream = some st → x.leaving = false → st.stopped = false → st.wait = some (.counter c t) →
      ∃ b', Gives (.fwaitSatisfied n) s b' ∧ (b'.berth n).regs = r ∧
        (b'.berth n).stream = some (if t ≤ (r.counter c).toNat then { st with wait := none }.movedTo x (st.pc + 16) else st)) ∧
    (∀ g t, n < 16 → x.stream = some st → x.leaving = false → st.stopped = false → st.wait = some (.fence g t) →
      tget s.blk.quay.fences g = some fe → fe.broken = false →
      ∃ b', Gives (.fwaitSatisfied n) s b' ∧ (b'.berth n).regs = r ∧
        (b'.berth n).stream = some (if t ≤ fe.value then { st with wait := none }.movedTo x (st.pc + 16) else st))

/-- bar, trap, mark and moor (R196, R199 to R203): bar waits; the streams of a job go on once all stand at the bar; trap ends the job with ABORTED and leaves the context; mark writes a trace record of a traced slice, and does nothing else; moor does nothing without a pending yield, and with one quiesces the berth for a save after itself, at its live mask extended by the regions of queued transfers. -/
def Obligations.BarriersTrapsMarksAndMoors : Prop :=
  ∀ (s : State) (n : Nat) (w : IWord) (st : Stream) (cmd : Cmd) (sl : Slice),
    let f := decodeFields w
    let r := (s.blk.berth n).regs
    let x := s.blk.berth n
    let b := s.blk
    let go := st.movedTo x (st.pc + 16)
    (CanIssue s n .bar w st → f.pe = false → b.bstate n = 2 →
      Issued s (.bar n w) n r { st with wait := some .bar, atBar := true }) ∧
    (n < 16 → x.stream = some st → b.jobBerths st.job = [n] → b.barFull st.job = true → st.inCode (st.pc + 16) →
      ∃ b', Gives (.barrierRelease st.job) s b' ∧ (b'.berth n).stream = some ({ st with wait := none, atBar := false }.movedTo x (st.pc + 16)) ∧
        (b'.berth n).regs = r ∧ ∀ m, m ≠ n → b'.berth m = b.berth m) ∧
    (CanIssue s n .trap w st → f.pe = false → tget b.quay.cmds st.job = some cmd → cmd.status = 0 →
      ∃ b' st' cmd', Gives (.trap n w) s b' ∧ (b'.berth n).regs = r ∧ (b'.berth n).stream = some st' ∧ st'.stopped = true ∧ st'.pc = st.pc ∧
        tget b'.quay.cmds st.job = some cmd' ∧ cmd'.status = 0x10 ∧ b'.quay.ctxs = b.quay.ctxs ∧
        (b.log.evTokens = [] → b.log.events.length + b.log.traces.length < 512 →
          ∃ rec_, b'.log.events = b.log.events ++ [rec_] ∧ rec_.code = 0x1001 ∧ rec_.status = 0x10 ∧ rec_.ctx = cmd.hdr.ctx ∧
            rec_.slice = some cmd.slice ∧ rec_.unitIdx = n ∧ rec_.data = [f.imm.toNat % 2 ^ 32 % 65536, st.pc])) ∧
    (CanIssue s n .mark w st → f.pe = false → st.inCode (st.pc + 16) → tget b.quay.slices st.slice = some sl → sl.tracing = true →
      b.log.trTokens = [] → b.log.events.length + b.log.traces.length < 512 →
      ∃ b' rec_, Gives (.mark n w) s b' ∧ (b'.berth n).regs = r ∧ (b'.berth n).stream = some go ∧
        b'.log.traces = b.log.traces ++ [rec_] ∧ rec_.code = 0x2001 ∧ rec_.slice = some st.slice ∧ rec_.ctx = st.ctx ∧ rec_.unitIdx = n ∧
        rec_.data = [f.imm.toNat % 2 ^ 32 % 65536, (r.sreg f.ra).toNat] ∧ b'.quay = b.quay) ∧
    (CanIssue s n .mark w st → f.pe = false → st.inCode (st.pc + 16) → tget b.quay.slices st.slice = some sl → sl.tracing = false →
      (∀ c ∈ b.quay.cmds, c.2.suspect ≠ 2) → Issued s (.mark n w) n r go) ∧
    (CanIssue s n .moor w st → f.pe = false → tget b.quay.cmds st.job = some cmd → cmd.list? = false → x.yield = none → st.inCode (st.pc + 16) →
      Issued s (.moor n w) n r go) ∧
    (CanIssue s n .moor w st → f.pe = false → tget b.quay.cmds st.job = some cmd → cmd.list? = false → x.yield.isSome = true → b.bstate n = 3 →
      ∃ b', Gives (.moor n w) s b' ∧ Quiesces b b' n (st.pc + 16) st fun m =>
        ∃ z, m = some z ∧ z.1 = (w.extractLsb' 16 16).toNat ∧ z.2.1 = (w.extractLsb' 32 32).toNat ∧
          ∀ g, g < 64 → w.getLsbD (64 + g) = true → z.2.2.testBit g = true)

/-- A collective of a stream and its end (R197, R198, R410): coll issues with empty engines and a group of the stream's slice, the berth's STATE becomes COLLECTIVE and issue is held; a BARRIER of one stream that has heard every peer completes, its collective is gone and the stream goes on; a collective that no message reached for COLL_TO ends with COLLECTIVE_TIMEOUT. -/
def Obligations.CollectivesHoldTheirStreams : Prop :=
  ∀ (s : State) (n : Nat) (w : IWord) (st : Stream) (g : Group) (y : Coll) (id : Nat) (cmd : Cmd),
    let f := decodeFields w
    let r := (s.blk.berth n).regs
    let x := s.blk.berth n
    let b := s.blk
    let entry := f.imm.toNat % 2 ^ 32 % 256
    (CanIssue s n .coll w st → f.pe = false → f.fn = 5 → x.me0 = [] → x.me1 = [] → tget b.fabric.groups entry = some g → g.r.owner = st.slice →
      b.fabric.colls = [] →
      ∃ b' y', Gives (.coll n w) s b' ∧ (b'.berth n).regs = r ∧ b'.bstate n = 10 ∧ (b'.berth n).stream = some { st with wait := some .coll } ∧
        tget b'.fabric.colls b.fabric.nextColl = some y' ∧ y'.op = 5 ∧ y'.entry = entry ∧ y'.job = st.job ∧
        y'.places = [(st.rank, n, (r.sreg f.ra).toNat, (r.sreg f.rb).toNat)]) ∧
    (n < 16 → b.fabric.colls = [(id, y)] → tget b.fabric.groups y.entry = some g → y.op = 5 → y.mode = 1 → y.begun = true → y.fromBerth = true →
      (∀ p ∈ g.r.peerRanks, p ∈ y.credits) → (∃ k a d, y.places = [(k, n, a, d)]) → x.stream = some st → st.wait = some .coll →
      b.bstate n = 10 → x.yield = none → st.inCode (st.pc + 16) →
      ∃ b', Gives (.collectiveComplete id) s b' ∧ b'.fabric.colls = [] ∧ b'.bstate n = 2 ∧
        (b'.berth n).stream = some ({ st with wait := none }.movedTo x (st.pc + 16)) ∧ (b'.berth n).regs = r) ∧
    (b.fabric.colls = [(id, y)] → y.begun = true → y.fromBerth = false → tget b.fabric.groups y.entry = some g → y.whole g.r = false →
      y.timer + b.rd F.FY_CTL_COLL_TO * 1000000 ≤ s.aon.ns → tget b.quay.cmds y.job = some cmd → cmd.status = 0 → cmd.ph ≠ .ended →
      ∃ b' cmd', Gives (.collectiveTimeout id) s b' ∧ b'.fabric.colls = [] ∧ tget b'.quay.cmds y.job = some cmd' ∧ cmd'.status = 0x41 ∧
        cmd'.ph = .ended)
/-! ### Fetch units, engines and ports of a berth -/

/-- Streams, lines and transfers complete (R124, R137, R170, R216, R522): a stream that waited for a line goes on, and the line is the most recently used; a transfer whose requests are all answered leaves its engine and raises its counter by 1; an ended stream with nothing left leaves its berth, which is scrubbed; a sampled instruction's record gets its time. -/
def Obligations.StreamsAndTransfersComplete : Prop :=
  ∀ (s : State) (n k line : Nat) (st : Stream) (t : Xfer) (cmd : Cmd) (r : SampleRec) (rest : List SampleRec),
    let x := s.blk.berth n
    n < 16 → k < 2 →
    (x.stream = some st → st.wait = some (.icache line) → x.hasLine st.prog line = true →
      ∃ b', Gives (.icacheFillComplete n) s b' ∧ (b'.berth n).stream = some { st with wait := none } ∧
        (b'.berth n).icache.head? = some (st.prog, line) ∧ (b'.berth n).regs = x.regs ∧ ∀ m, m ≠ n → b'.berth m = s.blk.berth m) ∧
    (x.stream = some st → x.eng k = [t] → t.failed = none → s.blk.enginesRun n = true → s.blk.outstanding n k t.serial = 0 →
      s.blk.settledXfer n k t.serial = true → t.total ≤ t.done → t.staged = [] → s.blk.mergeOwed t = false → st.sigs = [] →
      tget s.blk.quay.cmds st.job = some cmd → (∀ m, cmd.body ≠ .move m) → (∀ c h, t.mv ≠ .copy c h) →
      ∃ b', Gives (.transferComplete n k) s b' ∧ (b'.berth n).eng k = [] ∧ (b'.berth n).eng (1 - k) = x.eng (1 - k) ∧
        (b'.berth n).regs = (match t.counter with | some c => x.regs.setC c (x.regs.counter c + 1) | none => x.regs) ∧
        (b'.berth n).progress = s.aon.ns) ∧
    (x.stream = some st → x.leaving = false → x.resetting = none → s.blk.bstate n ≠ 6 → s.blk.collOf st.job = none →
      st.stopped = false → st.ended = true → x.me0 = [] → x.me1 = [] → st.sigs = [] → st.copies = [] → st.digestOwed = false → st.wait = none →
      ∃ b', Gives (.streamEnd n) s b' ∧ (b'.berth n).stream = none ∧ b'.bstate n = 5 ∧ ∀ m, m ≠ n → b'.berth m = s.blk.berth m) ∧
    (x.sampled = r :: rest → x.samples.length < 4096 →
      ∃ b', Gives (.instructionSample n) s b' ∧ (b'.berth n).samples = x.samples ++ [{ r with time := s.aon.ns }] ∧
        (b'.berth n).sampled = rest ∧ (b'.berth n).regs = x.regs ∧ (b'.berth n).stream = x.stream)

/-- Memory ports and regulators (R57, R333, R334, R335, R433): a front whose bucket holds its bytes enters its port and is debited, one without tokens is counted in WAITS and enters only where it may borrow; a response answers its request and frees the tag, a zero MAC reads as zeros, an error of 2 or more fails the request, a host's with a report through AER and a Completer Abort (R468). -/
def Obligations.PortsAdmitAndAnswer : Prop :=
  ∀ (s : State) (x p : Nat) (q : LaneReq) (l : List LaneReq) (t : Nat) (port sub tag err : Nat) (data : List Byte) (r : MemReq),
    let b := s.blk
    let f : Front := ⟨p, 16, .other, q.bytes⟩
    let k := b.bucket s.env p x
    let key := reqKey port sub tag
    (x < 28 → p < 16 → b.fronts s.env x = [f] → tgetD b.ports.lanes (32 * p + x) [] = q :: l →
      (x < 8 → q.bytes ≤ k.other → b.ports.isolated.contains q.req.port = false → b.granuleOk q.req.addr q.req.slice q.req.ctx = true →
        b.queuesAt q.req = false → (∀ qn, q.req.who ≠ .record qn) → b.freeTag q.req.port q.req.sub = some t →
        ∃ b' r', Gives (.regulatorAdmit x) s b' ∧ tget b'.ports.out (reqKey q.req.port q.req.sub t) = some r' ∧
          r' = { q.req with rmw := r'.rmw, wdata := r'.wdata, since := s.aon.ns } ∧ tgetD b'.ports.lanes (32 * p + x) [] = l ∧
          tget b'.ports.buckets (32 * p + x) = some { k with other := k.other - q.bytes }) ∧
      (x = 26 → q.bytes ≤ k.other →
        ∃ b', Gives (.regulatorAdmit x) s b' ∧ tget b'.host.reads b.host.nextTag = some (.asked q.req) ∧
          b'.host.out = b.host.out ++ [.read b.host.nextTag q.req.addr q.req.len (b.pasidOf q.req.slice)] ∧
          tgetD b'.ports.lanes (32 * p + x) [] = l ∧ tget b'.ports.buckets (32 * p + x) = some { k with other := k.other - q.bytes }) ∧
      (k.other < q.bytes → b.borrows p x = false → (tgetD b.ports.waited x []).contains (1024 + p) = false → b.rd F.BW_PORT_WAITS x < F.BW_PORT_WAITS.max →
        ∃ b', Gives (.regulatorAdmit x) s b' ∧ b'.rd F.BW_PORT_WAITS x = b.rd F.BW_PORT_WAITS x + 1 ∧ b'.ports.lanes = b.ports.lanes ∧
          b'.ports.out = b.ports.out ∧ b'.host = b.host ∧ b'.ports.buckets = b.ports.buckets)) ∧
    (port < 8 → sub < 4 → tget b.ports.out key = some r → r.who = .bar2 → r.write = false → r.rmw = false → r.slice < 1024 → r.addr % 128 + r.len ≤ 128 →
      (err < 2 → ∃ b', Gives (.memoryResponse port sub tag err data [0, 0]) s b' ∧ tget b'.ports.out key = none ∧
        b'.host.out = b.host.out ++ [.bar2 0 (List.replicate r.len 0)]) ∧
      (2 ≤ err → ∃ b', Gives (.memoryResponse port sub tag err data [0, 0]) s b' ∧ tget b'.ports.out key = none ∧
        b'.host.out = b.host.out ++ [.aer r.addr, .bar2 2 []]))
/-! ### Berths: yields, saves, restores, drains -/

/-- Yields and saves (R131, R144 to R150, R200, R340): a job on a berth with DRAIN, or that a trigger of R340 names, is yielded: a stream that waits at a bar quiesces at once; one whose program has a moor-distance table reads the entry of its region, and with it goes to its next moor within the horizon, or, where the entry cannot be read, saves in full at once; at the horizon it saves from where it stands; the save begins with a free reserve and a slot, ends, its units written, with the slot holding the stream and the berth being scrubbed; a restore, its units read, brings stream and registers back, a product that the save interrupted goes on from its resume index, and the slot is freed. -/
def Obligations.YieldsSavesAndRestores : Prop :=
  ∀ (s : State) (n k : Nat) (st : Stream) (t : Rat) (u : Nat) (v : Saved) (l : List Nat) (i port sub tag err : Nat) (m : MoorEntry) (r : MemReq) (p : Product)
      (data : List Byte),
    let b := s.blk
    let e := s.env
    let x := b.berth n
    let q := b.rd F.BT_STATE_PARTITION n
    let line := (st.moorOff + 32 * i) / 128
    let horizon := b.rd F.BT_CTL_HORIZON n
    n < 16 →
    (x.stream = some st →
      (b.rd F.BT_CTL_DRAIN n = 1 ∨ b.victim e q (b.lcNeed e q) (fun _ _ => true) = some st.job ∨
        b.victim e q (b.quantumNeed e q) (b.overQuantum e q) = some st.job) →
      b.jobBerths st.job = [n] → x.yield = none → x.saving = none → (∀ y ∈ b.berths, y.2.yield = none) → b.freeSlots e ≠ [] →
      st.stopped = false → b.bstate n ≠ 6 →
      (st.wait = some .bar → ∃ b', Gives (.berthYield n) s b' ∧ Quiesces b b' n st.pc st (· = none)) ∧
      (st.wait = none → b.imageStale st = false → horizon ≠ 0 → moorEntry st.moors st.pc = some (i, m) →
        ∃ b', Gives (.berthYield n) s b' ∧ b'.bstate n = b.bstate n ∧ (b'.berth n).yield = some s.aon.ns ∧ (b'.berth n).entry = some (line, m) ∧
          (b'.berth n).stream = some st ∧ (b'.berth n).regs = x.regs)) ∧
    (port < 8 → sub < 4 → tget b.ports.out (reqKey port sub tag) = some r → r.who = .moorEntry n line → r.write = false → r.rmw = false →
      r.slice < 1024 → x.stream = some st → st.wait = none → x.entry = some (line, m) →
      (err < 2 → b.moorTime e n m = some t → t ≤ ((horizon * 1000 : Nat) : Rat) → horizon ≠ 0 →
        ∃ b', Gives (.memoryResponse port sub tag err data [0, 0]) s b' ∧ b'.bstate n = 3 ∧ (b'.berth n).entry = none ∧ (b'.berth n).stream = some st) ∧
      (2 ≤ err → ∃ b', Gives (.memoryResponse port sub tag err data [0, 0]) s b' ∧ Quiesces b b' n st.pc st (· = none))) ∧
    (x.stream = some st → x.yield = some u → st.wait = none → b.bstate n = 3 → u + 1000 * horizon ≤ s.aon.ns →
      ∃ b', Gives (.horizonExpiry n) s b' ∧ Quiesces b b' n st.pc st (· = none)) ∧
    (x.saving = some v → x.reserveWait = true → b.reserveFree s.env n = true → x.badBits = [] →
      (∀ i ∈ v.tiles, (v.regs.tile i).parityBad = false) → b.freeSlots s.env = k :: l →
      ∃ b', Gives (.saveStart n) s b' ∧ (b'.berth n).slot = some k ∧ (b'.berth n).reserveWait = false ∧ (b'.berth n).saving = some v) ∧
    (x.saving = some v → x.slot = some k → x.reserveWait = false → v.units ≤ x.moved →
      ∃ b', Gives (.saveComplete n) s b' ∧ tget b'.slots k = some { v with early := decide (256 ≤ k) } ∧ b'.bstate n = 5 ∧
        (b'.berth n).stream = none ∧ (b'.berth n).saving = none) ∧
    (x.slot = some k → tget b.slots k = some v → b.bstate n = 6 → x.reserveWait = false → v.units ≤ x.moved → x.yield = none → b.rd F.BT_CTL_DRAIN n = 0 →
      v.me0 = [] → v.me1 = [] → v.stream.ended = false → v.stream.inCode v.stream.pc →
      ∃ b', Gives (.restoreComplete n) s b' ∧ b'.bstate n = 2 ∧ tget b'.slots k = none ∧ (b'.berth n).slot = none ∧
        (let z := { v.stream with products := [] }; (b'.berth n).stream = some (if z.wait = none then z.movedTo x z.pc else z)) ∧
        (v.stream.products = [] → (b'.berth n).regs = v.regs) ∧
        (v.stream.products = [p] → b.remaps n = [] →
          let rd := memGet v.regs.store
          (b'.berth n).regs = v.regs.setTile p.tile
            ((v.regs.tile p.tile).mulAddFrom (p.qa.operand p.fa rd) (p.qb.operand p.fb rd) p.next (p.k - p.next))))

/-- Scrubs, drains and quantum boundaries (R147, R152, R340): after a scrub registers, tiles, counters and store read zero and an owned berth is IDLE; DRAIN takes an idle berth to DRAINED and back; at a quantum boundary of POOLED mode the job that has run a quantum is yielded for the candidate that lacks berths. -/
def Obligations.ScrubsDrainsAndQuanta : Prop :=
  ∀ (s : State) (n p j k : Nat) (y : Cmd) (st : Stream),
    let b := s.blk
    let e := s.env
    let q := 1000 * b.rd F.BW_SCHED_QUANTUM p
    let since := s.aon.ns - tgetD b.quantumFrom p 0
    let m := b.markReady e p
    n < 16 →
    (b.bstate n = 5 → b.harbour.failed.contains (.berth n) = false → b.rd F.BT_STATE_OWNED n = 1 → b.rd F.BT_CTL_DRAIN n = 0 →
      ∃ b', Gives (.scrubComplete n) s b' ∧ b'.bstate n = 1 ∧ (b'.berth n).regs = Regs.reset ∧ ∀ k, k ≠ n → b'.berth k = b.berth k) ∧
    (b.bstate n = 1 → (b.rd F.BT_STATE_OWNED n = 0 ∨ (b.rd F.BW_PART_DRAINING (b.rd F.BT_STATE_PARTITION n)).testBit n = false) →
      ∃ b', Gives (.berthDrain n true) s b' ∧ b'.bstate n = 7 ∧ b'.rd F.BT_CTL_DRAIN n = 1 ∧ (b'.berth n).regs = (b.berth n).regs) ∧
    (b.bstate n = 7 → ∃ b', Gives (.berthDrain n false) s b' ∧ b'.bstate n = 1 ∧ b'.rd F.BT_CTL_DRAIN n = 0 ∧ (b'.berth n).regs = (b.berth n).regs) ∧
    (p < 16 → b.rd F.BW_MODE_MODE = 1 → b.partExists p = true → 0 < q → 0 < since → since % q = 0 →
      m.quantumNeed e p = some k → (m.idleBerths p).length + m.coming p < k → m.yieldable e p (m.overQuantum e p) = [(j, y)] →
      m.jobBerths j = [n] → (m.berth n).stream = some st → (m.berth n).yield = none → (m.berth n).saving = none →
      (∀ z ∈ m.berths, z.2.yield = none) → m.freeSlots e ≠ [] → st.stopped = false → m.bstate n ≠ 6 → st.wait = some .bar →
      ∃ b', Gives (.quantumBoundary p) s b' ∧ Quiesces m b' n st.pc st (· = none) ∧ (b'.berth n).stream = some st)

/-- Spare arrays (R132, R152 to R155): a map of eight distinct good arrays is taken on a drained or gated berth, any other write sets MAP_REJECT and leaves the map; an array marked failed, or failing its test, on an idle berth with a spare left drains the berth; a pass of the new array's test returns it to IDLE. -/
def Obligations.SpareArraysAreSwappedIn : Prop :=
  ∀ (s : State) (n a : Nat) (v : Word),
    let b := s.blk
    let new := (List.range 8).map fun l => v.toNat / 16 ^ l % 16
    let valid := (b.bstate n = 7 ∨ b.bstate n = 0) ∧ new.Nodup ∧ ∀ i ∈ new, i ≤ 8 ∧ (b.rd F.BT_ARRAY_HEALTH_FAILED n).testBit i = false
    let swaps (b' : Block) : Prop := b'.rd F.BT_ARRAY_HEALTH_FAILED n = b.rd F.BT_ARRAY_HEALTH_FAILED n ||| 2 ^ a ∧
      (b'.berth n).swapping = some a ∧ b'.bstate n = 7 ∧ b'.rd F.BT_CTL_DRAIN n = 1
    n < 16 →
    (valid → ∃ b', Gives (.spareMapWrite n v) s b' ∧ b'.reg .btSpareMap n = v &&& 0xFFFFFFFF ∧ b'.regs = (b.setReg .btSpareMap n (v &&& 0xFFFFFFFF)).regs) ∧
    (¬ valid → ∃ b', Gives (.spareMapWrite n v) s b' ∧ b'.rd F.BT_ARRAY_HEALTH_MAP_REJECT n = 1 ∧ b'.reg .btSpareMap n = b.reg .btSpareMap n ∧
      b'.berths = b.berths) ∧
    (a < 9 → b.bstate n = 1 → b.harbour.down = false → (b.mapOf n).contains a = true → 8 ≤ ((b.goodArrays n).filter (· ≠ a)).length →
      (b.rd F.BT_STATE_OWNED n = 0 ∨ (b.rd F.BW_PART_DRAINING (b.rd F.BT_STATE_PARTITION n)).testBit n = false) →
      (∃ b', Gives (.arrayMarkFailed n a) s b' ∧ swaps b') ∧ (∃ b', Gives (.arraySelfTest n a false) s b' ∧ swaps b') ∧ Gives (.arraySelfTest n a true) s b) ∧
    (b.bstate n = 7 → b.harbour.down = false → (b.berth n).swapping = some a → (b.goodArrays n).contains a = true →
      ∃ b', Gives (.arrayTestComplete n true) s b' ∧ (b'.berth n).swapping = none ∧ b'.bstate n = 1 ∧ b'.rd F.BT_CTL_DRAIN n = 0)

/-- The berth store's second port and its repair, and operating points (R12, R128, R142, R154, R156, R157): an aligned aperture access reads or writes 8 bytes, another is discarded, counted and reads 0; a write-back leaves no error of a bit that is not stuck; a stuck bit's line is remapped with its corrected contents; a berth moves to its ceiling's point. -/
def Obligations.StoreRepairAndOperatingPoints : Prop :=
  ∀ (s : State) (n off word i p ce : Nat) (v : Word) (lock : Bool),
    let b := s.blk
    let x := b.berth n
    let ap := b.rd F.BT_STORE_BASE_APERTURE n
    let a := ap * 0x80000 + (off - 0x80000)
    n < 16 →
    (0x80000 ≤ off → off < 0x100000 → off % 8 = 0 → ap < 40 → b.domUp n = true →
      (Memory.wf x.regs.store → ∃ b', Gives (.storeApertureAccess n off true v) s b' ∧
        (∀ k, k < 8 → b'.loadByte n (b.remaps n) (a + k) = v.extractLsb' (8 * k) 8) ∧
        (∀ k, k < a ∨ a + 8 ≤ k → b'.loadByte n (b.remaps n) k = b.loadByte n (b.remaps n) k) ∧ b'.regs = b.regs) ∧
      (x.badBits = [] → ∃ b', Gives (.storeApertureAccess n off false v) s b' ∧
        b'.readData = BitVec.ofNat 64 (ofLeBytes ((List.range 8).map fun k => b.loadByte n (b.remaps n) (a + k))) ∧ b'.berths = b.berths ∧ b'.regs = b.regs)) ∧
    (off % 8 ≠ 0 → ∀ w, ∃ b', Gives (.storeApertureAccess n off w v) s b' ∧ b'.readData = 0 ∧ b'.berths = b.berths ∧
      b'.rd F.GLB_ACCESS_ERR_COUNT = min F.GLB_ACCESS_ERR_COUNT.max (b.rd F.GLB_ACCESS_ERR_COUNT + 1)) ∧
    (x.writeBack.contains word = true →
      ∃ b', Gives (.storeWriteBack n word) s b' ∧ (b'.berth n).writeBack.contains word = false ∧ (b'.berth n).reread.contains word = true ∧
        (x.stuckBits.contains word = false → ∀ w ∈ (b'.berth n).badBits, w.1 ≠ word) ∧ (b'.berth n).regs = x.regs) ∧
    (x.reread.contains word = true → x.stuckBits.contains word = false →
      ∃ b', Gives (.storeReread n word) s b' ∧ (b'.berth n).reread.contains word = false ∧ b'.regs = b.regs) ∧
    (x.reread.contains word = true → x.stuckBits.contains word = true → word < 0x280000 → ((b.remaps n).any fun r => r.1 = word / 8) = false →
      firstFrom (fun i => b.rd F.BT_REMAP_VALID (16 * n + i) = 0) 16 0 = some i →
      ∃ b', Gives (.storeReread n word) s b' ∧ b'.rd F.BT_REMAP_VALID (16 * n + i) = 1 ∧ b'.rd F.BT_REMAP_LINE (16 * n + i) = word / 8 ∧
        tget (b'.berth n).spare i = some (b.load n (64 * (word / 8)) 64)) ∧
    (p < 16 → tget b.watch.ceilings n = some (ce, p, lock) → b.rd F.BT_CLOCK_OPP n ≠ p → b.power.thermTrip = false → x.oppSince = 0 →
      ∃ b', Gives (.operatingPointChange n p) s b' ∧ b'.rd F.BT_CLOCK_OPP n = p ∧ b'.rd F.BT_CLOCK_LOCKSTEP n = (if lock then 1 else 0) ∧
        (b'.berth n).oppSince = s.aon.ns ∧ (b'.berth n).regs = x.regs)
/-! ### Dispatch and completion -/

/-- Dispatch, completion and moderated vectors (R176, R213, R278, R281, R285, R286, R337, R338, R341): the chosen candidate's stream starts at its code on the berth chosen for it, a general task at its entry on the core; a command that has ended leaves its record in its queue's ring and its signal at its fence; the merged raises of a vector go out as one. -/
def Obligations.CommandsAreDispatchedAndComplete : Prop :=
  ∀ (s : State) (p g n c q : Nat) (x : Cmd) (t : TensorBody) (gb : GeneralBody) (y : Queue) (fe : Fence) (f v : Nat) (me : MsixEntry),
    let b := s.blk
    let e := s.env
    let m := (b.flushOwed.settleWaits).settleServe e
    let mp := (m.dropWide p).markReady e p
    let mc := m.markCores e
    (p < 16 → b.asleep = false → m.partExists p = true → mp.chosen e p = some (c, x) → tget mp.quay.cmds c = some x → x.ph = .waiting →
      x.body = .tensor t → t.streams = 1 → 1 ≤ (mp.idleBerths p).length → (mp.berthOrder x (mp.idleBerths p)).take 1 = [n] → 16 ≤ t.img.codeLen →
      ∃ b' st z, Gives (.jobDispatch (.berths p)) s b' ∧ b'.bstate n = 2 ∧ (b'.berth n).stream = some st ∧ st.job = c ∧ st.ctx = x.hdr.ctx ∧
        st.slice = x.slice ∧ st.pc = t.img.codeOff ∧ st.prog = t.prog ∧ st.rank = 0 ∧ st.streams = 1 ∧ st.args = t.argWords ∧
        tget b'.quay.cmds c = some z ∧ z.ph = .running ∧ z.units = [n] ∧ (b'.berth n).regs = (mp.berth n).regs) ∧
    (g < 8 → b.asleep = false → mc.chosenTask e = some (c, x) → tget mc.quay.cmds c = some x → x.body = .general gb → x.task = none →
      (mc.core g).on = true → (mc.core g).free = true → gb.stack < x.bufs.length →
      ∃ b' z, Gives (.jobDispatch (.core g)) s b' ∧ (b'.core g).task = some c ∧ (b'.core g).pc = gb.entry ∧ (b'.core g).a0 = BitVec.ofNat 64 gb.args ∧
        (∀ u, x.bufs[gb.stack]? = some u → (b'.core g).sp = BitVec.ofNat 64 (u.va + u.len)) ∧
        tget b'.quay.cmds c = some z ∧ z.ph = .running ∧ z.units = [g]) ∧
    (tget b.quay.cmds c = some x → x.ph = .ended → x.list? = false → b.cmdBusy c = false → x.suspect = 0 → tearsDown x.finalStatus = false →
      tget b.quay.queues x.q = some y → b.recordReady e x.q y →
      ∃ b', Gives (.commandComplete c) s b' ∧ tget b'.quay.cmds c = none ∧
        RecordSent s b' x.q y (x.launchPos.getD y.fetch) x.hdr.tag x.hdr.ctx x.finalStatus x.detail x.result ∧
        (x.signalOf = some (f, v) → tget b.quay.fences f = some fe → fe.broken = false → fe.mirror = none →
          tget b'.quay.fences f = some { fe with value := max fe.value v })) ∧
    (tget b.quay.queues q = some y → y.moderOwed = true → y.moderUntil ≤ s.aon.ns → y.vector = some v → b.msixEntry v = me → me.masked = false →
      b.host.msixEnable = true → b.host.msixMask = false →
      ∃ b', Gives (.msixModerateExpiry q) s b' ∧ b'.host.out = b.host.out ++ [.msix v me.addr me.data] ∧
        tget b'.quay.queues q = some { y with moderUntil := s.aon.ns + y.moderate * 1000, moderOwed := false })

/-- Doorbells and launches (R269 to R271, R288): a write without a PASID, with another slice's, to no queue, or with part of a field is rejected under the first that applies, counted, and nothing of Quay changes; a tail within the ring's room is taken, a larger advance is stale; a launch of a standing queue is a new command with the wait and signal values raised by its number less 1. -/
def Obligations.DoorbellsMoveTailsAndLaunch : Prop :=
  ∀ (s : State) (page k qn : Nat) (ps be : Nat) (sq cq : BitVec 32) (sl : Slice) (q : Queue) (f : Fetched) (body : Body) (heads : List Nat),
    let b := s.blk
    let d := (doorPos q.n sq + 2 * 2 ^ q.n - q.tail) % (2 * 2 ^ q.n)
    let rejects (pasid : Option Nat) (fld : Fld) : Prop := b.hostUp = true →
      ∃ b', Gives (.doorbellWrite page k pasid be sq cq) s b' ∧ b'.quay = b.quay ∧
        b'.host = b.host ∧ b'.rd fld = min fld.max (b.rd fld + 1)
    let up (w : Option (Nat × Nat)) : Option (Nat × Nat) := w.map fun z => (z.1, z.2 + q.launches)
    rejects none F.QY_DB_REJECT_NO_PASID ∧
    (tget b.quay.slices page = some sl →
      (ps ≠ sl.pasid → rejects (some ps) F.QY_DB_REJECT_PASID_MISMATCH) ∧
      (b.findQueue page k = none → rejects (some sl.pasid) F.QY_DB_REJECT_NO_QUEUE) ∧
      (b.findQueue page k = some (qn, q) → tget b.quay.queues qn = some q → q.st = .live →
        (wholeFields be = false → rejects (some sl.pasid) F.QY_DB_REJECT_MALFORMED) ∧
        (b.hostUp = true → be = 0x0F → d ≠ 0 → d ≤ 2 ^ q.n - q.unfetched →
          ∃ b', Gives (.doorbellWrite page k (some sl.pasid) be sq cq) s b' ∧
            b'.quay = { b.quay with queues := tput b.quay.queues qn { q with tail := (q.tail + d) % (2 * 2 ^ q.n) } } ∧ b'.host = b.host) ∧
        (b.hostUp = true → be = 0x0F → d ≠ 0 → 2 ^ q.n - q.unfetched < d →
          ∃ b', Gives (.doorbellWrite page k (some sl.pasid) be sq cq) s b' ∧ b'.quay = b.quay ∧
            b'.rd F.QY_DB_STALE_OUT_OF_RANGE = min F.QY_DB_STALE_OUT_OF_RANGE.max (b.rd F.QY_DB_STALE_OUT_OF_RANGE + 1)))) ∧
    (tget b.quay.queues qn = some q → q.standing = some (f, body, heads) → q.takes → b.sliceState q.slice = 1 → 1 ≤ q.unfetched →
      (b.quay.cmds.filter fun z => z.2.q = qn).length < q.depth → b.inflight q.slice < b.rd F.QY_SQUOTA_INFLIGHT q.slice → b.inflightAll < 16384 →
      b.ctxCheck q.slice q.bind f.hdr.ctx = none → f.hdr.ext = true → q.standingDead = none →
      (∀ w ∈ (up f.sync.wait0).toList ++ (up f.sync.wait1).toList ++ (up f.sync.sig).toList, w.2 < 2 ^ 63) →
      ∃ b' x y, Gives (.standingLaunch qn) s b' ∧ tget b'.quay.cmds b.quay.nextCmd = some x ∧ x.ph = .waiting ∧ x.body = body ∧ x.heads = heads ∧
        x.sync = ⟨up f.sync.wait0, up f.sync.wait1, up f.sync.sig⟩ ∧ x.launchPos = some ((q.fetch + 1) % (2 * 2 ^ q.n)) ∧
        tget b'.quay.queues qn = some y ∧ y.launches = q.launches + 1 ∧ y.fetch = (q.fetch + 1) % (2 * 2 ^ q.n) ∧ b'.regs = b.regs)

/-- Fetched commands (R63, R272, R276, R277, R278, R279, R282): a TENSOR, MOVE, GENERAL, FERRY or LIGHTERn command, or an ARM or ADD with a buffer list to read, that its queue can take and that passes steps 1 to 4 of R282 is held with its header, body and buffers, and the fetch position moves past its slots; one whose context is not a live one of the slice ends with PROTECTION_FAULT and DETAIL 1, and does not signal. -/
def Obligations.FetchedCommandsAreCheckedAndHeld : Prop :=
  ∀ (s : State) (qn : Nat) (q : Queue) (f : Fetched) (t : TensorBody) (m : MoveBody) (g : GeneralBody) (y : FerryBody) (d : List Byte) (v : ServeBody) (ds : List SeqDesc),
    let b := s.blk
    let sync := if f.hdr.ext then f.sync else SyncExt.none
    let passes (body : Body) : Prop := q.cls = body.cls ∧ b.checkSlot q.slice q.bind { f with bufs := f.bufs.take f.hdr.nbuf } sync body = none
    let badCtx (b' : Block) (x : Cmd) : Prop := tget b'.quay.cmds b.quay.nextCmd = some x ∧ x.ph = .ended ∧ x.status = 0x21 ∧ x.detail = 1 ∧
      x.noSignal = true ∧ b'.rd F.QY_CMD_STAT_BAD_CTX = min F.QY_CMD_STAT_BAD_CTX.max (b.rd F.QY_CMD_STAT_BAD_CTX + 1)
    tget b.quay.queues qn = some q → q.k ≠ 0 → q.standing = none → b.canFetch s.env qn q f.hdr.ext = true → b.pilot.waiting = [] →
    (passes (.tensor t) → Fetches (.tensorCommand qn f t) s qn q f (.tensor t)) ∧
    (passes (.move m) → Fetches (.moveCommand qn f m) s qn q f (.move m)) ∧
    (passes (.general g) → Fetches (.generalCommand qn f g) s qn q f (.general g)) ∧
    (passes (.ferry y) → Fetches (.ferryCommand qn f y) s qn q f (.ferry y)) ∧
    (5 ≤ q.cls → passes (.lighter (q.cls - 5) d) → Fetches (.lighterCommand qn f d) s qn q f (.lighter (q.cls - 5) d)) ∧
    (f.hdr.nbuf ≠ 0 → passes (.serve 1 v [] []) → Fetches (.arm qn f v) s qn q f (.serve 1 v [] [])) ∧
    (f.hdr.nbuf ≠ 0 → passes (.serve 3 v ds []) → Fetches (.add qn f v ds) s qn q f (.serve 3 v ds [])) ∧
    (tget b.quay.ctxs f.hdr.ctx = none →
      (q.cls = 0 → ∃ b' x, Gives (.tensorCommand qn f t) s b' ∧ badCtx b' x) ∧ (q.cls = 1 → ∃ b' x, Gives (.moveCommand qn f m) s b' ∧ badCtx b' x) ∧
      (q.cls = 3 → ∃ b' x, Gives (.generalCommand qn f g) s b' ∧ badCtx b' x) ∧ (q.cls = 4 → ∃ b' x, Gives (.ferryCommand qn f y) s b' ∧ badCtx b' x) ∧
      (5 ≤ q.cls → ∃ b' x, Gives (.lighterCommand qn f d) s b' ∧ badCtx b' x))
/-! ### The admin queue -/

/-- Contexts (R295, R296, R298 to R300): CTX_CREATE allocates a context and returns its number, or completes with QUOTA; destroying or tearing down a context makes it TEARING, once nothing of it runs it is FREE and the command that waits for it completes. -/
def Obligations.ContextsAreCreatedAndTornDown : Prop :=
  ∀ (s : State) (sl c n qn : Nat) (h hw : CmdHdr) (q : Queue) (x : Ctx) (b1 : Block),
    let b := s.blk
    let k := c % 4096
    (AdminReady s sl h qn q →
      (b.ctxCount sl < b.rd F.QY_SQUOTA_CONTEXTS sl → b.newCtx sl = some (n, b1) →
        ∃ b', AdminGives (.ctxCreate sl h) s h qn q 0 n b' ∧ tget b'.quay.ctxs n = some ⟨sl, .live, 0, none⟩ ∧ b'.regs = b.regs) ∧
      (b.rd F.QY_SQUOTA_CONTEXTS sl ≤ b.ctxCount sl →
        ∃ b', AdminGives (.ctxCreate sl h) s h qn q 0x61 0 b' ∧ b'.quay.ctxs = b.quay.ctxs ∧ b'.regs = b.regs) ∧
      (tget b.quay.ctxs k = some x → x.slice ≠ sl → ∃ b', AdminGives (.ctxDestroy sl h c) s h qn q 0x21 0 b' ∧ b'.quay.ctxs = b.quay.ctxs) ∧
      (tget b.quay.ctxs k = some x → x.slice = sl → x.st = .live → (∀ y ∈ b.quay.cmds, y.2.hdr.ctx ≠ k) → (∀ y ∈ b.quay.fences, y.2.owner ≠ k) →
        ∃ b', Gives (.ctxDestroy sl h c) s b' ∧ tget b'.quay.ctxs k = some { x with st := .tearing, since := s.aon.ns, waiter := some (h, false) } ∧
          b'.host = b.host) ∧
      (b.quay.cmds = [] → b.quay.fences = [] →
        ∃ b', Gives (.ctxDestroyAll sl h) s b' ∧ ∀ j y, tget b.quay.ctxs j = some y → y.slice = sl →
          ∃ z, tget b'.quay.ctxs j = some z ∧ z.slice = sl ∧ z.st = .tearing ∧ z.waiter = some (h, true))) ∧
    (tget b.quay.ctxs c = some x → x.st = .live → (∀ y ∈ b.quay.cmds, y.2.hdr.ctx ≠ c) → (∀ y ∈ b.quay.fences, y.2.owner ≠ c) →
      ∃ b', Gives (.contextTeardown c) s b' ∧ tget b'.quay.ctxs c = some { x with st := .tearing, since := s.aon.ns } ∧
        (∀ j y, tget b.quay.queues j = some y → y.st = .live → y.bind = c → ∃ z, tget b'.quay.queues j = some z ∧ z.st = .stopped)) ∧
    (tget b.quay.ctxs c = some x → x.st = .tearing → b.ctxQuiet c = true → x.waiter = some (hw, false) →
      b.findQueue x.slice 0 = some (qn, q) → tget b.quay.queues qn = some q → (b.freeCtx c).recordReady s.env qn q →
      ∃ b', Gives (.teardownComplete c) s b' ∧ tget b'.quay.ctxs c = none ∧ b'.quay.ctxFreed = b.quay.ctxFreed ++ [c] ∧
        RecordSent s b' qn q q.fetch hw.tag hw.ctx 0 0 0)

/-- Queues (R265, R287, R295, R297): a queue's rings are handed to Pilot for stamping while the command waits, arguments out of range complete with ABORTED; QUEUE_DESTROY stops fetching, of a queue that a teardown had STOPPED too, and once nothing of the queue is left it is freed and the command completes. -/
def Obligations.QueuesAreCreatedAndFreed : Prop :=
  ∀ (s : State) (sl qn kn j k : Nat) (h hd : CmdHdr) (q y aq : Queue) (r : QueueBody),
    let b := s.blk
    let base := ((tget b.quay.slices sl).map (·.baseCtx)).getD 0
    let rings : List Need := [⟨r.sqVa, 64 * 2 ^ r.n, true, false, false, 0⟩, ⟨r.cqVa, 32 * 2 ^ r.m, false, true, false, 1⟩]
    let task := StampTask.new sl base (.queue sl h r none) rings
    (AdminReady s sl h qn q →
      ((b.quay.queues.filter fun z => z.2.slice = sl).length < b.rd F.QY_SQUOTA_QUEUES sl → b.quay.queues.length < 8192 →
        (b.queueArgsOk s.env sl r = true → r.standing = false → b.pilot.cache = [] →
          ∃ b' z, Gives (.queueCreate sl h r none) s b' ∧ b'.stamping task ∧ tget b'.quay.queues qn = some z ∧ z.busy = true ∧ z.cqTail = q.cqTail) ∧
        (b.queueArgsOk s.env sl r = false → ∃ b', AdminGives (.queueCreate sl h r none) s h qn q 0x10 0 b' ∧ b'.regs = b.regs)) ∧
      (b.rd F.QY_SQUOTA_QUEUES sl ≤ (b.quay.queues.filter fun z => z.2.slice = sl).length →
        ∃ b', AdminGives (.queueCreate sl h r none) s h qn q 0x61 0 b' ∧ b'.regs = b.regs) ∧
      (0 < k → k ≤ 255 → b.findQueue sl k = some (kn, y) → tget b.quay.queues kn = some y → y.st ≠ .broken → kn ≠ qn →
        ∃ b' z, Gives (.queueDestroy sl h k) s b' ∧ tget b'.quay.queues kn = some z ∧ z.st = .destroying ∧ z.destroyer = some h ∧ b'.host = b.host) ∧
      (b.findQueue sl k = none → ∃ b', AdminGives (.queueDestroy sl h k) s h qn q 0x10 0 b' ∧ b'.regs = b.regs)) ∧
    (tget b.quay.queues j = some y → y.destroyer = some hd → (∀ z ∈ b.quay.cmds, z.2.q ≠ j) → y.held = [] → y.k ≠ 0 → b.ctxCheck y.slice 0 hd.ctx = none →
      b.findQueue y.slice 0 = some (qn, aq) → tget b.quay.queues qn = some aq → qn ≠ j →
      (b.freeStamps (y.ringHeads ++ match y.standing with | some (_, _, hs) => hs | none => [])).recordReady s.env qn aq →
      ∃ b', Gives (.queueFree j) s b' ∧ tget b'.quay.queues j = none ∧ RecordSent s b' qn aq aq.fetch hd.tag hd.ctx 0 0 0 ∧
        b'.rd F.BW_SCHED_LC_LOAD (b.slicePart y.slice) = b.rd F.BW_SCHED_LC_LOAD (b.slicePart y.slice) - y.load)

/-- Fences (R290 to R296): created with a value below 2^63, read, signalled to the larger of value and argument, granted, released; a destroyed fence is broken, reads all ones and ends the commands that wait on it; an action without the right completes with PROTECTION_FAULT and changes no fence. -/
def Obligations.FencesFollowTheirRights : Prop :=
  ∀ (s : State) (sl qn f init va peer v n c : Nat) (h : CmdHdr) (q : Queue) (x : Fence) (w g : Bool) (b1 : Block) (cmd : Cmd),
    let b := s.blk
    let fresh : Fence := ⟨init, h.ctx, sl, [], if va = 0 then none else some va, false⟩
    let others := x.rights.filter fun r => r.slice ≠ peer
    let keeps (c : Instr) (st : Nat) : Prop := ∃ b', AdminGives c s h qn q st 0 b' ∧ b'.quay.fences = b.quay.fences
    AdminReady s sl h qn q → (∀ z ∈ b.quay.fences, z.2.broken = true → z.2.rights ≠ []) →
    ((b.quay.fences.filter fun z => z.2.slice = sl).length < b.rd F.QY_SQUOTA_FENCES sl →
      (init < 2 ^ 63 → b.newFence fresh = some (n, b1) →
        ∃ b', AdminGives (.fenceCreate sl h init va) s h qn q 0 n b' ∧ tget b'.quay.fences n = some fresh ∧ b'.regs = b.regs) ∧
      (2 ^ 63 ≤ init → keeps (.fenceCreate sl h init va) 0x10)) ∧
    (b.rd F.QY_SQUOTA_FENCES sl ≤ (b.quay.fences.filter fun z => z.2.slice = sl).length → keeps (.fenceCreate sl h init va) 0x61) ∧
    (tget b.quay.fences f = some x →
      (x.slice = sl → x.broken = false → x.mirror = none → x.rights ≠ [] →
        ∃ b', AdminGives (.fenceDestroy sl h f) s h qn q 0 0 b' ∧ tget b'.quay.fences f = some { x with broken := true } ∧
          (tget b.quay.cmds c = some cmd → cmd.ph = .waiting → cmd.suspect = 0 → cmd.list? = false → cmd.status = 0 → cmd.slice = sl →
            cmd.sync.wait0 = some (f, v) → cmd.sync.wait1 = none → cmd.met0 = false → x.value < v → ∃ z, tget b'.quay.cmds c = some z ∧ z.ph = .ended ∧ z.status = 0x12)) ∧
      (x.slice ≠ sl → keeps (.fenceDestroy sl h f) 0x21 ∧ (peer < 512 → keeps (.fenceGrant sl h f peer w g) 0x21)) ∧
      (x.slice = sl → peer < 512 → others.length < 7 →
        ∃ b', AdminGives (.fenceGrant sl h f peer w g) s h qn q 0 0 b' ∧ tget b'.quay.fences f = some { x with rights := others ++ [(⟨peer, w, g⟩ : Grant)] }) ∧
      (x.slice = sl → peer < 512 → 7 ≤ others.length → keeps (.fenceGrant sl h f peer w g) 0x61) ∧
      ((x.rights.any fun r => r.slice = sl) = true → x.broken = false →
        ∃ b', AdminGives (.fenceRelease sl h f) s h qn q 0 0 b' ∧ tget b'.quay.fences f = some { x with rights := x.rights.filter fun r => r.slice ≠ sl }) ∧
      ((b.fenceRights f sl).1 = true →
        ∃ b', AdminGives (.fenceRead sl h f) s h qn q 0 (if x.broken then 2 ^ 64 - 1 else x.value) b' ∧ b'.quay.fences = b.quay.fences) ∧
      ((b.fenceRights f sl).1 = false → keeps (.fenceRead sl h f) 0x21) ∧
      (v < 2 ^ 63 → (b.fenceRights f sl).2 = true → x.broken = false → x.mirror = none →
        ∃ b', AdminGives (.fenceSignal sl h f v) s h qn q 0 0 b' ∧ tget b'.quay.fences f = some { x with value := max x.value v }) ∧
      (v < 2 ^ 63 → (b.fenceRights f sl).2 = false → keeps (.fenceSignal sl h f v) 0x21) ∧
      (2 ^ 63 ≤ v → keeps (.fenceSignal sl h f v) 0x13))
/-! ### Pilot and the general cores -/

/-- Withdrawing a mapping (R226, R227, R315, R316, R317): an Invalidation purges the cache, marks the stamps it meets stale and tells their holders; further ones wait in order, and what is asked of the host for their ranges will be discarded (R313); a holder told halts its transfers or drops its TLB entries; with its acknowledgement counted and none left the Invalidation Completion leaves; a re-stamp clears STALE and raises GEN; a holder 3 µs late is reset. -/
def Obligations.MappingsAreWithdrawnAndRestamped : Prop :=
  ∀ (s : State) (ps : Option Nat) (va size n k g hd st : Nat) (h : Holder) (heads : List Nat) (x : Inval) (rest : List Inval)
    (t : Xfer) (sm : Stream) (tk : StampTask) (nd : Need) (runs : List RunRec) (v : HeadView),
    let b := s.blk
    let met := b.matchHeads ⟨ps, va, size, [], [], false, 0⟩
    let who := ((met.flatMap fun i => tgetD b.pilot.holders i []) ++ b.strayEngines met).eraseDups
    (b.pilot.invals = [] → who ≠ [] →
      ∃ b' y, Gives (.invalidationRequest ps va size) s b' ∧ b'.pilot.invals = [y] ∧ y.waiting = who ∧ y.heads = met ∧
        b'.pilot.cache = cachePurge b.pilot.cache ps va size ∧ (∀ i ∈ met, ∀ w, b'.head i = some w → w.stale = true) ∧
        (∀ w ∈ who, ∃ l, (w, l) ∈ b'.pilot.notices) ∧ b'.host = b.host) ∧
    (b.pilot.invals = x :: rest → rest.length < 32 →
      ∃ b', Gives (.invalidationRequest ps va size) s b' ∧
        b' = { b with pilot := { b.pilot with
          invals := b.pilot.invals ++ [⟨ps, va, size, [], [], false, s.aon.ns⟩]
          streams := b.pilot.streams.map fun y => (y.1, b.overtaken ps va size y.2) } }) ∧
    (b.pilot.notices.find? (fun y => y.1 = Holder.engine n k) = some (.engine n k, heads) → k < 2 → (b.berth n).stream = some sm →
      (b.berth n).eng k = [t] → t.failed = none → (∃ i ∈ t.bufs, ∃ j ∈ heads, b.bufHead sm.job i = some j) →
      ∃ b' u w, Gives (.staleNotice (.engine n k)) s b' ∧ (b'.berth n).eng k = [{ t with halted := some u, haltedOut := w }] ∧ t.issued ≤ u ∧
        (∀ o, w = some o → b.outAt n k t ≤ o) ∧
        b'.pilot.notices = b.pilot.notices.erase (.engine n k, heads)) ∧
    (b.pilot.notices.find? (fun y => y.1 = Holder.core g) = some (.core g, heads) →
      ∃ b', Gives (.staleNotice (.core g)) s b' ∧ (b'.core g).tlb = (b.core g).tlb.filter (fun y => !heads.contains y.2.2.2.1) ∧
        b'.pilot.notices = b.pilot.notices.erase (.core g, heads)) ∧
    (b.pilot.invals = x :: rest → x.waiting.contains h = true → (∀ y ∈ b.pilot.notices, y.1 ≠ h) → b.mayAck h x.heads = true →
      ((x.waiting.filter (· ≠ h)) ≠ [] →
        ∃ b', Gives (.staleAcknowledge h) s b' ∧ b'.pilot.invals = { x with waiting := x.waiting.filter (· ≠ h) } :: rest ∧ b'.host = b.host) ∧
      ((x.waiting.filter (· ≠ h)) = [] → rest = [] → b.pilot.streams = [] → b.pilot.waiting = [] → (∀ i ∈ x.heads, b.head i = none) →
        ∃ b', Gives (.staleAcknowledge h) s b' ∧ b'.pilot.invals = [] ∧ b'.host.out = b.host.out ++ [.invalDone x.pasid x.va x.size])) ∧
    (b.pilot.streams.find? (fun y => match y.2.why with | .restamp i => i = hd | _ => false) = some (st, tk) → tk.failed = none → tk.needs = [] →
      tk.halt = false → tk.done = [(nd, runs)] → b.head hd = some v →
      (runs.length ≤ v.runs ∨ b.stampsUsed v.slice + runs.length ≤ b.rd F.PL_SQUOTA_QUOTA v.slice + v.runs) →
      (∀ y ∈ b.quay.queues, hd ∈ y.2.ringHeads → y.2.held = []) →
      b.pilot.waiting = [] → (∀ y ∈ b.berths, y.2.stream = none) → (∀ y ∈ b.lighters, y.2.held = []) →
      ∃ b' w, Gives (.restampComplete hd) s b' ∧ b'.head hd = some w ∧ w.stale = false ∧ w.gen = (v.gen + 1) % 2 ^ 16 ∧ w.runs = runs.length ∧
        w.blen = v.blen ∧ w.va = v.va ∧ tget b'.pilot.streams st = none) ∧
    (b.pilot.invals = x :: rest → g < 8 → x.waiting.contains (.core g) = true → x.since + 3000 ≤ s.aon.ns → (b.core g).resetStep = none →
      (b.core g).task = none → (b.core g).on = true →
      ∃ b' tr, Gives (.holderEscalation (.core g)) s b' ∧ (b'.core g).resetStep = some (1, tr) ∧ (b'.core g).tlb = [] ∧
        (∃ y, b'.pilot.invals = y :: rest ∧ y.escalated = true ∧ y.waiting = x.waiting))

/-- Translations, granules and dirty logs (R304, R310 to R312, R320, R324 to R326): a completion's pages cover the buffer and the command's stamps are written, an error fails it with TRANSLATION_FAULT in step 5; a PRG Response of Success asks again, a timeout fails; a granule write is discarded part by part where the part is not allowed; a log is started once, harvested by switching it, and stopped. -/
def Obligations.TranslationsGranulesAndDirtyLogs : Prop :=
  ∀ (s : State) (st c va ph code since g sl base pages la lb : Nat) (l : List Trans) (t : StampTask) (n : Need) (nds : List Need) (x : Cmd) (z : Xlat)
    (v : Word) (m : Mgr) (d : DirtyLog),
    let b := s.blk
    let pasid := b.pasidOf t.slice
    let b1 := b.addPages s.env pasid va l
    let failed (b' : Block) (f : Fld) : Prop := (∃ y, tget b'.quay.cmds c = some y ∧ y.ph = .ended ∧ y.status = 0x20 ∧ y.detail = 5) ∧
      tget b'.pilot.streams st = none ∧ b'.rd f = min f.max (b.rd f + 1)
    let part (w : Word) (i : Nat) : Nat := w.toNat / 2 ^ (16 * i) % 65536
    (st < 64 → tget b.pilot.streams st = some t → t.why = .command c → tget b.quay.cmds c = some x → x.ph = .stamping → x.status = 0 → b.pilot.waiting = [] →
      (∀ y ∈ b.pilot.streams, y.2.pageWait = false) →
      (t.asked = some va → t.pageReq = none → t.crossed = [] → t.halt = false →
        (t.needs = [n] → t.at_ = 0 → t.cur = [] → t.done = [] → n.image = false → 0 < n.len → n.len ≤ 2 ^ 34 → t.slice = x.slice →
          (∀ tb, x.body ≠ .tensor tb) → z.read = true → z.write = true → z.count ≤ 16 →
          (∀ i, i < n.len → cacheFind b1.pilot.cache pasid (n.va + i) = some z ∧
            b.classify s.env (z.phys + (n.va + i - z.va)) = (1, ph + i)) → 2 ≤ b.stampRoom x.slice →
          ∃ b' y h w r, Gives (.translationCompletion st (.pages l)) s b' ∧ tget b'.quay.cmds c = some y ∧ y.ph = .waiting ∧ y.heads = [h] ∧
            b'.head h = some w ∧ w.blen = n.len ∧ w.va = n.va ∧ w.stale = false ∧ b'.runAt h 0 = some r ∧ r.phys = ph ∧ r.len = n.len ∧ r.cls = 1 ∧
            tget b'.pilot.streams st = none) ∧
        (∃ b', Gives (.translationCompletion st .fail) s b' ∧ failed b' F.PL_MISS_STAT_ATS_FAIL) ∧
        (∃ b', Gives (.translationCompletion st .untrans) s b' ∧ failed b' F.PL_MISS_STAT_UNTRANS)) ∧
      (t.asked = some va → t.pageReq = some since → t.halt = false →
        (t.needs = n :: nds → t.at_ < n.len → va = (n.va + t.at_) / 4096 * 4096 →
          ∃ b' y, Gives (.prgResponse st 0) s b' ∧ tget b'.pilot.streams st = some y ∧ y.pageReq = none ∧ y.asked = some (va / 4096 * 4096) ∧
          (∃ k w, b'.host.out = b.host.out ++ [.xlatReq st pasid (va / 4096 * 4096) k w]) ∧ b'.pilot.cache = cachePurge b.pilot.cache (some pasid) va 4096) ∧
        (code ≠ 0 → ∃ b', Gives (.prgResponse st code) s b' ∧ failed b' F.PL_MISS_STAT_PRI_FAIL) ∧
        (since + b.rd F.PL_CTL_PRI_TIMEOUT * 1000000 ≤ s.aon.ns → ∃ b', Gives (.priTimeout st) s b' ∧ failed b' F.PL_MISS_STAT_PRI_FAIL))) ∧
    (g < 65536 → ∃ b', Gives (.granuleWrite g v) s b' ∧ ∀ i, i < 4 →
      let new := part v i
      let owner := new % 1024
      part (b'.reg .plGranule g) i =
        if 512 ≤ owner ∧ owner ≠ 0x3FF then part (b.reg .plGranule g) i
        else if 32768 ≤ new then (if b.backed s.env ((4 * g + i) * 2 ^ 21) then 32768 + owner else part (b.reg .plGranule g) i)
        else owner) ∧
    (MgrReady s m 0x0801 → b.sliceExists sl = true → base % 4096 = 0 → 0 < pages → pages ≤ 2 ^ 28 → la % 64 = 0 → lb % 64 = 0 →
      (∀ w ∈ b.pilot.logLines, w.sl ≠ sl) →
      (thas b.pilot.dirty sl = false → b.pilot.dirty.length < 64 →
        ∃ b', MgrGives (.dirtyStart m sl base pages la lb) s 0 [] b' ∧ tget b'.pilot.dirty sl = some ⟨base, pages, la, lb, 0, false, []⟩) ∧
      (thas b.pilot.dirty sl = true → ∃ b', MgrGives (.dirtyStart m sl base pages la lb) s 1 [] b' ∧ b'.pilot = b.pilot)) ∧
    (tget b.pilot.dirty sl = some d → (∀ w ∈ b.pilot.logLines, w.sl ≠ sl) →
      (MgrReady s m 0x0802 → ∃ b', MgrGives (.dirtyHarvest m sl) s 0 [d.active, d.set.length, d.overflow.toNat] b' ∧
        tget b'.pilot.dirty sl = some { d with active := 1 - d.active, overflow := false, set := [] }) ∧
      (MgrReady s m 0x0803 → ∃ b', MgrGives (.dirtyStop m sl) s 0 [d.active, d.set.length, d.overflow.toNat] b' ∧ tget b'.pilot.dirty sl = none))

/-- The general cores (R278, R322, R341): a TLB miss inside a buffer loads an aligned span of the stamp's run, one outside every buffer ends the task with PROTECTION_FAULT; ECALL 0 ends it with its result, another code, a run beyond LIMIT and a trap with ABORTED and DETAIL 3, 1, 2; a task that has run 10 ms gives way where a slice of smaller core virtual time waits. -/
def Obligations.GeneralTasksRunAndEnd : Prop :=
  ∀ (s : State) (g c va h : Nat) (x : Cmd) (y : Buf) (a7 a0 : Word) (gb : GeneralBody) (hv : HeadView) (r : RunView),
    let b := s.blk
    let e := s.env
    let k := b.core g
    let m := b.markCores e
    let ended (b' : Block) (st detail result : Nat) : Prop := (∃ z, tget b'.quay.cmds c = some z ∧ z.ph = .ended ∧ z.status = st ∧
      z.detail = detail ∧ z.result = result) ∧ (b'.core g).task = none ∧ (b'.core g).pc = 0 ∧ (b'.core g).tlb = []
    g < 8 → k.task = some c → k.resetStep = none → tget b.quay.cmds c = some x → x.ph = .running → x.status = 0 → x.body = .general gb →
    (x.bufs = [y] → y.va ≤ va → va < y.va + y.len → b.bufHead c 0 = some h → b.head h = some hv → hv.stale = false →
      b.runAt h (va - y.va) = some r → r.stale = false →
      ∃ b' base size l, Gives (.mmuMiss g va) s b' ∧ (b'.core g).tlb = (base, r.phys + (base - (y.va + r.boff)), size, h, r.read, r.write) :: l ∧
        base ≤ va ∧ va < base + size ∧ size ≤ 2 ^ 21 ∧ base % size = 0 ∧ l = k.tlb.take 63 ∧ (b'.core g).task = some c) ∧
    ((∀ z ∈ x.bufs, ¬ (z.va ≤ va ∧ va < z.va + z.len)) → (∃ b', Gives (.mmuMiss g va) s b' ∧ ended b' 0x21 0 0)) ∧
    (∃ b', Gives (.generalTaskEcall g 0 a0) s b' ∧ ended b' 0 0 a0.toNat) ∧
    (a7 ≠ 0 → (∃ b', Gives (.generalTaskEcall g a7 a0) s b' ∧ ended b' 0x10 3 0)) ∧
    (1000 * gb.limit < k.ran + (s.aon.ns - k.since) → (∃ b', Gives (.generalTaskLimit g) s b' ∧ ended b' 0x10 1 0)) ∧
    (k.ran + (s.aon.ns - k.since) ≤ 1000 * gb.limit → Gives (.generalTaskLimit g) s b) ∧
    (∃ b', Gives (.generalTaskTrap g true) s b' ∧ ended b' 0x21 0 0) ∧ (∃ b', Gives (.generalTaskTrap g false) s b' ∧ ended b' 0x10 2 0) ∧
    (k.taken + 10000000 ≤ s.aon.ns → (∃ z ∈ m.coreCands, z.2.slice ≠ x.slice ∧ m.coreNow e z.2.slice < m.coreNow e x.slice) →
      ∃ b' z, Gives (.coreTimeslice g) s b' ∧ tget b'.quay.cmds c = some z ∧ z.ph = .saved ∧
        z.task = some (k.pc, k.a0, k.sp, k.ran + (s.aon.ns - k.since), k.regs) ∧ (b'.core g).task = none ∧ (b'.core g).pc = 0)
/-! ### Manifest -/

/-- SERVE commands (R230, R231, R236 to R238): what each does when its turn comes, and how it ends; without an open ARM every one but ARM completes with UNAVAILABLE, and one that names a sequence of another slice with PROTECTION_FAULT. -/
def Obligations.ServeCommandsActOnSequences : Prop :=
  ∀ (s : State) (q c i : Nat) (f : Fetched) (v : ServeBody) (ds : List SeqDesc) (d : SeqDesc) (ws : List Nat) (x : Cmd) (m : Block)
    (a : Armed) (y : SeqEntry) (md : Model),
    let sl := x.slice
    let seqs := m.manifest.seqs
    let turn (sop : Nat) (ds : List SeqDesc) (ws : List Nat) : Prop := ServeTurn s q f (.serve sop v ds ws) c x m
    let own : Prop := m.serving sl = true ∧ i = v.seq % 16384 ∧ tget seqs i = some y ∧ y.slice = sl ∧ y.deferRelease = false ∧ y.inList = false
    let ends (r : Instr) (st : Nat) : Prop := ∃ b', Gives r s b' ∧ b'.endedWith c st ∧ b'.manifest = m.manifest
    let into (b' : Block) (z : SeqEntry) : Prop := b'.endedWith c 0 ∧ tget b'.manifest.seqs i = some z ∧
      ∀ j, j ≠ i → tget b'.manifest.seqs j = tget seqs j
    let ring := if v.arg0.toNat % 65536 = 0 then 65536 else v.arg0.toNat % 65536
    let free := v.arg0.toNat / 65536 % 65536
    let mask := v.arg0.toNat % 128
    (turn 1 [] [] → thas m.manifest.armed sl = false → 64 ≤ ring → isPow2 ring = true → 1 ≤ free → free ≤ 4096 → 4 ≤ x.bufs.length →
      ∃ b' z, Gives (.arm q f v) s b' ∧ tget b'.manifest.armed sl = some z ∧ z.cmd = c ∧ z.ringN = ring ∧ z.freeN = 1024 * free ∧ z.prod = 0 ∧
        z.free = [] ∧ b'.manifest.seqs = seqs ∧ ∃ k, tget b'.quay.cmds c = some k ∧ k.ph = .running) ∧
    (turn 1 [] [] → thas m.manifest.armed sl = true → ends (.arm q f v) 0x61) ∧
    (turn 2 [] [] → tget m.manifest.armed sl = some a → a.disarm = none → a.cmd ≠ c → m.listsOf sl = [] →
      ∃ b', Gives (.disarm q f v) s b' ∧ b'.endedWith c 0 ∧ tget b'.manifest.armed sl = none ∧
        ∀ j z, tget seqs j = some z → z.slice = sl → z.inList = false → tget b'.manifest.seqs j = none) ∧
    (turn 3 ds [] → m.serving sl = true → 1 ≤ v.count → v.count ≤ 512 → ds.length = v.count → x.bufs ≠ [] →
      (∀ e ∈ ds, ∃ k, m.model e.model = some k ∧ k.r.usableBy sl = true ∧ e.ok k.r.denoise = true ∧ (m.rd F.MF_PCTL_DET (m.slicePart sl) = 0 ∨ k.r.detSafe = true)) →
      m.seqsUsed sl + v.count ≤ m.rd F.MF_SQUOTA_QUOTA sl → m.shareUsed (m.slicePart sl) + v.count ≤ m.rd F.MF_PCTL_ENTRIES (m.slicePart sl) →
      ∃ b', Gives (.add q f v ds) s b' ∧ b'.endedWith c 0 ∧
        ∀ (j k : Nat) (e : SeqDesc), (m.freeSeqIds v.count)[j]? = some k → ds[j]? = some e → ∀ mo, m.model e.model = some mo → tget b'.manifest.seqs k = some (newSeq sl e mo.r.denoise)) ∧
    (turn 4 [d] [] → own → m.model y.g.model = some md → (y.update mask d).g.ok md.r.denoise = true →
      (m.rd F.MF_PCTL_DET (m.slicePart sl) = 0 ∨ md.r.detSafe = true) →
      ∃ b', Gives (.update q f v d) s b' ∧ into b' (if mask.testBit 1 = true ∧ y.phase = 4 ∧ y.parkReason = 3
        then { y.update mask d with phase := y.resumePhase, parkReason := 0, resumePhase := 0 } else y.update mask d)) ∧
    (turn 5 [] ws → own → m.denoises y = false → ws.length = v.count →
      ∃ b', Gives (.append q f v ws) s b' ∧ into b' { y with
        position := y.position + v.count, pending := y.pending + v.count
        phase := if y.phase = 4 then 4 else 1, resumePhase := if y.phase = 4 then 1 else y.resumePhase }) ∧
    (turn 6 [] [] → own → y.phase ≠ 4 → y.phase ≠ 5 →
      ∃ b' z, Gives (.park q f v) s b' ∧ b'.endedWith c 0 ∧ tget b'.manifest.seqs i = some z ∧ z.phase = 4 ∧ z.parkReason = 2 ∧
        z.resumePhase = y.phase ∧ z.g = y.g ∧ z.position = y.position ∧ z.pages = y.pages) ∧
    (turn 7 [] [] → own → y.phase = 4 → y.parkReason ≠ 1 → ∃ b', Gives (.resume q f v) s b' ∧ into b' { y with phase := y.resumePhase, parkReason := 0, resumePhase := 0 }) ∧
    (turn 7 [] [] → own → y.phase ≠ 4 → ends (.resume q f v) 0x10) ∧
    (turn 8 [] [] → own → ∃ b', Gives (.release q f v) s b' ∧ b'.endedWith c 0 ∧ tget b'.manifest.seqs i = none) ∧
    (turn 9 [] ws → tget m.manifest.armed sl = some a → a.disarm = none → ws.length = v.count → a.free.length + v.count ≤ a.freeN →
      (∀ z ∈ seqs, z.2.slice = sl → z.2.phase = 4 → z.2.parkReason ≠ 1) →
      ∃ b', Gives (.pages q f v ws) s b' ∧ b'.endedWith c 0 ∧
        tget b'.manifest.armed sl = some { a with free := a.free ++ ws, appended := a.appended + v.count } ∧ b'.manifest.seqs = seqs) ∧
    (m.serving sl = false →
      (turn 2 [] [] → ends (.disarm q f v) 0x70) ∧ (turn 3 ds [] → ends (.add q f v ds) 0x70) ∧ (turn 4 [d] [] → ends (.update q f v d) 0x70) ∧
      (turn 5 [] ws → ends (.append q f v ws) 0x70) ∧ (turn 6 [] [] → ends (.park q f v) 0x70) ∧ (turn 7 [] [] → ends (.resume q f v) 0x70) ∧
      (turn 8 [] [] → ends (.release q f v) 0x70) ∧ (turn 9 [] ws → ends (.pages q f v ws) 0x70)) ∧
    (m.serving sl = true → tget seqs (v.seq % 16384) = some y → y.slice ≠ sl →
      (turn 4 [d] [] → ends (.update q f v d) 0x21) ∧ (turn 5 [] ws → ends (.append q f v ws) 0x21) ∧ (turn 6 [] [] → ends (.park q f v) 0x21) ∧
      (turn 7 [] [] → ends (.resume q f v) 0x21) ∧ (turn 8 [] [] → ends (.release q f v) 0x21))
/-- Lists and models (R231 to R234, R245 to R249, R252, R257, R262, R264): the builder puts one ready sequence in a list whose job is a candidate; a completed list moves its sequences on by the token they sampled, a failed one parks them with reason FAULT; models are registered once stamped, retired when nothing names them, and given a fallback; SERVE_CONFIG applies what fits. -/
def Obligations.ListsAndModelsAreKept : Prop :=
  ∀ (s : State) (p id i t h f ents fl : Nat) (outs : List StepOut) (y : SeqEntry) (md : Model) (l : LoadList) (x : Cmd) (en : ListEntry)
    (g : Mgr) (r : ModelRec) (pre st : ModelProg) (on det : Bool),
    let b := s.blk
    let e := s.env
    let m := b.flushOwed.settleServe e
    let others := ((List.range 16).filter (· ≠ p)).foldl (fun n k => n + b.rd F.MF_PCTL_ENTRIES k) 0
    let cands := ((outs.find? fun o => o.seq = i).map (·.cands)).getD []
    (p < 16 → m.rd F.MF_PCTL_EN p ≠ 0 → (m.manifest.lists.filter fun k => k.2.partition = p).length < 16 →
      (m.manifest.seqs.filter fun k => m.seqReady p k.2) = [(i, y)] → Placed m.manifest.seqs i y → y.fbLane = false → y.g.be = true → y.phase = 2 →
      y.g.deadline = 0 → m.model y.g.model = some md → md.r.denoise = false → md.r.streams ≤ (m.idleBerths p).length → 1 ≤ md.r.maxSeq →
      m.ringRoom ⟨[], 0, []⟩ y.slice = true → md.pagesFor y.position ≤ y.pages.length → y.kvPos ≤ y.position → m.pilot.lost = [] →
      ∃ b' k, Gives (.listBuild p []) s b' ∧ tget b'.manifest.lists m.manifest.nextList = some k ∧ k.partition = p ∧ k.model = y.g.model ∧
        k.phase = 2 ∧ k.fallback = false ∧ k.sliceA = y.slice ∧ k.sliceB = none ∧ k.entries = [⟨i, y.position + 1 - y.kvPos, true, false, 0, false⟩] ∧
        (∃ z, tget b'.manifest.seqs i = some z ∧ z.inList = true) ∧
        ∃ c, tget b'.quay.cmds k.job = some c ∧ c.body = .list p m.manifest.nextList ∧ c.ph = .waiting) ∧
    (p < 16 → m.rd F.MF_PCTL_EN p = 0 → ∃ b', Gives (.listBuild p []) s b' ∧ b'.manifest.lists = m.manifest.lists ∧ b'.manifest.seqs = m.manifest.seqs) ∧
    (p < 16 → tget b.manifest.lists id = some l → l.partition = p → tget b.quay.cmds l.job = some x → x.ph = .ended → l.fallback = false →
      l.entries = [en] → en.seq = i → en.live = true → en.fallback = false → b.model l.model = some md → md.r.denoise = false → tget b.manifest.seqs i = some y → y.phase = 2 →
      y.deferRelease = false → y.deferPark = false → y.deferUpdate = none → (b.quay.cmds.filter fun k => servesNow k.2) = [] →
      (x.status = 0 → sampleToken y.g y.position cands = some t → (y.g.stop.take y.g.stopN).contains t = false → y.position + 1 < y.g.limit →
        ∃ b' z, Gives (.listComplete p id outs) s b' ∧ tget b'.manifest.lists id = none ∧ tget b'.quay.cmds l.job = none ∧
          tget b'.manifest.seqs i = some z ∧ z.phase = 2 ∧ z.position = y.position + 1 ∧ z.kvPos = y.kvPos + en.tokens ∧ z.inList = false) ∧
      (x.status ≠ 0 → tearsDown x.status = false → x.faultBuf = none → x.status ≠ 0x70 ∨ x.ran = true →
        ∃ b' z, Gives (.listComplete p id outs) s b' ∧ tget b'.manifest.lists id = none ∧ tget b'.quay.cmds l.job = none ∧
          tget b'.manifest.seqs i = some z ∧ z.phase = 4 ∧ z.parkReason = 4 ∧ z.resumePhase = 2 ∧ z.position = y.position ∧ z.inList = false)) ∧
    (MgrReady s g 0x0701 → r.ok = true → progOk pre = true → progOk st = true → r.fallback = none →
      firstFrom (fun k => !thas b.manifest.models k && !(b.harbour.running.filterMap fun z => if z.opcode = 0x0701 then some z.todo else none).contains k) 1024 0 = some h →
      b.modelAllowed r = true → 0 < pre.img.ilen → b.pilot.cache = [] →
      ∃ b' k z, Gives (.modelRegister g r pre st) s b' ∧ b'.stamping k ∧ k.why = .model g h r pre st ∧ k.slice = r.owner ∧
        b'.harbour.running = b.harbour.running ++ [z] ∧ z.m = g ∧ z.opcode = 0x0701 ∧ z.todo = h ∧ b'.harbour.replies = b.harbour.replies) ∧
    (MgrReady s g 0x0701 → r.ok = false → ∃ b', MgrGives (.modelRegister g r pre st) s 3 [] b' ∧ b'.manifest = b.manifest) ∧
    (MgrReady s g 0x0702 → b.model h = some md →
      (b.manifest.seqs.any (fun k => k.2.g.model = h || k.2.fbModel == some h) = false → b.manifest.models.any (fun k => k.2.r.fallback == some h) = false →
        ∃ b', MgrGives (.modelRetire g h) s 0 [] b' ∧ tget b'.manifest.models h = none) ∧
      (b.manifest.seqs.any (fun k => k.2.g.model = h) = true → ∃ b', MgrGives (.modelRetire g h) s 1 [] b' ∧ b'.manifest = b.manifest)) ∧
    (MgrReady s g 0x0703 → b.model h = some md → f ≠ h → b.fallbackFits md.r f = true →
      b.manifest.models.any (fun k => k.2.r.fallback == some h) = false →
      ∃ b', MgrGives (.fallbackSet g h (some f)) s 0 [] b' ∧ tget b'.manifest.models h = some { md with r := { md.r with fallback := some f } }) ∧
    (MgrReady s g 0x0704 → b.partExists p = true → ents ≤ 16384 - others → fl ≤ 255 → b.rd F.MF_PCTL_DET p = (if det then 1 else 0) →
      b.manifest.detWait.any (fun y => y.partition = p) = false →
      ∃ b' w, MgrGives (.serveConfig g p ents fl on det none) s 0 [w] b' ∧ b'.rd F.MF_PCTL_ENTRIES p = ents ∧ b'.rd F.MF_PCTL_BE_FLOOR p = fl ∧
        b'.rd F.MF_PCTL_EN p = (if on then 1 else 0) ∧ b'.manifest = b.manifest)
/-! ### Partitions and slices -/

/-- Partitions (R328, R333, R334, R340, R343, R346): they go and come with their berths, a berth that runs work is drained before it leaves, one that joins is scrubbed before it is owned and the command replies, RATE plus OTHER stays within what a port has left and a bucket keeps its tokens up to its new depth, and LC_SHARE stays above what is admitted. -/
def Obligations.PartitionsAreCutAndShared : Prop :=
  ∀ (s : State) (m : Mgr) (p n berths x rate other burst quantum opp share : Nat) (borrow plc : Bool) (run : Running),
    let b := s.blk
    let count := ((List.range 16).filter fun k => b.rd F.BT_STATE_OWNED k = 1 && b.rd F.BT_STATE_PARTITION k = p && decide (k ≠ n)).length
    let owns (b' : Block) (k q : Nat) : Prop := b'.rd F.BT_STATE_OWNED k = 1 ∧ b'.rd F.BT_STATE_PARTITION k = q
    (PartReady s m 0x0101 (List.range 16) → b.quay.slices = [] →
      (∃ b', MgrGives (.modeSet m 0) s 0 [] b' ∧ b'.rd F.BW_MODE_MODE = 0 ∧ ∀ q, q < 16 → b'.partExists q = false) ∧
      (∃ b', MgrGives (.modeSet m 1) s 0 [] b' ∧ b'.rd F.BW_MODE_MODE = 1 ∧ ∀ q, q < 16 → (b'.partExists q = true ↔ q = 0))) ∧
    (PartReady s m 0x0101 (List.range 16) → b.quay.slices ≠ [] → ∃ b', MgrGives (.modeSet m 0) s 5 [] b' ∧ b'.regs = b.regs) ∧
    (PartReady s m 0x0102 [p] → b.rd F.BW_MODE_MODE = 0 → p < 16 → b.partExists p = false → 0 < berths → berths < 2 ^ 16 →
      (∀ k ∈ bitsOf 16 berths, b.canJoin k = true) →
      ∃ b', MgrGives (.partitionCreate m p berths) s 0 [] b' ∧ b'.partExists p = true ∧ b'.rd F.BW_PART_BERTHS p = berths ∧
        ∀ k ∈ bitsOf 16 berths, owns b' k p) ∧
    (PartReady s m 0x0102 [p] → b.rd F.BW_MODE_MODE = 0 → b.partExists p = true → ∃ b', MgrGives (.partitionCreate m p berths) s 3 [] b' ∧ b'.regs = b.regs) ∧
    (PartReady s m 0x0103 [p] → b.rd F.BW_MODE_MODE = 0 → b.partExists p = true →
      (b.partHasSlices p = false → ∃ b', MgrGives (.partitionDestroy m p) s 0 [] b' ∧ b'.partExists p = false ∧
        ∀ k ∈ b.partBerths p, b'.rd F.BT_STATE_OWNED k = 0) ∧
      (b.partHasSlices p = true → ∃ b', MgrGives (.partitionDestroy m p) s 5 [] b' ∧ b'.regs = b.regs)) ∧
    (PartReady s m 0x0104 [p] → b.rd F.BW_MODE_MODE = 0 → b.partExists p = true → n < 16 →
      (b.canJoin n = true → b.bstate n = 1 → b.lcStreams p ≤ count + 1 → b.rd F.BW_SCHED_LC_LOAD p ≤ b.lcCapacity p (count + 1) →
        ∃ b' r, Gives (.partitionResize m p (2 ^ n) 0) s b' ∧ b'.bstate n = 5 ∧ b'.rd F.BT_STATE_OWNED n = 0 ∧
          b'.harbour.replies = b.harbour.replies ∧ b'.harbour.running = b.harbour.running ++ [r] ∧ r.m = m ∧ r.opcode = 0x0104 ∧
          r.touches = [p] ∧ r.todo = 2 ^ n) ∧
      (b.rd F.BT_STATE_OWNED n = 1 → b.rd F.BT_STATE_PARTITION n = p → b.bstate n = 2 → 1 ≤ count →
        b.lcStreams p ≤ count → b.rd F.BW_SCHED_LC_LOAD p ≤ b.lcCapacity p count →
        ∃ b' r, Gives (.partitionResize m p 0 (2 ^ n)) s b' ∧ b'.rd F.BT_CTL_DRAIN n = 1 ∧ (b'.rd F.BW_PART_DRAINING p).testBit n = true ∧
          b'.harbour.replies = b.harbour.replies ∧ b'.harbour.running = b.harbour.running ++ [r] ∧ r.m = m ∧ r.opcode = 0x0104) ∧
      (b.canJoin n = false → ∃ b', MgrGives (.partitionResize m p (2 ^ n) 0) s 3 [] b' ∧ b'.regs = b.regs)) ∧
    (n < 16 → p < 16 → b.bstate n = 5 → b.rd F.BT_STATE_OWNED n = 0 → b.harbour.failed.contains (.berth n) = false → b.harbour.running = [run] → run.m = m →
      run.opcode = 0x0104 → run.touches = [p] → run.todo = 2 ^ n → run.late = false → (tget b.harbour.sessions m.session).isSome = true →
      ∃ b', Gives (.scrubComplete n) s b' ∧ owns b' n p ∧ (b'.rd F.BW_PART_BERTHS p).testBit n = true ∧ b'.bstate n = 1 ∧ b'.harbour.running = [] ∧
        b'.harbour.replies = b.harbour.replies ++ [⟨m.session, m.seq, 0x0104, 0, []⟩]) ∧
    (PartReady s m 0x0105 [p] → b.partExists p = true → x < 28 → 1 ≤ rate → rate < 4096 → other < 4096 → 1 ≤ burst → burst ≤ 64 →
      (rate + other ≤ b.portRoom p x →
        ∃ b', MgrGives (.regulatorSet m p x rate other burst borrow) s 0 [] b' ∧ b'.rd F.BW_RATE_RATE (32 * p + x) = rate ∧
          b'.rd F.BW_RATE_OTHER (32 * p + x) = other ∧ b'.rd F.BW_RATE_BURST (32 * p + x) = burst ∧ b'.rd F.BW_RATE_BORROW (32 * p + x) = borrow.toNat ∧
          tget b'.ports.buckets (32 * p + x) = some ⟨min (b.bucket s.env p x).rate (rate * burst * 1000), min (b.bucket s.env p x).other (other * burst * 1000), s.aon.ns⟩) ∧
      (b.portRoom p x < rate + other →
        ∃ b' r o, MgrGives (.regulatorSet m p x rate other burst borrow) s 4 [r, o, burst, borrow.toNat] b' ∧ r + o = b.portRoom p x ∧
          b'.rd F.BW_RATE_RATE (32 * p + x) = r ∧ b'.rd F.BW_RATE_OTHER (32 * p + x) = o)) ∧
    (PartReady s m 0x010D [p] → b.partExists p = true → opp < 16 → share < 256 →
      (b.rd F.BW_SCHED_LC_LOAD p ≤ (b.partBerths p).length * 1000000 * share / 256 → 100 ≤ quantum → quantum ≤ 65000 →
        ∃ b', MgrGives (.schedSet m p quantum opp share plc) s 0 [] b' ∧ b'.rd F.BW_SCHED_QUANTUM p = quantum ∧ b'.rd F.BW_SCHED_ADMIT_OPP p = opp ∧
          b'.rd F.BW_SCHED_LC_SHARE p = share ∧ b'.rd F.BW_SCHED_PREEMPT_LC p = plc.toNat ∧ b'.rd F.BW_SCHED_LC_LOAD p = b.rd F.BW_SCHED_LC_LOAD p) ∧
      ((b.partBerths p).length * 1000000 * share / 256 < b.rd F.BW_SCHED_LC_LOAD p →
        ∃ b', MgrGives (.schedSet m p quantum opp share plc) s 6 [] b' ∧ b'.regs = b.regs))

/-- Slices (R330 to R332, R347 to R353, R436): creation binds what the record gives and stamps the admin rings; a quiesced slice alone can be removed, exported or made active again; an export writes the sealed image of the slice's state and is EXPORTING until it is out; removal ends with the key, once the slots of saved jobs are cleared, and the slice is ABSENT. -/
def Obligations.SlicesAreBoundMovedAndRemoved : Prop :=
  ∀ (s : State) (m mr : Mgr) (sl p addr len key t tmo cx : Nat) (mk : List Byte) (r : SliceRec) (x : Slice) (img : SliceImage) (run : Running),
    let b := s.blk
    let none_ : ResizeMask := ⟨true, false, false, false, false, false⟩
    let image := Config.sealedImage (recordBytes (b.exportImage sl x).r) (b.exportImage sl x) mk
    let rings : List Need := [⟨r.adminSq, 64 * 2 ^ r.adminN, true, false, false, 0⟩, ⟨r.adminCq, 32 * 2 ^ r.adminM, false, true, false, 1⟩]
    (PartReady s m 0x0106 [r.partition, 16 + r.slice] → b.noNewSlice s.env = false → adminRingsOk r = true → b.refuseBind s.env r.slice r = none →
      b.pilot.cache = [] →
      ∃ b' y, Gives (.sliceCreate m r) s b' ∧ b'.stamping (StampTask.new r.slice 0 (.adminQueue r.slice m r) rings) ∧
        tget b'.quay.slices r.slice = some y ∧ y.pasid = r.pasid ∧ y.msixBase = r.msixBase ∧ y.msixCount = r.msixCount ∧
        b'.slicePart r.slice = r.partition ∧ b'.rd F.BW_SLICE_WEIGHT r.slice = r.weight ∧ b'.sliceState r.slice = 0 ∧
        b'.rd F.CU_KEY_VALID r.slice = 1 ∧ thas b'.ports.keys r.slice = true ∧
        ∀ i, i < r.granCount → b'.granule ((r.granFirst + i) * 2 ^ 21) = some r.slice) ∧
    (PartReady s m 0x0106 [r.partition, 16 + r.slice] → b.noNewSlice s.env = true → ∃ b', MgrGives (.sliceCreate m r) s 2 [] b' ∧ b'.quay = b.quay) ∧
    (sl < 512 → tget b.quay.slices sl = some x →
      (PartReady s m 0x0107 [16 + sl] → b.sliceState sl = 1 → recordOk (b.masked sl x none_ r) = true → b.rd F.QY_SQUOTA_QUEUES sl ≠ 0 → b.rd F.MF_SQUOTA_QUOTA sl ≤ b.entriesRoom (b.slicePart sl) → x.msixCount = 0 → x.granCount = 0 →
        b.rd F.PL_SQUOTA_QUOTA sl ≤ b.stampRoomFor sl →
        ∃ b', MgrGives (.sliceResize m sl none_ r) s 0 [] b' ∧ b'.rd F.BW_SLICE_WEIGHT sl = r.weight ∧ b'.sliceState sl = 1 ∧
          b'.rd F.QY_SQUOTA_CONTEXTS sl = b.rd F.QY_SQUOTA_CONTEXTS sl ∧ b'.rd F.PL_SQUOTA_QUOTA sl = b.rd F.PL_SQUOTA_QUOTA sl) ∧
      (PartReady s m 0x0108 [16 + sl] → b.sliceState sl = 1 → 1 ≤ tmo → tmo ≤ 10000 →
        ∃ b' y z, Gives (.sliceQuiesce m sl 0 tmo) s b' ∧ b'.sliceState sl = 2 ∧ tget b'.quay.slices sl = some y ∧
          y.quiesce = some (m, s.aon.ns + tmo * 1000000) ∧ y.savedMode = false ∧ b'.harbour.replies = b.harbour.replies ∧
          b'.harbour.running = b.harbour.running ++ [z] ∧ z.m = m ∧ z.opcode = 0x0108 ∧ b'.berths = b.berths) ∧
      (b.sliceState sl = 2 → b.sliceRuns sl = false → b.rd F.CU_KEY_INFLIGHT sl = 0 → x.quiesce = some (mr, t) → (tget b.harbour.sessions mr.session).isSome = true →
        b.harbour.running = [run] → run.m = mr → run.opcode = 0x0108 → run.late = false →
        ∃ b', Gives (.quiesceDone sl) s b' ∧ b'.sliceState sl = 3 ∧ b'.harbour.running = [] ∧
          b'.harbour.replies = b.harbour.replies ++ [⟨mr.session, mr.seq, 0x0108, 0, []⟩]) ∧
      (PartReady s m 0x0109 [16 + sl] → b.sliceState sl = 3 → ∃ b', MgrGives (.sliceUnquiesce m sl) s 0 [] b' ∧ b'.sliceState sl = 1 ∧ b'.quay = b.quay) ∧
      (PartReady s m 0x0109 [16 + sl] → b.sliceState sl = 1 → ∃ b', MgrGives (.sliceUnquiesce m sl) s 3 [] b' ∧ b'.regs = b.regs) ∧
      (PartReady s m 0x010A [16 + sl] → b.sliceState sl = 3 →
        ∃ b', Gives (.sliceRemove m sl) s b' ∧ b'.sliceState sl = 4 ∧ b'.rd F.CU_KEY_CLOSING sl = 1 ∧ tget b'.ports.closing sl = some s.aon.ns ∧
          (∀ q ∈ b'.quay.queues, q.2.slice ≠ sl) ∧ (∀ y ∈ b'.manifest.models, y.2.r.owner ≠ sl) ∧ (∀ o ∈ b'.hold.objs, ∀ g ∈ o.2.grants, g.1 ≠ sl) ∧
          (∀ y ∈ b'.pilot.stamps, y.2.slice ≠ sl) ∧ (∀ y ∈ b'.slots, y.2.stream.slice ≠ sl)) ∧
      (PartReady s m 0x010A [16 + sl] → b.sliceState sl = 1 → ∃ b', MgrGives (.sliceRemove m sl) s 5 [] b' ∧ b'.regs = b.regs) ∧
      (MgrReady s m 0x010A → b.sliceState sl = 2 → ∃ b', MgrGives (.sliceRemove m sl) s 5 [] b' ∧ b'.regs = b.regs) ∧
      (tget b.ports.closing sl = some t → (∀ w ∈ b.ports.wipes, w.slot.isSome = true → w.slice ≠ sl) → (b.rd F.CU_KEY_INFLIGHT sl = 0 ∨ t + 100000 ≤ s.aon.ns) →
        ∃ b', Gives (.keyZeroise sl) s b' ∧ tget b'.quay.slices sl = none ∧ tget b'.ports.keys sl = none ∧ tget b'.ports.closing sl = none ∧
          b'.sliceState sl = 0 ∧ (∀ y ∈ b'.quay.ctxs, y.2.slice ≠ sl)) ∧
      (PartReady s m 0x010B [16 + sl] → b.sliceState sl = 3 → x.savedMode = true → tget b.harbour.migKeys key = some mk → image.length ≤ len →
        ∃ b' z, Gives (.sliceExport m sl addr len key) s b' ∧ b'.sliceState sl = 5 ∧ b'.host.out = b.host.out ++ [.untranslated addr image] ∧
          b'.harbour.replies = b.harbour.replies ∧ b'.harbour.running = b.harbour.running ++ [z] ∧ z.m = m ∧ z.opcode = 0x010B) ∧
      (PartReady s m 0x010B [16 + sl] → b.sliceState sl = 1 → ∃ b', MgrGives (.sliceExport m sl addr len key) s 3 [] b' ∧ b'.regs = b.regs)) ∧
    (PartReady s m 0x010C [p, 16 + sl] → b.noNewSlice s.env = false → thas b.harbour.migKeys key = true →
      b.refuseBind s.env sl { img.r with slice := sl, partition := p } = none → img.ctxs = [cx] → cx ≠ 0 → thas b.quay.ctxs cx = false → img.fences = [] → img.seqs = [] →
      (img.jobs.flatMap (·.slots)).length ≤ (b.freeSlots s.env).length →
      (img.queues = [] → img.jobs = [] → b.pilot.streams = [] →
        ∃ b' y, MgrGives (.sliceImport m sl p addr len key true img) s 0 [] b' ∧ b'.sliceState sl = 3 ∧ b'.slicePart sl = p ∧
          tget b'.quay.slices sl = some y ∧ y.pasid = img.r.pasid ∧ y.baseCtx = cx ∧ tget b'.quay.ctxs cx = some ⟨sl, .live, 0, none⟩) ∧
      (img.queues ≠ [] → b.pilot.cache = [] →
        ∃ b' y, Gives (.sliceImport m sl p addr len key true img) s b' ∧ b'.sliceState sl = 0 ∧ b'.slicePart sl = p ∧
          tget b'.quay.slices sl = some y ∧ y.pasid = img.r.pasid ∧ b'.harbour.replies = b.harbour.replies ∧
          b'.stamping (StampTask.new sl 0 (.imported sl m { img with r := { img.r with slice := sl, partition := p } }) (sliceNeeds img)))) ∧
    (PartReady s m 0x010C [p, 16 + sl] → ∃ b', MgrGives (.sliceImport m sl p addr len key false img) s 2 [] b' ∧ b'.quay = b.quay)
/-! ### The Hold -/

/-- Hold objects (R377, R378, R379, R380, R383, R491): creation reserves units on the channels of the stacks and answers a handle; sealing revokes write grants and builds the tree: an object of one slot is sealed at once, with the root in the reply, a larger one once its tree slots are programmed; a read grant needs a sealed object, a write grant one that is not; what is named is not deleted; configuration is clamped. -/
def Obligations.HoldObjectsAreKept : Prop :=
  ∀ (s : State) (m : Mgr) (hd sl mask slots h rec_ addr len v : Nat) (o : HoldObj) (rd wr : Bool) (d : Dump) (c : HoldCfg),
    let b := s.blk
    let chans := (bitsOf 8 mask).flatMap fun k => [2 * k, 2 * k + 1].filter fun ch => !(b.chan ch).out
    let per := cdiv (cdiv slots (max 1 chans.length)) 4096
    let p := b.slicePart sl
    let others := o.grants.filter fun g => g.1 ≠ sl
    let readers := (o.grants.filter fun g => g.2.1).map fun g => (g.1, true, false)
    let held := b.hold.objs.foldl (fun n x => n + (x.2.grants.filter fun g => b.slicePart g.1 = p && b.sliceExists g.1).length) 0
    let only : HoldCfg := { c with retainH := none, lapMaxD := none, mergeAge := none, wearGap := none, strength := some v, reloc := none, grants := none, units := none }
    (MgrReady s m 0x0301 → 0 < mask → mask < 256 → 0 < slots → slots < 2 ^ 32 → b.sliceExists sl = true → b.level = 2 →
      (∀ k ∈ bitsOf 8 mask, s.ties.holdMask.testBit k = true ∧ b.hstate k = 2) → (∀ ch ∈ chans, per + (b.chan ch).spares ≤ (b.chan ch).free.length) →
      b.unitsCharged p + per * chans.length ≤ b.rd F.HD_PSHARE_UNITS p → b.hold.objs.length < 65535 →
      ∃ b' i g x, MgrGives (.objCreate m sl mask slots) s 0 [g * 65536 + i] b' ∧ i < 65536 ∧ g < 65536 ∧ tget b.hold.objs i = none ∧
        b'.holdObj (g * 65536 + i) = some x ∧ x.owner = sl ∧ x.stackMask = mask ∧ x.slots = slots ∧ x.sealed = false ∧ x.grants = [] ∧
        x.written = [] ∧ x.place.map (·.1) = chans) ∧
    (MgrReady s m 0x0301 → slots = 0 → ∃ b', MgrGives (.objCreate m sl mask slots) s 3 [] b' ∧ b'.hold = b.hold) ∧
    (b.holdObj hd = some o →
      (MgrReady s m 0x0302 → o.sealed = false → b.sealing = [] → b.writing hd = false → b.objOwed hd = false → o.moved = [] →
        (o.slots = 1 → ∃ b' root, MgrGives (.objSeal m hd) s 0 [hd, BitVec.toNat root] b' ∧
          b'.holdObj hd = some { o with sealed := true, root := root, tree := [], treeAt := [], treeSeen := [], grants := readers }) ∧
        (2 ≤ o.slots → ∃ b' y z, Gives (.objSeal m hd) s b' ∧ b'.holdObj hd = some y ∧ y.sealed = false ∧ y.grants = readers ∧ y.place = o.place ∧
          y.root = merkleRoot o.slots (y.tree.take o.slots) ∧ o.slots ≤ y.tree.length ∧ b'.harbour.replies = b.harbour.replies ∧
          b'.harbour.running = b.harbour.running ++ [z] ∧ z.m = m ∧ z.opcode = 0x0302 ∧ z.todo = hd)) ∧
      (MgrReady s m 0x0302 → o.sealed = true → ∃ b', MgrGives (.objSeal m hd) s 3 [] b' ∧ b'.hold = b.hold) ∧
      (MgrReady s m 0x0303 → b.objNamed hd o = false → ∃ b', MgrGives (.objDelete m hd) s 0 [] b' ∧ b'.holdObj hd = none) ∧
      (MgrReady s m 0x0303 → b.objNamed hd o = true → ∃ b', MgrGives (.objDelete m hd) s 1 [] b' ∧ b'.hold = b.hold) ∧
      (MgrReady s m 0x0304 → b.sliceExists sl = true → (rd = true → o.sealed = true) → (wr = true → o.sealed = false ∧ ∀ r ∈ b.sealing, r.todo ≠ hd) →
        others.length < 8 → held < b.rd F.HD_PSHARE_GRANTS p →
        ∃ b', MgrGives (.objGrant m hd sl rd wr) s 0 [] b' ∧ b'.holdObj hd = some { o with grants := others ++ [(sl, rd, wr)] }) ∧
      (MgrReady s m 0x0304 → b.sliceExists sl = true → rd = true → o.sealed = false → ∃ b', MgrGives (.objGrant m hd sl rd wr) s 2 [] b' ∧ b'.hold = b.hold) ∧
      (MgrReady s m 0x0305 → b.sliceExists sl = true →
        ∃ b', MgrGives (.objRevoke m hd sl) s 0 [] b' ∧ b'.holdObj hd = some { o with grants := others }) ∧
      (MgrReady s m 0x0306 → ∃ b', MgrGives (.objInfo m hd) s 0 ([o.slots, o.sealed.toNat, o.stackMask, o.owner, o.lost.length, o.root.toNat] ++
        o.grants.flatMap fun g => [g.1, g.2.1.toNat + 2 * g.2.2.toNat]) b' ∧ b'.hold = b.hold)) ∧
    (MgrReady s m 0x0307 → h < 8 → ∃ b', MgrGives (.holdStatus m h) s 0
      [(b.reg .hdStack h).toNat, (b.reg .hdEcc h).toNat, (b.reg .hdScrubLap h).toNat, (b.reg .hdLife h).toNat] b' ∧ b'.hold = b.hold) ∧
    (MgrReady s m 0x0308 → rec_ < 8 → tget b.hold.dumps rec_ = some d →
      ∃ b' k, MgrGives (.dumpRead m rec_ addr len) s 0 [] b' ∧ tget b'.hold.dumps rec_ = some { d with read := true } ∧
        b'.host.out = b.host.out ++ [.untranslated addr ((Config.freeBytes k).take len)]) ∧
    (MgrReady s m 0x0309 → c.stack < 8 → c.partition < 16 →
      (4 ≤ v → v ≤ 64 → ∃ b', MgrGives (.holdConfig m only) s 0 [] b' ∧ b'.rd F.HD_STACK_STRENGTH c.stack = v) ∧
      (64 < v → ∃ b' r, MgrGives (.holdConfig m only) s 4 r b' ∧ b'.rd F.HD_STACK_STRENGTH c.stack = 64 ∧ b'.hold = b.hold))

/-- The Hold's channels and stacks (R59, R82, R219, R221, R222, R361 to R369, R371 to R376, R382, R482): slots are sensed at the address the remap table gives, decoded and delivered or recorded lost; a completed erase frees its unit and counts, a failed one retires it; relocations gather in a page of the channel's relocation unit, folds and wear levelling rewrite a unit into a blank one, and what stands waits for a store, which begins at once where none is in progress; the journal page that ends a store makes its changes visible; full merge buffers are flushed; the Dredger moves on; a channel with a command past ten times its timing leaves service. -/
def Obligations.HoldChannelsWork : Prop :=
  ∀ (s : State) (ch h i n k serial lin u kk cor src dst off hh sl new old : Nat) (q : Sense) (rest : List Sense) (f : Front) (o : HoldObj) (r : SlotRead)
    (w : SlotWord) (esc : Bool) (x : Xfer) (ops : List HoldOp) (b1 : Block) (slots more : List Nat) (images : List (List Byte)) (kc : Commit)
    (leaf : BitVec 384) (mv : Option Nat),
    let b := s.blk
    let c := b.chan ch
    let part := x.slotPart off lin
    let cr := 2 * h + src / 2 ^ 27
    let cf := 2 * h + u / 32768
    let addr := b.physOf (ch / 2) ((((b.holdObj q.handle).bind fun y => y.addrOf q.slot).map (·.2)).getD 0)
    -- no seal, no start-up and no clearing of a relocation unit goes on at the end of a command
    let quiet := b.sealing = [] ∧ b.harbour.stage ≠ some 2 ∧ ∀ v z, c.reloc = [v, z] → c.used.contains z = false
    let own := c.journal.contains u = true ∨ c.reloc.contains u = true ∨ c.noticeUnit = u
    let rewrites (b' : Block) (a old new : Nat) : Prop := new ∉ (b'.chan a).free ∧
      ∃ ss se ho, (b'.chan a).ops = (b.chan a).ops ++ [.rewrite old new ss se ho [.unit a old new]]
    (ch < 16 → c.out = false → b.fronts s.env (8 + ch) = [f] → f.src = .sense i → f.p < 16 → f.lane < 16 → f.bytes ≤ (b.bucket s.env f.p (8 + ch)).rate →
      thas b.hold.chans ch = true → c.waiting[i]? = some q →
      ∃ b', Gives (.holdSlotSense ch) s b' ∧ b'.chan ch = { c with
        waiting := c.waiting.eraseIdx i, sensing := c.sensing ++ [{ q with addr := addr }], busyAt := s.aon.ns
        senseAt := if c.sensing.isEmpty then s.aon.ns else c.senseAt }) ∧
    (ch < 16 → c.sensing = q :: rest → b.holdObj q.handle = some o →
      (b.decodeSlot (ch / 2) r = some (w, cor, esc) → slotPasses w o q.handle q.slot = true → q.xfer = some (n, k, serial, lin) → b.xfer n k serial = some x →
        x.mv = .hold hh off none → x.failed = none → b.remaps n = [] →
        ∃ b', Gives (.holdSlotDeliver ch r) s b' ∧ (b'.chan ch).sensing = rest ∧
          (b'.berth n).regs.store = memWrite (b.berth n).regs.store (x.place lin).1 ((w.data.drop part.1).take part.2)) ∧
      (b.decodeSlot (ch / 2) r = none →
        ∃ b' y, Gives (.holdSlotDeliver ch r) s b' ∧ (b'.chan ch).sensing = rest ∧ tget b'.hold.objs (q.handle % 65536) = some y ∧ q.slot ∈ y.lost ∧
          b'.rd F.HD_ECC_UNCORR (ch / 2) = min F.HD_ECC_UNCORR.max (b.rd F.HD_ECC_UNCORR (ch / 2) + 1))) ∧
    (ch < 16 → c.ops = .erase u :: ops → quiet → (b.stack (ch / 2)).commits = [] →
      (∃ b' y, Gives (.holdCommandComplete ch true) s b' ∧ b'.chan ch = y ∧ y.ops = ops ∧ (own → y.free = c.free) ∧ (¬ own → y.free = c.free ++ [u]) ∧
        y.erased u = c.erased u + 1 ∧ u ∉ y.used) ∧
      (c.bad.contains u = false → ¬ own → (b.unitsOn ch).contains u = false → c.overUnits.contains u = false →
        ∃ b', Gives (.holdCommandComplete ch false) s b' ∧ u ∈ (b'.chan ch).bad ∧ u ∉ (b'.chan ch).free ∧ (b'.chan ch).spares = c.spares - 1 ∧
          b'.rd F.HD_LIFE_RETIRED (ch / 2) = min F.HD_LIFE_RETIRED.max (b.rd F.HD_LIFE_RETIRED (ch / 2) + 1))) ∧
    (h < 8 → src < 2 ^ 28 → dst < 2 ^ 28 → b.hold.powerWarn = false → (b.chan cr).out = false → (b.stack h).relocQueue.contains src = true →
      b.remapFull h src = false → b.nextReloc cr = some dst → tgetD (b.chan cr).relocs (unitOf src % 32768) 0 < 2 →
      ∃ b', Gives (.relocation h src dst) s b' ∧ (b'.stack h).relocQueue.contains src = false ∧
        b'.rd F.HD_ECC_RELOCATED h = min F.HD_ECC_RELOCATED.max (b.rd F.HD_ECC_RELOCATED h + 1) ∧
        ((b.chan cr).relocPage.length < 3 → ∃ image, (b'.chan cr).relocPage = (b.chan cr).relocPage ++ [(src, image)]) ∧
        ((b.chan cr).relocPage.length = 3 → (b'.chan cr).relocPage = [] ∧
          ∃ v pg ss im cs, (b'.chan cr).ops = (b.chan cr).ops ++ [.program v pg ss im (.copy cs)] ∧ .remap src dst 0 ∈ cs)) ∧
    (h < 8 → b.hold.powerWarn = false → b.fullestUnit h = some (u, kk) → 4 ≤ kk → (b.remapsOf h).length < 32 → (b.chan cf).out = false →
      b.moving cf (u % 32768) = false → b.relocating cf (u % 32768) = false → b.heldIn cf (u % 32768) = false → b.freshUnit cf = some (new, b1) →
      ∃ b', Gives (.remapFold h) s b' ∧ rewrites b' cf (u % 32768) new) ∧
    (ch < 16 → c.ops = .rewrite old new slots serial off [kc] :: ops → quiet → h = ch / 2 →
      ((b.stack h).flushing = none → b.mayStore = true → (b.stack h).merge = [] →
        ∃ b', Gives (.holdCommandComplete ch true) s b' ∧ (b'.stack h).committing = (b.stack h).commits ++ [kc] ∧ (b'.rd F.HD_MERGE_BUSY).testBit h = true) ∧
      ((b.stack h).flushing ≠ none → ∃ b', Gives (.holdCommandComplete ch true) s b' ∧ (b'.stack h).commits = (b.stack h).commits ++ [kc])) ∧
    (ch < 16 → c.ops = .journal images :: ops → (b.stack h).merge = [] → (b.stack h).commits = [] → quiet → h = ch / 2 →
      ((b.stack h).committing = [.remap src dst kk] → src < 2 ^ 28 → dst < 2 ^ 28 → kk ≤ 1 →
        ((b.remapsOf h).find? fun j => b.rd F.HD_REMAP_FROM (32 * h + j) = src) = none →
        firstFrom (fun j => b.rd F.HD_REMAP_VALID (32 * h + j) = 0) 32 0 = some i →
        ∃ b', Gives (.holdCommandComplete ch true) s b' ∧ b'.rd F.HD_REMAP_VALID (32 * h + i) = 1 ∧ b'.rd F.HD_REMAP_KIND (32 * h + i) = kk ∧
          b'.rd F.HD_REMAP_FROM (32 * h + i) = src ∧ b'.rd F.HD_REMAP_TO (32 * h + i) = dst ∧ (b'.stack h).flushing = none ∧ (b'.stack h).committing = []) ∧
      ((b.stack h).committing = [.unit ch old new] → c.retiring.contains old = false → c.overUnits.drop 1 = [] →
        ∃ b', Gives (.holdCommandComplete ch true) s b' ∧ (∀ j ∈ b'.remapsOf h, unitOf (b'.rd F.HD_REMAP_FROM (32 * h + j)) ≠ unitOf (slotAddr ch old 0)) ∧
          (b'.chan ch).ops = ops ++ [.erase old] ∧ b'.hold.objs = b.hold.objs.map (fun y => (y.1, y.2.moveUnit ch old new)) ∧
          (b'.stack h).flushing = none ∧ (b'.stack h).committing = []) ∧
      ((b.stack h).committing = [.slot hh sl leaf mv] → tget b.hold.objs (hh % 65536) = some o →
        ∃ b', Gives (.holdCommandComplete ch true) s b' ∧ tget b'.hold.objs (hh % 65536) = some (o.wrote sl leaf mv) ∧
          (b'.stack h).flushing = none ∧ (b'.stack h).committing = [])) ∧
    (h < 8 → b.mayStore = true → (b.stack h).flushing = none →
      (16 ≤ (b.stack h).merge.length →
        ∃ b' m cs, Gives (.mergeFlush h) s b' ∧ (b'.stack h).flushing = some m ∧ 4 ≤ m ∧ m ≤ 16 ∧ (b'.stack h).committing = (b.stack h).commits ++ cs ∧
          (b'.stack h).merge.map (fun y => (y.handle, y.slot)) = (b.stack h).merge.map (fun y => (y.handle, y.slot)) ∧
          (b'.rd F.HD_MERGE_BUSY).testBit h = true) ∧
      ((b.stack h).merge = [] → (b.stack h).commits = [] → Gives (.mergeFlush h) s b)) ∧
    (ch < 16 → c.dredging = u :: more → b.decodeSlot (ch / 2) r = some (w, cor, esc) → b.rd F.HD_STACK_RELOC (ch / 2) < cor → b.remapFull (ch / 2) u = false →
      ∃ b', Gives (.dredgerRead ch u r) s b' ∧ (b'.stack (ch / 2)).relocQueue.contains u = true ∧ (b'.chan ch).dredging = more ∧
        ((b'.chan ch).lapSlot = u % 2 ^ 27 + 1 ∨ (b'.chan ch).lapSlot = 0)) ∧
    (h < 8 → b.hstate h = 2 → (b.stack h).lapAlarmed = false → (b.stack h).lapSince + b.rd F.HD_CTL_LAP_MAX_D * 86400000000000 < s.aon.ns →
      ∃ b', Gives (.lapAlarm h) s b' ∧ (b'.stack h).lapAlarmed = true ∧ b'.alarmed 0x0023 ukStack h) ∧
    (ch < 16 → leastBy c.erased (b.unitsOn ch) = some old → leastBy (fun j => 2 ^ 32 - c.erased j) c.blank = some new → b.dredges s.env ch = true →
      b.hold.powerWarn = false → b.moving ch old = false → b.relocating ch old = false → b.heldIn ch old = false →
      (∃ y ∈ b.unitsOn ch ++ c.free, ∃ z ∈ b.unitsOn ch ++ c.free, c.erased y + b.rd F.HD_CTL_WEAR_GAP < c.erased z) →
      ∃ b', Gives (.wearLevel ch) s b' ∧ rewrites b' ch old new) ∧
    (ch < 16 → c.out = false → c.overdue s.aon.ns = true →
      ∃ b', Gives (.holdCommandTimeout ch) s b' ∧ (b'.chan ch).out = true ∧ (b'.chan ch).ops = [] ∧ (b'.rd F.HD_STACK_CH_FAIL (ch / 2)).testBit (ch % 2) = true ∧
        b'.alarmed 0x0024 ukStack (ch / 2))
/-! ### Fairlead: links, windows, groups -/

/-- Links (R387 to R394, R414, R482): flits are taken once each in order, what fails is answered with NAK in a flit sent for it; a link trains to the rate and width allowed or is DOWN with an alarm, goes idle once its IDLE notice is acknowledged and comes back, measures its lanes in rotation, narrows where no spare is left, and moves a lane onto the spare at the comma both sides know: its receive lane for a swap of its own, its transmit lane for one the switch port asks for. -/
def Obligations.LinksTrainIdleAndSwap : Prop :=
  ∀ (s : State) (l n seq errs ack ew eh comma : Nat) (half narrow idle : Bool) (w : Swap),
    let b := s.blk
    let x := b.link l
    let four := narrow || x.allowNarrow || decide (b.rd F.FE_LINK_WIDTH l = 1)
    let act := if four then b.bestLanes l else List.range 8
    let low := decide (ew < b.rd F.FE_LINK_MARGIN_W l) || decide (eh < b.rd F.FE_LINK_MARGIN_H l)
    let us := b.rd F.FE_LINK_IDLE_US l
    let becomes (b' : Block) (y : Link) : Prop := b'.link l = y ∧ b'.regs = b.regs
    -- a NAK goes out in a flit sent for it, and the next flit expected stays
    let naks (b' : Block) : Prop := (b'.link l).rxSeq = x.rxSeq ∧ (b'.link l).txSeq = (x.txSeq + 1) % 4096 ∧
      tget (b'.link l).flits x.txSeq = some ⟨x.txSeq, true, 0, 0, []⟩ ∧ x.txSeq ∈ (b'.link l).kept
    let at_ := (x.rxComma (decide (b.rd F.FE_LINK_RATE l = 1)) s.aon.ns w.lane + 2) % 65536
    l < 2 →
    (b.linkUp l = true →
      (x.idleSeq = none →
        (seq = x.rxSeq → b.lstate l = 2 → x.txIdle = false → (∀ k, k < 9 → (x.lane k).idleDet = false) →
          ∃ b', Gives (.flitReceive l seq 0 true ack false idle) s b' ∧
            becomes b' { x with kept := afterAck x.kept ack, rxSeq := (seq + 1) % 4096, nakOwed := false, peerIdle := idle }) ∧
        (seq ≠ x.rxSeq → (x.rxSeq + 4096 - seq) % 4096 ≤ 512 →
          ∃ b', Gives (.flitReceive l seq 0 true ack false idle) s b' ∧ becomes b' { x with kept := afterAck x.kept ack })) ∧
      (x.idleSeq = some n → (afterAck x.kept ack).contains n = false → seq = x.rxSeq →
        ∃ b', Gives (.flitReceive l seq 0 true ack false true) s b' ∧ b'.lstate l = 3 ∧ (b'.link l).txIdle = true ∧ (b'.link l).idleSeq = none ∧
          (b'.link l).rxSeq = (seq + 1) % 4096) ∧
      (15 < errs → ∃ b', Gives (.flitReceive l seq errs true ack false idle) s b' ∧ naks b') ∧
      (∃ b', Gives (.flitReceive l seq 0 false ack false idle) s b' ∧ naks b')) ∧
    (b.lstate l = 1 →
      (∃ b', Gives (.linkTrained l half narrow) s b' ∧ b'.lstate l = 2 ∧ b'.rd F.FE_LINK_RATE l = (half || x.allowHalf || x.startHalf).toNat ∧
        b'.rd F.FE_LINK_WIDTH l = four.toNat ∧ b'.rd F.FE_LINK_SPARE_USED l = (act.contains 8).toNat ∧
        ∀ k, k < 9 → b'.rd F.FE_LANE_RETIRED (laneIdx l k) = 0 ∧ ((b'.link l).lane k).active = act.contains k) ∧
      (∃ b', Gives (.linkTrainFail l) s b' ∧ b'.lstate l = 0 ∧ b'.alarmed 0x0031 ukLink l ∧ b'.fabric.windows = b.fabric.windows)) ∧
    (b.linkUp l = true → x.txIdle = false → us ≠ 0 → x.lastChunk + us * 1000 ≤ s.aon.ns →
      (x.swap = none → x.idleSeq = none → ∃ b', Gives (.linkIdleEntry l) s b' ∧ b'.lstate l = b.lstate l ∧ (b'.link l).idleSeq = some x.txSeq ∧
        (b'.link l).txIdle = false ∧ (b'.link l).lctl = x.lctl ++ [(0, 0, 0)]) ∧
      (x.swap ≠ none → Gives (.linkIdleEntry l) s b)) ∧
    (b.lstate l = 3 → x.txIdle = true → x.chunkWaits = true →
      ∃ b', Gives (.linkIdleExit l) s b' ∧ b'.lstate l = (if x.peerIdle then 4 else 2) ∧ (b'.link l).txIdle = false) ∧
    (n < 9 → b.linkUp l = true →
      (x.peerIdle = true → b.lstate l = 2 → ∃ b', Gives (.laneIdleDetect l n) s b' ∧ b'.lstate l = 3 ∧ ((b'.link l).lane n).idleDet = true) ∧
      (x.peerIdle = false → ∃ b', Gives (.laneIdleDetect l n) s b' ∧ b'.lstate l = 1) ∧
      ((x.lane n).idleDet = true → b.rd F.WK_STATE_STATE ≠ 3 →
        ∃ b', Gives (.prIdleDetFall l n) s b' ∧ b'.lstate l = 2 ∧ ((b'.link l).lane n).idleDet = false ∧ ((b'.link l).lane n).locked = true ∧ (b'.link l).peerIdle = false) ∧
      (b.scanLane l = some n → ew < 64 → eh < 256 →
        ∃ b', Gives (.laneScan l n ew eh) s b' ∧ b'.rd F.FE_LANE_EYE_W (laneIdx l n) = ew ∧ b'.rd F.FE_LANE_EYE_H (laneIdx l n) = eh ∧
          b'.rd F.FE_LANE_LOW (laneIdx l n) = low.toNat ∧ (b'.link l).scanFrom = n + 1 ∧
          (n < 8 → x.swap = none → low = true → (x.lane n).active = true → (x.lane n).lowScans = 1 → b.spareReady l = false →
            b'.lstate l = 1 ∧ b'.rd F.FE_LINK_WIDTH l = 1 ∧ b'.alarmed 0x0030 ukLink l)) ∧
      (b.scanLane l ≠ some n → ew < 64 → eh < 256 → Gives (.laneScan l n ew eh) s b)) ∧
    (n < 8 → b.lstate l = 2 → x.swap = none → b.rd F.FE_LINK_SPARE_USED l = 0 →
      (∃ b', Gives (.swapReq l n true) s b' ∧ becomes b'
        { x.modLane 8 (fun z => { z with part := (x.lane n).part, pos := (x.lane n).pos, txCount := (x.lane n).txCount, slots := (x.lane n).slots }) with
          swap := some ⟨n, true, 1, 0⟩ }) ∧
      (b.laneDue s.env l n = true → b.spareReady l = true →
        ∃ b', Gives (.swapReq l n false) s b' ∧ (b'.link l).swap = some ⟨n, false, 1, 0⟩ ∧ (b'.link l).lctl = x.lctl ++ [(1, n, 0)])) ∧
    (x.swap = some w → comma < 65536 →
      (w.fromPeer = true → w.step = 1 → w.lane = n → n < 8 →
        ∃ b', Gives (.swapGo l n comma) s b' ∧ becomes b' { x with swap := some { w with step := 2, at_ := comma } }) ∧
      (w.fromPeer = false → w.step = 1 → ∃ b', Gives (.spareLaneLocked l) s b' ∧ (b'.link l).swap = some { w with step := 2, at_ := at_ } ∧
        (b'.link l).lctl = x.lctl ++ [(2, w.lane, at_)] ∧ ((b'.link l).lane 8).locked = true) ∧
      (w.step = 2 → w.at_ = comma → w.lane < 8 → ∃ b', Gives (.swapAt l comma) s b' ∧ (b'.link l).swap = none ∧
        b'.rd F.FE_LANE_RETIRED (laneIdx l w.lane) = 1 ∧ b'.rd F.FE_LINK_SPARE_USED l = 1 ∧ b'.rd F.FE_LINK_SPARE_FOR l = w.lane ∧
        (w.fromPeer = false → ((b'.link l).lane w.lane).active = false ∧ ((b'.link l).lane 8).active = true ∧ (b'.link l).txSpare = x.txSpare) ∧
        (w.fromPeer = true → ((b'.link l).lane w.lane).tx = false ∧ ((b'.link l).lane 8).tx = true ∧ (b'.link l).txSpare = some w.lane)))

/-- Windows, groups and the fabric (R224, R225, R395 to R403, R414 to R416, R516): a request is checked against its window and dropped, refused or carried out; a response counts only in this epoch for a request outstanding, one that never comes fails its transfer; the commands open, close and report entries and give peers new epochs; PING is answered with its four times. -/
def Obligations.WindowsAdmitRequestsAndResponses : Prop :=
  ∀ (s : State) (m m' : Mgr) (l tag blk epoch win entry us mw mh t1 : Nat) (r : FabMsg) (w : Window) (q : FabReq) (x : Xfer) (wr : WinRec) (gr : GroupRec)
    (g : Group) (half narrow : Bool),
    let b := s.blk
    let txq (b' : Block) (k : Nat) : List FabMsg := (b'.link k).txq
    let slots := b.fabric.groups.foldl (fun k y => k + y.2.r.slots) 0
    let words := b.fabric.groups.foldl (fun k y => k + y.2.r.members.length) 0
    let times := (r.data.drop 8)
    (l < 2 → 1 ≤ r.op → r.op ≤ 4 →
      (r.dst ≠ b.blockId → ∃ b', Gives (.inboundRequest l r) s b' ∧ b'.fabric = b.fabric ∧ b'.rd F.FE_STAT_MISROUTE = min F.FE_STAT_MISROUTE.max (b.rd F.FE_STAT_MISROUTE + 1)) ∧
      (r.dst = b.blockId → tget b.fabric.windows r.window = none →
        ∃ b', Gives (.inboundRequest l r) s b' ∧ txq b' l = txq b l ++ [respond r 0x22 0 []] ∧
          b'.rd F.FE_STAT_REFUSED = min F.FE_STAT_REFUSED.max (b.rd F.FE_STAT_REFUSED + 1)) ∧
      (b.screenMsg r = .ok w → w.r.berthStore = true → r.op = 2 → 1 ≤ r.len → b.remaps w.r.berth = [] →
        ∃ b', Gives (.inboundRequest l r) s b' ∧ txq b' l = txq b l ++ [respond r 0 0 []] ∧
          (b'.berth w.r.berth).regs.store = memWrite (b.berth w.r.berth).regs.store (w.r.base + r.offset) r.data)) ∧
    (l < 2 → r.op = 8 →
      (r.epoch ≠ s.aon.epoch → ∃ b', Gives (.remoteResponse l r) s b' ∧ b'.fabric = b.fabric ∧ b'.berths = b.berths ∧
        b'.rd F.FE_STAT_STALE_RSP = min F.FE_STAT_STALE_RSP.max (b.rd F.FE_STAT_STALE_RSP + 1)) ∧
      (r.epoch = s.aon.epoch → tget b.fabric.reqs r.tag = some q → q.ping = none → q.gone = none → q.e < 2 → q.op = 0 → r.status = 0 →
        b.xfer q.b q.e q.serial = some x → (∀ c h, x.mv ≠ .copy c h) → b.remaps q.b = [] →
        ∃ b', Gives (.remoteResponse l r) s b' ∧ tget b'.fabric.reqs r.tag = none ∧
          (b'.berth q.b).regs.store = memWrite (b.berth q.b).regs.store q.store r.data)) ∧
    (tget b.fabric.reqs tag = some q → q.since + b.rd F.FE_CTL_REMOTE_TO * 1000 ≤ s.aon.ns →
      (q.ping = none → ∃ b', Gives (.remoteTimeout tag) s b' ∧ tget b'.fabric.reqs tag = none ∧
        b'.rd F.FE_STAT_TIMEOUTS = min F.FE_STAT_TIMEOUTS.max (b.rd F.FE_STAT_TIMEOUTS + 1)) ∧
      (q.ping = some (m', t1) → (tget b.harbour.sessions m'.session).isSome = true → b.harbour.running = [⟨m', 0x0408, [], t1, false, blk⟩] →
        ∃ b', Gives (.remoteTimeout tag) s b' ∧ b'.harbour.replies = b.harbour.replies ++ [⟨m'.session, m'.seq, 0x0408, 7, []⟩] ∧ b'.harbour.running = [])) ∧
    (MgrReady s m 0x0401 → wr.window < 4096 → wr.owner < 512 → wr.peer < 512 → wr.epoch < 256 → 64 ≤ wr.size → wr.berthStore = true → wr.berth < 16 →
      wr.base % 64 = 0 → wr.base + wr.size ≤ 0x1400000 → (b.partBerths (b.slicePart wr.owner)).contains wr.berth = true → wr.byGroup = false →
      (tget b.fabric.windows wr.window = none → b.sliceState wr.owner = 1 →
        ∃ b', MgrGives (.windowOpen m wr) s 0 [] b' ∧ tget b'.fabric.windows wr.window = some ⟨wr, 0, none, 0⟩) ∧
      (tget b.fabric.windows wr.window = some w → ∃ b', MgrGives (.windowOpen m wr) s 1 [] b' ∧ b'.fabric = b.fabric)) ∧
    (tget b.fabric.windows win = some w → w.closing = none →
      (MgrReady s m 0x0402 → w.inflight = 0 → (∀ z ∈ b.harbour.running, z.opcode ≠ 0x0402) →
        ∃ b', MgrGives (.windowClose m win) s 0 [] b' ∧ tget b'.fabric.windows win = none) ∧
      (MgrReady s m 0x0402 → 0 < w.inflight →
        ∃ b', Gives (.windowClose m win) s b' ∧ tget b'.fabric.windows win = some { w with closing := some (some m) } ∧ b'.harbour.replies = b.harbour.replies) ∧
      (MgrReady s m 0x0403 → ∃ b', MgrGives (.windowInfo m win) s 0 (w.r.words ++ [w.prevEpoch]) b' ∧ b'.fabric = b.fabric)) ∧
    (MgrReady s m 0x0404 → gr.entry < 256 → 1 ≤ gr.slots → gr.slots ≤ 64 → gr.owner < 512 → gr.key < 2 ^ 32 → gr.seq0 < 2 ^ 32 → gr.members.length ≤ 512 →
      (∀ y ∈ gr.members, y.1 < 512 ∧ y.2 < 256) → (gr.members.map (·.1)).eraseDups.length = gr.members.length → (gr.members.map (·.1))[gr.myRank]? = some b.blockId →
      (∀ y ∈ b.fabric.groups, y.1 ≠ gr.entry → y.2.r.key ≠ gr.key) → tget b.fabric.groups gr.entry = none →
      (slots + gr.slots ≤ 64 → words + gr.members.length ≤ 65536 →
        ∃ b', MgrGives (.groupSet m gr) s 0 [] b' ∧ tget b'.fabric.groups gr.entry = some ⟨gr, [], gr.seq0, [], []⟩) ∧
      (64 < slots + gr.slots → ∃ b', MgrGives (.groupSet m gr) s 6 [] b' ∧ b'.fabric = b.fabric)) ∧
    (MgrReady s m 0x0405 → tget b.fabric.groups entry = some g →
      (b.fabric.colls.any (fun y => y.2.entry = entry) = false → (∀ y ∈ b.fabric.windows, y.2.r.byGroup = false) →
        ∃ b', MgrGives (.groupFree m entry) s 0 [] b' ∧ tget b'.fabric.groups entry = none ∧ b'.fabric.windows = b.fabric.windows) ∧
      (b.fabric.colls.any (fun y => y.2.entry = entry) = true → ∃ b', MgrGives (.groupFree m entry) s 1 [] b' ∧ b'.fabric = b.fabric)) ∧
    (MgrReady s m 0x0406 → blk < 512 → 0 < epoch → epoch < 256 →
      ∃ b', MgrGives (.peerEpoch m blk epoch) s 0 [] b' ∧ ∀ k y, tget b.fabric.windows k = some y → y.r.byGroup = false →
        tget b'.fabric.windows k = some (if y.r.peer = blk then { y with prevEpoch := y.r.epoch, r := { y.r with epoch := epoch } } else y)) ∧
    (MgrReady s m 0x0407 → l < 2 → us ≤ 1000 → mw ≤ 255 → mh ≤ 255 →
      ∃ b', MgrGives (.linkConfig m l half narrow us mw mh) s 0 [] b' ∧ b'.rd F.FE_LINK_IDLE_US l = us ∧ b'.rd F.FE_LINK_MARGIN_W l = mw ∧
        b'.rd F.FE_LINK_MARGIN_H l = mh ∧ (b'.link l).allowHalf = half ∧ (b'.link l).allowNarrow = narrow ∧
        (b.lstate l ≠ 0 → ((b.link l).allowHalf ≠ half ∨ (b.link l).allowNarrow ≠ narrow) → b'.lstate l = 1)) ∧
    (MgrReady s m 0x0408 → blk < 512 →
      ∃ b' msg z k, Gives (.ping m blk) s b' ∧ tget b'.fabric.reqs b.fabric.nextTag = some z ∧ z.ping = some (m, s.aon.ns) ∧ z.blk = blk ∧
        txq b' k = txq b k ++ [msg] ∧ msg.op = 0x20 ∧ msg.dst = blk ∧ msg.tag = b.fabric.nextTag ∧ msg.data.take 8 = leBytes 8 s.aon.ns ∧
        b'.harbour.replies = b.harbour.replies) ∧
    (l < 2 → r.dst = b.blockId →
      ∃ b' msg, Gives (.pingReceive l r) s b' ∧ txq b' l = txq b l ++ [msg] ∧ msg.op = 0x21 ∧ msg.dst = r.src ∧ msg.tag = r.tag ∧ msg.epoch = r.epoch ∧
        msg.data.take 24 = leBytes 8 (ofLeBytes (r.data.take 8)) ++ leBytes 8 s.aon.ns ++ leBytes 8 s.aon.ns) ∧
    (l < 2 → r.epoch = s.aon.epoch → tget b.fabric.reqs r.tag = some q → q.ping = some (m', t1) → (tget b.harbour.sessions m'.session).isSome = true →
      b.harbour.running = [⟨m', 0x0408, [], t1, false, blk⟩] →
      ∃ b' trip off, Gives (.pongReceive l r) s b' ∧ tget b'.fabric.reqs r.tag = none ∧ b'.harbour.running = [] ∧
        b'.harbour.replies = b.harbour.replies ++ [⟨m'.session, m'.seq, 0x0408, 0,
          [t1, ofLeBytes (times.take 8), ofLeBytes ((times.drop 8).take 8), s.aon.ns, word64 trip, word64 off]⟩] ∧
        trip = ((s.aon.ns : Int) - t1) - ((ofLeBytes ((times.drop 8).take 8) : Int) - ofLeBytes (times.take 8)) ∧
        off = (((ofLeBytes (times.take 8) : Int) - t1) + ((ofLeBytes ((times.drop 8).take 8) : Int) - s.aon.ns)).fdiv 2)
/-! ### Ferry messages, Lighter ports -/

/-- Ferry messages and the Lighter ports (R63 to R65, R402, R404, R405, R411 to R413): DATA and CREDIT of a collective in flight are kept and restart its timer, those of a finished one, of no group or of another epoch than their source's are dropped and counted, CREDIT of one not yet started is kept, one of a peer that the block feeds is answered with its contribution, ABORT ends it with ABORTED; an engine's requests reach the OTHER lanes, wait for a stale run or are refused across 4 KiB; its commands end as it says, or aborted with the port isolated where it does not acknowledge. -/
def Obligations.FerryMessagesAndLightersAnswer : Prop :=
  ∀ (s : State) (l key sq src epoch chunk id entry n tag buf off c mid phys sl cx st : Nat) (d : List Byte) (last wr : Bool) (g : Group) (x : Coll) (cmd : Cmd)
    (rest : List (Nat × Nat)),
    let b := s.blk
    let lt := b.lighter n
    let drops (i : Instr) : Prop := ∃ b', Gives i s b' ∧ b'.fabric = b.fabric ∧ b'.rd F.FY_STAT_LATE_DROP = min F.FY_STAT_LATE_DROP.max (b.rd F.FY_STAT_LATE_DROP + 1)
    let dropsAll := drops (.ferryData l key sq ⟨src, epoch⟩ chunk (.bytes d) last) ∧ drops (.ferryCredit l key sq ⟨src, epoch⟩) ∧ drops (.ferryAbort l key sq ⟨src, epoch⟩)
    let port (i : Instr) (y : Lighter) : Prop := ∃ b', Gives i s b' ∧ b'.lighter n = y ∧ b'.ports = b.ports ∧ b'.quay = b.quay
    (b.groupByKey key = none → dropsAll) ∧
    (b.groupByKey key = some (entry, g) → g.oldEpoch src epoch = true → dropsAll) ∧
    (b.groupByKey key = some (entry, g) → g.oldEpoch src epoch = false → b.findColl entry sq = none →
      (g.finished.contains sq = true → dropsAll) ∧
      (g.finished.contains sq = false → ∃ b', Gives (.ferryCredit l key sq ⟨src, epoch⟩) s b' ∧
        tget b'.fabric.groups entry = some { g with credits := g.credits ++ [(sq, src)] } ∧ b'.regs = b.regs)) ∧
    (b.groupByKey key = some (entry, g) → g.oldEpoch src epoch = false → b.findColl entry sq = some (id, x) → tget b.fabric.colls id = some x →
      (src ∈ g.r.peerRanks →
        (∃ b' z, Gives (.ferryData l key sq ⟨src, epoch⟩ chunk (.bytes d) last) s b' ∧ tget b'.fabric.colls id = some z ∧
          z.parts = x.parts ++ [(src, x.chunkIndex src chunk, .bytes d)] ∧
          z.timer = s.aon.ns ∧ z.heard.contains src = true ∧ (last = true → src ∈ z.complete) ∧ z.credits = x.credits) ∧
        (x.credits.contains src = false → x.sentTo.contains src = false → (b.contribOk s.env id x).1 = true →
          ∃ b' z, Gives (.ferryCredit l key sq ⟨src, epoch⟩) s b' ∧ tget b'.fabric.colls id = some z ∧ z.credits = x.credits ++ [src] ∧
            z.sentTo = (if (x.feeds g.r).contains src then x.sentTo ++ [src] else x.sentTo) ∧ z.timer = s.aon.ns ∧ z.parts = x.parts)) ∧
      (b.fabric.colls = [(id, x)] → x.fromBerth = false → tget b.quay.cmds x.job = some cmd → cmd.status = 0 → cmd.ph ≠ .ended →
        ∃ b', Gives (.ferryAbort l key sq ⟨src, epoch⟩) s b' ∧ b'.fabric.colls = [] ∧ b'.endedWith x.job 0x10 ∧
          b'.rd F.FY_STAT_ABORTS = min F.FY_STAT_ABORTS.max (b.rd F.FY_STAT_ABORTS + 1))) ∧
    (n < 4 → tget lt.cmds tag = some c → lt.isolated = false →
      (tget b.quay.cmds c = some cmd → cmd.aborting = false →
        (4096 < off % 4096 + 64 → port (.lighterMreq n mid tag buf off 1 wr d) { lt with rsp := lt.rsp ++ [(mid, 0x21, [])] }) ∧
        (off % 4096 + 64 ≤ 4096 → (b.bufHead c buf).isSome = true → b.rangeFresh c buf = false → (∀ y ∈ lt.gather, y.q.id ≠ mid) →
          port (.lighterMreq n mid tag buf off 1 wr d) { lt with held := lt.held ++ [⟨mid, tag, buf, off, 64, wr, d⟩] }) ∧
        (off % 4096 + 64 ≤ 4096 → (b.bufHead c buf).isSome = true → b.rangeFresh c buf = true → b.farAt c buf off 64 wr none = .dram phys sl cx 64 →
          ∃ b' q lq, Gives (.lighterMreq n mid tag buf off 1 wr d) s b' ∧ tgetD b'.ports.lanes (32 * b.slicePart cmd.slice + (subPort phys).1) [] = lq ++ [q] ∧
            q.req.who = .lighter n mid 0 ∧ q.req.addr = phys ∧ q.req.len = 64 ∧ q.req.write = wr ∧ q.req.data = d.take 64 ∧ q.req.slice = sl ∧ q.req.ctx = cx ∧
            (b'.lighter n).gather = lt.gather ++ [⟨⟨mid, tag, buf, off, 64, wr, d⟩, c, 0, []⟩])) ∧
      (tget b.quay.cmds c = some cmd → cmd.status = 0 → cmd.ph ≠ .ended →
        ∃ b', Gives (.lighterDone n tag st) s b' ∧ b'.endedWith c (if st = 0 then 0 else 0x10) ∧ tget (b'.lighter n).cmds tag = none ∧ b'.regs = b.regs)) ∧
    (n < 4 → lt.aborts = (tag, l) :: rest →
      (∃ b', Gives (.lighterAbortAck n tag) s b' ∧ (b'.lighter n).aborts = rest.filter (fun a => a.1 ≠ tag) ∧ (b'.lighter n).cmds = lt.cmds ∧
        (∀ q ∈ (b'.lighter n).held, q.tag ≠ tag) ∧ b'.quay = b.quay) ∧
      (l + 100000 ≤ s.aon.ns → lt.cmds = [(tag, c)] → tget b.quay.cmds c = some cmd → cmd.status = 0 → cmd.ph ≠ .ended →
        ∃ b', Gives (.lighterAbortTimeout n) s b' ∧ (b'.lighter n).isolated = true ∧ (b'.lighter n).cmds = [] ∧ (b'.lighter n).aborts = [] ∧
          b'.endedWith c 0x10 ∧ b'.alarmed 0x0040 ukLighter n))
/-! ### Security -/

/-- SPDM, the lease, reports, keys (R417, R423 to R428, R431, R437, R439, R444, R445, R455, R464): each request is answered on its session; a session is keyed, finished with the rights of a matching manager key, and ended; the lease goes to one key at a time for its period; reports carry the nonce; a rollback commit raises the fuse counters it names; debug is unlocked only while no slice exists. The response codes and the bytes the manual leaves open are the model's choice (log 24). -/
def Obligations.SessionsLeaseAndReports : Prop :=
  ∀ (s : State) (m : Mgr) (ses off len ms sl addr id mask : Nat) (nonce key k : List Byte) (who : Requester) (x : Session) (l : Lease) (y : Slice),
    let b := s.blk
    let t := clampN 100 60000 ms
    let speaks (c : Instr) (n code : Nat) : Prop := ∃ b' d, Gives c s b' ∧ b'.host.out = b.host.out ++ [.spdm n code d] ∧ b'.regs = b.regs ∧
      b'.harbour.sessions = b.harbour.sessions
    let reports (c : Instr) (n : Nat) : Prop := ∃ b' d, MgrGives c s 0 [] b' ∧ b'.host.out = b.host.out ++ [.untranslated addr d] ∧
      d.take 8 = [0x54, 0x58, 0x52, 0x50] ++ leBytes 2 1 ++ leBytes 2 n ∧ (d.drop 16).take 32 = nonce ∧ b'.regs = b.regs
    (b.hmUp = true →
      speaks (.getVersion ses) ses 0x04 ∧ speaks (.getCapabilities ses) ses 0x61 ∧ speaks (.negotiateAlgorithms ses) ses 0x63 ∧ speaks (.getDigests ses) ses 0x01 ∧
      speaks (.getCertificate ses off len) ses 0x02 ∧ speaks (.challenge ses nonce) ses 0x03 ∧ speaks (.getMeasurements ses nonce) ses 0x60 ∧
      (b.harbour.sessions.length < 4 → ∃ b', Gives (.keyExchange nonce) s b' ∧ tget b'.harbour.sessions b.harbour.nextSession = some ⟨3, none, false⟩ ∧
        b'.harbour.nextSession = b.harbour.nextSession + 1) ∧
      (4 ≤ b.harbour.sessions.length → speaks (.keyExchange nonce) 0 0x7F) ∧
      (tget b.harbour.sessions ses = some x → x.stage = 3 → who.mutualAuth = true → b.managerKeys.contains who.rootDigest = true →
        ∃ b', Gives (.finish ses who) s b' ∧ tget b'.harbour.sessions ses = some ⟨4, some who.rootDigest, false⟩) ∧
      (tget b.harbour.sessions ses = some x → x.stage = 3 → who.mutualAuth = false →
        ∃ b', Gives (.finish ses who) s b' ∧ tget b'.harbour.sessions ses = some ⟨4, none, false⟩) ∧
      (tget b.harbour.sessions ses = some x → x.stage = 4 → speaks (.heartbeat ses) ses 0x68) ∧
      (tget b.harbour.sessions ses = some x → ∃ b', Gives (.endSession ses) s b' ∧ tget b'.harbour.sessions ses = none ∧ tget b'.harbour.pieces ses = none)) ∧
    (b.harbour.down = true → Gives (.getVersion ses) s b ∧ Gives (.keyExchange nonce) s b) ∧
    (MgrReady s m 0x0201 → b.mgrKey m = some k →
      (b.leaseOfOther s.env m = false → t = ms → ∃ b', MgrGives (.leaseAcquire m ms) s 0 [] b' ∧ b'.harbour.lease = some ⟨k, s.aon.ns + ms * 1000000, ms⟩) ∧
      (b.leaseOfOther s.env m = false → t ≠ ms → ∃ b', MgrGives (.leaseAcquire m ms) s 4 [t] b' ∧ b'.harbour.lease = some ⟨k, s.aon.ns + t * 1000000, t⟩) ∧
      (b.leaseOfOther s.env m = true → ∃ b', MgrGives (.leaseAcquire m ms) s 8 [] b' ∧ b'.harbour.lease = b.harbour.lease)) ∧
    (MgrReady s m 0x0202 → b.mgrKey m = some k → t = ms → ∃ b', MgrGives (.leaseRenew m ms) s 0 [] b' ∧ b'.harbour.lease = some ⟨k, s.aon.ns + ms * 1000000, ms⟩) ∧
    (MgrReady s m 0x0203 → ∃ b', MgrGives (.leaseRelease m) s 0 [] b' ∧ b'.harbour.lease = none) ∧
    (b.harbour.lease = some l →
      (l.till ≤ s.aon.ns → Gives .leaseExpiry s { b with harbour := { b.harbour with lease := none } }) ∧
      (s.aon.ns < l.till → Gives .leaseExpiry s b)) ∧
    (MgrReady s m 0x0204 → tget b.quay.slices sl = some y → nonce.length = 32 →
      (b.sliceState sl ≠ 4 → 416 + 64 * y.log.length ≤ len → reports (.sliceReport m sl nonce addr len) sl) ∧
      (b.sliceState sl = 4 → ∃ b', MgrGives (.sliceReport m sl nonce addr len) s 1 [] b' ∧ b'.host = b.host)) ∧
    (MgrReady s m 0x0205 → nonce.length = 32 → 416 ≤ len → reports (.blockReport m nonce addr len) 0x3FF) ∧
    (MgrReady s m 0x0206 → id < 256 → key.length = 32 →
      (b.harbour.migKeys.length < 4 → ∃ b', MgrGives (.migrationKey m id key) s 0 [] b' ∧ tget b'.harbour.migKeys id = some key) ∧
      (4 ≤ b.harbour.migKeys.length → tget b.harbour.migKeys id = none → ∃ b', MgrGives (.migrationKey m id key) s 6 [] b' ∧ b'.harbour.migKeys = b.harbour.migKeys)) ∧
    (MgrReady s m 0x0207 → mask < 8 →
      (s.fuses.stage = 1 ∨ s.fuses.stage = 2 → b.harbour.coreFw = true → b.harbour.ucode = true →
        ∃ b', exec (.rollbackCommit m mask) s = .next { s with blk := b', fuses := { s.fuses with
            svnHm := if mask.testBit 0 then max s.fuses.svnHm b.harbour.svnHm else s.fuses.svnHm
            svnCore := if mask.testBit 1 then max s.fuses.svnCore b.runCore else s.fuses.svnCore
            svnUcode := if mask.testBit 2 then max s.fuses.svnUcode b.runUcode else s.fuses.svnUcode } } ∧
          b'.harbour.replies = b.harbour.replies ++ [⟨m.session, m.seq, 0x0207, 0, []⟩]) ∧
      (s.fuses.stage = 3 → ∃ b', MgrGives (.rollbackCommit m mask) s 2 [] b')) ∧
    (MgrReady s m 0x0208 →
      (b.quay.slices = [] → ∃ b', MgrGives (.debugUnlock m) s 0 [] b' ∧ b'.harbour.debug = true) ∧
      (b.quay.slices ≠ [] → ∃ b', MgrGives (.debugUnlock m) s 5 [] b' ∧ b'.harbour.debug = b.harbour.debug))
/-! ### Start-up -/

/-- Resets and start-up (R70, R71, R79, R80, R400, R421, R422, R451, R456 to R461): a power-on reset clears all but what the Hold and the configuration memory keep, a warm reset keeps the nanosecond counter and takes the next epoch, waiting for a store under way; once the domains 24 to 33 are on, S0 boots the chosen bundle or offers recovery; S1 applies the configuration, S2 takes units whose checker failed out of service and records the epoch in H0, with whose record L0 begins to train; S3 opens REDUCED service, S4 FULL or DEGRADED; a unit that misses its bound is failed. What lies in the Hold and the configuration memory at a reset is the model's (logs 6 and 7). -/
def Obligations.ResetsAndStagesOpenTheBlock : Prop :=
  ∀ (s : State) (x : Bundle) (slot : Bool) (u : OpenUnit) (n p st t : Nat) (is : List (List Byte)),
    let b := s.blk
    let h := b.harbour
    let e := s.env
    let next := if s.aon.epoch < 255 then s.aon.epoch + 1 else 1
    let fresh (b' : Block) : Prop := b'.quay = Quay.reset ∧ b'.berths = [] ∧ b'.pilot = Pilot.reset ∧ b'.manifest = Manifest.reset ∧
      b'.hold.objs = (b.hold.objs.map fun o => (o.1, { o.2 with treeSeen := [] })) ∧ b'.hold.dumps = b.hold.dumps ∧ b'.harbour.bundleA = h.bundleA ∧ b'.harbour.bundleB = h.bundleB ∧
      b'.harbour.imageA = h.imageA ∧ b'.harbour.imageB = h.imageB ∧ b'.harbour.sessions = [] ∧ b'.harbour.lease = none
    let waits (b' : Block) : Prop := b'.power.romWaits = true ∧ b'.harbour.stage = none ∧ b'.harbour.recovering = false
    let boots (b' : Block) : Prop := b'.power.romWaits = false ∧
      (s.fuses.stage ≠ 0 → (s.fuses.stage = 3 ∨ s.fuses.seedOk = true) →
        (h.bootChoice s.fuses = some (slot, x) → b'.harbour.stage = some 0 ∧ b'.harbour.booted = some slot ∧ b'.harbour.svnHm = x.svnHm ∧ b'.harbour.recovering = false ∧
          b'.harbour.dice.romWork = [] ∧ (s.fuses.stage ≠ 3 → b'.ports.storageKey = deriveKey 2 (leBytes 32 s.fuses.seed.toNat) (ascii "TX-STORAGE") (leBytes 2 s.fuses.svnHm))) ∧
        (h.bootChoice s.fuses = none → b'.harbour.stage = none ∧ b'.harbour.recovering = true)) ∧
      (s.fuses.stage = 0 → b'.harbour.stage = none ∧ b'.harbour.recovering = false)
    let warm (c : Instr) : Prop := ∃ b', exec c s = .next { s with aon := ⟨s.aon.ns, next⟩, blk := b' } ∧ fresh b' ∧ b'.harbour.cold = false ∧
      (b.baseUp = true → boots b') ∧ (b.baseUp = false → waits b')
    (∃ b', exec .powerOnReset s = .next { s with aon := ⟨0, 1⟩, blk := b' } ∧ fresh b' ∧ b'.harbour.cold = true ∧ waits b') ∧
    (24 ≤ n → n < 34 → b.power.romWaits = true → h.stage = none → h.recovering = false → b.power.pdEn.testBit n = true → b.domUp n = false →
      ((∀ d, 24 ≤ d → d < 34 → d ≠ n → b.domUp d = true) → ∃ b', Gives (.powerGood n true) s b' ∧ boots b') ∧
      (∀ d, 24 ≤ d → d < 34 → d ≠ n → b.domUp d = false → ∃ b', Gives (.powerGood n true) s b' ∧ waits b')) ∧
    (b.storeBusy = false → warm .warmReset ∧ (b.power.wrstWaiting = true → warm .warmResetEffect)) ∧
    (b.storeBusy = true → Gives .warmReset s { b with power := { b.power with wrstWaiting := true } } ∧ Gives .warmResetEffect s b) ∧
    (h.stage = some 0 → h.running? = some x →
      ∃ b', Gives .stageS1 s b' ∧ b'.harbour.stage = some 1 ∧ b'.harbour.coreFw = x.coreDigestOk ∧ b'.harbour.ucode = x.ucodeDigestOk ∧
        b'.harbour.cfg.ints = ((applyImage e (if s.fuses.stage = 3 then none else h.chooseImage.2)).1).ints ∧
        (x.coreDigestOk = false → ∀ g, g < 8 → .core g ∈ b'.harbour.failed ∧ (b'.core g).failed = true) ∧
        (x.ucodeDigestOk = false → ∀ k, k < 16 → .berth k ∈ b'.harbour.failed) ∧
        (x.coreDigestOk = true → x.ucodeDigestOk = true → b'.harbour.failed = h.failed)) ∧
    (h.stage = some 1 →
      (∃ b', Gives (.stageS2 []) s b' ∧ b'.harbour.stage = some 2 ∧ b'.harbour.failed = h.failed ∧ (b'.link 0).startHalf = true) ∧
      (n < 16 → ∃ b', Gives (.stageS2 [.berth n]) s b' ∧ b'.harbour.stage = some 2 ∧ .berth n ∈ b'.harbour.failed ∧ b'.harbour.checkerFailed = true ∧
        b'.alarmed 0x0050 ukBerth n)) ∧
    (h.stage = some 2 → h.epochTaken = false → (b.chan 0).ops = [.table is] →
      (∃ b' ep, exec (.holdCommandComplete 0 true) s = .next { s with aon := ⟨s.aon.ns, ep⟩, blk := b' } ∧ b'.hold.epochRecord = ep ∧ b'.harbour.epochTaken = true ∧
        (h.cold = false → ep = s.aon.epoch) ∧ (h.cold = true → ep = if b.hold.epochRecord < 255 then b.hold.epochRecord + 1 else 1) ∧
        (.link 0 ∉ h.failed → b'.lstate 0 = 1)) ∧
      (∃ b', Gives (.holdCommandComplete 0 false) s b' ∧ .table is ∈ (b'.chan 0).ops ∧ b'.hold.epochRecord = b.hold.epochRecord ∧ b'.harbour.epochTaken = false)) ∧
    (h.stage = some 2 → h.down = false → h.epochTaken = true → (∀ v ∈ vitalUnits, e.connected v = true ∧ b.unitReady e v = true ∧ v ∉ h.failed) →
      (∀ v ∈ s3Units, e.connected v = true → b.unitSettled e v = true) →
      ∃ b', Gives .stageS3 s b' ∧ b'.harbour.stage = some 3 ∧ b'.hold.epochRecord = b.hold.epochRecord ∧ ((∀ v, b.portCap v ≤ 2 ^ 36) → b'.level = 1)) ∧
    (h.stage = some 3 → h.down = false → b.factory = false → s.fuses.stage ≠ 3 → (∀ v ∈ s4Units, e.connected v = true → b.unitSettled e v = true) →
      (b.link 0).startHalf = false →
      ∃ b', Gives .stageS4 s b' ∧ b'.harbour.stage = some 4 ∧
        (h.failed = [] → h.checkerFailed = false → b'.level = 2) ∧ (h.failed ≠ [] → b'.level = 3)) ∧
    (p < 8 → e.memConnected p = true → p ∉ b.ports.ready →
      ∃ b', Gives (.mqReady p) s b' ∧ b'.ports.ready = b.ports.ready ++ [p] ∧
        (h.stage = some n → (if p < 2 then 2 else 3) ≤ n → .port p ∉ h.failed → (2 ≤ p → b.factory = false ∧ s.fuses.stage ≠ 3) → p ∈ b'.ports.opened)) ∧
    (h.stage = some st → openBound u st = some t → h.released + t ≤ s.aon.ns → u ∉ h.openUnits → (e.connected u = true → b.unitReady e u = false) → u ∉ h.failed →
      e.connected u = true ∨ u ∈ vitalUnits → (st = 3 → b.factory = false ∧ s.fuses.stage ≠ 3) →
      ∃ b', Gives (.unitOpenTimeout u) s b' ∧ b'.harbour.failed = h.failed ++ [u] ∧ b'.alarmed 0x0051 (unitLog u).1 (unitLog u).2)
/-! ### Recovery and updates -/

/-- Recovery, updates and resets in service (R462 to R467, R475 to R478): the ROM takes an accepted bundle piece by piece; a manager stages a bundle or writes an image sector by sector into the slot not in use, activates it part by part, reads the report, resets a unit, sets a trim; the end of a store ends its command, and a command that runs too long answers TIMEOUT and goes on. -/
def Obligations.UpdatesStageActivateAndReset : Prop :=
  ∀ (s : State) (m : Mgr) (x : Bundle) (img : CfgImage) (addr len off n g parts field seq : Nat) (v lo hi mult dflt : Int) (data : List Byte) (slot : Bool) (r : Running),
    let b := s.blk
    let h := b.harbour
    -- the ROM's reply through mailbox N0 (R462)
    let told (b' : Block) (ret : Nat) : Prop := b'.rd F.MB_ACK_RETCODE 2 = ret ∧ b'.rd F.MB_STATE_STATE 2 = 3
    let given : CfgImage := ⟨img.bytes.take len⟩
    let seqOf (x : Option CfgImage) : Nat := match x with | some y => if y.hdr = 0 then y.seq else 0 | none => 0
    let idle : Prop := ∀ z ∈ h.running, z.opcode ≠ 0x0501 ∧ z.opcode ≠ 0x0502 ∧ z.opcode ≠ 0x0503
    let goesOn (c : Instr) (op : Nat) (b' : Block) : Prop := Gives c s b' ∧ b'.harbour.replies = h.replies ∧
      ∃ z, b'.harbour.running = h.running ++ [z] ∧ z.m = m ∧ z.opcode = op ∧ z.late = false ∧ z.since = s.aon.ns
    (h.recovering = true →
      (x.accepted s.fuses = true → ∃ b', Gives (.recoveryHeader x) s b' ∧ told b' 0 ∧ b'.harbour.recovery = some (x, 0)) ∧
      (x.accepted s.fuses = false → ∃ b', Gives (.recoveryHeader x) s b' ∧ told b' 2 ∧ b'.harbour = h) ∧
      (h.recovery = some (x, n) → n ≤ off → data.length = 256 → off + 256 ≤ 0x1000000 → b.mayStore = true →
        ∃ b', Gives (.recoveryData off data) s b' ∧ told b' 0 ∧ b'.harbour.recovery = some (x, off + 256) ∧ b'.harbour.bundleA = none ∧
          b'.harbour.bundleB = h.bundleB ∧ (n = 0 → b'.harbour.xspi.isSome = true)) ∧
      (h.recovery = none ∨ (h.recovery = some (x, n) ∧ (off < n ∨ data.length ≠ 256 ∨ 0x1000000 < off + 256)) →
        ∃ b', Gives (.recoveryData off data) s b' ∧ told b' 3 ∧ b'.harbour = h) ∧
      (h.recovery = some (x, n) → x.hmDigestOk = true → x.coreDigestOk = true → x.ucodeDigestOk = true → b.mayStore = true →
        ∃ b', Gives .recoveryCommit s b' ∧ told b' 0 ∧ b'.harbour.writingBundle = some x ∧ b'.harbour.xspi.isSome = true ∧ b'.harbour.recovery = none) ∧
      (h.recovery = some (x, n) → x.hmDigestOk = false ∨ x.coreDigestOk = false ∨ x.ucodeDigestOk = false → b.mayStore = true →
        ∃ b', Gives .recoveryCommit s b' ∧ told b' 2 ∧ b'.harbour = { h with recovery := none }) ∧
      (h.recovery = some (x, n) → b.mayStore = false → ∃ b', Gives .recoveryCommit s b' ∧ told b' 1 ∧ b'.harbour = h)) ∧
    (h.recovering = false → Gives (.recoveryHeader x) s b ∧ Gives (.recoveryData off data) s b ∧ Gives .recoveryCommit s b) ∧
    (MgrReady s m 0x0501 →
      (idle → 0 < len → len ≤ 0x1000000 → x.accepted s.fuses = true → x.ucodeRelease = 0x00020001 → b.mayStore = true →
        ∃ b' y, goesOn (.fwStage m x addr len) 0x0501 b' ∧ b'.harbour.writingBundle = some y ∧ y.svnHm = x.svnHm ∧ y.svnCore = x.svnCore ∧ y.svnUcode = x.svnUcode ∧
          b'.harbour.bundle h.other = none ∧ b'.harbour.bundle (!h.other) = h.bundle (!h.other) ∧ b'.harbour.xspi = some ((len + 65535) / 65536 + 1)) ∧
      (idle → 0 < len → len ≤ 0x1000000 → x.accepted s.fuses = false → ∃ b', MgrGives (.fwStage m x addr len) s 2 [] b' ∧ b'.harbour.bundleA = h.bundleA ∧ b'.harbour.bundleB = h.bundleB)) ∧
    (MgrReady s m 0x0502 → idle → h.staged = some slot → h.bundle slot = some x → (∀ y, h.bundle (!slot) = some y → y.seq < x.seq) → 0 < x.seq →
      (x.hmDigestOk = true → ∃ b', Gives (.fwActivate m 0 parts) s b' ∧ b'.harbour.down = true ∧ b'.harbour.sessions = [] ∧ b'.harbour.lease = none) ∧
      (x.coreDigestOk = true → g < 8 → (b.core g).failed = false →
        ∃ b', MgrGives (.fwActivate m 1 (2 ^ g)) s 0 [] b' ∧ (b'.core g).newFw = true ∧ (b'.core g).task = none ∧ ∀ k, k ≠ g → b'.core k = b.core k) ∧
      (x.ucodeDigestOk = true → n < 16 → b.bstate n = 1 → (b.rd F.BW_PART_DRAINING (b.rd F.BT_STATE_PARTITION n)).testBit n = false →
        ∃ b', goesOn (.fwActivate m 2 (2 ^ n)) 0x0502 b' ∧ b'.bstate n = 7 ∧ b'.rd F.BT_CTL_DRAIN n = 1)) ∧
    (MgrReady s m 0x0503 → idle →
      (128 ≤ len → len ≤ 0x1000000 → given.hdr = 0 → given.crcsOk = true → b.mayStore = true →
        ∃ b', goesOn (.configWrite m img addr len) 0x0503 b' ∧ b'.harbour.writingImage = some (given.withSeq (max (seqOf h.imageA) (seqOf h.imageB) + 1)) ∧
          b'.harbour.xspi = some ((len + 65535) / 65536 + 1) ∧
          (h.report.source = 0 → b'.harbour.imageA = h.imageA ∧ b'.harbour.imageB = none) ∧ (h.report.source ≠ 0 → b'.harbour.imageA = none ∧ b'.harbour.imageB = h.imageB)) ∧
      (given.hdr ≠ 0 ∨ given.crcsOk = false → ∃ b', MgrGives (.configWrite m img addr len) s 3 [] b' ∧ b'.harbour.imageA = h.imageA ∧ b'.harbour.imageB = h.imageB)) ∧
    (MgrReady s m 0x0504 → 6208 ≤ len → ∃ b', MgrGives (.configReport m addr len) s 0 [] b' ∧ b'.host.out = b.host.out ++ [.untranslated addr h.report.bytes]) ∧
    (MgrReady s m 0x0505 →
      (∃ b', Gives (.reset m .harbourmaster) s b' ∧ b'.harbour.down = true ∧ b'.harbour.sessions = [] ∧ b'.harbour.lease = none) ∧
      (n < 16 → (b.berth n).resetting = none → b.domUp n = true →
        ∃ b' y, goesOn (.reset m (.berth n)) 0x0505 b' ∧ b'.bstate n = 8 ∧ (b'.berth n).resetting = some y ∧ y.step = 1) ∧
      (g < 8 → (b.core g).resetStep = none → (b.core g).on = true →
        ∃ b' k, Gives (.reset m (.core g)) s b' ∧ (b'.core g).resetStep = some (1, k) ∧ (b'.core g).task = none) ∧
      (b.dumpable s.env = true → b.hold.dumpQueue = [] →
        ∃ b' d, goesOn (.reset m .block) 0x0505 b' ∧ b'.hold.dumpQueue = [d] ∧ d.trigger = 5 ∧ b'.harbour.resetOwed = h.resetOwed)) ∧
    (MgrReady s m 0x0506 → 0x0700 ≤ field → field ≤ 0x072F → fieldDef field = some (.int lo hi mult dflt) →
      (lo ≤ v → v ≤ hi → v % mult = 0 →
        ∃ b', MgrGives (.calibApply m field v) s 0 [] b' ∧ b'.trim field = v ∧ ∀ k, k ≠ field → b'.trim k = b.trim k) ∧
      (hi < v → ∃ b', MgrGives (.calibApply m field v) s 4 [(hi % 2 ^ 64).toNat] b' ∧ b'.trim field = hi)) ∧
    (MgrReady s m 0x0507 → ∃ b' d, MgrGives (.stageStatus m) s 0 (b.stageNow s.env :: d) b' ∧ d.length = 18 ∧ b'.regs = b.regs ∧ b'.harbour.openUnits = h.openUnits) ∧
    (h.xspi = some n → h.xspiGap = true → Gives .xspiSectorComplete s b) ∧
    (h.xspi = some n → h.xspiGap = false →
      (1 < n → b.mayStore = true → Gives .xspiSectorComplete s { b with harbour := { h with xspi := some (n - 1), xspiGap := true } }) ∧
      (1 < n → b.mayStore = false → ∃ b', Gives .xspiSectorComplete s b' ∧ b'.harbour.xspi = none ∧ b'.harbour.writingBundle = none ∧
        b'.harbour.writingImage = none ∧ b'.harbour.bundleA = h.bundleA ∧ b'.harbour.bundleB = h.bundleB ∧ b'.harbour.imageA = h.imageA ∧
        b'.harbour.imageB = h.imageB) ∧
      (n = 1 → h.recovering = true → h.writingBundle = some x →
        ∃ b', Gives .xspiSectorComplete s b' ∧ b'.harbour.bundleA = some x ∧ b'.harbour.xspi = none ∧ b'.power.wrstWaiting = true) ∧
      (n = 1 → h.recovering = false → h.writingBundle = some x → h.running = [r] → r.opcode = 0x0501 → r.late = false → (tget h.sessions r.m.session).isSome = true →
        ∃ b', Gives .xspiSectorComplete s b' ∧ b'.harbour.bundle h.other = some x ∧ b'.harbour.staged = some h.other ∧ b'.harbour.running = [] ∧
          b'.harbour.replies = h.replies ++ [⟨r.m.session, r.m.seq, 0x0501, 0, []⟩]) ∧
      (n = 1 → h.writingBundle = none → h.writingImage = some img → h.running = [r] → r.opcode = 0x0503 → r.late = false → (tget h.sessions r.m.session).isSome = true →
        ∃ b', Gives .xspiSectorComplete s b' ∧ (h.report.source = 0 → b'.harbour.imageB = some img) ∧ (h.report.source ≠ 0 → b'.harbour.imageA = some img) ∧
          b'.harbour.running = [] ∧ b'.harbour.replies = h.replies ++ [⟨r.m.session, r.m.seq, 0x0503, 0, []⟩])) ∧
    (h.down = false → h.running = [r] → r.m.seq = seq → r.late = false → r.opcode ≠ 0x0108 → (tget h.sessions r.m.session).isSome = true →
      (r.since + 1000000000 ≤ s.aon.ns →
        ∃ b', Gives (.managerCommandTimeout seq) s b' ∧ b'.harbour.running = [{ r with late := true }] ∧
          b'.harbour.replies = h.replies ++ [⟨r.m.session, r.m.seq, r.opcode, 7, []⟩]) ∧
      (s.aon.ns < r.since + 1000000000 → Gives (.managerCommandTimeout seq) s b))
/-! ### Faults, hangs, resets, the Logbook -/

/-- Hangs, resets and suspects (R316, R471 to R482, R489): a cycle of waits met three times in a row is resolved and alarmed; a unit without progress for 50 ms, or whose owner asks, enters its reset; each failed check moves the reset on, a passed one ends it; suspects are tried one at a time; a silent memory port is isolated; the Harbourmaster returns with an alarm, and dumps are written one after the other. -/
def Obligations.HangsResetsAndSuspects : Prop :=
  ∀ (s : State) (n g p k t c : Nat) (cyc : List (Nat × Nat)) (x : Cmd) (r : BReset) (slot : Bool) (y : Bundle) (h : Holder) (i : Inval) (d : Dump) (l : List Dump) (z : MemReq) (w : Berth),
    let b := s.blk
    let e := s.env
    let resets (ci : Instr) (m step : Nat) (b' : Block) : Prop := Gives ci s b' ∧ b'.bstate m = 8 ∧ ∃ q, (b'.berth m).resetting = some q ∧ q.step = step
    let graph := b.hangNodes.map fun v => (v, b.hangEdges b.hangNodes v)
    (b.hangCycles = [] → Gives .hangScan s { b with log := { b.log with hangs := [], graph := graph } }) ∧
    (b.hangCycles = [cyc] → (∀ q ∈ b.log.hangs, q.1 ≠ cyc) → Gives .hangScan s { b with log := { b.log with hangs := [(cyc, 1)], graph := graph } }) ∧
    (b.hangCycles = [cyc] → b.log.hangs = [(cyc, 2)] → c = (cyc.map (·.2)).foldl max 0 → tget b.quay.cmds c = some x → x.ph = .waiting →
      (∀ v ∈ cyc, ∃ q j, tget b.quay.cmds v.2 = some q ∧ tget b.quay.ctxs q.hdr.ctx = some j ∧ j.st = .live) →
      ∃ b' j, Gives .hangScan s b' ∧ tget b'.quay.ctxs x.hdr.ctx = some j ∧ j.st = .tearing ∧ b'.alarmed 0x0006 ukBlock (b.cmdPart x)) ∧
    (n < 16 → b.domUp n = true →
      (b.berthHung e n = true → ∃ b', resets (.progressWatchdog true n) n 1 b') ∧
      (b.berthHung e n = false → Gives (.progressWatchdog true n) s b) ∧
      ((b.berth n).resetting = none → (∃ b', resets (.berthReset n 0) n 1 b') ∧ ∃ b', resets (.berthReset n 2) n 2 b')) ∧
    (g < 8 → (b.core g).on = true →
      (b.coreHung e g = true → ∃ b' q, Gives (.progressWatchdog false g) s b' ∧ (b'.core g).resetStep = some (1, q) ∧ (b'.core g).task = none) ∧
      ((b.core g).resetStep = none → ∃ b' q, Gives (.coreReset g) s b' ∧ (b'.core g).resetStep = some (1, q) ∧ (b'.core g).task = none)) ∧
    (b.harbour.down = false → n < 16 → (b.berth n).resetting = some r →
      (r.step = 1 → ∃ b', Gives (.resetStep n false) s b' ∧ (b'.berth n).resetting = some { r with step := 2 }) ∧
      (r.step = 2 → ∃ b', Gives (.resetStep n false) s b' ∧ (b'.berth n).resetting = some { r with step := 3 } ∧ b'.domUp n = false) ∧
      (r.step ≤ 2 → (b.berth n).stream = none → (b.berth n).occupants = [] →
        ∃ b', Gives (.resetStep n true) s b' ∧ (b'.berth n).resetting = none ∧ b'.bstate n ≠ 8 ∧ b'.alarmed 0x0001 ukBerth n) ∧
      (r.step = 3 → (b.berth n).stream = none → (b.berth n).occupants = [] →
        ∃ b', Gives (.resetStep n false) s b' ∧ (b'.berth n).resetting = none ∧ b'.bstate n = 9 ∧ .berth n ∈ b'.harbour.failed ∧ b'.alarmed 0x0002 ukBerth n)) ∧
    (b.harbour.down = false → g < 8 → (b.core g).resetStep = some (1, t) → ∃ b', Gives (.resetStep (16 + g) false) s b' ∧ (b'.core g).resetStep = some (2, t)) ∧
    (b.harbour.down = false → g < 8 → (b.core g).resetStep = some (3, t) → (b.core g).on = true →
      ∃ b', Gives (.resetStep (16 + g) true) s b' ∧ (b'.core g).resetStep = none ∧ (b'.core g).failed = false ∧ b'.alarmed 0x0003 ukCore g) ∧
    (b.harbour.down = true → b.harbour.bootChoice s.fuses = some (slot, y) →
      ∃ b', Gives .harbourmasterReturn s b' ∧ b'.harbour.down = false ∧ b'.harbour.booted = some slot ∧ b'.harbour.svnHm = y.svnHm ∧
        b'.harbour.hmDigest = y.hmDigest ∧ b'.harbour.dice.romWork = [] ∧ (∀ q ∈ b'.harbour.running, q.opcode / 256 = 1) ∧ b'.alarmed 0x0005 ukHarbour 0) ∧
    (b.harbour.down = false → Gives .harbourmasterReturn s b) ∧
    (n < 16 → b.domUp n = true → (b.berth n).resetting = none → b.pilot.invals.head? = some i → h = .engine n 0 → h ∈ i.waiting → i.since + 3000 ≤ s.aon.ns →
      ∃ b', resets (.holderEscalation h) n 1 b') ∧
    (k < 4096 → b.quay.cmds = [(c, x)] → x.suspect = 1 → x.hdr.ctx = k → ∃ b', Gives (.suspectTrial k) s b' ∧ b'.quay.cmds = [(c, { x with suspect := 2 })]) ∧
    (k < 4096 → b.quay.cmds = [(c, x)] → x.suspect = 2 → x.hdr.ctx = k → x.ph = .running →
      (x.since + 1000 * b.rd F.BW_SCHED_QUANTUM (b.cmdPart x) ≤ s.aon.ns → b.berths = [(n, w)] → w.suspects = [k] → w.guilty = false → w.unattributed = [] →
        ∃ b', Gives (.suspectCleared k) s b' ∧ b'.quay.cmds = [(c, { x with suspect := 0 })] ∧ (b'.berth n).suspects = [] ∧ (b'.berth n).unattributed = [s.aon.ns]) ∧
      (s.aon.ns < x.since + 1000 * b.rd F.BW_SCHED_QUANTUM (b.cmdPart x) → Gives (.suspectCleared k) s b)) ∧
    (p < 8 → p ∉ b.ports.isolated → (c, z) ∈ b.ports.out → z.port = p →
      (z.since + 1000000 ≤ s.aon.ns → ∃ b', Gives (.portIsolated p) s b' ∧ p ∈ b'.ports.isolated ∧ .port p ∈ b'.harbour.failed) ∧
      (b.ports.out = [(c, z)] → s.aon.ns < z.since + 1000000 → Gives (.portIsolated p) s b)) ∧
    (b.hold.dumpQueue = d :: l → b.hold.dumpWriting = true → (∀ q ∈ b.hold.dumps, q.1 < 8) →
      (∀ ch, ch < 2 → ∀ i w, .dump i w ∉ (b.chan ch).ops) →
      ∃ b' j, Gives .dumpWrite s b' ∧ j < 8 ∧ tget b'.hold.dumps j = some d ∧ b'.hold.dumpQueue = l ∧ b'.rd F.LB_DUMP_LAST = j ∧
        (d.trigger = 5 → b'.harbour.resetOwed = true))
/-! ### Bell and the mailboxes -/

/-- Bell and mailboxes (R494 to R509): a raise makes a source PENDING, or ACTIVE_PENDING; a claim takes the pending source of the bank that comes first by PRIORITY and number and makes it ACTIVE, a completion ends it; only the Harbourmaster routes sources. A channel goes from IDLE over POSTED and TAKEN to REPLIED by the end whose turn it is, a post of a busy channel and an access of the wrong end are counted, a post that nobody takes times out; a long reply is continued piece by piece (the words of a piece are the model's choice, log 26). -/
def Obligations.BellRoutesAndMailboxesPass : Prop :=
  ∀ (s : State) (m : Mgr) (who : Agent) (v : Word) (n t ch vec us rc : Nat) (fast byHost dir en : Bool) (frame : List Byte) (d : List Nat),
    let b := s.blk
    let src := F.BL_RAISE_SOURCE.of v
    let done := F.BL_COMPLETE_SOURCE.of v
    let st (b : Block) (k : Nat) : Nat := b.rd F.BL_TARGET_STATE k
    let box (b : Block) (k : Nat) : Nat := b.rd F.MB_STATE_STATE k
    let pending (k : Nat) : Prop := st b k = 1 ∧ b.rd F.BL_TARGET_TARGET k = t ∧ b.rd F.BL_TARGET_CLASS k = fast.toNat
    let frameLen := b.boxField 0 2 2
    (agentOk who = true →
      (256 ≤ src → ∃ b', Gives (.blRaise who v) s b' ∧ st b' src = (if st b src = 0 then 1 else if st b src = 2 then 3 else st b src) ∧
        (∀ k, k < 1024 → k ≠ src → st b' k = st b k) ∧ { b' with regs := [] } = { b with regs := [] }) ∧
      (src < 256 → ∃ b', Gives (.blRaise who v) s b' ∧ (∀ k, k < 1024 → st b' k = st b k) ∧
        b'.rd F.BL_STAT_RAISE_REJECT = min 0xFFFF (b.rd F.BL_STAT_RAISE_REJECT + 1)) ∧
      (t = targetOf who →
        (n < 1024 → pending n → (∀ k, k < 1024 → pending k → b.rd F.BL_TARGET_PRIORITY k < b.rd F.BL_TARGET_PRIORITY n ∨
            (b.rd F.BL_TARGET_PRIORITY k = b.rd F.BL_TARGET_PRIORITY n ∧ n ≤ k)) →
          ∃ b', Gives (.blClaim who t fast) s b' ∧ st b' n = 2 ∧ b'.readData = BitVec.ofNat 64 (1024 + n) ∧ ∀ k, k < 1024 → k ≠ n → st b' k = st b k) ∧
        ((∀ k, k < 1024 → ¬ pending k) → Gives (.blClaim who t fast) s { b with readData := 0 }) ∧
        (b.rd F.BL_TARGET_TARGET done = t → b.rd F.BL_TARGET_CLASS done = fast.toNat →
          (st b done = 2 → ∃ b', Gives (.blComplete who t fast v) s b' ∧ st b' done = 0) ∧
          (st b done = 3 → ∃ b', Gives (.blComplete who t fast v) s b' ∧ st b' done = 1) ∧
          (st b done < 2 → ∃ b', Gives (.blComplete who t fast v) s b' ∧ st b' done = st b done ∧
            b'.rd F.BL_STAT_STRAY_COMPLETE = min 0xFFFF (b.rd F.BL_STAT_STRAY_COMPLETE + 1)))) ∧
      (t ≠ targetOf who → ∃ b', Gives (.blClaim who t fast) s b' ∧ b'.readData = 0 ∧ (∀ k, k < 1024 → st b' k = st b k) ∧
        b'.rd F.GLB_ACCESS_ERR_COUNT = min F.GLB_ACCESS_ERR_COUNT.max (b.rd F.GLB_ACCESS_ERR_COUNT + 1))) ∧
    (n < 1024 → F.BL_TARGET_TARGET.of v < 10 →
      (st b n = 0 → ∃ b', Gives (.blTargetWrite .harbourmaster n v) s b' ∧ b'.rd F.BL_TARGET_TARGET n = F.BL_TARGET_TARGET.of v ∧
        b'.rd F.BL_TARGET_CLASS n = F.BL_TARGET_CLASS.of v ∧ b'.rd F.BL_TARGET_ENABLE n = F.BL_TARGET_ENABLE.of v ∧
        b'.rd F.BL_TARGET_PRIORITY n = F.BL_TARGET_PRIORITY.of v ∧ st b' n = 0) ∧
      (st b n ≠ 0 → b.rd F.BL_TARGET_TARGET n ≠ F.BL_TARGET_TARGET.of v ∨ b.rd F.BL_TARGET_CLASS n ≠ F.BL_TARGET_CLASS.of v →
        ∃ b', Gives (.blTargetWrite .harbourmaster n v) s b' ∧ b'.reg .blTarget n = b.reg .blTarget n ∧
          b'.rd F.BL_STAT_RETARGET_REJECT = min 0xFFFF (b.rd F.BL_STAT_RETARGET_REJECT + 1)) ∧
      (b.rd F.BL_TARGET_TARGET n = F.BL_TARGET_TARGET.of v → b.rd F.BL_TARGET_CLASS n = F.BL_TARGET_CLASS.of v →
        ∃ b', Gives (.blTargetWrite .harbourmaster n v) s b' ∧ b'.rd F.BL_TARGET_ENABLE n = F.BL_TARGET_ENABLE.of v ∧
          b'.rd F.BL_TARGET_PRIORITY n = F.BL_TARGET_PRIORITY.of v ∧ b'.rd F.BL_TARGET_TARGET n = b.rd F.BL_TARGET_TARGET n ∧
          b'.rd F.BL_TARGET_CLASS n = b.rd F.BL_TARGET_CLASS n ∧ st b' n = st b n) ∧
      (t < 8 → ∃ b', Gives (.blTargetWrite (.core t) n v) s b' ∧ b'.reg .blTarget n = b.reg .blTarget n)) ∧
    (ch < 8 → (byHost = true → ch ≠ 1 ∧ b.hostUp = true) →
      (byHost = b.hostIsA ch → frame.length ≤ boxBytes ch →
        (box b ch = 0 ∨ box b ch = 3 → ∃ b' x, Gives (.mbPost ch byHost frame) s b' ∧ box b' ch = 1 ∧ tget b'.boxes ch = some x ∧
          x.buf.take frame.length = frame ∧ x.posted = s.aon.ns ∧ b'.rd F.MB_STAT_POSTS ch = min 0xFFFF (b.rd F.MB_STAT_POSTS ch + 1)) ∧
        (box b ch = 1 ∨ box b ch = 2 → ∃ b', Gives (.mbPost ch byHost frame) s b' ∧ box b' ch = box b ch ∧ b'.boxes = b.boxes ∧
          b'.rd F.MB_STAT_BUSY_POST ch = min 0xFFFF (b.rd F.MB_STAT_BUSY_POST ch + 1))) ∧
      (byHost ≠ b.hostIsA ch → ∃ b', Gives (.mbPost ch byHost frame) s b' ∧ box b' ch = box b ch ∧ b'.boxes = b.boxes ∧
        b'.rd F.MB_STAT_WRONG_END ch = min 0xFFFF (b.rd F.MB_STAT_WRONG_END ch + 1)) ∧
      (byHost = b.hostIsB ch →
        (ch ≠ 0 → box b ch = 1 → ∃ b', Gives (.mbTake ch byHost) s b' ∧ box b' ch = 2 ∧ b'.boxes = b.boxes) ∧
        (ch = 0 → b.hmUp = true → box b 0 = 1 → frameLen ≤ 1968 → b.boxField 0 10 2 / 4 % 2 = 0 → ((tgetD b.boxes 0 Mailbox.reset).gather = none) →
          ∃ b', Gives (.mbTake 0 byHost) s b' ∧ box b' 0 = 2) ∧
        (ch = 0 → b.hmUp = true → box b 0 = 1 → 1968 < frameLen →
          ∃ b', Gives (.mbTake 0 byHost) s b' ∧ box b' 0 = 3 ∧ b'.rd F.MB_ACK_RETCODE 0 = 3) ∧
        (box b ch ≠ 1 → (ch = 0 → b.hmUp = true) → Gives (.mbTake ch byHost) s b) ∧
        ((ch = 0 → b.hmUp = true) → box b ch = 2 → ∃ b', Gives (.mbReply ch byHost v frame) s b' ∧ box b' ch = 3 ∧
          b'.rd F.MB_ACK_RETCODE ch = F.MB_REPLY_RETCODE.of v ∧ b'.rd F.MB_ACK_LENGTH ch = F.MB_REPLY_LENGTH.of v ∧
          b'.rd F.MB_ACK_SEQ ch = b.boxSeq ch)) ∧
      (box b ch = 1 → (tgetD b.boxes ch Mailbox.reset).posted + b.rd F.MB_CFG_TIMEOUT_US ch * 1000 ≤ s.aon.ns →
        ∃ b', Gives (.mailboxTimeout ch) s b' ∧ box b' ch = 0 ∧ b'.rd F.MB_STATE_TIMEOUT ch = 1 ∧
          b'.rd F.MB_STAT_TIMEOUTS ch = min 0xFFFF (b.rd F.MB_STAT_TIMEOUTS ch + 1)) ∧
      (box b ch ≠ 1 → Gives (.mailboxTimeout ch) s b)) ∧
    (b.harbour.down = false → (tget b.harbour.sessions m.session).isSome = true →
      (tget b.harbour.pieces m.session = some (m.seq :: rc :: d) →
        ∃ b', Gives (.continue m) s b' ∧ b'.harbour.replies = b.harbour.replies ++ [⟨m.session, m.seq, 0, rc, d.take replyWords⟩] ∧
          (d.length ≤ replyWords → tget b'.harbour.pieces m.session = none) ∧
          (replyWords < d.length → tget b'.harbour.pieces m.session = some (m.seq :: rc :: d.drop replyWords))) ∧
      (tget b.harbour.pieces m.session = none →
        ∃ b', Gives (.continue m) s b' ∧ b'.harbour.replies = b.harbour.replies ++ [⟨m.session, m.seq, 0, 3, []⟩])) ∧
    (MgrReady s m 0x0509 → ch < 8 → vec < 2048 →
      (ch ≠ 0 → box b ch ≠ 1 → box b ch ≠ 2 → (∀ x ∈ b.quay.slices, ¬ (x.2.msixBase ≤ vec ∧ vec < x.2.msixBase + x.2.msixCount)) →
        10 ≤ us → us ≤ 100000 →
        ∃ b', MgrGives (.mailboxConfig m ch dir vec en us) s 0 [] b' ∧ b'.rd F.MB_CFG_DIR ch = dir.toNat ∧ b'.rd F.MB_CFG_VECTOR ch = vec ∧
          b'.rd F.MB_CFG_VEC_EN ch = en.toNat ∧ b'.rd F.MB_CFG_TIMEOUT_US ch = us ∧ box b' ch = box b ch) ∧
      (ch ≠ 0 → box b ch = 1 → ∃ b', MgrGives (.mailboxConfig m ch dir vec en us) s 1 [] b' ∧ b'.regs = b.regs) ∧
      (ch = 0 → ∃ b', MgrGives (.mailboxConfig m ch dir vec en us) s 2 [] b' ∧ b'.regs = b.regs))
/-! ### Logbook and Tally -/

/-- The Logbook's commands (R485 to R492): an alarm source's occurrences are told at most once every NOTIFY_MS; alarms, events and traces are read by the manager, and reading events consumes them; acknowledgement clears UNACKED; tracing is routed slice by slice; a dump is asked for; rates outside their ranges are clamped. -/
def Obligations.LogbookIsReadAndRouted : Prop :=
  ∀ (s : State) (m : Mgr) (src cls first addr len sl ev tr ms : Nat) (tracing port : Bool) (a : Alarm) (l : Lease) (x : Slice),
    let b := s.blk
    let w (n : Nat) : List HostMsg → List HostMsg → List Byte → Prop := fun o o' d => if n = 0 then o' = o else o' = o ++ [.untranslated addr d]
    (b.log.alarms[src]? = some a →
      (a.owed = true → (∀ t, a.notified = some t → t + 1000000 * b.rd F.LB_CTL_NOTIFY_MS ≤ s.aon.ns) →
        ∃ b' y, Gives (.alarmNotify src) s b' ∧ b'.log.alarms[src]? = some y ∧ y.owed = false ∧ y.notified = some s.aon.ns ∧ y.count = a.count ∧ y.unacked = a.unacked ∧
          (b.leaseNow s.env = some l → (∃ z ∈ b.harbour.sessions, z.2.stage = 4 ∧ z.2.key = some l.key) →
            (b.rd F.MB_NOTIFY_PROD + 65536 - b.rd F.MB_NOTIFY_CONS) % 65536 < 16 →
            b'.host.out = b.host.out ++ [.notice 0 0 0 (a.last.bytes.map fun z => z.toNat)] ∧ b'.rd F.MB_NOTIFY_PROD = (b.rd F.MB_NOTIFY_PROD + 1) % 65536)) ∧
      (a.owed = false → Gives (.alarmNotify src) s b) ∧
      (∀ t, a.notified = some t → s.aon.ns < t + 1000000 * b.rd F.LB_CTL_NOTIFY_MS → Gives (.alarmNotify src) s b)) ∧
    (MgrReady s m 0x0681 → len ≤ 0x4000000 →
      (∃ b' n, MgrGives (.logRead m 0 first addr len) s 0 [n, 0] b' ∧ n = min (b.log.alarms.length - first) (len / 192) ∧
        w n b.host.out b'.host.out ((((List.zipIdx b.log.alarms).drop first).take n).flatMap fun z => z.1.bytes z.2) ∧ b'.log = b.log) ∧
      (first = ((b.log.events.head?.map (·.seq)).getD 0) → first < 2 ^ 32 →
        ∃ b' n z, MgrGives (.logRead m 1 first addr len) s 0 [n, z] b' ∧ n = min b.log.events.length (len / 64) ∧
          w n b.host.out b'.host.out ((b.log.events.take n).flatMap fun r => r.bytes) ∧ b'.log.events = b.log.events.drop n ∧ b'.log.traces = b.log.traces) ∧
      (first = ((b.log.traces.head?.map (·.seq)).getD 0) → first < 2 ^ 32 →
        ∃ b' n z, MgrGives (.logRead m 2 first addr len) s 0 [n, z] b' ∧ n = min b.log.traces.length (len / 64) ∧
          w n b.host.out b'.host.out ((b.log.traces.take n).flatMap fun r => r.bytes) ∧ b'.log = b.log) ∧
      (2 < cls → ∃ b', MgrGives (.logRead m cls first addr len) s 3 [] b' ∧ b'.log = b.log ∧ b'.host = b.host)) ∧
    (MgrReady s m 0x0682 →
      (b.log.alarms[src]? = some a → src ≠ 0xFFFF →
        ∃ b', MgrGives (.logAck m src) s 0 [] b' ∧ b'.log.alarms[src]? = some { a with unacked := 0 } ∧ ∀ i, i ≠ src → b'.log.alarms[i]? = b.log.alarms[i]?) ∧
      (∃ b', MgrGives (.logAck m 0xFFFF) s 0 [] b' ∧ b'.log.alarms = b.log.alarms.map fun y => { y with unacked := 0 }) ∧
      (b.log.alarms.length ≤ src → src ≠ 0xFFFF → ∃ b', MgrGives (.logAck m src) s 3 [] b' ∧ b'.log = b.log)) ∧
    (MgrReady s m 0x0683 →
      (tget b.quay.slices sl = some x →
        ∃ b', MgrGives (.logRoute m sl tracing port) s 0 [] b' ∧ tget b'.quay.slices sl = some { x with tracing := tracing, tracePort := port }) ∧
      (tget b.quay.slices sl = none → ∃ b', MgrGives (.logRoute m sl tracing port) s 3 [] b' ∧ b'.quay = b.quay)) ∧
    (MgrReady s m 0x0684 →
      (b.hold.dumpQueue = [] → b.dumpable s.env = true →
        ∃ b' d, MgrGives (.logDump m) s 0 [] b' ∧ b'.hold.dumpQueue = [d] ∧ d.trigger = 6 ∧ d.time = s.aon.ns ∧ d.epoch = s.aon.epoch) ∧
      (2 ≤ b.hold.dumpQueue.length → ∃ b', MgrGives (.logDump m) s 1 [] b' ∧ b'.hold = b.hold)) ∧
    (MgrReady s m 0x0685 →
      (1 ≤ ev → ev ≤ 65535 → 1 ≤ tr → tr ≤ 25000000 → 1 ≤ ms → ms ≤ 10000 →
        ∃ b', MgrGives (.logConfig m ev tr ms) s 0 [] b' ∧ b'.rd F.LB_CTL_EV_RATE = ev ∧ b'.rd F.LB_CTL_TR_RATE = tr ∧ b'.rd F.LB_CTL_NOTIFY_MS = ms) ∧
      (10000 < ms → ∃ b' p q, MgrGives (.logConfig m ev tr ms) s 4 [p, q, 10000] b' ∧ b'.rd F.LB_CTL_NOTIFY_MS = 10000))

/-- Tally's commands (R517 to R528): a counter takes its configuration and keeps its COUNT, reads with the time, and a clear leaves the events of its own cycle; sampling periods and bandwidth windows are clamped and restarted; a window's end turns its bytes into 64-byte units and raises PEAK; reading pace clears its largest values; a tenant's view is stamped, and at its boundary written between two odd and even sequence numbers. -/
def Obligations.TallyCountsSamplesAndShows : Prop :=
  ∀ (s : State) (m : Mgr) (c : TlCounter) (cfg : TlCfg) (n i p us evs per sl va h seq addr len : Nat) (v : Word) (on wrap : Bool) (view : ViewSnap) (x : Slice) (r : RunView),
    let b := s.blk
    let zeroed (b' : Block) : Prop := (∀ k, k < 28 → b'.reg .tlBwin k = 0) ∧ b'.tally.since = s.aon.ns ∧ b'.tally.window = []
    let kept (b' : Block) : Prop := ∀ a, a ≠ (countReg c).addr (counterIndex c) → tget b'.regs a = tget b.regs a
    (counterOk c = true →
      (evs < 2 ^ 48 → ∃ b', Gives (.counterClear c evs) s b' ∧ b'.rd (countFld c) (counterIndex c) = evs ∧ kept b') ∧
      (MgrReady s m 0x0601 → cfg.slice < 512 →
        (TlCfgOk c cfg.event cfg.sub = true → ∃ b', MgrGives (.tallySet m c cfg) s 0 [] b' ∧
          b'.reg (countReg c) (counterIndex c) = b.reg (countReg c) (counterIndex c) ∧
          (∀ k j, c = .berth k j → b'.rd F.TL_BCFG_EVENT (64 * k + j) = cfg.event ∧ b'.rd F.TL_BCFG_SUB (64 * k + j) = cfg.sub ∧
            b'.rd F.TL_BCFG_ENABLE (64 * k + j) = cfg.enable.toNat ∧ b'.rd F.TL_BCFG_MODE (64 * k + j) = cfg.level.toNat ∧ b'.rd F.TL_BCFG_SLICE (64 * k + j) = cfg.slice ∧
            b'.rd F.TL_BCFG_SLICE_EN (64 * k + j) = cfg.sliceEn.toNat ∧ b'.rd F.TL_BCFG_TENANT (64 * k + j) = cfg.tenant.toNat) ∧
          (∀ j, c = .block j → b'.rd F.TL_GCFG_EVENT j = cfg.event ∧ b'.rd F.TL_GCFG_SUB j = cfg.sub ∧ b'.rd F.TL_GCFG_ENABLE j = cfg.enable.toNat ∧ b'.rd F.TL_GCFG_MODE j = cfg.level.toNat ∧
            b'.rd F.TL_GCFG_SLICE j = cfg.slice ∧ b'.rd F.TL_GCFG_SLICE_EN j = cfg.sliceEn.toNat ∧ b'.rd F.TL_GCFG_TENANT j = cfg.tenant.toNat)) ∧
        (TlCfgOk c cfg.event cfg.sub = false → ∃ b', MgrGives (.tallySet m c cfg) s 3 [] b' ∧ b'.regs = b.regs)) ∧
      (MgrReady s m 0x0602 → ∃ b', MgrGives (.tallyRead m [c]) s 0 [(b.reg (countReg c) (counterIndex c)).toNat, s.aon.ns] b' ∧ b'.regs = b.regs)) ∧
    (MgrReady s m 0x0603 → n < 16 →
      (1 ≤ per → per ≤ 1048575 → ∃ b', MgrGives (.sampleSet m (2 ^ n) per wrap on) s 0 [] b' ∧ b'.rd F.TL_SAMP_PERIOD n = per ∧ b'.rd F.TL_SAMP_WRAP n = wrap.toNat ∧
        b'.rd F.TL_SAMP_ENABLE n = on.toNat ∧ (on = true → (b'.berth n).countdown = per) ∧ (∀ k, k < 16 → k ≠ n → b'.reg .tlSamp k = b.reg .tlSamp k)) ∧
      (1048575 < per → ∃ b', MgrGives (.sampleSet m (2 ^ n) per wrap on) s 4 [1048575] b' ∧ b'.rd F.TL_SAMP_PERIOD n = 1048575)) ∧
    (MgrReady s m 0x0604 → n < 16 → 32 ≤ len →
      ∃ b', MgrGives (.sampleRead m n addr len) s 0 [min (b.berth n).samples.length (len / 32)] b' ∧ (b'.berth n).samples = [] ∧
        ((b.berth n).samples ≠ [] → b'.host.out = b.host.out ++ [.untranslated addr (((b.berth n).samples.take (len / 32)).flatMap SampleRec.bytes)])) ∧
    (∃ b', Gives (.tlBwctlWrite v) s b' ∧ b'.rd F.TL_BWCTL_WINDOW_US = clampN 1 10000 (F.TL_BWCTL_WINDOW_US.of v) ∧
      b'.rd F.TL_BWCTL_PART_EN = F.TL_BWCTL_PART_EN.of v ∧ b'.rd F.TL_BWCTL_PART = F.TL_BWCTL_PART.of v ∧ zeroed b') ∧
    (MgrReady s m 0x0605 → p < 16 →
      (1 ≤ us → us ≤ 10000 → ∃ b', MgrGives (.windowSet m us on p) s 0 [] b' ∧ b'.rd F.TL_BWCTL_WINDOW_US = us ∧ b'.rd F.TL_BWCTL_PART_EN = on.toNat ∧
        b'.rd F.TL_BWCTL_PART = p ∧ zeroed b') ∧
      (10000 < us → ∃ b', MgrGives (.windowSet m us on p) s 4 [10000, on.toNat, p] b' ∧ zeroed b')) ∧
    (b.tally.since + 1000 * b.rd F.TL_BWCTL_WINDOW_US ≤ s.aon.ns →
      ∃ b', Gives .bandwidthWindowEnd s b' ∧ b'.tally.window = [] ∧ b'.tally.since = b.tally.since + 1000 * b.rd F.TL_BWCTL_WINDOW_US ∧
        ∀ k, k < 28 → b'.rd F.TL_BWIN_LAST k = tgetD b.tally.window k 0 / 64 % 2 ^ 32 ∧
          b'.rd F.TL_BWIN_PEAK k = max (b.rd F.TL_BWIN_PEAK k) (min (tgetD b.tally.window k 0 / 64) (2 ^ 32 - 1))) ∧
    (s.aon.ns < b.tally.since + 1000 * b.rd F.TL_BWCTL_WINDOW_US → Gives .bandwidthWindowEnd s b) ∧
    (MgrReady s m 0x0607 → i < 512 →
      ∃ b', MgrGives (.paceRead m [i]) s 0 (((List.range 16).map fun k => (b.reg .tlPace k).toNat) ++
          [(tgetD b.fabric.late i (0, 0)).1 * 2 ^ 32 + (tgetD b.fabric.late i (0, 0)).2]) b' ∧
        (∀ k, k < 16 → b'.rd F.TL_PACE_MAX_US k = 0 ∧ b'.rd F.TL_PACE_LAST_US k = b.rd F.TL_PACE_LAST_US k) ∧
        (tgetD b'.fabric.late i (0, 0)).1 = 0 ∧ (tgetD b'.fabric.late i (0, 0)).2 = (tgetD b.fabric.late i (0, 0)).2) ∧
    (MgrReady s m 0x0606 → tget b.quay.slices sl = some x →
      (x.view = none → va % 4096 = 0 → va ≠ 0 → b.pilot.cache = [] →
        ∃ b', Gives (.viewSet m sl va) s b' ∧ b'.stamping (StampTask.new sl (b.baseCtxOf sl) (.view m sl va) [⟨va, 4096, false, true, false, 0⟩]) ∧
          b'.harbour.replies = b.harbour.replies) ∧
      (x.view = none → ∃ b', MgrGives (.viewSet m sl 0) s 0 [] b' ∧ b'.quay = b.quay) ∧
      (va % 4096 ≠ 0 → ∃ b', MgrGives (.viewSet m sl va) s 3 [] b' ∧ b'.quay = b.quay)) ∧
    (sl < 512 → tget b.quay.slices sl = some x → x.view = some (va, h, seq) → seq + 2 < 2 ^ 64 → tget b.tally.snaps sl = some view → b.viewPlace h = some r → tget b.pilot.dirty sl = none →
      (s.aon.ns ≤ view.time + 100000 →
        ∃ b', Gives (.viewUpdate sl) s b' ∧ tget b'.quay.slices sl = some { x with view := some (va, h, seq + 2) } ∧ tget b'.tally.snaps sl = none ∧
          (r.cls ≠ 0 → (b.takeOther s.env (b.slicePart sl) 27 (16 + view.bytes.length)).isSome = true → b'.host.out = b.host.out ++
            [.write r.phys sl (leBytes 8 (seq + 1)), .write (r.phys + 8) sl view.bytes, .write r.phys sl (leBytes 8 (seq + 2))])) ∧
      (view.time + 100000 < s.aon.ns → Gives (.viewUpdate sl) s b))
/-! ### Watchkeeper -/

/-- Watchkeeper (R72, R79 to R84, R370, R509 to R514): limits are set within their ranges; samples are filtered, and a temperature above 115 °C trips; a tick of the rules lowers the ceiling of a hot berth; rails follow PD_GOOD; idle berths are gated, an idle block drowses, wakes, and goes to ANCHOR, whose wake is a warm reset; a power warning holds stores back; a watchdog that is not kicked warns at half its period and then resets the Harbourmaster. The median of fewer samples than asked is the model's (log 27). -/
def Obligations.WatchkeeperSamplesGatesAndWakes : Prop :=
  ∀ (s : State) (m : Mgr) (n d cause src w8 w : Nat) (code : BitVec 12) (v : Word),
    let b := s.blk
    let e := s.env
    let none_ : PowerCfg := ⟨none, none, none, none, none, none, none, none, none, none, none, none⟩
    let decides : Prop := b.power.thermTrip = false
    let st := b.rd F.WK_STATE_STATE
    let warm (c : Instr) (k : Nat) : Prop := ∃ b' ep, exec c s = .next { s with aon := ⟨s.aon.ns, ep⟩, blk := b' } ∧ ep = (if s.aon.epoch < 255 then s.aon.epoch + 1 else 1) ∧
      b'.rd F.WK_STATE_STATE = 0 ∧ b'.rd F.WK_STATE_WAKE_CAUSE = k ∧ b'.berths = []
    let y := tgetD b.watch.tempY n 0
    let l := ((code.toInt + b.trim (0x0700 + n)) :: tgetD b.watch.temps n []).take 5
    let y' := y + (16 * median l - y) / 16
    let kick : Prop := b.hmUp = true ∧ decides ∧ b.watch.wdogStopped = false
    (MgrReady s m 0x0508 → b.rd F.WK_CTL_T_THROTTLE ≤ b.rd F.WK_CTL_T_CRIT → b.rd F.WK_CTL_T_CRIT ≤ 114 → 80 ≤ b.rd F.WK_CTL_T_CRIT →
      60 ≤ b.rd F.WK_CTL_T_THROTTLE → b.rd F.WK_CTL_T_RELEASE < b.rd F.WK_CTL_T_THROTTLE → 5 ≤ b.rd F.WK_CTL_V_MARGIN → b.rd F.WK_CTL_V_MARGIN ≤ 100 →
      1 ≤ b.rd F.WK_POLICY_BERTH_GATE_MS → 1 ≤ b.rd F.WK_POLICY_DROWSE_IDLE_MS →
      (50 ≤ w → w ≤ 250 → ∃ b', MgrGives (.powerSet m { none_ with powerCap := some w }) s 0 [] b' ∧ b'.rd F.WK_CTL_POWER_CAP_W = w ∧
        b'.rd F.WK_CTL_T_CRIT = b.rd F.WK_CTL_T_CRIT ∧ b'.rd F.WK_CTL_T_THROTTLE = b.rd F.WK_CTL_T_THROTTLE ∧ b'.rd F.WK_CTL_MAX_OPP = b.rd F.WK_CTL_MAX_OPP) ∧
      (250 < w → ∃ b' x z, MgrGives (.powerSet m { none_ with powerCap := some w }) s 4 [x, z] b' ∧ b'.rd F.WK_CTL_POWER_CAP_W = 250)) ∧
    (n < 48 → ∃ b', Gives (.sensorSample true n code) s b' ∧ tgetD b'.watch.temps n [] = l ∧ tgetD b'.watch.tempY n 0 = y' ∧
      b'.power.thermTrip = (b.power.thermTrip || decide (115 * 128 < y')) ∧ b'.rd F.WK_TEMP_NOW n = to16 (y' / 16)) ∧
    (n < 16 → ∃ b', Gives (.sensorSample false n code) s b' ∧ b'.power = b.power ∧ b'.watch.temps = b.watch.temps ∧
      tgetD b'.watch.volts n [] = ((code.toNat + b.trim (0x0740 + n)) :: tgetD b.watch.volts n []).take 3) ∧
    (decides → s.aon.ns % 1000000 = 0 →
      ∃ b', Gives (.ceilingTick w8) s b' ∧ b'.watch.power = (min w8 65535 :: b.watch.power).take 100 ∧ b'.rd F.WK_POWER_NOW = min w8 65535 ∧
        (n < 16 → (128 * (b.rd F.WK_CTL_T_CRIT : Int) < tgetD b.watch.tempY (2 * n) 0) → ∃ x, tget b'.watch.ceilings n = some x ∧ x.1 = 0 ∧ x.2.1 = 0)) ∧
    (s.aon.ns % 1000000 ≠ 0 → Gives (.ceilingTick w8) s b) ∧
    (d < 34 →
      (b.power.pdEn.testBit d = true → b.domUp d = false → ∃ b', Gives (.powerGood d true) s b' ∧ b'.domUp d = true ∧ b'.power.pdGood.testBit d = true ∧
        (16 ≤ d → d < 24 → (b'.core (d - 16)).on = true)) ∧
      (b.power.pdWant.testBit d = true → b.power.pdEn.testBit d = false →
        ∃ b', Gives (.powerGood d false) s b' ∧ b'.power.pdEn.testBit d = true ∧ b'.power.pdGood.testBit d = false) ∧
      (b.power.pdWant.testBit d = false → ∃ b', Gives (.powerGood d false) s b' ∧ b'.power.pdEn = b.power.pdEn ∧ b'.power.pdGood.testBit d = false)) ∧
    (n < 16 → decides → b.bstate n ≠ 9 →
      (b.gateDue e n = true → ∃ b', Gives (.berthGate n) s b' ∧ b'.bstate n = 0 ∧ b'.domUp n = false ∧ (b'.berth n).regs = Regs.reset) ∧
      (b.gateDue e n = false → Gives (.berthGate n) s b)) ∧
    (decides → b.quiet = true → b.started e = true → b.hold.powerWarn = false →
      (st = 0 → b.rd F.WK_POLICY_DROWSE_ALLOW = 1 → b.watch.quietSince + b.rd F.WK_POLICY_DROWSE_IDLE_MS * 1000000 ≤ s.aon.ns →
        ∃ b', Gives .drowseEntry s b' ∧ b'.rd F.WK_STATE_STATE = 4 ∧ b'.watch.drowseSince = s.aon.ns) ∧
      (st = 0 → b.rd F.WK_POLICY_DROWSE_ALLOW = 0 → Gives .drowseEntry s b) ∧
      (st = 4 → (∀ x ∈ b.hold.stks, x.2.owes = false) →
        ∃ b', Gives .drowseEntry s b' ∧ b'.rd F.WK_STATE_STATE = 2 ∧ ∀ g, g < 8 → (b'.core g).on = false ∧ b'.domUp (16 + g) = false)) ∧
    (decides → st = 2 → cause ≠ 3 →
      (b.wakes cause src = true → ∃ b', Gives (.drowseExit cause src) s b' ∧ b'.rd F.WK_STATE_WAKE_CAUSE = cause ∧
        (b'.rd F.WK_STATE_STATE = 5 ∨ b'.rd F.WK_STATE_STATE = 0) ∧ b'.rd F.WK_STATE_WAKES = min 0xFFFF (b.rd F.WK_STATE_WAKES + 1)) ∧
      (b.wakes cause src = false → Gives (.drowseExit cause src) s b)) ∧
    (decides → st = 2 → b.rd F.WK_POLICY_ANCHOR_ALLOW = 1 → b.quay.slices = [] → b.storeBusy = false →
      (b.watch.drowseSince + 1000000000 ≤ s.aon.ns →
        ∃ b', Gives .anchorEntry s b' ∧ b'.rd F.WK_STATE_STATE = 3 ∧ b'.harbour.down = true ∧ ∀ k, k < 34 → b'.domUp k = false) ∧
      (s.aon.ns < b.watch.drowseSince + 1000000000 → Gives .anchorEntry s b)) ∧
    (decides → st = 3 → warm .hostActivity 5) ∧
    (st ≠ 3 → Gives .hostActivity s { b with watch := { b.watch with hostAct := true } }) ∧
    (b.hold.powerWarn = false → ∃ b', Gives .powerWarning s b' ∧ b'.hold.powerWarn = true ∧
      (∀ h, h < 8 → (b'.stack h).merge = (b.stack h).merge ∧ (b'.stack h).flushing = (b.stack h).flushing ∧
        ((b.stack h).merge ≠ [] → ∃ is, (b'.chan (b.ownChan h)).ops = (b.chan (b.ownChan h)).ops ++ [.notice is])) ∧ Gives .powerWarningClear s b) ∧
    (b.hold.powerWarn = true → ∃ b', Gives .powerWarningClear s b' ∧ b'.hold.powerWarn = false ∧
      (∀ h, h < 8 → (b'.stack h).notice = [] ∧ (b'.stack h).noticeTorn = false) ∧ (∀ ch, ch < 16 → ∀ is, .notice is ∉ (b'.chan ch).ops.drop 1) ∧ Gives .powerWarning s b) ∧
    (b.hmUp = true → ∃ b', Gives (.wdogKick v) s b' ∧ b'.rd F.WK_WDOG_PERIOD_MS = clampN 50 10000 (F.WK_WDOG_PERIOD_MS.of v) ∧
      (F.WK_WDOG_KICK.of v = 1 → b'.watch.kicked = s.aon.ns ∧ b'.watch.warned = false) ∧ (F.WK_WDOG_KICK.of v = 0 → b'.watch = b.watch)) ∧
    (kick →
      (b.watch.warned = false → b.watch.kicked + b.rd F.WK_WDOG_PERIOD_MS * 500000 ≤ s.aon.ns → b.rd F.BL_TARGET_STATE 21 = 0 →
        ∃ b', Gives .wdogWarning s b' ∧ b'.watch.warned = true ∧ b'.rd F.BL_TARGET_STATE 21 = 1) ∧
      (b.watch.warned = true → Gives .wdogWarning s b) ∧
      (b.watch.kicked + b.rd F.WK_WDOG_PERIOD_MS * 1000000 ≤ s.aon.ns →
        ∃ b', Gives .wdogExpiry s b' ∧ b'.harbour.down = true ∧ b'.harbour.sessions = [] ∧ b'.rd F.WK_WDOG_EXPIRED = min 0xFFFF (b.rd F.WK_WDOG_EXPIRED + 1)) ∧
      (s.aon.ns < b.watch.kicked + b.rd F.WK_WDOG_PERIOD_MS * 1000000 → Gives .wdogExpiry s b))
/-! ### Register accesses, the host port -/

/-- Register accesses (R8, R12, R14, R19, R52, R53, R286, R318, R319): an agent's write sets the writable bits of the register at the address, clears and sets by ones where the register says so, and leaves the other bits and registers; a read returns the register and clears its clear-on-read bits, which keep what events of the same cycle bring; an access of another size or place, or without a grant, is discarded and counted. A host access of BAR2 passes as one request a unit or is answered Unsupported Request; the MSI-X table holds what the host writes, and an unmasked pending vector is sent; a completion answers its read. -/
def Obligations.RegisterAccessesAndHostPort : Prop :=
  ∀ (s : State) (addr bits i off n g tag len sl p sub t ev serial k j store : Nat) (v : Word) (w : BitVec 32) (kind : RegKind) (write ok : Bool) (data : List Byte) (r : MemReq) (x : MsixEntry) (tr : Xfer),
    let b := s.blk
    let own : List RegKind := [.btCtl, .btSpareMap, .btArrayHealth, .btRemap, .plGranule, .bwRate, .bwSched, .tlBcfg, .tlGcfg, .tlSamp, .tlBwctl, .wkWdog, .qySquota, .plSquota, .mfPctl, .mfSquota, .blRaise,
      .blComplete, .blFcomplete, .blTarget, .mbPost, .mbTake, .mbReply, .mbCfg, .mbState, .mbAck, .mbStat, .mbNotify]
    let rest (b' : Block) : Prop := { b' with regs := [] } = { b with regs := [] }
    let counted (c : Instr) : Prop := ∃ b', Gives c s b' ∧ b'.rd F.GLB_ACCESS_ERR_COUNT = min (2 ^ 48 - 1) (b.rd F.GLB_ACCESS_ERR_COUNT + 1) ∧
      (∀ a, a ≠ RegKind.glbAccessErr.addr 0 → tget b'.regs a = tget b.regs a) ∧ { b' with regs := [], readData := b.readData } = { b with regs := [] }
    let size := if write then data.length else len
    (b.harbour.down = false → addr % 8 = 0 →
      (regAt addr = some (kind, i) → kind ∉ own →
        ∃ b', Gives (.registerWrite .harbourmaster addr 64 v) s b' ∧ rest b' ∧ (∀ a, a ≠ addr → tget b'.regs a = tget b.regs a) ∧
          ∀ q, q < 64 → (b'.reg kind i).getLsbD q = ((v.getLsbD q && kind.w1sMask.getLsbD q) ||
            ((if kind.rwMask.getLsbD q then (clampWrite kind v).getLsbD q else (b.reg kind i).getLsbD q) && !(v.getLsbD q && kind.w1cMask.getLsbD q)))) ∧
      (regAt addr = some (kind, i) → kind ∈ [RegKind.qySquota, .plSquota, .mfPctl, .mfSquota] → Gives (.registerWrite .harbourmaster addr 64 v) s b) ∧
      (regAt addr = some (kind, i) → kind ∉ [RegKind.blClaim, .blFclaim, .fyLate] →
        ∃ b', Gives (.rcRegisterRead .harbourmaster addr 64 []) s b' ∧ b'.readData = b.readWord s.env kind i ∧ (∀ a, a ≠ addr → tget b'.regs a = tget b.regs a) ∧
          ∀ q, q < 64 → (b'.reg kind i).getLsbD q = if kind.rcMask.getLsbD q then kind.resetWord.getLsbD q else (b.reg kind i).getLsbD q)) ∧
    (b.harbour.down = false → 1 ≤ ev → ∃ b', Gives (.rcRegisterRead .harbourmaster (RegKind.lbHang.addr 0) 64 [(48, ev)]) s b' ∧
      b'.readData = b.reg .lbHang 0 ∧ b'.rd ⟨.lbHang, 48, 16⟩ = min 0xFFFF ev ∧ b'.rd ⟨.lbHang, 32, 16⟩ = 0) ∧
    (b.harbour.down = false → (bits ≠ 64 ∨ addr % 8 ≠ 0) →
      counted (.registerWrite .harbourmaster addr bits v) ∧ counted (.rcRegisterRead .harbourmaster addr bits [])) ∧
    (g < 8 → b.awake (.core g) = false → Gives (.registerWrite (.core g) addr bits v) s b) ∧
    (g < 8 → b.awake (.core g) = true → addr % 8 = 0 → regAt addr = some (kind, i) →
      (b.granted (.core g) kind i true = false → counted (.registerWrite (.core g) addr 64 v)) ∧
      (b.granted (.core g) kind i false = false → counted (.rcRegisterRead (.core g) addr 64 []))) ∧
    (b.harbour.down = true → Gives (.registerWrite .harbourmaster addr bits v) s b) ∧
    (b.hostUp = true →
      (bits ≠ 64 ∨ addr % 8 ≠ 0 → ¬ (bits = 32 ∧ addr % 4 = 0) → Gives (.registerWrite .host addr bits v) s b ∧ Gives (.rcRegisterRead .host addr bits []) s { b with readData := 0 }) ∧
      Gives (.registerWrite .host (0x4000 + 16 * n) 32 v) s (b.msixWrite (16 * n) (v.toNat % 2 ^ 32)) ∧
      Gives (.rcRegisterRead .host 8 64 []) s { b with readData := b.readWord s.env .glbService 0 }) ∧
    (b.hostUp = false → Gives (.registerWrite .host addr bits v) s b ∧ Gives (.rcRegisterRead .host addr bits []) s b ∧ Gives (.hostBar2Access write off len (some n) data) s b ∧ Gives (.msixTableWrite off w) s b) ∧
    (b.hostUp = true → 0 < size → b.backed s.env off = true → b.ports.opened.contains (off / 2 ^ 36) = true → off % 128 + size ≤ 128 →
      b.backed s.env (off + size - 1) = true →
      (b.pasidSlice n = none → Gives (.hostBar2Access write off len (some n) data) s (b.send (.bar2 1 []))) ∧
      (b.pasidSlice n = some sl → b.granuleOk off sl (((tget b.quay.slices sl).map (·.baseCtx)).getD 0) = true → b.ports.isolated.contains (off / 2 ^ 36) = false →
        b.queuesAt { memReq .bar2 off size write sl (((tget b.quay.slices sl).map (·.baseCtx)).getD 0) 0 with data := if write then data else [] } = false →
        b.freeTag (off / 2 ^ 36) (off / 128 % 4) = some t →
        ∃ b' y, Gives (.hostBar2Access write off len (some n) data) s b' ∧ tget b'.ports.out (reqKey (off / 2 ^ 36) (off / 128 % 4) t) = some y ∧ y.addr = off ∧ y.len = size ∧ y.write = write ∧
          y.slice = sl ∧ y.who = .bar2 ∧ y.since = s.aon.ns ∧ (write = true → y.data = data) ∧ b'.host = b.host)) ∧
    (b.hostUp = true → 0 < size → b.backed s.env off = false → Gives (.hostBar2Access write off len (some n) data) s (b.send (.bar2 1 []))) ∧
    (b.hostUp = true → n < 2048 → x = b.msixEntry n →
      (∃ b', Gives (.msixTableWrite (16 * n) w) s b' ∧ tget b'.host.msix n = some { x with addr := x.addr / 2 ^ 32 * 2 ^ 32 + w.toNat } ∧ b'.host.out = b.host.out) ∧
      (∃ b', Gives (.msixTableWrite (16 * n + 8) w) s b' ∧ tget b'.host.msix n = some { x with data := w.toNat } ∧ b'.host.out = b.host.out) ∧
      (w.toNat % 2 = 0 → x.pending = true → b.host.msixEnable = true → b.host.msixMask = false →
        ∃ b', Gives (.msixTableWrite (16 * n + 12) w) s b' ∧ tget b'.host.msix n = some { x with masked := false, pending := false } ∧
          b'.host.out = b.host.out ++ [.msix n x.addr x.data]) ∧
      (w.toNat % 2 = 1 → ∃ b', Gives (.msixTableWrite (16 * n + 12) w) s b' ∧ tget b'.host.msix n = some { x with masked := true } ∧ b'.host.out = b.host.out)) ∧
    (b.hostUp = true → 32768 ≤ off → Gives (.msixTableWrite off w) s b) ∧
    (tget b.host.reads tag = none → Gives (.hostCompletion tag ok data) s b) ∧
    (tget b.host.reads tag = some .other → Gives (.hostCompletion tag ok data) s { b with host := { b.host with reads := tdel b.host.reads tag } }) ∧
    (tget b.host.reads tag = some (.asked r) → r.who = .bar2 → r.write = false →
      (∃ b', Gives (.hostCompletion tag true data) s b' ∧ tget b'.host.reads tag = none ∧ b'.host.out = b.host.out ++ [.bar2 0 data]) ∧
      ∃ b' st, Gives (.hostCompletion tag false data) s b' ∧ tget b'.host.reads tag = none ∧ st ≠ 0 ∧
        (b'.host.out = b.host.out ++ [.bar2 st []] ∨ b'.host.out = b.host.out ++ [.aer r.addr, .bar2 st []])) ∧
    (tget b.host.reads tag = some (.transfer p sub serial j store) → sub < 2 → (b.berth p).eng sub = [tr] → tr.serial = serial → tr.mv = .buffer false k off → b.enginesRun p = false →
      ∃ b' y, Gives (.hostCompletion tag true data) s b' ∧ tget b'.host.reads tag = none ∧ (b'.berth p).eng sub = [y] ∧ y.done = tr.done + data.length)
/-! ### The whole block -/

/-- Every well-formed command answers a next state, whatever the state: no fault and no refusal; a command of the table that the manual turns away is turned away by a reply, a record or a count, which is a next state. -/
def Obligations.EveryWellFormedCommandAnswers : Prop :=
  ∀ (s : State) (c : Instr), c.wf = true → Safe (Sys2Proof.Machine.exec c s)

/-- Every step keeps the invariant, in any state and whatever command stands in front (R2, R400, R417, R423): the ties stand, fuses are never unset, no rollback counter goes down, the epoch stays 1 to 255, the waiting commands stay well formed. -/
def Obligations.EveryStepKeepsTheInvariant : Prop :=
  ∀ (ti : Ties) (fu : Fuses) (s t : State), s.Inv ti fu → Sys2Proof.Machine.step s = .next t → t.Inv ti fu

/-- The invariant holds right after reset, with the ties and fuses of the instance (logs 2 and 3). -/
def Obligations.ResetHasTheInvariant : Prop := State.reset.Inv Ties.reset Fuses.reset

/-- A manager command acts only for a session with management rights whose key holds the lease (R425, R427, R455): any other is answered DENIED and changes nothing else, and while the Harbourmaster is in reset nothing answers; a turn that a waiting command had taken (R329) is over. -/
def Obligations.ManagerCommandsNeedAuthority : Prop :=
  ∀ (s : State) (c : Instr) (m : Mgr) (op : Nat), mgrOf c = some (m, op) →
    ∃ f : Bool, (f = true → s.blk.harbour.inTurn = true) ∧
      let h := { s.blk.harbour with inTurn := f }
      (h.down = true → Gives c s { s.blk with harbour := h }) ∧
      (h.down = false → s.blk.mayCommand s.env m op = false →
        Gives c s { s.blk with harbour := { h with replies := h.replies ++ [⟨m.session, m.seq, op, 2, []⟩] } })

/-! ### Frames of commands whose own statements above say what they change -/

/-- Frame of manager commands: whatever a command of these rows answers, it changes nothing but what its arm names, its reply among them. `regsBut` names the kinds of registers it may change; no other register of the control space changes. -/
def Obligations.ManagerCommandsChangeOnlyTheirPart : Prop :=
  ∀ (s t : State) (c : Instr), Sys2Proof.Machine.exec c s = .next t →
    let b := s.blk
    let z := t.blk
    match c with
    | .holdStatus .. | .objInfo .. | .stageStatus .. | .tallyRead .. | .windowInfo .. => t = { s with blk := { b with harbour := { b.harbour with replies := z.harbour.replies } } }
    | .sliceUnquiesce .. => t = { s with blk := { b with harbour := { b.harbour with deferred := z.harbour.deferred, inTurn := z.harbour.inTurn, replies := z.harbour.replies }, regs := z.regs } }
    | .holdConfig _ _ => t = { s with blk := { b with harbour := { b.harbour with replies := z.harbour.replies }, regs := z.regs } } ∧ regsBut [.hdCtl, .hdStack, .hdPshare] b z
    | .logConfig _ _ _ _ => t = { s with blk := { b with harbour := { b.harbour with replies := z.harbour.replies }, regs := z.regs } } ∧ regsBut [.lbCtl] b z
    | .mailboxConfig _ _ _ _ _ _ => t = { s with blk := { b with harbour := { b.harbour with replies := z.harbour.replies }, regs := z.regs } } ∧ regsBut [.mbCfg] b z
    | .powerSet _ _ => t = { s with blk := { b with harbour := { b.harbour with replies := z.harbour.replies }, regs := z.regs } } ∧ regsBut [.wkCtl, .wkPolicy] b z
    | .tallySet _ _ _ => t = { s with blk := { b with harbour := { b.harbour with replies := z.harbour.replies }, regs := z.regs } } ∧ regsBut [.tlBcfg, .tlGcfg] b z
    | .debugUnlock .. => t = { s with blk := { b with harbour := { b.harbour with debug := z.harbour.debug, replies := z.harbour.replies } } }
    | .leaseRelease .. => t = { s with blk := { b with harbour := { b.harbour with lease := z.harbour.lease, replies := z.harbour.replies } } }
    | .migrationKey .. => t = { s with blk := { b with harbour := { b.harbour with migKeys := z.harbour.migKeys, replies := z.harbour.replies } } }
    | .calibApply .. => t = { s with blk := { b with harbour := { b.harbour with replies := z.harbour.replies, trims := z.harbour.trims } } }
    | .rollbackCommit .. => t = { s with fuses := t.fuses, blk := { b with harbour := { b.harbour with replies := z.harbour.replies } } }
    | .sampleSet _ _ _ _ _ => t = { s with blk := { b with berths := z.berths, harbour := { b.harbour with replies := z.harbour.replies }, regs := z.regs } } ∧ regsBut [.tlSamp] b z
    | .groupSet .. => t = { s with blk := { b with fabric := { b.fabric with groups := z.fabric.groups }, harbour := { b.harbour with replies := z.harbour.replies } } }
    | .windowOpen .. => t = { s with blk := { b with fabric := { b.fabric with windows := z.fabric.windows }, harbour := { b.harbour with replies := z.harbour.replies } } }
    | .objGrant .. | .objRevoke .. => t = { s with blk := { b with harbour := { b.harbour with replies := z.harbour.replies }, hold := { b.hold with objs := z.hold.objs } } }
    | .configReport .. => t = { s with blk := { b with harbour := { b.harbour with replies := z.harbour.replies }, host := { b.host with out := z.host.out } } }
    | .logAck .. => t = { s with blk := { b with harbour := { b.harbour with replies := z.harbour.replies }, log := { b.log with alarms := z.log.alarms } } }
    | .fallbackSet .. => t = { s with blk := { b with harbour := { b.harbour with replies := z.harbour.replies }, manifest := { b.manifest with models := z.manifest.models } } }
    | .dirtyStart .. => t = { s with blk := { b with harbour := { b.harbour with replies := z.harbour.replies }, pilot := { b.pilot with dirty := z.pilot.dirty } } }
    | .schedSet _ _ _ _ _ _ => t = { s with blk := { b with harbour := { b.harbour with deferred := z.harbour.deferred, inTurn := z.harbour.inTurn, replies := z.harbour.replies }, quantumFrom := z.quantumFrom, regs := z.regs } } ∧ regsBut [.bwSched] b z
    | .logRoute .. => t = { s with blk := { b with harbour := { b.harbour with replies := z.harbour.replies }, quay := { b.quay with slices := z.quay.slices } } }
    | .leaseAcquire .. | .leaseRenew .. => t = { s with blk := { b with harbour := { b.harbour with lease := z.harbour.lease, replies := z.harbour.replies, reserved := z.harbour.reserved } } }
    | .sampleRead _ u _ _ => t = { s with blk := { b with berths := z.berths, harbour := { b.harbour with replies := z.harbour.replies }, host := { b.host with out := z.host.out } } } ∧ ∀ k, k ≠ u → z.berth k = b.berth k
    | .paceRead _ _ => t = { s with blk := { b with fabric := { b.fabric with late := z.fabric.late }, harbour := { b.harbour with replies := z.harbour.replies }, regs := z.regs } } ∧ regsBut [.tlPace] b z
    | .linkConfig _ _ _ _ _ _ _ => t = { s with blk := { b with fabric := { b.fabric with links := z.fabric.links }, harbour := { b.harbour with replies := z.harbour.replies }, regs := z.regs } } ∧ regsBut [.feLink, .blTarget] b z
    | .peerEpoch .. => t = { s with blk := { b with fabric := { b.fabric with groups := z.fabric.groups, windows := z.fabric.windows }, harbour := { b.harbour with replies := z.harbour.replies } } }
    | .regulatorSet _ _ _ _ _ _ _ => t = { s with blk := { b with harbour := { b.harbour with deferred := z.harbour.deferred, inTurn := z.harbour.inTurn, replies := z.harbour.replies }, ports := { b.ports with buckets := z.ports.buckets }, regs := z.regs } } ∧ regsBut [.bwRate] b z
    | .logRead .. => t = { s with blk := { b with harbour := { b.harbour with replies := z.harbour.replies }, host := { b.host with out := z.host.out }, log := { b.log with events := z.log.events } } }
    | .dirtyHarvest .. | .dirtyStop .. => t = { s with blk := { b with harbour := { b.harbour with replies := z.harbour.replies, running := z.harbour.running }, host := { b.host with out := z.host.out }, pilot := { b.pilot with dirty := z.pilot.dirty, harvests := z.pilot.harvests, logLines := z.pilot.logLines } } }
    | .blockReport .. | .sliceReport .. => t = { s with blk := { b with harbour := { b.harbour with replies := z.harbour.replies }, host := { b.host with out := z.host.out }, ports := { b.ports with draws := z.ports.draws } } }
    | .windowSet _ _ _ _ => t = { s with blk := { b with harbour := { b.harbour with replies := z.harbour.replies }, regs := z.regs, tally := { b.tally with since := z.tally.since, window := z.tally.window } } } ∧ regsBut [.tlBwctl, .tlBwin] b z
    | .objDelete .. => t = { s with blk := { b with harbour := { b.harbour with replies := z.harbour.replies }, hold := { b.hold with chans := z.hold.chans, objs := z.hold.objs, stks := z.hold.stks }, regs := z.regs } }
    | .logDump .. => t = { s with blk := { b with harbour := { b.harbour with replies := z.harbour.replies }, hold := { b.hold with chans := z.hold.chans, dumpCount := z.hold.dumpCount, dumpQueue := z.hold.dumpQueue, dumpWriting := z.hold.dumpWriting, stks := z.hold.stks }, regs := z.regs } }
    | .modelRetire .. => t = { s with blk := { b with harbour := { b.harbour with replies := z.harbour.replies }, manifest := { b.manifest with models := z.manifest.models }, pilot := { b.pilot with holders := z.pilot.holders, lost := z.pilot.lost, stamps := z.pilot.stamps } } }
    | .configWrite .. => t = { s with blk := { b with harbour := { b.harbour with imageA := z.harbour.imageA, imageB := z.harbour.imageB, replies := z.harbour.replies, running := z.harbour.running, writingImage := z.harbour.writingImage, xspi := z.harbour.xspi } } }
    | .partitionCreate .. => t = { s with blk := { b with berths := z.berths, harbour := { b.harbour with deferred := z.harbour.deferred, inTurn := z.harbour.inTurn, replies := z.harbour.replies }, power := { b.power with pdEn := z.power.pdEn, pdWant := z.power.pdWant }, quantumFrom := z.quantumFrom, regs := z.regs } }
    | .ping .. => t = { s with blk := { b with fabric := { b.fabric with links := z.fabric.links, nextTag := z.fabric.nextTag, reqs := z.fabric.reqs }, harbour := { b.harbour with replies := z.harbour.replies, running := z.harbour.running }, regs := z.regs } }
    | .dumpRead .. => t = { s with blk := { b with harbour := { b.harbour with replies := z.harbour.replies }, hold := { b.hold with dumps := z.hold.dumps }, host := { b.host with out := z.host.out }, ports := { b.ports with draws := z.ports.draws } } }
    | .objCreate .. => t = { s with blk := { b with harbour := { b.harbour with replies := z.harbour.replies }, hold := { b.hold with chans := z.hold.chans, gens := z.hold.gens, objs := z.hold.objs }, ports := { b.ports with draws := z.ports.draws } } }
    | .sliceExport .. => t = { s with blk := { b with harbour := { b.harbour with deferred := z.harbour.deferred, inTurn := z.harbour.inTurn, replies := z.harbour.replies, running := z.harbour.running }, host := { b.host with out := z.host.out }, quay := { b.quay with slices := z.quay.slices }, regs := z.regs } }
    | .sliceResize .. => t = { s with blk := { b with berths := z.berths, cores := z.cores, harbour := { b.harbour with deferred := z.harbour.deferred, inTurn := z.harbour.inTurn, replies := z.harbour.replies }, ports := { b.ports with wipes := z.ports.wipes }, quay := { b.quay with cmds := z.quay.cmds, slices := z.quay.slices }, regs := z.regs, tally := { b.tally with berthNs := z.tally.berthNs, coreNs := z.tally.coreNs } } }
    | .fwStage .. => t = { s with blk := { b with berths := z.berths, cores := z.cores, harbour := { b.harbour with bundleA := z.harbour.bundleA, bundleB := z.harbour.bundleB, coreDigest := z.harbour.coreDigest, replies := z.harbour.replies, running := z.harbour.running, staged := z.harbour.staged, svnCore := z.harbour.svnCore, svnUcode := z.harbour.svnUcode, ucodeDigest := z.harbour.ucodeDigest, writingBundle := z.harbour.writingBundle, xspi := z.harbour.xspi } } }
    | .windowClose .. => t = { s with blk := { b with fabric := { b.fabric with windows := z.fabric.windows }, harbour := { b.harbour with replies := z.harbour.replies, running := z.harbour.running }, host := { b.host with out := z.host.out }, log := { b.log with evTokens := z.log.evTokens, events := z.log.events, seqE := z.log.seqE }, regs := z.regs } }
    | .serveConfig .. => t = { s with blk := { b with harbour := { b.harbour with replies := z.harbour.replies, running := z.harbour.running }, host := { b.host with out := z.host.out }, log := { b.log with evTokens := z.log.evTokens, events := z.log.events, seqE := z.log.seqE }, manifest := { b.manifest with detWait := z.manifest.detWait, seqs := z.manifest.seqs }, regs := z.regs } }
    | .groupFree .. => t = { s with blk := { b with fabric := { b.fabric with groups := z.fabric.groups, windows := z.fabric.windows }, harbour := { b.harbour with replies := z.harbour.replies, running := z.harbour.running }, host := { b.host with out := z.host.out }, log := { b.log with evTokens := z.log.evTokens, events := z.log.events, seqE := z.log.seqE }, regs := z.regs } }
    | .objSeal .. => t = { s with blk := { b with harbour := { b.harbour with replies := z.harbour.replies, running := z.harbour.running }, hold := { b.hold with chans := z.hold.chans, objs := z.hold.objs, stks := z.hold.stks }, host := { b.host with out := z.host.out }, log := { b.log with evTokens := z.log.evTokens, events := z.log.events, seqE := z.log.seqE }, ports := { b.ports with draws := z.ports.draws }, regs := z.regs } }
    | _ => True

/-- Frame of the other commands: register accesses, admin commands, events of the ports, links, stacks, cores, Bell and Watchkeeper. Whatever a command of these rows answers, it changes nothing but what its arm names; where a row acts on one berth or one link, every other berth or link stays as it was. -/
def Obligations.OtherCommandsChangeOnlyTheirPart : Prop :=
  ∀ (s t : State) (c : Instr), Sys2Proof.Machine.exec c s = .next t →
    let b := s.blk
    let z := t.blk
    match c with
    | .icacheFillComplete u => t = { s with blk := { b with berths := z.berths } } ∧ ∀ k, k ≠ u → z.berth k = b.berth k
    | .storeWriteBack u _ => t = { s with blk := { b with berths := z.berths } } ∧ ∀ k, k ≠ u → z.berth k = b.berth k
    | .lighterAbortAck .. => t = { s with blk := { b with lighters := z.lighters } }
    | .counterClear .. => t = { s with blk := { b with regs := z.regs } }
    | .blRaise _ _ => t = { s with blk := { b with regs := z.regs } } ∧ regsBut [.blTarget, .blStat] b z
    | .granuleWrite _ _ => t = { s with blk := { b with regs := z.regs } } ∧ regsBut [.plGranule] b z
    | .instructionSample u => t = { s with blk := { b with berths := z.berths, regs := z.regs } } ∧ regsBut [.tlSamp] b z ∧ ∀ k, k ≠ u → z.berth k = b.berth k
    | .operatingPointChange u _ => t = { s with blk := { b with berths := z.berths, regs := z.regs } } ∧ regsBut [.btClock, .blTarget] b z ∧ ∀ k, k ≠ u → z.berth k = b.berth k
    | .spareMapWrite u _ => t = { s with blk := { b with berths := z.berths, regs := z.regs } } ∧ regsBut [.btSpareMap, .btArrayHealth] b z ∧ ∀ k, k ≠ u → z.berth k = b.berth k
    | .swapGo u _ _ => t = { s with blk := { b with fabric := { b.fabric with links := z.fabric.links } } } ∧ ∀ k, k ≠ u → z.link k = b.link k
    | .swapReq u _ _ => t = { s with blk := { b with fabric := { b.fabric with links := z.fabric.links } } } ∧ ∀ k, k ≠ u → z.link k = b.link k
    | .leaseExpiry => t = { s with blk := { b with harbour := { b.harbour with lease := z.harbour.lease } } }
    | .getVersion .. | .heartbeat .. => t = { s with blk := { b with host := { b.host with out := z.host.out } } }
    | .blClaim _ _ _ => t = { s with blk := { b with readData := z.readData, regs := z.regs } } ∧ regsBut [.blTarget, .glbAccessErr] b z
    | .blComplete _ _ _ _ => t = { s with blk := { b with readData := z.readData, regs := z.regs } } ∧ regsBut [.blTarget, .blStat, .glbAccessErr] b z
    | .blTargetWrite _ _ _ => t = { s with blk := { b with readData := z.readData, regs := z.regs } } ∧ regsBut [.blTarget, .blStat, .glbAccessErr] b z
    | .pingReceive .. | .swapAt .. => t = { s with blk := { b with fabric := { b.fabric with links := z.fabric.links }, regs := z.regs } }
    | .laneIdleDetect u _ => t = { s with blk := { b with fabric := { b.fabric with links := z.fabric.links }, regs := z.regs } } ∧ regsBut [.feLink, .blTarget] b z ∧ ∀ k, k ≠ u → z.link k = b.link k
    | .linkIdleEntry u => t = { s with blk := { b with fabric := { b.fabric with links := z.fabric.links } } } ∧ regsBut [.feLink] b z ∧ ∀ k, k ≠ u → z.link k = b.link k
    | .linkIdleExit u => t = { s with blk := { b with fabric := { b.fabric with links := z.fabric.links }, regs := z.regs } } ∧ regsBut [.feLink] b z ∧ ∀ k, k ≠ u → z.link k = b.link k
    | .continue .. => t = { s with blk := { b with harbour := { b.harbour with pieces := z.harbour.pieces, replies := z.harbour.replies } } }
    | .managerCommandTimeout .. => t = { s with blk := { b with harbour := { b.harbour with replies := z.harbour.replies, running := z.harbour.running } } }
    | .powerWarning => t = { s with blk := { b with hold := { b.hold with chans := z.hold.chans, powerWarn := z.hold.powerWarn, stks := z.hold.stks } } }
    | .msixTableWrite .. => t = { s with blk := { b with host := { b.host with msix := z.host.msix, out := z.host.out } } }
    | .lighterDone .. => t = { s with blk := { b with lighters := z.lighters, pilot := { b.pilot with holders := z.pilot.holders }, quay := { b.quay with cmds := z.quay.cmds } } }
    | .suspectTrial _ => t = { s with blk := { b with quay := { b.quay with cmds := z.quay.cmds }, regs := z.regs } } ∧ regsBut [.lbHang] b z
    | .wdogWarning => t = { s with blk := { b with regs := z.regs, watch := { b.watch with warned := z.watch.warned } } } ∧ regsBut [.blTarget] b z
    | .staleNotice .. => t = { s with blk := { b with berths := z.berths, cores := z.cores, pilot := { b.pilot with notices := z.pilot.notices } } }
    | .spareLaneLocked .. => t = { s with blk := { b with fabric := { b.fabric with links := z.fabric.links } } }
    | .finish .. => t = { s with blk := { b with harbour := { b.harbour with sessions := z.harbour.sessions }, host := { b.host with out := z.host.out } } }
    | .mergeFlush .. => t = { s with blk := { b with hold := { b.hold with chans := z.hold.chans, stks := z.hold.stks }, ports := { b.ports with draws := z.ports.draws }, regs := z.regs } }
    | .challenge .. | .getCapabilities .. | .getMeasurements .. | .negotiateAlgorithms .. => t = { s with blk := { b with host := { b.host with out := z.host.out }, ports := { b.ports with draws := z.ports.draws } } }
    | .getCertificate .. | .getDigests .. => t = { s with blk := { b with host := { b.host with out := z.host.out } } }
    | .mailboxTimeout .. => t = { s with blk := { b with host := { b.host with msix := z.host.msix, out := z.host.out }, regs := z.regs } }
    | .drowseExit .. => t = { s with blk := { b with power := { b.power with pdEn := z.power.pdEn, pdWant := z.power.pdWant }, regs := z.regs } }
    | .bandwidthWindowEnd => t = { s with blk := { b with regs := z.regs, tally := { b.tally with since := z.tally.since, window := z.tally.window } } } ∧ regsBut [.tlBwin] b z
    | .tlBwctlWrite _ => t = { s with blk := { b with regs := z.regs, tally := { b.tally with since := z.tally.since, window := z.tally.window } } } ∧ regsBut [.tlBwctl, .tlBwin] b z
    | .wdogKick _ => t = { s with blk := { b with regs := z.regs, watch := { b.watch with kicked := z.watch.kicked, warned := z.watch.warned } } } ∧ regsBut [.wkWdog] b z
    | .mbPost .. | .mbTake .. => t = { s with blk := { b with boxes := z.boxes, host := { b.host with msix := z.host.msix, out := z.host.out }, regs := z.regs } }
    | .endSession .. => t = { s with blk := { b with harbour := { b.harbour with pieces := z.harbour.pieces, sessions := z.harbour.sessions }, host := { b.host with out := z.host.out } } }
    | .remapFold .. | .wearLevel .. => t = { s with blk := { b with hold := { b.hold with chans := z.hold.chans, stks := z.hold.stks } } }
    | .alarmNotify .. => t = { s with blk := { b with host := { b.host with out := z.host.out }, log := { b.log with alarms := z.log.alarms }, regs := z.regs } }
    | .msixModerateExpiry .. => t = { s with blk := { b with host := { b.host with msix := z.host.msix, out := z.host.out }, quay := { b.quay with queues := z.quay.queues } } }
    | .lighterMreq .. => t = { s with blk := { b with lighters := z.lighters, pilot := { b.pilot with holders := z.pilot.holders }, ports := { b.ports with lanes := z.ports.lanes } } }
    | .standingLaunch .. => t = { s with blk := { b with quay := { b.quay with cmds := z.quay.cmds, nextCmd := z.quay.nextCmd, queues := z.quay.queues }, regs := z.regs } }
    | .laneScan .. => t = { s with blk := { b with fabric := { b.fabric with links := z.fabric.links }, log := { b.log with alarms := z.log.alarms, seqA := z.log.seqA }, regs := z.regs } }
    | .ferryCredit .. => t = { s with blk := { b with berths := z.berths, fabric := { b.fabric with colls := z.fabric.colls, groups := z.fabric.groups, late := z.fabric.late, links := z.fabric.links, reqs := z.fabric.reqs }, harbour := { b.harbour with failed := z.harbour.failed, replies := z.harbour.replies, running := z.harbour.running, servicePulses := z.harbour.servicePulses }, hold := { b.hold with chans := z.hold.chans }, host := { b.host with out := z.host.out, reads := z.host.reads }, log := { b.log with alarms := z.log.alarms, evTokens := z.log.evTokens, events := z.log.events, seqA := z.log.seqA, seqE := z.log.seqE }, pilot := { b.pilot with holders := z.pilot.holders }, ports := { b.ports with buckets := z.ports.buckets, draws := z.ports.draws, lanes := z.ports.lanes, out := z.ports.out, wipes := z.ports.wipes }, power := { b.power with pdEn := z.power.pdEn, pdUp := z.power.pdUp, pdWant := z.power.pdWant }, quay := { b.quay with cmds := z.quay.cmds, slices := z.quay.slices }, regs := z.regs, reserveQueue := z.reserveQueue, slots := z.slots, tally := { b.tally with berthNs := z.tally.berthNs, window := z.tally.window }, watch := { b.watch with quietSince := z.watch.quietSince } } }
    | .recoveryHeader .. => t = { s with blk := { b with harbour := { b.harbour with recovery := z.harbour.recovery }, host := { b.host with msix := z.host.msix, out := z.host.out }, regs := z.regs } }
    | .unitOpenTimeout .. => t = { s with blk := { b with harbour := { b.harbour with failed := z.harbour.failed }, log := { b.log with alarms := z.log.alarms, seqA := z.log.seqA }, regs := z.regs } }
    | .mqReady .. => t = { s with blk := { b with harbour := { b.harbour with openUnits := z.harbour.openUnits }, ports := { b.ports with opened := z.ports.opened, ready := z.ports.ready }, regs := z.regs } }
    | .lapAlarm .. => t = { s with blk := { b with hold := { b.hold with stks := z.hold.stks }, log := { b.log with alarms := z.log.alarms, seqA := z.log.seqA }, regs := z.regs } }
    | .powerWarningClear => t = { s with blk := { b with hold := { b.hold with chans := z.hold.chans, dumpWriting := z.hold.dumpWriting, powerWarn := z.hold.powerWarn, stks := z.hold.stks }, ports := { b.ports with draws := z.ports.draws }, regs := z.regs } }
    | .storeReread .. => t = { s with blk := { b with berths := z.berths, hold := { b.hold with repairs := z.hold.repairs }, log := { b.log with alarms := z.log.alarms, seqA := z.log.seqA }, regs := z.regs } }
    | .keyExchange .. => t = { s with blk := { b with harbour := { b.harbour with nextSession := z.harbour.nextSession, sessions := z.harbour.sessions }, host := { b.host with out := z.host.out }, ports := { b.ports with draws := z.ports.draws } } }
    | .anchorEntry => t = { s with blk := { b with harbour := { b.harbour with down := z.harbour.down }, power := { b.power with pdEn := z.power.pdEn, pdUp := z.power.pdUp, pdWant := z.power.pdWant }, regs := z.regs } }
    | .storeApertureAccess .. => t = { s with blk := { b with berths := z.berths, log := { b.log with alarms := z.log.alarms, seqA := z.log.seqA }, ports := { b.ports with draws := z.ports.draws }, readData := z.readData, regs := z.regs } }
    | .berthGate .. => t = { s with blk := { b with berths := z.berths, power := { b.power with pdEn := z.power.pdEn, pdUp := z.power.pdUp, pdWant := z.power.pdWant }, regs := z.regs, watch := { b.watch with quietSince := z.watch.quietSince } } }
    | .coreTimeslice .. => t = { s with blk := { b with cores := z.cores, pilot := { b.pilot with holders := z.pilot.holders }, quay := { b.quay with cmds := z.quay.cmds, slices := z.quay.slices }, tally := { b.tally with coreNs := z.tally.coreNs } } }
    | .flitReceive .. => t = { s with blk := { b with fabric := { b.fabric with links := z.fabric.links }, log := { b.log with alarms := z.log.alarms, seqA := z.log.seqA }, ports := { b.ports with draws := z.ports.draws }, regs := z.regs } }
    | .recoveryData .. => t = { s with blk := { b with harbour := { b.harbour with bundleA := z.harbour.bundleA, recovery := z.harbour.recovery, xspi := z.harbour.xspi }, host := { b.host with msix := z.host.msix, out := z.host.out }, regs := z.regs } }
    | .recoveryCommit => t = { s with blk := { b with harbour := { b.harbour with recovery := z.harbour.recovery, writingBundle := z.harbour.writingBundle, xspi := z.harbour.xspi }, host := { b.host with msix := z.host.msix, out := z.host.out }, regs := z.regs } }
    | .dredgerRead .. => t = { s with blk := { b with hold := { b.hold with chans := z.hold.chans, objs := z.hold.objs, stks := z.hold.stks }, log := { b.log with alarms := z.log.alarms, seqA := z.log.seqA }, regs := z.regs } }
    | .relocation .. => t = { s with blk := { b with hold := { b.hold with chans := z.hold.chans, stks := z.hold.stks }, log := { b.log with alarms := z.log.alarms, seqA := z.log.seqA }, regs := z.regs } }
    | .viewUpdate .. => t = { s with blk := { b with host := { b.host with nextTag := z.host.nextTag, out := z.host.out, reads := z.host.reads }, pilot := { b.pilot with dirty := z.pilot.dirty, logLines := z.pilot.logLines }, ports := { b.ports with buckets := z.ports.buckets, lanes := z.ports.lanes }, quay := { b.quay with slices := z.quay.slices }, tally := { b.tally with snaps := z.tally.snaps, window := z.tally.window } } }
    | .sensorSample .. => t = { s with blk := { b with power := { b.power with thermTrip := z.power.thermTrip }, regs := z.regs, watch := { b.watch with tempY := z.watch.tempY, temps := z.watch.temps, voltY := z.watch.voltY, volts := z.watch.volts } } }
    | .stageS1 => t = { s with blk := { b with cores := z.cores, harbour := { b.harbour with cfg := z.harbour.cfg, coreFw := z.harbour.coreFw, failed := z.harbour.failed, report := z.harbour.report, stage := z.harbour.stage, ucode := z.harbour.ucode }, regs := z.regs } }
    | .rcRegisterRead .. => t = { s with blk := { b with berths := z.berths, fabric := { b.fabric with late := z.fabric.late }, log := { b.log with alarms := z.log.alarms, seqA := z.log.seqA }, ports := { b.ports with draws := z.ports.draws }, readData := z.readData, regs := z.regs } }
    | .ceilingTick .. => t = { s with blk := { b with cores := z.cores, log := { b.log with evTokens := z.log.evTokens, events := z.log.events, seqE := z.log.seqE }, regs := z.regs, watch := { b.watch with below := z.watch.below, ceilings := z.watch.ceilings, power := z.watch.power } } }
    | .fenceGrant .. => t = { s with blk := { b with host := { b.host with msix := z.host.msix, nextTag := z.host.nextTag, out := z.host.out, reads := z.host.reads }, pilot := { b.pilot with dirty := z.pilot.dirty, holders := z.pilot.holders, logLines := z.pilot.logLines, lost := z.pilot.lost, stamps := z.pilot.stamps, streams := z.pilot.streams, waiting := z.pilot.waiting }, ports := { b.ports with buckets := z.ports.buckets, lanes := z.ports.lanes }, quay := { b.quay with cmds := z.quay.cmds, fenceFreed := z.quay.fenceFreed, fences := z.quay.fences, queues := z.quay.queues }, regs := z.regs, tally := { b.tally with window := z.tally.window } } }
    | .fenceRead .. | .fenceSignal .. | .queueDestroy .. => t = { s with blk := { b with host := { b.host with msix := z.host.msix, nextTag := z.host.nextTag, out := z.host.out, reads := z.host.reads }, pilot := { b.pilot with dirty := z.pilot.dirty, holders := z.pilot.holders, logLines := z.pilot.logLines, lost := z.pilot.lost, stamps := z.pilot.stamps, streams := z.pilot.streams, waiting := z.pilot.waiting }, ports := { b.ports with buckets := z.ports.buckets, lanes := z.ports.lanes }, quay := { b.quay with fenceFreed := z.quay.fenceFreed, fences := z.quay.fences, queues := z.quay.queues }, regs := z.regs, tally := { b.tally with window := z.tally.window } } }
    | .berthYield .. | .horizonExpiry .. => t = { s with blk := { b with berths := z.berths, fabric := { b.fabric with reqs := z.fabric.reqs }, hold := { b.hold with chans := z.hold.chans }, host := { b.host with reads := z.host.reads }, ports := { b.ports with draws := z.ports.draws, lanes := z.ports.lanes, out := z.ports.out }, regs := z.regs, watch := { b.watch with quietSince := z.watch.quietSince } } }
    | .pongReceive .. => t = { s with blk := { b with fabric := { b.fabric with reqs := z.fabric.reqs }, harbour := { b.harbour with replies := z.harbour.replies, running := z.harbour.running }, host := { b.host with out := z.host.out }, log := { b.log with evTokens := z.log.evTokens, events := z.log.events, seqE := z.log.seqE }, regs := z.regs } }
    | .quiesceDone .. => t = { s with blk := { b with harbour := { b.harbour with replies := z.harbour.replies, running := z.harbour.running }, host := { b.host with out := z.host.out }, log := { b.log with evTokens := z.log.evTokens, events := z.log.events, seqE := z.log.seqE }, quay := { b.quay with slices := z.quay.slices }, regs := z.regs } }
    | .fenceRelease .. => t = { s with blk := { b with host := { b.host with msix := z.host.msix, nextTag := z.host.nextTag, out := z.host.out, reads := z.host.reads }, pilot := { b.pilot with dirty := z.pilot.dirty, holders := z.pilot.holders, logLines := z.pilot.logLines, lost := z.pilot.lost, stamps := z.pilot.stamps, streams := z.pilot.streams, waiting := z.pilot.waiting }, ports := { b.ports with buckets := z.ports.buckets, lanes := z.ports.lanes }, quay := { b.quay with cmds := z.quay.cmds, fenceFreed := z.quay.fenceFreed, fences := z.quay.fences, queues := z.quay.queues }, regs := z.regs, tally := { b.tally with window := z.tally.window } } }
    | .lighterAbortTimeout .. => t = { s with blk := { b with lighters := z.lighters, log := { b.log with alarms := z.log.alarms, seqA := z.log.seqA }, pilot := { b.pilot with holders := z.pilot.holders }, ports := { b.ports with lanes := z.ports.lanes, out := z.ports.out }, quay := { b.quay with cmds := z.quay.cmds }, regs := z.regs } }
    | .drowseEntry => t = { s with blk := { b with berths := z.berths, cores := z.cores, hold := { b.hold with chans := z.hold.chans, stks := z.hold.stks }, ports := { b.ports with draws := z.ports.draws }, power := { b.power with pdEn := z.power.pdEn, pdUp := z.power.pdUp, pdWant := z.power.pdWant }, regs := z.regs, watch := { b.watch with drowseSince := z.watch.drowseSince, quietSince := z.watch.quietSince } } }
    | .generalTaskEcall .. | .generalTaskLimit .. | .generalTaskTrap .. | .mmuMiss .. => t = { s with blk := { b with cores := z.cores, log := { b.log with evTokens := z.log.evTokens, events := z.log.events, seqE := z.log.seqE }, pilot := { b.pilot with holders := z.pilot.holders }, quay := { b.quay with cmds := z.quay.cmds, slices := z.quay.slices }, regs := z.regs, tally := { b.tally with coreNs := z.tally.coreNs } } }
    | .linkTrained .. => t = { s with blk := { b with fabric := { b.fabric with links := z.fabric.links }, harbour := { b.harbour with failed := z.harbour.failed, openUnits := z.harbour.openUnits, servicePulses := z.harbour.servicePulses }, host := { b.host with out := z.host.out }, log := { b.log with evTokens := z.log.evTokens, events := z.log.events, seqE := z.log.seqE }, regs := z.regs } }
    | .doorbellWrite .. => t = { s with blk := { b with host := { b.host with msix := z.host.msix, nextTag := z.host.nextTag, out := z.host.out, reads := z.host.reads }, pilot := { b.pilot with dirty := z.pilot.dirty, holders := z.pilot.holders, logLines := z.pilot.logLines, lost := z.pilot.lost, stamps := z.pilot.stamps, streams := z.pilot.streams, waiting := z.pilot.waiting }, ports := { b.ports with buckets := z.ports.buckets, lanes := z.ports.lanes }, quay := { b.quay with fenceFreed := z.quay.fenceFreed, fences := z.quay.fences, queues := z.quay.queues }, regs := z.regs, tally := { b.tally with window := z.tally.window }, watch := { b.watch with quietSince := z.watch.quietSince } } }
    | .queueFree .. => t = { s with blk := { b with host := { b.host with msix := z.host.msix, nextTag := z.host.nextTag, out := z.host.out, reads := z.host.reads }, pilot := { b.pilot with dirty := z.pilot.dirty, holders := z.pilot.holders, logLines := z.pilot.logLines, lost := z.pilot.lost, stamps := z.pilot.stamps, streams := z.pilot.streams, waiting := z.pilot.waiting }, ports := { b.ports with buckets := z.ports.buckets, lanes := z.ports.lanes }, quay := { b.quay with fenceFreed := z.quay.fenceFreed, fences := z.quay.fences, queues := z.quay.queues }, regs := z.regs, tally := { b.tally with window := z.tally.window } } }
    | .fenceDestroy .. => t = { s with blk := { b with host := { b.host with msix := z.host.msix, nextTag := z.host.nextTag, out := z.host.out, reads := z.host.reads }, pilot := { b.pilot with dirty := z.pilot.dirty, holders := z.pilot.holders, logLines := z.pilot.logLines, lost := z.pilot.lost, stamps := z.pilot.stamps, streams := z.pilot.streams, waiting := z.pilot.waiting }, ports := { b.ports with buckets := z.ports.buckets, lanes := z.ports.lanes }, quay := { b.quay with cmds := z.quay.cmds, fenceFreed := z.quay.fenceFreed, fences := z.quay.fences, queues := z.quay.queues }, regs := z.regs, tally := { b.tally with window := z.tally.window } } }
    | .fenceCreate .. => t = { s with blk := { b with host := { b.host with msix := z.host.msix, nextTag := z.host.nextTag, out := z.host.out, reads := z.host.reads }, pilot := { b.pilot with dirty := z.pilot.dirty, holders := z.pilot.holders, logLines := z.pilot.logLines, lost := z.pilot.lost, stamps := z.pilot.stamps, streams := z.pilot.streams, waiting := z.pilot.waiting }, ports := { b.ports with buckets := z.ports.buckets, lanes := z.ports.lanes }, quay := { b.quay with fenceFreed := z.quay.fenceFreed, fenceNext := z.quay.fenceNext, fences := z.quay.fences, queues := z.quay.queues }, regs := z.regs, tally := { b.tally with window := z.tally.window } } }
    | .linkTrainFail .. => t = { s with blk := { b with fabric := { b.fabric with links := z.fabric.links }, harbour := { b.harbour with failed := z.harbour.failed, servicePulses := z.harbour.servicePulses }, host := { b.host with out := z.host.out }, log := { b.log with alarms := z.log.alarms, evTokens := z.log.evTokens, events := z.log.events, seqA := z.log.seqA, seqE := z.log.seqE }, regs := z.regs } }
    | .ctxCreate .. => t = { s with blk := { b with host := { b.host with msix := z.host.msix, nextTag := z.host.nextTag, out := z.host.out, reads := z.host.reads }, pilot := { b.pilot with dirty := z.pilot.dirty, holders := z.pilot.holders, logLines := z.pilot.logLines, lost := z.pilot.lost, stamps := z.pilot.stamps, streams := z.pilot.streams, waiting := z.pilot.waiting }, ports := { b.ports with buckets := z.ports.buckets, lanes := z.ports.lanes }, quay := { b.quay with ctxFreed := z.quay.ctxFreed, ctxNext := z.quay.ctxNext, ctxs := z.quay.ctxs, fenceFreed := z.quay.fenceFreed, fences := z.quay.fences, queues := z.quay.queues }, regs := z.regs, tally := { b.tally with window := z.tally.window } } }
    | _ => True
end

