-- ==== Sys2Proof/Laws/Tables.lean ====
section
/-! SUPPORT. Sparse tables: what is read after a write, a removal or a change. -/

namespace Sys2Proof.Machine

open Sys2Proof

variable {α : Type}

@[simp] theorem tget_nil (k : Nat) : tget ([] : Table α) k = none := rfl

/-- A table reads back what was written. -/
@[simp] theorem tget_tput_same (t : Table α) (k : Nat) (a : α) : tget (tput t k a) k = some a := by
  induction t with
  | nil => simp [tput, tget]
  | cons x t ih =>
    obtain ⟨i, y⟩ := x
    simp only [tput]
    split
    · simp [tget]
    · split
      · simp [tget]
      · rename_i h
        have : ¬ i = k := fun e => h e.symm
        simp [tget, this, ih]

/-- A write leaves every other index alone. -/
theorem tget_tput_ne (t : Table α) {k j : Nat} (a : α) (h : j ≠ k) : tget (tput t k a) j = tget t j := by
  induction t with
  | nil => simp [tput, tget, h.symm]
  | cons x t ih =>
    obtain ⟨i, y⟩ := x
    simp only [tput]
    split
    · simp [tget, h.symm]
    · split
      · rename_i e
        subst e
        simp [tget, h.symm]
      · simp [tget, ih]

/-- A removed index reads none. -/
@[simp] theorem tget_tdel_same (t : Table α) (k : Nat) : tget (tdel t k) k = none := by
  induction t with
  | nil => rfl
  | cons x t ih =>
    obtain ⟨i, y⟩ := x
    simp only [tdel]
    split
    · exact ih
    · rename_i h
      simp [tget, h, ih]

/-- A removal leaves every other index alone. -/
theorem tget_tdel_ne (t : Table α) {k j : Nat} (h : j ≠ k) : tget (tdel t k) j = tget t j := by
  induction t with
  | nil => rfl
  | cons x t ih =>
    obtain ⟨i, y⟩ := x
    simp only [tdel]
    split
    · rename_i e
      subst e
      simp [tget, h.symm, ih]
    · simp [tget, ih]

/-- A change is read back. -/
theorem tget_tmod_same (t : Table α) (k : Nat) (f : α → α) : tget (tmod t k f) k = (tget t k).map f := by
  unfold tmod
  split
  · rename_i a h
    simp [h]
  · rename_i h
    simp [h]

/-- A change leaves every other index alone. -/
theorem tget_tmod_ne (t : Table α) {k j : Nat} (f : α → α) (h : j ≠ k) : tget (tmod t k f) j = tget t j := by
  unfold tmod
  split
  · exact tget_tput_ne t _ h
  · rfl

@[simp] theorem tgetD_tput_same (t : Table α) (k : Nat) (a d : α) : tgetD (tput t k a) k d = a := by
  simp [tgetD]

theorem tgetD_tput_ne (t : Table α) {k j : Nat} (a d : α) (h : j ≠ k) : tgetD (tput t k a) j d = tgetD t j d := by
  simp [tgetD, tget_tput_ne t a h]

@[simp] theorem tgetD_tupd_same (t : Table α) (k : Nat) (d : α) (f : α → α) : tgetD (tupd t k d f) k d = f (tgetD t k d) := by
  simp [tupd]

theorem tgetD_tupd_ne (t : Table α) {k j : Nat} (d d' : α) (f : α → α) (h : j ≠ k) :
    tgetD (tupd t k d f) j d' = tgetD t j d' := by
  simp [tupd, tgetD_tput_ne t _ d' h]

/-- The entry a search over a table finds, when the search's condition is one on entries under k and the entry at k meets it. -/
theorem thas_tput_same (t : Table α) (k : Nat) (a : α) : thas (tput t k a) k = true := by
  simp [thas]

end Sys2Proof.Machine
end

