-- ==== Sys2Proof/Laws/Registers.lean ====
section
/-! SUPPORT. Register fields: what a field reads after a field was set, and that a field of another register or of other bits keeps its value. -/

namespace Sys2Proof.Machine

open Sys2Proof

/-- The field lies in a 64-bit word. -/
def Fld.fits (f : Fld) : Prop := f.lo + f.w ≤ 64

/-- Two fields of one register share no bit. -/
def Fld.apart (f g : Fld) : Prop := f.lo + f.w ≤ g.lo ∨ g.lo + g.w ≤ f.lo

theorem Fld.of_eq (f : Fld) (v : Word) : f.of v = (v.extractLsb' f.lo f.w).toNat := by
  simp [Fld.of, BitVec.extractLsb'_toNat, Nat.shiftRight_eq_div_pow]

theorem Fld.mask_getLsbD (f : Fld) (h : f.fits) (i : Nat) (hi : i < 64) :
    f.mask.getLsbD i = decide (f.lo ≤ i ∧ i < f.lo + f.w) := by
  unfold Fld.fits at h
  simp only [Fld.mask, BitVec.getLsbD_shiftLeft, BitVec.getLsbD_ofNat, Nat.testBit_two_pow_sub_one]
  by_cases h1 : i < f.lo
  · have : ¬ f.lo ≤ i := by omega
    simp [h1, this]
  · have a : f.lo ≤ i := by omega
    have c : i - f.lo < 64 := by omega
    have d : (i - f.lo < f.w) ↔ i < f.lo + f.w := by omega
    simp [hi, h1, a, c, d]

theorem Fld.into_getLsbD (f : Fld) (h : f.fits) (v : Word) (n i : Nat) (hi : i < 64) :
    (f.into v n).getLsbD i = if f.lo ≤ i ∧ i < f.lo + f.w then n.testBit (i - f.lo) else v.getLsbD i := by
  have hf := h
  unfold Fld.fits at hf
  simp only [Fld.into, BitVec.getLsbD_or, BitVec.getLsbD_and, BitVec.getLsbD_not, f.mask_getLsbD h i hi,
    BitVec.getLsbD_shiftLeft, BitVec.getLsbD_ofNat, Nat.testBit_mod_two_pow]
  by_cases h1 : f.lo ≤ i ∧ i < f.lo + f.w
  · have a : ¬ i < f.lo := by omega
    have b : i - f.lo < 64 := by omega
    have c : i - f.lo < f.w := by omega
    simp [hi, h1, a, b, c]
  · rw [if_neg h1]
    by_cases h2 : i < f.lo
    · simp [hi, h2, show ¬ f.lo ≤ i by omega]
    · have c : ¬ i - f.lo < f.w := by omega
      simp [hi, h1, c]

/-- A field reads what it was set to, cut to its width. -/
theorem Fld.of_into_same (f : Fld) (h : f.fits) (v : Word) (n : Nat) : f.of (f.into v n) = n % 2 ^ f.w := by
  have hf := h
  unfold Fld.fits at hf
  rw [Fld.of_eq]
  apply Nat.eq_of_testBit_eq
  intro i
  rw [Nat.testBit_mod_two_pow, BitVec.testBit_toNat, BitVec.getLsbD_extractLsb']
  by_cases hi : i < f.w
  · rw [f.into_getLsbD h v n (f.lo + i) (by omega)]
    have : f.lo ≤ f.lo + i ∧ f.lo + i < f.lo + f.w := by omega
    simp [hi, show f.lo + i - f.lo = i by omega]
  · simp [hi]

/-- Setting a field leaves a field of other bits alone. -/
theorem Fld.of_into_apart (f g : Fld) (hf : f.fits) (hg : g.fits) (ha : f.apart g) (v : Word) (n : Nat) :
    g.of (f.into v n) = g.of v := by
  have h1 := hf
  have h2 := hg
  unfold Fld.fits at h1 h2
  unfold Fld.apart at ha
  rw [Fld.of_eq, Fld.of_eq]
  apply Nat.eq_of_testBit_eq
  intro i
  rw [BitVec.testBit_toNat, BitVec.testBit_toNat, BitVec.getLsbD_extractLsb', BitVec.getLsbD_extractLsb']
  by_cases hi : i < g.w
  · rw [f.into_getLsbD hf v n (g.lo + i) (by omega)]
    have : ¬ (f.lo ≤ g.lo + i ∧ g.lo + i < f.lo + f.w) := by omega
    simp [this]
  · simp [hi]

/-! ### Fields of the block's registers -/

theorem Block.reg_setReg_same (b : Block) (k : RegKind) (i : Nat) (v : Word) : (b.setReg k i v).reg k i = v := by
  simp [Block.reg, Block.setReg]

theorem Block.reg_setReg_ne (b : Block) {k k' : RegKind} {i j : Nat} (v : Word) (h : k'.addr j ≠ k.addr i) :
    (b.setReg k i v).reg k' j = b.reg k' j := by
  simp [Block.reg, Block.setReg, tgetD_tput_ne _ _ _ h]

/-- A field reads what it was set to, cut to its width. -/
theorem Block.rd_wr_same (b : Block) (f : Fld) (h : f.fits) (i n : Nat) : (b.wr f i n).rd f i = n % 2 ^ f.w := by
  simp [Block.rd, Block.wr, Block.reg_setReg_same, f.of_into_same h]

/-- A field of another register keeps its value. -/
theorem Block.rd_wr_ne (b : Block) (f g : Fld) {i j : Nat} (n : Nat) (h : g.kind.addr j ≠ f.kind.addr i) :
    (b.wr f i n).rd g j = b.rd g j := by
  simp [Block.rd, Block.wr, Block.reg_setReg_ne _ _ h]

/-- A field of other bits of the same register keeps its value. -/
theorem Block.rd_wr_apart (b : Block) (f g : Fld) (hf : f.fits) (hg : g.fits) (hk : g.kind = f.kind) (ha : f.apart g) (i n : Nat) :
    (b.wr f i n).rd g i = b.rd g i := by
  simp [Block.rd, Block.wr, hk, Block.reg_setReg_same, Fld.of_into_apart f g hf hg ha]

/-- A counted field holds at its largest value. -/
theorem Block.rd_bump_same (b : Block) (f : Fld) (h : f.fits) (i n : Nat) :
    (b.bump f i n).rd f i = min f.max (b.rd f i + n) := by
  unfold Block.bump
  rw [b.rd_wr_same f h]
  apply Nat.mod_eq_of_lt
  have : 0 < 2 ^ f.w := Nat.two_pow_pos _
  unfold Fld.max
  omega

theorem Block.rd_bump_ne (b : Block) (f g : Fld) {i j : Nat} (n : Nat) (h : g.kind.addr j ≠ f.kind.addr i) :
    (b.bump f i n).rd g j = b.rd g j := Block.rd_wr_ne b f g _ h

theorem Block.rd_bump_apart (b : Block) (f g : Fld) (hf : f.fits) (hg : g.fits) (hk : g.kind = f.kind) (ha : f.apart g) (i n : Nat) :
    (b.bump f i n).rd g i = b.rd g i := Block.rd_wr_apart b f g hf hg hk ha i _

/-- A field's value lies in its width. -/
theorem Block.rd_lt (b : Block) (f : Fld) (i : Nat) : b.rd f i < 2 ^ f.w := Nat.mod_lt _ (Nat.two_pow_pos _)

end Sys2Proof.Machine
end

