-- ==== Sys2Proof/Laws/State.lean ====
section
/-! SUPPORT. The record updates of the state: which field of the block each named operation changes, one lemma per other field. -/

namespace Sys2Proof.Machine

open Sys2Proof

/-! ### Setting a register -/

@[simp] theorem Block.setReg_power (b : Block) (k : RegKind) (i : Nat) (v : Word) : (b.setReg k i v).power = b.power := rfl
@[simp] theorem Block.setReg_readData (b : Block) (k : RegKind) (i : Nat) (v : Word) : (b.setReg k i v).readData = b.readData := rfl
@[simp] theorem Block.setReg_host (b : Block) (k : RegKind) (i : Nat) (v : Word) : (b.setReg k i v).host = b.host := rfl
@[simp] theorem Block.setReg_quay (b : Block) (k : RegKind) (i : Nat) (v : Word) : (b.setReg k i v).quay = b.quay := rfl
@[simp] theorem Block.setReg_pilot (b : Block) (k : RegKind) (i : Nat) (v : Word) : (b.setReg k i v).pilot = b.pilot := rfl
@[simp] theorem Block.setReg_berths (b : Block) (k : RegKind) (i : Nat) (v : Word) : (b.setReg k i v).berths = b.berths := rfl
@[simp] theorem Block.setReg_cores (b : Block) (k : RegKind) (i : Nat) (v : Word) : (b.setReg k i v).cores = b.cores := rfl
@[simp] theorem Block.setReg_ports (b : Block) (k : RegKind) (i : Nat) (v : Word) : (b.setReg k i v).ports = b.ports := rfl
@[simp] theorem Block.setReg_slots (b : Block) (k : RegKind) (i : Nat) (v : Word) : (b.setReg k i v).slots = b.slots := rfl
@[simp] theorem Block.setReg_reserveQueue (b : Block) (k : RegKind) (i : Nat) (v : Word) : (b.setReg k i v).reserveQueue = b.reserveQueue := rfl
@[simp] theorem Block.setReg_manifest (b : Block) (k : RegKind) (i : Nat) (v : Word) : (b.setReg k i v).manifest = b.manifest := rfl
@[simp] theorem Block.setReg_hold (b : Block) (k : RegKind) (i : Nat) (v : Word) : (b.setReg k i v).hold = b.hold := rfl
@[simp] theorem Block.setReg_fabric (b : Block) (k : RegKind) (i : Nat) (v : Word) : (b.setReg k i v).fabric = b.fabric := rfl
@[simp] theorem Block.setReg_lighters (b : Block) (k : RegKind) (i : Nat) (v : Word) : (b.setReg k i v).lighters = b.lighters := rfl
@[simp] theorem Block.setReg_harbour (b : Block) (k : RegKind) (i : Nat) (v : Word) : (b.setReg k i v).harbour = b.harbour := rfl
@[simp] theorem Block.setReg_log (b : Block) (k : RegKind) (i : Nat) (v : Word) : (b.setReg k i v).log = b.log := rfl
@[simp] theorem Block.setReg_boxes (b : Block) (k : RegKind) (i : Nat) (v : Word) : (b.setReg k i v).boxes = b.boxes := rfl
@[simp] theorem Block.setReg_watch (b : Block) (k : RegKind) (i : Nat) (v : Word) : (b.setReg k i v).watch = b.watch := rfl
@[simp] theorem Block.setReg_tally (b : Block) (k : RegKind) (i : Nat) (v : Word) : (b.setReg k i v).tally = b.tally := rfl
@[simp] theorem Block.setReg_quantumFrom (b : Block) (k : RegKind) (i : Nat) (v : Word) : (b.setReg k i v).quantumFrom = b.quantumFrom := rfl

/-! ### Setting a register field -/

@[simp] theorem Block.wr_power (b : Block) (f : Fld) (i n : Nat) : (b.wr f i n).power = b.power := rfl
@[simp] theorem Block.wr_readData (b : Block) (f : Fld) (i n : Nat) : (b.wr f i n).readData = b.readData := rfl
@[simp] theorem Block.wr_host (b : Block) (f : Fld) (i n : Nat) : (b.wr f i n).host = b.host := rfl
@[simp] theorem Block.wr_quay (b : Block) (f : Fld) (i n : Nat) : (b.wr f i n).quay = b.quay := rfl
@[simp] theorem Block.wr_pilot (b : Block) (f : Fld) (i n : Nat) : (b.wr f i n).pilot = b.pilot := rfl
@[simp] theorem Block.wr_berths (b : Block) (f : Fld) (i n : Nat) : (b.wr f i n).berths = b.berths := rfl
@[simp] theorem Block.wr_cores (b : Block) (f : Fld) (i n : Nat) : (b.wr f i n).cores = b.cores := rfl
@[simp] theorem Block.wr_ports (b : Block) (f : Fld) (i n : Nat) : (b.wr f i n).ports = b.ports := rfl
@[simp] theorem Block.wr_slots (b : Block) (f : Fld) (i n : Nat) : (b.wr f i n).slots = b.slots := rfl
@[simp] theorem Block.wr_reserveQueue (b : Block) (f : Fld) (i n : Nat) : (b.wr f i n).reserveQueue = b.reserveQueue := rfl
@[simp] theorem Block.wr_manifest (b : Block) (f : Fld) (i n : Nat) : (b.wr f i n).manifest = b.manifest := rfl
@[simp] theorem Block.wr_hold (b : Block) (f : Fld) (i n : Nat) : (b.wr f i n).hold = b.hold := rfl
@[simp] theorem Block.wr_fabric (b : Block) (f : Fld) (i n : Nat) : (b.wr f i n).fabric = b.fabric := rfl
@[simp] theorem Block.wr_lighters (b : Block) (f : Fld) (i n : Nat) : (b.wr f i n).lighters = b.lighters := rfl
@[simp] theorem Block.wr_harbour (b : Block) (f : Fld) (i n : Nat) : (b.wr f i n).harbour = b.harbour := rfl
@[simp] theorem Block.wr_log (b : Block) (f : Fld) (i n : Nat) : (b.wr f i n).log = b.log := rfl
@[simp] theorem Block.wr_boxes (b : Block) (f : Fld) (i n : Nat) : (b.wr f i n).boxes = b.boxes := rfl
@[simp] theorem Block.wr_watch (b : Block) (f : Fld) (i n : Nat) : (b.wr f i n).watch = b.watch := rfl
@[simp] theorem Block.wr_tally (b : Block) (f : Fld) (i n : Nat) : (b.wr f i n).tally = b.tally := rfl
@[simp] theorem Block.wr_quantumFrom (b : Block) (f : Fld) (i n : Nat) : (b.wr f i n).quantumFrom = b.quantumFrom := rfl

/-! ### Counting in a field -/

@[simp] theorem Block.bump_power (b : Block) (f : Fld) (i n : Nat) : (b.bump f i n).power = b.power := rfl
@[simp] theorem Block.bump_readData (b : Block) (f : Fld) (i n : Nat) : (b.bump f i n).readData = b.readData := rfl
@[simp] theorem Block.bump_host (b : Block) (f : Fld) (i n : Nat) : (b.bump f i n).host = b.host := rfl
@[simp] theorem Block.bump_quay (b : Block) (f : Fld) (i n : Nat) : (b.bump f i n).quay = b.quay := rfl
@[simp] theorem Block.bump_pilot (b : Block) (f : Fld) (i n : Nat) : (b.bump f i n).pilot = b.pilot := rfl
@[simp] theorem Block.bump_berths (b : Block) (f : Fld) (i n : Nat) : (b.bump f i n).berths = b.berths := rfl
@[simp] theorem Block.bump_cores (b : Block) (f : Fld) (i n : Nat) : (b.bump f i n).cores = b.cores := rfl
@[simp] theorem Block.bump_ports (b : Block) (f : Fld) (i n : Nat) : (b.bump f i n).ports = b.ports := rfl
@[simp] theorem Block.bump_slots (b : Block) (f : Fld) (i n : Nat) : (b.bump f i n).slots = b.slots := rfl
@[simp] theorem Block.bump_reserveQueue (b : Block) (f : Fld) (i n : Nat) : (b.bump f i n).reserveQueue = b.reserveQueue := rfl
@[simp] theorem Block.bump_manifest (b : Block) (f : Fld) (i n : Nat) : (b.bump f i n).manifest = b.manifest := rfl
@[simp] theorem Block.bump_hold (b : Block) (f : Fld) (i n : Nat) : (b.bump f i n).hold = b.hold := rfl
@[simp] theorem Block.bump_fabric (b : Block) (f : Fld) (i n : Nat) : (b.bump f i n).fabric = b.fabric := rfl
@[simp] theorem Block.bump_lighters (b : Block) (f : Fld) (i n : Nat) : (b.bump f i n).lighters = b.lighters := rfl
@[simp] theorem Block.bump_harbour (b : Block) (f : Fld) (i n : Nat) : (b.bump f i n).harbour = b.harbour := rfl
@[simp] theorem Block.bump_log (b : Block) (f : Fld) (i n : Nat) : (b.bump f i n).log = b.log := rfl
@[simp] theorem Block.bump_boxes (b : Block) (f : Fld) (i n : Nat) : (b.bump f i n).boxes = b.boxes := rfl
@[simp] theorem Block.bump_watch (b : Block) (f : Fld) (i n : Nat) : (b.bump f i n).watch = b.watch := rfl
@[simp] theorem Block.bump_tally (b : Block) (f : Fld) (i n : Nat) : (b.bump f i n).tally = b.tally := rfl
@[simp] theorem Block.bump_quantumFrom (b : Block) (f : Fld) (i n : Nat) : (b.bump f i n).quantumFrom = b.quantumFrom := rfl

/-! ### Changing a berth -/

@[simp] theorem Block.modBerth_regs (b : Block) (n : Nat) (f : Berth → Berth) : (b.modBerth n f).regs = b.regs := rfl
@[simp] theorem Block.modBerth_power (b : Block) (n : Nat) (f : Berth → Berth) : (b.modBerth n f).power = b.power := rfl
@[simp] theorem Block.modBerth_readData (b : Block) (n : Nat) (f : Berth → Berth) : (b.modBerth n f).readData = b.readData := rfl
@[simp] theorem Block.modBerth_host (b : Block) (n : Nat) (f : Berth → Berth) : (b.modBerth n f).host = b.host := rfl
@[simp] theorem Block.modBerth_quay (b : Block) (n : Nat) (f : Berth → Berth) : (b.modBerth n f).quay = b.quay := rfl
@[simp] theorem Block.modBerth_pilot (b : Block) (n : Nat) (f : Berth → Berth) : (b.modBerth n f).pilot = b.pilot := rfl
@[simp] theorem Block.modBerth_cores (b : Block) (n : Nat) (f : Berth → Berth) : (b.modBerth n f).cores = b.cores := rfl
@[simp] theorem Block.modBerth_ports (b : Block) (n : Nat) (f : Berth → Berth) : (b.modBerth n f).ports = b.ports := rfl
@[simp] theorem Block.modBerth_slots (b : Block) (n : Nat) (f : Berth → Berth) : (b.modBerth n f).slots = b.slots := rfl
@[simp] theorem Block.modBerth_reserveQueue (b : Block) (n : Nat) (f : Berth → Berth) : (b.modBerth n f).reserveQueue = b.reserveQueue := rfl
@[simp] theorem Block.modBerth_manifest (b : Block) (n : Nat) (f : Berth → Berth) : (b.modBerth n f).manifest = b.manifest := rfl
@[simp] theorem Block.modBerth_hold (b : Block) (n : Nat) (f : Berth → Berth) : (b.modBerth n f).hold = b.hold := rfl
@[simp] theorem Block.modBerth_fabric (b : Block) (n : Nat) (f : Berth → Berth) : (b.modBerth n f).fabric = b.fabric := rfl
@[simp] theorem Block.modBerth_lighters (b : Block) (n : Nat) (f : Berth → Berth) : (b.modBerth n f).lighters = b.lighters := rfl
@[simp] theorem Block.modBerth_harbour (b : Block) (n : Nat) (f : Berth → Berth) : (b.modBerth n f).harbour = b.harbour := rfl
@[simp] theorem Block.modBerth_log (b : Block) (n : Nat) (f : Berth → Berth) : (b.modBerth n f).log = b.log := rfl
@[simp] theorem Block.modBerth_boxes (b : Block) (n : Nat) (f : Berth → Berth) : (b.modBerth n f).boxes = b.boxes := rfl
@[simp] theorem Block.modBerth_watch (b : Block) (n : Nat) (f : Berth → Berth) : (b.modBerth n f).watch = b.watch := rfl
@[simp] theorem Block.modBerth_tally (b : Block) (n : Nat) (f : Berth → Berth) : (b.modBerth n f).tally = b.tally := rfl
@[simp] theorem Block.modBerth_quantumFrom (b : Block) (n : Nat) (f : Berth → Berth) : (b.modBerth n f).quantumFrom = b.quantumFrom := rfl

/-! ### Changing a stream -/

@[simp] theorem Block.modStream_regs (b : Block) (n : Nat) (f : Stream → Stream) : (b.modStream n f).regs = b.regs := rfl
@[simp] theorem Block.modStream_power (b : Block) (n : Nat) (f : Stream → Stream) : (b.modStream n f).power = b.power := rfl
@[simp] theorem Block.modStream_readData (b : Block) (n : Nat) (f : Stream → Stream) : (b.modStream n f).readData = b.readData := rfl
@[simp] theorem Block.modStream_host (b : Block) (n : Nat) (f : Stream → Stream) : (b.modStream n f).host = b.host := rfl
@[simp] theorem Block.modStream_quay (b : Block) (n : Nat) (f : Stream → Stream) : (b.modStream n f).quay = b.quay := rfl
@[simp] theorem Block.modStream_pilot (b : Block) (n : Nat) (f : Stream → Stream) : (b.modStream n f).pilot = b.pilot := rfl
@[simp] theorem Block.modStream_cores (b : Block) (n : Nat) (f : Stream → Stream) : (b.modStream n f).cores = b.cores := rfl
@[simp] theorem Block.modStream_ports (b : Block) (n : Nat) (f : Stream → Stream) : (b.modStream n f).ports = b.ports := rfl
@[simp] theorem Block.modStream_slots (b : Block) (n : Nat) (f : Stream → Stream) : (b.modStream n f).slots = b.slots := rfl
@[simp] theorem Block.modStream_reserveQueue (b : Block) (n : Nat) (f : Stream → Stream) : (b.modStream n f).reserveQueue = b.reserveQueue := rfl
@[simp] theorem Block.modStream_manifest (b : Block) (n : Nat) (f : Stream → Stream) : (b.modStream n f).manifest = b.manifest := rfl
@[simp] theorem Block.modStream_hold (b : Block) (n : Nat) (f : Stream → Stream) : (b.modStream n f).hold = b.hold := rfl
@[simp] theorem Block.modStream_fabric (b : Block) (n : Nat) (f : Stream → Stream) : (b.modStream n f).fabric = b.fabric := rfl
@[simp] theorem Block.modStream_lighters (b : Block) (n : Nat) (f : Stream → Stream) : (b.modStream n f).lighters = b.lighters := rfl
@[simp] theorem Block.modStream_harbour (b : Block) (n : Nat) (f : Stream → Stream) : (b.modStream n f).harbour = b.harbour := rfl
@[simp] theorem Block.modStream_log (b : Block) (n : Nat) (f : Stream → Stream) : (b.modStream n f).log = b.log := rfl
@[simp] theorem Block.modStream_boxes (b : Block) (n : Nat) (f : Stream → Stream) : (b.modStream n f).boxes = b.boxes := rfl
@[simp] theorem Block.modStream_watch (b : Block) (n : Nat) (f : Stream → Stream) : (b.modStream n f).watch = b.watch := rfl
@[simp] theorem Block.modStream_tally (b : Block) (n : Nat) (f : Stream → Stream) : (b.modStream n f).tally = b.tally := rfl
@[simp] theorem Block.modStream_quantumFrom (b : Block) (n : Nat) (f : Stream → Stream) : (b.modStream n f).quantumFrom = b.quantumFrom := rfl

/-! ### Changing registers -/

@[simp] theorem Block.modRegs_regs (b : Block) (n : Nat) (f : Regs → Regs) : (b.modRegs n f).regs = b.regs := rfl
@[simp] theorem Block.modRegs_power (b : Block) (n : Nat) (f : Regs → Regs) : (b.modRegs n f).power = b.power := rfl
@[simp] theorem Block.modRegs_readData (b : Block) (n : Nat) (f : Regs → Regs) : (b.modRegs n f).readData = b.readData := rfl
@[simp] theorem Block.modRegs_host (b : Block) (n : Nat) (f : Regs → Regs) : (b.modRegs n f).host = b.host := rfl
@[simp] theorem Block.modRegs_quay (b : Block) (n : Nat) (f : Regs → Regs) : (b.modRegs n f).quay = b.quay := rfl
@[simp] theorem Block.modRegs_pilot (b : Block) (n : Nat) (f : Regs → Regs) : (b.modRegs n f).pilot = b.pilot := rfl
@[simp] theorem Block.modRegs_cores (b : Block) (n : Nat) (f : Regs → Regs) : (b.modRegs n f).cores = b.cores := rfl
@[simp] theorem Block.modRegs_ports (b : Block) (n : Nat) (f : Regs → Regs) : (b.modRegs n f).ports = b.ports := rfl
@[simp] theorem Block.modRegs_slots (b : Block) (n : Nat) (f : Regs → Regs) : (b.modRegs n f).slots = b.slots := rfl
@[simp] theorem Block.modRegs_reserveQueue (b : Block) (n : Nat) (f : Regs → Regs) : (b.modRegs n f).reserveQueue = b.reserveQueue := rfl
@[simp] theorem Block.modRegs_manifest (b : Block) (n : Nat) (f : Regs → Regs) : (b.modRegs n f).manifest = b.manifest := rfl
@[simp] theorem Block.modRegs_hold (b : Block) (n : Nat) (f : Regs → Regs) : (b.modRegs n f).hold = b.hold := rfl
@[simp] theorem Block.modRegs_fabric (b : Block) (n : Nat) (f : Regs → Regs) : (b.modRegs n f).fabric = b.fabric := rfl
@[simp] theorem Block.modRegs_lighters (b : Block) (n : Nat) (f : Regs → Regs) : (b.modRegs n f).lighters = b.lighters := rfl
@[simp] theorem Block.modRegs_harbour (b : Block) (n : Nat) (f : Regs → Regs) : (b.modRegs n f).harbour = b.harbour := rfl
@[simp] theorem Block.modRegs_log (b : Block) (n : Nat) (f : Regs → Regs) : (b.modRegs n f).log = b.log := rfl
@[simp] theorem Block.modRegs_boxes (b : Block) (n : Nat) (f : Regs → Regs) : (b.modRegs n f).boxes = b.boxes := rfl
@[simp] theorem Block.modRegs_watch (b : Block) (n : Nat) (f : Regs → Regs) : (b.modRegs n f).watch = b.watch := rfl
@[simp] theorem Block.modRegs_tally (b : Block) (n : Nat) (f : Regs → Regs) : (b.modRegs n f).tally = b.tally := rfl
@[simp] theorem Block.modRegs_quantumFrom (b : Block) (n : Nat) (f : Regs → Regs) : (b.modRegs n f).quantumFrom = b.quantumFrom := rfl

/-! ### Changing a core -/

@[simp] theorem Block.modCore_regs (b : Block) (n : Nat) (f : Core → Core) : (b.modCore n f).regs = b.regs := rfl
@[simp] theorem Block.modCore_power (b : Block) (n : Nat) (f : Core → Core) : (b.modCore n f).power = b.power := rfl
@[simp] theorem Block.modCore_readData (b : Block) (n : Nat) (f : Core → Core) : (b.modCore n f).readData = b.readData := rfl
@[simp] theorem Block.modCore_host (b : Block) (n : Nat) (f : Core → Core) : (b.modCore n f).host = b.host := rfl
@[simp] theorem Block.modCore_quay (b : Block) (n : Nat) (f : Core → Core) : (b.modCore n f).quay = b.quay := rfl
@[simp] theorem Block.modCore_pilot (b : Block) (n : Nat) (f : Core → Core) : (b.modCore n f).pilot = b.pilot := rfl
@[simp] theorem Block.modCore_berths (b : Block) (n : Nat) (f : Core → Core) : (b.modCore n f).berths = b.berths := rfl
@[simp] theorem Block.modCore_ports (b : Block) (n : Nat) (f : Core → Core) : (b.modCore n f).ports = b.ports := rfl
@[simp] theorem Block.modCore_slots (b : Block) (n : Nat) (f : Core → Core) : (b.modCore n f).slots = b.slots := rfl
@[simp] theorem Block.modCore_reserveQueue (b : Block) (n : Nat) (f : Core → Core) : (b.modCore n f).reserveQueue = b.reserveQueue := rfl
@[simp] theorem Block.modCore_manifest (b : Block) (n : Nat) (f : Core → Core) : (b.modCore n f).manifest = b.manifest := rfl
@[simp] theorem Block.modCore_hold (b : Block) (n : Nat) (f : Core → Core) : (b.modCore n f).hold = b.hold := rfl
@[simp] theorem Block.modCore_fabric (b : Block) (n : Nat) (f : Core → Core) : (b.modCore n f).fabric = b.fabric := rfl
@[simp] theorem Block.modCore_lighters (b : Block) (n : Nat) (f : Core → Core) : (b.modCore n f).lighters = b.lighters := rfl
@[simp] theorem Block.modCore_harbour (b : Block) (n : Nat) (f : Core → Core) : (b.modCore n f).harbour = b.harbour := rfl
@[simp] theorem Block.modCore_log (b : Block) (n : Nat) (f : Core → Core) : (b.modCore n f).log = b.log := rfl
@[simp] theorem Block.modCore_boxes (b : Block) (n : Nat) (f : Core → Core) : (b.modCore n f).boxes = b.boxes := rfl
@[simp] theorem Block.modCore_watch (b : Block) (n : Nat) (f : Core → Core) : (b.modCore n f).watch = b.watch := rfl
@[simp] theorem Block.modCore_tally (b : Block) (n : Nat) (f : Core → Core) : (b.modCore n f).tally = b.tally := rfl
@[simp] theorem Block.modCore_quantumFrom (b : Block) (n : Nat) (f : Core → Core) : (b.modCore n f).quantumFrom = b.quantumFrom := rfl

/-! ### Changing a queue -/

@[simp] theorem Block.modQueue_regs (b : Block) (n : Nat) (f : Queue → Queue) : (b.modQueue n f).regs = b.regs := rfl
@[simp] theorem Block.modQueue_power (b : Block) (n : Nat) (f : Queue → Queue) : (b.modQueue n f).power = b.power := rfl
@[simp] theorem Block.modQueue_readData (b : Block) (n : Nat) (f : Queue → Queue) : (b.modQueue n f).readData = b.readData := rfl
@[simp] theorem Block.modQueue_host (b : Block) (n : Nat) (f : Queue → Queue) : (b.modQueue n f).host = b.host := rfl
@[simp] theorem Block.modQueue_pilot (b : Block) (n : Nat) (f : Queue → Queue) : (b.modQueue n f).pilot = b.pilot := rfl
@[simp] theorem Block.modQueue_berths (b : Block) (n : Nat) (f : Queue → Queue) : (b.modQueue n f).berths = b.berths := rfl
@[simp] theorem Block.modQueue_cores (b : Block) (n : Nat) (f : Queue → Queue) : (b.modQueue n f).cores = b.cores := rfl
@[simp] theorem Block.modQueue_ports (b : Block) (n : Nat) (f : Queue → Queue) : (b.modQueue n f).ports = b.ports := rfl
@[simp] theorem Block.modQueue_slots (b : Block) (n : Nat) (f : Queue → Queue) : (b.modQueue n f).slots = b.slots := rfl
@[simp] theorem Block.modQueue_reserveQueue (b : Block) (n : Nat) (f : Queue → Queue) : (b.modQueue n f).reserveQueue = b.reserveQueue := rfl
@[simp] theorem Block.modQueue_manifest (b : Block) (n : Nat) (f : Queue → Queue) : (b.modQueue n f).manifest = b.manifest := rfl
@[simp] theorem Block.modQueue_hold (b : Block) (n : Nat) (f : Queue → Queue) : (b.modQueue n f).hold = b.hold := rfl
@[simp] theorem Block.modQueue_fabric (b : Block) (n : Nat) (f : Queue → Queue) : (b.modQueue n f).fabric = b.fabric := rfl
@[simp] theorem Block.modQueue_lighters (b : Block) (n : Nat) (f : Queue → Queue) : (b.modQueue n f).lighters = b.lighters := rfl
@[simp] theorem Block.modQueue_harbour (b : Block) (n : Nat) (f : Queue → Queue) : (b.modQueue n f).harbour = b.harbour := rfl
@[simp] theorem Block.modQueue_log (b : Block) (n : Nat) (f : Queue → Queue) : (b.modQueue n f).log = b.log := rfl
@[simp] theorem Block.modQueue_boxes (b : Block) (n : Nat) (f : Queue → Queue) : (b.modQueue n f).boxes = b.boxes := rfl
@[simp] theorem Block.modQueue_watch (b : Block) (n : Nat) (f : Queue → Queue) : (b.modQueue n f).watch = b.watch := rfl
@[simp] theorem Block.modQueue_tally (b : Block) (n : Nat) (f : Queue → Queue) : (b.modQueue n f).tally = b.tally := rfl
@[simp] theorem Block.modQueue_quantumFrom (b : Block) (n : Nat) (f : Queue → Queue) : (b.modQueue n f).quantumFrom = b.quantumFrom := rfl

/-! ### Changing a command -/

@[simp] theorem Block.modCmd_regs (b : Block) (n : Nat) (f : Cmd → Cmd) : (b.modCmd n f).regs = b.regs := rfl
@[simp] theorem Block.modCmd_power (b : Block) (n : Nat) (f : Cmd → Cmd) : (b.modCmd n f).power = b.power := rfl
@[simp] theorem Block.modCmd_readData (b : Block) (n : Nat) (f : Cmd → Cmd) : (b.modCmd n f).readData = b.readData := rfl
@[simp] theorem Block.modCmd_host (b : Block) (n : Nat) (f : Cmd → Cmd) : (b.modCmd n f).host = b.host := rfl
@[simp] theorem Block.modCmd_pilot (b : Block) (n : Nat) (f : Cmd → Cmd) : (b.modCmd n f).pilot = b.pilot := rfl
@[simp] theorem Block.modCmd_berths (b : Block) (n : Nat) (f : Cmd → Cmd) : (b.modCmd n f).berths = b.berths := rfl
@[simp] theorem Block.modCmd_cores (b : Block) (n : Nat) (f : Cmd → Cmd) : (b.modCmd n f).cores = b.cores := rfl
@[simp] theorem Block.modCmd_ports (b : Block) (n : Nat) (f : Cmd → Cmd) : (b.modCmd n f).ports = b.ports := rfl
@[simp] theorem Block.modCmd_slots (b : Block) (n : Nat) (f : Cmd → Cmd) : (b.modCmd n f).slots = b.slots := rfl
@[simp] theorem Block.modCmd_reserveQueue (b : Block) (n : Nat) (f : Cmd → Cmd) : (b.modCmd n f).reserveQueue = b.reserveQueue := rfl
@[simp] theorem Block.modCmd_manifest (b : Block) (n : Nat) (f : Cmd → Cmd) : (b.modCmd n f).manifest = b.manifest := rfl
@[simp] theorem Block.modCmd_hold (b : Block) (n : Nat) (f : Cmd → Cmd) : (b.modCmd n f).hold = b.hold := rfl
@[simp] theorem Block.modCmd_fabric (b : Block) (n : Nat) (f : Cmd → Cmd) : (b.modCmd n f).fabric = b.fabric := rfl
@[simp] theorem Block.modCmd_lighters (b : Block) (n : Nat) (f : Cmd → Cmd) : (b.modCmd n f).lighters = b.lighters := rfl
@[simp] theorem Block.modCmd_harbour (b : Block) (n : Nat) (f : Cmd → Cmd) : (b.modCmd n f).harbour = b.harbour := rfl
@[simp] theorem Block.modCmd_log (b : Block) (n : Nat) (f : Cmd → Cmd) : (b.modCmd n f).log = b.log := rfl
@[simp] theorem Block.modCmd_boxes (b : Block) (n : Nat) (f : Cmd → Cmd) : (b.modCmd n f).boxes = b.boxes := rfl
@[simp] theorem Block.modCmd_watch (b : Block) (n : Nat) (f : Cmd → Cmd) : (b.modCmd n f).watch = b.watch := rfl
@[simp] theorem Block.modCmd_tally (b : Block) (n : Nat) (f : Cmd → Cmd) : (b.modCmd n f).tally = b.tally := rfl
@[simp] theorem Block.modCmd_quantumFrom (b : Block) (n : Nat) (f : Cmd → Cmd) : (b.modCmd n f).quantumFrom = b.quantumFrom := rfl

/-! ### Changing a slice -/

@[simp] theorem Block.modSlice_regs (b : Block) (n : Nat) (f : Slice → Slice) : (b.modSlice n f).regs = b.regs := rfl
@[simp] theorem Block.modSlice_power (b : Block) (n : Nat) (f : Slice → Slice) : (b.modSlice n f).power = b.power := rfl
@[simp] theorem Block.modSlice_readData (b : Block) (n : Nat) (f : Slice → Slice) : (b.modSlice n f).readData = b.readData := rfl
@[simp] theorem Block.modSlice_host (b : Block) (n : Nat) (f : Slice → Slice) : (b.modSlice n f).host = b.host := rfl
@[simp] theorem Block.modSlice_pilot (b : Block) (n : Nat) (f : Slice → Slice) : (b.modSlice n f).pilot = b.pilot := rfl
@[simp] theorem Block.modSlice_berths (b : Block) (n : Nat) (f : Slice → Slice) : (b.modSlice n f).berths = b.berths := rfl
@[simp] theorem Block.modSlice_cores (b : Block) (n : Nat) (f : Slice → Slice) : (b.modSlice n f).cores = b.cores := rfl
@[simp] theorem Block.modSlice_ports (b : Block) (n : Nat) (f : Slice → Slice) : (b.modSlice n f).ports = b.ports := rfl
@[simp] theorem Block.modSlice_slots (b : Block) (n : Nat) (f : Slice → Slice) : (b.modSlice n f).slots = b.slots := rfl
@[simp] theorem Block.modSlice_reserveQueue (b : Block) (n : Nat) (f : Slice → Slice) : (b.modSlice n f).reserveQueue = b.reserveQueue := rfl
@[simp] theorem Block.modSlice_manifest (b : Block) (n : Nat) (f : Slice → Slice) : (b.modSlice n f).manifest = b.manifest := rfl
@[simp] theorem Block.modSlice_hold (b : Block) (n : Nat) (f : Slice → Slice) : (b.modSlice n f).hold = b.hold := rfl
@[simp] theorem Block.modSlice_fabric (b : Block) (n : Nat) (f : Slice → Slice) : (b.modSlice n f).fabric = b.fabric := rfl
@[simp] theorem Block.modSlice_lighters (b : Block) (n : Nat) (f : Slice → Slice) : (b.modSlice n f).lighters = b.lighters := rfl
@[simp] theorem Block.modSlice_harbour (b : Block) (n : Nat) (f : Slice → Slice) : (b.modSlice n f).harbour = b.harbour := rfl
@[simp] theorem Block.modSlice_log (b : Block) (n : Nat) (f : Slice → Slice) : (b.modSlice n f).log = b.log := rfl
@[simp] theorem Block.modSlice_boxes (b : Block) (n : Nat) (f : Slice → Slice) : (b.modSlice n f).boxes = b.boxes := rfl
@[simp] theorem Block.modSlice_watch (b : Block) (n : Nat) (f : Slice → Slice) : (b.modSlice n f).watch = b.watch := rfl
@[simp] theorem Block.modSlice_tally (b : Block) (n : Nat) (f : Slice → Slice) : (b.modSlice n f).tally = b.tally := rfl
@[simp] theorem Block.modSlice_quantumFrom (b : Block) (n : Nat) (f : Slice → Slice) : (b.modSlice n f).quantumFrom = b.quantumFrom := rfl

/-! ### Changing a link -/

@[simp] theorem Block.modLink_regs (b : Block) (n : Nat) (f : Link → Link) : (b.modLink n f).regs = b.regs := rfl
@[simp] theorem Block.modLink_power (b : Block) (n : Nat) (f : Link → Link) : (b.modLink n f).power = b.power := rfl
@[simp] theorem Block.modLink_readData (b : Block) (n : Nat) (f : Link → Link) : (b.modLink n f).readData = b.readData := rfl
@[simp] theorem Block.modLink_host (b : Block) (n : Nat) (f : Link → Link) : (b.modLink n f).host = b.host := rfl
@[simp] theorem Block.modLink_quay (b : Block) (n : Nat) (f : Link → Link) : (b.modLink n f).quay = b.quay := rfl
@[simp] theorem Block.modLink_pilot (b : Block) (n : Nat) (f : Link → Link) : (b.modLink n f).pilot = b.pilot := rfl
@[simp] theorem Block.modLink_berths (b : Block) (n : Nat) (f : Link → Link) : (b.modLink n f).berths = b.berths := rfl
@[simp] theorem Block.modLink_cores (b : Block) (n : Nat) (f : Link → Link) : (b.modLink n f).cores = b.cores := rfl
@[simp] theorem Block.modLink_ports (b : Block) (n : Nat) (f : Link → Link) : (b.modLink n f).ports = b.ports := rfl
@[simp] theorem Block.modLink_slots (b : Block) (n : Nat) (f : Link → Link) : (b.modLink n f).slots = b.slots := rfl
@[simp] theorem Block.modLink_reserveQueue (b : Block) (n : Nat) (f : Link → Link) : (b.modLink n f).reserveQueue = b.reserveQueue := rfl
@[simp] theorem Block.modLink_manifest (b : Block) (n : Nat) (f : Link → Link) : (b.modLink n f).manifest = b.manifest := rfl
@[simp] theorem Block.modLink_hold (b : Block) (n : Nat) (f : Link → Link) : (b.modLink n f).hold = b.hold := rfl
@[simp] theorem Block.modLink_lighters (b : Block) (n : Nat) (f : Link → Link) : (b.modLink n f).lighters = b.lighters := rfl
@[simp] theorem Block.modLink_harbour (b : Block) (n : Nat) (f : Link → Link) : (b.modLink n f).harbour = b.harbour := rfl
@[simp] theorem Block.modLink_log (b : Block) (n : Nat) (f : Link → Link) : (b.modLink n f).log = b.log := rfl
@[simp] theorem Block.modLink_boxes (b : Block) (n : Nat) (f : Link → Link) : (b.modLink n f).boxes = b.boxes := rfl
@[simp] theorem Block.modLink_watch (b : Block) (n : Nat) (f : Link → Link) : (b.modLink n f).watch = b.watch := rfl
@[simp] theorem Block.modLink_tally (b : Block) (n : Nat) (f : Link → Link) : (b.modLink n f).tally = b.tally := rfl
@[simp] theorem Block.modLink_quantumFrom (b : Block) (n : Nat) (f : Link → Link) : (b.modLink n f).quantumFrom = b.quantumFrom := rfl

/-! ### Sending at the host port -/

@[simp] theorem Block.send_regs (b : Block) (m : HostMsg) : (b.send m).regs = b.regs := rfl
@[simp] theorem Block.send_power (b : Block) (m : HostMsg) : (b.send m).power = b.power := rfl
@[simp] theorem Block.send_readData (b : Block) (m : HostMsg) : (b.send m).readData = b.readData := rfl
@[simp] theorem Block.send_quay (b : Block) (m : HostMsg) : (b.send m).quay = b.quay := rfl
@[simp] theorem Block.send_pilot (b : Block) (m : HostMsg) : (b.send m).pilot = b.pilot := rfl
@[simp] theorem Block.send_berths (b : Block) (m : HostMsg) : (b.send m).berths = b.berths := rfl
@[simp] theorem Block.send_cores (b : Block) (m : HostMsg) : (b.send m).cores = b.cores := rfl
@[simp] theorem Block.send_ports (b : Block) (m : HostMsg) : (b.send m).ports = b.ports := rfl
@[simp] theorem Block.send_slots (b : Block) (m : HostMsg) : (b.send m).slots = b.slots := rfl
@[simp] theorem Block.send_reserveQueue (b : Block) (m : HostMsg) : (b.send m).reserveQueue = b.reserveQueue := rfl
@[simp] theorem Block.send_manifest (b : Block) (m : HostMsg) : (b.send m).manifest = b.manifest := rfl
@[simp] theorem Block.send_hold (b : Block) (m : HostMsg) : (b.send m).hold = b.hold := rfl
@[simp] theorem Block.send_fabric (b : Block) (m : HostMsg) : (b.send m).fabric = b.fabric := rfl
@[simp] theorem Block.send_lighters (b : Block) (m : HostMsg) : (b.send m).lighters = b.lighters := rfl
@[simp] theorem Block.send_harbour (b : Block) (m : HostMsg) : (b.send m).harbour = b.harbour := rfl
@[simp] theorem Block.send_log (b : Block) (m : HostMsg) : (b.send m).log = b.log := rfl
@[simp] theorem Block.send_boxes (b : Block) (m : HostMsg) : (b.send m).boxes = b.boxes := rfl
@[simp] theorem Block.send_watch (b : Block) (m : HostMsg) : (b.send m).watch = b.watch := rfl
@[simp] theorem Block.send_tally (b : Block) (m : HostMsg) : (b.send m).tally = b.tally := rfl
@[simp] theorem Block.send_quantumFrom (b : Block) (m : HostMsg) : (b.send m).quantumFrom = b.quantumFrom := rfl

/-! ### Replying to the manager -/

@[simp] theorem Block.reply_regs (b : Block) (m : Mgr) (o r : Nat) (d : List Nat) : (b.reply m o r d).regs = b.regs := rfl
@[simp] theorem Block.reply_power (b : Block) (m : Mgr) (o r : Nat) (d : List Nat) : (b.reply m o r d).power = b.power := rfl
@[simp] theorem Block.reply_readData (b : Block) (m : Mgr) (o r : Nat) (d : List Nat) : (b.reply m o r d).readData = b.readData := rfl
@[simp] theorem Block.reply_host (b : Block) (m : Mgr) (o r : Nat) (d : List Nat) : (b.reply m o r d).host = b.host := rfl
@[simp] theorem Block.reply_quay (b : Block) (m : Mgr) (o r : Nat) (d : List Nat) : (b.reply m o r d).quay = b.quay := rfl
@[simp] theorem Block.reply_pilot (b : Block) (m : Mgr) (o r : Nat) (d : List Nat) : (b.reply m o r d).pilot = b.pilot := rfl
@[simp] theorem Block.reply_berths (b : Block) (m : Mgr) (o r : Nat) (d : List Nat) : (b.reply m o r d).berths = b.berths := rfl
@[simp] theorem Block.reply_cores (b : Block) (m : Mgr) (o r : Nat) (d : List Nat) : (b.reply m o r d).cores = b.cores := rfl
@[simp] theorem Block.reply_ports (b : Block) (m : Mgr) (o r : Nat) (d : List Nat) : (b.reply m o r d).ports = b.ports := rfl
@[simp] theorem Block.reply_slots (b : Block) (m : Mgr) (o r : Nat) (d : List Nat) : (b.reply m o r d).slots = b.slots := rfl
@[simp] theorem Block.reply_reserveQueue (b : Block) (m : Mgr) (o r : Nat) (d : List Nat) : (b.reply m o r d).reserveQueue = b.reserveQueue := rfl
@[simp] theorem Block.reply_manifest (b : Block) (m : Mgr) (o r : Nat) (d : List Nat) : (b.reply m o r d).manifest = b.manifest := rfl
@[simp] theorem Block.reply_hold (b : Block) (m : Mgr) (o r : Nat) (d : List Nat) : (b.reply m o r d).hold = b.hold := rfl
@[simp] theorem Block.reply_fabric (b : Block) (m : Mgr) (o r : Nat) (d : List Nat) : (b.reply m o r d).fabric = b.fabric := rfl
@[simp] theorem Block.reply_lighters (b : Block) (m : Mgr) (o r : Nat) (d : List Nat) : (b.reply m o r d).lighters = b.lighters := rfl
@[simp] theorem Block.reply_log (b : Block) (m : Mgr) (o r : Nat) (d : List Nat) : (b.reply m o r d).log = b.log := rfl
@[simp] theorem Block.reply_boxes (b : Block) (m : Mgr) (o r : Nat) (d : List Nat) : (b.reply m o r d).boxes = b.boxes := rfl
@[simp] theorem Block.reply_watch (b : Block) (m : Mgr) (o r : Nat) (d : List Nat) : (b.reply m o r d).watch = b.watch := rfl
@[simp] theorem Block.reply_tally (b : Block) (m : Mgr) (o r : Nat) (d : List Nat) : (b.reply m o r d).tally = b.tally := rfl
@[simp] theorem Block.reply_quantumFrom (b : Block) (m : Mgr) (o r : Nat) (d : List Nat) : (b.reply m o r d).quantumFrom = b.quantumFrom := rfl

/-! ### Drawing a free value -/

@[simp] theorem Block.draw_regs (b : Block) : (b.draw.2).regs = b.regs := rfl
@[simp] theorem Block.draw_power (b : Block) : (b.draw.2).power = b.power := rfl
@[simp] theorem Block.draw_readData (b : Block) : (b.draw.2).readData = b.readData := rfl
@[simp] theorem Block.draw_host (b : Block) : (b.draw.2).host = b.host := rfl
@[simp] theorem Block.draw_quay (b : Block) : (b.draw.2).quay = b.quay := rfl
@[simp] theorem Block.draw_pilot (b : Block) : (b.draw.2).pilot = b.pilot := rfl
@[simp] theorem Block.draw_berths (b : Block) : (b.draw.2).berths = b.berths := rfl
@[simp] theorem Block.draw_cores (b : Block) : (b.draw.2).cores = b.cores := rfl
@[simp] theorem Block.draw_slots (b : Block) : (b.draw.2).slots = b.slots := rfl
@[simp] theorem Block.draw_reserveQueue (b : Block) : (b.draw.2).reserveQueue = b.reserveQueue := rfl
@[simp] theorem Block.draw_manifest (b : Block) : (b.draw.2).manifest = b.manifest := rfl
@[simp] theorem Block.draw_hold (b : Block) : (b.draw.2).hold = b.hold := rfl
@[simp] theorem Block.draw_fabric (b : Block) : (b.draw.2).fabric = b.fabric := rfl
@[simp] theorem Block.draw_lighters (b : Block) : (b.draw.2).lighters = b.lighters := rfl
@[simp] theorem Block.draw_harbour (b : Block) : (b.draw.2).harbour = b.harbour := rfl
@[simp] theorem Block.draw_log (b : Block) : (b.draw.2).log = b.log := rfl
@[simp] theorem Block.draw_boxes (b : Block) : (b.draw.2).boxes = b.boxes := rfl
@[simp] theorem Block.draw_watch (b : Block) : (b.draw.2).watch = b.watch := rfl
@[simp] theorem Block.draw_tally (b : Block) : (b.draw.2).tally = b.tally := rfl
@[simp] theorem Block.draw_quantumFrom (b : Block) : (b.draw.2).quantumFrom = b.quantumFrom := rfl

/-! ### The time of last activity -/

@[simp] theorem Block.stir_regs (b : Block) (e : Env) : (b.stir e).regs = b.regs := rfl
@[simp] theorem Block.stir_power (b : Block) (e : Env) : (b.stir e).power = b.power := rfl
@[simp] theorem Block.stir_readData (b : Block) (e : Env) : (b.stir e).readData = b.readData := rfl
@[simp] theorem Block.stir_host (b : Block) (e : Env) : (b.stir e).host = b.host := rfl
@[simp] theorem Block.stir_quay (b : Block) (e : Env) : (b.stir e).quay = b.quay := rfl
@[simp] theorem Block.stir_pilot (b : Block) (e : Env) : (b.stir e).pilot = b.pilot := rfl
@[simp] theorem Block.stir_berths (b : Block) (e : Env) : (b.stir e).berths = b.berths := rfl
@[simp] theorem Block.stir_cores (b : Block) (e : Env) : (b.stir e).cores = b.cores := rfl
@[simp] theorem Block.stir_ports (b : Block) (e : Env) : (b.stir e).ports = b.ports := rfl
@[simp] theorem Block.stir_slots (b : Block) (e : Env) : (b.stir e).slots = b.slots := rfl
@[simp] theorem Block.stir_reserveQueue (b : Block) (e : Env) : (b.stir e).reserveQueue = b.reserveQueue := rfl
@[simp] theorem Block.stir_manifest (b : Block) (e : Env) : (b.stir e).manifest = b.manifest := rfl
@[simp] theorem Block.stir_hold (b : Block) (e : Env) : (b.stir e).hold = b.hold := rfl
@[simp] theorem Block.stir_fabric (b : Block) (e : Env) : (b.stir e).fabric = b.fabric := rfl
@[simp] theorem Block.stir_lighters (b : Block) (e : Env) : (b.stir e).lighters = b.lighters := rfl
@[simp] theorem Block.stir_harbour (b : Block) (e : Env) : (b.stir e).harbour = b.harbour := rfl
@[simp] theorem Block.stir_log (b : Block) (e : Env) : (b.stir e).log = b.log := rfl
@[simp] theorem Block.stir_boxes (b : Block) (e : Env) : (b.stir e).boxes = b.boxes := rfl
@[simp] theorem Block.stir_tally (b : Block) (e : Env) : (b.stir e).tally = b.tally := rfl
@[simp] theorem Block.stir_quantumFrom (b : Block) (e : Env) : (b.stir e).quantumFrom = b.quantumFrom := rfl

/-! ### A Bell raise changes only registers -/

/-- A Bell raise changes only registers: nothing else of the block changes. -/
theorem Block.raise_frame (b : Block) (n : Nat) : b.raise n = { b with regs := (b.raise n).regs } := by
  unfold Block.raise; split <;> rfl

@[simp] theorem Block.raise_power (b : Block) (n : Nat) : (b.raise n).power = b.power := by rw [b.raise_frame n]
@[simp] theorem Block.raise_readData (b : Block) (n : Nat) : (b.raise n).readData = b.readData := by rw [b.raise_frame n]
@[simp] theorem Block.raise_host (b : Block) (n : Nat) : (b.raise n).host = b.host := by rw [b.raise_frame n]
@[simp] theorem Block.raise_quay (b : Block) (n : Nat) : (b.raise n).quay = b.quay := by rw [b.raise_frame n]
@[simp] theorem Block.raise_pilot (b : Block) (n : Nat) : (b.raise n).pilot = b.pilot := by rw [b.raise_frame n]
@[simp] theorem Block.raise_berths (b : Block) (n : Nat) : (b.raise n).berths = b.berths := by rw [b.raise_frame n]
@[simp] theorem Block.raise_cores (b : Block) (n : Nat) : (b.raise n).cores = b.cores := by rw [b.raise_frame n]
@[simp] theorem Block.raise_ports (b : Block) (n : Nat) : (b.raise n).ports = b.ports := by rw [b.raise_frame n]
@[simp] theorem Block.raise_slots (b : Block) (n : Nat) : (b.raise n).slots = b.slots := by rw [b.raise_frame n]
@[simp] theorem Block.raise_reserveQueue (b : Block) (n : Nat) : (b.raise n).reserveQueue = b.reserveQueue := by rw [b.raise_frame n]
@[simp] theorem Block.raise_manifest (b : Block) (n : Nat) : (b.raise n).manifest = b.manifest := by rw [b.raise_frame n]
@[simp] theorem Block.raise_hold (b : Block) (n : Nat) : (b.raise n).hold = b.hold := by rw [b.raise_frame n]
@[simp] theorem Block.raise_fabric (b : Block) (n : Nat) : (b.raise n).fabric = b.fabric := by rw [b.raise_frame n]
@[simp] theorem Block.raise_lighters (b : Block) (n : Nat) : (b.raise n).lighters = b.lighters := by rw [b.raise_frame n]
@[simp] theorem Block.raise_harbour (b : Block) (n : Nat) : (b.raise n).harbour = b.harbour := by rw [b.raise_frame n]
@[simp] theorem Block.raise_log (b : Block) (n : Nat) : (b.raise n).log = b.log := by rw [b.raise_frame n]
@[simp] theorem Block.raise_boxes (b : Block) (n : Nat) : (b.raise n).boxes = b.boxes := by rw [b.raise_frame n]
@[simp] theorem Block.raise_watch (b : Block) (n : Nat) : (b.raise n).watch = b.watch := by rw [b.raise_frame n]
@[simp] theorem Block.raise_tally (b : Block) (n : Nat) : (b.raise n).tally = b.tally := by rw [b.raise_frame n]
@[simp] theorem Block.raise_quantumFrom (b : Block) (n : Nat) : (b.raise n).quantumFrom = b.quantumFrom := by rw [b.raise_frame n]

/-- Changes to registers one after the other change only registers. -/
theorem regs_trans {b c x : Block} (h1 : c = { b with regs := c.regs }) (h2 : x = { c with regs := x.regs }) :
    x = { b with regs := x.regs } := by
  rw [h1] at h2
  exact h2

/-- A change to registers after one to the Logbook. -/
theorem regs_after_log {b x : Block} {l : Logbook} (h : x = { ({ b with log := l } : Block) with regs := x.regs }) :
    x = { b with regs := x.regs, log := x.log } := by
  have hl : x.log = l := by rw [h]
  rw [hl]
  exact h

/-- Counting in one Tally counter changes only registers. -/
theorem Block.countIn_frame (b : Block) (c o : Fld) (i n : Nat) : b.countIn c o i n = { b with regs := (b.countIn c o i n).regs } := by
  unfold Block.countIn
  dsimp only
  split <;> rfl

/-- A fold of changes to registers changes only registers. -/
theorem foldl_regs {α : Type} (f : Block → α → Block) (hf : ∀ b a, f b a = { b with regs := (f b a).regs }) (l : List α) (b : Block) :
    l.foldl f b = { b with regs := (l.foldl f b).regs } := by
  induction l generalizing b with
  | nil => rfl
  | cons a l ih =>
    exact regs_trans (hf b a) (ih (f b a))

/-! ### A berth event changes only counters -/

/-- A berth event changes only counters: nothing else of the block changes. -/
theorem Block.tallyB_frame (b : Block) (n : Nat) (w : Option Nat) (c s k : Nat) : b.tallyB n w c s k = { b with regs := (b.tallyB n w c s k).regs } := 
  regs_trans (foldl_regs _ (fun b i => b.countIn_frame _ _ i k) _ b) (foldl_regs _ (fun b i => b.countIn_frame _ _ i k) _ _)

@[simp] theorem Block.tallyB_power (b : Block) (n : Nat) (w : Option Nat) (c s k : Nat) : (b.tallyB n w c s k).power = b.power := by rw [b.tallyB_frame n w c s k]
@[simp] theorem Block.tallyB_readData (b : Block) (n : Nat) (w : Option Nat) (c s k : Nat) : (b.tallyB n w c s k).readData = b.readData := by rw [b.tallyB_frame n w c s k]
@[simp] theorem Block.tallyB_host (b : Block) (n : Nat) (w : Option Nat) (c s k : Nat) : (b.tallyB n w c s k).host = b.host := by rw [b.tallyB_frame n w c s k]
@[simp] theorem Block.tallyB_quay (b : Block) (n : Nat) (w : Option Nat) (c s k : Nat) : (b.tallyB n w c s k).quay = b.quay := by rw [b.tallyB_frame n w c s k]
@[simp] theorem Block.tallyB_pilot (b : Block) (n : Nat) (w : Option Nat) (c s k : Nat) : (b.tallyB n w c s k).pilot = b.pilot := by rw [b.tallyB_frame n w c s k]
@[simp] theorem Block.tallyB_berths (b : Block) (n : Nat) (w : Option Nat) (c s k : Nat) : (b.tallyB n w c s k).berths = b.berths := by rw [b.tallyB_frame n w c s k]
@[simp] theorem Block.tallyB_cores (b : Block) (n : Nat) (w : Option Nat) (c s k : Nat) : (b.tallyB n w c s k).cores = b.cores := by rw [b.tallyB_frame n w c s k]
@[simp] theorem Block.tallyB_ports (b : Block) (n : Nat) (w : Option Nat) (c s k : Nat) : (b.tallyB n w c s k).ports = b.ports := by rw [b.tallyB_frame n w c s k]
@[simp] theorem Block.tallyB_slots (b : Block) (n : Nat) (w : Option Nat) (c s k : Nat) : (b.tallyB n w c s k).slots = b.slots := by rw [b.tallyB_frame n w c s k]
@[simp] theorem Block.tallyB_reserveQueue (b : Block) (n : Nat) (w : Option Nat) (c s k : Nat) : (b.tallyB n w c s k).reserveQueue = b.reserveQueue := by rw [b.tallyB_frame n w c s k]
@[simp] theorem Block.tallyB_manifest (b : Block) (n : Nat) (w : Option Nat) (c s k : Nat) : (b.tallyB n w c s k).manifest = b.manifest := by rw [b.tallyB_frame n w c s k]
@[simp] theorem Block.tallyB_hold (b : Block) (n : Nat) (w : Option Nat) (c s k : Nat) : (b.tallyB n w c s k).hold = b.hold := by rw [b.tallyB_frame n w c s k]
@[simp] theorem Block.tallyB_fabric (b : Block) (n : Nat) (w : Option Nat) (c s k : Nat) : (b.tallyB n w c s k).fabric = b.fabric := by rw [b.tallyB_frame n w c s k]
@[simp] theorem Block.tallyB_lighters (b : Block) (n : Nat) (w : Option Nat) (c s k : Nat) : (b.tallyB n w c s k).lighters = b.lighters := by rw [b.tallyB_frame n w c s k]
@[simp] theorem Block.tallyB_harbour (b : Block) (n : Nat) (w : Option Nat) (c s k : Nat) : (b.tallyB n w c s k).harbour = b.harbour := by rw [b.tallyB_frame n w c s k]
@[simp] theorem Block.tallyB_log (b : Block) (n : Nat) (w : Option Nat) (c s k : Nat) : (b.tallyB n w c s k).log = b.log := by rw [b.tallyB_frame n w c s k]
@[simp] theorem Block.tallyB_boxes (b : Block) (n : Nat) (w : Option Nat) (c s k : Nat) : (b.tallyB n w c s k).boxes = b.boxes := by rw [b.tallyB_frame n w c s k]
@[simp] theorem Block.tallyB_watch (b : Block) (n : Nat) (w : Option Nat) (c s k : Nat) : (b.tallyB n w c s k).watch = b.watch := by rw [b.tallyB_frame n w c s k]
@[simp] theorem Block.tallyB_tally (b : Block) (n : Nat) (w : Option Nat) (c s k : Nat) : (b.tallyB n w c s k).tally = b.tally := by rw [b.tallyB_frame n w c s k]
@[simp] theorem Block.tallyB_quantumFrom (b : Block) (n : Nat) (w : Option Nat) (c s k : Nat) : (b.tallyB n w c s k).quantumFrom = b.quantumFrom := by rw [b.tallyB_frame n w c s k]

/-! ### A block event changes only counters -/

/-- A block event changes only counters: nothing else of the block changes. -/
theorem Block.tallyG_frame (b : Block) (w : Option Nat) (c s k : Nat) : b.tallyG w c s k = { b with regs := (b.tallyG w c s k).regs } := 
  foldl_regs _ (fun b i => b.countIn_frame _ _ i k) _ b

@[simp] theorem Block.tallyG_power (b : Block) (w : Option Nat) (c s k : Nat) : (b.tallyG w c s k).power = b.power := by rw [b.tallyG_frame w c s k]
@[simp] theorem Block.tallyG_readData (b : Block) (w : Option Nat) (c s k : Nat) : (b.tallyG w c s k).readData = b.readData := by rw [b.tallyG_frame w c s k]
@[simp] theorem Block.tallyG_host (b : Block) (w : Option Nat) (c s k : Nat) : (b.tallyG w c s k).host = b.host := by rw [b.tallyG_frame w c s k]
@[simp] theorem Block.tallyG_quay (b : Block) (w : Option Nat) (c s k : Nat) : (b.tallyG w c s k).quay = b.quay := by rw [b.tallyG_frame w c s k]
@[simp] theorem Block.tallyG_pilot (b : Block) (w : Option Nat) (c s k : Nat) : (b.tallyG w c s k).pilot = b.pilot := by rw [b.tallyG_frame w c s k]
@[simp] theorem Block.tallyG_berths (b : Block) (w : Option Nat) (c s k : Nat) : (b.tallyG w c s k).berths = b.berths := by rw [b.tallyG_frame w c s k]
@[simp] theorem Block.tallyG_cores (b : Block) (w : Option Nat) (c s k : Nat) : (b.tallyG w c s k).cores = b.cores := by rw [b.tallyG_frame w c s k]
@[simp] theorem Block.tallyG_ports (b : Block) (w : Option Nat) (c s k : Nat) : (b.tallyG w c s k).ports = b.ports := by rw [b.tallyG_frame w c s k]
@[simp] theorem Block.tallyG_slots (b : Block) (w : Option Nat) (c s k : Nat) : (b.tallyG w c s k).slots = b.slots := by rw [b.tallyG_frame w c s k]
@[simp] theorem Block.tallyG_reserveQueue (b : Block) (w : Option Nat) (c s k : Nat) : (b.tallyG w c s k).reserveQueue = b.reserveQueue := by rw [b.tallyG_frame w c s k]
@[simp] theorem Block.tallyG_manifest (b : Block) (w : Option Nat) (c s k : Nat) : (b.tallyG w c s k).manifest = b.manifest := by rw [b.tallyG_frame w c s k]
@[simp] theorem Block.tallyG_hold (b : Block) (w : Option Nat) (c s k : Nat) : (b.tallyG w c s k).hold = b.hold := by rw [b.tallyG_frame w c s k]
@[simp] theorem Block.tallyG_fabric (b : Block) (w : Option Nat) (c s k : Nat) : (b.tallyG w c s k).fabric = b.fabric := by rw [b.tallyG_frame w c s k]
@[simp] theorem Block.tallyG_lighters (b : Block) (w : Option Nat) (c s k : Nat) : (b.tallyG w c s k).lighters = b.lighters := by rw [b.tallyG_frame w c s k]
@[simp] theorem Block.tallyG_harbour (b : Block) (w : Option Nat) (c s k : Nat) : (b.tallyG w c s k).harbour = b.harbour := by rw [b.tallyG_frame w c s k]
@[simp] theorem Block.tallyG_log (b : Block) (w : Option Nat) (c s k : Nat) : (b.tallyG w c s k).log = b.log := by rw [b.tallyG_frame w c s k]
@[simp] theorem Block.tallyG_boxes (b : Block) (w : Option Nat) (c s k : Nat) : (b.tallyG w c s k).boxes = b.boxes := by rw [b.tallyG_frame w c s k]
@[simp] theorem Block.tallyG_watch (b : Block) (w : Option Nat) (c s k : Nat) : (b.tallyG w c s k).watch = b.watch := by rw [b.tallyG_frame w c s k]
@[simp] theorem Block.tallyG_tally (b : Block) (w : Option Nat) (c s k : Nat) : (b.tallyG w c s k).tally = b.tally := by rw [b.tallyG_frame w c s k]
@[simp] theorem Block.tallyG_quantumFrom (b : Block) (w : Option Nat) (c s k : Nat) : (b.tallyG w c s k).quantumFrom = b.quantumFrom := by rw [b.tallyG_frame w c s k]

/-! ### A vector changes only the host port -/

/-- A vector changes only the host port: nothing else of the block changes. -/
theorem Block.msix_frame (b : Block) (v : Nat) : b.msix v = { b with host := (b.msix v).host } := by
  unfold Block.msix
  dsimp only
  split
  · rfl
  · split <;> rfl

@[simp] theorem Block.msix_regs (b : Block) (v : Nat) : (b.msix v).regs = b.regs := by rw [b.msix_frame v]
@[simp] theorem Block.msix_power (b : Block) (v : Nat) : (b.msix v).power = b.power := by rw [b.msix_frame v]
@[simp] theorem Block.msix_readData (b : Block) (v : Nat) : (b.msix v).readData = b.readData := by rw [b.msix_frame v]
@[simp] theorem Block.msix_quay (b : Block) (v : Nat) : (b.msix v).quay = b.quay := by rw [b.msix_frame v]
@[simp] theorem Block.msix_pilot (b : Block) (v : Nat) : (b.msix v).pilot = b.pilot := by rw [b.msix_frame v]
@[simp] theorem Block.msix_berths (b : Block) (v : Nat) : (b.msix v).berths = b.berths := by rw [b.msix_frame v]
@[simp] theorem Block.msix_cores (b : Block) (v : Nat) : (b.msix v).cores = b.cores := by rw [b.msix_frame v]
@[simp] theorem Block.msix_ports (b : Block) (v : Nat) : (b.msix v).ports = b.ports := by rw [b.msix_frame v]
@[simp] theorem Block.msix_slots (b : Block) (v : Nat) : (b.msix v).slots = b.slots := by rw [b.msix_frame v]
@[simp] theorem Block.msix_reserveQueue (b : Block) (v : Nat) : (b.msix v).reserveQueue = b.reserveQueue := by rw [b.msix_frame v]
@[simp] theorem Block.msix_manifest (b : Block) (v : Nat) : (b.msix v).manifest = b.manifest := by rw [b.msix_frame v]
@[simp] theorem Block.msix_hold (b : Block) (v : Nat) : (b.msix v).hold = b.hold := by rw [b.msix_frame v]
@[simp] theorem Block.msix_fabric (b : Block) (v : Nat) : (b.msix v).fabric = b.fabric := by rw [b.msix_frame v]
@[simp] theorem Block.msix_lighters (b : Block) (v : Nat) : (b.msix v).lighters = b.lighters := by rw [b.msix_frame v]
@[simp] theorem Block.msix_harbour (b : Block) (v : Nat) : (b.msix v).harbour = b.harbour := by rw [b.msix_frame v]
@[simp] theorem Block.msix_log (b : Block) (v : Nat) : (b.msix v).log = b.log := by rw [b.msix_frame v]
@[simp] theorem Block.msix_boxes (b : Block) (v : Nat) : (b.msix v).boxes = b.boxes := by rw [b.msix_frame v]
@[simp] theorem Block.msix_watch (b : Block) (v : Nat) : (b.msix v).watch = b.watch := by rw [b.msix_frame v]
@[simp] theorem Block.msix_tally (b : Block) (v : Nat) : (b.msix v).tally = b.tally := by rw [b.msix_frame v]
@[simp] theorem Block.msix_quantumFrom (b : Block) (v : Nat) : (b.msix v).quantumFrom = b.quantumFrom := by rw [b.msix_frame v]

/-! ### An alarm changes the Logbook and Bell -/

/-- An alarm changes the Logbook and Bell: nothing else of the block changes. -/
theorem Block.alarm_frame (b : Block) (e : Env) (i : LogItem) : b.alarm e i = { b with regs := (b.alarm e i).regs, log := (b.alarm e i).log } := by
  unfold Block.alarm
  dsimp only
  split
  · exact regs_after_log (regs_trans (Block.raise_frame _ 48) (Block.raise_frame _ 52))
  · split
    · exact regs_after_log (regs_trans (Block.raise_frame _ 48) (Block.raise_frame _ 54))
    · exact regs_after_log (Block.raise_frame _ 48)

@[simp] theorem Block.alarm_power (b : Block) (e : Env) (i : LogItem) : (b.alarm e i).power = b.power := by rw [b.alarm_frame e i]
@[simp] theorem Block.alarm_readData (b : Block) (e : Env) (i : LogItem) : (b.alarm e i).readData = b.readData := by rw [b.alarm_frame e i]
@[simp] theorem Block.alarm_host (b : Block) (e : Env) (i : LogItem) : (b.alarm e i).host = b.host := by rw [b.alarm_frame e i]
@[simp] theorem Block.alarm_quay (b : Block) (e : Env) (i : LogItem) : (b.alarm e i).quay = b.quay := by rw [b.alarm_frame e i]
@[simp] theorem Block.alarm_pilot (b : Block) (e : Env) (i : LogItem) : (b.alarm e i).pilot = b.pilot := by rw [b.alarm_frame e i]
@[simp] theorem Block.alarm_berths (b : Block) (e : Env) (i : LogItem) : (b.alarm e i).berths = b.berths := by rw [b.alarm_frame e i]
@[simp] theorem Block.alarm_cores (b : Block) (e : Env) (i : LogItem) : (b.alarm e i).cores = b.cores := by rw [b.alarm_frame e i]
@[simp] theorem Block.alarm_ports (b : Block) (e : Env) (i : LogItem) : (b.alarm e i).ports = b.ports := by rw [b.alarm_frame e i]
@[simp] theorem Block.alarm_slots (b : Block) (e : Env) (i : LogItem) : (b.alarm e i).slots = b.slots := by rw [b.alarm_frame e i]
@[simp] theorem Block.alarm_reserveQueue (b : Block) (e : Env) (i : LogItem) : (b.alarm e i).reserveQueue = b.reserveQueue := by rw [b.alarm_frame e i]
@[simp] theorem Block.alarm_manifest (b : Block) (e : Env) (i : LogItem) : (b.alarm e i).manifest = b.manifest := by rw [b.alarm_frame e i]
@[simp] theorem Block.alarm_hold (b : Block) (e : Env) (i : LogItem) : (b.alarm e i).hold = b.hold := by rw [b.alarm_frame e i]
@[simp] theorem Block.alarm_fabric (b : Block) (e : Env) (i : LogItem) : (b.alarm e i).fabric = b.fabric := by rw [b.alarm_frame e i]
@[simp] theorem Block.alarm_lighters (b : Block) (e : Env) (i : LogItem) : (b.alarm e i).lighters = b.lighters := by rw [b.alarm_frame e i]
@[simp] theorem Block.alarm_harbour (b : Block) (e : Env) (i : LogItem) : (b.alarm e i).harbour = b.harbour := by rw [b.alarm_frame e i]
@[simp] theorem Block.alarm_boxes (b : Block) (e : Env) (i : LogItem) : (b.alarm e i).boxes = b.boxes := by rw [b.alarm_frame e i]
@[simp] theorem Block.alarm_watch (b : Block) (e : Env) (i : LogItem) : (b.alarm e i).watch = b.watch := by rw [b.alarm_frame e i]
@[simp] theorem Block.alarm_tally (b : Block) (e : Env) (i : LogItem) : (b.alarm e i).tally = b.tally := by rw [b.alarm_frame e i]
@[simp] theorem Block.alarm_quantumFrom (b : Block) (e : Env) (i : LogItem) : (b.alarm e i).quantumFrom = b.quantumFrom := by rw [b.alarm_frame e i]

/-! ### An event record changes the Logbook -/

/-- An event record changes the Logbook: nothing else of the block changes. -/
theorem Block.event_frame (b : Block) (e : Env) (i : LogItem) : b.event e i = { b with regs := (b.event e i).regs, log := (b.event e i).log } := by
  unfold Block.event
  dsimp only
  repeat' split
  all_goals rfl

@[simp] theorem Block.event_power (b : Block) (e : Env) (i : LogItem) : (b.event e i).power = b.power := by rw [b.event_frame e i]
@[simp] theorem Block.event_readData (b : Block) (e : Env) (i : LogItem) : (b.event e i).readData = b.readData := by rw [b.event_frame e i]
@[simp] theorem Block.event_host (b : Block) (e : Env) (i : LogItem) : (b.event e i).host = b.host := by rw [b.event_frame e i]
@[simp] theorem Block.event_quay (b : Block) (e : Env) (i : LogItem) : (b.event e i).quay = b.quay := by rw [b.event_frame e i]
@[simp] theorem Block.event_pilot (b : Block) (e : Env) (i : LogItem) : (b.event e i).pilot = b.pilot := by rw [b.event_frame e i]
@[simp] theorem Block.event_berths (b : Block) (e : Env) (i : LogItem) : (b.event e i).berths = b.berths := by rw [b.event_frame e i]
@[simp] theorem Block.event_cores (b : Block) (e : Env) (i : LogItem) : (b.event e i).cores = b.cores := by rw [b.event_frame e i]
@[simp] theorem Block.event_ports (b : Block) (e : Env) (i : LogItem) : (b.event e i).ports = b.ports := by rw [b.event_frame e i]
@[simp] theorem Block.event_slots (b : Block) (e : Env) (i : LogItem) : (b.event e i).slots = b.slots := by rw [b.event_frame e i]
@[simp] theorem Block.event_reserveQueue (b : Block) (e : Env) (i : LogItem) : (b.event e i).reserveQueue = b.reserveQueue := by rw [b.event_frame e i]
@[simp] theorem Block.event_manifest (b : Block) (e : Env) (i : LogItem) : (b.event e i).manifest = b.manifest := by rw [b.event_frame e i]
@[simp] theorem Block.event_hold (b : Block) (e : Env) (i : LogItem) : (b.event e i).hold = b.hold := by rw [b.event_frame e i]
@[simp] theorem Block.event_fabric (b : Block) (e : Env) (i : LogItem) : (b.event e i).fabric = b.fabric := by rw [b.event_frame e i]
@[simp] theorem Block.event_lighters (b : Block) (e : Env) (i : LogItem) : (b.event e i).lighters = b.lighters := by rw [b.event_frame e i]
@[simp] theorem Block.event_harbour (b : Block) (e : Env) (i : LogItem) : (b.event e i).harbour = b.harbour := by rw [b.event_frame e i]
@[simp] theorem Block.event_boxes (b : Block) (e : Env) (i : LogItem) : (b.event e i).boxes = b.boxes := by rw [b.event_frame e i]
@[simp] theorem Block.event_watch (b : Block) (e : Env) (i : LogItem) : (b.event e i).watch = b.watch := by rw [b.event_frame e i]
@[simp] theorem Block.event_tally (b : Block) (e : Env) (i : LogItem) : (b.event e i).tally = b.tally := by rw [b.event_frame e i]
@[simp] theorem Block.event_quantumFrom (b : Block) (e : Env) (i : LogItem) : (b.event e i).quantumFrom = b.quantumFrom := by rw [b.event_frame e i]

/-! ### A trace record changes the Logbook -/

/-- A record handed to the trace port changes the Logbook: nothing else of the block changes. -/
theorem Block.toTracePort_frame (b : Block) (e : Env) (r : LogRec) : b.toTracePort e r = { b with regs := (b.toTracePort e r).regs, log := (b.toTracePort e r).log } := by
  unfold Block.toTracePort
  dsimp only
  repeat' split
  all_goals rfl

/-- A trace record changes the Logbook: nothing else of the block changes. -/
theorem Block.trace_frame (b : Block) (e : Env) (sl : Nat) (i : LogItem) : b.trace e sl i = { b with regs := (b.trace e sl i).regs, log := (b.trace e sl i).log } := by
  unfold Block.trace
  dsimp only
  repeat' split
  all_goals first | rfl | (rw [Block.toTracePort_frame] <;> rfl)

@[simp] theorem Block.trace_power (b : Block) (e : Env) (sl : Nat) (i : LogItem) : (b.trace e sl i).power = b.power := by rw [b.trace_frame e sl i]
@[simp] theorem Block.trace_readData (b : Block) (e : Env) (sl : Nat) (i : LogItem) : (b.trace e sl i).readData = b.readData := by rw [b.trace_frame e sl i]
@[simp] theorem Block.trace_host (b : Block) (e : Env) (sl : Nat) (i : LogItem) : (b.trace e sl i).host = b.host := by rw [b.trace_frame e sl i]
@[simp] theorem Block.trace_quay (b : Block) (e : Env) (sl : Nat) (i : LogItem) : (b.trace e sl i).quay = b.quay := by rw [b.trace_frame e sl i]
@[simp] theorem Block.trace_pilot (b : Block) (e : Env) (sl : Nat) (i : LogItem) : (b.trace e sl i).pilot = b.pilot := by rw [b.trace_frame e sl i]
@[simp] theorem Block.trace_berths (b : Block) (e : Env) (sl : Nat) (i : LogItem) : (b.trace e sl i).berths = b.berths := by rw [b.trace_frame e sl i]
@[simp] theorem Block.trace_cores (b : Block) (e : Env) (sl : Nat) (i : LogItem) : (b.trace e sl i).cores = b.cores := by rw [b.trace_frame e sl i]
@[simp] theorem Block.trace_ports (b : Block) (e : Env) (sl : Nat) (i : LogItem) : (b.trace e sl i).ports = b.ports := by rw [b.trace_frame e sl i]
@[simp] theorem Block.trace_slots (b : Block) (e : Env) (sl : Nat) (i : LogItem) : (b.trace e sl i).slots = b.slots := by rw [b.trace_frame e sl i]
@[simp] theorem Block.trace_reserveQueue (b : Block) (e : Env) (sl : Nat) (i : LogItem) : (b.trace e sl i).reserveQueue = b.reserveQueue := by rw [b.trace_frame e sl i]
@[simp] theorem Block.trace_manifest (b : Block) (e : Env) (sl : Nat) (i : LogItem) : (b.trace e sl i).manifest = b.manifest := by rw [b.trace_frame e sl i]
@[simp] theorem Block.trace_hold (b : Block) (e : Env) (sl : Nat) (i : LogItem) : (b.trace e sl i).hold = b.hold := by rw [b.trace_frame e sl i]
@[simp] theorem Block.trace_fabric (b : Block) (e : Env) (sl : Nat) (i : LogItem) : (b.trace e sl i).fabric = b.fabric := by rw [b.trace_frame e sl i]
@[simp] theorem Block.trace_lighters (b : Block) (e : Env) (sl : Nat) (i : LogItem) : (b.trace e sl i).lighters = b.lighters := by rw [b.trace_frame e sl i]
@[simp] theorem Block.trace_harbour (b : Block) (e : Env) (sl : Nat) (i : LogItem) : (b.trace e sl i).harbour = b.harbour := by rw [b.trace_frame e sl i]
@[simp] theorem Block.trace_boxes (b : Block) (e : Env) (sl : Nat) (i : LogItem) : (b.trace e sl i).boxes = b.boxes := by rw [b.trace_frame e sl i]
@[simp] theorem Block.trace_watch (b : Block) (e : Env) (sl : Nat) (i : LogItem) : (b.trace e sl i).watch = b.watch := by rw [b.trace_frame e sl i]
@[simp] theorem Block.trace_tally (b : Block) (e : Env) (sl : Nat) (i : LogItem) : (b.trace e sl i).tally = b.tally := by rw [b.trace_frame e sl i]
@[simp] theorem Block.trace_quantumFrom (b : Block) (e : Env) (sl : Nat) (i : LogItem) : (b.trace e sl i).quantumFrom = b.quantumFrom := by rw [b.trace_frame e sl i]

/-! ### A notice changes the ring and the host port -/

/-- A notice changes the ring and the host port: nothing else of the block changes. -/
theorem Block.notice_frame (b : Block) (e : Env) (o s r : Nat) (d : List Nat) : b.notice e o s r d = { b with regs := (b.notice e o s r d).regs, host := (b.notice e o s r d).host } := by
  unfold Block.notice
  dsimp only
  repeat' split
  all_goals rfl

@[simp] theorem Block.notice_power (b : Block) (e : Env) (o s r : Nat) (d : List Nat) : (b.notice e o s r d).power = b.power := by rw [b.notice_frame e o s r d]
@[simp] theorem Block.notice_readData (b : Block) (e : Env) (o s r : Nat) (d : List Nat) : (b.notice e o s r d).readData = b.readData := by rw [b.notice_frame e o s r d]
@[simp] theorem Block.notice_quay (b : Block) (e : Env) (o s r : Nat) (d : List Nat) : (b.notice e o s r d).quay = b.quay := by rw [b.notice_frame e o s r d]
@[simp] theorem Block.notice_pilot (b : Block) (e : Env) (o s r : Nat) (d : List Nat) : (b.notice e o s r d).pilot = b.pilot := by rw [b.notice_frame e o s r d]
@[simp] theorem Block.notice_berths (b : Block) (e : Env) (o s r : Nat) (d : List Nat) : (b.notice e o s r d).berths = b.berths := by rw [b.notice_frame e o s r d]
@[simp] theorem Block.notice_cores (b : Block) (e : Env) (o s r : Nat) (d : List Nat) : (b.notice e o s r d).cores = b.cores := by rw [b.notice_frame e o s r d]
@[simp] theorem Block.notice_ports (b : Block) (e : Env) (o s r : Nat) (d : List Nat) : (b.notice e o s r d).ports = b.ports := by rw [b.notice_frame e o s r d]
@[simp] theorem Block.notice_slots (b : Block) (e : Env) (o s r : Nat) (d : List Nat) : (b.notice e o s r d).slots = b.slots := by rw [b.notice_frame e o s r d]
@[simp] theorem Block.notice_reserveQueue (b : Block) (e : Env) (o s r : Nat) (d : List Nat) : (b.notice e o s r d).reserveQueue = b.reserveQueue := by rw [b.notice_frame e o s r d]
@[simp] theorem Block.notice_manifest (b : Block) (e : Env) (o s r : Nat) (d : List Nat) : (b.notice e o s r d).manifest = b.manifest := by rw [b.notice_frame e o s r d]
@[simp] theorem Block.notice_hold (b : Block) (e : Env) (o s r : Nat) (d : List Nat) : (b.notice e o s r d).hold = b.hold := by rw [b.notice_frame e o s r d]
@[simp] theorem Block.notice_fabric (b : Block) (e : Env) (o s r : Nat) (d : List Nat) : (b.notice e o s r d).fabric = b.fabric := by rw [b.notice_frame e o s r d]
@[simp] theorem Block.notice_lighters (b : Block) (e : Env) (o s r : Nat) (d : List Nat) : (b.notice e o s r d).lighters = b.lighters := by rw [b.notice_frame e o s r d]
@[simp] theorem Block.notice_harbour (b : Block) (e : Env) (o s r : Nat) (d : List Nat) : (b.notice e o s r d).harbour = b.harbour := by rw [b.notice_frame e o s r d]
@[simp] theorem Block.notice_log (b : Block) (e : Env) (o s r : Nat) (d : List Nat) : (b.notice e o s r d).log = b.log := by rw [b.notice_frame e o s r d]
@[simp] theorem Block.notice_boxes (b : Block) (e : Env) (o s r : Nat) (d : List Nat) : (b.notice e o s r d).boxes = b.boxes := by rw [b.notice_frame e o s r d]
@[simp] theorem Block.notice_watch (b : Block) (e : Env) (o s r : Nat) (d : List Nat) : (b.notice e o s r d).watch = b.watch := by rw [b.notice_frame e o s r d]
@[simp] theorem Block.notice_tally (b : Block) (e : Env) (o s r : Nat) (d : List Nat) : (b.notice e o s r d).tally = b.tally := by rw [b.notice_frame e o s r d]
@[simp] theorem Block.notice_quantumFrom (b : Block) (e : Env) (o s r : Nat) (d : List Nat) : (b.notice e o s r d).quantumFrom = b.quantumFrom := by rw [b.notice_frame e o s r d]

/-! ### A berth's STATE changes -/

/-- A berth's STATE changes: nothing else of the block changes. -/
theorem Block.setBstate_frame (b : Block) (e : Env) (n st : Nat) : b.setBstate e n st = { b with regs := (b.setBstate e n st).regs, berths := (b.setBstate e n st).berths, watch := (b.setBstate e n st).watch } := by
  unfold Block.setBstate
  dsimp only
  split <;> rfl

@[simp] theorem Block.setBstate_power (b : Block) (e : Env) (n st : Nat) : (b.setBstate e n st).power = b.power := by rw [b.setBstate_frame e n st]
@[simp] theorem Block.setBstate_readData (b : Block) (e : Env) (n st : Nat) : (b.setBstate e n st).readData = b.readData := by rw [b.setBstate_frame e n st]
@[simp] theorem Block.setBstate_host (b : Block) (e : Env) (n st : Nat) : (b.setBstate e n st).host = b.host := by rw [b.setBstate_frame e n st]
@[simp] theorem Block.setBstate_quay (b : Block) (e : Env) (n st : Nat) : (b.setBstate e n st).quay = b.quay := by rw [b.setBstate_frame e n st]
@[simp] theorem Block.setBstate_pilot (b : Block) (e : Env) (n st : Nat) : (b.setBstate e n st).pilot = b.pilot := by rw [b.setBstate_frame e n st]
@[simp] theorem Block.setBstate_cores (b : Block) (e : Env) (n st : Nat) : (b.setBstate e n st).cores = b.cores := by rw [b.setBstate_frame e n st]
@[simp] theorem Block.setBstate_ports (b : Block) (e : Env) (n st : Nat) : (b.setBstate e n st).ports = b.ports := by rw [b.setBstate_frame e n st]
@[simp] theorem Block.setBstate_slots (b : Block) (e : Env) (n st : Nat) : (b.setBstate e n st).slots = b.slots := by rw [b.setBstate_frame e n st]
@[simp] theorem Block.setBstate_reserveQueue (b : Block) (e : Env) (n st : Nat) : (b.setBstate e n st).reserveQueue = b.reserveQueue := by rw [b.setBstate_frame e n st]
@[simp] theorem Block.setBstate_manifest (b : Block) (e : Env) (n st : Nat) : (b.setBstate e n st).manifest = b.manifest := by rw [b.setBstate_frame e n st]
@[simp] theorem Block.setBstate_hold (b : Block) (e : Env) (n st : Nat) : (b.setBstate e n st).hold = b.hold := by rw [b.setBstate_frame e n st]
@[simp] theorem Block.setBstate_fabric (b : Block) (e : Env) (n st : Nat) : (b.setBstate e n st).fabric = b.fabric := by rw [b.setBstate_frame e n st]
@[simp] theorem Block.setBstate_lighters (b : Block) (e : Env) (n st : Nat) : (b.setBstate e n st).lighters = b.lighters := by rw [b.setBstate_frame e n st]
@[simp] theorem Block.setBstate_harbour (b : Block) (e : Env) (n st : Nat) : (b.setBstate e n st).harbour = b.harbour := by rw [b.setBstate_frame e n st]
@[simp] theorem Block.setBstate_log (b : Block) (e : Env) (n st : Nat) : (b.setBstate e n st).log = b.log := by rw [b.setBstate_frame e n st]
@[simp] theorem Block.setBstate_boxes (b : Block) (e : Env) (n st : Nat) : (b.setBstate e n st).boxes = b.boxes := by rw [b.setBstate_frame e n st]
@[simp] theorem Block.setBstate_tally (b : Block) (e : Env) (n st : Nat) : (b.setBstate e n st).tally = b.tally := by rw [b.setBstate_frame e n st]
@[simp] theorem Block.setBstate_quantumFrom (b : Block) (e : Env) (n st : Nat) : (b.setBstate e n st).quantumFrom = b.quantumFrom := by rw [b.setBstate_frame e n st]

/-! ### The state around the block -/

/-! ### Changing a channel of the Hold -/

@[simp] theorem Block.modChan_regs (b : Block) (ch : Nat) (f : Channel → Channel) : (b.modChan ch f).regs = b.regs := rfl
@[simp] theorem Block.modChan_power (b : Block) (ch : Nat) (f : Channel → Channel) : (b.modChan ch f).power = b.power := rfl
@[simp] theorem Block.modChan_readData (b : Block) (ch : Nat) (f : Channel → Channel) : (b.modChan ch f).readData = b.readData := rfl
@[simp] theorem Block.modChan_host (b : Block) (ch : Nat) (f : Channel → Channel) : (b.modChan ch f).host = b.host := rfl
@[simp] theorem Block.modChan_quay (b : Block) (ch : Nat) (f : Channel → Channel) : (b.modChan ch f).quay = b.quay := rfl
@[simp] theorem Block.modChan_pilot (b : Block) (ch : Nat) (f : Channel → Channel) : (b.modChan ch f).pilot = b.pilot := rfl
@[simp] theorem Block.modChan_berths (b : Block) (ch : Nat) (f : Channel → Channel) : (b.modChan ch f).berths = b.berths := rfl
@[simp] theorem Block.modChan_cores (b : Block) (ch : Nat) (f : Channel → Channel) : (b.modChan ch f).cores = b.cores := rfl
@[simp] theorem Block.modChan_ports (b : Block) (ch : Nat) (f : Channel → Channel) : (b.modChan ch f).ports = b.ports := rfl
@[simp] theorem Block.modChan_slots (b : Block) (ch : Nat) (f : Channel → Channel) : (b.modChan ch f).slots = b.slots := rfl
@[simp] theorem Block.modChan_reserveQueue (b : Block) (ch : Nat) (f : Channel → Channel) : (b.modChan ch f).reserveQueue = b.reserveQueue := rfl
@[simp] theorem Block.modChan_manifest (b : Block) (ch : Nat) (f : Channel → Channel) : (b.modChan ch f).manifest = b.manifest := rfl
@[simp] theorem Block.modChan_fabric (b : Block) (ch : Nat) (f : Channel → Channel) : (b.modChan ch f).fabric = b.fabric := rfl
@[simp] theorem Block.modChan_lighters (b : Block) (ch : Nat) (f : Channel → Channel) : (b.modChan ch f).lighters = b.lighters := rfl
@[simp] theorem Block.modChan_harbour (b : Block) (ch : Nat) (f : Channel → Channel) : (b.modChan ch f).harbour = b.harbour := rfl
@[simp] theorem Block.modChan_log (b : Block) (ch : Nat) (f : Channel → Channel) : (b.modChan ch f).log = b.log := rfl
@[simp] theorem Block.modChan_boxes (b : Block) (ch : Nat) (f : Channel → Channel) : (b.modChan ch f).boxes = b.boxes := rfl
@[simp] theorem Block.modChan_watch (b : Block) (ch : Nat) (f : Channel → Channel) : (b.modChan ch f).watch = b.watch := rfl
@[simp] theorem Block.modChan_tally (b : Block) (ch : Nat) (f : Channel → Channel) : (b.modChan ch f).tally = b.tally := rfl
@[simp] theorem Block.modChan_quantumFrom (b : Block) (ch : Nat) (f : Channel → Channel) : (b.modChan ch f).quantumFrom = b.quantumFrom := rfl

/-! ### Changing a stack of the Hold -/

@[simp] theorem Block.modStack_regs (b : Block) (h : Nat) (f : Stack → Stack) : (b.modStack h f).regs = b.regs := rfl
@[simp] theorem Block.modStack_power (b : Block) (h : Nat) (f : Stack → Stack) : (b.modStack h f).power = b.power := rfl
@[simp] theorem Block.modStack_readData (b : Block) (h : Nat) (f : Stack → Stack) : (b.modStack h f).readData = b.readData := rfl
@[simp] theorem Block.modStack_host (b : Block) (h : Nat) (f : Stack → Stack) : (b.modStack h f).host = b.host := rfl
@[simp] theorem Block.modStack_quay (b : Block) (h : Nat) (f : Stack → Stack) : (b.modStack h f).quay = b.quay := rfl
@[simp] theorem Block.modStack_pilot (b : Block) (h : Nat) (f : Stack → Stack) : (b.modStack h f).pilot = b.pilot := rfl
@[simp] theorem Block.modStack_berths (b : Block) (h : Nat) (f : Stack → Stack) : (b.modStack h f).berths = b.berths := rfl
@[simp] theorem Block.modStack_cores (b : Block) (h : Nat) (f : Stack → Stack) : (b.modStack h f).cores = b.cores := rfl
@[simp] theorem Block.modStack_ports (b : Block) (h : Nat) (f : Stack → Stack) : (b.modStack h f).ports = b.ports := rfl
@[simp] theorem Block.modStack_slots (b : Block) (h : Nat) (f : Stack → Stack) : (b.modStack h f).slots = b.slots := rfl
@[simp] theorem Block.modStack_reserveQueue (b : Block) (h : Nat) (f : Stack → Stack) : (b.modStack h f).reserveQueue = b.reserveQueue := rfl
@[simp] theorem Block.modStack_manifest (b : Block) (h : Nat) (f : Stack → Stack) : (b.modStack h f).manifest = b.manifest := rfl
@[simp] theorem Block.modStack_fabric (b : Block) (h : Nat) (f : Stack → Stack) : (b.modStack h f).fabric = b.fabric := rfl
@[simp] theorem Block.modStack_lighters (b : Block) (h : Nat) (f : Stack → Stack) : (b.modStack h f).lighters = b.lighters := rfl
@[simp] theorem Block.modStack_harbour (b : Block) (h : Nat) (f : Stack → Stack) : (b.modStack h f).harbour = b.harbour := rfl
@[simp] theorem Block.modStack_log (b : Block) (h : Nat) (f : Stack → Stack) : (b.modStack h f).log = b.log := rfl
@[simp] theorem Block.modStack_boxes (b : Block) (h : Nat) (f : Stack → Stack) : (b.modStack h f).boxes = b.boxes := rfl
@[simp] theorem Block.modStack_watch (b : Block) (h : Nat) (f : Stack → Stack) : (b.modStack h f).watch = b.watch := rfl
@[simp] theorem Block.modStack_tally (b : Block) (h : Nat) (f : Stack → Stack) : (b.modStack h f).tally = b.tally := rfl
@[simp] theorem Block.modStack_quantumFrom (b : Block) (h : Nat) (f : Stack → Stack) : (b.modStack h f).quantumFrom = b.quantumFrom := rfl

/-! ### Changing an object of the Hold -/

@[simp] theorem Block.modObj_regs (b : Block) (i : Nat) (f : HoldObj → HoldObj) : (b.modObj i f).regs = b.regs := rfl
@[simp] theorem Block.modObj_power (b : Block) (i : Nat) (f : HoldObj → HoldObj) : (b.modObj i f).power = b.power := rfl
@[simp] theorem Block.modObj_readData (b : Block) (i : Nat) (f : HoldObj → HoldObj) : (b.modObj i f).readData = b.readData := rfl
@[simp] theorem Block.modObj_host (b : Block) (i : Nat) (f : HoldObj → HoldObj) : (b.modObj i f).host = b.host := rfl
@[simp] theorem Block.modObj_quay (b : Block) (i : Nat) (f : HoldObj → HoldObj) : (b.modObj i f).quay = b.quay := rfl
@[simp] theorem Block.modObj_pilot (b : Block) (i : Nat) (f : HoldObj → HoldObj) : (b.modObj i f).pilot = b.pilot := rfl
@[simp] theorem Block.modObj_berths (b : Block) (i : Nat) (f : HoldObj → HoldObj) : (b.modObj i f).berths = b.berths := rfl
@[simp] theorem Block.modObj_cores (b : Block) (i : Nat) (f : HoldObj → HoldObj) : (b.modObj i f).cores = b.cores := rfl
@[simp] theorem Block.modObj_ports (b : Block) (i : Nat) (f : HoldObj → HoldObj) : (b.modObj i f).ports = b.ports := rfl
@[simp] theorem Block.modObj_slots (b : Block) (i : Nat) (f : HoldObj → HoldObj) : (b.modObj i f).slots = b.slots := rfl
@[simp] theorem Block.modObj_reserveQueue (b : Block) (i : Nat) (f : HoldObj → HoldObj) : (b.modObj i f).reserveQueue = b.reserveQueue := rfl
@[simp] theorem Block.modObj_manifest (b : Block) (i : Nat) (f : HoldObj → HoldObj) : (b.modObj i f).manifest = b.manifest := rfl
@[simp] theorem Block.modObj_fabric (b : Block) (i : Nat) (f : HoldObj → HoldObj) : (b.modObj i f).fabric = b.fabric := rfl
@[simp] theorem Block.modObj_lighters (b : Block) (i : Nat) (f : HoldObj → HoldObj) : (b.modObj i f).lighters = b.lighters := rfl
@[simp] theorem Block.modObj_harbour (b : Block) (i : Nat) (f : HoldObj → HoldObj) : (b.modObj i f).harbour = b.harbour := rfl
@[simp] theorem Block.modObj_log (b : Block) (i : Nat) (f : HoldObj → HoldObj) : (b.modObj i f).log = b.log := rfl
@[simp] theorem Block.modObj_boxes (b : Block) (i : Nat) (f : HoldObj → HoldObj) : (b.modObj i f).boxes = b.boxes := rfl
@[simp] theorem Block.modObj_watch (b : Block) (i : Nat) (f : HoldObj → HoldObj) : (b.modObj i f).watch = b.watch := rfl
@[simp] theorem Block.modObj_tally (b : Block) (i : Nat) (f : HoldObj → HoldObj) : (b.modObj i f).tally = b.tally := rfl
@[simp] theorem Block.modObj_quantumFrom (b : Block) (i : Nat) (f : HoldObj → HoldObj) : (b.modObj i f).quantumFrom = b.quantumFrom := rfl

/-! ### Changing a sequence -/

@[simp] theorem Block.modSeq_regs (b : Block) (i : Nat) (f : SeqEntry → SeqEntry) : (b.modSeq i f).regs = b.regs := rfl
@[simp] theorem Block.modSeq_power (b : Block) (i : Nat) (f : SeqEntry → SeqEntry) : (b.modSeq i f).power = b.power := rfl
@[simp] theorem Block.modSeq_readData (b : Block) (i : Nat) (f : SeqEntry → SeqEntry) : (b.modSeq i f).readData = b.readData := rfl
@[simp] theorem Block.modSeq_host (b : Block) (i : Nat) (f : SeqEntry → SeqEntry) : (b.modSeq i f).host = b.host := rfl
@[simp] theorem Block.modSeq_quay (b : Block) (i : Nat) (f : SeqEntry → SeqEntry) : (b.modSeq i f).quay = b.quay := rfl
@[simp] theorem Block.modSeq_pilot (b : Block) (i : Nat) (f : SeqEntry → SeqEntry) : (b.modSeq i f).pilot = b.pilot := rfl
@[simp] theorem Block.modSeq_berths (b : Block) (i : Nat) (f : SeqEntry → SeqEntry) : (b.modSeq i f).berths = b.berths := rfl
@[simp] theorem Block.modSeq_cores (b : Block) (i : Nat) (f : SeqEntry → SeqEntry) : (b.modSeq i f).cores = b.cores := rfl
@[simp] theorem Block.modSeq_ports (b : Block) (i : Nat) (f : SeqEntry → SeqEntry) : (b.modSeq i f).ports = b.ports := rfl
@[simp] theorem Block.modSeq_slots (b : Block) (i : Nat) (f : SeqEntry → SeqEntry) : (b.modSeq i f).slots = b.slots := rfl
@[simp] theorem Block.modSeq_reserveQueue (b : Block) (i : Nat) (f : SeqEntry → SeqEntry) : (b.modSeq i f).reserveQueue = b.reserveQueue := rfl
@[simp] theorem Block.modSeq_hold (b : Block) (i : Nat) (f : SeqEntry → SeqEntry) : (b.modSeq i f).hold = b.hold := rfl
@[simp] theorem Block.modSeq_fabric (b : Block) (i : Nat) (f : SeqEntry → SeqEntry) : (b.modSeq i f).fabric = b.fabric := rfl
@[simp] theorem Block.modSeq_lighters (b : Block) (i : Nat) (f : SeqEntry → SeqEntry) : (b.modSeq i f).lighters = b.lighters := rfl
@[simp] theorem Block.modSeq_harbour (b : Block) (i : Nat) (f : SeqEntry → SeqEntry) : (b.modSeq i f).harbour = b.harbour := rfl
@[simp] theorem Block.modSeq_log (b : Block) (i : Nat) (f : SeqEntry → SeqEntry) : (b.modSeq i f).log = b.log := rfl
@[simp] theorem Block.modSeq_boxes (b : Block) (i : Nat) (f : SeqEntry → SeqEntry) : (b.modSeq i f).boxes = b.boxes := rfl
@[simp] theorem Block.modSeq_watch (b : Block) (i : Nat) (f : SeqEntry → SeqEntry) : (b.modSeq i f).watch = b.watch := rfl
@[simp] theorem Block.modSeq_tally (b : Block) (i : Nat) (f : SeqEntry → SeqEntry) : (b.modSeq i f).tally = b.tally := rfl
@[simp] theorem Block.modSeq_quantumFrom (b : Block) (i : Nat) (f : SeqEntry → SeqEntry) : (b.modSeq i f).quantumFrom = b.quantumFrom := rfl

/-! ### A request joins a lane -/

@[simp] theorem Block.toLane_regs (b : Block) (p : Nat) (r : MemReq) : (b.toLane p r).regs = b.regs := rfl
@[simp] theorem Block.toLane_power (b : Block) (p : Nat) (r : MemReq) : (b.toLane p r).power = b.power := rfl
@[simp] theorem Block.toLane_readData (b : Block) (p : Nat) (r : MemReq) : (b.toLane p r).readData = b.readData := rfl
@[simp] theorem Block.toLane_host (b : Block) (p : Nat) (r : MemReq) : (b.toLane p r).host = b.host := rfl
@[simp] theorem Block.toLane_quay (b : Block) (p : Nat) (r : MemReq) : (b.toLane p r).quay = b.quay := rfl
@[simp] theorem Block.toLane_pilot (b : Block) (p : Nat) (r : MemReq) : (b.toLane p r).pilot = b.pilot := rfl
@[simp] theorem Block.toLane_berths (b : Block) (p : Nat) (r : MemReq) : (b.toLane p r).berths = b.berths := rfl
@[simp] theorem Block.toLane_cores (b : Block) (p : Nat) (r : MemReq) : (b.toLane p r).cores = b.cores := rfl
@[simp] theorem Block.toLane_slots (b : Block) (p : Nat) (r : MemReq) : (b.toLane p r).slots = b.slots := rfl
@[simp] theorem Block.toLane_reserveQueue (b : Block) (p : Nat) (r : MemReq) : (b.toLane p r).reserveQueue = b.reserveQueue := rfl
@[simp] theorem Block.toLane_manifest (b : Block) (p : Nat) (r : MemReq) : (b.toLane p r).manifest = b.manifest := rfl
@[simp] theorem Block.toLane_hold (b : Block) (p : Nat) (r : MemReq) : (b.toLane p r).hold = b.hold := rfl
@[simp] theorem Block.toLane_fabric (b : Block) (p : Nat) (r : MemReq) : (b.toLane p r).fabric = b.fabric := rfl
@[simp] theorem Block.toLane_lighters (b : Block) (p : Nat) (r : MemReq) : (b.toLane p r).lighters = b.lighters := rfl
@[simp] theorem Block.toLane_harbour (b : Block) (p : Nat) (r : MemReq) : (b.toLane p r).harbour = b.harbour := rfl
@[simp] theorem Block.toLane_log (b : Block) (p : Nat) (r : MemReq) : (b.toLane p r).log = b.log := rfl
@[simp] theorem Block.toLane_boxes (b : Block) (p : Nat) (r : MemReq) : (b.toLane p r).boxes = b.boxes := rfl
@[simp] theorem Block.toLane_watch (b : Block) (p : Nat) (r : MemReq) : (b.toLane p r).watch = b.watch := rfl
@[simp] theorem Block.toLane_tally (b : Block) (p : Nat) (r : MemReq) : (b.toLane p r).tally = b.tally := rfl
@[simp] theorem Block.toLane_quantumFrom (b : Block) (p : Nat) (r : MemReq) : (b.toLane p r).quantumFrom = b.quantumFrom := rfl

/-! ### What is read after a change of the Hold -/

@[simp] theorem Block.chan_modChan_same (b : Block) (ch : Nat) (f : Channel → Channel) : (b.modChan ch f).chan ch = f (b.chan ch) :=
  tgetD_tput_same ..
theorem Block.chan_modChan_ne (b : Block) {ch j : Nat} (f : Channel → Channel) (h : j ≠ ch) : (b.modChan ch f).chan j = b.chan j :=
  tgetD_tput_ne _ _ _ h
@[simp] theorem Block.stack_modStack_same (b : Block) (h : Nat) (f : Stack → Stack) : (b.modStack h f).stack h = f (b.stack h) :=
  tgetD_tput_same ..
theorem Block.stack_modStack_ne (b : Block) {h j : Nat} (f : Stack → Stack) (hj : j ≠ h) : (b.modStack h f).stack j = b.stack j :=
  tgetD_tput_ne _ _ _ hj
@[simp] theorem Block.stack_modChan (b : Block) (ch h : Nat) (f : Channel → Channel) : (b.modChan ch f).stack h = b.stack h := rfl
@[simp] theorem Block.chan_modStack (b : Block) (ch h : Nat) (f : Stack → Stack) : (b.modStack h f).chan ch = b.chan ch := rfl

/-- A meaning that acts on the block answers a next state whose block is the one it makes, all else unchanged. -/
theorem onBlk_next (s : State) (f : Env → Block → Block) : onBlk s f = .next { s with blk := f s.env s.blk } := rfl

/-- So does one whose operand names an existing unit. -/
theorem onUnit_next {ok : Bool} (h : ok = true) (s : State) (f : Env → Block → Block) :
    onUnit ok s f = .next { s with blk := f s.env s.blk } := by
  subst h; rfl

/-- What a meaning on an existing unit can answer. -/
theorem onUnit_cases (ok : Bool) (s t : State) (f : Env → Block → Block) (h : onUnit ok s f = .next t) :
    ok = true ∧ t = { s with blk := f s.env s.blk } := by
  cases ok with
  | false => cases h
  | true => cases h; exact ⟨rfl, rfl⟩

@[simp] theorem Block.berth_modBerth_same (b : Block) (n : Nat) (f : Berth → Berth) : (b.modBerth n f).berth n = f (b.berth n) := by
  simp [Block.berth, Block.modBerth]

theorem Block.berth_modBerth_ne (b : Block) {n m : Nat} (f : Berth → Berth) (h : m ≠ n) : (b.modBerth n f).berth m = b.berth m := by
  simp [Block.berth, Block.modBerth, tgetD_tput_ne _ _ _ h]

@[simp] theorem Block.rd_modBerth (b : Block) (n : Nat) (f : Berth → Berth) (g : Fld) (i : Nat) : (b.modBerth n f).rd g i = b.rd g i := rfl

@[simp] theorem Block.berth_wr (b : Block) (f : Fld) (i n m : Nat) : (b.wr f i n).berth m = b.berth m := rfl

@[simp] theorem Block.core_modCore_same (b : Block) (g : Nat) (f : Core → Core) : (b.modCore g f).core g = f (b.core g) := by
  simp [Block.core, Block.modCore]

/-- A block whose registers alone differ holds the same berths. -/
theorem Block.berth_congr {b c : Block} (h : b.berths = c.berths) (n : Nat) : b.berth n = c.berth n := by
  simp [Block.berth, h]

/-- Registers read alike in blocks with the same registers. -/
theorem Block.rd_congr {b c : Block} (h : b.regs = c.regs) (f : Fld) (i : Nat) : b.rd f i = c.rd f i := by
  simp [Block.rd, Block.reg, h]

end Sys2Proof.Machine
end

