-- ==== Sys2Proof/Laws/Issue.lean ====
section
/-! SUPPORT. The issue of a berth instruction: which streams issue, what an issued instruction leaves beside its effect, where control goes next. -/

namespace Sys2Proof.Machine

open Sys2Proof

/-- An instance a register table lists is one of the kind's instances. -/
theorem listed_lt {b : Block} {k : RegKind} {i : Nat} (hk : k = .tlBcfg ∨ k = .tlGcfg) (h : i ∈ b.listed k) : i < k.count := by
  unfold Block.listed at h
  rw [List.mem_filterMap] at h
  obtain ⟨x, _, hx⟩ := h
  rcases hk with rfl | rfl <;>
  · simp only [RegKind.index?] at hx
    split at hx
    · cases hx; omega
    · cases hx

/-- Setting a Tally counter leaves the registers outside Tally's counters alone. -/
theorem countIn_tally (b : Block) (i n : Nat) (c o : Fld)
    (hc : (c.kind = .tlBcnt ∧ o.kind = .tlBcnt ∧ i < 1024) ∨ (c.kind = .tlGcnt ∧ o.kind = .tlGcnt ∧ i < 256))
    (a : Nat) (ha : ¬ tallyAddr a) : tget (b.countIn c o i n).regs a = tget b.regs a := by
  have h1 : a ≠ c.kind.addr i := by
    rintro rfl
    rcases hc with h | h
    · exact ha (.inl ⟨i, h.2.2, by rw [h.1]⟩)
    · exact ha (.inr ⟨i, h.2.2, by rw [h.1]⟩)
  have h2 : a ≠ o.kind.addr i := by
    rintro rfl
    rcases hc with h | h
    · exact ha (.inl ⟨i, h.2.2, by rw [h.2.1]⟩)
    · exact ha (.inr ⟨i, h.2.2, by rw [h.2.1]⟩)
  unfold Block.countIn
  dsimp only
  split
  · simp only [Block.wr, Block.setReg]
    rw [tget_tput_ne _ _ h2, tget_tput_ne _ _ h1]
  · simp only [Block.wr, Block.setReg]
    rw [tget_tput_ne _ _ h1]

theorem foldl_tally {α : Type} (f : Block → α → Block) (a : Nat) (l : List α)
    (hf : ∀ b x, x ∈ l → tget (f b x).regs a = tget b.regs a) (b : Block) :
    tget (l.foldl f b).regs a = tget b.regs a := by
  induction l generalizing b with
  | nil => rfl
  | cons x l ih =>
    rw [List.foldl_cons, ih fun b y hy => hf b y (List.mem_cons_of_mem _ hy), hf b x (List.mem_cons_self ..)]

/-- Counting events of a berth changes Tally's counters alone. -/
theorem tallyB_regs (b : Block) (n : Nat) (w : Option Nat) (c s k a : Nat) (ha : ¬ tallyAddr a) :
    tget (b.tallyB n w c s k).regs a = tget b.regs a := by
  unfold Block.tallyB
  dsimp only
  rw [foldl_tally _ a _ fun b i hi => countIn_tally b i k _ _ (.inr ⟨rfl, rfl, listed_lt (.inr rfl) (List.mem_of_mem_filter hi)⟩) a ha,
    foldl_tally _ a _ fun b i hi => countIn_tally b i k _ _ (.inl ⟨rfl, rfl, listed_lt (.inl rfl) (List.mem_of_mem_filter hi)⟩) a ha]

/-- Counting events of the block changes Tally's counters alone. -/
theorem tallyG_regs (b : Block) (w : Option Nat) (c s k a : Nat) (ha : ¬ tallyAddr a) :
    tget (b.tallyG w c s k).regs a = tget b.regs a := by
  unfold Block.tallyG
  dsimp only
  rw [foldl_tally _ a _ fun b i hi => countIn_tally b i k _ _ (.inr ⟨rfl, rfl, listed_lt (.inr rfl) (List.mem_of_mem_filter hi)⟩) a ha]

@[simp] theorem Block.berth_tallyB (b : Block) (n : Nat) (w : Option Nat) (c s k m : Nat) : (b.tallyB n w c s k).berth m = b.berth m :=
  Block.berth_congr (Block.tallyB_berths ..) m

theorem IssueFrame.refl (b : Block) (n : Nat) : IssueFrame b b n := ⟨fun _ _ => rfl, rfl, fun _ _ => rfl⟩

theorem IssueFrame.trans {b c d : Block} {n : Nat} (h : IssueFrame b c n) (k : IssueFrame c d n) : IssueFrame b d n := by
  refine ⟨fun a ha => (k.1 a ha).trans (h.1 a ha), ?_, fun m hm => (k.2.2 m hm).trans (h.2.2 m hm)⟩
  have h1 := h.2.1
  have h2 := k.2.1
  rw [h1] at h2
  exact h2

/-- Counting a berth's events is within the frame. -/
theorem tallyB_issueFrame (b : Block) (n m : Nat) (w : Option Nat) (c s k : Nat) : IssueFrame b (b.tallyB m w c s k) n := by
  refine ⟨fun a ha => tallyB_regs b m w c s k a ha, ?_, fun m' _ => by simp⟩
  rw [Block.tallyB_frame]

/-- Changing berth n is within the frame of berth n. -/
theorem modBerth_issueFrame (b : Block) (n : Nat) (f : Berth → Berth) : IssueFrame b (b.modBerth n f) n :=
  ⟨fun _ _ => rfl, rfl, fun _ hm => Block.berth_modBerth_ne b f hm⟩

/-- A draw is within the frame. -/
theorem draw_issueFrame (b : Block) (n : Nat) : IssueFrame b b.draw.2 n := ⟨fun _ _ => rfl, rfl, fun _ _ => rfl⟩

/-- What every issued instruction leaves beside its effect keeps the berth's registers, stream and queues. -/
theorem issued_spec (b : Block) (c : Cx) :
    IssueFrame b (b.issued c) c.n ∧ ((b.issued c).berth c.n).regs = (b.berth c.n).regs ∧ ((b.issued c).berth c.n).stream = (b.berth c.n).stream ∧
    ((b.issued c).berth c.n).me0 = (b.berth c.n).me0 ∧ ((b.issued c).berth c.n).me1 = (b.berth c.n).me1 ∧
    ((b.issued c).berth c.n).icache = (b.berth c.n).icache := by
  unfold Block.issued
  dsimp only
  have h0 := tallyB_issueFrame b c.n c.n (some c.s.slice) 0x001 0 1
  have h1 := h0.trans (modBerth_issueFrame _ c.n fun x => { x with trail := ((c.s.pc, c.f.op) :: x.trail).take 256, progress := c.e.now })
  split
  · split
    · refine ⟨(h1.trans (draw_issueFrame _ c.n)).trans (modBerth_issueFrame _ c.n _), ?_⟩
      simp [Block.draw]
      refine ⟨?_, ?_, ?_, ?_, ?_⟩ <;> (unfold Block.berth Block.modBerth; simp [Block.berth])
    · exact ⟨h1.trans (modBerth_issueFrame _ c.n _), by simp⟩
  · exact ⟨h1, by simp⟩

/-- Control reaches an offset in the code: the stream stands there, and waits where the line is not cached. -/
theorem reach_spec (b : Block) (e : Env) (n pc : Nat) (st : Stream) (hs : (b.berth n).stream = some st)
    (hw : st.wait = none) (hin : st.inCode pc) :
    IssueFrame b (b.reach e n pc) n ∧ ((b.reach e n pc).berth n).regs = (b.berth n).regs ∧
    ((b.reach e n pc).berth n).stream = some (st.movedTo (b.berth n) pc) ∧
    ((b.reach e n pc).berth n).me0 = (b.berth n).me0 ∧ ((b.reach e n pc).berth n).me1 = (b.berth n).me1 := by
  obtain ⟨hc, hl⟩ := hin
  have hs1 : ((b.modStream n fun s => { s with pc := pc }).berth n).stream = some { st with pc := pc } := by
    simp [Block.modStream, hs]
  unfold Block.reach
  simp only [hs1]
  have h1 : ¬ (pc < st.codeOff ∨ st.codeOff + st.codeLen < pc + 16) := by omega
  rw [if_neg h1]
  have hln : ((b.modStream n fun s => { s with pc := pc }).berth n).hasLine st.prog (pc / 128) = (b.berth n).hasLine st.prog (pc / 128) := by
    simp [Block.modStream, Berth.hasLine]
  rw [hln]
  have f1 : IssueFrame b (b.modStream n fun s => { s with pc := pc }) n := modBerth_issueFrame b n _
  by_cases hit : (b.berth n).hasLine st.prog (pc / 128) = true
  · rw [if_pos hit]
    refine ⟨f1.trans (modBerth_issueFrame _ n _), ?_⟩
    cases st
    simp_all [Block.modStream, Berth.touchLine, Stream.movedTo]
  · rw [if_neg hit]
    refine ⟨(f1.trans (modBerth_issueFrame _ n _)).trans (tallyB_issueFrame _ n n _ _ _ _), ?_⟩
    simp [Block.modStream, hs, Stream.movedTo, hit]

/-- The fall-through of a stream that goes on: it stands at the next instruction. -/
theorem next_spec (b : Block) (c : Cx) (st : Stream) (hs : (b.berth c.n).stream = some st) (hw : st.wait = none) (hgo : st.stopped = false)
    (hc : st.inCode (c.s.pc + 16)) :
    IssueFrame b (b.next c) c.n ∧ ((b.next c).berth c.n).regs = (b.berth c.n).regs ∧
    ((b.next c).berth c.n).stream = some (st.movedTo (b.berth c.n) (c.s.pc + 16)) ∧
    ((b.next c).berth c.n).me0 = (b.berth c.n).me0 ∧ ((b.next c).berth c.n).me1 = (b.berth c.n).me1 := by
  have : b.next c = b.reach c.e c.n (c.s.pc + 16) := by simp [Block.next, hs, hgo]
  rw [this]
  exact reach_spec b c.e c.n (c.s.pc + 16) st hs hw hc

/-- Registers written, then the fall-through. -/
theorem regs_spec (b : Block) (c : Cx) (r : Regs) (st : Stream) (hs : (b.berth c.n).stream = some st) (hw : st.wait = none) (hgo : st.stopped = false)
    (hc : st.inCode (c.s.pc + 16)) :
    IssueFrame b (c.regs b r) c.n ∧ ((c.regs b r).berth c.n).regs = r ∧
    ((c.regs b r).berth c.n).stream = some (st.movedTo (b.berth c.n) (c.s.pc + 16)) ∧
    ((c.regs b r).berth c.n).me0 = (b.berth c.n).me0 ∧ ((c.regs b r).berth c.n).me1 = (b.berth c.n).me1 := by
  have h := next_spec (b.modRegs c.n fun _ => r) c st (by simpa [Block.modRegs] using hs) hw hgo hc
  have hb : (b.modRegs c.n fun _ => r).berth c.n = { b.berth c.n with regs := r } := by simp [Block.modRegs]
  rw [hb] at h
  exact ⟨(modBerth_issueFrame b c.n _).trans h.1, h.2⟩

/-- What a stream that can issue is: on a berth that runs, it waits for nothing, has not ended and has not stopped. -/
theorem issuer_spec {b : Block} {n : Nat} {st : Stream} (h : b.issuer n = some st) :
    (b.berth n).stream = some st ∧ st.wait = none ∧ st.ended = false ∧ st.stopped = false ∧
    (b.bstate n = bsRunning ∨ b.bstate n = bsToMoor) ∧ (b.berth n).saving = none ∧ (b.berth n).resetting = none := by
  unfold Block.issuer at h
  simp only at h
  split at h
  · cases h
  · rename_i s hs
    split at h
    · rename_i hc
      cases h
      exact ⟨hs, hc.2.1, by simpa using hc.2.2.1, by simpa using hc.2.2.2.1, hc.1, hc.2.2.2.2.1, hc.2.2.2.2.2⟩
    · cases h

/-- An instruction that issues and fails no check has its effect. -/
theorem berthInstr_gives {s : State} {n : Nat} {row : BRow} {w : IWord} {st : Stream} (h : CanIssue s n row w st)
    (checks : Cx → List Check) (act : Cx → Block → Block) (hc : firstReason (checks (s.cx n w st)) = none) :
    berthInstr row n w s checks act = .next { s with blk := act (s.cx n w st) (s.blk.issued (s.cx n w st)) } := by
  obtain ⟨hn, hr, hi⟩ := h
  have : (decide (n < 16) && isRow row w) = true := by simp [hn, hr]
  unfold berthInstr
  rw [onUnit_next this]
  unfold Block.issue
  rw [hi]
  simp only
  unfold State.cx at hc ⊢
  rw [hc]

/-- The same where the effect writes registers and falls through. -/
theorem berthInstr_regs {s : State} {n : Nat} {row : BRow} {w : IWord} {st : Stream} (h : CanIssue s n row w st)
    (checks : Cx → List Check) (act : Cx → Block → Block) (hc : firstReason (checks (s.cx n w st)) = none) (r : Regs)
    (ha : act (s.cx n w st) (s.blk.issued (s.cx n w st)) = (s.cx n w st).regs (s.blk.issued (s.cx n w st)) r)
    (hin : st.inCode (st.pc + 16)) (i : Instr) (hi : exec i s = berthInstr row n w s checks act) :
    Issued s i n r (st.movedTo (s.blk.berth n) (st.pc + 16)) := by
  have hg := berthInstr_gives h checks act hc
  obtain ⟨hn, hr, hss⟩ := h
  obtain ⟨k1, k2, k3, k4, k5, k6⟩ := issued_spec s.blk (s.cx n w st)
  obtain ⟨i1, i2, _, i4, _⟩ := issuer_spec hss
  have hr := regs_spec (s.blk.issued (s.cx n w st)) (s.cx n w st) r st (k3.trans i1) i2 i4 hin
  refine ⟨_, (hi.trans hg).trans (by rw [ha]), hr.2.1, ?_, hr.2.2.2.1.trans k4, hr.2.2.2.2.trans k5, k1.trans hr.1⟩
  refine hr.2.2.1.trans ?_
  simp only [Stream.movedTo, Berth.hasLine, k6]
  rfl

end Sys2Proof.Machine
end

