-- ==== Sys2Proof/Laws/Memory.lean ====
section
/-! SUPPORT. The berth store: a read after a write, and that every operation on a store keeps its canonical form. -/

namespace Sys2Proof.Machine

open Sys2Proof

/-- A store sorted from lo on is sorted from any lower bound on. -/
theorem memSorted_mono {m : List Host.Cell} {lo lo' : Nat} (h : lo' ≤ lo) (hm : memSorted lo m = true) : memSorted lo' m = true := by
  cases m with
  | nil => rfl
  | cons x m =>
    obtain ⟨i, v⟩ := x
    simp only [memSorted, Bool.and_eq_true, decide_eq_true_eq] at hm ⊢
    exact ⟨⟨by omega, hm.1.2⟩, hm.2⟩

/-- A byte below every entry reads as unlisted. -/
theorem memGet_below {m : List Host.Cell} {lo a : Nat} (hm : memSorted lo m = true) (h : a < lo) : memGet m a = storeDefault := by
  cases m with
  | nil => rfl
  | cons x m =>
    obtain ⟨i, v⟩ := x
    simp only [memSorted, Bool.and_eq_true, decide_eq_true_eq] at hm
    have h1 : ¬ i = a := by omega
    have h2 : a < i := by omega
    simp [memGet, h1, h2]

/-- A written byte reads back. -/
theorem memGet_memPut_same {m : List Host.Cell} {lo : Nat} (hm : memSorted lo m = true) (a : Nat) (v : Byte) :
    memGet (memPut m a v) a = v := by
  induction m generalizing lo with
  | nil =>
    by_cases h : v = storeDefault <;> simp [memPut, memGet, h]
  | cons x m ih =>
    obtain ⟨i, y⟩ := x
    simp only [memSorted, Bool.and_eq_true, decide_eq_true_eq] at hm
    simp only [memPut]
    by_cases h1 : a < i
    · rw [if_pos h1]
      by_cases hv : v = storeDefault
      · rw [if_pos hv]
        simp [memGet, show ¬ i = a by omega, h1, hv]
      · rw [if_neg hv]; simp [memGet]
    · rw [if_neg h1]
      by_cases h2 : i = a
      · rw [if_pos h2]
        by_cases hv : v = storeDefault
        · rw [if_pos hv, hv]
          exact memGet_below hm.2 (by omega)
        · rw [if_neg hv]; simp [memGet]
      · rw [if_neg h2]
        simp only [memGet]
        rw [if_neg h2, if_neg h1]
        exact ih hm.2

/-- A write leaves every other byte alone. -/
theorem memGet_memPut_ne {m : List Host.Cell} {lo : Nat} (hm : memSorted lo m = true) {a c : Nat} (v : Byte) (h : c ≠ a) :
    memGet (memPut m a v) c = memGet m c := by
  induction m generalizing lo with
  | nil =>
    by_cases hv : v = storeDefault
    · simp [memPut, hv]
    · simp [memPut, hv, memGet, h.symm]
  | cons x m ih =>
    obtain ⟨i, y⟩ := x
    simp only [memSorted, Bool.and_eq_true, decide_eq_true_eq] at hm
    simp only [memPut]
    by_cases h1 : a < i
    · rw [if_pos h1]
      by_cases hv : v = storeDefault
      · rw [if_pos hv]
      · rw [if_neg hv]
        simp only [memGet]
        rw [if_neg (by omega : ¬ a = c)]
        by_cases h3 : c < a
        · rw [if_pos h3, if_neg (by omega : ¬ i = c), if_pos (by omega : c < i)]
        · rw [if_neg h3]
    · rw [if_neg h1]
      by_cases h2 : i = a
      · rw [if_pos h2]
        by_cases hv : v = storeDefault
        · rw [if_pos hv]
          simp only [memGet]
          rw [if_neg (by omega : ¬ i = c)]
          by_cases h3 : c < i
          · rw [if_pos h3]
            exact memGet_below hm.2 (by omega)
          · rw [if_neg h3]
        · rw [if_neg hv]
          have h3 : ¬ i = c := by omega
          simp only [memGet, ← h2]
          rw [if_neg h3, if_neg h3]
      · rw [if_neg h2]
        simp only [memGet, ih hm.2]

/-- A byte write keeps the canonical form. -/
theorem memSorted_memPut {m : List Host.Cell} {lo a : Nat} (hm : memSorted lo m = true) (ha : lo ≤ a) (v : Byte) :
    memSorted lo (memPut m a v) = true := by
  induction m generalizing lo with
  | nil =>
    by_cases hv : v = storeDefault
    · simp [memPut, hv, memSorted]
    · simp [memPut, hv, memSorted, ha]
  | cons x m ih =>
    obtain ⟨i, y⟩ := x
    have hm0 := hm
    simp only [memSorted, Bool.and_eq_true, decide_eq_true_eq] at hm
    simp only [memPut]
    by_cases h1 : a < i
    · rw [if_pos h1]
      by_cases hv : v = storeDefault
      · rw [if_pos hv]; exact hm0
      · rw [if_neg hv]
        simp only [memSorted, Bool.and_eq_true, decide_eq_true_eq]
        exact ⟨⟨ha, hv⟩, ⟨by omega, hm.1.2⟩, hm.2⟩
    · rw [if_neg h1]
      by_cases h2 : i = a
      · rw [if_pos h2]
        by_cases hv : v = storeDefault
        · rw [if_pos hv]; exact memSorted_mono (by omega) hm.2
        · rw [if_neg hv]
          simp only [memSorted, Bool.and_eq_true, decide_eq_true_eq]
          exact ⟨⟨ha, hv⟩, by rw [← h2]; exact hm.2⟩
      · rw [if_neg h2]
        simp only [memSorted, Bool.and_eq_true, decide_eq_true_eq]
        exact ⟨hm.1, ih hm.2 (by omega)⟩

/-- A byte write keeps the canonical form of a store. -/
theorem memPut_wf {m : List Host.Cell} (h : Memory.wf m) (a : Nat) (v : Byte) : Memory.wf (memPut m a v) :=
  memSorted_memPut h (Nat.zero_le a) v

/-- A write of a byte string keeps the canonical form of a store. -/
theorem memWrite_wf {m : List Host.Cell} (h : Memory.wf m) (a : Nat) (l : List Byte) : Memory.wf (memWrite m a l) := by
  induction l generalizing m a with
  | nil => exact h
  | cons v l ih => exact ih (memPut_wf h a v) (a + 1)

/-- A byte outside a written range keeps its value. -/
theorem memGet_memWrite_out {m : List Host.Cell} (h : Memory.wf m) (a c : Nat) (l : List Byte) (hc : c < a ∨ a + l.length ≤ c) :
    memGet (memWrite m a l) c = memGet m c := by
  induction l generalizing m a with
  | nil => rfl
  | cons v l ih =>
    simp only [List.length_cons] at hc
    rw [memWrite, ih (memPut_wf h a v) (a + 1) (by omega), memGet_memPut_ne h v (by omega)]

/-- A written range reads back. -/
theorem memGet_memWrite_in {m : List Host.Cell} (h : Memory.wf m) (a i : Nat) (l : List Byte) (hi : i < l.length) :
    memGet (memWrite m a l) (a + i) = l[i] := by
  induction l generalizing m a i with
  | nil => simp at hi
  | cons v l ih =>
    cases i with
    | zero =>
      rw [memWrite, memGet_memWrite_out (memPut_wf h a v) _ _ _ (by omega)]
      simpa using memGet_memPut_same h a v
    | succ i =>
      have := ih (memPut_wf h a v) (a + 1) i (by simpa using hi)
      simpa [memWrite, Nat.add_assoc, Nat.add_comm 1 i] using this

/-- Leaving out entries keeps a store sorted. -/
theorem memSorted_filter {m : List Host.Cell} {lo : Nat} (h : memSorted lo m = true) (p : Host.Cell → Bool) :
    memSorted lo (m.filter p) = true := by
  induction m generalizing lo with
  | nil => rfl
  | cons x m ih =>
    obtain ⟨i, v⟩ := x
    simp only [memSorted, Bool.and_eq_true, decide_eq_true_eq] at h
    rw [List.filter_cons]
    split
    · simp only [memSorted, Bool.and_eq_true, decide_eq_true_eq]
      exact ⟨h.1, ih h.2⟩
    · exact memSorted_mono (by omega) (ih h.2)

/-- A save's choice of store regions keeps the canonical form. -/
theorem filter_wf {m : List Host.Cell} (h : Memory.wf m) (p : Host.Cell → Bool) : Memory.wf (m.filter p) :=
  memSorted_filter h p

/-- A scrubbed store has the canonical form, and a berth after reset has it. -/
theorem reset_store_wf : Memory.wf Berth.reset.regs.store := rfl

end Sys2Proof.Machine
end

