-- ==== Sys2Proof/Laws/SlotCode.lean ====
section
/-! SUPPORT. The slot code (R359 to R361): the field's products, the generator as a codeword, what leading zeros add to syndromes, symbols in bytes, and what decoding makes of an unwritten slot, of one with a wrong integrity tag and of one with a wrong symbol. -/

namespace Sys2Proof.Machine

open Sys2Proof

/-! ### Zeros -/

theorem gfMulBits_zero (n : Nat) : ∀ a, gfMulBits n a 0 = 0 := by
  induction n with
  | zero => intro a; rfl
  | succ n ih => intro a; simp [gfMulBits, gfDouble, ih]

@[simp] theorem gfMul_zero (a : Nat) : gfMul a 0 = 0 := gfMulBits_zero 12 a

theorem ofLeBytes_zeros (n : Nat) : ofLeBytes (List.replicate n 0) = 0 := by
  induction n with
  | zero => rfl
  | succ n ih => rw [List.replicate_succ, ofLeBytes, ih]; rfl

theorem leBytes_zero (n : Nat) : leBytes n 0 = List.replicate n 0 := by
  induction n with
  | zero => rfl
  | succ n ih => simp [List.replicate_succ, leBytes, ih]

theorem symbolsOf_zeros (n : Nat) : symbolsOf (List.replicate n 0) = List.replicate (cdiv (8 * n) 12) 0 := by
  simp only [symbolsOf, ofLeBytes_zeros, List.length_replicate, Nat.zero_div, Nat.zero_mod]
  rw [List.map_const', List.length_range]

theorem foldl_fixed {α β : Type} (f : α → β → α) (a : α) (x : β) (h : f a x = a) (n : Nat) : (List.replicate n x).foldl f a = a := by
  induction n with
  | zero => rfl
  | succ n ih => simp [List.replicate_succ, h, ih]

theorem crc64_zeros (n : Nat) : crc64 (List.replicate n 0) = 0 := foldl_fixed _ _ _ (by decide +kernel) n

theorem fromSymbols_zeros (n : Nat) : (List.replicate n 0).foldr (fun s v => s + 4096 * v) 0 = 0 := by
  induction n with
  | zero => rfl
  | succ n ih => simp [List.replicate_succ, ih]

theorem field_zeros (n off len : Nat) : field (List.replicate n 0) off len = 0 := by
  rw [field, List.drop_replicate, List.take_replicate]
  exact ofLeBytes_zeros _

/-! ### The field's products -/

/-- Doubling as a shift and a reduction. -/
theorem gfDouble_table : ∀ a : Fin 64, ∀ b : Fin 64, gfDouble (64 * a.val + b.val) = 2 * (64 * a.val + b.val) ^^^ (if (64 * a.val + b.val).testBit 11 then 0x1053 else 0) := by
  decide +kernel

theorem gfDouble_eq (v : Nat) (h : v < 4096) : gfDouble v = 2 * v ^^^ (if v.testBit 11 then 0x1053 else 0) := by
  have := gfDouble_table ⟨v / 64, by omega⟩ ⟨v % 64, by omega⟩
  simpa [Nat.div_add_mod] using this

theorem gfDouble_lt {v : Nat} (h : v < 4096) : gfDouble v < 4096 := by
  unfold gfDouble
  split
  · exact Nat.xor_lt_two_pow (n := 12) (by omega) (by omega)
  · omega

theorem xor_lt {x y : Nat} (hx : x < 4096) (hy : y < 4096) : x ^^^ y < 4096 := Nat.xor_lt_two_pow (n := 12) hx hy

theorem gfDouble_xor {x y : Nat} (hx : x < 4096) (hy : y < 4096) : gfDouble (x ^^^ y) = gfDouble x ^^^ gfDouble y := by
  rw [gfDouble_eq _ (xor_lt hx hy), gfDouble_eq _ hx, gfDouble_eq _ hy, Nat.testBit_xor]
  have h2 : 2 * (x ^^^ y) = 2 * x ^^^ 2 * y := by
    simpa [Nat.shiftLeft_eq, Nat.mul_comm] using Nat.shiftLeft_xor_distrib (a := x) (b := y) (i := 1)
  rw [h2]
  cases x.testBit 11 <;> cases y.testBit 11 <;> simp [Nat.xor_assoc, Nat.xor_comm, Nat.xor_left_comm]

theorem gfMulBits_lt (n : Nat) : ∀ a c, c < 4096 → gfMulBits n a c < 4096 := by
  induction n with
  | zero => intro a c _; exact Nat.zero_lt_succ _
  | succ n ih => intro a c h; exact xor_lt (by split <;> omega) (ih _ _ (gfDouble_lt h))

theorem gfMulBits_xor (n : Nat) : ∀ a c d, c < 4096 → d < 4096 → gfMulBits n a (c ^^^ d) = gfMulBits n a c ^^^ gfMulBits n a d := by
  induction n with
  | zero => intros; exact (Nat.xor_self 0).symm
  | succ n ih =>
    intro a c d hc hd
    simp only [gfMulBits]
    rw [gfDouble_xor hc hd, ih _ _ _ (gfDouble_lt hc) (gfDouble_lt hd)]
    split <;> simp [Nat.xor_assoc, Nat.xor_left_comm]

theorem gfMulBits_double (n : Nat) : ∀ a c, c < 4096 → gfMulBits n a (gfDouble c) = gfDouble (gfMulBits n a c) := by
  induction n with
  | zero => intros; rfl
  | succ n ih =>
    intro a c hc
    simp only [gfMulBits]
    rw [ih _ _ (gfDouble_lt hc), gfDouble_xor (by split <;> omega) (gfMulBits_lt _ _ _ (gfDouble_lt hc))]
    congr 1
    split <;> rfl

theorem gfMulBits_comm (n m : Nat) : ∀ a b c, c < 4096 → gfMulBits n a (gfMulBits m b c) = gfMulBits m b (gfMulBits n a c) := by
  induction m with
  | zero => intro a b c _; exact gfMulBits_zero n a
  | succ m ih =>
    intro a b c hc
    simp only [gfMulBits]
    rw [gfMulBits_xor _ _ _ _ (by split <;> omega) (gfMulBits_lt _ _ _ (gfDouble_lt hc)), ih _ _ _ (gfDouble_lt hc), gfMulBits_double _ _ _ hc]
    congr 1
    split
    · rfl
    · exact gfMulBits_zero n a

/-! ### The generator is a codeword (R360) -/

/-- A polynomial's value, highest degree first, on top of what its higher terms gave. -/
def gfHorner (y : Nat) (g : List Nat) (s : Nat) : Nat := g.foldl (fun s c => gfMul y s ^^^ c) s

theorem gfHorner_lt (y : Nat) : ∀ g s, s < 4096 → (∀ c ∈ g, c < 4096) → gfHorner y g s < 4096
  | [], _, h, _ => h
  | c :: g, _, h, hg => gfHorner_lt y g _ (xor_lt (gfMulBits_lt _ _ _ h) (hg c (List.mem_cons_self ..))) fun d hd => hg d (List.mem_cons_of_mem _ hd)

theorem gfHorner_zip (y : Nat) : ∀ p q s t, p.length = q.length → s < 4096 → t < 4096 → (∀ c ∈ p, c < 4096) → (∀ c ∈ q, c < 4096) →
    gfHorner y (List.zipWith (· ^^^ ·) p q) (s ^^^ t) = gfHorner y p s ^^^ gfHorner y q t
  | [], [], _, _, _, _, _, _, _ => rfl
  | c :: p, d :: q, s, t, hl, hs, ht, hp, hq => by
    have hc := hp c (List.mem_cons_self ..)
    have hd := hq d (List.mem_cons_self ..)
    have h := gfHorner_zip y p q (gfMul y s ^^^ c) (gfMul y t ^^^ d) (by simpa using hl) (xor_lt (gfMulBits_lt _ _ _ hs) hc)
      (xor_lt (gfMulBits_lt _ _ _ ht) hd) (fun e he => hp e (List.mem_cons_of_mem _ he)) (fun e he => hq e (List.mem_cons_of_mem _ he))
    rw [show gfHorner y (c :: p) s = gfHorner y p (gfMul y s ^^^ c) from rfl, show gfHorner y (d :: q) t = gfHorner y q (gfMul y t ^^^ d) from rfl, ← h]
    show gfHorner y _ (gfMul y (s ^^^ t) ^^^ (c ^^^ d)) = _
    rw [gfMul, gfMulBits_xor _ _ _ _ hs ht]
    congr 1
    simp [gfMul, Nat.xor_assoc, Nat.xor_comm, Nat.xor_left_comm]

theorem gfHorner_scale (y r : Nat) : ∀ g s, s < 4096 → (∀ c ∈ g, c < 4096) → gfHorner y (g.map (gfMul r)) (gfMul r s) = gfMul r (gfHorner y g s)
  | [], _, _, _ => rfl
  | c :: g, s, hs, hg => by
    have hc := hg c (List.mem_cons_self ..)
    show gfHorner y _ (gfMul y (gfMul r s) ^^^ gfMul r c) = _
    rw [show gfMul y (gfMul r s) ^^^ gfMul r c = gfMul r (gfMul y s ^^^ c) from by
      simp only [gfMul]
      rw [gfMulBits_comm _ _ _ _ _ hs, ← gfMulBits_xor _ _ _ _ (gfMulBits_lt _ _ _ hs) hc]]
    exact gfHorner_scale y r g _ (xor_lt (gfMulBits_lt _ _ _ hs) hc) fun d hd => hg d (List.mem_cons_of_mem _ hd)

/-- Multiplying a polynomial by x − r multiplies its value at y by y − r. -/
theorem gfHorner_timesRoot (y r : Nat) (g : List Nat) (hg : ∀ c ∈ g, c < 4096) :
    gfHorner y (timesRoot g r) 0 = gfMul y (gfHorner y g 0) ^^^ gfMul r (gfHorner y g 0) := by
  have h := gfHorner_zip y (g ++ [0]) (0 :: g.map (gfMul r)) 0 0 (by simp) (by omega) (by omega)
    (fun c hc => by rcases List.mem_append.mp hc with h | h; exact hg c h; simp at h; omega)
    (fun c hc => by
      rcases List.mem_cons.mp hc with h | h
      · omega
      · obtain ⟨d, hd, rfl⟩ := List.mem_map.mp h; exact gfMulBits_lt _ _ _ (hg d hd))
  rw [timesRoot]
  refine h.trans ?_
  congr 1
  · simp [gfHorner]
  · have h' := gfHorner_scale y r g 0 (by omega) hg
    rw [gfMul_zero] at h'
    rw [← h']
    simp [gfHorner]

theorem timesRoot_lt (g : List Nat) (r : Nat) (hg : ∀ c ∈ g, c < 4096) : ∀ c ∈ timesRoot g r, c < 4096 := by
  intro c hc
  obtain ⟨i, hi, rfl⟩ := List.mem_iff_getElem.mp hc
  simp only [timesRoot, List.getElem_zipWith]
  refine xor_lt ?_ ?_
  · rcases List.mem_append.mp (List.getElem_mem (l := g ++ [0]) (n := i) (by simp [timesRoot] at hi ⊢; omega)) with h | h
    · exact hg _ h
    · simp only [List.mem_singleton] at h; omega
  · rcases List.mem_cons.mp (List.getElem_mem (l := 0 :: g.map (gfMul r)) (n := i) (by simp [timesRoot] at hi ⊢; omega)) with h | h
    · omega
    · obtain ⟨d, hd, he⟩ := List.mem_map.mp h; rw [← he]; exact gfMulBits_lt _ _ _ (hg d hd)

theorem rsGenerator_succ (n : Nat) : rsGenerator (n + 1) = timesRoot (rsGenerator n) (gfPow (n + 1)) := by
  simp [rsGenerator, List.range_succ]

theorem rsGenerator_spec (n : Nat) : (∀ c ∈ rsGenerator n, c < 4096) ∧ (rsGenerator n).length = n + 1 ∧ (rsGenerator n).head? = some 1 ∧
    ∀ i, i < n → gfHorner (gfPow (i + 1)) (rsGenerator n) 0 = 0 := by
  induction n with
  | zero => exact ⟨by decide, rfl, rfl, fun i h => absurd h (Nat.not_lt_zero _)⟩
  | succ n ih =>
    obtain ⟨hlt, hlen, hhd, hroot⟩ := ih
    rw [rsGenerator_succ]
    refine ⟨timesRoot_lt _ _ hlt, by simp [timesRoot, hlen], ?_, fun i hi => ?_⟩
    · cases h : rsGenerator n with
      | nil => simp [h] at hhd
      | cons a g => simp [h] at hhd; simp [timesRoot, hhd]
    · rw [gfHorner_timesRoot _ _ _ hlt]
      rcases Nat.lt_succ_iff_lt_or_eq.mp hi with h | rfl
      · rw [hroot i h]; simp
      · exact Nat.xor_self _

/-- The generator is a codeword (R360). -/
theorem syndromes_generator (n : Nat) : (syndromes n (rsGenerator n)).all (· = 0) = true := by
  simp only [syndromes, List.all_map, List.all_eq_true, List.mem_range, Function.comp, decide_eq_true_eq]
  exact fun i hi => (rsGenerator_spec n).2.2.2 i hi
/-! ### Syndromes -/

/-- Leading zeros leave the syndromes as they are. -/
theorem syndromes_zeros_append (n k : Nat) (w : List Nat) : syndromes n (List.replicate k 0 ++ w) = syndromes n w := by
  simp only [syndromes, List.foldl_append]
  refine List.map_congr_left fun i _ => ?_
  rw [foldl_fixed _ 0 0 (by simp) k]

/-- A word of zeros is a codeword. -/
theorem syndromes_zeros (n k : Nat) : (syndromes n (List.replicate k 0)).all (· = 0) = true := by
  rw [← List.append_nil (List.replicate k 0), syndromes_zeros_append]
  simp [syndromes]

/-- A codeword decodes to itself. -/
theorem rsCorrect_codeword (t : Nat) (w : List Nat) (h : (syndromes 128 w).all (· = 0) = true) : rsCorrect t w = some (w, 0) := by
  unfold rsCorrect
  exact if_pos h

/-! ### Slots -/

/-- Senses in the parts decoding takes: data, parity, metadata. -/
theorem decodeAt_parts (t : Nat) (d p m : List Byte) (hd : d.length = 4096) (hp : p.length = 192) (hm : m.length = 64) :
    decodeAt t (d ++ p ++ m) = match rsCorrect t (symbolsOf (d ++ m) ++ symbolsOf p) with
      | none => none
      | some (w, n) =>
        let x := leBytes 4160 ((w.take (symbolsOf (d ++ m)).length).foldr (fun s v => s + 4096 * v) 0)
        if crc64 (x.take 4152) = field x 4152 8 then some (slotWord x, n) else none := by
  have e1 : (d ++ p ++ m).take 4096 = d := by rw [List.append_assoc, List.take_append_of_le_length (by omega), List.take_of_length_le (by omega)]
  have e2 : ((d ++ p ++ m).drop 4288).take 64 = m := by
    rw [List.drop_append, List.drop_of_length_le (by simp; omega), List.length_append, hd, hp]
    simp [hm]
  have e3 : ((d ++ p ++ m).drop 4096).take 192 = p := by
    rw [List.append_assoc, List.drop_append, List.drop_of_length_le (by omega), hd]
    simp [hp]
  unfold decodeAt
  rw [e1, e2, e3] <;> rfl

/-- A slot of zeros decodes as it is, whatever the strength: its parity and its TAG are zero. -/
theorem decodeAt_zeros (t : Nat) : decodeAt t (List.replicate 4352 0) = some (slotWord (List.replicate 4160 0), 0) := by
  have h := decodeAt_parts t (List.replicate 4096 0) (List.replicate 192 0) (List.replicate 64 0) List.length_replicate List.length_replicate List.length_replicate
  simp only [List.replicate_append_replicate] at h
  rw [h, symbolsOf_zeros, symbolsOf_zeros, List.replicate_append_replicate, rsCorrect_codeword t _ (syndromes_zeros _ _)]
  simp only [List.take_replicate, List.length_replicate, fromSymbols_zeros, leBytes_zero]
  rw [crc64_zeros, field_zeros]
  rfl

/-- A codeword whose TAG does not match its data and metadata fails to decode at every strength (R361). -/
theorem decodeAt_wrong_tag (t : Nat) (d p m : List Byte) (hd : d.length = 4096) (hp : p.length = 192) (hm : m.length = 64)
    (h : (syndromes 128 (symbolsOf (d ++ m) ++ symbolsOf p)).all (· = 0) = true) (x : List Byte)
    (hx : x = leBytes 4160 ((symbolsOf (d ++ m)).foldr (fun s v => s + 4096 * v) 0)) (hc : crc64 (x.take 4152) ≠ field x 4152 8) :
    decodeAt t (d ++ p ++ m) = none := by
  rw [decodeAt_parts t d p m hd hp hm, rsCorrect_codeword t _ h]
  simp only [List.take_left, ← hx]
  exact if_neg hc

/-- A word whose locator names as many symbols as it found, no more than the strength, and leaves a codeword, is corrected (R361). -/
theorem rsCorrect_fixed (t n : Nat) (w fixed : List Nat) (h : (syndromes 128 w).all (· = 0) = false)
    (hf : rsFix ((syndromes 128 w).take (2 * t)) w = (fixed, n, n)) (hn : n ≤ t) (hs : (syndromes 128 fixed).all (· = 0) = true) :
    rsCorrect t w = some (fixed, n) := by
  unfold rsCorrect
  simp only [h, hf]
  simp [hn]
  simpa using hs

/-! ### Packing -/

theorem ofLeBytes_leBytes (n : Nat) : ∀ v, ofLeBytes (leBytes n v) = v % 256 ^ n := by
  induction n with
  | zero => intro v; simp [leBytes, ofLeBytes, Nat.mod_one]
  | succ n ih =>
    intro v
    rw [leBytes, ofLeBytes, ih, BitVec.toNat_ofNat, show 256 ^ (n + 1) = 256 * 256 ^ n from Nat.pow_succ']
    exact (Nat.mod_mul (x := v) (a := 256) (b := 256 ^ n)).symm

theorem leBytes_length (n : Nat) : ∀ v, (leBytes n v).length = n := by
  induction n with
  | zero => intro v; rfl
  | succ n ih => intro v; simp [leBytes, ih]

theorem leBytes_shift (n m : Nat) (v : Nat) : leBytes (n + m) (256 ^ n * v) = List.replicate n 0 ++ leBytes m v := by
  induction n with
  | zero => simp
  | succ n ih =>
    rw [Nat.add_right_comm, leBytes, Nat.pow_succ', Nat.mul_assoc, Nat.mul_div_cancel_left _ (by decide), ih, List.replicate_succ]
    congr 1
    exact BitVec.eq_of_toNat_eq (by simp)

theorem ofLeBytes_zeros_append (n : Nat) (w : List Byte) : ofLeBytes (List.replicate n 0 ++ w) = 256 ^ n * ofLeBytes w := by
  induction n with
  | zero => simp
  | succ n ih => rw [List.replicate_succ, List.cons_append, ofLeBytes, ih, Nat.pow_succ', Nat.mul_assoc]; exact Nat.zero_add _

/-- Symbols as one number, the first least significant. -/
def fromSymbols (l : List Nat) : Nat := l.foldr (fun s v => s + 4096 * v) 0

theorem fromSymbols_zeros_append (n : Nat) (w : List Nat) : fromSymbols (List.replicate n 0 ++ w) = 4096 ^ n * fromSymbols w := by
  induction n with
  | zero => simp
  | succ n ih =>
    rw [List.replicate_succ, List.cons_append, show ∀ x l, fromSymbols (x :: l) = x + 4096 * fromSymbols l from fun _ _ => rfl, ih, Nat.pow_succ', Nat.mul_assoc]
    exact Nat.zero_add _

theorem fromSymbols_lt : ∀ l, (∀ s ∈ l, s < 4096) → fromSymbols l < 4096 ^ l.length
  | [], _ => by decide
  | s :: l, h => by
    have h1 := h s (List.mem_cons_self ..)
    have h2 := fromSymbols_lt l fun x hx => h x (List.mem_cons_of_mem _ hx)
    show s + 4096 * fromSymbols l < _
    rw [List.length_cons, Nat.pow_succ']
    omega

theorem symbol_fromSymbols : ∀ l i (hi : i < l.length), (∀ s ∈ l, s < 4096) → fromSymbols l / 2 ^ (12 * i) % 4096 = l[i]
  | s :: l, 0, _, h => by
    have := h s (List.mem_cons_self ..)
    show (s + 4096 * fromSymbols l) / 1 % 4096 = s
    omega
  | s :: l, i + 1, hi, h => by
    have h1 := h s (List.mem_cons_self ..)
    rw [show fromSymbols (s :: l) = s + 4096 * fromSymbols l from rfl, show 12 * (i + 1) = 12 + 12 * i from by omega, Nat.pow_add, ← Nat.div_div_eq_div_mul,
      show (s + 4096 * fromSymbols l) / 2 ^ 12 = fromSymbols l from by omega, List.getElem_cons_succ]
    exact symbol_fromSymbols l i _ fun x hx => h x (List.mem_cons_of_mem _ hx)

/-- Symbols that fill whole bytes come back from them. -/
theorem symbolsOf_fromSymbols (l : List Nat) (n : Nat) (h : ∀ s ∈ l, s < 4096) (hn : 2 * n = 3 * l.length) : symbolsOf (leBytes n (fromSymbols l)) = l := by
  have hlt : fromSymbols l < 256 ^ n := by
    have := fromSymbols_lt l h
    have e : 4096 ^ l.length = 256 ^ n := by
      rw [show (4096 : Nat) = 2 ^ 12 from rfl, show (256 : Nat) = 2 ^ 8 from rfl, ← Nat.pow_mul, ← Nat.pow_mul]
      congr 1; omega
    omega
  have hc : cdiv (8 * n) 12 = l.length := by unfold cdiv; omega
  simp only [symbolsOf, leBytes_length, ofLeBytes_leBytes, Nat.mod_eq_of_lt hlt, hc]
  refine List.ext_getElem (by simp) fun i h1 h2 => ?_
  simp only [List.getElem_map, List.getElem_range]
  exact symbol_fromSymbols l i h2 h

/-! ### One wrong symbol -/

/-- The place n doublings on from p, where none on the way is the locator's root; 0 where one is. -/
def placeAfter : (n p : Nat) → Nat
  | 0, p => p
  | n + 1, p => if gfMul p 1 = 1 then 0 else match gfDouble p with
    | 0 => placeAfter n 0
    | k + 1 => placeAfter n (k + 1)

/-- Correction passes zeros by while no place on the way is the locator's root. -/
theorem fix_fold (om dv : List Nat) : ∀ n p out k, placeAfter n p ≠ 0 →
    (List.replicate n 0).foldl (fun (p, out, n) s =>
      if gfEval [1, 1] p = 0 then (gfDouble p, (s ^^^ gfMul (gfEval om p) (gfInv (gfEval dv p))) :: out, n + 1)
      else (gfDouble p, s :: out, n)) (p, out, k) = (placeAfter n p, List.replicate n 0 ++ out, k)
  | 0, _, _, _, _ => rfl
  | n + 1, p, out, k, h => by
    have e : placeAfter (n + 1) p = if gfMul p 1 = 1 then 0 else placeAfter n (gfDouble p) := by
      rw [placeAfter]; cases gfDouble p <;> rfl
    rw [e] at h ⊢
    split at h
    · exact absurd rfl h
    · rename_i hp
      have hr : gfEval [1, 1] p ≠ 0 := fun h0 => hp (Nat.xor_eq_zero_iff.mp (show 1 ^^^ gfMul p 1 = 0 by simpa [gfEval] using h0)).symm
      rw [List.replicate_succ, List.foldl_cons, if_neg hp]
      simp only [if_neg hr]
      rw [fix_fold om dv n _ _ _ h, List.append_cons, ← List.replicate_succ', List.replicate_succ]
      

/-- n doublings. -/
def gfPowFrom : (n p : Nat) → Nat
  | 0, p => p
  | n + 1, p => match gfDouble p with
    | 0 => gfPowFrom n 0
    | k + 1 => gfPowFrom n (k + 1)

theorem gfPowFrom_eq (n : Nat) : ∀ k, gfPowFrom n (gfPow k) = gfPow (n + k) := by
  induction n with
  | zero => intro k; simp [gfPowFrom]
  | succ n ih =>
    intro k
    have e : gfPowFrom (n + 1) (gfPow k) = gfPowFrom n (gfPow (k + 1)) := by
      rw [gfPowFrom, gfPow]; cases gfDouble (gfPow k) <;> rfl
    rw [e, ih]; congr 1; omega

/-! ### Two senses -/

/-- A slot whose last metadata bits are wrong, with the parity that makes it a codeword: its TAG does not match. -/
def wrongTag : List Byte :=
  List.replicate 4096 0 ++ leBytes 192 (fromSymbols ((rsGenerator 128).drop 1)) ++ (List.replicate 63 0 ++ [0x10])

theorem rsGenerator_cons : rsGenerator 128 = 1 :: (rsGenerator 128).drop 1 := by
  have h := (rsGenerator_spec 128).2.2.1
  cases e : rsGenerator 128 with
  | nil => rw [e] at h; cases h
  | cons a g => rw [e] at h; cases h; rfl

/-- No decode of it succeeds. -/
theorem decodeAt_wrongTag (t : Nat) : decodeAt t wrongTag = none := by
  have hg := rsGenerator_spec 128
  have hm : List.replicate 4096 0 ++ (List.replicate 63 0 ++ [(0x10 : Byte)]) = List.replicate 4159 0 ++ [0x10] := by
    rw [← List.append_assoc, List.replicate_append_replicate]
  have hs : symbolsOf (List.replicate 4159 0 ++ [(0x10 : Byte)]) = List.replicate 2773 0 ++ [1] := by
    decide +kernel
  have hp : symbolsOf (leBytes 192 (fromSymbols ((rsGenerator 128).drop 1))) = (rsGenerator 128).drop 1 :=
    symbolsOf_fromSymbols _ _ (fun s h => hg.1 s (List.mem_of_mem_drop h)) (by rw [List.length_drop, hg.2.1])
  refine decodeAt_wrong_tag t _ _ _ List.length_replicate (leBytes_length _ _) (by rw [List.length_append, List.length_replicate]; rfl) ?_
    (List.replicate 4159 0 ++ [0x10]) ?_ ?_
  · rw [hm, hs, hp, List.append_assoc, syndromes_zeros_append, List.singleton_append, ← rsGenerator_cons]
    exact syndromes_generator 128
  · rw [hm, hs]
    have e : fromSymbols (List.replicate 2773 0 ++ [1]) = 256 ^ 4159 * 16 := (fromSymbols_zeros_append 2773 [1]).trans (by decide +kernel)
    show _ = leBytes 4160 (fromSymbols _)
    rw [e]
    exact (leBytes_shift 4159 1 16).symm
  · rw [List.take_append_of_le_length (by rw [List.length_replicate]; decide), List.take_replicate, crc64_zeros]
    rw [field, List.drop_append_of_le_length (by rw [List.length_replicate]; decide), List.drop_replicate]
    decide +kernel

/-- A slot of zeros but for the last symbol of its parity. -/
def lastWrong : List Byte := List.replicate 4096 0 ++ (List.replicate 190 0 ++ [0x10, 0]) ++ List.replicate 64 0

theorem locator_lastWrong : locator ((syndromes 128 [1]).take 8) = ⟨[1, 1], [1], 1, 8, 1⟩ := by decide +kernel

theorem reverse_zeros (n x : Nat) (h : x = 0) : (x :: (List.replicate n 0 ++ [])).reverse = List.replicate (n + 1) 0 := by
  rw [h, List.append_nil, List.reverse_cons, List.reverse_replicate, List.replicate_succ']

theorem gfPow_1194 : gfPow 1194 = gfPowFrom 1194 1 := (gfPowFrom_eq 1194 0).symm

theorem placeAfter_last : placeAfter 2901 (gfPow (4095 - 2901 % 4095)) = 1 := by
  rw [show 4095 - 2901 % 4095 = 1194 from by decide, gfPow_1194]
  decide +kernel

/-- Zeros with a wrong last symbol, set right. -/
theorem rsFix_last (sy : List Nat) (n gap disc : Nat) (hl : locator sy = ⟨[1, 1], [1], 1, gap, disc⟩) (h1 : placeAfter n (gfPow (4095 - n % 4095)) = 1)
    (h2 : gfEval [1, 1] 1 = 0)
    (h3 : 1 ^^^ gfMul (gfEval ((List.range sy.length).map fun n => gfConv [1, 1] sy n) 1) (gfInv (gfEval [1] 1)) = 0) :
    rsFix sy (List.replicate n 0 ++ [1]) = (List.replicate (n + 1) 0, 1, 1) := by
  simp only [rsFix, hl, List.length_append, List.length_replicate, List.length_singleton, Nat.add_sub_cancel]
  rw [List.foldl_append, fix_fold _ _ n _ _ _ (by rw [h1]; decide), h1]
  simp only [List.foldl_cons, List.foldl_nil, if_pos h2]
  rw [Prod.mk.injEq]
  exact ⟨reverse_zeros n _ h3, rfl⟩

theorem rsFix_lastWrong : rsFix ((syndromes 128 [1]).take 8) (List.replicate 2901 0 ++ [1]) = (List.replicate (2901 + 1) 0, 1, 1) :=
  rsFix_last _ 2901 _ _ locator_lastWrong placeAfter_last (by decide +kernel) (by decide +kernel)

/-- It decodes to zeros, with one correction. -/
theorem decodeAt_lastWrong : decodeAt 4 lastWrong = some (slotWord (List.replicate 4160 0), 1) := by
  have hs : symbolsOf (List.replicate 190 0 ++ [(0x10 : Byte), 0]) = List.replicate 127 0 ++ [1] := by decide +kernel
  rw [lastWrong, decodeAt_parts 4 _ _ _ List.length_replicate (by rw [List.length_append, List.length_replicate]; rfl) List.length_replicate,
    List.replicate_append_replicate, symbolsOf_zeros, hs, ← List.append_assoc, List.replicate_append_replicate,
    show cdiv (8 * (4096 + 64)) 12 + 127 = 2901 from by decide,
    rsCorrect_fixed 4 1 _ _ (by rw [syndromes_zeros_append]; decide +kernel) (by rw [syndromes_zeros_append]; exact rsFix_lastWrong) (by decide) (syndromes_zeros _ _)]
  simp only [List.take_replicate, List.length_replicate, fromSymbols_zeros, leBytes_zero]
  rw [crc64_zeros, field_zeros]
  rfl

/-- A first sense that decodes at the stack's strength is the slot. -/
theorem decodeSlot_first (b : Block) (h : Nat) (d : List Byte) (more : List (List Byte)) (w : SlotWord) (n : Nat) (hd : decodeAt (b.strength h) d = some (w, n)) :
    b.decodeSlot h ⟨d :: more⟩ = some (w, n, false) := by
  simp only [Block.decodeSlot, hd]

/-- Senses that decode at no strength give no slot. -/
theorem decodeSlot_none (b : Block) (h : Nat) (d : List Byte) (hd : ∀ t, decodeAt t d = none) : b.decodeSlot h ⟨[d]⟩ = none := by
  simp only [Block.decodeSlot, hd]
  simp [hd]

theorem slotWord_zeros (n : Nat) : (slotWord (List.replicate n 0)).obj = 0 ∧ (slotWord (List.replicate n 0)).slot = 0 :=
  ⟨field_zeros n 4096 4, field_zeros n 4100 4⟩

/-- A slot of zeros passes the checks of R222 for slot 0 of object 0 of one slot, under its leaf. -/
theorem blankPasses (o : HoldObj) (ht : o.tree = []) (n : Nat) (hr : o.root = leafOf (slotWord (List.replicate n 0)).data) :
    slotPasses (slotWord (List.replicate n 0)) o 0 0 = true := by
  have h := slotWord_zeros n
  simp only [slotPasses, HoldObj.leafIn, HoldObj.treeGood, ht, hr, h.1, h.2, List.isEmpty_nil, Bool.true_or, if_true, and_self, decide_true, Bool.and_self]

end Sys2Proof.Machine
end

