-- ==== Sys2Proof/Tests/Slice0.lean ====
section
/-! SUPPORT. Tests: ill-formed commands are refused, the manual's worked examples hold of the model, single steps, and a witness for the hypotheses of every obligation (test_hyp_<obligation>, clause by clause). -/

-- Each `decide +kernel` waits for the kernel to check all that stands before it: elaborated side by side, the tests only hold one blocked thread each.
set_option Elab.async false

namespace Sys2Proof.Tests

open Sys2Proof Sys2Proof.Machine

/-! ### Small states -/

/-- A state with its block changed. -/
def chg (s : State) (f : Block → Block) : State := { s with blk := f s.blk }

/-- An instruction word from its fields (R159). -/
def iw (op : Nat) (rd ra rb rc fn fa fb mode imm fl : Nat := 0) : IWord :=
  BitVec.ofNat 128 (op + fl * 2 ^ 13 + rd * 2 ^ 16 + ra * 2 ^ 22 + rb * 2 ^ 28 + rc * 2 ^ 34 + fn * 2 ^ 40 + fa * 2 ^ 48 + fb * 2 ^ 52 + mode * 2 ^ 56 + imm * 2 ^ 64)

def key : List Byte := [7]
def mg : Mgr := ⟨1, 9⟩
def hdr : CmdHdr := ⟨false, false, false, 0, 7, 0x42, 0x8000⟩
def noSync : SyncExt := ⟨none, none, none⟩
def img : ImageHdr := ⟨8192, 4096, 4096, 0, 0, 0⟩
def wc : WcRec := ⟨0, 0, 0, 0, 0, 0, 0, false⟩
def tb : TensorBody := ⟨0x10000, [], 1, img, wc, [], 0, 0⟩

/-- A command of slice 3 on queue 1. -/
def cmd : Cmd :=
  { q := 1, slice := 3, hdr := hdr, sync := noSync, met0 := false, met1 := false, body := .tensor tb, bufs := [], heads := [], ph := .running, status := 0, detail := 0, faultBuf := none,
    result := 0, anchorFlags := false, fallback := false, noSignal := false, units := [0], launchPos := none, since := 0, ran := true, ready := false, busy := [],
    task := none, suspect := 0, aborting := false, copied := 0 }

def stream : Stream :=
  { ctx := 7, slice := 3, job := 5, prog := 100, codeOff := 0, codeLen := 4096, rank := 0, streams := 1, args := [], moors := [], moorOff := 0, pc := 16, loops := [], wait := none,
    ended := false, stopped := false, vflags := 0, atBar := false, sigs := [], copies := [], digestOwed := false, digMem := [], products := [] }

def queue : Queue :=
  { slice := 3, k := 1, cls := 0, n := 4, m := 4, st := .live, bind := 7, vector := none, depth := 8, moderate := 0, lc := false, load := 0, tail := 1, fetch := 0,
    cqHead := 0, cqTail := 0, standing := none, standingDead := none, busy := false, launches := 0, ringHeads := [305, 307], held := [], moderUntil := 0, moderOwed := false,
    destroyer := none, lastServed := 0, rate := 0, standingVa := 0 }

def slice : Slice :=
  { pasid := 5, baseCtx := 6, msixBase := 0, msixCount := 0, granFirst := 0, granCount := 0, vtime := 0, coreV := 0, listServed := 0, tracing := false, tracePort := false,
    savedMode := false, quiesce := none, exports := 0, log := [], chain := 0, logLost := false, view := none, objectsRead := [] }

/-- The firmware is up and a manager holds the lease. -/
def up : State := { State.reset with
  aon := ⟨2000000010, 1⟩
  blk := { Block.reset with
    harbour := { Harbour.reset with stage := some 4, sessions := [(1, ⟨4, some key, false⟩)], nextSession := 2, lease := some ⟨key, 1000000000000, 1000⟩ }
    ports := { Ports.reset with opened := [0] } } }

/-- The stamp of one ring, its head at h and its run behind it. -/
def ringStamps (h va : Nat) : Table Stamp :=
  [(h, .head 1024 va 1 (h + 1) 3 0 false false true true 0 0), (h + 1, .run (0x70000000 + va) 0 0x1000 3 0 false true 1 true true 0 0)]
/-- Every domain is on. -/
def hup (s : State) : State := chg s fun b => { b with power := { b.power with pdUp := 2 ^ 34 - 1 } }
def dmp : Dump := ⟨5, 2, 3, 1, 2, 1, [], 0, false, Snapshot.empty, Snapshot.empty⟩
/-- Slice 3 in partition 2, with an admin queue, a TENSOR queue and contexts 6 and 7; the rings are stamped, at 301 to 308; the partition's OTHER buckets at the host port hold tokens. -/
def sl : State := chg up fun b =>
  let b := (((b.wr F.BW_PART_VALID 2 1).wr F.BW_SLICE_PARTITION 3 2).wr F.BW_SLICE_STATE 3 1).wr F.BW_SLICE_WEIGHT 3 1
  let b := (((b.wr F.QY_SQUOTA_INFLIGHT 3 64).wr F.QY_SQUOTA_CONTEXTS 3 8).wr F.QY_SQUOTA_FENCES 3 8).wr F.QY_SQUOTA_QUEUES 3 8
  let b := (((b.wr F.PL_SQUOTA_QUOTA 3 64).wr F.MF_SQUOTA_QUOTA 3 16).wr F.BW_RATE_OTHER 91 10).wr F.BW_RATE_BURST 91 10
  let b := (b.wr F.BW_RATE_OTHER 90 10).wr F.BW_RATE_BURST 90 10
  { b with pilot := { b.pilot with stamps := ringStamps 301 0x9000 ++ ringStamps 303 0xA000 ++ ringStamps 305 0xB000 ++ ringStamps 307 0xC000 }, quay := { b.quay with
      slices := [(3, slice)], queues := [(0, { queue with k := 0, cls := 15, bind := 0, ringHeads := [301, 303] }), (1, queue)]
      ctxs := [(6, ⟨3, .live, 0, none⟩), (7, ⟨3, .live, 0, none⟩)], nextCmd := 6 } }

/-- Berth 0, of partition 2, runs a stream of command 5. -/
def job : State := chg sl fun b =>
  let b := (((b.wr F.BW_PART_BERTHS 2 1).wr F.BT_STATE_OWNED 0 1).wr F.BT_STATE_PARTITION 0 2).wr F.BT_STATE_STATE 0 2
  { b with
    quay := { b.quay with cmds := [(5, cmd)] }
    berths := [(0, { Berth.reset with stream := some stream, opened := true, occupants := [7], nextSerial := 1 })] }

/-- Berth 0's registers set. -/
def regs (s : State) (f : Regs → Regs) : State := chg s fun b => b.modBerth 0 fun x => { x with regs := f x.regs }

/-- Berth 0's stream set. -/
def strm (s : State) (f : Stream → Stream) : State := chg s fun b => b.modBerth 0 fun x => { x with stream := x.stream.map f }

def jobFences (s : State) (l : Table Fence) : State := chg s fun b => { b with quay := { b.quay with fences := l } }
def tileA : Tile := { Tile.reset with q := [(0, 5), (7, 9)], anchor := 3, empty := false, count := 3 }
def vjob : State := regs job fun r =>
  (List.range 256).foldl (fun r l => (r.setLane 1 l (BitVec.ofNat 32 (0x3F800000 + l * 0x10000))).setLane 2 l 0x40400000)
    { ((r.setS 1 0x1000).setS 2 7) with p := [(1, BitVec.ofNat 256 0xFF0F)] }
def pjob : State := regs job fun r => { ((((r.setLane 1 3 5).setLane 2 3 9).setLane 1 20 7)) with p := [(1, BitVec.ofNat 256 0xFF0F)] }
def tjob : State := regs job fun r =>
  ((((((((r.setS 8 0x10000).setS 10 256).setS 12 0x20000).setS 14 256).setS 3 1).setS 9 0x3F800000).setS 13 0x3F800000).setTile 4 tileA)
def fence3 : Fence := ⟨3, 7, 3, [], none, false⟩
def fjob : State := jobFences (regs job fun r => r.setS 1 2) [(2, fence3)]
def wst : Stream := { stream with wait := some (.counter 1 5) }
def fst : Stream := { stream with wait := some (.fence 2 5) }
def bst : Stream := { stream with wait := some .bar, atBar := true }
def cst : Stream := { stream with wait := some .coll }
def grp : Group := ⟨⟨9, 4, 3, 0, 0, false, 0, [(0, 0), (1, 1)]⟩, [], 0, [], []⟩
def coll : Coll := ⟨9, 0, 5, 1, 0, 0, 0, 0, 5, true, [(0, 0, 0, 0)], true, 0, 0, [1], [1], [], [], [], [], false⟩
def gjob : State := chg job fun b => { b with fabric := { b.fabric with groups := [(9, grp)] } }

def brt (s : State) (f : Berth → Berth) : State := chg s fun b => b.modBerth 0 f
def xfer : Xfer := ⟨.buffer false 0 0, 0, 64, 1, 0, 0, some 1, 64, [], 64, none, none, none, 0, 0⟩
def sampleRec : SampleRec := ⟨0, 16, 0x20, false, 7, 100, false, 1, 2, false⟩
def mreq : MemReq := ⟨0, 0, 0, 64, false, false, [], [], 3, 7, .bar2, 0, 0⟩
def ports (s : State) (f : Ports → Ports) : State := chg s fun b => { b with ports := f b.ports }
/-- Granules 0 to 3 belong to slice 3. -/
def gran : State := chg sl fun b => b.setReg .plGranule 0 0x8003800380038003
def saved : Saved := ⟨bst, { Regs.reset with s := [(1, 5)] }, [], [], none, false, []⟩

def mst : Stream := { stream with moors := [⟨0, 100, 0, 0, 0⟩] }
def mjob : State := strm job fun _ => mst
/-- The read of line 0 of a moor-distance table for berth 0. -/
def moorReq : MemReq := { mreq with who := .moorEntry 0 0, len := 128 }
def pw : State := chg job fun b => { b with power := { b.power with pdUp := 2 ^ 34 - 1 } }
def cmd2 : Cmd := { cmd with slice := 4, ph := .waiting, since := 0, units := [] }
/-- A second slice's command waits for the berth of the running job. -/
def qjob : State := chg { (strm job fun _ => bst) with aon := ⟨2000000000, 1⟩ } fun b =>
  let b := ((((b.wr F.BW_MODE_MODE 0 1).wr F.BW_SLICE_PARTITION 4 2).wr F.BW_SLICE_STATE 4 1).wr F.BW_SLICE_WEIGHT 4 1).wr F.BW_SCHED_QUANTUM 2 1000
  let b := (b.wr F.QY_SQUOTA_INFLIGHT 4 64)
  { b with quay := { b.quay with slices := [(3, slice), (4, slice)], cmds := [(5, cmd), (6, cmd2)], nextCmd := 7 } }

def rated : State := chg gran fun b =>
  (((b.wr F.BW_RATE_OTHER 64 10).wr F.BW_RATE_BURST 64 10).wr F.BW_RATE_OTHER 90 10).wr F.BW_RATE_BURST 90 10
def gb : GeneralBody := ⟨0x100, 0x200, 1000, 0⟩
def wcmd : Cmd := { cmd with ph := .waiting, units := [], ran := false }
/-- The command waits and berth 0 is idle. -/
def wjob : State := chg sl fun b =>
  let b := (((b.wr F.BW_PART_BERTHS 2 1).wr F.BT_STATE_OWNED 0 1).wr F.BT_STATE_PARTITION 0 2).wr F.BT_STATE_STATE 0 1
  { b with quay := { b.quay with cmds := [(5, wcmd)] } }
def gcmd : Cmd := { wcmd with q := 2, body := .general gb, bufs := [⟨0x5000, 0x1000, true, true⟩], heads := [1] }
def gqueue : Queue := { queue with k := 2, cls := 1 }
def gsl : State := chg sl fun b => { b with
  quay := { b.quay with queues := b.quay.queues ++ [(2, gqueue)], cmds := [(5, gcmd)] }
  cores := [(0, { Core.reset with on := true })] }
def ecmd : Cmd := { cmd with ph := .ended, sync := ⟨none, none, some (2, 9)⟩, units := [] }
def fetched0 : Fetched := ⟨hdr, noSync, true, []⟩
def fetched : Fetched := { fetched0 with hdr := { hdr with ext := true } }
def lqueue : Queue := { queue with standing := some (fetched, .tensor tb, [1, 2]) }
def aqueue : Queue := { queue with k := 0, cls := 15, bind := 0, ringHeads := [301, 303] }
/-- The slice's admin queue holds an unfetched command; nothing runs. -/
def asl : State := chg sl fun b => { b with quay := { b.quay with queues := [(0, aqueue), (1, queue)] } }

def xl : Xlat := ⟨5, 2, 0, 0, 16, 0x40000000, true, true, 0⟩
/-- Buffers at 0 to 16 GiB are translated to device memory from 1 GiB on. -/
def cached (s : State) : State := chg s fun b => { b with pilot := { b.pilot with cache := [xl] } }
def stampH : Stamp := .head 0x1000 0x5000 1 2 3 7 false false true true 0 0
def stampR : Stamp := .run 0x40005000 0 0x1000 3 7 false true 1 true true 0 0
def stamped (s : State) (h : List (Nat × List Holder)) : State := chg s fun b => { b with
  pilot := { b.pilot with stamps := [(1, stampH), (2, stampR)] ++ b.pilot.stamps, holders := h } }
def bufX : Xfer := { xfer with done := 0, issued := 0, rows := 2 }
def icmd : Cmd := { cmd with bufs := [⟨0x5000, 0x1000, true, true⟩], heads := [1] }
/-- Engine 0 of berth 0 uses the stamp at 1. -/
def ijob : State := stamped (chg (brt job fun x => { x with me0 := [bufX] }) fun b => { b with quay := { b.quay with cmds := [(5, icmd)] } }) [(1, [.engine 0 0])]
def inval : Inval := ⟨some 5, 0x5000, 0x1000, [1], [.engine 0 0, .core 0], false, 0⟩
def invd (s : State) (l : List Inval) (n : List (Holder × List Nat)) : State := chg s fun b => { b with pilot := { b.pilot with invals := l, notices := n } }
def need : Need := ⟨0x5000, 0x1000, true, true, false, 0⟩
def taskC (why : StampFor) : StampTask := ⟨3, 7, why, [need], 0, [], [], some 0x5000, none, false, none, [], false, none⟩
def runRec : RunRec := ⟨0, 0x1000, 0x40005000, 1, 0, true, true⟩
def taskR : StampTask := { taskC (.restamp 1) with needs := [], done := [(need, [runRec])], asked := none }
def scmd : Cmd := { wcmd with q := 2, ph := .stamping, body := .general gb, bufs := [⟨0x5000, 0x1000, true, true⟩] }
def tsl (t : StampTask) : State := chg gsl fun b => { b with quay := { b.quay with cmds := [(5, scmd)] }, pilot := { b.pilot with streams := [(0, t)] } }
def rcmd : Cmd := { gcmd with ph := .running }
/-- Core 0 runs the general task of command 5. -/
def gjobC : State := stamped (chg gsl fun b => { b with
  quay := { b.quay with cmds := [(5, rcmd)] }, cores := [(0, { Core.reset with on := true, task := some 5, since := 2000000000, pc := 0x100 })] }) [(1, [.core 0])]
def desc : SeqDesc := ⟨2, true, false, false, false, 0, 0, 0, 100, 1, 0x3F800000, 0x3F800000, 0, 0, 0, 16, 0, 0, [], 0⟩
def seq4 : SeqEntry := { newSeq 3 desc false with position := 5, kvPos := 5, pages := [9] }
def mrec : ModelRec := ⟨3, none, none, 0, true, false, 0x100000, 4096, 0x200000, 0x300000, 8, 1, 512, 64, 1, 0, 0⟩
def mprog : ModelProg := ⟨img, wc, wc, wc, [], [], 0⟩
def model2 : Model := ⟨mrec, mprog, mprog, []⟩
def armed : Armed := ⟨5, 1024, 4096, 0, false, 0, 0, [], [], 0, 0, none⟩
def squeue : Queue := { queue with k := 3, cls := 2 }
def acmd : Cmd := { cmd with q := 3, body := .serve 1 ⟨0, 0, 0, 0⟩ [] [], units := [] }
def sfetch (n : Nat) : Fetched := ⟨{ hdr with nbuf := n }, noSync, true, (List.range n).map fun i => ⟨0x10000 * (i + 1), 0x1000, true, true⟩⟩
def vserve : ServeBody := ⟨1, 4, 0x00010400, 0⟩
/-- Slice 3 has a SERVE queue and model 2; not armed. -/
def ssl : State := cached (chg wjob fun b =>
  let b := (b.wr F.MF_PCTL_EN 2 1).wr F.MF_PCTL_ENTRIES 2 100
  { b with
    quay := { b.quay with queues := b.quay.queues ++ [(3, squeue)], cmds := [], nextCmd := 6 }
    manifest := { b.manifest with models := [(2, model2)] } })
/-- Slice 3 is armed and has sequence 4. -/
def sarm (y : SeqEntry) : State := chg ssl fun b => { b with
  quay := { b.quay with cmds := [(5, acmd)] }, manifest := { b.manifest with armed := [(3, armed)], seqs := [(4, y)] } }
def list1 : LoadList := ⟨2, 2, 2, false, [⟨4, 1, true, false, 0, false⟩], 3, none, 8, 0, [], [], none, 1⟩
def lcmd (st : Nat) : Cmd := { cmd with q := 0, body := .list 2 1, ph := .ended, status := st, units := [] }
def slist (st : Nat) : State := chg (sarm { seq4 with inList := true }) fun b => { b with
  quay := { b.quay with cmds := [(5, acmd), (8, lcmd st)], nextCmd := 9 }, manifest := { b.manifest with lists := [(1, list1)], nextList := 2 } }

/-- Core 0 has run for 15 ms and slice 4's task waits. -/
def gjobD : State := chg gjobC fun b =>
  let b := (((b.wr F.BW_SLICE_PARTITION 4 2).wr F.BW_SLICE_STATE 4 1).wr F.BW_SLICE_WEIGHT 4 1)
  { b with
    cores := [(0, { Core.reset with on := true, task := some 5, since := 1985000000, pc := 0x100 })]
    quay := { b.quay with
      slices := [(3, { slice with coreV := 9 }), (4, slice)], ctxs := b.quay.ctxs ++ [(8, ⟨4, .live, 0, none⟩)]
      cmds := [(5, rcmd), (6, { gcmd with slice := 4, q := 9, hdr := { hdr with ctx := 8 } })] } }

def srec : SliceRec := ⟨9, 2, 5, 77, 0x10000, 0x20000, 4, 4, 0, 4, 8, 64, 8, 8, 64, 16, 8, 2⟩
def simg : SliceImage := ⟨srec, [], [], [], [], none, []⟩

def hobj : HoldObj := ⟨3, 1, 8, false, 0, [], [], [], [], [], [(0, [5])], [], [], []⟩
def hchan : Channel := { Channel.reset with free := [7, 8, 9], units := 100, peRated := 1000, spares := 1 }
/-- Stack 0 is READY, object 1 of generation 5 holds unit 5 of channel 0, the block is FULL. -/
def hold1 (s : State) : State := chg s fun b =>
  let b := (((b.wr F.GLB_SERVICE_LEVEL 0 2).wr F.HD_STACK_STATE 0 2).wr F.HD_STACK_STRENGTH 0 32).wr F.HD_STACK_RELOC 0 16
  { b with hold := { b.hold with objs := [(1, hobj)], gens := [(1, 5)], chans := [(0, hchan), (1, hchan)], stks := [(0, Stack.reset)] } }
def hsl : State := hold1 sl
def hsense : Sense := ⟨0, 2, some (0, 0, 0, 0), 327681, 0x5002⟩
def hxfer : Xfer := { xfer with mv := .hold 327681 0 none, done := 0, issued := 0 }
def hjob : State := hold1 (brt job fun x => { x with me0 := [hxfer] })

/-- A locked lane. -/
def lane (active good : Bool) : Lane := { Lane.reset with active := active, locked := true, good := good }

def fwin : Window := ⟨⟨7, 3, true, 0, true, true, false, false, false, 1, 1, 0x1000, 4096⟩, 0, none, 0⟩
def freq : FabReq := ⟨0, 0, 0, 1, 7, 64, 64, 0x2000, 0, 0, 0, none, none⟩
def fxfer : Xfer := { xfer with mv := .window 0 0 64 7 1 0 0, done := 0, issued := 64 }

/-- A collective of a FERRY command is in flight. -/
def fcoll : Coll := { coll with places := [], fromBerth := false, begun := true, sq := 5, credits := [], sentTo := [], heard := [], complete := [] }
def ferry (s : State) : State := chg s fun b => { b with fabric := { b.fabric with groups := [(9, grp)], colls := [(4, fcoll)] } }
def lt0 : Lighter := { Lighter.reset with cmds := [(2, 5)] }
def lite (s : State) (x : Lighter) : State := chg s fun b => { b with lighters := [(0, x)] }

def bndl : Bundle := ⟨true, true, 0, true, true, 5, 3, 2, 1, true, true, true, 0x00020001, 1, 2, 3⟩
/-- An image with SEQ n and one section, 1, of 48 zero bytes: no field is given (R448, R449). -/
def cimgOf (n : Nat) : CfgImage :=
  let zeros (k : Nat) : List Byte := List.replicate k 0
  let dir := leBytes 4 1 ++ leBytes 4 80 ++ leBytes 4 48 ++ leBytes 4 (crc32 (zeros 48))
  let head := [0x54, 0x58, 0x43, 0x46, 1, 0, 0, 0] ++ leBytes 8 n ++ leBytes 4 128 ++ leBytes 2 1 ++ zeros 38
  ⟨head ++ leBytes 4 (crc32 (head ++ dir)) ++ dir ++ zeros 48⟩
def cimg : CfgImage := cimgOf 4
/-- The configuration memory holds a bundle in slot A and an image in each slot. -/
def mem (s : State) : State := chg s fun b => { b with harbour := { b.harbour with bundleA := some bndl, booted := some false, imageA := some cimg, imageB := some (cimgOf 3) } }
def stg (n : Nat) (s : State) : State := chg s fun b => { b with harbour := { b.harbour with stage := some n } }
/-- Every domain is on and every core runs. -/
def on (s : State) : State := chg s fun b => { b with
  power := { b.power with pdUp := 2 ^ 34 - 1 }, cores := (List.range 8).map fun g => (g, { Core.reset with on := true })
  ports := { b.ports with opened := List.range 8 } }

/-- The number and the block of a fresh object. -/
def oN {α : Type} (o : Option (Nat × α)) : Nat := (o.map (·.1)).getD 0
def oB (o : Option (Nat × Block)) : Block := (o.map (·.2)).getD Block.reset

def mvb : MoveBody := ⟨[], false, false, 0, 0, 0, 0, 0⟩
def fyb : FerryBody := ⟨0, 0, 0, 0, 0, 0, 0, 0, 0, 64⟩
def qbody : QueueBody := ⟨2, 0, false, false, 0, none, 0x100000, 0x200000, 4, 4, 8, 0, 0, 0⟩
def fmsg (op : Nat) : FabMsg := ⟨op, 0, 1, 0, 1, 0, 5, 64, 7, 64, 0, (List.range 64).map fun i => BitVec.ofNat 8 i⟩
/-- A blank slot's codeword, all zeros, sensed without error. -/
def zsense : List Byte := List.replicate 4352 0
def sread : SlotRead := ⟨[zsense]⟩
/-- A command of slice 3 has been fetched from queue q with n buffers, and its lists have been read. -/
def served (s : State) (q n : Nat) (body : Body) : State := chg s fun b =>
  let b := b.fetchCmd s.env q (sfetch n) body
  let b : Block := { b with ports := { b.ports with lanes := [] }, pilot := { b.pilot with reading := b.pilot.reading.map fun x => (x.1, { x.2 with left := 0 }) } }
  (b.readsDone s.env).startTasks s.env
/-- Queue 1 of slice 3 is of a class. -/
def qcls (n : Nat) : State := chg sl fun b => { b with quay := { b.quay with queues := b.quay.queues.map fun x => if x.1 = 1 then (1, { queue with cls := n }) else x } }
def tlcfg : TlCfg := ⟨true, false, true, true, 3, 0, 1⟩

/-! ### Ill-formed commands are refused, one term for each check -/

theorem test_wf_refuses_1 : ([
    .registerWrite (.core 8) 0 0 0,
    .rcRegisterRead (.core 8) 0 0 [],
    .doorbellWrite 512 0 none 0 0 0,
    .doorbellWrite 0 256 none 0 0 0,
    .standingLaunch 8192,
    .tensorCommand 8192 fetched0 tb,
    .moveCommand 8192 fetched0 mvb,
    .generalCommand 8192 fetched0 gb,
    .ferryCommand 8192 fetched0 fyb,
    .lighterCommand 8192 fetched0 [],
    .jobDispatch (.berths 16),
    .jobDispatch (.core 8),
    .jobDispatch (.ferry 16),
    .jobDispatch (.lighter 4),
    .msixModerateExpiry 8192,
    .ctxCreate 512 hdr,
    .ctxDestroy 512 hdr 0,
    .ctxDestroy 0 hdr 4096,
    .ctxDestroyAll 512 hdr,
    .queueCreate 512 hdr qbody none,
    .queueDestroy 512 hdr 0,
    .queueFree 8192,
    .fenceCreate 512 hdr 0 0,
    .fenceDestroy 512 hdr 0,
    .fenceGrant 512 hdr 0 0 false false,
    .fenceRelease 512 hdr 0,
    .fenceRead 512 hdr 0,
    .fenceSignal 512 hdr 0 0,
    .contextTeardown 4096,
    .teardownComplete 4096,
    .nop 0 (iw 0x01),
    .nop 16 (iw 0x0),
    .br 0 (iw 0x00),
    .br 16 (iw 0x1),
    .brc 0 (iw 0x00),
    .brc 16 (iw 0x2),
    .loop 0 (iw 0x00),
    .loop 16 (iw 0x3),
    .endStream 0 (iw 0x00),
    .endStream 16 (iw 0x4)] : List Instr).all (fun c => !c.wf) = true := by decide +kernel

theorem test_wf_refuses_2 : ([
    .streamEnd 16,
    .salu 0 (iw 0x00),
    .salu 16 (iw 0x20),
    .smul 0 (iw 0x00),
    .smul 16 (iw 0x21),
    .sdiv 0 (iw 0x00),
    .sdiv 16 (iw 0x22),
    .sld 0 (iw 0x00),
    .sld 16 (iw 0x23),
    .sst 0 (iw 0x00),
    .sst 16 (iw 0x24),
    .nmov 0 (iw 0x00),
    .nmov 16 (iw 0x25),
    .sget 0 (iw 0x00),
    .sget 16 (iw 0x26),
    .tmma 0 (iw 0x00),
    .tmma 16 (iw 0x40),
    .tanchorSet 0 (iw 0x00),
    .tanchorSet 0 (iw 0x41 (fn := 2)),
    .tanchorSet 16 (iw 0x41),
    .tanchorMax 0 (iw 0x00),
    .tanchorMax 0 (iw 0x41 (fn := 2)),
    .tanchorMax 16 (iw 0x41 (fn := 1)),
    .tanchorRebase 0 (iw 0x00),
    .tanchorRebase 0 (iw 0x41 (fn := 1)),
    .tanchorRebase 16 (iw 0x41 (fn := 2)),
    .tclr 0 (iw 0x00),
    .tclr 16 (iw 0x42),
    .tcomb 0 (iw 0x00),
    .tcomb 16 (iw 0x43),
    .tdrain 0 (iw 0x00),
    .tdrain 16 (iw 0x44),
    .tquant 0 (iw 0x00),
    .tquant 16 (iw 0x45),
    .vadd 0 (iw 0x00),
    .vadd 16 (iw 0x60),
    .vsub 0 (iw 0x00),
    .vsub 16 (iw 0x61),
    .vmul 0 (iw 0x00),
    .vmul 16 (iw 0x62)] : List Instr).all (fun c => !c.wf) = true := by decide +kernel

theorem test_wf_refuses_3 : ([
    .vfma 0 (iw 0x00),
    .vfma 16 (iw 0x63),
    .vmin 0 (iw 0x00),
    .vmin 16 (iw 0x64),
    .vmax 0 (iw 0x00),
    .vmax 16 (iw 0x65),
    .vcvt 0 (iw 0x00),
    .vcvt 16 (iw 0x66),
    .vcmp 0 (iw 0x00),
    .vcmp 16 (iw 0x67),
    .vsel 0 (iw 0x00),
    .vsel 16 (iw 0x68),
    .plog 0 (iw 0x00),
    .plog 16 (iw 0x69),
    .vld 0 (iw 0x00),
    .vld 16 (iw 0x6a),
    .vst 0 (iw 0x00),
    .vst 16 (iw 0x6b),
    .vbcast 0 (iw 0x00),
    .vbcast 16 (iw 0x6c),
    .vlane 0 (iw 0x00),
    .vlane 16 (iw 0x6d),
    .vred 0 (iw 0x00),
    .vred 16 (iw 0x6e),
    .vsumX 0 (iw 0x00),
    .vsumX 16 (iw 0x6f),
    .exp2 0 (iw 0x00),
    .exp2 16 (iw 0xc0),
    .log2 0 (iw 0x00),
    .log2 16 (iw 0xc1),
    .rcp 0 (iw 0x00),
    .rcp 16 (iw 0xc2),
    .rsqrt 0 (iw 0x00),
    .rsqrt 16 (iw 0xc3),
    .tanh 0 (iw 0x00),
    .tanh 16 (iw 0xc4),
    .sigmoid 0 (iw 0x00),
    .sigmoid 16 (iw 0xc5),
    .sin 0 (iw 0x00),
    .sin 16 (iw 0xc6)] : List Instr).all (fun c => !c.wf) = true := by decide +kernel

theorem test_wf_refuses_4 : ([
    .cos 0 (iw 0x00),
    .cos 16 (iw 0xc7),
    .mvIn 0 (iw 0x00),
    .mvIn 16 (iw 0x80),
    .mvOut 0 (iw 0x00),
    .mvOut 16 (iw 0x81),
    .mvHold 0 (iw 0x00),
    .mvHold 16 (iw 0x82),
    .mvWinRead 0 (iw 0x00),
    .mvWinRead 0 (iw 0x83 (fn := 3)),
    .mvWinRead 16 (iw 0x83 (fn := 0)),
    .mvWinWrite 0 (iw 0x00),
    .mvWinWrite 0 (iw 0x83 (fn := 0)),
    .mvWinWrite 16 (iw 0x83 (fn := 1)),
    .mvWinAtomic 0 (iw 0x00),
    .mvWinAtomic 0 (iw 0x83 (fn := 0)),
    .mvWinAtomic 16 (iw 0x83 (fn := 2)),
    .mvWinReduce 0 (iw 0x00),
    .mvWinReduce 0 (iw 0x83 (fn := 0)),
    .mvWinReduce 16 (iw 0x83 (fn := 3)),
    .fsig 0 (iw 0x00),
    .fsig 0 (iw 0xa0 (fl := 1)),
    .fsig 16 (iw 0xa0 (fl := 0)),
    .fsigFence 0 (iw 0x00),
    .fsigFence 0 (iw 0xa0),
    .fsigFence 16 (iw 0xa0 (fl := 1)),
    .fwait 0 (iw 0x00),
    .fwait 16 (iw 0xa1),
    .fwaitSatisfied 16,
    .bar 0 (iw 0x00),
    .bar 16 (iw 0xa2),
    .coll 0 (iw 0x00),
    .coll 16 (iw 0xa3),
    .moor 0 (iw 0x00),
    .moor 16 (iw 0xe0),
    .trap 0 (iw 0x00),
    .trap 16 (iw 0xe1),
    .mark 0 (iw 0x00),
    .mark 16 (iw 0xe2),
    .instructionSample 16] : List Instr).all (fun c => !c.wf) = true := by decide +kernel

theorem test_wf_refuses_5 : ([
    .icacheFillComplete 16,
    .transferComplete 16 0,
    .transferComplete 0 2,
    .memoryResponse 8 0 0 0 [] [],
    .memoryResponse 0 4 0 0 [] [],
    .regulatorAdmit 28,
    .berthYield 16,
    .horizonExpiry 16,
    .saveStart 16,
    .saveComplete 16,
    .restoreComplete 16,
    .scrubComplete 16,
    .quantumBoundary 16,
    .berthDrain 16 false,
    .spareMapWrite 16 0,
    .arrayMarkFailed 16 0,
    .arrayMarkFailed 0 9,
    .arraySelfTest 16 0 false,
    .arraySelfTest 0 9 false,
    .arrayTestComplete 16 false,
    .storeApertureAccess 16 0 false 0,
    .storeWriteBack 16 0,
    .storeReread 16 0,
    .operatingPointChange 16 0,
    .operatingPointChange 0 16,
    .staleNotice (.engine 16 0),
    .staleNotice (.engine 0 2),
    .staleNotice (.lighter 4),
    .staleNotice (.core 8),
    .staleAcknowledge (.engine 16 0),
    .staleAcknowledge (.engine 0 2),
    .staleAcknowledge (.lighter 4),
    .staleAcknowledge (.core 8),
    .holderEscalation (.engine 16 0),
    .holderEscalation (.engine 0 2),
    .holderEscalation (.lighter 4),
    .holderEscalation (.core 8),
    .translationCompletion 64 .untrans,
    .prgResponse 64 0,
    .priTimeout 64] : List Instr).all (fun c => !c.wf) = true := by decide +kernel

theorem test_wf_refuses_6 : ([
    .mmuMiss 8 0,
    .granuleWrite 65536 0,
    .generalTaskEcall 8 0 0,
    .generalTaskLimit 8,
    .generalTaskTrap 8 false,
    .coreTimeslice 8,
    .arm 8192 fetched0 vserve,
    .disarm 8192 fetched0 vserve,
    .add 8192 fetched0 vserve [],
    .update 8192 fetched0 vserve desc,
    .append 8192 fetched0 vserve [],
    .park 8192 fetched0 vserve,
    .resume 8192 fetched0 vserve,
    .release 8192 fetched0 vserve,
    .pages 8192 fetched0 vserve [],
    .listBuild 16 [],
    .listComplete 16 0 [],
    .quiesceDone 512,
    .keyZeroise 512,
    .holdStatus mg 8,
    .holdSlotSense 16,
    .holdSlotDeliver 16 sread,
    .holdSlotDeliver 0 ⟨[]⟩,
    .holdSlotDeliver 0 ⟨[[0]]⟩,
    .holdCommandComplete 16 false,
    .relocation 8 0 0,
    .relocation 0 0 (2 ^ 28),
    .remapFold 8,
    .mergeFlush 8,
    .dredgerRead 16 0 sread,
    .dredgerRead 0 0 ⟨[]⟩,
    .dredgerRead 0 0 ⟨[[0]]⟩,
    .lapAlarm 8,
    .wearLevel 16,
    .flitReceive 2 0 0 false 0 false false,
    .linkTrained 2 false false,
    .linkIdleEntry 2,
    .linkIdleExit 2,
    .laneIdleDetect 2 0,
    .laneIdleDetect 0 9,
    .laneScan 2 0 0 0,
    .laneScan 0 9 0 0,
    .laneScan 0 0 64 0,
    .laneScan 0 0 0 256] : List Instr).all (fun c => !c.wf) = true := by decide +kernel

theorem test_wf_refuses_7 : ([
    .swapReq 2 0 false,
    .swapReq 0 8 false,
    .swapGo 2 0 0,
    .swapGo 0 8 0,
    .swapGo 0 0 65536,
    .swapAt 2 0,
    .swapAt 0 65536,
    .inboundRequest 2 (fmsg 1),
    .inboundRequest 0 (fmsg 0),
    .inboundRequest 0 (fmsg 5),
    .remoteResponse 2 (fmsg 8),
    .remoteResponse 0 (fmsg 1),
    .ferryData 2 0 0 ⟨0, 0⟩ 0 (.bytes []) false,
    .ferryCredit 2 0 0 ⟨0, 0⟩,
    .ferryAbort 2 0 0 ⟨0, 0⟩,
    .pingReceive 2 (fmsg 1),
    .pongReceive 2 (fmsg 1),
    .lighterMreq 4 0 0 0 0 0 false [],
    .lighterMreq 0 0 256 0 0 0 false [],
    .lighterMreq 0 0 0 0 0 64 false [],
    .lighterDone 4 0 0,
    .lighterDone 0 256 0,
    .lighterAbortAck 4 0,
    .lighterAbortAck 0 256,
    .lighterAbortTimeout 4,
    .mqReady 8,
    .unitOpenTimeout (.berth 16),
    .unitOpenTimeout (.core 8),
    .unitOpenTimeout (.port 8),
    .unitOpenTimeout (.stack 8),
    .unitOpenTimeout (.link 2),
    .progressWatchdog false 8,
    .berthReset 16 0,
    .resetStep 24 false,
    .coreReset 8,
    .suspectTrial 4096,
    .suspectCleared 4096,
    .portIsolated 8,
    .blRaise .host 0,
    .blRaise (.core 8) 0] : List Instr).all (fun c => !c.wf) = true := by decide +kernel

theorem test_wf_refuses_8 : ([
    .blClaim .harbourmaster 10 false,
    .blClaim .host 0 false,
    .blClaim (.core 8) 0 false,
    .blComplete .harbourmaster 10 false 0,
    .blComplete .host 0 false 0,
    .blComplete (.core 8) 0 false 0,
    .blTargetWrite .harbourmaster 1024 0,
    .blTargetWrite .host 0 0,
    .blTargetWrite (.core 8) 0 0,
    .mbPost 8 false [],
    .mbTake 8 false,
    .mbReply 8 false 0 [],
    .mailboxTimeout 8,
    .mailboxConfig mg 8 false 0 false 0,
    .sensorSample false 16 0,
    .powerGood 34 false,
    .berthGate 16,
    .counterClear (.berth 16 0) 0,
    .counterClear (.berth 0 64) 0,
    .counterClear (.block 256) 0,
    .viewUpdate 512,
    .tallySet mg (.berth 16 0) tlcfg,
    .tallySet mg (.berth 0 64) tlcfg,
    .tallySet mg (.block 256) tlcfg,
    .sampleRead mg 16 0 0,
    .holdCommandTimeout 16,
    .linkTrainFail 2,
    .prIdleDetFall 2 0,
    .prIdleDetFall 0 9,
    .spareLaneLocked 2] : List Instr).all (fun c => !c.wf) = true := by decide +kernel

/-! ### The same commands without the fault pass -/

theorem test_wf_accepts_1 : ([
    .registerWrite .harbourmaster 0 0 0,
    .rcRegisterRead .harbourmaster 0 0 [],
    .doorbellWrite 0 0 none 0 0 0,
    .standingLaunch 0,
    .tensorCommand 0 fetched0 tb,
    .moveCommand 0 fetched0 mvb,
    .generalCommand 0 fetched0 gb,
    .ferryCommand 0 fetched0 fyb,
    .lighterCommand 0 fetched0 [],
    .jobDispatch (.berths 0),
    .msixModerateExpiry 0,
    .ctxCreate 0 hdr,
    .ctxDestroy 0 hdr 0,
    .ctxDestroyAll 0 hdr,
    .queueCreate 0 hdr qbody none,
    .queueDestroy 0 hdr 0,
    .queueFree 0,
    .fenceCreate 0 hdr 0 0,
    .fenceDestroy 0 hdr 0,
    .fenceGrant 0 hdr 0 0 false false,
    .fenceRelease 0 hdr 0,
    .fenceRead 0 hdr 0,
    .fenceSignal 0 hdr 0 0,
    .contextTeardown 0,
    .teardownComplete 0,
    .nop 0 (iw 0x0),
    .br 0 (iw 0x1),
    .brc 0 (iw 0x2),
    .loop 0 (iw 0x3),
    .endStream 0 (iw 0x4),
    .streamEnd 0,
    .salu 0 (iw 0x20),
    .smul 0 (iw 0x21),
    .sdiv 0 (iw 0x22),
    .sld 0 (iw 0x23),
    .sst 0 (iw 0x24),
    .nmov 0 (iw 0x25),
    .sget 0 (iw 0x26),
    .tmma 0 (iw 0x40),
    .tanchorSet 0 (iw 0x41)] : List Instr).all (fun c => c.wf) = true := by decide +kernel

theorem test_wf_accepts_2 : ([
    .tanchorMax 0 (iw 0x41 (fn := 1)),
    .tanchorRebase 0 (iw 0x41 (fn := 2)),
    .tclr 0 (iw 0x42),
    .tcomb 0 (iw 0x43),
    .tdrain 0 (iw 0x44),
    .tquant 0 (iw 0x45),
    .vadd 0 (iw 0x60),
    .vsub 0 (iw 0x61),
    .vmul 0 (iw 0x62),
    .vfma 0 (iw 0x63),
    .vmin 0 (iw 0x64),
    .vmax 0 (iw 0x65),
    .vcvt 0 (iw 0x66),
    .vcmp 0 (iw 0x67),
    .vsel 0 (iw 0x68),
    .plog 0 (iw 0x69),
    .vld 0 (iw 0x6a),
    .vst 0 (iw 0x6b),
    .vbcast 0 (iw 0x6c),
    .vlane 0 (iw 0x6d),
    .vred 0 (iw 0x6e),
    .vsumX 0 (iw 0x6f),
    .exp2 0 (iw 0xc0),
    .log2 0 (iw 0xc1),
    .rcp 0 (iw 0xc2),
    .rsqrt 0 (iw 0xc3),
    .tanh 0 (iw 0xc4),
    .sigmoid 0 (iw 0xc5),
    .sin 0 (iw 0xc6),
    .cos 0 (iw 0xc7),
    .mvIn 0 (iw 0x80),
    .mvOut 0 (iw 0x81),
    .mvHold 0 (iw 0x82),
    .mvWinRead 0 (iw 0x83 (fn := 0)),
    .mvWinWrite 0 (iw 0x83 (fn := 1)),
    .mvWinAtomic 0 (iw 0x83 (fn := 2)),
    .mvWinReduce 0 (iw 0x83 (fn := 3)),
    .fsig 0 (iw 0xa0 (fl := 0)),
    .fsigFence 0 (iw 0xa0 (fl := 1)),
    .fwait 0 (iw 0xa1)] : List Instr).all (fun c => c.wf) = true := by decide +kernel

theorem test_wf_accepts_3 : ([
    .fwaitSatisfied 0,
    .bar 0 (iw 0xa2),
    .coll 0 (iw 0xa3),
    .moor 0 (iw 0xe0),
    .trap 0 (iw 0xe1),
    .mark 0 (iw 0xe2),
    .instructionSample 0,
    .icacheFillComplete 0,
    .transferComplete 0 0,
    .memoryResponse 0 0 0 0 [] [],
    .regulatorAdmit 0,
    .berthYield 0,
    .horizonExpiry 0,
    .saveStart 0,
    .saveComplete 0,
    .restoreComplete 0,
    .scrubComplete 0,
    .quantumBoundary 0,
    .berthDrain 0 false,
    .spareMapWrite 0 0,
    .arrayMarkFailed 0 0,
    .arraySelfTest 0 0 false,
    .arrayTestComplete 0 false,
    .storeApertureAccess 0 0 false 0,
    .storeWriteBack 0 0,
    .storeReread 0 0,
    .operatingPointChange 0 0,
    .staleNotice .quay,
    .staleAcknowledge .quay,
    .holderEscalation .quay,
    .translationCompletion 0 .untrans,
    .prgResponse 0 0,
    .priTimeout 0,
    .mmuMiss 0 0,
    .granuleWrite 0 0,
    .generalTaskEcall 0 0 0,
    .generalTaskLimit 0,
    .generalTaskTrap 0 false,
    .coreTimeslice 0,
    .arm 0 fetched0 vserve] : List Instr).all (fun c => c.wf) = true := by decide +kernel

theorem test_wf_accepts_4 : ([
    .disarm 0 fetched0 vserve,
    .add 0 fetched0 vserve [],
    .update 0 fetched0 vserve desc,
    .append 0 fetched0 vserve [],
    .park 0 fetched0 vserve,
    .resume 0 fetched0 vserve,
    .release 0 fetched0 vserve,
    .pages 0 fetched0 vserve [],
    .listBuild 0 [],
    .listComplete 0 0 [],
    .quiesceDone 0,
    .keyZeroise 0,
    .holdStatus mg 0,
    .holdSlotSense 0,
    .holdSlotDeliver 0 sread,
    .holdCommandComplete 0 false,
    .relocation 0 0 0,
    .remapFold 0,
    .mergeFlush 0,
    .dredgerRead 0 0 sread,
    .lapAlarm 0,
    .wearLevel 0,
    .flitReceive 0 0 0 false 0 false false,
    .linkTrained 0 false false,
    .linkIdleEntry 0,
    .linkIdleExit 0,
    .laneIdleDetect 0 0,
    .laneScan 0 0 0 0,
    .swapReq 0 0 false,
    .swapGo 0 0 0,
    .swapAt 0 0,
    .inboundRequest 0 (fmsg 1),
    .remoteResponse 0 (fmsg 8),
    .ferryData 0 0 0 ⟨0, 0⟩ 0 (.bytes []) false,
    .ferryCredit 0 0 0 ⟨0, 0⟩,
    .ferryAbort 0 0 0 ⟨0, 0⟩,
    .pingReceive 0 (fmsg 1),
    .pongReceive 0 (fmsg 1),
    .lighterMreq 0 0 0 0 0 0 false [],
    .lighterDone 0 0 0] : List Instr).all (fun c => c.wf) = true := by decide +kernel

theorem test_wf_accepts_5 : ([
    .lighterAbortAck 0 0,
    .lighterAbortTimeout 0,
    .mqReady 0,
    .unitOpenTimeout (.berth 0),
    .progressWatchdog false 0,
    .berthReset 0 0,
    .resetStep 0 false,
    .coreReset 0,
    .suspectTrial 0,
    .suspectCleared 0,
    .portIsolated 0,
    .blRaise .harbourmaster 0,
    .blClaim .harbourmaster 0 false,
    .blComplete .harbourmaster 0 false 0,
    .blTargetWrite .harbourmaster 0 0,
    .mbPost 0 false [],
    .mbTake 0 false,
    .mbReply 0 false 0 [],
    .mailboxTimeout 0,
    .mailboxConfig mg 0 false 0 false 0,
    .sensorSample false 0 0,
    .powerGood 0 false,
    .berthGate 0,
    .counterClear (.block 0) 0,
    .viewUpdate 0,
    .tallySet mg (.block 0) tlcfg,
    .sampleRead mg 0 0 0,
    .holdCommandTimeout 0,
    .linkTrainFail 0,
    .prIdleDetFall 0 0,
    .spareLaneLocked 0] : List Instr).all (fun c => c.wf) = true := by decide +kernel

/-! ### The manual's worked examples, and values worked out by hand from its rules -/

/-- 05_berth_isa, the example of R162: the word of `tmma.bf16 a0, s1, s5, s25, scan`, written out, has the fields the manual lists. -/
theorem test_word_tmma_example : decodeFields 0x01880064_50400040 =
    ⟨0x40, 0, false, false, false, false, false, 0, 1, 5, 25, 0, 8, 8, 1, 0⟩ := by decide +kernel

/-- R159 bit by bit: the predicate, the flags and both halves of the immediate. -/
theorem test_word_fields : decodeFields (BitVec.ofNat 128 (0x61 + 5 * 2 ^ 8 + 2 ^ 11 + 2 ^ 14 + 63 * 2 ^ 16 + 9 * 2 ^ 22 + 3 * 2 ^ 56 + 7 * 2 ^ 64 + 2 ^ 127)) =
    ⟨0x61, 5, true, false, false, true, false, 63, 9, 0, 0, 0, 0, 0, 3, 0x8000000000000007⟩ := by decide +kernel

/-- Laying the fields out gives the word of the example back (R159, R162). -/
theorem test_word_encodes : encodeFields ⟨0x40, 0, false, false, false, false, false, 0, 1, 5, 25, 0, 8, 8, 1, 0⟩ = 0x01880064_50400040 := by decide +kernel

/-- 03_arithmetic, the MXFP6 example: the four element pairs with factors, rows and columns 0, scales 0x79 and 0x80. -/
def opA : Operand := ⟨5, fun _ k => [0x14, 0x2B, 0x05, 0x1F].getD k 0, fun _ _ => 0x79, 0x3F800000⟩
def opB : Operand := ⟨2, fun _ k => [0x40, 0xB4, 0x3A, 0x06].getD k 0, fun _ _ => 0x80, 0x3F800000⟩

/-- The products are 6, 1.03125, 0.78125 and 0.087890625, each × 2^-5. -/
theorem test_example_products : (List.range 4).map (fun k => (mulFactor (opA.factor 0 k) (opB.factor 0 k)).map fun x => (x.1 : Rat) * (2 : Rat) ^ (x.2 + 14)) =
    [some 3072, some 528, some 400, some 45] := by decide +kernel

/-- SCAN returns A = 7 (R105). -/
theorem test_example_prepass : prepass opA opB 32 = 7 := by decide +kernel

def exTile : Tile := { Tile.reset with anchor := 7, empty := false }.addAt 0 ((List.range 32).map fun k => mulFactor (opA.factor 0 k) (opB.factor 0 k))

/-- The entry holds 4,045 × 2^106, and LOW and OVF stay clear (R98, R100). -/
theorem test_example_entry : exTile.get 0 = 4045 * 2 ^ 106 ∧ exTile.low = false ∧ exTile.ovf = false := by decide +kernel

/-- Drained to FP32 it is 0x3E7C_D000, to BF16 0x3E7D (R110). -/
theorem test_example_drain : exTile.drainCode 10 0 0x3F800000 = 0x3E7CD000 ∧ exTile.drainCode 8 0 0x3F800000 = 0x3E7D := by decide +kernel

/-- R98's examples at A = -1: -0.75 of a grid step counts as -1, +0.75 as 0, and both set LOW. -/
theorem test_truncation_example :
    (({ Tile.reset with anchor := 1023 }.addAt 0 [some (-3, -130)]).get 0 = -1 ∧ ({ Tile.reset with anchor := 1023 }.addAt 0 [some (-3, -130)]).low = true) ∧
    (({ Tile.reset with anchor := 1023 }.addAt 0 [some (3, -130)]).get 0 = 0 ∧ ({ Tile.reset with anchor := 1023 }.addAt 0 [some (3, -130)]).low = true) := by decide +kernel

/-- 03_arithmetic, the example of order: at anchor 27, 2^25 - 2^25 and 1 combine to Q = 2^100, which drains to exactly 1.0 as BF16 (R108, R110). -/
theorem test_order_example :
    let part : Tile := { Tile.reset with anchor := 27, empty := false }
    let t := (part.addAt 0 [some (1, 25), some (-1, 25)]).combine (part.addAt 0 [some (1, 0)]) 0
    t.get 0 = 2 ^ 100 ∧ t.drainCode 8 0 0x3F800000 = 0x3F80 := by decide +kernel

/-- R115: FP32 to BF16 rounds to nearest, ties to even, and overflows to infinity. -/
theorem test_narrow_bf16 : ((fpNarrow fpBF16 0x3F808000).1, (fpNarrow fpBF16 0x3F818000).1, (fpNarrow fpBF16 0x7F7FFFFF).1) = (0x3F80, 0x3F82, 0x7F80) := by decide +kernel

/-- R113: 1.5 + 2.25 is 3.75; infinity minus infinity is the NaN 0x7FC0_0000 with invalid. -/
theorem test_fp_add : fpAdd fpFP32 0x3FC00000 0x40100000 = (0x40700000, 0) ∧ fpAdd fpFP32 0x7F800000 0xFF800000 = (0x7FC00000, flInvalid) := by decide +kernel

/-- R113: a fused multiply-add rounds once: (1 + 2^-23)^2 - (1 + 2^-22) is 2^-46. -/
theorem test_fp_fma_once : (fpFma fpFP32 0x3F800001 0x3F800001 0xBF800002).1 = 0x28800000 := by decide +kernel

/-- 04_berth, the example of R139: the record of the projection program takes 718.63 µs at 2.25 GHz and 854.53 µs at operating point 7 with R_D = 150 GB/s. -/
def exRec : WcRec := ⟨649444, 2304, 47677440, 110, 0, 0, 0, false⟩
theorem test_wc_example : (∃ t, wcTime exRec (oppClock 15) 150 0 = some t ∧ 718625 ≤ t ∧ t < 718635) ∧ ∃ t, wcTime exRec (oppClock 7) 150 0 = some t ∧ 854525 ≤ t ∧ t < 854535 := by
  refine ⟨⟨_, rfl, ?_, ?_⟩, _, rfl, ?_, ?_⟩ <;> norm_num [exRec, oppClock]

/-- 10_partitions, the example of R342: 400 launches a second of 854.53 µs on four streams load 1,367,248 berth-µs a second. -/
theorem test_load_example : loadOf 400 4 854530 = 1367248 := by
  have h : ((1367248 : Rat)).ceil = 1367248 := by decide +kernel
  norm_num [loadOf, h]
  rfl

/-- 09_pilot, the example: pages 0 and 1 of the frame's buffer share one entry of set 0x15, page 2 takes a second; the invalidation of page 1 drops the first alone. -/
def exCache : List Xlat :=
  let p := 0x7F3A20000000 / 2 ^ 21
  cacheAdd (cacheAdd (cacheAdd [] 0x2C05 1 p 0x2140000000 1 false true) 0x2C05 1 (p + 1) 0x2140200000 1 false true) 0x2C05 1 (p + 2) 0x1980600000 1 false true
theorem test_cache_example : exCache.map (fun x => (x.start, x.count, x.phys)) = [(2, 1, 0x1980600000), (0, 2, 0x2140000000)] ∧
    cacheSet 0x2C05 (0x7F3A20000000 / 2 ^ 25) = 0x15 ∧ (cachePurge exCache (some 0x2C05) 0x7F3A20200000 (2 ^ 21)).map (·.start) = [2] := by decide +kernel

/-- 11_hold, the example: slot 1,000,002 of an object on four channels lies at slot 0 of page 36 of the object's unit 61 there, address 0x01A2_C090. -/
def exObj : HoldObj := { hobj with slots := 2000000, place := (List.range 4).map fun c => (c, (List.range 100).map fun i => if i = 61 then 0x1A2C else i) }
theorem test_slot_example : exObj.home 1000002 = some (2, 0x01A2C090) := by decide +kernel

/-- 14_startup, the example of the clamp report: 300 above 256, 2,450 no multiple of 100 (R451). -/
theorem test_clamp_example : clampInt 1 256 1 300 = (256, some crAbove) ∧ clampInt 0 5000 100 2450 = (2400, some crMultiple) := by decide +kernel

/-- SipHash-2-4 (R259) under the key 00 to 0f, on the eight bytes 00 to 07: the published vector. -/
theorem test_siphash : sipHash 0x0706050403020100 0x0f0e0d0c0b0a0908 [0x0706050403020100] = 0x93f5f5799a932462 := by decide +kernel

/-- The check values of CRC-64 (R359) and CRC-32 (R448): those published for the digits 1 to 9. -/
theorem test_crc_checks : crc64 ((List.range 9).map fun i => BitVec.ofNat 8 (49 + i)) = 0x6C40DF5F0B497347 ∧
    crc32 ((List.range 9).map fun i => BitVec.ofNat 8 (49 + i)) = 0xCBF43926 := by decide +kernel

/-- α is a root of x^12 + x^6 + x^4 + x + 1, and its product with itself follows (R360). -/
theorem test_gf : gfPow 12 = 0x53 ∧ gfMul (gfPow 7) (gfPow 9) = gfPow 16 := by decide +kernel

/-- A codeword is zero at every root of the generator (R360), shown with 4 of them. -/
theorem test_rs_roots : ((List.range 4).map fun i => ([5, 0xABC, 77] ++ rsParity 4 [5, 0xABC, 77]).foldl (fun v c => gfMul (gfPow (i + 1)) v ^^^ c) 0) = [0, 0, 0, 0] := by
  decide +kernel

/-- What the transmitter deals over three lanes the receiver puts together again (R385). -/
theorem test_deal : reassemble 10 ((List.range 3).map fun j => dealt 3 j (List.range 10)) = List.range 10 := by decide +kernel

/-! ### One step of each kind -/

/-- 08_quay, the example of the doorbell: a ring of 256 slots with its tail at 250 takes slot 2 of lap 1 (8 new slots), and the delayed write of slot 250 is dropped and counted (R271). -/
def bell : State := chg (hup asl) fun b => { b with quay := { b.quay with queues := [(0, aqueue), (1, { queue with n := 8, tail := 250, fetch := 250, ringHeads := [] })] } }
theorem test_doorbell_example : (∃ t, exec (.doorbellWrite 3 1 (some 5) 0x0F 0x80000002 0) bell = .next t ∧ (tget t.blk.quay.queues 1).map (·.tail) = some 258 ∧
    ∃ u, exec (.doorbellWrite 3 1 (some 5) 0x0F 0x000000FA 0) t = .next u ∧ (tget u.blk.quay.queues 1).map (·.tail) = some 258 ∧ u.blk.rd F.QY_DB_STALE_OUT_OF_RANGE = 1) :=
  ⟨_, rfl, by decide +kernel, _, rfl, by decide +kernel, by decide +kernel⟩

/-- An empty queue passes 10 ns (log 13). -/
theorem test_idle_ticks : ∃ t, step up = .next t ∧ t.aon.ns = 2000000020 := ⟨_, rfl, by decide +kernel⟩

/-- A step takes the first command of the queue and leaves the rest. -/
theorem test_queue_order : ∃ t, step { sl with pending := [.leaseRelease mg, .hangScan] } = .next t ∧ t.pending = [.hangScan] ∧ t.blk.harbour.lease = none := ⟨_, rfl, by decide +kernel, by decide +kernel⟩

/-- A division by zero of sdiv runs on and the stream falls through (R173). -/
theorem test_sdiv_zero : ∃ t, exec (.sdiv 0 (iw 0x22 (rd := 3) (ra := 1) (rb := 2))) (regs job fun r => r.setS 1 7) = .next t ∧ ((t.blk.berth 0).stream.map (·.pc)) = some 32 := ⟨_, rfl, by decide +kernel⟩

/-- An unassigned opcode stops the job with ILLEGAL_INSTRUCTION (R166, R168). -/
theorem test_unassigned_opcode : ∃ t, exec (.nop 0 (iw 0x1F)) job = .next t ∧ (tget t.blk.quay.cmds 5).map (·.status) = some 0x60 := ⟨_, rfl, by decide +kernel⟩

/-- A unit that does not exist is a fault by name. -/
theorem test_no_unit : exec (.powerGood 34 true) up = .fault .noSuchUnit := by rfl

/-! ### States and operands that meet the hypotheses of the obligations, clause by clause -/

theorem test_hyp_ControlInstructionsMoveTheStream :
    (let s : State := job; let n : Nat := 0; let w : IWord := iw 0; let st : Stream := stream; let f := decodeFields w; CanIssue s n .nop w st ∧
       f.pe = false ∧ f.op = 0 ∧ st.inCode (st.pc + 16)) ∧
    (let s : State := job; let n : Nat := 0; let w : IWord := iw 1 (imm := 4); let st : Stream := stream; let f := decodeFields w;
     let tgt : Int := (st.pc : Int) + 16 * (f.imm.setWidth 32).toInt; CanIssue s n .br w st ∧ f.pe = false ∧ 0 ≤ tgt ∧ st.inCode tgt.toNat) ∧
    (let s : State := job; let n : Nat := 0; let w : IWord := iw 2 (imm := 0x0000000000000004) (fl := 1) (fn := 0); let st : Stream := stream;
     let f := decodeFields w; let r := (s.blk.berth n).regs; let tgt : Int := (st.pc : Int) + 16 * (f.imm.setWidth 32).toInt;
     let y := if f.fl13 then ((f.imm >>> 32).setWidth 32).signExtend 64 else r.sreg f.rb; let a := r.sreg f.ra;
     let holds : Bool := match f.fn with | 0 => a = y | 1 => a ≠ y | 2 => a.slt y | 3 => !a.slt y | 4 => a.ult y | _ => !a.ult y;
     CanIssue s n .brc w st ∧ f.pe = false ∧ f.fn ≤ 5 ∧ holds = true ∧ 0 ≤ tgt ∧ st.inCode tgt.toNat) ∧
    (let s : State := job; let n : Nat := 0; let w : IWord := iw 2 (imm := 4) (fl := 1) (fn := 1); let st : Stream := stream; let f := decodeFields w;
     let r := (s.blk.berth n).regs; let y := if f.fl13 then ((f.imm >>> 32).setWidth 32).signExtend 64 else r.sreg f.rb; let a := r.sreg f.ra;
     let holds : Bool := match f.fn with | 0 => a = y | 1 => a ≠ y | 2 => a.slt y | 3 => !a.slt y | 4 => a.ult y | _ => !a.ult y;
     CanIssue s n .brc w st ∧ f.pe = false ∧ f.fn ≤ 5 ∧ holds = false ∧ st.inCode (st.pc + 16)) ∧
    (let s : State := job; let n : Nat := 0; let w : IWord := iw 3 (ra := 1) (imm := 2); let st : Stream := stream; let f := decodeFields w;
     let r := (s.blk.berth n).regs; let a := r.sreg f.ra; CanIssue s n .loop w st ∧ f.pe = false ∧ a.toNat ≤ 1 ∧ st.inCode (st.pc + 16)) ∧
    (let s : State := regs job fun r => r.setS 1 2; let n : Nat := 0; let w : IWord := iw 3 (ra := 1) (imm := 2); let st : Stream := stream;
     let f := decodeFields w; let r := (s.blk.berth n).regs; let tgt : Int := (st.pc : Int) + 16 * (f.imm.setWidth 32).toInt; let a := r.sreg f.ra;
     let known := st.loops.any fun l => l.1 = st.pc; CanIssue s n .loop w st ∧ f.pe = false ∧ 1 < a.toNat ∧ (known = true ∨ st.loops.length < 8) ∧
       0 ≤ tgt ∧ st.inCode tgt.toNat) ∧
    (let s : State := job; let n : Nat := 0; let w : IWord := iw 4; let st : Stream := stream; let f := decodeFields w;
     CanIssue s n .endStream w st ∧ f.pe = false) ∧
    (let st : Stream := { stream with pc := 4080 }; let s : State := strm job fun _ => st; let n : Nat := 0; let w : IWord := iw 0;
     let f := decodeFields w; tget s.blk.quay.cmds st.job = some cmd ∧ cmd.status = 0 ∧ f.pe = false ∧ CanIssue s n .nop w st ∧ f.op = 0 ∧
       (¬ st.inCode (st.pc + 16))) ∧
    (let s : State := job; let n : Nat := 0; let w : IWord := iw 1 (imm := 0x10000); let st : Stream := stream; let f := decodeFields w;
     let tgt : Int := (st.pc : Int) + 16 * (f.imm.setWidth 32).toInt; tget s.blk.quay.cmds st.job = some cmd ∧ cmd.status = 0 ∧ f.pe = false ∧
       CanIssue s n .br w st ∧ (¬ (0 ≤ tgt ∧ st.inCode tgt.toNat))) ∧
    (let s : State := job; let n : Nat := 0; let w : IWord := iw 2 (imm := 0x10000) (fl := 1); let st : Stream := stream; let f := decodeFields w;
     let r := (s.blk.berth n).regs; let tgt : Int := (st.pc : Int) + 16 * (f.imm.setWidth 32).toInt;
     let y := if f.fl13 then ((f.imm >>> 32).setWidth 32).signExtend 64 else r.sreg f.rb; let a := r.sreg f.ra;
     let holds : Bool := match f.fn with | 0 => a = y | 1 => a ≠ y | 2 => a.slt y | 3 => !a.slt y | 4 => a.ult y | _ => !a.ult y;
     tget s.blk.quay.cmds st.job = some cmd ∧ cmd.status = 0 ∧ f.pe = false ∧ CanIssue s n .brc w st ∧ f.fn ≤ 5 ∧ holds = true ∧ (¬ (0 ≤ tgt ∧
       st.inCode tgt.toNat))) ∧
    (let s : State := regs job fun r => r.setS 1 2; let n : Nat := 0; let w : IWord := iw 3 (ra := 1) (imm := 0x10000); let st : Stream := stream;
     let f := decodeFields w; let r := (s.blk.berth n).regs; let tgt : Int := (st.pc : Int) + 16 * (f.imm.setWidth 32).toInt; let a := r.sreg f.ra;
     let known := st.loops.any fun l => l.1 = st.pc; tget s.blk.quay.cmds st.job = some cmd ∧ cmd.status = 0 ∧ f.pe = false ∧
       CanIssue s n .loop w st ∧ 1 < a.toNat ∧ (known = true ∨ st.loops.length < 8) ∧ (¬ (0 ≤ tgt ∧ st.inCode tgt.toNat))) ∧
    (let st : Stream := { stream with loops := (List.range 8).map fun k => (k * 16 + 64, 0) };
     let s : State := strm (regs job fun r => r.setS 1 2) fun _ => st; let n : Nat := 0; let w : IWord := iw 3 (ra := 1) (imm := 2);
     let f := decodeFields w; let r := (s.blk.berth n).regs; let a := r.sreg f.ra; let known := st.loops.any fun l => l.1 = st.pc;
     tget s.blk.quay.cmds st.job = some cmd ∧ cmd.status = 0 ∧ f.pe = false ∧ CanIssue s n .loop w st ∧ 1 < a.toNat ∧ known = false ∧
       8 ≤ st.loops.length) := by
  iterate 11 refine And.intro (by decide +kernel) ?_
  decide +kernel

theorem test_hyp_ScalarArithmeticWritesItsResult :
    (let s : State := vjob; let n : Nat := 0; let w : IWord := iw 0x20 (rd := 3) (ra := 0) (rb := 2); let st : Stream := stream; let v := 7;
     let f := decodeFields w; let r := (s.blk.berth n).regs; let a := r.sreg f.ra; let y := if f.fl13 then f.imm else r.sreg f.rb;
     let salu : List Word := [a + y, a - y, a &&& y, a ||| y, a ^^^ y, a <<< (y.toNat % 64), a >>> (y.toNat % 64), a.sshiftRight (y.toNat % 64), if a.slt y then 1 else 0, if a.ult y then 1 else 0, if a.slt y then a else y, if a.slt y then y else a, if a.ult y then a else y, if a.ult y then y else a];
     f.pe = false ∧ st.inCode (st.pc + 16) ∧ CanIssue s n .salu w st ∧ salu[f.fn]? = some v) ∧
    (let s : State := vjob; let n : Nat := 0; let w : IWord := iw 0x21 (rd := 3) (ra := 2) (rb := 2); let st : Stream := stream; let v := 49;
     let f := decodeFields w; let r := (s.blk.berth n).regs; let a := r.sreg f.ra; let z := r.sreg f.rb;
     let smul : List Word := [a * z, BitVec.ofInt 64 ((a.toInt * z.toInt).fdiv (2 ^ 64)), BitVec.ofNat 64 (a.toNat * z.toNat / 2 ^ 64)];
     f.pe = false ∧ st.inCode (st.pc + 16) ∧ CanIssue s n .smul w st ∧ smul[f.fn]? = some v) ∧
    (let s : State := vjob; let n : Nat := 0; let w : IWord := iw 0x22 (rd := 3) (ra := 2) (rb := 0); let st : Stream := stream;
     let v := BitVec.allOnes 64; let f := decodeFields w; let r := (s.blk.berth n).regs; let a := r.sreg f.ra; let z := r.sreg f.rb;
     let sdiv : List Word := if z = 0 then [BitVec.allOnes 64, BitVec.allOnes 64, a, a] else [BitVec.ofInt 64 (a.toInt.tdiv z.toInt), a / z, BitVec.ofInt 64 (a.toInt.tmod z.toInt), a % z];
     f.pe = false ∧ st.inCode (st.pc + 16) ∧ CanIssue s n .sdiv w st ∧ sdiv[f.fn]? = some v) := by
  iterate 2 refine And.intro (by decide +kernel) ?_
  decide +kernel

theorem test_hyp_SpecialReadsGiveTheNamedItem :
    (let s : State := vjob; let n : Nat := 0; let w : IWord := iw 0x25 (rd := 3) (ra := 1); let st : Stream := stream; let f := decodeFields w;
     f.pe = false ∧ st.inCode (st.pc + 16) ∧ CanIssue s n .nmov w st ∧ f.fn = 0 ∧ f.ra < 16) ∧
    (let s : State := vjob; let n : Nat := 0; let w : IWord := iw 0x25 (rd := 3) (ra := 2) (fn := 1); let st : Stream := stream;
     let f := decodeFields w; let r := (s.blk.berth n).regs; f.pe = false ∧ st.inCode (st.pc + 16) ∧ CanIssue s n .nmov w st ∧ f.fn = 1 ∧ f.rd < 16 ∧
       (r.tile f.rd).empty = true ∧ -512 ≤ (r.sreg f.ra).toInt ∧ (r.sreg f.ra).toInt ≤ 511) ∧
    (let s : State := vjob; let n : Nat := 0; let w : IWord := iw 0x26 (rd := 3) (fn := 5); let st : Stream := stream; let v := 1;
     let f := decodeFields w; let r := (s.blk.berth n).regs; let i := f.imm.toNat % 2 ^ 32;
     let item : List Word := [(r.tile i).status, (r.tile i).scaleWord, st.vflags.setWidth 64, st.vflags.setWidth 64, BitVec.ofNat 64 st.rank, BitVec.ofNat 64 st.streams, st.args.getD i 0];
     f.pe = false ∧ st.inCode (st.pc + 16) ∧ CanIssue s n .sget w st ∧ (f.fn = 0 ∨ f.fn = 1 ∨ f.fn = 6 → i ≤ 15) ∧ item[f.fn]? = some v) := by
  iterate 2 refine And.intro (by decide +kernel) ?_
  decide +kernel

theorem test_hyp_ScalarAccessesReachEightBytes :
    (let s : State := vjob; let n : Nat := 0; let w : IWord := iw 0x23 (rd := 3) (ra := 1) (imm := 8); let st : Stream := stream;
     let f := decodeFields w; let r := (s.blk.berth n).regs; let x := s.blk.berth n;
     let ea : Int := ((r.sreg f.ra).toNat : Int) + (f.imm.setWidth 32).toInt; f.pe = false ∧ st.inCode (st.pc + 16) ∧ x.badBits = [] ∧
       (r.sreg f.ra).toNat < 2 ^ 25 ∧ 0 ≤ ea ∧ ea % 8 = 0 ∧ ea + 8 ≤ 0x1400000 ∧ CanIssue s n .sld w st) ∧
    (let s : State := vjob; let n : Nat := 0; let w : IWord := iw 0x24 (ra := 1) (rb := 2) (imm := 8); let st : Stream := stream;
     let f := decodeFields w; let r := (s.blk.berth n).regs; let x := s.blk.berth n;
     let ea : Int := ((r.sreg f.ra).toNat : Int) + (f.imm.setWidth 32).toInt; f.pe = false ∧ st.inCode (st.pc + 16) ∧ x.badBits = [] ∧
       (r.sreg f.ra).toNat < 2 ^ 25 ∧ 0 ≤ ea ∧ ea % 8 = 0 ∧ ea + 8 ≤ 0x1400000 ∧ CanIssue s n .sst w st ∧ Memory.wf r.store) := by
  iterate 1 refine And.intro (by decide +kernel) ?_
  decide +kernel

theorem test_hyp_IllegalInstructionsStopTheJob :
    (let s : State := vjob; let n : Nat := 0; let w : IWord := iw 0x20 (fn := 14); let st : Stream := stream; let cmd : Cmd := cmd; let k := 5;
     let f := decodeFields w;
     let reason : BRow → Nat → Prop := fun row k => match row with | .salu => if f.pe then k = 0x03 else 13 < f.fn ∧ k = 0x05 | .smul => if f.pe then k = 0x03 else 2 < f.fn ∧ k = 0x05 | .sdiv => if f.pe then k = 0x03 else 3 < f.fn ∧ k = 0x05 | .vadd | .vsub | .vmul | .vmin | .vmax => if 32 ≤ f.rd ∨ 32 ≤ f.ra ∨ 32 ≤ f.rb then k = 0x02 else f.fa ≠ 0xB ∧ f.fa ≠ 0x8 ∧ k = 0x04 | .nop => f.op ≠ 0 ∧ k = 0x01 | _ => False;
     tget s.blk.quay.cmds st.job = some cmd ∧ cmd.status = 0 ∧ CanIssue s n .salu w st ∧ reason .salu k) ∧
    (let s : State := vjob; let n : Nat := 0; let w : IWord := iw 0x21 (fn := 3); let st : Stream := stream; let cmd : Cmd := cmd; let k := 5;
     let f := decodeFields w;
     let reason : BRow → Nat → Prop := fun row k => match row with | .salu => if f.pe then k = 0x03 else 13 < f.fn ∧ k = 0x05 | .smul => if f.pe then k = 0x03 else 2 < f.fn ∧ k = 0x05 | .sdiv => if f.pe then k = 0x03 else 3 < f.fn ∧ k = 0x05 | .vadd | .vsub | .vmul | .vmin | .vmax => if 32 ≤ f.rd ∨ 32 ≤ f.ra ∨ 32 ≤ f.rb then k = 0x02 else f.fa ≠ 0xB ∧ f.fa ≠ 0x8 ∧ k = 0x04 | .nop => f.op ≠ 0 ∧ k = 0x01 | _ => False;
     tget s.blk.quay.cmds st.job = some cmd ∧ cmd.status = 0 ∧ CanIssue s n .smul w st ∧ reason .smul k) ∧
    (let s : State := vjob; let n : Nat := 0; let w : IWord := iw 0x22 (fn := 4); let st : Stream := stream; let cmd : Cmd := cmd; let k := 5;
     let f := decodeFields w;
     let reason : BRow → Nat → Prop := fun row k => match row with | .salu => if f.pe then k = 0x03 else 13 < f.fn ∧ k = 0x05 | .smul => if f.pe then k = 0x03 else 2 < f.fn ∧ k = 0x05 | .sdiv => if f.pe then k = 0x03 else 3 < f.fn ∧ k = 0x05 | .vadd | .vsub | .vmul | .vmin | .vmax => if 32 ≤ f.rd ∨ 32 ≤ f.ra ∨ 32 ≤ f.rb then k = 0x02 else f.fa ≠ 0xB ∧ f.fa ≠ 0x8 ∧ k = 0x04 | .nop => f.op ≠ 0 ∧ k = 0x01 | _ => False;
     tget s.blk.quay.cmds st.job = some cmd ∧ cmd.status = 0 ∧ CanIssue s n .sdiv w st ∧ reason .sdiv k) ∧
    (let s : State := vjob; let n : Nat := 0; let w : IWord := iw 0x60 (rd := 40) (fa := 11); let st : Stream := stream; let cmd : Cmd := cmd;
     let k := 2; let f := decodeFields w;
     let reason : BRow → Nat → Prop := fun row k => match row with | .salu => if f.pe then k = 0x03 else 13 < f.fn ∧ k = 0x05 | .smul => if f.pe then k = 0x03 else 2 < f.fn ∧ k = 0x05 | .sdiv => if f.pe then k = 0x03 else 3 < f.fn ∧ k = 0x05 | .vadd | .vsub | .vmul | .vmin | .vmax => if 32 ≤ f.rd ∨ 32 ≤ f.ra ∨ 32 ≤ f.rb then k = 0x02 else f.fa ≠ 0xB ∧ f.fa ≠ 0x8 ∧ k = 0x04 | .nop => f.op ≠ 0 ∧ k = 0x01 | _ => False;
     tget s.blk.quay.cmds st.job = some cmd ∧ cmd.status = 0 ∧ CanIssue s n .vadd w st ∧ reason .vadd k) ∧
    (let s : State := vjob; let n : Nat := 0; let w : IWord := iw 0x61 (rd := 40) (fa := 11); let st : Stream := stream; let cmd : Cmd := cmd;
     let k := 2; let f := decodeFields w;
     let reason : BRow → Nat → Prop := fun row k => match row with | .salu => if f.pe then k = 0x03 else 13 < f.fn ∧ k = 0x05 | .smul => if f.pe then k = 0x03 else 2 < f.fn ∧ k = 0x05 | .sdiv => if f.pe then k = 0x03 else 3 < f.fn ∧ k = 0x05 | .vadd | .vsub | .vmul | .vmin | .vmax => if 32 ≤ f.rd ∨ 32 ≤ f.ra ∨ 32 ≤ f.rb then k = 0x02 else f.fa ≠ 0xB ∧ f.fa ≠ 0x8 ∧ k = 0x04 | .nop => f.op ≠ 0 ∧ k = 0x01 | _ => False;
     tget s.blk.quay.cmds st.job = some cmd ∧ cmd.status = 0 ∧ CanIssue s n .vsub w st ∧ reason .vsub k) ∧
    (let s : State := vjob; let n : Nat := 0; let w : IWord := iw 0x62 (rd := 40) (fa := 11); let st : Stream := stream; let cmd : Cmd := cmd;
     let k := 2; let f := decodeFields w;
     let reason : BRow → Nat → Prop := fun row k => match row with | .salu => if f.pe then k = 0x03 else 13 < f.fn ∧ k = 0x05 | .smul => if f.pe then k = 0x03 else 2 < f.fn ∧ k = 0x05 | .sdiv => if f.pe then k = 0x03 else 3 < f.fn ∧ k = 0x05 | .vadd | .vsub | .vmul | .vmin | .vmax => if 32 ≤ f.rd ∨ 32 ≤ f.ra ∨ 32 ≤ f.rb then k = 0x02 else f.fa ≠ 0xB ∧ f.fa ≠ 0x8 ∧ k = 0x04 | .nop => f.op ≠ 0 ∧ k = 0x01 | _ => False;
     tget s.blk.quay.cmds st.job = some cmd ∧ cmd.status = 0 ∧ CanIssue s n .vmul w st ∧ reason .vmul k) ∧
    (let s : State := vjob; let n : Nat := 0; let w : IWord := iw 0x64 (rd := 40) (fa := 11); let st : Stream := stream; let cmd : Cmd := cmd;
     let k := 2; let f := decodeFields w;
     let reason : BRow → Nat → Prop := fun row k => match row with | .salu => if f.pe then k = 0x03 else 13 < f.fn ∧ k = 0x05 | .smul => if f.pe then k = 0x03 else 2 < f.fn ∧ k = 0x05 | .sdiv => if f.pe then k = 0x03 else 3 < f.fn ∧ k = 0x05 | .vadd | .vsub | .vmul | .vmin | .vmax => if 32 ≤ f.rd ∨ 32 ≤ f.ra ∨ 32 ≤ f.rb then k = 0x02 else f.fa ≠ 0xB ∧ f.fa ≠ 0x8 ∧ k = 0x04 | .nop => f.op ≠ 0 ∧ k = 0x01 | _ => False;
     tget s.blk.quay.cmds st.job = some cmd ∧ cmd.status = 0 ∧ CanIssue s n .vmin w st ∧ reason .vmin k) ∧
    (let s : State := vjob; let n : Nat := 0; let w : IWord := iw 0x65 (rd := 40) (fa := 11); let st : Stream := stream; let cmd : Cmd := cmd;
     let k := 2; let f := decodeFields w;
     let reason : BRow → Nat → Prop := fun row k => match row with | .salu => if f.pe then k = 0x03 else 13 < f.fn ∧ k = 0x05 | .smul => if f.pe then k = 0x03 else 2 < f.fn ∧ k = 0x05 | .sdiv => if f.pe then k = 0x03 else 3 < f.fn ∧ k = 0x05 | .vadd | .vsub | .vmul | .vmin | .vmax => if 32 ≤ f.rd ∨ 32 ≤ f.ra ∨ 32 ≤ f.rb then k = 0x02 else f.fa ≠ 0xB ∧ f.fa ≠ 0x8 ∧ k = 0x04 | .nop => f.op ≠ 0 ∧ k = 0x01 | _ => False;
     tget s.blk.quay.cmds st.job = some cmd ∧ cmd.status = 0 ∧ CanIssue s n .vmax w st ∧ reason .vmax k) ∧
    (let s : State := vjob; let n : Nat := 0; let w : IWord := iw 0x5; let st : Stream := stream; let cmd : Cmd := cmd; let k := 1;
     let f := decodeFields w;
     let reason : BRow → Nat → Prop := fun row k => match row with | .salu => if f.pe then k = 0x03 else 13 < f.fn ∧ k = 0x05 | .smul => if f.pe then k = 0x03 else 2 < f.fn ∧ k = 0x05 | .sdiv => if f.pe then k = 0x03 else 3 < f.fn ∧ k = 0x05 | .vadd | .vsub | .vmul | .vmin | .vmax => if 32 ≤ f.rd ∨ 32 ≤ f.ra ∨ 32 ≤ f.rb then k = 0x02 else f.fa ≠ 0xB ∧ f.fa ≠ 0x8 ∧ k = 0x04 | .nop => f.op ≠ 0 ∧ k = 0x01 | _ => False;
     tget s.blk.quay.cmds st.job = some cmd ∧ cmd.status = 0 ∧ CanIssue s n .nop w st ∧ reason .nop k) := by
  iterate 8 refine And.intro (by decide +kernel) ?_
  decide +kernel

theorem test_hyp_VectorArithmeticActsOnActiveLanes :
    (let s : State := vjob; let n : Nat := 0; let w : IWord := iw 0x60 (rd := 3) (ra := 1) (rb := 2) (rc := 1) (fa := 11) (fl := 4) (mode := 0);
     let st : Stream := stream; let f := decodeFields w; st.inCode (st.pc + 16) ∧ f.rd < 32 ∧ f.ra < 32 ∧ f.rb < 32 ∧ (f.fa = 0xB ∨ f.fa = 0x8) ∧
       CanIssue s n .vadd w st) ∧
    (let s : State := vjob; let n : Nat := 0; let w : IWord := iw 0x61 (rd := 3) (ra := 1) (rb := 2) (rc := 1) (fa := 8) (fl := 4) (mode := 0);
     let st : Stream := stream; let f := decodeFields w; st.inCode (st.pc + 16) ∧ f.rd < 32 ∧ f.ra < 32 ∧ f.rb < 32 ∧ (f.fa = 0xB ∨ f.fa = 0x8) ∧
       CanIssue s n .vsub w st) ∧
    (let s : State := vjob; let n : Nat := 0; let w : IWord := iw 0x62 (rd := 3) (ra := 1) (rb := 2) (rc := 1) (fa := 11) (fl := 4) (mode := 0);
     let st : Stream := stream; let f := decodeFields w; st.inCode (st.pc + 16) ∧ f.rd < 32 ∧ f.ra < 32 ∧ f.rb < 32 ∧ (f.fa = 0xB ∨ f.fa = 0x8) ∧
       CanIssue s n .vmul w st) ∧
    (let s : State := vjob; let n : Nat := 0; let w : IWord := iw 0x63 (rd := 3) (ra := 1) (rb := 2) (rc := 1) (fa := 8) (fl := 4) (mode := 0);
     let st : Stream := stream; let f := decodeFields w; st.inCode (st.pc + 16) ∧ f.rd < 32 ∧ f.ra < 32 ∧ f.rb < 32 ∧ (f.fa = 0xB ∨ f.fa = 0x8) ∧
       CanIssue s n .vfma w st ∧ f.rc < 32) ∧
    (let s : State := vjob; let n : Nat := 0; let w : IWord := iw 0x64 (rd := 3) (ra := 1) (rb := 2) (rc := 1) (fa := 11) (fl := 4) (mode := 0);
     let st : Stream := stream; let f := decodeFields w; st.inCode (st.pc + 16) ∧ f.rd < 32 ∧ f.ra < 32 ∧ f.rb < 32 ∧ (f.fa = 0xB ∨ f.fa = 0x8) ∧
       CanIssue s n .vmin w st) ∧
    (let s : State := vjob; let n : Nat := 0; let w : IWord := iw 0x65 (rd := 3) (ra := 1) (rb := 2) (rc := 1) (fa := 8) (fl := 4) (mode := 0);
     let st : Stream := stream; let f := decodeFields w; st.inCode (st.pc + 16) ∧ f.rd < 32 ∧ f.ra < 32 ∧ f.rb < 32 ∧ (f.fa = 0xB ∨ f.fa = 0x8) ∧
       CanIssue s n .vmax w st) := by
  iterate 5 refine And.intro (by decide +kernel) ?_
  decide +kernel

theorem test_hyp_LaneMovesAndSelections :
    (let s : State := vjob; let n : Nat := 0; let w : IWord := iw 0x66 (rd := 3) (ra := 1) (fn := 4); let st : Stream := stream;
     let f := decodeFields w; st.inCode (st.pc + 16) ∧ CanIssue s n .vcvt w st ∧ f.rd < 32 ∧ f.ra < 32 ∧ (f.fn = 4 ∨ f.fn = 5 ∨ f.fn = 6)) ∧
    (let s : State := vjob; let n : Nat := 0; let w : IWord := iw 0x66 (rd := 3) (ra := 1) (rb := 2); let st : Stream := stream;
     let f := decodeFields w; st.inCode (st.pc + 16) ∧ CanIssue s n .vcvt w st ∧ f.rd < 32 ∧ f.ra < 32 ∧ f.rb < 32 ∧ (f.fn = 0 ∨ f.fn = 1)) ∧
    (let s : State := vjob; let n : Nat := 0; let w : IWord := iw 0x66 (rd := 3) (ra := 1) (fn := 2) (imm := 1); let st : Stream := stream;
     let f := decodeFields w; st.inCode (st.pc + 16) ∧ CanIssue s n .vcvt w st ∧ f.rd < 32 ∧ f.ra < 32 ∧ (f.fn = 2 ∨ f.fn = 3)) ∧
    (let s : State := vjob; let n : Nat := 0; let w : IWord := iw 0x68 (rd := 3) (ra := 1) (rb := 2) (fn := 1); let st : Stream := stream;
     let f := decodeFields w; st.inCode (st.pc + 16) ∧ CanIssue s n .vsel w st ∧ f.rd < 32 ∧ f.ra < 32 ∧ f.rb < 32 ∧ f.fn < 8) ∧
    (let s : State := vjob; let n : Nat := 0; let w : IWord := iw 0x6c (rd := 1) (ra := 1); let st : Stream := stream; let f := decodeFields w;
     st.inCode (st.pc + 16) ∧ CanIssue s n .vbcast w st ∧ f.rd < 32) ∧
    (let s : State := vjob; let n : Nat := 0; let w : IWord := iw 0x6d (rd := 3) (ra := 1) (imm := 5); let st : Stream := stream;
     let f := decodeFields w; st.inCode (st.pc + 16) ∧ CanIssue s n .vlane w st ∧ f.ra < 32) ∧
    (let s : State := vjob; let n : Nat := 0; let w : IWord := iw 0x6e (rd := 3) (ra := 1); let st : Stream := stream; let f := decodeFields w;
     st.inCode (st.pc + 16) ∧ CanIssue s n .vred w st ∧ f.ra < 32 ∧ f.fn ≤ 1) := by
  iterate 6 refine And.intro (by decide +kernel) ?_
  decide +kernel

theorem test_hyp_PredicatesAreWrittenUnderTheMask :
    (let s : State := pjob; let n : Nat := 0; let w : IWord := iw 0x69 (rd := 2) (ra := 1) (rb := 3) (fn := 7) (imm := 8208);
     let st : Stream := stream; let f := decodeFields w; st.inCode (st.pc + 16) ∧ f.rd < 8 ∧ CanIssue s n .plog w st ∧ f.fn < 8 ∧
       (f.fn ≤ 4 ∨ f.fn = 7 → f.ra < 8) ∧ (f.fn ≤ 3 → f.rb < 8)) ∧
    (let s : State := pjob; let n : Nat := 0; let w : IWord := iw 0x67 (rd := 2) (ra := 1) (rb := 2) (fn := 2); let st : Stream := stream;
     let f := decodeFields w; st.inCode (st.pc + 16) ∧ f.rd < 8 ∧ CanIssue s n .vcmp w st ∧ f.fn ≤ 5 ∧ f.ra < 32 ∧ f.rb < 32) := by
  iterate 1 refine And.intro (by decide +kernel) ?_
  decide +kernel

theorem test_hyp_SpecialFunctionsActOnActiveLanes :
    (let s : State := vjob; let n : Nat := 0; let w : IWord := iw 0xc0 (rd := 3) (ra := 1) (fa := 11); let st : Stream := stream;
     let f := decodeFields w; st.inCode (st.pc + 16) ∧ f.rd < 32 ∧ f.ra < 32 ∧ f.fa = 0xB ∧ CanIssue s n .exp2 w st) ∧
    (let s : State := vjob; let n : Nat := 0; let w : IWord := iw 0xc1 (rd := 3) (ra := 1) (fa := 11); let st : Stream := stream;
     let f := decodeFields w; st.inCode (st.pc + 16) ∧ f.rd < 32 ∧ f.ra < 32 ∧ f.fa = 0xB ∧ CanIssue s n .log2 w st) ∧
    (let s : State := vjob; let n : Nat := 0; let w : IWord := iw 0xc2 (rd := 3) (ra := 1) (fa := 11); let st : Stream := stream;
     let f := decodeFields w; st.inCode (st.pc + 16) ∧ f.rd < 32 ∧ f.ra < 32 ∧ f.fa = 0xB ∧ CanIssue s n .rcp w st) ∧
    (let s : State := vjob; let n : Nat := 0; let w : IWord := iw 0xc3 (rd := 3) (ra := 1) (fa := 11); let st : Stream := stream;
     let f := decodeFields w; st.inCode (st.pc + 16) ∧ f.rd < 32 ∧ f.ra < 32 ∧ f.fa = 0xB ∧ CanIssue s n .rsqrt w st) ∧
    (let s : State := vjob; let n : Nat := 0; let w : IWord := iw 0xc4 (rd := 3) (ra := 1) (fa := 11); let st : Stream := stream;
     let f := decodeFields w; st.inCode (st.pc + 16) ∧ f.rd < 32 ∧ f.ra < 32 ∧ f.fa = 0xB ∧ CanIssue s n .tanh w st) ∧
    (let s : State := vjob; let n : Nat := 0; let w : IWord := iw 0xc5 (rd := 3) (ra := 1) (fa := 11); let st : Stream := stream;
     let f := decodeFields w; st.inCode (st.pc + 16) ∧ f.rd < 32 ∧ f.ra < 32 ∧ f.fa = 0xB ∧ CanIssue s n .sigmoid w st) ∧
    (let s : State := vjob; let n : Nat := 0; let w : IWord := iw 0xc6 (rd := 3) (ra := 1) (fa := 11); let st : Stream := stream;
     let f := decodeFields w; st.inCode (st.pc + 16) ∧ f.rd < 32 ∧ f.ra < 32 ∧ f.fa = 0xB ∧ CanIssue s n .sin w st) ∧
    (let s : State := vjob; let n : Nat := 0; let w : IWord := iw 0xc7 (rd := 3) (ra := 1) (fa := 11); let st : Stream := stream;
     let f := decodeFields w; st.inCode (st.pc + 16) ∧ f.rd < 32 ∧ f.ra < 32 ∧ f.fa = 0xB ∧ CanIssue s n .cos w st) ∧
    (let x : BitVec 32 := 0x7F800001; let k := 3; x.extractLsb' 23 8 = 255 ∧ x.extractLsb' 0 23 ≠ 0 ∧ k < 8) ∧
    (let z : BitVec 32 := 0; (z = 0 ∨ z = 0x80000000)) ∧
    (let x : BitVec 32 := 0x43000000; 0x43000000 ≤ x ∧ x ≤ 0x7F800000) ∧
    (let x : BitVec 32 := 0xC3160001; 0xC3160001 ≤ x ∧ x ≤ 0xFF800000) ∧
    (let x : BitVec 32 := 0x80000001; 0x80000001 ≤ x ∧ x ≤ 0xFF800000) ∧
    (let k : Int := -126; let s : Nat := 2 ^ 31; -127 ≤ k ∧ k ≤ 127 ∧ (s = 0 ∨ s = 2 ^ 31)) ∧
    (let k : Int := 5; -74 ≤ k ∧ k ≤ 63) := by
  iterate 14 refine And.intro (by decide +kernel) ?_
  decide +kernel

theorem test_hyp_VectorAccessesReachTheirPieces :
    (let s : State := vjob; let n : Nat := 0; let w : IWord := iw 0x6a (rd := 3) (ra := 1) (imm := 64); let st : Stream := stream;
     let f := decodeFields w; let r := (s.blk.berth n).regs; let x := s.blk.berth n;
     let ea : Int := ((r.sreg f.ra).toNat : Int) + (f.imm.setWidth 32).toInt; let step : Int := if f.fl13 then ((r.sreg f.rc).toNat : Int) else 64;
     st.inCode (st.pc + 16) ∧ x.badBits = [] ∧ (r.sreg f.ra).toNat < 2 ^ 25 ∧ 0 ≤ ea ∧ ea % 64 = 0 ∧ step % 64 = 0 ∧ 64 ≤ step ∧
       ea + 15 * step + 64 ≤ 0x1400000 ∧ CanIssue s n .vld w st ∧ f.rd < 32) ∧
    (let s : State := vjob; let n : Nat := 0; let w : IWord := iw 0x6b (ra := 1) (rb := 1) (imm := 64); let st : Stream := stream;
     let f := decodeFields w; let r := (s.blk.berth n).regs; let x := s.blk.berth n;
     let ea : Int := ((r.sreg f.ra).toNat : Int) + (f.imm.setWidth 32).toInt; let step : Int := if f.fl13 then ((r.sreg f.rc).toNat : Int) else 64;
     st.inCode (st.pc + 16) ∧ x.badBits = [] ∧ (r.sreg f.ra).toNat < 2 ^ 25 ∧ 0 ≤ ea ∧ ea % 64 = 0 ∧ step % 64 = 0 ∧ 64 ≤ step ∧
       ea + 15 * step + 64 ≤ 0x1400000 ∧ CanIssue s n .vst w st ∧ f.rb < 32 ∧ Memory.wf r.store) := by
  iterate 1 refine And.intro (by decide +kernel) ?_
  decide +kernel

theorem test_hyp_TensorInstructionsWriteTheirTile :
    (let s : State := tjob; let n : Nat := 0; let w : IWord := iw 0x42 (rd := 4); let st : Stream := stream; let f := decodeFields w;
     let x := s.blk.berth n; st.inCode (st.pc + 16) ∧ x.badBits = [] ∧ CanIssue s n .tclr w st ∧ f.pe = false ∧ f.rd < 16) ∧
    (let s : State := tjob; let n : Nat := 0; let w : IWord := iw 0x41 (rd := 4) (ra := 5) (fn := 2); let st : Stream := stream;
     let f := decodeFields w; let x := s.blk.berth n; st.inCode (st.pc + 16) ∧ x.badBits = [] ∧ CanIssue s n .tanchorRebase w st ∧ f.pe = false ∧
       f.rd < 16 ∧ f.ra < 16) ∧
    (let s : State := tjob; let n : Nat := 0; let w : IWord := iw 0x41 (rd := 5) (ra := 8) (rb := 12) (rc := 3) (fa := 8) (fb := 8);
     let st : Stream := stream; let f := decodeFields w; let r := (s.blk.berth n).regs; let x := s.blk.berth n; let c := s.cx n w st;
     let t := r.tile f.rd; st.inCode (st.pc + 16) ∧ x.badBits = [] ∧ CanIssue s n .tanchorSet w st ∧ f.fn = 0 ∧
       firstReason (tensorChecks c []) = none ∧ t.empty = true) ∧
    (let s : State := tjob; let n : Nat := 0; let w : IWord := iw 0x41 (rd := 5) (ra := 8) (rb := 12) (rc := 3) (fa := 8) (fb := 8) (fn := 1);
     let st : Stream := stream; let f := decodeFields w; let r := (s.blk.berth n).regs; let x := s.blk.berth n; let c := s.cx n w st;
     let t := r.tile f.rd; st.inCode (st.pc + 16) ∧ x.badBits = [] ∧ CanIssue s n .tanchorMax w st ∧ firstReason (tensorChecks c []) = none ∧
       t.empty = true) ∧
    (let s : State := tjob; let n : Nat := 0;
     let w : IWord := iw 0x40 (rd := 5) (ra := 8) (rb := 12) (rc := 3) (fa := 8) (fb := 8) (mode := 0) (imm := 3); let st : Stream := stream;
     let f := decodeFields w; let x := s.blk.berth n; let c := s.cx n w st; st.inCode (st.pc + 16) ∧ x.badBits = [] ∧ CanIssue s n .tmma w st ∧
       f.mode ≤ 2 ∧ firstReason (tensorChecks c []) = none) ∧
    (let s : State := tjob; let n : Nat := 0; let w : IWord := iw 0x43 (rd := 4) (ra := 5); let st : Stream := stream; let f := decodeFields w;
     let r := (s.blk.berth n).regs; let x := s.blk.berth n; let t := r.tile f.rd; let u := r.tile f.ra; st.inCode (st.pc + 16) ∧ x.badBits = [] ∧
       CanIssue s n .tcomb w st ∧ f.pe = false ∧ f.rd < 16 ∧ f.ra < 16 ∧ t.fits u = true ∧ (t.empty = false ∨ u.empty = false) ∧
       t.parityBad = false ∧ u.parityBad = false) ∧
    (let s : State := tjob; let n : Nat := 0; let w : IWord := iw 0x6f (rd := 4) (ra := 1) (rb := 3); let st : Stream := stream;
     let f := decodeFields w; let x := s.blk.berth n; st.inCode (st.pc + 16) ∧ x.badBits = [] ∧ CanIssue s n .vsumX w st ∧ f.rd < 16 ∧ f.ra < 32) := by
  iterate 6 refine And.intro (by decide +kernel) ?_
  decide +kernel

theorem test_hyp_DrainsWriteTheBerthStore :
    (let s : State := regs tjob fun r => r.setS 9 256; let n : Nat := 0; let w : IWord := iw 0x44 (ra := 4) (rb := 8) (fa := 11) (fl := 0);
     let st : Stream := stream; let cmd : Cmd := cmd; let f := decodeFields w; let r := (s.blk.berth n).regs; let u := r.tile f.ra;
     let base := (r.sreg f.rb).toNat; let stride := (r.sreg (f.rb + 1)).toNat; let len := packedLen f.fa 64; st.inCode (st.pc + 16) ∧
       u.parityBad = false ∧ f.pe = false ∧ f.ra < 16 ∧ s.blk.remaps n = [] ∧ Memory.wf r.store ∧ tget s.blk.quay.cmds st.job = some cmd ∧
       CanIssue s n .tdrain w st ∧ 0 < f.rb ∧ f.rb ≤ 62 ∧ (f.fa = 0 ∨ f.fa = 1 ∨ f.fa = 8 ∨ f.fa = 9 ∨ f.fa = 0xB) ∧ base % 64 = 0 ∧
       stride % 64 = 0 ∧ len ≤ stride ∧ base + 63 * stride + len ≤ 0x1400000) ∧
    (let s : State := regs tjob fun r => (((r.setS 8 0x10000).setS 9 0x20000).setS 10 256).setS 11 64; let n : Nat := 0;
     let w : IWord := iw 0x45 (ra := 4) (rb := 8) (fa := 2); let st : Stream := stream; let cmd : Cmd := cmd; let f := decodeFields w;
     let r := (s.blk.berth n).regs; let u := r.tile f.ra; let q := quadAt r f.rb; st.inCode (st.pc + 16) ∧ u.parityBad = false ∧ f.pe = false ∧
       f.ra < 16 ∧ s.blk.remaps n = [] ∧ Memory.wf r.store ∧ tget s.blk.quay.cmds st.job = some cmd ∧ CanIssue s n .tquant w st ∧ 0 < f.rb ∧
       f.rb ≤ 60 ∧ isMx f.fa = true ∧ firstReason (q.baseChecks f.fa ++ q.strideChecks f.fa 64 ++ q.extentChecks f.fa 64) = none ∧
       packedLen f.fa 64 ≤ q.stride ∧ 2 ≤ q.sstride ∧
       (q.scale.toNat + 63 * q.sstride + 2 ≤ q.base ∨ q.base + 63 * q.stride + packedLen f.fa 64 ≤ q.scale.toNat)) := by
  iterate 1 refine And.intro (by decide +kernel) ?_
  decide +kernel

theorem test_hyp_MoveInstructionsQueueOneTransfer :
    (let s : State := regs job fun r => ((((((r.setS 1 0x1000).setS 2 64).setS 4 0x40)).setS 5 0x80)); let n : Nat := 0;
     let w : IWord := iw 0x80 (rd := 1) (ra := 1) (rb := 2) (rc := 4); let st : Stream := stream; let f := decodeFields w;
     let r := (s.blk.berth n).regs; let k := if f.fl13 then 1 else 0; let a := (r.sreg f.ra).toNat; let v := r.sreg f.rc;
     let sh : Shape := if f.fl14 then ⟨(r.sreg f.rb).toNat, (r.sreg (f.rb + 1)).toNat, (r.sreg (f.rb + 2)).toNat, (r.sreg (f.rb + 3)).toNat⟩ else ⟨(r.sreg f.rb).toNat, 1, 0, 0⟩;
     let shapeOk := 0 < f.rb ∧ f.rb + (if f.fl14 then 4 else 1) ≤ 64 ∧ sh.bad = false;
     let storeOk (len rows stride : Nat) := a % 64 = 0 ∧ a + (rows - 1) * stride + len ≤ 0x1400000; st.inCode (st.pc + 16) ∧ f.pe = false ∧
       (f.fl15 = true ∨ f.rd < 32) ∧ ((s.blk.berth n).eng k).length < 32 ∧ CanIssue s n .mvIn w st ∧ shapeOk ∧ storeOk sh.row sh.rows sh.sstride ∧
       f.fn < 8 ∧ v.toNat < 2 ^ 40) ∧
    (let s : State := regs job fun r => ((((((r.setS 1 0x1000).setS 2 64).setS 4 0x40)).setS 5 0x80)); let n : Nat := 0;
     let w : IWord := iw 0x81 (rd := 1) (ra := 1) (rb := 2) (rc := 4) (fl := 1); let st : Stream := stream; let f := decodeFields w;
     let r := (s.blk.berth n).regs; let k := if f.fl13 then 1 else 0; let a := (r.sreg f.ra).toNat; let v := r.sreg f.rc;
     let sh : Shape := if f.fl14 then ⟨(r.sreg f.rb).toNat, (r.sreg (f.rb + 1)).toNat, (r.sreg (f.rb + 2)).toNat, (r.sreg (f.rb + 3)).toNat⟩ else ⟨(r.sreg f.rb).toNat, 1, 0, 0⟩;
     let shapeOk := 0 < f.rb ∧ f.rb + (if f.fl14 then 4 else 1) ≤ 64 ∧ sh.bad = false;
     let storeOk (len rows stride : Nat) := a % 64 = 0 ∧ a + (rows - 1) * stride + len ≤ 0x1400000; st.inCode (st.pc + 16) ∧ f.pe = false ∧
       (f.fl15 = true ∨ f.rd < 32) ∧ ((s.blk.berth n).eng k).length < 32 ∧ CanIssue s n .mvOut w st ∧ shapeOk ∧ storeOk sh.row sh.rows sh.sstride ∧
       f.fn < 8 ∧ v.toNat < 2 ^ 40) ∧
    (let s : State := regs job fun r => ((((((r.setS 1 0x1000).setS 2 64).setS 4 0x40)).setS 5 0x80)); let n : Nat := 0;
     let w : IWord := iw 0x82 (rd := 1) (ra := 1) (rb := 2) (rc := 4); let st : Stream := stream; let f := decodeFields w;
     let r := (s.blk.berth n).regs; let k := if f.fl13 then 1 else 0; let a := (r.sreg f.ra).toNat;
     let sh : Shape := if f.fl14 then ⟨(r.sreg f.rb).toNat, (r.sreg (f.rb + 1)).toNat, (r.sreg (f.rb + 2)).toNat, (r.sreg (f.rb + 3)).toNat⟩ else ⟨(r.sreg f.rb).toNat, 1, 0, 0⟩;
     let shapeOk := 0 < f.rb ∧ f.rb + (if f.fl14 then 4 else 1) ≤ 64 ∧ sh.bad = false;
     let storeOk (len rows stride : Nat) := a % 64 = 0 ∧ a + (rows - 1) * stride + len ≤ 0x1400000; st.inCode (st.pc + 16) ∧ f.pe = false ∧
       (f.fl15 = true ∨ f.rd < 32) ∧ ((s.blk.berth n).eng k).length < 32 ∧ CanIssue s n .mvHold w st ∧ shapeOk ∧ 0 < f.rc ∧ f.rc + 2 ≤ 64 ∧
       (r.sreg (f.rc + 1)).toNat % 64 = 0 ∧ f.fn < 8 ∧ f.mode = 0 ∧ storeOk sh.row sh.rows sh.sstride) ∧
    (let s : State := regs job fun r => ((((((r.setS 1 0x1000).setS 2 64).setS 4 0x40)).setS 5 0x80)); let n : Nat := 0;
     let w : IWord := iw 0x82 (rd := 1) (ra := 1) (rb := 2) (rc := 4) (mode := 1) (fn := 2); let st : Stream := stream; let f := decodeFields w;
     let r := (s.blk.berth n).regs; let k := if f.fl13 then 1 else 0; let a := (r.sreg f.ra).toNat;
     let sh : Shape := if f.fl14 then ⟨(r.sreg f.rb).toNat, (r.sreg (f.rb + 1)).toNat, (r.sreg (f.rb + 2)).toNat, (r.sreg (f.rb + 3)).toNat⟩ else ⟨(r.sreg f.rb).toNat, 1, 0, 0⟩;
     let shapeOk := 0 < f.rb ∧ f.rb + (if f.fl14 then 4 else 1) ≤ 64 ∧ sh.bad = false; st.inCode (st.pc + 16) ∧ f.pe = false ∧
       (f.fl15 = true ∨ f.rd < 32) ∧ ((s.blk.berth n).eng k).length < 32 ∧ CanIssue s n .mvHold w st ∧ shapeOk ∧ 0 < f.rc ∧ f.rc + 2 ≤ 64 ∧
       (r.sreg (f.rc + 1)).toNat % 64 = 0 ∧ f.fn < 8 ∧ f.mode = 1 ∧ a < 2 ^ 40) ∧
    (let s : State := regs job fun r => ((((((r.setS 1 0x1000).setS 2 64).setS 4 0x40)).setS 5 0x80)); let n : Nat := 0;
     let w : IWord := iw 0x83 (rd := 1) (ra := 1) (rb := 2) (rc := 4); let st : Stream := stream; let f := decodeFields w;
     let r := (s.blk.berth n).regs; let k := if f.fl13 then 1 else 0; let a := (r.sreg f.ra).toNat; let v := r.sreg f.rc;
     let sh : Shape := if f.fl14 then ⟨(r.sreg f.rb).toNat, (r.sreg (f.rb + 1)).toNat, (r.sreg (f.rb + 2)).toNat, (r.sreg (f.rb + 3)).toNat⟩ else ⟨(r.sreg f.rb).toNat, 1, 0, 0⟩;
     let shapeOk := 0 < f.rb ∧ f.rb + (if f.fl14 then 4 else 1) ≤ 64 ∧ sh.bad = false;
     let storeOk (len rows stride : Nat) := a % 64 = 0 ∧ a + (rows - 1) * stride + len ≤ 0x1400000; let off := v.toNat % 2 ^ 40;
     st.inCode (st.pc + 16) ∧ f.pe = false ∧ (f.fl15 = true ∨ f.rd < 32) ∧ ((s.blk.berth n).eng k).length < 32 ∧ CanIssue s n .mvWinRead w st ∧
       shapeOk ∧ storeOk sh.row sh.rows sh.sstride ∧ v.toNat < 2 ^ 61 ∧ off % 64 = 0 ∧ f.fn = 0 ∧ f.mode = 0) ∧
    (let s : State := regs job fun r => ((((((r.setS 1 0x1000).setS 2 64).setS 4 0x40)).setS 5 0x80)); let n : Nat := 0;
     let w : IWord := iw 0x83 (rd := 1) (ra := 1) (rb := 2) (rc := 4) (fn := 1); let st : Stream := stream; let f := decodeFields w;
     let r := (s.blk.berth n).regs; let k := if f.fl13 then 1 else 0; let a := (r.sreg f.ra).toNat; let v := r.sreg f.rc;
     let sh : Shape := if f.fl14 then ⟨(r.sreg f.rb).toNat, (r.sreg (f.rb + 1)).toNat, (r.sreg (f.rb + 2)).toNat, (r.sreg (f.rb + 3)).toNat⟩ else ⟨(r.sreg f.rb).toNat, 1, 0, 0⟩;
     let shapeOk := 0 < f.rb ∧ f.rb + (if f.fl14 then 4 else 1) ≤ 64 ∧ sh.bad = false;
     let storeOk (len rows stride : Nat) := a % 64 = 0 ∧ a + (rows - 1) * stride + len ≤ 0x1400000; let off := v.toNat % 2 ^ 40;
     st.inCode (st.pc + 16) ∧ f.pe = false ∧ (f.fl15 = true ∨ f.rd < 32) ∧ ((s.blk.berth n).eng k).length < 32 ∧ CanIssue s n .mvWinWrite w st ∧
       shapeOk ∧ storeOk sh.row sh.rows sh.sstride ∧ v.toNat < 2 ^ 61 ∧ off % 64 = 0 ∧ f.fn = 1 ∧ f.mode = 0) ∧
    (let s : State := regs job fun r => ((((((r.setS 1 0x1000).setS 2 64).setS 4 0x40)).setS 5 0x80)); let n : Nat := 0;
     let w : IWord := iw 0x83 (rd := 1) (ra := 1) (rb := 2) (rc := 4) (fn := 2); let st : Stream := stream; let f := decodeFields w;
     let r := (s.blk.berth n).regs; let k := if f.fl13 then 1 else 0; let a := (r.sreg f.ra).toNat; let v := r.sreg f.rc;
     let storeOk (len rows stride : Nat) := a % 64 = 0 ∧ a + (rows - 1) * stride + len ≤ 0x1400000; let off := v.toNat % 2 ^ 40;
     st.inCode (st.pc + 16) ∧ f.pe = false ∧ (f.fl15 = true ∨ f.rd < 32) ∧ ((s.blk.berth n).eng k).length < 32 ∧ CanIssue s n .mvWinAtomic w st ∧
       storeOk 64 1 0 ∧ v.toNat < 2 ^ 61 ∧ off % 8 = 0 ∧ f.fn = 2 ∧ f.mode ≤ 4 ∧ (f.mode = 2 → 0 < f.rb ∧ f.rb + 2 ≤ 64)) ∧
    (let s : State := regs job fun r => ((((((r.setS 1 0x1000).setS 2 64).setS 4 0x40)).setS 5 0x80)); let n : Nat := 0;
     let w : IWord := iw 0x83 (rd := 1) (ra := 1) (rb := 2) (rc := 4) (fn := 3); let st : Stream := stream; let f := decodeFields w;
     let r := (s.blk.berth n).regs; let k := if f.fl13 then 1 else 0; let a := (r.sreg f.ra).toNat; let v := r.sreg f.rc;
     let sh : Shape := if f.fl14 then ⟨(r.sreg f.rb).toNat, (r.sreg (f.rb + 1)).toNat, (r.sreg (f.rb + 2)).toNat, (r.sreg (f.rb + 3)).toNat⟩ else ⟨(r.sreg f.rb).toNat, 1, 0, 0⟩;
     let shapeOk := 0 < f.rb ∧ f.rb + (if f.fl14 then 4 else 1) ≤ 64 ∧ sh.bad = false;
     let storeOk (len rows stride : Nat) := a % 64 = 0 ∧ a + (rows - 1) * stride + len ≤ 0x1400000; let off := v.toNat % 2 ^ 40;
     st.inCode (st.pc + 16) ∧ f.pe = false ∧ (f.fl15 = true ∨ f.rd < 32) ∧ ((s.blk.berth n).eng k).length < 32 ∧ CanIssue s n .mvWinReduce w st ∧
       shapeOk ∧ storeOk sh.row sh.rows sh.sstride ∧ v.toNat < 2 ^ 61 ∧ off % 64 = 0 ∧ f.fn = 3 ∧ f.mode ≤ 2) := by
  iterate 7 refine And.intro (by decide +kernel) ?_
  decide +kernel

theorem test_hyp_SignalsReachCountersAndFences :
    (let s : State := vjob; let n : Nat := 0; let w : IWord := iw 0xa0 (rd := 1) (imm := 5); let st : Stream := stream; let f := decodeFields w;
     f.pe = false ∧ st.inCode (st.pc + 16) ∧ CanIssue s n .fsig w st ∧ f.rd < 32) ∧
    (let s : State := fjob; let n : Nat := 0; let w : IWord := iw 0xa0 (ra := 1) (imm := 5) (fl := 1); let st : Stream := stream;
     let fe : Fence := fence3; let f := decodeFields w; let r := (s.blk.berth n).regs; let v := if f.fl14 then r.sreg f.rb else f.imm;
     let k := (r.sreg f.ra).toNat % 65536; f.pe = false ∧ st.inCode (st.pc + 16) ∧ CanIssue s n .fsigFence w st ∧ v.toNat < 2 ^ 63 ∧
       tget s.blk.quay.fences k = some fe ∧ fe.broken = false ∧ (s.blk.fenceRights k st.slice).2 = true ∧ st.sigs = []) := by
  iterate 1 refine And.intro (by decide +kernel) ?_
  decide +kernel

theorem test_hyp_WaitsHoldIssueUntilTheirTarget :
    (let s : State := vjob; let n : Nat := 0; let w : IWord := iw 0xa1 (rd := 1) (imm := 5); let st : Stream := stream; let f := decodeFields w;
     st.inCode (st.pc + 16) ∧ f.pe = false ∧ CanIssue s n .fwait w st ∧ s.blk.bstate n = 2 ∧ f.fl13 = false ∧ f.rd < 32) ∧
    (let s : State := fjob; let n : Nat := 0; let w : IWord := iw 0xa1 (ra := 1) (imm := 5) (fl := 1); let st : Stream := stream;
     let fe : Fence := fence3; let f := decodeFields w; let r := (s.blk.berth n).regs; let k := (r.sreg f.ra).toNat % 65536; st.inCode (st.pc + 16) ∧
       f.pe = false ∧ CanIssue s n .fwait w st ∧ s.blk.bstate n = 2 ∧ f.fl13 = true ∧ (s.blk.fenceRights k st.slice).1 = true ∧
       tget s.blk.quay.fences k = some fe ∧ fe.broken = false) ∧
    (let s : State := strm job fun _ => wst; let n : Nat := 0; let st : Stream := wst; let c := 1; let t := 5; let x := s.blk.berth n;
     st.inCode (st.pc + 16) ∧ n < 16 ∧ x.stream = some st ∧ x.leaving = false ∧ st.stopped = false ∧ st.wait = some (.counter c t)) ∧
    (let s : State := strm fjob fun _ => fst; let n : Nat := 0; let st : Stream := fst; let fe : Fence := fence3; let g := 2; let t := 5;
     let x := s.blk.berth n; st.inCode (st.pc + 16) ∧ n < 16 ∧ x.stream = some st ∧ x.leaving = false ∧ st.stopped = false ∧
       st.wait = some (.fence g t) ∧ tget s.blk.quay.fences g = some fe ∧ fe.broken = false) := by
  iterate 3 refine And.intro (by decide +kernel) ?_
  decide +kernel

theorem test_hyp_BarriersTrapsMarksAndMoors :
    (let s : State := vjob; let n : Nat := 0; let w : IWord := iw 0xa2; let st : Stream := stream; let f := decodeFields w; let b := s.blk;
     CanIssue s n .bar w st ∧ f.pe = false ∧ b.bstate n = 2) ∧
    (let s : State := strm job fun _ => bst; let n : Nat := 0; let st : Stream := bst; let x := s.blk.berth n; let b := s.blk; n < 16 ∧
       x.stream = some st ∧ b.jobBerths st.job = [n] ∧ b.barFull st.job = true ∧ st.inCode (st.pc + 16)) ∧
    (let s : State := vjob; let n : Nat := 0; let w : IWord := iw 0xe1 (imm := 4660); let st : Stream := stream; let cmd : Cmd := cmd;
     let f := decodeFields w; let b := s.blk; CanIssue s n .trap w st ∧ f.pe = false ∧ tget b.quay.cmds st.job = some cmd ∧ cmd.status = 0) ∧
    (let s : State := chg vjob fun b => { b with quay := { b.quay with slices := [(3, { slice with tracing := true })] } }; let n : Nat := 0;
     let w : IWord := iw 0xe2 (ra := 2) (imm := 85); let st : Stream := stream; let sl : Slice := { slice with tracing := true };
     let f := decodeFields w; let b := s.blk; CanIssue s n .mark w st ∧ f.pe = false ∧ st.inCode (st.pc + 16) ∧
       tget b.quay.slices st.slice = some sl ∧ sl.tracing = true ∧ b.log.trTokens = [] ∧ b.log.events.length + b.log.traces.length < 512) ∧
    (let s : State := vjob; let n : Nat := 0; let w : IWord := iw 0xe2 (ra := 2) (imm := 85); let st : Stream := stream; let sl : Slice := slice;
     let f := decodeFields w; let b := s.blk; CanIssue s n .mark w st ∧ f.pe = false ∧ st.inCode (st.pc + 16) ∧
       tget b.quay.slices st.slice = some sl ∧ sl.tracing = false ∧ (∀ c ∈ b.quay.cmds, c.2.suspect ≠ 2)) ∧
    (let s : State := vjob; let n : Nat := 0; let w : IWord := iw 0xe0; let st : Stream := stream; let cmd : Cmd := cmd; let f := decodeFields w;
     let x := s.blk.berth n; let b := s.blk; CanIssue s n .moor w st ∧ f.pe = false ∧ tget b.quay.cmds st.job = some cmd ∧ cmd.list? = false ∧
       x.yield = none ∧ st.inCode (st.pc + 16)) ∧
    (let s : State := chg vjob fun b => (b.wr F.BT_STATE_STATE 0 3).modBerth 0 fun x => { x with yield := some 5 }; let n : Nat := 0;
     let w : IWord := iw 0xE0 + BitVec.ofNat 128 (0xFF00000000000000 * 2 ^ 64); let st : Stream := stream; let cmd : Cmd := cmd;
     let f := decodeFields w; let x := s.blk.berth n; let b := s.blk; CanIssue s n .moor w st ∧ f.pe = false ∧ tget b.quay.cmds st.job = some cmd ∧
       cmd.list? = false ∧ x.yield.isSome = true ∧ b.bstate n = 3) := by
  iterate 6 refine And.intro (by decide +kernel) ?_
  decide +kernel

theorem test_hyp_CollectivesHoldTheirStreams :
    (let s : State := gjob; let n : Nat := 0; let w : IWord := iw 0xa3 (ra := 1) (rb := 2) (fn := 5) (imm := 9); let st : Stream := stream;
     let g : Group := grp; let f := decodeFields w; let x := s.blk.berth n; let b := s.blk; let entry := f.imm.toNat % 2 ^ 32 % 256;
     CanIssue s n .coll w st ∧ f.pe = false ∧ f.fn = 5 ∧ x.me0 = [] ∧ x.me1 = [] ∧ tget b.fabric.groups entry = some g ∧ g.r.owner = st.slice ∧
       b.fabric.colls = []) ∧
    (let s : State := chg gjob fun b => { b with fabric := { b.fabric with colls := [(4, { coll with fromBerth := false, places := [], credits := [] })] } };
     let g : Group := grp; let y : Coll := { coll with fromBerth := false, places := [], credits := [] }; let id : Nat := 4; let cmd : Cmd := cmd;
     let b := s.blk; b.fabric.colls = [(id, y)] ∧ y.begun = true ∧ y.fromBerth = false ∧ tget b.fabric.groups y.entry = some g ∧
       y.whole g.r = false ∧ y.timer + b.rd F.FY_CTL_COLL_TO * 1000000 ≤ s.aon.ns ∧ tget b.quay.cmds y.job = some cmd ∧ cmd.status = 0 ∧
       cmd.ph ≠ .ended) := by
  iterate 1 refine And.intro (by decide +kernel) ?_
  decide +kernel

theorem test_hyp_CollectivesHoldTheirStreams_1 :
    (let s : State := chg gjob fun b => { (b.wr F.BT_STATE_STATE 0 10).modBerth 0 fun x => { x with stream := some cst } with fabric := { b.fabric with colls := [(4, coll)] } };
     let n : Nat := 0; let st : Stream := cst; let g : Group := grp; let y : Coll := coll; let id : Nat := 4; let x := s.blk.berth n; let b := s.blk;
     n < 16 ∧ b.fabric.colls = [(id, y)] ∧ tget b.fabric.groups y.entry = some g ∧ y.op = 5 ∧ y.mode = 1 ∧ y.begun = true ∧ y.fromBerth = true ∧
       (∀ p ∈ g.r.peerRanks, p ∈ y.credits) ∧ (∃ k a d, y.places = [(k, n, a, d)]) ∧ x.stream = some st ∧ st.wait = some .coll ∧ b.bstate n = 10 ∧
       x.yield = none ∧ st.inCode (st.pc + 16)) := by
  and_intros
  all_goals first | decide +kernel | exact ⟨0, 0, 0, rfl⟩

theorem test_hyp_StreamsAndTransfersComplete :
    (let s : State := brt (strm job fun s => { s with wait := some (.icache 0) }) fun x => { x with icache := [(100, 3), (100, 0)] };
     let n : Nat := 0; let k : Nat := 0; let line : Nat := 0; let st : Stream := { stream with wait := some (.icache 0) }; let x := s.blk.berth n;
     n < 16 ∧ k < 2 ∧ x.stream = some st ∧ st.wait = some (.icache line) ∧ x.hasLine st.prog line = true) ∧
    (let s : State := strm job fun s => { s with ended := true }; let n : Nat := 0; let k : Nat := 0;
     let st : Stream := { stream with ended := true }; let x := s.blk.berth n; n < 16 ∧ k < 2 ∧ x.stream = some st ∧ x.leaving = false ∧
       x.resetting = none ∧ s.blk.bstate n ≠ 6 ∧ s.blk.collOf st.job = none ∧ st.stopped = false ∧ st.ended = true ∧ x.me0 = [] ∧ x.me1 = [] ∧
       st.sigs = [] ∧ st.copies = [] ∧ st.digestOwed = false ∧ st.wait = none) ∧
    (let s : State := brt job fun x => { x with sampled := [sampleRec] }; let n : Nat := 0; let k : Nat := 0; let r : SampleRec := sampleRec;
     let rest : List SampleRec := []; let x := s.blk.berth n; n < 16 ∧ k < 2 ∧ x.sampled = r :: rest ∧ x.samples.length < 4096) := by
  iterate 2 refine And.intro (by decide +kernel) ?_
  decide +kernel

theorem test_hyp_StreamsAndTransfersComplete_1 :
    (let s : State := brt job fun x => { x with me0 := [xfer] }; let n : Nat := 0; let k : Nat := 0; let st : Stream := stream; let t : Xfer := xfer;
     let cmd : Cmd := cmd; let x := s.blk.berth n; n < 16 ∧ k < 2 ∧ x.stream = some st ∧ x.eng k = [t] ∧ t.failed = none ∧
       s.blk.enginesRun n = true ∧ s.blk.outstanding n k t.serial = 0 ∧ s.blk.settledXfer n k t.serial = true ∧ t.total ≤ t.done ∧ t.staged = [] ∧
       s.blk.mergeOwed t = false ∧ st.sigs = [] ∧ tget s.blk.quay.cmds st.job = some cmd ∧ (∀ m, cmd.body ≠ .move m) ∧ (∀ c h, t.mv ≠ .copy c h)) := by
  and_intros
  all_goals first | decide +kernel | (intro c h e; cases e) | (intro m h; cases h)

theorem test_hyp_PortsAdmitAndAnswer :
    (let s : State := ports rated fun p => { p with lanes := [(90, [⟨2, 64, { mreq with who := .window 0 0 }⟩])], buckets := [(90, ⟨1000, 1000, 0⟩)] };
     let x : Nat := 26; let p : Nat := 2; let q : LaneReq := (⟨2, 64, { mreq with who := .window 0 0 }⟩ : LaneReq); let l : List LaneReq := [];
     let b := s.blk; let f : Front := ⟨p, 16, .other, q.bytes⟩; let k := b.bucket s.env p x; x < 28 ∧ p < 16 ∧ b.fronts s.env x = [f] ∧
       tgetD b.ports.lanes (32 * p + x) [] = q :: l ∧ x = 26 ∧ q.bytes ≤ k.other) ∧
    (let s : State := ports rated fun p => { p with lanes := [(64, [⟨2, 64, { mreq with who := .window 0 0 }⟩])], buckets := [(64, ⟨0, 0, 2000000010⟩)] };
     let x : Nat := 0; let p : Nat := 2; let q : LaneReq := (⟨2, 64, { mreq with who := .window 0 0 }⟩ : LaneReq); let l : List LaneReq := [];
     let b := s.blk; let f : Front := ⟨p, 16, .other, q.bytes⟩; let k := b.bucket s.env p x; x < 28 ∧ p < 16 ∧ b.fronts s.env x = [f] ∧
       tgetD b.ports.lanes (32 * p + x) [] = q :: l ∧ k.other < q.bytes ∧ b.borrows p x = false ∧
       (tgetD b.ports.waited x []).contains (1024 + p) = false ∧ b.rd F.BW_PORT_WAITS x < F.BW_PORT_WAITS.max) ∧
    (let s : State := ports gran fun p => { p with out := [(reqKey 0 0 5, mreq)] }; let port : Nat := 0; let sub : Nat := 0; let tag : Nat := 5;
     let err : Nat := 0; let r : MemReq := mreq; let b := s.blk; let key := reqKey port sub tag; port < 8 ∧ sub < 4 ∧ tget b.ports.out key = some r ∧
       r.who = .bar2 ∧ r.write = false ∧ r.rmw = false ∧ r.slice < 1024 ∧ r.addr % 128 + r.len ≤ 128 ∧ err < 2) ∧
    (let s : State := ports gran fun p => { p with out := [(reqKey 0 0 5, mreq)] }; let port : Nat := 0; let sub : Nat := 0; let tag : Nat := 5;
     let err : Nat := 2; let r : MemReq := mreq; let b := s.blk; let key := reqKey port sub tag; port < 8 ∧ sub < 4 ∧ tget b.ports.out key = some r ∧
       r.who = .bar2 ∧ r.write = false ∧ r.rmw = false ∧ r.slice < 1024 ∧ r.addr % 128 + r.len ≤ 128 ∧ 2 ≤ err) := by
  iterate 3 refine And.intro (by decide +kernel) ?_
  decide +kernel

theorem test_hyp_PortsAdmitAndAnswer_0 :
    (let s : State := ports rated fun p => { p with lanes := [(64, [⟨2, 64, { mreq with who := .window 0 0 }⟩])], buckets := [(64, ⟨1000, 1000, 0⟩)] };
     let x : Nat := 0; let p : Nat := 2; let q : LaneReq := (⟨2, 64, { mreq with who := .window 0 0 }⟩ : LaneReq); let l : List LaneReq := [];
     let t : Nat := 0; let b := s.blk; let f : Front := ⟨p, 16, .other, q.bytes⟩; let k := b.bucket s.env p x; x < 28 ∧ p < 16 ∧
       b.fronts s.env x = [f] ∧ tgetD b.ports.lanes (32 * p + x) [] = q :: l ∧ x < 8 ∧ q.bytes ≤ k.other ∧
       b.ports.isolated.contains q.req.port = false ∧ b.granuleOk q.req.addr q.req.slice q.req.ctx = true ∧ b.queuesAt q.req = false ∧
       (∀ qn, q.req.who ≠ .record qn) ∧ b.freeTag q.req.port q.req.sub = some t) := by
  and_intros
  all_goals first | decide +kernel | (intro qn h; cases h)

theorem test_hyp_YieldsSavesAndRestores :
    (let s : State := chg (strm job fun _ => bst) fun b => b.wr F.BT_CTL_DRAIN 0 1; let n : Nat := 0; let st : Stream := bst; let b := s.blk;
     let e := s.env; let x := b.berth n; let q := b.rd F.BT_STATE_PARTITION n; n < 16 ∧ x.stream = some st ∧
       (b.rd F.BT_CTL_DRAIN n = 1 ∨ b.victim e q (b.lcNeed e q) (fun _ _ => true) = some st.job ∨ b.victim e q (b.quantumNeed e q) (b.overQuantum e q) = some st.job) ∧
       b.jobBerths st.job = [n] ∧ x.yield = none ∧ x.saving = none ∧ (∀ y ∈ b.berths, y.2.yield = none) ∧ b.freeSlots e ≠ [] ∧ st.stopped = false ∧
       b.bstate n ≠ 6 ∧ st.wait = some .bar) ∧
    (let s : State := chg (chg (strm job fun _ => mst) fun b => b.wr F.BT_CTL_DRAIN 0 1) fun b => b.wr F.BT_CTL_HORIZON 0 100; let n : Nat := 0;
     let st : Stream := mst; let i : Nat := 0; let m : MoorEntry := ⟨0, 100, 0, 0, 0⟩; let b := s.blk; let e := s.env; let x := b.berth n;
     let q := b.rd F.BT_STATE_PARTITION n; let horizon := b.rd F.BT_CTL_HORIZON n; n < 16 ∧ x.stream = some st ∧
       (b.rd F.BT_CTL_DRAIN n = 1 ∨ b.victim e q (b.lcNeed e q) (fun _ _ => true) = some st.job ∨ b.victim e q (b.quantumNeed e q) (b.overQuantum e q) = some st.job) ∧
       b.jobBerths st.job = [n] ∧ x.yield = none ∧ x.saving = none ∧ (∀ y ∈ b.berths, y.2.yield = none) ∧ b.freeSlots e ≠ [] ∧ st.stopped = false ∧
       b.bstate n ≠ 6 ∧ st.wait = none ∧ b.imageStale st = false ∧ horizon ≠ 0 ∧ moorEntry st.moors st.pc = some (i, m)) ∧
    (let s : State := chg (brt mjob fun x => { x with yield := some 5, entry := some (0, ⟨0, 100, 0, 0, 0⟩) }) fun b => { (b.wr F.BT_CTL_HORIZON 0 100) with ports := { b.ports with out := [(reqKey 0 0 7, moorReq)] } };
     let n : Nat := 0; let st : Stream := mst; let i : Nat := 0; let m : MoorEntry := ⟨0, 100, 0, 0, 0⟩; let port : Nat := 0; let sub : Nat := 0;
     let tag : Nat := 7; let err : Nat := 0; let r : MemReq := moorReq; let t : Rat := ((s.blk.moorTime s.env 0 m).getD 0); let b := s.blk;
     let e := s.env; let x := b.berth n; let line := (st.moorOff + 32 * i) / 128; let horizon := b.rd F.BT_CTL_HORIZON n; n < 16 ∧ port < 8 ∧
       sub < 4 ∧ tget b.ports.out (reqKey port sub tag) = some r ∧ r.who = .moorEntry n line ∧ r.write = false ∧ r.rmw = false ∧ r.slice < 1024 ∧
       x.stream = some st ∧ st.wait = none ∧ x.entry = some (line, m) ∧ err < 2 ∧ b.moorTime e n m = some t ∧ t ≤ ((horizon * 1000 : Nat) : Rat) ∧
       horizon ≠ 0) ∧
    (let s : State := chg (brt mjob fun x => { x with yield := some 5, entry := some (0, ⟨0, 100, 0, 0, 0⟩) }) fun b => { (b.wr F.BT_CTL_HORIZON 0 100) with ports := { b.ports with out := [(reqKey 0 0 7, moorReq)] } };
     let n : Nat := 0; let st : Stream := mst; let i : Nat := 0; let m : MoorEntry := ⟨0, 100, 0, 0, 0⟩; let port : Nat := 0; let sub : Nat := 0;
     let tag : Nat := 7; let err : Nat := 2; let r : MemReq := moorReq; let b := s.blk; let x := b.berth n; let line := (st.moorOff + 32 * i) / 128;
     n < 16 ∧ port < 8 ∧ sub < 4 ∧ tget b.ports.out (reqKey port sub tag) = some r ∧ r.who = .moorEntry n line ∧ r.write = false ∧ r.rmw = false ∧
       r.slice < 1024 ∧ x.stream = some st ∧ st.wait = none ∧ x.entry = some (line, m) ∧ 2 ≤ err) ∧
    (let s : State := chg (brt job fun x => { x with yield := some 5 }) fun b => b.wr F.BT_STATE_STATE 0 3; let n : Nat := 0;
     let st : Stream := stream; let u : Nat := 5; let b := s.blk; let x := b.berth n; let horizon := b.rd F.BT_CTL_HORIZON n; n < 16 ∧
       x.stream = some st ∧ x.yield = some u ∧ st.wait = none ∧ b.bstate n = 3 ∧ u + 1000 * horizon ≤ s.aon.ns) ∧
    (let s : State := chg (brt job fun x => { x with saving := some saved, reserveWait := true }) fun b => { b.wr F.BT_STATE_STATE 0 4 with reserveQueue := [0] };
     let n : Nat := 0; let k : Nat := 256; let v : Saved := saved; let l : List Nat := [257,258,259,260,261,262,263]; let b := s.blk;
     let x := b.berth n; n < 16 ∧ x.saving = some v ∧ x.reserveWait = true ∧ b.reserveFree s.env n = true ∧ x.badBits = [] ∧
       (∀ i ∈ v.tiles, (v.regs.tile i).parityBad = false) ∧ b.freeSlots s.env = k :: l) ∧
    (let s : State := chg (brt job fun x => { x with saving := some saved, moved := 1000000000, slot := some 256 }) fun b => b.wr F.BT_STATE_STATE 0 4;
     let n : Nat := 0; let k : Nat := 256; let v : Saved := saved; let b := s.blk; let x := b.berth n; n < 16 ∧ x.saving = some v ∧ x.slot = some k ∧
       x.reserveWait = false ∧ v.units ≤ x.moved) ∧
    (let s : State := chg (brt job fun x => { x with stream := none, moved := 1000000000, slot := some 256 }) fun b => { b.wr F.BT_STATE_STATE 0 6 with slots := [(256, saved)] };
     let n : Nat := 0; let k : Nat := 256; let v : Saved := saved; let b := s.blk; let x := b.berth n; n < 16 ∧ x.slot = some k ∧
       tget b.slots k = some v ∧ b.bstate n = 6 ∧ x.reserveWait = false ∧ v.units ≤ x.moved ∧ x.yield = none ∧ b.rd F.BT_CTL_DRAIN n = 0 ∧
       v.me0 = [] ∧ v.me1 = [] ∧ v.stream.ended = false ∧ v.stream.inCode v.stream.pc) := by
  iterate 7 refine And.intro (by decide +kernel) ?_
  decide +kernel

theorem test_hyp_ScrubsDrainsAndQuanta :
    (let s : State := chg sl fun b => ((b.wr F.BT_STATE_STATE 0 5).wr F.BT_STATE_OWNED 0 1).wr F.BT_STATE_PARTITION 0 2; let n : Nat := 0;
     let b := s.blk; n < 16 ∧ b.bstate n = 5 ∧ b.harbour.failed.contains (.berth n) = false ∧ b.rd F.BT_STATE_OWNED n = 1 ∧ b.rd F.BT_CTL_DRAIN n = 0) ∧
    (let s : State := chg sl fun b => ((b.wr F.BT_STATE_STATE 0 1).wr F.BT_STATE_OWNED 0 1).wr F.BT_STATE_PARTITION 0 2; let n : Nat := 0;
     let b := s.blk; n < 16 ∧ b.bstate n = 1 ∧
       (b.rd F.BT_STATE_OWNED n = 0 ∨ (b.rd F.BW_PART_DRAINING (b.rd F.BT_STATE_PARTITION n)).testBit n = false)) ∧
    (let s : State := chg sl fun b => (b.wr F.BT_STATE_STATE 0 7).wr F.BT_CTL_DRAIN 0 1; let n : Nat := 0; let b := s.blk; n < 16 ∧ b.bstate n = 7) ∧
    (let s : State := qjob; let n : Nat := 0; let p : Nat := 2; let j : Nat := 5; let y : Cmd := cmd; let st : Stream := bst; let k : Nat := 1;
     let b := s.blk; let e := s.env; let q := 1000 * b.rd F.BW_SCHED_QUANTUM p; let since := s.aon.ns - tgetD b.quantumFrom p 0;
     let m := b.markReady e p; n < 16 ∧ p < 16 ∧ b.rd F.BW_MODE_MODE = 1 ∧ b.partExists p = true ∧ 0 < q ∧ 0 < since ∧ since % q = 0 ∧
       m.quantumNeed e p = some k ∧ (m.idleBerths p).length + m.coming p < k ∧ m.yieldable e p (m.overQuantum e p) = [(j, y)] ∧ m.jobBerths j = [n] ∧
       (m.berth n).stream = some st ∧ (m.berth n).yield = none ∧ (m.berth n).saving = none ∧ (∀ z ∈ m.berths, z.2.yield = none) ∧
       m.freeSlots e ≠ [] ∧ st.stopped = false ∧ m.bstate n ≠ 6 ∧ st.wait = some .bar) := by
  iterate 3 refine And.intro (by decide +kernel) ?_
  decide +kernel

theorem test_hyp_SpareArraysAreSwappedIn :
    (let s : State := chg sl fun b => ((b.wr F.BT_STATE_STATE 0 7).wr F.BT_STATE_OWNED 0 1).wr F.BT_STATE_PARTITION 0 2; let n : Nat := 0;
     let v : Word := 0x76543210; let b := s.blk; let new := (List.range 8).map fun l => v.toNat / 16 ^ l % 16;
     let valid := (b.bstate n = 7 ∨ b.bstate n = 0) ∧ new.Nodup ∧ ∀ i ∈ new, i ≤ 8 ∧ (b.rd F.BT_ARRAY_HEALTH_FAILED n).testBit i = false; n < 16 ∧
       valid) ∧
    (let s : State := chg sl fun b => ((b.wr F.BT_STATE_STATE 0 7).wr F.BT_STATE_OWNED 0 1).wr F.BT_STATE_PARTITION 0 2; let n : Nat := 0;
     let v : Word := 0x76543211; let b := s.blk; let new := (List.range 8).map fun l => v.toNat / 16 ^ l % 16;
     let valid := (b.bstate n = 7 ∨ b.bstate n = 0) ∧ new.Nodup ∧ ∀ i ∈ new, i ≤ 8 ∧ (b.rd F.BT_ARRAY_HEALTH_FAILED n).testBit i = false; n < 16 ∧
       (¬ valid)) ∧
    (let s : State := chg sl fun b => ((b.wr F.BT_STATE_STATE 0 1).wr F.BT_STATE_OWNED 0 1).wr F.BT_STATE_PARTITION 0 2; let n : Nat := 0;
     let a : Nat := 3; let b := s.blk; n < 16 ∧ a < 9 ∧ b.bstate n = 1 ∧ b.harbour.down = false ∧ (b.mapOf n).contains a = true ∧
       8 ≤ ((b.goodArrays n).filter (· ≠ a)).length ∧
       (b.rd F.BT_STATE_OWNED n = 0 ∨ (b.rd F.BW_PART_DRAINING (b.rd F.BT_STATE_PARTITION n)).testBit n = false)) ∧
    (let s : State := chg sl fun b => ((b.wr F.BT_STATE_STATE 0 7).wr F.BT_STATE_OWNED 0 1).modBerth 0 fun x => { x with swapping := some 8 };
     let n : Nat := 0; let a : Nat := 8; let b := s.blk; n < 16 ∧ b.bstate n = 7 ∧ b.harbour.down = false ∧ (b.berth n).swapping = some a ∧
       (b.goodArrays n).contains a = true) := by
  iterate 3 refine And.intro (by decide +kernel) ?_
  decide +kernel

theorem test_hyp_StoreRepairAndOperatingPoints :
    (let s : State := pw; let n : Nat := 0; let off : Nat := 0x80008; let b := s.blk; let x := b.berth n; let ap := b.rd F.BT_STORE_BASE_APERTURE n;
     n < 16 ∧ 0x80000 ≤ off ∧ off < 0x100000 ∧ off % 8 = 0 ∧ ap < 40 ∧ b.domUp n = true ∧ Memory.wf x.regs.store) ∧
    (let s : State := pw; let n : Nat := 0; let off : Nat := 0x80008; let b := s.blk; let x := b.berth n; let ap := b.rd F.BT_STORE_BASE_APERTURE n;
     n < 16 ∧ 0x80000 ≤ off ∧ off < 0x100000 ∧ off % 8 = 0 ∧ ap < 40 ∧ b.domUp n = true ∧ x.badBits = []) ∧
    (let n : Nat := 0; let off : Nat := 0x80009; n < 16 ∧ off % 8 ≠ 0) ∧
    (let s : State := chg pw fun b => b.modBerth 0 fun x => { x with writeBack := [3], badBits := [(3, 5)] }; let n : Nat := 0; let word : Nat := 3;
     let b := s.blk; let x := b.berth n; n < 16 ∧ x.writeBack.contains word = true) ∧
    (let s : State := chg pw fun b => b.modBerth 0 fun x => { x with reread := [3] }; let n : Nat := 0; let word : Nat := 3; let b := s.blk;
     let x := b.berth n; n < 16 ∧ x.reread.contains word = true ∧ x.stuckBits.contains word = false) ∧
    (let s : State := chg pw fun b => b.modBerth 0 fun x => { x with reread := [3], stuckBits := [3], badBits := [(3,5)] }; let n : Nat := 0;
     let word : Nat := 3; let i : Nat := 0; let b := s.blk; let x := b.berth n; n < 16 ∧ x.reread.contains word = true ∧
       x.stuckBits.contains word = true ∧ word < 0x280000 ∧ ((b.remaps n).any fun r => r.1 = word / 8) = false ∧
       firstFrom (fun i => b.rd F.BT_REMAP_VALID (16 * n + i) = 0) 16 0 = some i) ∧
    (let s : State := chg pw fun b => { b with watch := { b.watch with ceilings := [(0, (5, 2, true))] } }; let n : Nat := 0; let p : Nat := 2;
     let ce : Nat := 5; let lock : Bool := true; let b := s.blk; let x := b.berth n; n < 16 ∧ p < 16 ∧ tget b.watch.ceilings n = some (ce, p, lock) ∧
       b.rd F.BT_CLOCK_OPP n ≠ p ∧ b.power.thermTrip = false ∧ x.oppSince = 0) := by
  iterate 6 refine And.intro (by decide +kernel) ?_
  decide +kernel

theorem test_hyp_CommandsAreDispatchedAndComplete :
    (let s : State := wjob; let p : Nat := 2; let n : Nat := 0; let c : Nat := 5; let x : Cmd := { wcmd with ready := true };
     let t : TensorBody := tb; let b := s.blk; let e := s.env; let m := (b.flushOwed.settleWaits).settleServe e;
     let mp := (m.dropWide p).markReady e p; p < 16 ∧ b.asleep = false ∧ m.partExists p = true ∧ mp.chosen e p = some (c, x) ∧
       tget mp.quay.cmds c = some x ∧ x.ph = .waiting ∧ x.body = .tensor t ∧ t.streams = 1 ∧ 1 ≤ (mp.idleBerths p).length ∧
       (mp.berthOrder x (mp.idleBerths p)).take 1 = [n] ∧ 16 ≤ t.img.codeLen) ∧
    (let s : State := gsl; let g : Nat := 0; let c : Nat := 5; let x : Cmd := { gcmd with ready := true }; let gb : GeneralBody := gb; let b := s.blk;
     let e := s.env; let m := (b.flushOwed.settleWaits).settleServe e; let mc := m.markCores e; g < 8 ∧ b.asleep = false ∧
       mc.chosenTask e = some (c, x) ∧ tget mc.quay.cmds c = some x ∧ x.body = .general gb ∧ x.task = none ∧ (mc.core g).on = true ∧
       (mc.core g).free = true ∧ gb.stack < x.bufs.length) ∧
    (let s : State := chg sl fun b => { b with quay := { b.quay with cmds := [(5, ecmd)], fences := [(2, fence3)] } }; let c : Nat := 5;
     let x : Cmd := ecmd; let y : Queue := queue; let b := s.blk; let e := s.env; tget b.quay.cmds c = some x ∧ x.ph = .ended ∧ x.list? = false ∧
       b.cmdBusy c = false ∧ x.suspect = 0 ∧ tearsDown x.finalStatus = false ∧ tget b.quay.queues x.q = some y ∧ b.recordReady e x.q y) ∧
    (let s : State := chg sl fun b => { b with host := { b.host with msix := [(9, ⟨0x1000, 7, false, false⟩)] }, quay := { b.quay with queues := [(1, { queue with vector := some 9, moderate := 5, moderOwed := true, moderUntil := 100 })] } };
     let q : Nat := 1; let y : Queue := { queue with vector := some 9, moderate := 5, moderOwed := true, moderUntil := 100 }; let v : Nat := 9;
     let me : MsixEntry := (⟨0x1000, 7, false, false⟩ : MsixEntry); let b := s.blk; tget b.quay.queues q = some y ∧ y.moderOwed = true ∧
       y.moderUntil ≤ s.aon.ns ∧ y.vector = some v ∧ b.msixEntry v = me ∧ me.masked = false ∧ b.host.msixEnable = true ∧ b.host.msixMask = false) := by
  iterate 3 refine And.intro (by decide +kernel) ?_
  decide +kernel

theorem test_hyp_DoorbellsMoveTailsAndLaunch :
    (let s : State := sl; let page : Nat := 3; let ps : Nat := 6; let sl : Slice := slice; let b := s.blk; tget b.quay.slices page = some sl ∧
       ps ≠ sl.pasid) ∧
    (let s : State := sl; let page : Nat := 3; let k : Nat := 9; let sl : Slice := slice; let b := s.blk; tget b.quay.slices page = some sl ∧
       b.findQueue page k = none) ∧
    (let s : State := sl; let page : Nat := 3; let k : Nat := 1; let qn : Nat := 1; let be : Nat := 7; let sl : Slice := slice;
     let q : Queue := queue; let b := s.blk; tget b.quay.slices page = some sl ∧ b.findQueue page k = some (qn, q) ∧ tget b.quay.queues qn = some q ∧
       q.st = .live ∧ wholeFields be = false) ∧
    (let s : State := hup sl; let page : Nat := 3; let k : Nat := 1; let qn : Nat := 1; let be : Nat := 15; let sq : BitVec 32 := 3;
     let sl : Slice := slice; let q : Queue := queue; let b := s.blk; let d := (doorPos q.n sq + 2 * 2 ^ q.n - q.tail) % (2 * 2 ^ q.n);
     tget b.quay.slices page = some sl ∧ b.findQueue page k = some (qn, q) ∧ tget b.quay.queues qn = some q ∧ q.st = .live ∧ b.hostUp = true ∧
       be = 0x0F ∧ d ≠ 0 ∧ d ≤ 2 ^ q.n - q.unfetched) ∧
    (let s : State := hup sl; let page : Nat := 3; let k : Nat := 1; let qn : Nat := 1; let be : Nat := 15; let sq : BitVec 32 := 0x80000005;
     let sl : Slice := slice; let q : Queue := queue; let b := s.blk; let d := (doorPos q.n sq + 2 * 2 ^ q.n - q.tail) % (2 * 2 ^ q.n);
     tget b.quay.slices page = some sl ∧ b.findQueue page k = some (qn, q) ∧ tget b.quay.queues qn = some q ∧ q.st = .live ∧ b.hostUp = true ∧
       be = 0x0F ∧ d ≠ 0 ∧ 2 ^ q.n - q.unfetched < d) ∧
    (let s : State := chg sl fun b => { b with quay := { b.quay with queues := [(0, { queue with k := 0, cls := 15, bind := 0 }), (1, lqueue)] } };
     let qn : Nat := 1; let q : Queue := lqueue; let f : Fetched := fetched; let body : Body := Body.tensor tb; let heads : List Nat := [1,2];
     let b := s.blk; let up (w : Option (Nat × Nat)) : Option (Nat × Nat) := w.map fun z => (z.1, z.2 + q.launches); tget b.quay.queues qn = some q ∧
       q.standing = some (f, body, heads) ∧ q.takes ∧ b.sliceState q.slice = 1 ∧ 1 ≤ q.unfetched ∧
       (b.quay.cmds.filter fun z => z.2.q = qn).length < q.depth ∧ b.inflight q.slice < b.rd F.QY_SQUOTA_INFLIGHT q.slice ∧ b.inflightAll < 16384 ∧
       b.ctxCheck q.slice q.bind f.hdr.ctx = none ∧ f.hdr.ext = true ∧ q.standingDead = none ∧
       (∀ w ∈ (up f.sync.wait0).toList ++ (up f.sync.wait1).toList ++ (up f.sync.sig).toList, w.2 < 2 ^ 63)) := by
  iterate 5 refine And.intro (by decide +kernel) ?_
  decide +kernel

theorem test_hyp_FetchedCommandsAreCheckedAndHeld :
    (let s : State := qcls 0; let qn : Nat := 1; let q : Queue := { queue with cls := 0 }; let f : Fetched := fetched0; let t : TensorBody := tb;
     let b := s.blk; let sync := if f.hdr.ext then f.sync else SyncExt.none;
     let passes (body : Body) : Prop := q.cls = body.cls ∧ b.checkSlot q.slice q.bind { f with bufs := f.bufs.take f.hdr.nbuf } sync body = none;
     tget b.quay.queues qn = some q ∧ q.k ≠ 0 ∧ q.standing = none ∧ b.canFetch s.env qn q f.hdr.ext = true ∧ b.pilot.waiting = [] ∧ passes (.tensor t)) ∧
    (let s : State := qcls 1; let qn : Nat := 1; let q : Queue := { queue with cls := 1 }; let f : Fetched := fetched0;
     let m : MoveBody := { mvb with copies := [⟨0, 0, 0, 0, 64⟩] }; let b := s.blk; let sync := if f.hdr.ext then f.sync else SyncExt.none;
     let passes (body : Body) : Prop := q.cls = body.cls ∧ b.checkSlot q.slice q.bind { f with bufs := f.bufs.take f.hdr.nbuf } sync body = none;
     tget b.quay.queues qn = some q ∧ q.k ≠ 0 ∧ q.standing = none ∧ b.canFetch s.env qn q f.hdr.ext = true ∧ b.pilot.waiting = [] ∧ passes (.move m)) ∧
    (let s : State := qcls 3; let qn : Nat := 1; let q : Queue := { queue with cls := 3 }; let f : Fetched := sfetch 1; let g : GeneralBody := gb;
     let b := s.blk; let sync := if f.hdr.ext then f.sync else SyncExt.none;
     let passes (body : Body) : Prop := q.cls = body.cls ∧ b.checkSlot q.slice q.bind { f with bufs := f.bufs.take f.hdr.nbuf } sync body = none;
     tget b.quay.queues qn = some q ∧ q.k ≠ 0 ∧ q.standing = none ∧ b.canFetch s.env qn q f.hdr.ext = true ∧ b.pilot.waiting = [] ∧
       passes (.general g)) ∧
    (let s : State := qcls 4; let qn : Nat := 1; let q : Queue := { queue with cls := 4 }; let f : Fetched := sfetch 1;
     let y : FerryBody := { fyb with mode := 1, format := 0xB }; let b := s.blk; let sync := if f.hdr.ext then f.sync else SyncExt.none;
     let passes (body : Body) : Prop := q.cls = body.cls ∧ b.checkSlot q.slice q.bind { f with bufs := f.bufs.take f.hdr.nbuf } sync body = none;
     tget b.quay.queues qn = some q ∧ q.k ≠ 0 ∧ q.standing = none ∧ b.canFetch s.env qn q f.hdr.ext = true ∧ b.pilot.waiting = [] ∧ passes (.ferry y)) ∧
    (let s : State := qcls 5; let qn : Nat := 1; let q : Queue := { queue with cls := 5 }; let f : Fetched := fetched0; let d : List Byte := [];
     let b := s.blk; let sync := if f.hdr.ext then f.sync else SyncExt.none;
     let passes (body : Body) : Prop := q.cls = body.cls ∧ b.checkSlot q.slice q.bind { f with bufs := f.bufs.take f.hdr.nbuf } sync body = none;
     tget b.quay.queues qn = some q ∧ q.k ≠ 0 ∧ q.standing = none ∧ b.canFetch s.env qn q f.hdr.ext = true ∧ b.pilot.waiting = [] ∧ 5 ≤ q.cls ∧
       passes (.lighter (q.cls - 5) d)) ∧
    (let s : State := ssl; let qn : Nat := 3; let q : Queue := squeue; let f : Fetched := sfetch 4; let v : ServeBody := vserve; let b := s.blk;
     let sync := if f.hdr.ext then f.sync else SyncExt.none;
     let passes (body : Body) : Prop := q.cls = body.cls ∧ b.checkSlot q.slice q.bind { f with bufs := f.bufs.take f.hdr.nbuf } sync body = none;
     tget b.quay.queues qn = some q ∧ q.k ≠ 0 ∧ q.standing = none ∧ b.canFetch s.env qn q f.hdr.ext = true ∧ b.pilot.waiting = [] ∧ f.hdr.nbuf ≠ 0 ∧
       passes (.serve 1 v [] [])) ∧
    (let s : State := (sarm seq4); let qn : Nat := 3; let q : Queue := squeue; let f : Fetched := sfetch 1; let v : ServeBody := vserve;
     let ds : List SeqDesc := [desc]; let b := s.blk; let sync := if f.hdr.ext then f.sync else SyncExt.none;
     let passes (body : Body) : Prop := q.cls = body.cls ∧ b.checkSlot q.slice q.bind { f with bufs := f.bufs.take f.hdr.nbuf } sync body = none;
     tget b.quay.queues qn = some q ∧ q.k ≠ 0 ∧ q.standing = none ∧ b.canFetch s.env qn q f.hdr.ext = true ∧ b.pilot.waiting = [] ∧ f.hdr.nbuf ≠ 0 ∧
       passes (.serve 3 v ds [])) ∧
    (let s : State := qcls 0; let qn : Nat := 1; let q : Queue := { queue with cls := 0 };
     let f : Fetched := { fetched0 with hdr := { hdr with ctx := 99 } }; let b := s.blk; tget b.quay.queues qn = some q ∧ q.k ≠ 0 ∧
       q.standing = none ∧ b.canFetch s.env qn q f.hdr.ext = true ∧ b.pilot.waiting = [] ∧ tget b.quay.ctxs f.hdr.ctx = none ∧ q.cls = 0) ∧
    (let s : State := qcls 1; let qn : Nat := 1; let q : Queue := { queue with cls := 1 };
     let f : Fetched := { fetched0 with hdr := { hdr with ctx := 99 } }; let b := s.blk; tget b.quay.queues qn = some q ∧ q.k ≠ 0 ∧
       q.standing = none ∧ b.canFetch s.env qn q f.hdr.ext = true ∧ b.pilot.waiting = [] ∧ tget b.quay.ctxs f.hdr.ctx = none ∧ q.cls = 1) ∧
    (let s : State := qcls 3; let qn : Nat := 1; let q : Queue := { queue with cls := 3 };
     let f : Fetched := { fetched0 with hdr := { hdr with ctx := 99 } }; let b := s.blk; tget b.quay.queues qn = some q ∧ q.k ≠ 0 ∧
       q.standing = none ∧ b.canFetch s.env qn q f.hdr.ext = true ∧ b.pilot.waiting = [] ∧ tget b.quay.ctxs f.hdr.ctx = none ∧ q.cls = 3) ∧
    (let s : State := qcls 4; let qn : Nat := 1; let q : Queue := { queue with cls := 4 };
     let f : Fetched := { fetched0 with hdr := { hdr with ctx := 99 } }; let b := s.blk; tget b.quay.queues qn = some q ∧ q.k ≠ 0 ∧
       q.standing = none ∧ b.canFetch s.env qn q f.hdr.ext = true ∧ b.pilot.waiting = [] ∧ tget b.quay.ctxs f.hdr.ctx = none ∧ q.cls = 4) ∧
    (let s : State := qcls 5; let qn : Nat := 1; let q : Queue := { queue with cls := 5 };
     let f : Fetched := { fetched0 with hdr := { hdr with ctx := 99 } }; let b := s.blk; tget b.quay.queues qn = some q ∧ q.k ≠ 0 ∧
       q.standing = none ∧ b.canFetch s.env qn q f.hdr.ext = true ∧ b.pilot.waiting = [] ∧ tget b.quay.ctxs f.hdr.ctx = none ∧ 5 ≤ q.cls) := by
  iterate 11 refine And.intro (by decide +kernel) ?_
  decide +kernel

theorem test_hyp_ContextsAreCreatedAndTornDown :
    (let s : State := asl; let sl : Nat := 3; let n : Nat := (oN (asl.blk.newCtx 3)); let qn : Nat := 0; let h : CmdHdr := hdr;
     let q : Queue := aqueue; let b1 : Block := (oB (asl.blk.newCtx 3)); let b := s.blk; AdminReady s sl h qn q ∧
       b.ctxCount sl < b.rd F.QY_SQUOTA_CONTEXTS sl ∧ b.newCtx sl = some (n, b1)) ∧
    (let s : State := chg asl fun b => b.wr F.QY_SQUOTA_CONTEXTS 3 2; let sl : Nat := 3; let qn : Nat := 0; let h : CmdHdr := hdr;
     let q : Queue := aqueue; let b := s.blk; AdminReady s sl h qn q ∧ b.rd F.QY_SQUOTA_CONTEXTS sl ≤ b.ctxCount sl) ∧
    (let s : State := chg asl fun b => { b with quay := { b.quay with ctxs := b.quay.ctxs ++ [(8, ⟨4, .live, 0, none⟩)] } }; let sl : Nat := 3;
     let c : Nat := 8; let qn : Nat := 0; let h : CmdHdr := hdr; let q : Queue := aqueue; let x : Ctx := ⟨4, .live, 0, none⟩; let b := s.blk;
     let k := c % 4096; AdminReady s sl h qn q ∧ tget b.quay.ctxs k = some x ∧ x.slice ≠ sl) ∧
    (let s : State := asl; let sl : Nat := 3; let c : Nat := 6; let qn : Nat := 0; let h : CmdHdr := hdr; let q : Queue := aqueue;
     let x : Ctx := ⟨3, .live, 0, none⟩; let b := s.blk; let k := c % 4096; AdminReady s sl h qn q ∧ tget b.quay.ctxs k = some x ∧ x.slice = sl ∧
       x.st = .live ∧ (∀ y ∈ b.quay.cmds, y.2.hdr.ctx ≠ k) ∧ (∀ y ∈ b.quay.fences, y.2.owner ≠ k)) ∧
    (let s : State := asl; let sl : Nat := 3; let qn : Nat := 0; let h : CmdHdr := hdr; let q : Queue := aqueue; let b := s.blk;
     AdminReady s sl h qn q ∧ b.quay.cmds = [] ∧ b.quay.fences = []) ∧
    (let s : State := asl; let c : Nat := 7; let x : Ctx := ⟨3, .live, 0, none⟩; let b := s.blk; tget b.quay.ctxs c = some x ∧ x.st = .live ∧
       (∀ y ∈ b.quay.cmds, y.2.hdr.ctx ≠ c) ∧ (∀ y ∈ b.quay.fences, y.2.owner ≠ c)) ∧
    (let s : State := chg asl fun b => { b with quay := { b.quay with ctxs := [(6, ⟨3, .live, 0, none⟩), (7, ⟨3, .tearing, 0, some (hdr, false)⟩)] } };
     let c : Nat := 7; let qn : Nat := 0; let hw : CmdHdr := hdr; let q : Queue := aqueue; let x : Ctx := ⟨3, .tearing, 0, some (hdr, false)⟩;
     let b := s.blk; tget b.quay.ctxs c = some x ∧ x.st = .tearing ∧ b.ctxQuiet c = true ∧ x.waiter = some (hw, false) ∧
       b.findQueue x.slice 0 = some (qn, q) ∧ tget b.quay.queues qn = some q ∧ (b.freeCtx c).recordReady s.env qn q) := by
  iterate 6 refine And.intro (by decide +kernel) ?_
  decide +kernel

theorem test_hyp_QueuesAreCreatedAndFreed :
    (let s : State := asl; let sl : Nat := 3; let qn : Nat := 0; let h : CmdHdr := hdr; let q : Queue := aqueue;
     let r : QueueBody := ⟨2, 0, false, false, 0, none, 0x100000, 0x200000, 4, 4, 8, 0, 0, 0⟩; let b := s.blk; AdminReady s sl h qn q ∧
       (b.quay.queues.filter fun z => z.2.slice = sl).length < b.rd F.QY_SQUOTA_QUEUES sl ∧ b.quay.queues.length < 8192 ∧
       b.queueArgsOk s.env sl r = true ∧ r.standing = false ∧ b.pilot.cache = []) ∧
    (let s : State := asl; let sl : Nat := 3; let qn : Nat := 0; let h : CmdHdr := hdr; let q : Queue := aqueue;
     let r : QueueBody := ⟨0, 0, false, false, 0, none, 0x100000, 0x200000, 4, 4, 8, 0, 0, 0⟩; let b := s.blk; AdminReady s sl h qn q ∧
       (b.quay.queues.filter fun z => z.2.slice = sl).length < b.rd F.QY_SQUOTA_QUEUES sl ∧ b.quay.queues.length < 8192 ∧
       b.queueArgsOk s.env sl r = false) ∧
    (let s : State := chg asl fun b => b.wr F.QY_SQUOTA_QUEUES 3 2; let sl : Nat := 3; let qn : Nat := 0; let h : CmdHdr := hdr;
     let q : Queue := aqueue; let b := s.blk; AdminReady s sl h qn q ∧
       b.rd F.QY_SQUOTA_QUEUES sl ≤ (b.quay.queues.filter fun z => z.2.slice = sl).length) ∧
    (let s : State := asl; let sl : Nat := 3; let qn : Nat := 0; let kn : Nat := 1; let k : Nat := 1; let h : CmdHdr := hdr; let q : Queue := aqueue;
     let y : Queue := queue; let b := s.blk; AdminReady s sl h qn q ∧ 0 < k ∧ k ≤ 255 ∧ b.findQueue sl k = some (kn, y) ∧
       tget b.quay.queues kn = some y ∧ y.st ≠ .broken ∧ kn ≠ qn) ∧
    (let s : State := asl; let sl : Nat := 3; let qn : Nat := 0; let k : Nat := 9; let h : CmdHdr := hdr; let q : Queue := aqueue; let b := s.blk;
     AdminReady s sl h qn q ∧ b.findQueue sl k = none) ∧
    (let s : State := chg asl fun b => { b with quay := { b.quay with queues := [(0, aqueue), (1, { queue with destroyer := some hdr, load := 1, st := .destroying })] } };
     let qn : Nat := 0; let j : Nat := 1; let hd : CmdHdr := hdr; let y : Queue := { queue with destroyer := some hdr, load := 1, st := .destroying };
     let aq : Queue := aqueue; let b := s.blk; tget b.quay.queues j = some y ∧ y.destroyer = some hd ∧ (∀ z ∈ b.quay.cmds, z.2.q ≠ j) ∧ y.held = [] ∧
       y.k ≠ 0 ∧ b.ctxCheck y.slice 0 hd.ctx = none ∧ b.findQueue y.slice 0 = some (qn, aq) ∧ tget b.quay.queues qn = some aq ∧ qn ≠ j ∧
       (b.freeStamps (y.ringHeads ++ match y.standing with | some (_, _, hs) => hs | none => [])).recordReady s.env qn aq) := by
  iterate 5 refine And.intro (by decide +kernel) ?_
  decide +kernel

theorem test_hyp_FencesFollowTheirRights :
    (let s : State := jobFences asl [(2, fence3)]; let sl : Nat := 3; let qn : Nat := 0; let init : Nat := 5; let va : Nat := 0;
     let n : Nat := (oN (s.blk.newFence (⟨5, 7, 3, [], none, false⟩ : Fence))); let h : CmdHdr := hdr; let q : Queue := aqueue;
     let b1 : Block := (oB (s.blk.newFence (⟨5, 7, 3, [], none, false⟩ : Fence))); let b := s.blk;
     let fresh : Fence := ⟨init, h.ctx, sl, [], if va = 0 then none else some va, false⟩; AdminReady s sl h qn q ∧
       (∀ z ∈ b.quay.fences, z.2.broken = true → z.2.rights ≠ []) ∧
       (b.quay.fences.filter fun z => z.2.slice = sl).length < b.rd F.QY_SQUOTA_FENCES sl ∧ init < 2 ^ 63 ∧ b.newFence fresh = some (n, b1)) ∧
    (let s : State := jobFences asl [(2, fence3)]; let sl : Nat := 3; let qn : Nat := 0; let init : Nat := 2 ^ 63; let h : CmdHdr := hdr;
     let q : Queue := aqueue; let b := s.blk; AdminReady s sl h qn q ∧ (∀ z ∈ b.quay.fences, z.2.broken = true → z.2.rights ≠ []) ∧
       (b.quay.fences.filter fun z => z.2.slice = sl).length < b.rd F.QY_SQUOTA_FENCES sl ∧ 2 ^ 63 ≤ init) ∧
    (let s : State := chg (jobFences asl [(2, fence3)]) fun b => b.wr F.QY_SQUOTA_FENCES 3 1; let sl : Nat := 3; let qn : Nat := 0;
     let h : CmdHdr := hdr; let q : Queue := aqueue; let b := s.blk; AdminReady s sl h qn q ∧
       (∀ z ∈ b.quay.fences, z.2.broken = true → z.2.rights ≠ []) ∧ b.rd F.QY_SQUOTA_FENCES sl ≤ (b.quay.fences.filter fun z => z.2.slice = sl).length) ∧
    (let s : State := chg (jobFences asl [(2, { fence3 with rights := [⟨4, true, false⟩] })]) fun b => { b with quay := { b.quay with cmds := [(5, { cmd with ph := .waiting, sync := ⟨some (2, 9), none, none⟩ })] } };
     let sl : Nat := 3; let qn : Nat := 0; let f : Nat := 2; let h : CmdHdr := hdr; let q : Queue := aqueue;
     let x : Fence := { fence3 with rights := [⟨4, true, false⟩] }; let b := s.blk; AdminReady s sl h qn q ∧
       (∀ z ∈ b.quay.fences, z.2.broken = true → z.2.rights ≠ []) ∧ tget b.quay.fences f = some x ∧ x.slice = sl ∧ x.broken = false ∧
       x.mirror = none ∧ x.rights ≠ []) ∧
    (let s : State := jobFences asl [(2, { fence3 with slice := 4 })]; let sl : Nat := 3; let qn : Nat := 0; let f : Nat := 2; let peer : Nat := 4;
     let h : CmdHdr := hdr; let q : Queue := aqueue; let x : Fence := { fence3 with slice := 4 }; let b := s.blk; AdminReady s sl h qn q ∧
       (∀ z ∈ b.quay.fences, z.2.broken = true → z.2.rights ≠ []) ∧ tget b.quay.fences f = some x ∧ x.slice ≠ sl ∧ peer < 512) ∧
    (let s : State := jobFences asl [(2, fence3)]; let sl : Nat := 3; let qn : Nat := 0; let f : Nat := 2; let peer : Nat := 4; let h : CmdHdr := hdr;
     let q : Queue := aqueue; let x : Fence := fence3; let b := s.blk; let others := x.rights.filter fun r => r.slice ≠ peer;
     AdminReady s sl h qn q ∧ (∀ z ∈ b.quay.fences, z.2.broken = true → z.2.rights ≠ []) ∧ tget b.quay.fences f = some x ∧ x.slice = sl ∧
       peer < 512 ∧ others.length < 7) ∧
    (let s : State := jobFences asl [(2, { fence3 with rights := (List.range 7).map fun i => ⟨10 + i, true, true⟩ })]; let sl : Nat := 3;
     let qn : Nat := 0; let f : Nat := 2; let peer : Nat := 4; let h : CmdHdr := hdr; let q : Queue := aqueue;
     let x : Fence := { fence3 with rights := (List.range 7).map fun i => ⟨10 + i, true, true⟩ }; let b := s.blk;
     let others := x.rights.filter fun r => r.slice ≠ peer; AdminReady s sl h qn q ∧ (∀ z ∈ b.quay.fences, z.2.broken = true → z.2.rights ≠ []) ∧
       tget b.quay.fences f = some x ∧ x.slice = sl ∧ peer < 512 ∧ 7 ≤ others.length) ∧
    (let s : State := jobFences asl [(2, { fence3 with slice := 4, rights := [⟨3, true, false⟩] })]; let sl : Nat := 3; let qn : Nat := 0;
     let f : Nat := 2; let h : CmdHdr := hdr; let q : Queue := aqueue; let x : Fence := { fence3 with slice := 4, rights := [⟨3, true, false⟩] };
     let b := s.blk; AdminReady s sl h qn q ∧ (∀ z ∈ b.quay.fences, z.2.broken = true → z.2.rights ≠ []) ∧ tget b.quay.fences f = some x ∧
       (x.rights.any fun r => r.slice = sl) = true ∧ x.broken = false) ∧
    (let s : State := jobFences asl [(2, fence3)]; let sl : Nat := 3; let qn : Nat := 0; let f : Nat := 2; let h : CmdHdr := hdr;
     let q : Queue := aqueue; let x : Fence := fence3; let b := s.blk; AdminReady s sl h qn q ∧
       (∀ z ∈ b.quay.fences, z.2.broken = true → z.2.rights ≠ []) ∧ tget b.quay.fences f = some x ∧ (b.fenceRights f sl).1 = true) ∧
    (let s : State := jobFences asl [(2, { fence3 with slice := 4 })]; let sl : Nat := 3; let qn : Nat := 0; let f : Nat := 2; let h : CmdHdr := hdr;
     let q : Queue := aqueue; let x : Fence := { fence3 with slice := 4 }; let b := s.blk; AdminReady s sl h qn q ∧
       (∀ z ∈ b.quay.fences, z.2.broken = true → z.2.rights ≠ []) ∧ tget b.quay.fences f = some x ∧ (b.fenceRights f sl).1 = false) ∧
    (let s : State := jobFences asl [(2, fence3)]; let sl : Nat := 3; let qn : Nat := 0; let f : Nat := 2; let v : Nat := 9; let h : CmdHdr := hdr;
     let q : Queue := aqueue; let x : Fence := fence3; let b := s.blk; AdminReady s sl h qn q ∧
       (∀ z ∈ b.quay.fences, z.2.broken = true → z.2.rights ≠ []) ∧ tget b.quay.fences f = some x ∧ v < 2 ^ 63 ∧ (b.fenceRights f sl).2 = true ∧
       x.broken = false ∧ x.mirror = none) ∧
    (let s : State := jobFences asl [(2, { fence3 with slice := 4 })]; let sl : Nat := 3; let qn : Nat := 0; let f : Nat := 2; let v : Nat := 9;
     let h : CmdHdr := hdr; let q : Queue := aqueue; let x : Fence := { fence3 with slice := 4 }; let b := s.blk; AdminReady s sl h qn q ∧
       (∀ z ∈ b.quay.fences, z.2.broken = true → z.2.rights ≠ []) ∧ tget b.quay.fences f = some x ∧ v < 2 ^ 63 ∧ (b.fenceRights f sl).2 = false) ∧
    (let s : State := jobFences asl [(2, fence3)]; let sl : Nat := 3; let qn : Nat := 0; let f : Nat := 2; let v : Nat := 2 ^ 63;
     let h : CmdHdr := hdr; let q : Queue := aqueue; let x : Fence := fence3; let b := s.blk; AdminReady s sl h qn q ∧
       (∀ z ∈ b.quay.fences, z.2.broken = true → z.2.rights ≠ []) ∧ tget b.quay.fences f = some x ∧ 2 ^ 63 ≤ v) := by
  iterate 12 refine And.intro (by decide +kernel) ?_
  decide +kernel

theorem test_hyp_MappingsAreWithdrawnAndRestamped :
    (let s : State := ijob; let ps : Option Nat := (some 5); let va : Nat := 0x5000; let size : Nat := 0x1000; let b := s.blk;
     let met := b.matchHeads ⟨ps, va, size, [], [], false, 0⟩;
     let who := ((met.flatMap fun i => tgetD b.pilot.holders i []) ++ b.strayEngines met).eraseDups; b.pilot.invals = [] ∧ who ≠ []) ∧
    (let s : State := invd (ijob) [inval] []; let x : Inval := inval; let rest : List Inval := []; let b := s.blk; b.pilot.invals = x :: rest ∧
       rest.length < 32) ∧
    (let s : State := invd (ijob) [inval] [(.engine 0 0, [1])]; let n : Nat := 0; let k : Nat := 0; let heads : List Nat := [1]; let t : Xfer := bufX;
     let sm : Stream := stream; let b := s.blk; b.pilot.notices.find? (fun y => y.1 = Holder.engine n k) = some (.engine n k, heads) ∧ k < 2 ∧
       (b.berth n).stream = some sm ∧ (b.berth n).eng k = [t] ∧ t.failed = none ∧ (∃ i ∈ t.bufs, ∃ j ∈ heads, b.bufHead sm.job i = some j)) ∧
    (let s : State := invd (chg ijob fun b => { b with cores := [(0, { Core.reset with tlb := [(0,0,0x1000,1,true,true),(0,0,0x1000,2,true,true)] })] }) [inval] [(.core 0, [1])];
     let g : Nat := 0; let heads : List Nat := [1]; let b := s.blk; b.pilot.notices.find? (fun y => y.1 = Holder.core g) = some (.core g, heads)) ∧
    (let s : State := invd (ijob) [inval] []; let h : Holder := Holder.core 0; let x : Inval := inval; let rest : List Inval := []; let b := s.blk;
     b.pilot.invals = x :: rest ∧ x.waiting.contains h = true ∧ (∀ y ∈ b.pilot.notices, y.1 ≠ h) ∧ b.mayAck h x.heads = true ∧
       (x.waiting.filter (· ≠ h)) ≠ []) ∧
    (let s : State := invd (ijob) [{ inval with waiting := [.core 0], heads := [9] }] []; let h : Holder := Holder.core 0;
     let x : Inval := { inval with waiting := [.core 0], heads := [9] }; let rest : List Inval := []; let b := s.blk; b.pilot.invals = x :: rest ∧
       x.waiting.contains h = true ∧ (∀ y ∈ b.pilot.notices, y.1 ≠ h) ∧ b.mayAck h x.heads = true ∧ (x.waiting.filter (· ≠ h)) = [] ∧ rest = [] ∧
       b.pilot.streams = [] ∧ b.pilot.waiting = [] ∧ (∀ i ∈ x.heads, b.head i = none)) ∧
    (let s : State := chg (stamped (chg sl fun b => { b with berths := [] }) []) fun b => { b with pilot := { b.pilot with streams := [(0, taskR)] } };
     let hd : Nat := 1; let st : Nat := 0; let tk : StampTask := taskR; let nd : Need := need; let runs : List RunRec := [runRec];
     let v : HeadView := ((stamped sl []).blk.head 1).getD (⟨0,0,0,0,0,0,false,false,false,false,0,0⟩); let b := s.blk;
     b.pilot.streams.find? (fun y => match y.2.why with | .restamp i => i = hd | _ => false) = some (st, tk) ∧ tk.failed = none ∧ tk.needs = [] ∧
       tk.halt = false ∧ tk.done = [(nd, runs)] ∧ b.head hd = some v ∧
       (runs.length ≤ v.runs ∨ b.stampsUsed v.slice + runs.length ≤ b.rd F.PL_SQUOTA_QUOTA v.slice + v.runs) ∧
       (∀ y ∈ b.quay.queues, hd ∈ y.2.ringHeads → y.2.held = []) ∧ b.pilot.waiting = [] ∧ (∀ y ∈ b.berths, y.2.stream = none) ∧
       (∀ y ∈ b.lighters, y.2.held = [])) ∧
    (let s : State := invd (chg ijob fun b => { b with cores := [(0, { Core.reset with on := true, tlb := [(0,0,0x1000,1,true,true)] })] }) [inval] [];
     let g : Nat := 0; let x : Inval := inval; let rest : List Inval := []; let b := s.blk; b.pilot.invals = x :: rest ∧ g < 8 ∧
       x.waiting.contains (.core g) = true ∧ x.since + 3000 ≤ s.aon.ns ∧ (b.core g).resetStep = none ∧ (b.core g).task = none ∧ (b.core g).on = true) := by
  iterate 7 refine And.intro (by decide +kernel) ?_
  decide +kernel

theorem test_hyp_TranslationsGranulesAndDirtyLogs :
    (let s : State := tsl { taskC (.command 5) with pageReq := some 5 }; let st : Nat := 0; let c : Nat := 5; let va : Nat := 0x5000;
     let since : Nat := 5; let t : StampTask := { taskC (.command 5) with pageReq := some 5 }; let x : Cmd := scmd; let n : Need := need;
     let nds : List Need := []; let b := s.blk; st < 64 ∧ tget b.pilot.streams st = some t ∧ t.why = .command c ∧ tget b.quay.cmds c = some x ∧
       x.ph = .stamping ∧ x.status = 0 ∧ b.pilot.waiting = [] ∧ (∀ y ∈ b.pilot.streams, y.2.pageWait = false) ∧ t.asked = some va ∧
       t.pageReq = some since ∧ t.halt = false ∧ t.needs = n :: nds ∧ t.at_ < n.len ∧ va = (n.va + t.at_) / 4096 * 4096) ∧
    (let s : State := tsl { taskC (.command 5) with pageReq := some 5 }; let st : Nat := 0; let c : Nat := 5; let va : Nat := 0x5000;
     let code : Nat := 1; let since : Nat := 5; let t : StampTask := { taskC (.command 5) with pageReq := some 5 }; let x : Cmd := scmd;
     let b := s.blk; st < 64 ∧ tget b.pilot.streams st = some t ∧ t.why = .command c ∧ tget b.quay.cmds c = some x ∧ x.ph = .stamping ∧
       x.status = 0 ∧ b.pilot.waiting = [] ∧ (∀ y ∈ b.pilot.streams, y.2.pageWait = false) ∧ t.asked = some va ∧ t.pageReq = some since ∧
       t.halt = false ∧ code ≠ 0) ∧
    (let s : State := tsl { taskC (.command 5) with pageReq := some 5 }; let st : Nat := 0; let c : Nat := 5; let va : Nat := 0x5000;
     let since : Nat := 5; let t : StampTask := { taskC (.command 5) with pageReq := some 5 }; let x : Cmd := scmd; let b := s.blk; st < 64 ∧
       tget b.pilot.streams st = some t ∧ t.why = .command c ∧ tget b.quay.cmds c = some x ∧ x.ph = .stamping ∧ x.status = 0 ∧ b.pilot.waiting = [] ∧
       (∀ y ∈ b.pilot.streams, y.2.pageWait = false) ∧ t.asked = some va ∧ t.pageReq = some since ∧ t.halt = false ∧
       since + b.rd F.PL_CTL_PRI_TIMEOUT * 1000000 ≤ s.aon.ns) ∧
    (let g : Nat := 0; g < 65536) ∧
    (let s : State := tsl (taskC (.command 5)); let sl : Nat := 3; let base : Nat := 0x10000; let pages : Nat := 16; let la : Nat := 0x1000;
     let lb : Nat := 0x2000; let m : Mgr := mg; let b := s.blk; MgrReady s m 0x0801 ∧ b.sliceExists sl = true ∧ base % 4096 = 0 ∧ 0 < pages ∧
       pages ≤ 2 ^ 28 ∧ la % 64 = 0 ∧ lb % 64 = 0 ∧ (∀ w ∈ b.pilot.logLines, w.sl ≠ sl) ∧ thas b.pilot.dirty sl = false ∧ b.pilot.dirty.length < 64) ∧
    (let s : State := chg (tsl (taskC (.command 5))) fun b => { b with pilot := { b.pilot with dirty := [(3, ⟨0x10000, 16, 0x1000, 0x2000, 0, false, [3]⟩)] } };
     let sl : Nat := 3; let base : Nat := 0x10000; let pages : Nat := 16; let la : Nat := 0x1000; let lb : Nat := 0x2000; let m : Mgr := mg;
     let b := s.blk; MgrReady s m 0x0801 ∧ b.sliceExists sl = true ∧ base % 4096 = 0 ∧ 0 < pages ∧ pages ≤ 2 ^ 28 ∧ la % 64 = 0 ∧ lb % 64 = 0 ∧
       (∀ w ∈ b.pilot.logLines, w.sl ≠ sl) ∧ thas b.pilot.dirty sl = true) ∧
    (let s : State := chg (tsl (taskC (.command 5))) fun b => { b with pilot := { b.pilot with dirty := [(3, ⟨0x10000, 16, 0x1000, 0x2000, 0, false, [3]⟩)] } };
     let sl : Nat := 3; let m : Mgr := mg; let d : DirtyLog := (⟨0x10000, 16, 0x1000, 0x2000, 0, false, [3]⟩ : DirtyLog); let b := s.blk;
     tget b.pilot.dirty sl = some d ∧ (∀ w ∈ b.pilot.logLines, w.sl ≠ sl) ∧ MgrReady s m 0x0802) ∧
    (let s : State := chg (tsl (taskC (.command 5))) fun b => { b with pilot := { b.pilot with dirty := [(3, ⟨0x10000, 16, 0x1000, 0x2000, 0, false, [3]⟩)] } };
     let sl : Nat := 3; let m : Mgr := mg; let d : DirtyLog := (⟨0x10000, 16, 0x1000, 0x2000, 0, false, [3]⟩ : DirtyLog); let b := s.blk;
     tget b.pilot.dirty sl = some d ∧ (∀ w ∈ b.pilot.logLines, w.sl ≠ sl) ∧ MgrReady s m 0x0803) := by
  iterate 7 refine And.intro (by decide +kernel) ?_
  decide +kernel

theorem test_hyp_TranslationsGranulesAndDirtyLogs_0 :
    (let t : StampTask := { taskC (.command 5) with needs := [{ need with len := 4 }] };
     let s : State := chg (tsl t) fun b => { b with host := { b.host with bar2Base := 2 ^ 50 } }; let st : Nat := 0; let c : Nat := 5;
     let va : Nat := 0x5000; let ph : Nat := 0x40005000; let l : List Trans := [⟨4096, 0x40005000, true, true⟩];
     let n : Need := { need with len := 4 }; let x : Cmd := scmd;
     let z : Xlat := (cacheFind (s.blk.addPages s.env 5 0x5000 l).pilot.cache 5 0x5000).getD xl; let b := s.blk; let pasid := b.pasidOf t.slice;
     let b1 := b.addPages s.env pasid va l; st < 64 ∧ tget b.pilot.streams st = some t ∧ t.why = .command c ∧ tget b.quay.cmds c = some x ∧
       x.ph = .stamping ∧ x.status = 0 ∧ b.pilot.waiting = [] ∧ (∀ y ∈ b.pilot.streams, y.2.pageWait = false) ∧ t.asked = some va ∧
       t.pageReq = none ∧ t.crossed = [] ∧ t.halt = false ∧ t.needs = [n] ∧ t.at_ = 0 ∧ t.cur = [] ∧ t.done = [] ∧ n.image = false ∧ 0 < n.len ∧
       n.len ≤ 2 ^ 34 ∧ t.slice = x.slice ∧ (∀ tb, x.body ≠ .tensor tb) ∧ z.read = true ∧ z.write = true ∧ z.count ≤ 16 ∧
       (∀ i, i < n.len → cacheFind b1.pilot.cache pasid (n.va + i) = some z ∧ b.classify s.env (z.phys + (n.va + i - z.va)) = (1, ph + i)) ∧
       2 ≤ b.stampRoom x.slice) := by
  and_intros
  all_goals first | decide +kernel | (intro tb h; cases h)

theorem test_hyp_GeneralTasksRunAndEnd :
    (let s : State := gjobC; let g : Nat := 0; let c : Nat := 5; let va : Nat := 0x5010; let h : Nat := 1; let x : Cmd := rcmd;
     let y : Buf := (⟨0x5000, 0x1000, true, true⟩ : Buf); let gb : GeneralBody := gb;
     let hv : HeadView := (gjobC.blk.head 1).getD ⟨0,0,0,0,0,0,false,false,false,false,0,0⟩;
     let r : RunView := (gjobC.blk.runAt 1 0x10).getD ⟨0,0,0,0,0,false,0,false,false⟩; let b := s.blk; let k := b.core g; g < 8 ∧ k.task = some c ∧
       k.resetStep = none ∧ tget b.quay.cmds c = some x ∧ x.ph = .running ∧ x.status = 0 ∧ x.body = .general gb ∧ x.bufs = [y] ∧ y.va ≤ va ∧
       va < y.va + y.len ∧ b.bufHead c 0 = some h ∧ b.head h = some hv ∧ hv.stale = false ∧ b.runAt h (va - y.va) = some r ∧ r.stale = false) ∧
    (let s : State := gjobC; let g : Nat := 0; let c : Nat := 5; let va : Nat := 0x9000; let x : Cmd := rcmd; let gb : GeneralBody := gb;
     let b := s.blk; let k := b.core g; g < 8 ∧ k.task = some c ∧ k.resetStep = none ∧ tget b.quay.cmds c = some x ∧ x.ph = .running ∧ x.status = 0 ∧
       x.body = .general gb ∧ (∀ z ∈ x.bufs, ¬ (z.va ≤ va ∧ va < z.va + z.len))) ∧
    (let s : State := gjobC; let g : Nat := 0; let c : Nat := 5; let x : Cmd := rcmd; let a7 : Word := 1; let gb : GeneralBody := gb; let b := s.blk;
     let k := b.core g; g < 8 ∧ k.task = some c ∧ k.resetStep = none ∧ tget b.quay.cmds c = some x ∧ x.ph = .running ∧ x.status = 0 ∧
       x.body = .general gb ∧ a7 ≠ 0) ∧
    (let s : State := chg gjobC fun b => { b with cores := [(0, { Core.reset with on := true, task := some 5, since := 1990000000, ran := 5, pc := 0x100 })] };
     let g : Nat := 0; let c : Nat := 5; let x : Cmd := rcmd; let gb : GeneralBody := gb; let b := s.blk; let k := b.core g; g < 8 ∧
       k.task = some c ∧ k.resetStep = none ∧ tget b.quay.cmds c = some x ∧ x.ph = .running ∧ x.status = 0 ∧ x.body = .general gb ∧
       1000 * gb.limit < k.ran + (s.aon.ns - k.since)) ∧
    (let s : State := gjobC; let g : Nat := 0; let c : Nat := 5; let x : Cmd := rcmd; let gb : GeneralBody := gb; let b := s.blk; let k := b.core g;
     g < 8 ∧ k.task = some c ∧ k.resetStep = none ∧ tget b.quay.cmds c = some x ∧ x.ph = .running ∧ x.status = 0 ∧ x.body = .general gb ∧
       k.ran + (s.aon.ns - k.since) ≤ 1000 * gb.limit) ∧
    (let s : State := gjobD; let g : Nat := 0; let c : Nat := 5; let x : Cmd := rcmd; let gb : GeneralBody := gb; let b := s.blk; let e := s.env;
     let k := b.core g; let m := b.markCores e; g < 8 ∧ k.task = some c ∧ k.resetStep = none ∧ tget b.quay.cmds c = some x ∧ x.ph = .running ∧
       x.status = 0 ∧ x.body = .general gb ∧ k.taken + 10000000 ≤ s.aon.ns ∧ (∃ z ∈ m.coreCands, z.2.slice ≠ x.slice ∧
       m.coreNow e z.2.slice < m.coreNow e x.slice)) := by
  iterate 5 refine And.intro (by decide +kernel) ?_
  decide +kernel

theorem test_hyp_ServeCommandsActOnSequences :
    (let s : State := served (ssl) 3 4 (.serve 1 vserve [] []); let q : Nat := 3; let c : Nat := 6; let f : Fetched := sfetch 4;
     let v : ServeBody := vserve; let m : Block := (s.blk.fetchCmd s.env 3 (sfetch 4) (.serve 1 vserve [] [])).settleWaits;
     let x : Cmd := (tget m.quay.cmds 6).getD cmd; let sl := x.slice;
     let turn (sop : Nat) (ds : List SeqDesc) (ws : List Nat) : Prop := ServeTurn s q f (.serve sop v ds ws) c x m;
     let ring := if v.arg0.toNat % 65536 = 0 then 65536 else v.arg0.toNat % 65536; let free := v.arg0.toNat / 65536 % 65536; turn 1 [] [] ∧
       thas m.manifest.armed sl = false ∧ 64 ≤ ring ∧ isPow2 ring = true ∧ 1 ≤ free ∧ free ≤ 4096 ∧ 4 ≤ x.bufs.length) ∧
    (let s : State := served (sarm seq4) 3 4 (.serve 1 vserve [] []); let q : Nat := 3; let c : Nat := 6; let f : Fetched := sfetch 4;
     let v : ServeBody := vserve; let m : Block := (s.blk.fetchCmd s.env 3 (sfetch 4) (.serve 1 vserve [] [])).settleWaits;
     let x : Cmd := (tget m.quay.cmds 6).getD cmd; let sl := x.slice;
     let turn (sop : Nat) (ds : List SeqDesc) (ws : List Nat) : Prop := ServeTurn s q f (.serve sop v ds ws) c x m; turn 1 [] [] ∧
       thas m.manifest.armed sl = true) ∧
    (let s : State := sarm seq4; let q : Nat := 3; let c : Nat := 6; let f : Fetched := sfetch 0; let v : ServeBody := vserve;
     let x : Cmd := ((tget (((sarm seq4).blk.fetchCmd (sarm seq4).env 3 (sfetch 0) (.serve 2 vserve [] [])).settleWaits).quay.cmds 6).getD cmd);
     let m : Block := (((sarm seq4).blk.fetchCmd (sarm seq4).env 3 (sfetch 0) (.serve 2 vserve [] [])).settleWaits); let a : Armed := armed;
     let sl := x.slice; let turn (sop : Nat) (ds : List SeqDesc) (ws : List Nat) : Prop := ServeTurn s q f (.serve sop v ds ws) c x m; turn 2 [] [] ∧
       tget m.manifest.armed sl = some a ∧ a.disarm = none ∧ a.cmd ≠ c ∧ m.listsOf sl = []) ∧
    (let s : State := served (sarm seq4) 3 1 (.serve 3 vserve [desc] []); let q : Nat := 3; let c : Nat := 6; let f : Fetched := sfetch 1;
     let v : ServeBody := vserve; let ds : List SeqDesc := [desc];
     let m : Block := (s.blk.fetchCmd s.env 3 (sfetch 1) (.serve 3 vserve [desc] [])).settleWaits; let x : Cmd := (tget m.quay.cmds 6).getD cmd;
     let sl := x.slice; let turn (sop : Nat) (ds : List SeqDesc) (ws : List Nat) : Prop := ServeTurn s q f (.serve sop v ds ws) c x m; turn 3 ds [] ∧
       m.serving sl = true ∧ 1 ≤ v.count ∧ v.count ≤ 512 ∧ ds.length = v.count ∧ x.bufs ≠ [] ∧ (∀ e ∈ ds, ∃ k, m.model e.model = some k ∧
       k.r.usableBy sl = true ∧ e.ok k.r.denoise = true ∧ (m.rd F.MF_PCTL_DET (m.slicePart sl) = 0 ∨ k.r.detSafe = true)) ∧
       m.seqsUsed sl + v.count ≤ m.rd F.MF_SQUOTA_QUOTA sl ∧ m.shareUsed (m.slicePart sl) + v.count ≤ m.rd F.MF_PCTL_ENTRIES (m.slicePart sl)) ∧
    (let s : State := sarm seq4; let q : Nat := 3; let c : Nat := 6; let i : Nat := 4; let f : Fetched := sfetch 0; let v : ServeBody := vserve;
     let d : SeqDesc := desc;
     let x : Cmd := ((tget (((sarm seq4).blk.fetchCmd (sarm seq4).env 3 (sfetch 0) (.serve 4 vserve [desc] [])).settleWaits).quay.cmds 6).getD cmd);
     let m : Block := (((sarm seq4).blk.fetchCmd (sarm seq4).env 3 (sfetch 0) (.serve 4 vserve [desc] [])).settleWaits); let y : SeqEntry := seq4;
     let md : Model := model2; let sl := x.slice; let seqs := m.manifest.seqs;
     let turn (sop : Nat) (ds : List SeqDesc) (ws : List Nat) : Prop := ServeTurn s q f (.serve sop v ds ws) c x m;
     let own : Prop := m.serving sl = true ∧ i = v.seq % 16384 ∧ tget seqs i = some y ∧ y.slice = sl ∧ y.deferRelease = false ∧ y.inList = false;
     let mask := v.arg0.toNat % 128; turn 4 [d] [] ∧ own ∧ m.model y.g.model = some md ∧ (y.update mask d).g.ok md.r.denoise = true ∧
       (m.rd F.MF_PCTL_DET (m.slicePart sl) = 0 ∨ md.r.detSafe = true)) ∧
    (let s : State := sarm seq4; let q : Nat := 3; let c : Nat := 6; let i : Nat := 4; let f : Fetched := sfetch 0; let v : ServeBody := vserve;
     let ws : List Nat := [7];
     let x : Cmd := ((tget (((sarm seq4).blk.fetchCmd (sarm seq4).env 3 (sfetch 0) (.serve 5 vserve [] [7])).settleWaits).quay.cmds 6).getD cmd);
     let m : Block := (((sarm seq4).blk.fetchCmd (sarm seq4).env 3 (sfetch 0) (.serve 5 vserve [] [7])).settleWaits); let y : SeqEntry := seq4;
     let sl := x.slice; let seqs := m.manifest.seqs;
     let turn (sop : Nat) (ds : List SeqDesc) (ws : List Nat) : Prop := ServeTurn s q f (.serve sop v ds ws) c x m;
     let own : Prop := m.serving sl = true ∧ i = v.seq % 16384 ∧ tget seqs i = some y ∧ y.slice = sl ∧ y.deferRelease = false ∧ y.inList = false;
     turn 5 [] ws ∧ own ∧ m.denoises y = false ∧ ws.length = v.count) ∧
    (let s : State := sarm seq4; let q : Nat := 3; let c : Nat := 6; let i : Nat := 4; let f : Fetched := sfetch 0; let v : ServeBody := vserve;
     let x : Cmd := ((tget (((sarm seq4).blk.fetchCmd (sarm seq4).env 3 (sfetch 0) (.serve 6 vserve [] [])).settleWaits).quay.cmds 6).getD cmd);
     let m : Block := (((sarm seq4).blk.fetchCmd (sarm seq4).env 3 (sfetch 0) (.serve 6 vserve [] [])).settleWaits); let y : SeqEntry := seq4;
     let sl := x.slice; let seqs := m.manifest.seqs;
     let turn (sop : Nat) (ds : List SeqDesc) (ws : List Nat) : Prop := ServeTurn s q f (.serve sop v ds ws) c x m;
     let own : Prop := m.serving sl = true ∧ i = v.seq % 16384 ∧ tget seqs i = some y ∧ y.slice = sl ∧ y.deferRelease = false ∧ y.inList = false;
     turn 6 [] [] ∧ own ∧ y.phase ≠ 4 ∧ y.phase ≠ 5) ∧
    (let s : State := sarm { seq4 with phase := 4, parkReason := 2, resumePhase := 2 }; let q : Nat := 3; let c : Nat := 6; let i : Nat := 4;
     let f : Fetched := sfetch 0; let v : ServeBody := vserve;
     let x : Cmd := ((tget (((sarm { seq4 with phase := 4, parkReason := 2, resumePhase := 2 }).blk.fetchCmd (sarm { seq4 with phase := 4, parkReason := 2, resumePhase := 2 }).env 3 (sfetch 0) (.serve 7 vserve [] [])).settleWaits).quay.cmds 6).getD cmd);
     let m : Block := (((sarm { seq4 with phase := 4, parkReason := 2, resumePhase := 2 }).blk.fetchCmd (sarm { seq4 with phase := 4, parkReason := 2, resumePhase := 2 }).env 3 (sfetch 0) (.serve 7 vserve [] [])).settleWaits);
     let y : SeqEntry := { seq4 with phase := 4, parkReason := 2, resumePhase := 2 }; let sl := x.slice; let seqs := m.manifest.seqs;
     let turn (sop : Nat) (ds : List SeqDesc) (ws : List Nat) : Prop := ServeTurn s q f (.serve sop v ds ws) c x m;
     let own : Prop := m.serving sl = true ∧ i = v.seq % 16384 ∧ tget seqs i = some y ∧ y.slice = sl ∧ y.deferRelease = false ∧ y.inList = false;
     turn 7 [] [] ∧ own ∧ y.phase = 4 ∧ y.parkReason ≠ 1) ∧
    (let s : State := sarm seq4; let q : Nat := 3; let c : Nat := 6; let i : Nat := 4; let f : Fetched := sfetch 0; let v : ServeBody := vserve;
     let x : Cmd := ((tget (((sarm seq4).blk.fetchCmd (sarm seq4).env 3 (sfetch 0) (.serve 7 vserve [] [])).settleWaits).quay.cmds 6).getD cmd);
     let m : Block := (((sarm seq4).blk.fetchCmd (sarm seq4).env 3 (sfetch 0) (.serve 7 vserve [] [])).settleWaits); let y : SeqEntry := seq4;
     let sl := x.slice; let seqs := m.manifest.seqs;
     let turn (sop : Nat) (ds : List SeqDesc) (ws : List Nat) : Prop := ServeTurn s q f (.serve sop v ds ws) c x m;
     let own : Prop := m.serving sl = true ∧ i = v.seq % 16384 ∧ tget seqs i = some y ∧ y.slice = sl ∧ y.deferRelease = false ∧ y.inList = false;
     turn 7 [] [] ∧ own ∧ y.phase ≠ 4) ∧
    (let s : State := sarm seq4; let q : Nat := 3; let c : Nat := 6; let i : Nat := 4; let f : Fetched := sfetch 0; let v : ServeBody := vserve;
     let x : Cmd := ((tget (((sarm seq4).blk.fetchCmd (sarm seq4).env 3 (sfetch 0) (.serve 8 vserve [] [])).settleWaits).quay.cmds 6).getD cmd);
     let m : Block := (((sarm seq4).blk.fetchCmd (sarm seq4).env 3 (sfetch 0) (.serve 8 vserve [] [])).settleWaits); let y : SeqEntry := seq4;
     let sl := x.slice; let seqs := m.manifest.seqs;
     let turn (sop : Nat) (ds : List SeqDesc) (ws : List Nat) : Prop := ServeTurn s q f (.serve sop v ds ws) c x m;
     let own : Prop := m.serving sl = true ∧ i = v.seq % 16384 ∧ tget seqs i = some y ∧ y.slice = sl ∧ y.deferRelease = false ∧ y.inList = false;
     turn 8 [] [] ∧ own) ∧
    (let s : State := sarm seq4; let q : Nat := 3; let c : Nat := 6; let f : Fetched := sfetch 0; let v : ServeBody := vserve;
     let ws : List Nat := [8];
     let x : Cmd := ((tget (((sarm seq4).blk.fetchCmd (sarm seq4).env 3 (sfetch 0) (.serve 9 vserve [] [8])).settleWaits).quay.cmds 6).getD cmd);
     let m : Block := (((sarm seq4).blk.fetchCmd (sarm seq4).env 3 (sfetch 0) (.serve 9 vserve [] [8])).settleWaits); let a : Armed := armed;
     let sl := x.slice; let seqs := m.manifest.seqs;
     let turn (sop : Nat) (ds : List SeqDesc) (ws : List Nat) : Prop := ServeTurn s q f (.serve sop v ds ws) c x m; turn 9 [] ws ∧
       tget m.manifest.armed sl = some a ∧ a.disarm = none ∧ ws.length = v.count ∧ a.free.length + v.count ≤ a.freeN ∧
       (∀ z ∈ seqs, z.2.slice = sl → z.2.phase = 4 → z.2.parkReason ≠ 1)) ∧
    (let s : State := ssl; let q : Nat := 3; let c : Nat := 6; let f : Fetched := sfetch 0; let v : ServeBody := vserve;
     let x : Cmd := ((tget (((ssl).blk.fetchCmd (ssl).env 3 (sfetch 0) (.serve 2 vserve [] [])).settleWaits).quay.cmds 6).getD cmd);
     let m : Block := (((ssl).blk.fetchCmd (ssl).env 3 (sfetch 0) (.serve 2 vserve [] [])).settleWaits); let sl := x.slice;
     let turn (sop : Nat) (ds : List SeqDesc) (ws : List Nat) : Prop := ServeTurn s q f (.serve sop v ds ws) c x m; m.serving sl = false ∧
       turn 2 [] []) ∧
    (let s : State := ssl; let q : Nat := 3; let c : Nat := 6; let f : Fetched := sfetch 0; let v : ServeBody := vserve;
     let ds : List SeqDesc := [desc];
     let x : Cmd := ((tget (((ssl).blk.fetchCmd (ssl).env 3 (sfetch 0) (.serve 3 vserve [desc] [])).settleWaits).quay.cmds 6).getD cmd);
     let m : Block := (((ssl).blk.fetchCmd (ssl).env 3 (sfetch 0) (.serve 3 vserve [desc] [])).settleWaits); let sl := x.slice;
     let turn (sop : Nat) (ds : List SeqDesc) (ws : List Nat) : Prop := ServeTurn s q f (.serve sop v ds ws) c x m; m.serving sl = false ∧
       turn 3 ds []) ∧
    (let s : State := ssl; let q : Nat := 3; let c : Nat := 6; let f : Fetched := sfetch 0; let v : ServeBody := vserve; let d : SeqDesc := desc;
     let x : Cmd := ((tget (((ssl).blk.fetchCmd (ssl).env 3 (sfetch 0) (.serve 4 vserve [desc] [])).settleWaits).quay.cmds 6).getD cmd);
     let m : Block := (((ssl).blk.fetchCmd (ssl).env 3 (sfetch 0) (.serve 4 vserve [desc] [])).settleWaits); let sl := x.slice;
     let turn (sop : Nat) (ds : List SeqDesc) (ws : List Nat) : Prop := ServeTurn s q f (.serve sop v ds ws) c x m; m.serving sl = false ∧
       turn 4 [d] []) ∧
    (let s : State := ssl; let q : Nat := 3; let c : Nat := 6; let f : Fetched := sfetch 0; let v : ServeBody := vserve; let ws : List Nat := [7];
     let x : Cmd := ((tget (((ssl).blk.fetchCmd (ssl).env 3 (sfetch 0) (.serve 5 vserve [] [7])).settleWaits).quay.cmds 6).getD cmd);
     let m : Block := (((ssl).blk.fetchCmd (ssl).env 3 (sfetch 0) (.serve 5 vserve [] [7])).settleWaits); let sl := x.slice;
     let turn (sop : Nat) (ds : List SeqDesc) (ws : List Nat) : Prop := ServeTurn s q f (.serve sop v ds ws) c x m; m.serving sl = false ∧
       turn 5 [] ws) ∧
    (let s : State := ssl; let q : Nat := 3; let c : Nat := 6; let f : Fetched := sfetch 0; let v : ServeBody := vserve;
     let x : Cmd := ((tget (((ssl).blk.fetchCmd (ssl).env 3 (sfetch 0) (.serve 6 vserve [] [])).settleWaits).quay.cmds 6).getD cmd);
     let m : Block := (((ssl).blk.fetchCmd (ssl).env 3 (sfetch 0) (.serve 6 vserve [] [])).settleWaits); let sl := x.slice;
     let turn (sop : Nat) (ds : List SeqDesc) (ws : List Nat) : Prop := ServeTurn s q f (.serve sop v ds ws) c x m; m.serving sl = false ∧
       turn 6 [] []) ∧
    (let s : State := ssl; let q : Nat := 3; let c : Nat := 6; let f : Fetched := sfetch 0; let v : ServeBody := vserve;
     let x : Cmd := ((tget (((ssl).blk.fetchCmd (ssl).env 3 (sfetch 0) (.serve 7 vserve [] [])).settleWaits).quay.cmds 6).getD cmd);
     let m : Block := (((ssl).blk.fetchCmd (ssl).env 3 (sfetch 0) (.serve 7 vserve [] [])).settleWaits); let sl := x.slice;
     let turn (sop : Nat) (ds : List SeqDesc) (ws : List Nat) : Prop := ServeTurn s q f (.serve sop v ds ws) c x m; m.serving sl = false ∧
       turn 7 [] []) ∧
    (let s : State := ssl; let q : Nat := 3; let c : Nat := 6; let f : Fetched := sfetch 0; let v : ServeBody := vserve;
     let x : Cmd := ((tget (((ssl).blk.fetchCmd (ssl).env 3 (sfetch 0) (.serve 8 vserve [] [])).settleWaits).quay.cmds 6).getD cmd);
     let m : Block := (((ssl).blk.fetchCmd (ssl).env 3 (sfetch 0) (.serve 8 vserve [] [])).settleWaits); let sl := x.slice;
     let turn (sop : Nat) (ds : List SeqDesc) (ws : List Nat) : Prop := ServeTurn s q f (.serve sop v ds ws) c x m; m.serving sl = false ∧
       turn 8 [] []) ∧
    (let s : State := ssl; let q : Nat := 3; let c : Nat := 6; let f : Fetched := sfetch 0; let v : ServeBody := vserve; let ws : List Nat := [8];
     let x : Cmd := ((tget (((ssl).blk.fetchCmd (ssl).env 3 (sfetch 0) (.serve 9 vserve [] [8])).settleWaits).quay.cmds 6).getD cmd);
     let m : Block := (((ssl).blk.fetchCmd (ssl).env 3 (sfetch 0) (.serve 9 vserve [] [8])).settleWaits); let sl := x.slice;
     let turn (sop : Nat) (ds : List SeqDesc) (ws : List Nat) : Prop := ServeTurn s q f (.serve sop v ds ws) c x m; m.serving sl = false ∧
       turn 9 [] ws) ∧
    (let s : State := sarm { seq4 with slice := 4 }; let q : Nat := 3; let c : Nat := 6; let f : Fetched := sfetch 0; let v : ServeBody := vserve;
     let d : SeqDesc := desc;
     let x : Cmd := ((tget (((sarm { seq4 with slice := 4 }).blk.fetchCmd (sarm { seq4 with slice := 4 }).env 3 (sfetch 0) (.serve 4 vserve [desc] [])).settleWaits).quay.cmds 6).getD cmd);
     let m : Block := (((sarm { seq4 with slice := 4 }).blk.fetchCmd (sarm { seq4 with slice := 4 }).env 3 (sfetch 0) (.serve 4 vserve [desc] [])).settleWaits);
     let y : SeqEntry := { seq4 with slice := 4 }; let sl := x.slice; let seqs := m.manifest.seqs;
     let turn (sop : Nat) (ds : List SeqDesc) (ws : List Nat) : Prop := ServeTurn s q f (.serve sop v ds ws) c x m; m.serving sl = true ∧
       tget seqs (v.seq % 16384) = some y ∧ y.slice ≠ sl ∧ turn 4 [d] []) ∧
    (let s : State := sarm { seq4 with slice := 4 }; let q : Nat := 3; let c : Nat := 6; let f : Fetched := sfetch 0; let v : ServeBody := vserve;
     let ws : List Nat := [7];
     let x : Cmd := ((tget (((sarm { seq4 with slice := 4 }).blk.fetchCmd (sarm { seq4 with slice := 4 }).env 3 (sfetch 0) (.serve 5 vserve [] [7])).settleWaits).quay.cmds 6).getD cmd);
     let m : Block := (((sarm { seq4 with slice := 4 }).blk.fetchCmd (sarm { seq4 with slice := 4 }).env 3 (sfetch 0) (.serve 5 vserve [] [7])).settleWaits);
     let y : SeqEntry := { seq4 with slice := 4 }; let sl := x.slice; let seqs := m.manifest.seqs;
     let turn (sop : Nat) (ds : List SeqDesc) (ws : List Nat) : Prop := ServeTurn s q f (.serve sop v ds ws) c x m; m.serving sl = true ∧
       tget seqs (v.seq % 16384) = some y ∧ y.slice ≠ sl ∧ turn 5 [] ws) ∧
    (let s : State := sarm { seq4 with slice := 4 }; let q : Nat := 3; let c : Nat := 6; let f : Fetched := sfetch 0; let v : ServeBody := vserve;
     let x : Cmd := ((tget (((sarm { seq4 with slice := 4 }).blk.fetchCmd (sarm { seq4 with slice := 4 }).env 3 (sfetch 0) (.serve 6 vserve [] [])).settleWaits).quay.cmds 6).getD cmd);
     let m : Block := (((sarm { seq4 with slice := 4 }).blk.fetchCmd (sarm { seq4 with slice := 4 }).env 3 (sfetch 0) (.serve 6 vserve [] [])).settleWaits);
     let y : SeqEntry := { seq4 with slice := 4 }; let sl := x.slice; let seqs := m.manifest.seqs;
     let turn (sop : Nat) (ds : List SeqDesc) (ws : List Nat) : Prop := ServeTurn s q f (.serve sop v ds ws) c x m; m.serving sl = true ∧
       tget seqs (v.seq % 16384) = some y ∧ y.slice ≠ sl ∧ turn 6 [] []) ∧
    (let s : State := sarm { seq4 with slice := 4 }; let q : Nat := 3; let c : Nat := 6; let f : Fetched := sfetch 0; let v : ServeBody := vserve;
     let x : Cmd := ((tget (((sarm { seq4 with slice := 4 }).blk.fetchCmd (sarm { seq4 with slice := 4 }).env 3 (sfetch 0) (.serve 7 vserve [] [])).settleWaits).quay.cmds 6).getD cmd);
     let m : Block := (((sarm { seq4 with slice := 4 }).blk.fetchCmd (sarm { seq4 with slice := 4 }).env 3 (sfetch 0) (.serve 7 vserve [] [])).settleWaits);
     let y : SeqEntry := { seq4 with slice := 4 }; let sl := x.slice; let seqs := m.manifest.seqs;
     let turn (sop : Nat) (ds : List SeqDesc) (ws : List Nat) : Prop := ServeTurn s q f (.serve sop v ds ws) c x m; m.serving sl = true ∧
       tget seqs (v.seq % 16384) = some y ∧ y.slice ≠ sl ∧ turn 7 [] []) ∧
    (let s : State := sarm { seq4 with slice := 4 }; let q : Nat := 3; let c : Nat := 6; let f : Fetched := sfetch 0; let v : ServeBody := vserve;
     let x : Cmd := ((tget (((sarm { seq4 with slice := 4 }).blk.fetchCmd (sarm { seq4 with slice := 4 }).env 3 (sfetch 0) (.serve 8 vserve [] [])).settleWaits).quay.cmds 6).getD cmd);
     let m : Block := (((sarm { seq4 with slice := 4 }).blk.fetchCmd (sarm { seq4 with slice := 4 }).env 3 (sfetch 0) (.serve 8 vserve [] [])).settleWaits);
     let y : SeqEntry := { seq4 with slice := 4 }; let sl := x.slice; let seqs := m.manifest.seqs;
     let turn (sop : Nat) (ds : List SeqDesc) (ws : List Nat) : Prop := ServeTurn s q f (.serve sop v ds ws) c x m; m.serving sl = true ∧
       tget seqs (v.seq % 16384) = some y ∧ y.slice ≠ sl ∧ turn 8 [] []) := by
  iterate 23 refine And.intro (by decide +kernel) ?_
  decide +kernel

theorem test_hyp_ListsAndModelsAreKept :
    (let s : State := sarm seq4; let p : Nat := 2; let i : Nat := 4; let y : SeqEntry := seq4; let md : Model := model2; let b := s.blk;
     let e := s.env; let m := b.flushOwed.settleServe e; p < 16 ∧ m.rd F.MF_PCTL_EN p ≠ 0 ∧
       (m.manifest.lists.filter fun k => k.2.partition = p).length < 16 ∧ (m.manifest.seqs.filter fun k => m.seqReady p k.2) = [(i, y)] ∧
       Placed m.manifest.seqs i y ∧ y.fbLane = false ∧ y.g.be = true ∧ y.phase = 2 ∧ y.g.deadline = 0 ∧ m.model y.g.model = some md ∧
       md.r.denoise = false ∧ md.r.streams ≤ (m.idleBerths p).length ∧ 1 ≤ md.r.maxSeq ∧ m.ringRoom ⟨[], 0, []⟩ y.slice = true ∧
       md.pagesFor y.position ≤ y.pages.length ∧ y.kvPos ≤ y.position ∧ m.pilot.lost = []) ∧
    (let s : State := chg (sarm seq4) fun b => b.wr F.MF_PCTL_EN 2 0; let p : Nat := 2; let b := s.blk; let e := s.env;
     let m := b.flushOwed.settleServe e; p < 16 ∧ m.rd F.MF_PCTL_EN p = 0) ∧
    (let s : State := slist 0; let p : Nat := 2; let id : Nat := 1; let i : Nat := 4; let t : Nat := (sampleToken desc 5 [(17, 0x40000000)]).getD 0;
     let outs : List StepOut := [⟨4, [(17, 0x40000000)]⟩]; let y : SeqEntry := { seq4 with inList := true }; let md : Model := model2;
     let l : LoadList := list1; let x : Cmd := lcmd 0; let en : ListEntry := (⟨4, 1, true, false, 0, false⟩ : ListEntry); let b := s.blk;
     let cands := ((outs.find? fun o => o.seq = i).map (·.cands)).getD []; p < 16 ∧ tget b.manifest.lists id = some l ∧ l.partition = p ∧
       tget b.quay.cmds l.job = some x ∧ x.ph = .ended ∧ l.fallback = false ∧ l.entries = [en] ∧ en.seq = i ∧ en.live = true ∧ en.fallback = false ∧
       b.model l.model = some md ∧ md.r.denoise = false ∧ tget b.manifest.seqs i = some y ∧ y.phase = 2 ∧ y.deferRelease = false ∧
       y.deferPark = false ∧ y.deferUpdate = none ∧ (b.quay.cmds.filter fun k => servesNow k.2) = [] ∧ x.status = 0 ∧
       sampleToken y.g y.position cands = some t ∧ (y.g.stop.take y.g.stopN).contains t = false ∧ y.position + 1 < y.g.limit) ∧
    (let s : State := slist 0x50; let p : Nat := 2; let id : Nat := 1; let i : Nat := 4; let y : SeqEntry := { seq4 with inList := true };
     let md : Model := model2; let l : LoadList := list1; let x : Cmd := lcmd 0x50; let en : ListEntry := (⟨4, 1, true, false, 0, false⟩ : ListEntry);
     let b := s.blk; p < 16 ∧ tget b.manifest.lists id = some l ∧ l.partition = p ∧ tget b.quay.cmds l.job = some x ∧ x.ph = .ended ∧
       l.fallback = false ∧ l.entries = [en] ∧ en.seq = i ∧ en.live = true ∧ en.fallback = false ∧ b.model l.model = some md ∧ md.r.denoise = false ∧
       tget b.manifest.seqs i = some y ∧ y.phase = 2 ∧ y.deferRelease = false ∧ y.deferPark = false ∧ y.deferUpdate = none ∧
       (b.quay.cmds.filter fun k => servesNow k.2) = [] ∧ x.status ≠ 0 ∧ tearsDown x.status = false ∧ x.faultBuf = none ∧
       (x.status ≠ 0x70 ∨ x.ran = true)) ∧
    (let s : State := chg ssl fun b => { b with pilot := { b.pilot with cache := [] } }; let h : Nat := 0; let g : Mgr := mg;
     let r : ModelRec := mrec; let pre : ModelProg := mprog; let st : ModelProg := mprog; let b := s.blk; MgrReady s g 0x0701 ∧ r.ok = true ∧
       progOk pre = true ∧ progOk st = true ∧ r.fallback = none ∧
       firstFrom (fun k => !thas b.manifest.models k && !(b.harbour.running.filterMap fun z => if z.opcode = 0x0701 then some z.todo else none).contains k) 1024 0 = some h ∧
       b.modelAllowed r = true ∧ 0 < pre.img.ilen ∧ b.pilot.cache = []) ∧
    (let s : State := sarm seq4; let g : Mgr := mg; let r : ModelRec := { mrec with maxSeq := 0 }; MgrReady s g 0x0701 ∧ r.ok = false) ∧
    (let s : State := ssl; let h : Nat := 2; let md : Model := model2; let g : Mgr := mg; let b := s.blk; MgrReady s g 0x0702 ∧ b.model h = some md ∧
       b.manifest.seqs.any (fun k => k.2.g.model = h || k.2.fbModel == some h) = false ∧
       b.manifest.models.any (fun k => k.2.r.fallback == some h) = false) ∧
    (let s : State := sarm seq4; let h : Nat := 2; let md : Model := model2; let g : Mgr := mg; let b := s.blk; MgrReady s g 0x0702 ∧
       b.model h = some md ∧ b.manifest.seqs.any (fun k => k.2.g.model = h) = true) ∧
    (let s : State := chg ssl fun b => { b with manifest := { b.manifest with models := [(2, model2), (3, model2)] } }; let h : Nat := 2;
     let f : Nat := 3; let md : Model := model2; let g : Mgr := mg; let b := s.blk; MgrReady s g 0x0703 ∧ b.model h = some md ∧ f ≠ h ∧
       b.fallbackFits md.r f = true ∧ b.manifest.models.any (fun k => k.2.r.fallback == some h) = false) ∧
    (let s : State := sarm seq4; let p : Nat := 2; let ents : Nat := 50; let fl : Nat := 128; let g : Mgr := mg; let det : Bool := false;
     let b := s.blk; let others := ((List.range 16).filter (· ≠ p)).foldl (fun n k => n + b.rd F.MF_PCTL_ENTRIES k) 0; MgrReady s g 0x0704 ∧
       b.partExists p = true ∧ ents ≤ 16384 - others ∧ fl ≤ 255 ∧ b.rd F.MF_PCTL_DET p = (if det then 1 else 0) ∧
       b.manifest.detWait.any (fun y => y.partition = p) = false) := by
  iterate 9 refine And.intro (by decide +kernel) ?_
  decide +kernel

theorem test_hyp_PartitionsAreCutAndShared :
    (let s : State := up; let m : Mgr := mg; let b := s.blk; PartReady s m 0x0101 (List.range 16) ∧ b.quay.slices = []) ∧
    (let s : State := sl; let m : Mgr := mg; let b := s.blk; PartReady s m 0x0101 (List.range 16) ∧ b.quay.slices ≠ []) ∧
    (let s : State := chg sl fun b => { b with berths := [(1, { Berth.reset with opened := true })] }; let m : Mgr := mg; let p : Nat := 4;
     let berths : Nat := 2; let b := s.blk; PartReady s m 0x0102 [p] ∧ b.rd F.BW_MODE_MODE = 0 ∧ p < 16 ∧ b.partExists p = false ∧ 0 < berths ∧
       berths < 2 ^ 16 ∧ (∀ k ∈ bitsOf 16 berths, b.canJoin k = true)) ∧
    (let s : State := sl; let m : Mgr := mg; let p : Nat := 2; let b := s.blk; PartReady s m 0x0102 [p] ∧ b.rd F.BW_MODE_MODE = 0 ∧
       b.partExists p = true) ∧
    (let s : State := chg sl fun b => ((((b.wr F.BW_PART_VALID 4 1).wr F.BW_PART_BERTHS 4 2).wr F.BT_STATE_OWNED 1 1).wr F.BT_STATE_PARTITION 1 4).wr F.BT_STATE_STATE 1 1;
     let m : Mgr := mg; let p : Nat := 4; let b := s.blk; PartReady s m 0x0103 [p] ∧ b.rd F.BW_MODE_MODE = 0 ∧ b.partExists p = true ∧
       b.partHasSlices p = false) ∧
    (let s : State := sl; let m : Mgr := mg; let p : Nat := 2; let b := s.blk; PartReady s m 0x0103 [p] ∧ b.rd F.BW_MODE_MODE = 0 ∧
       b.partExists p = true ∧ b.partHasSlices p = true) ∧
    (let s : State := chg (chg sl fun b => { b with berths := [(1, { Berth.reset with opened := true })] }) fun b => b.wr F.BT_STATE_STATE 1 1;
     let m : Mgr := mg; let p : Nat := 2; let n : Nat := 1; let b := s.blk;
     let count := ((List.range 16).filter fun k => b.rd F.BT_STATE_OWNED k = 1 && b.rd F.BT_STATE_PARTITION k = p && decide (k ≠ n)).length;
     PartReady s m 0x0104 [p] ∧ b.rd F.BW_MODE_MODE = 0 ∧ b.partExists p = true ∧ n < 16 ∧ b.canJoin n = true ∧ b.bstate n = 1 ∧
       b.lcStreams p ≤ count + 1 ∧ b.rd F.BW_SCHED_LC_LOAD p ≤ b.lcCapacity p (count + 1)) ∧
    (let s : State := chg job fun b => ((b.wr F.BT_STATE_OWNED 1 1).wr F.BT_STATE_PARTITION 1 2).wr F.BW_PART_BERTHS 2 3; let m : Mgr := mg;
     let p : Nat := 2; let n : Nat := 0; let b := s.blk;
     let count := ((List.range 16).filter fun k => b.rd F.BT_STATE_OWNED k = 1 && b.rd F.BT_STATE_PARTITION k = p && decide (k ≠ n)).length;
     PartReady s m 0x0104 [p] ∧ b.rd F.BW_MODE_MODE = 0 ∧ b.partExists p = true ∧ n < 16 ∧ b.rd F.BT_STATE_OWNED n = 1 ∧
       b.rd F.BT_STATE_PARTITION n = p ∧ b.bstate n = 2 ∧ 1 ≤ count ∧ b.lcStreams p ≤ count ∧ b.rd F.BW_SCHED_LC_LOAD p ≤ b.lcCapacity p count) ∧
    (let s : State := sl; let m : Mgr := mg; let p : Nat := 2; let n : Nat := 1; let b := s.blk; PartReady s m 0x0104 [p] ∧ b.rd F.BW_MODE_MODE = 0 ∧
       b.partExists p = true ∧ n < 16 ∧ b.canJoin n = false) ∧
    (let run : Running := ⟨mg, 0x0104, [2], 0, false, 1⟩;
     let s : State := chg sl fun b => { b.wr F.BT_STATE_STATE 0 5 with harbour := { b.harbour with running := [run] } }; let m : Mgr := mg;
     let n : Nat := 0; let p : Nat := 2; let b := s.blk; n < 16 ∧ p < 16 ∧ b.bstate n = 5 ∧ b.rd F.BT_STATE_OWNED n = 0 ∧
       b.harbour.failed.contains (.berth n) = false ∧ b.harbour.running = [run] ∧ run.m = m ∧ run.opcode = 0x0104 ∧ run.touches = [p] ∧
       run.todo = 2 ^ n ∧ run.late = false ∧ (tget b.harbour.sessions m.session).isSome = true) ∧
    (let s : State := sl; let m : Mgr := mg; let p : Nat := 2; let x : Nat := 0; let rate : Nat := 10; let other : Nat := 5; let burst : Nat := 8;
     let b := s.blk; PartReady s m 0x0105 [p] ∧ b.partExists p = true ∧ x < 28 ∧ 1 ≤ rate ∧ rate < 4096 ∧ other < 4096 ∧ 1 ≤ burst ∧ burst ≤ 64 ∧
       rate + other ≤ b.portRoom p x) ∧
    (let s : State := sl; let m : Mgr := mg; let p : Nat := 2; let x : Nat := 0; let rate : Nat := 4000; let other : Nat := 4000;
     let burst : Nat := 8; let b := s.blk; PartReady s m 0x0105 [p] ∧ b.partExists p = true ∧ x < 28 ∧ 1 ≤ rate ∧ rate < 4096 ∧ other < 4096 ∧
       1 ≤ burst ∧ burst ≤ 64 ∧ b.portRoom p x < rate + other) ∧
    (let s : State := sl; let m : Mgr := mg; let p : Nat := 2; let quantum : Nat := 2000; let opp : Nat := 3; let share : Nat := 128; let b := s.blk;
     PartReady s m 0x010D [p] ∧ b.partExists p = true ∧ opp < 16 ∧ share < 256 ∧
       b.rd F.BW_SCHED_LC_LOAD p ≤ (b.partBerths p).length * 1000000 * share / 256 ∧ 100 ≤ quantum ∧ quantum ≤ 65000) ∧
    (let s : State := chg sl fun b => b.wr F.BW_SCHED_LC_LOAD 2 500000; let m : Mgr := mg; let p : Nat := 2; let opp : Nat := 3;
     let share : Nat := 128; let b := s.blk; PartReady s m 0x010D [p] ∧ b.partExists p = true ∧ opp < 16 ∧ share < 256 ∧
       (b.partBerths p).length * 1000000 * share / 256 < b.rd F.BW_SCHED_LC_LOAD p) := by
  iterate 13 refine And.intro (by decide +kernel) ?_
  decide +kernel

theorem test_hyp_SlicesAreBoundMovedAndRemoved :
    (let s : State := sl; let m : Mgr := mg; let r : SliceRec := srec; let b := s.blk; PartReady s m 0x0106 [r.partition, 16 + r.slice] ∧
       b.noNewSlice s.env = false ∧ adminRingsOk r = true ∧ b.refuseBind s.env r.slice r = none ∧ b.pilot.cache = []) ∧
    (let s : State := chg sl fun b => { b with harbour := { b.harbour with debug := true } }; let m : Mgr := mg; let r : SliceRec := srec;
     let b := s.blk; PartReady s m 0x0106 [r.partition, 16 + r.slice] ∧ b.noNewSlice s.env = true) ∧
    (let s : State := sl; let m : Mgr := mg; let sl : Nat := 3; let r : SliceRec := srec; let x : Slice := slice; let b := s.blk;
     let none_ : ResizeMask := ⟨true, false, false, false, false, false⟩; sl < 512 ∧ tget b.quay.slices sl = some x ∧
       PartReady s m 0x0107 [16 + sl] ∧ b.sliceState sl = 1 ∧ recordOk (b.masked sl x none_ r) = true ∧ b.rd F.QY_SQUOTA_QUEUES sl ≠ 0 ∧
       b.rd F.MF_SQUOTA_QUOTA sl ≤ b.entriesRoom (b.slicePart sl) ∧ x.msixCount = 0 ∧ x.granCount = 0 ∧ b.rd F.PL_SQUOTA_QUOTA sl ≤ b.stampRoomFor sl) ∧
    (let s : State := sl; let m : Mgr := mg; let sl : Nat := 3; let tmo : Nat := 10; let x : Slice := slice; let b := s.blk; sl < 512 ∧
       tget b.quay.slices sl = some x ∧ PartReady s m 0x0108 [16 + sl] ∧ b.sliceState sl = 1 ∧ 1 ≤ tmo ∧ tmo ≤ 10000) ∧
    (let s : State := chg sl fun b => { (b.wr F.BW_SLICE_STATE 3 2) with quay := { b.quay with slices := [(3, { slice with quiesce := some (mg, 0) })] }, harbour := { b.harbour with running := [⟨mg, 0x0108, [19], 0, false, 0⟩] } };
     let mr : Mgr := mg; let sl : Nat := 3; let t : Nat := 0; let x : Slice := { slice with quiesce := some (mg, 0) };
     let run : Running := (⟨mg, 0x0108, [19], 0, false, 0⟩ : Running); let b := s.blk; sl < 512 ∧ tget b.quay.slices sl = some x ∧
       b.sliceState sl = 2 ∧ b.sliceRuns sl = false ∧ b.rd F.CU_KEY_INFLIGHT sl = 0 ∧ x.quiesce = some (mr, t) ∧
       (tget b.harbour.sessions mr.session).isSome = true ∧ b.harbour.running = [run] ∧ run.m = mr ∧ run.opcode = 0x0108 ∧ run.late = false) ∧
    (let s : State := chg (sl) fun b => b.wr F.BW_SLICE_STATE 3 3; let m : Mgr := mg; let sl : Nat := 3; let x : Slice := slice; let b := s.blk;
     sl < 512 ∧ tget b.quay.slices sl = some x ∧ PartReady s m 0x0109 [16 + sl] ∧ b.sliceState sl = 3) ∧
    (let s : State := sl; let m : Mgr := mg; let sl : Nat := 3; let x : Slice := slice; let b := s.blk; sl < 512 ∧ tget b.quay.slices sl = some x ∧
       PartReady s m 0x0109 [16 + sl] ∧ b.sliceState sl = 1) ∧
    (let s : State := chg (sl) fun b => b.wr F.BW_SLICE_STATE 3 3; let m : Mgr := mg; let sl : Nat := 3; let x : Slice := slice; let b := s.blk;
     sl < 512 ∧ tget b.quay.slices sl = some x ∧ PartReady s m 0x010A [16 + sl] ∧ b.sliceState sl = 3) ∧
    (let s : State := sl; let m : Mgr := mg; let sl : Nat := 3; let x : Slice := slice; let b := s.blk; sl < 512 ∧ tget b.quay.slices sl = some x ∧
       PartReady s m 0x010A [16 + sl] ∧ b.sliceState sl = 1) ∧
    (let s : State := chg sl fun b => b.wr F.BW_SLICE_STATE 3 2; let m : Mgr := mg; let sl : Nat := 3; let x : Slice := slice; let b := s.blk;
     sl < 512 ∧ tget b.quay.slices sl = some x ∧ MgrReady s m 0x010A ∧ b.sliceState sl = 2) ∧
    (let s : State := chg sl fun b => { (b.wr F.BW_SLICE_STATE 3 4) with ports := { b.ports with closing := [(3, 5)], keys := [(3, 1)] } };
     let sl : Nat := 3; let t : Nat := 5; let x : Slice := slice; let b := s.blk; sl < 512 ∧ tget b.quay.slices sl = some x ∧
       tget b.ports.closing sl = some t ∧ (∀ w ∈ b.ports.wipes, w.slot.isSome = true → w.slice ≠ sl) ∧
       (b.rd F.CU_KEY_INFLIGHT sl = 0 ∨ t + 100000 ≤ s.aon.ns)) ∧
    (let s : State := sl; let m : Mgr := mg; let sl : Nat := 3; let x : Slice := slice; let b := s.blk; sl < 512 ∧ tget b.quay.slices sl = some x ∧
       PartReady s m 0x010B [16 + sl] ∧ b.sliceState sl = 1) ∧
    (let s : State := chg sl fun b => { b with harbour := { b.harbour with migKeys := [(1, key)] } }; let m : Mgr := mg; let sl : Nat := 9;
     let p : Nat := 2; let key : Nat := 1; let img : SliceImage := { simg with ctxs := [9] }; let cx : Nat := 9; let b := s.blk;
     PartReady s m 0x010C [p, 16 + sl] ∧ b.noNewSlice s.env = false ∧ thas b.harbour.migKeys key = true ∧
       b.refuseBind s.env sl { img.r with slice := sl, partition := p } = none ∧ img.ctxs = [cx] ∧ cx ≠ 0 ∧ thas b.quay.ctxs cx = false ∧
       img.fences = [] ∧ img.seqs = [] ∧ (img.jobs.flatMap (·.slots)).length ≤ (b.freeSlots s.env).length ∧ img.queues = [] ∧ img.jobs = [] ∧
       b.pilot.streams = []) ∧
    (let s : State := chg sl fun b => { b with harbour := { b.harbour with migKeys := [(1, key)] } }; let m : Mgr := mg; let sl : Nat := 9;
     let p : Nat := 2; let key : Nat := 1;
     let img : SliceImage := { simg with ctxs := [9], queues := [⟨⟨1, 0, false, false, 0, none, 0x100000, 0x200000, 4, 4, 8, 0, 0, 0⟩, none, 0, 0, 0, 0⟩] };
     let cx : Nat := 9; let b := s.blk; PartReady s m 0x010C [p, 16 + sl] ∧ b.noNewSlice s.env = false ∧ thas b.harbour.migKeys key = true ∧
       b.refuseBind s.env sl { img.r with slice := sl, partition := p } = none ∧ img.ctxs = [cx] ∧ cx ≠ 0 ∧ thas b.quay.ctxs cx = false ∧
       img.fences = [] ∧ img.seqs = [] ∧ (img.jobs.flatMap (·.slots)).length ≤ (b.freeSlots s.env).length ∧ img.queues ≠ [] ∧ b.pilot.cache = []) := by
  iterate 13 refine And.intro (by decide +kernel) ?_
  decide +kernel

theorem test_hyp_SlicesAreBoundMovedAndRemoved_11 :
    (let s : State := chg sl fun b => { (b.wr F.BW_SLICE_STATE 3 3) with quay := { b.quay with slices := [(3, { slice with savedMode := true })] }, harbour := { b.harbour with migKeys := [(1, key)] } };
     let m : Mgr := mg; let sl : Nat := 3; let key : Nat := 1; let x : Slice := { slice with savedMode := true }; let mk : List Byte := [7];
     let len : Nat := (Config.sealedImage (recordBytes (s.blk.exportImage 3 { slice with savedMode := true }).r) (s.blk.exportImage 3 { slice with savedMode := true }) [7]).length;
     let b := s.blk; let image := Config.sealedImage (recordBytes (b.exportImage sl x).r) (b.exportImage sl x) mk; sl < 512 ∧
       tget b.quay.slices sl = some x ∧ PartReady s m 0x010B [16 + sl] ∧ b.sliceState sl = 3 ∧ x.savedMode = true ∧
       tget b.harbour.migKeys key = some mk ∧ image.length ≤ len) := by
  and_intros
  all_goals first | decide +kernel | exact Nat.le_refl _

theorem test_hyp_HoldObjectsAreKept :
    (let s : State := chg hsl fun b => b.wr F.HD_PSHARE_UNITS 2 100; let m : Mgr := mg; let sl : Nat := 3; let mask : Nat := 1; let slots : Nat := 8;
     let b := s.blk; let chans := (bitsOf 8 mask).flatMap fun k => [2 * k, 2 * k + 1].filter fun ch => !(b.chan ch).out;
     let per := cdiv (cdiv slots (max 1 chans.length)) 4096; let p := b.slicePart sl; MgrReady s m 0x0301 ∧ 0 < mask ∧ mask < 256 ∧ 0 < slots ∧
       slots < 2 ^ 32 ∧ b.sliceExists sl = true ∧ b.level = 2 ∧ (∀ k ∈ bitsOf 8 mask, s.ties.holdMask.testBit k = true ∧ b.hstate k = 2) ∧
       (∀ ch ∈ chans, per + (b.chan ch).spares ≤ (b.chan ch).free.length) ∧ b.unitsCharged p + per * chans.length ≤ b.rd F.HD_PSHARE_UNITS p ∧
       b.hold.objs.length < 65535) ∧
    (let s : State := hsl; let m : Mgr := mg; let slots : Nat := 0; MgrReady s m 0x0301 ∧ slots = 0) ∧
    (let s : State := chg hsl fun b => { b with hold := { b.hold with objs := [(1, { hobj with slots := 1 })] } }; let m : Mgr := mg;
     let hd : Nat := 327681; let o : HoldObj := { hobj with slots := 1 }; let b := s.blk; b.holdObj hd = some o ∧ MgrReady s m 0x0302 ∧
       o.sealed = false ∧ b.sealing = [] ∧ b.writing hd = false ∧ b.objOwed hd = false ∧ o.moved = [] ∧ o.slots = 1) ∧
    (let s : State := hsl; let m : Mgr := mg; let hd : Nat := 327681; let o : HoldObj := hobj; let b := s.blk; b.holdObj hd = some o ∧
       MgrReady s m 0x0302 ∧ o.sealed = false ∧ b.sealing = [] ∧ b.writing hd = false ∧ b.objOwed hd = false ∧ o.moved = [] ∧ 2 ≤ o.slots) ∧
    (let s : State := chg (hsl) fun b => { b with hold := { b.hold with objs := [(1, { hobj with sealed := true })] } }; let m : Mgr := mg;
     let hd : Nat := 327681; let o : HoldObj := { hobj with sealed := true }; let b := s.blk; b.holdObj hd = some o ∧ MgrReady s m 0x0302 ∧
       o.sealed = true) ∧
    (let s : State := hsl; let m : Mgr := mg; let hd : Nat := 327681; let o : HoldObj := hobj; let b := s.blk; b.holdObj hd = some o ∧
       MgrReady s m 0x0303 ∧ b.objNamed hd o = false) ∧
    (let s : State := chg (hsl) fun b => { b with hold := { b.hold with objs := [(1, { hobj with sealed := true, grants := [(3, true, false)] })] } };
     let m : Mgr := mg; let hd : Nat := 327681; let o : HoldObj := { hobj with sealed := true, grants := [(3, true, false)] }; let b := s.blk;
     b.holdObj hd = some o ∧ MgrReady s m 0x0303 ∧ b.objNamed hd o = true) ∧
    (let s : State := chg (chg (hsl) fun b => { b with hold := { b.hold with objs := [(1, { hobj with sealed := true })] } }) fun b => b.wr F.HD_PSHARE_GRANTS 2 8;
     let m : Mgr := mg; let hd : Nat := 327681; let sl : Nat := 3; let o : HoldObj := { hobj with sealed := true }; let rd : Bool := true;
     let wr : Bool := false; let b := s.blk; let p := b.slicePart sl; let others := o.grants.filter fun g => g.1 ≠ sl;
     let held := b.hold.objs.foldl (fun n x => n + (x.2.grants.filter fun g => b.slicePart g.1 = p && b.sliceExists g.1).length) 0;
     b.holdObj hd = some o ∧ MgrReady s m 0x0304 ∧ b.sliceExists sl = true ∧ (rd = true → o.sealed = true) ∧ (wr = true → o.sealed = false ∧
       ∀ r ∈ b.sealing, r.todo ≠ hd) ∧ others.length < 8 ∧ held < b.rd F.HD_PSHARE_GRANTS p) ∧
    (let s : State := hsl; let m : Mgr := mg; let hd : Nat := 327681; let sl : Nat := 3; let o : HoldObj := hobj; let rd : Bool := true;
     let b := s.blk; b.holdObj hd = some o ∧ MgrReady s m 0x0304 ∧ b.sliceExists sl = true ∧ rd = true ∧ o.sealed = false) ∧
    (let s : State := chg (hsl) fun b => { b with hold := { b.hold with objs := [(1, { hobj with grants := [(3, false, true)] })] } };
     let m : Mgr := mg; let hd : Nat := 327681; let sl : Nat := 3; let o : HoldObj := { hobj with grants := [(3, false, true)] }; let b := s.blk;
     b.holdObj hd = some o ∧ MgrReady s m 0x0305 ∧ b.sliceExists sl = true) ∧
    (let s : State := hsl; let m : Mgr := mg; let hd : Nat := 327681; let o : HoldObj := hobj; let b := s.blk; b.holdObj hd = some o ∧
       MgrReady s m 0x0306) ∧
    (let s : State := hsl; let m : Mgr := mg; let h : Nat := 0; MgrReady s m 0x0307 ∧ h < 8) ∧
    (let s : State := chg hsl fun b => { b with hold := { b.hold with dumps := [(2, dmp)] } }; let m : Mgr := mg; let rec_ : Nat := 2;
     let d : Dump := dmp; let b := s.blk; MgrReady s m 0x0308 ∧ rec_ < 8 ∧ tget b.hold.dumps rec_ = some d) ∧
    (let s : State := hsl; let m : Mgr := mg; let v : Nat := 32;
     let c : HoldCfg := (⟨none, none, none, none, 0, none, none, 2, none, none⟩ : HoldCfg); MgrReady s m 0x0309 ∧ c.stack < 8 ∧ c.partition < 16 ∧
       4 ≤ v ∧ v ≤ 64) ∧
    (let s : State := hsl; let m : Mgr := mg; let v : Nat := 99;
     let c : HoldCfg := (⟨none, none, none, none, 0, none, none, 2, none, none⟩ : HoldCfg); MgrReady s m 0x0309 ∧ c.stack < 8 ∧ c.partition < 16 ∧
       64 < v) := by
  iterate 14 refine And.intro (by decide +kernel) ?_
  decide +kernel

theorem test_hyp_HoldChannelsWork :
    (let s : State := chg (chg (hjob) fun b => { b with hold := { b.hold with chans := [(0, { hchan with waiting := [hsense] })] } }) fun b => ((b.wr F.BW_RATE_RATE 72 10).wr F.BW_RATE_BURST 72 10);
     let ch : Nat := 0; let i : Nat := 0; let q : Sense := hsense; let f : Front := (⟨2, 0, .sense 0, 4096⟩ : Front); let b := s.blk;
     let c := b.chan ch; ch < 16 ∧ c.out = false ∧ b.fronts s.env (8 + ch) = [f] ∧ f.src = .sense i ∧ f.p < 16 ∧ f.lane < 16 ∧
       f.bytes ≤ (b.bucket s.env f.p (8 + ch)).rate ∧ thas b.hold.chans ch = true ∧ c.waiting[i]? = some q) ∧
    (let s : State := chg hjob fun b => { b with hold := { b.hold with chans := [(0, { hchan with reloc := [7], relocAt := 4 })], stks := [(0, { Stack.reset with relocQueue := [0x5003] })] } };
     let h : Nat := 0; let src : Nat := 0x5003; let dst : Nat := 0x7004; let b := s.blk; let cr := 2 * h + src / 2 ^ 27; h < 8 ∧ src < 2 ^ 28 ∧
       dst < 2 ^ 28 ∧ b.hold.powerWarn = false ∧ (b.chan cr).out = false ∧ (b.stack h).relocQueue.contains src = true ∧ b.remapFull h src = false ∧
       b.nextReloc cr = some dst ∧ tgetD (b.chan cr).relocs (unitOf src % 32768) 0 < 2) ∧
    (let s : State := chg hjob fun b => (List.range 4).foldl (fun b i => (b.wr F.HD_REMAP_VALID i 1).wr F.HD_REMAP_FROM i (0x5000 + i)) b;
     let h : Nat := 0; let u : Nat := 5; let kk : Nat := 4; let new : Nat := (oN (s.blk.freshUnit 0)); let b1 : Block := (oB (s.blk.freshUnit 0));
     let b := s.blk; let cf := 2 * h + u / 32768; h < 8 ∧ b.hold.powerWarn = false ∧ b.fullestUnit h = some (u, kk) ∧ 4 ≤ kk ∧
       (b.remapsOf h).length < 32 ∧ (b.chan cf).out = false ∧ b.moving cf (u % 32768) = false ∧ b.relocating cf (u % 32768) = false ∧
       b.heldIn cf (u % 32768) = false ∧ b.freshUnit cf = some (new, b1)) ∧
    (let s : State := chg hjob fun b => { b with hold := { b.hold with stks := [(0, { Stack.reset with merge := (List.range 16).map fun i => ⟨327681, i, 0, [], []⟩ })] } };
     let h : Nat := 0; let b := s.blk; h < 8 ∧ b.mayStore = true ∧ (b.stack h).flushing = none ∧ 16 ≤ (b.stack h).merge.length) ∧
    (let s : State := hjob; let h : Nat := 0; let b := s.blk; h < 8 ∧ b.mayStore = true ∧ (b.stack h).flushing = none ∧ (b.stack h).merge = [] ∧
       (b.stack h).commits = []) ∧
    (let s : State := { hjob with aon := ⟨2 ^ 62, 1⟩ }; let h : Nat := 0; let b := s.blk; h < 8 ∧ b.hstate h = 2 ∧ (b.stack h).lapAlarmed = false ∧
       (b.stack h).lapSince + b.rd F.HD_CTL_LAP_MAX_D * 86400000000000 < s.aon.ns) ∧
    (let s : State := chg (chg (hup hjob) fun b => { b with hold := { b.hold with chans := [(0, { hchan with erases := [(5, 1), (7, 50), (8, 20)], free := [7, 8] })] } }) fun b => b.wr F.HD_CTL_WEAR_GAP 0 5;
     let ch : Nat := 0; let new : Nat := 7; let old : Nat := 5; let b := s.blk; let c := b.chan ch; ch < 16 ∧
       leastBy c.erased (b.unitsOn ch) = some old ∧ leastBy (fun j => 2 ^ 32 - c.erased j) c.blank = some new ∧ b.dredges s.env ch = true ∧
       b.hold.powerWarn = false ∧ b.moving ch old = false ∧ b.relocating ch old = false ∧ b.heldIn ch old = false ∧
       (∃ y ∈ b.unitsOn ch ++ c.free, ∃ z ∈ b.unitsOn ch ++ c.free, c.erased y + b.rd F.HD_CTL_WEAR_GAP < c.erased z)) ∧
    (let s : State := chg (hjob) fun b => { b with hold := { b.hold with chans := [(0, { hchan with ops := [.erase 5] })] } }; let ch : Nat := 0;
     let b := s.blk; let c := b.chan ch; ch < 16 ∧ c.out = false ∧ c.overdue s.aon.ns = true) := by
  iterate 7 refine And.intro (by decide +kernel) ?_
  decide +kernel

theorem test_hyp_HoldChannelsWork_1 :
    (let s : State := chg hjob fun b => { b with hold := { b.hold with chans := [(0, { hchan with sensing := [{ hsense with handle := 0, slot := 0 }] })], objs := [(0, { hobj with root := leafOf (slotWord (List.replicate 4160 0)).data })], gens := [] }, berths := [(0, { (b.berth 0) with me0 := [{ hxfer with mv := .hold 0 0 none }] })] };
     let ch : Nat := 0; let n : Nat := 0; let k : Nat := 0; let serial : Nat := 0; let lin : Nat := 0; let off : Nat := 0; let hh : Nat := 0;
     let q : Sense := { hsense with handle := 0, slot := 0 }; let rest : List Sense := [];
     let o : HoldObj := { hobj with root := leafOf (slotWord (List.replicate 4160 0)).data }; let r : SlotRead := sread;
     let w : SlotWord := slotWord (List.replicate 4160 0); let cor : Nat := 0; let esc : Bool := false;
     let x : Xfer := { hxfer with mv := .hold 0 0 none }; let b := s.blk; let c := b.chan ch; ch < 16 ∧ c.sensing = q :: rest ∧
       b.holdObj q.handle = some o ∧ b.decodeSlot (ch / 2) r = some (w, cor, esc) ∧ slotPasses w o q.handle q.slot = true ∧
       q.xfer = some (n, k, serial, lin) ∧ b.xfer n k serial = some x ∧ x.mv = .hold hh off none ∧ x.failed = none ∧ b.remaps n = []) := by
  refine ⟨?_, ?_, ?_, ?_, ?_, ?_, ?_, ?_, ?_, ?_⟩
  · decide +kernel
  · decide +kernel
  · rfl
  · exact decodeSlot_first _ _ (List.replicate 4352 0) [] (slotWord (List.replicate 4160 0)) 0 (decodeAt_zeros _)
  · exact blankPasses _ rfl 4160 rfl
  all_goals decide +kernel

theorem test_hyp_HoldChannelsWork_2 :
    (let s : State := chg (hjob) fun b => { b with hold := { b.hold with chans := [(0, { hchan with sensing := [hsense] })] } }; let ch : Nat := 0;
     let q : Sense := hsense; let rest : List Sense := []; let o : HoldObj := hobj; let r : SlotRead := ⟨[wrongTag]⟩; let b := s.blk;
     let c := b.chan ch; ch < 16 ∧ c.sensing = q :: rest ∧ b.holdObj q.handle = some o ∧ b.decodeSlot (ch / 2) r = none) := by
  and_intros
  all_goals first | decide +kernel | exact decodeSlot_none _ _ _ decodeAt_wrongTag

theorem test_hyp_HoldChannelsWork_13 :
    (let s : State := chg hjob fun b => { (((b.wr F.HD_STACK_STRENGTH 0 4).wr F.HD_STACK_FULL_DECODE 0 0).wr F.HD_STACK_RELOC 0 0) with hold := { b.hold with chans := [(0, { hchan with dredging := [20482] })] } };
     let ch : Nat := 0; let u : Nat := 20482; let more : List Nat := []; let r : SlotRead := ⟨[lastWrong]⟩;
     let w : SlotWord := slotWord (List.replicate 4160 0); let cor : Nat := 1; let esc : Bool := false; let b := s.blk; let c := b.chan ch; ch < 16 ∧
       c.dredging = u :: more ∧ b.decodeSlot (ch / 2) r = some (w, cor, esc) ∧ b.rd F.HD_STACK_RELOC (ch / 2) < cor ∧ b.remapFull (ch / 2) u = false) := by
  and_intros
  all_goals first | decide +kernel | exact decodeSlot_first _ _ lastWrong [] (slotWord (List.replicate 4160 0)) 1 ((congrArg (fun t => decodeAt t lastWrong) (by decide +kernel)).trans decodeAt_lastWrong)

theorem test_hyp_HoldChannelsWork_3 :
    (let s : State := chg (hjob) fun b => { b with hold := { b.hold with chans := [(0, { hchan with ops := [.erase 6] })] } }; let ch : Nat := 0;
     let u : Nat := 6; let ops : List HoldOp := []; let b := s.blk; let c := b.chan ch;
     let quiet := b.sealing = [] ∧ b.harbour.stage ≠ some 2 ∧ ∀ v z, c.reloc = [v, z] → c.used.contains z = false;
     let own := c.journal.contains u = true ∨ c.reloc.contains u = true ∨ c.noticeUnit = u; ch < 16 ∧ c.ops = .erase u :: ops ∧ quiet ∧
       (b.stack (ch / 2)).commits = [] ∧ c.bad.contains u = false ∧ (¬ own) ∧ (b.unitsOn ch).contains u = false ∧ c.overUnits.contains u = false) := by
  and_intros
  all_goals first | decide +kernel | (intro v z h; cases h)

theorem test_hyp_HoldChannelsWork_6 :
    (let s : State := chg hjob fun b => { b with hold := { b.hold with chans := [(0, { hchan with ops := [.rewrite 5 7 [] 0 0 [.unit 0 5 7]] })], stks := [(0, { Stack.reset with merge := [] })] } };
     let ch : Nat := 0; let h : Nat := 0; let old : Nat := 5; let new : Nat := 7; let slots : List Nat := []; let serial : Nat := 0;
     let off : Nat := 0; let kc : Commit := .unit 0 5 7; let ops : List HoldOp := []; let b := s.blk; let c := b.chan ch;
     let quiet := b.sealing = [] ∧ b.harbour.stage ≠ some 2 ∧ ∀ v z, c.reloc = [v, z] → c.used.contains z = false; ch < 16 ∧
       c.ops = .rewrite old new slots serial off [kc] :: ops ∧ quiet ∧ h = ch / 2 ∧ (b.stack h).flushing = none ∧ b.mayStore = true ∧
       (b.stack h).merge = []) := by
  and_intros
  all_goals first | decide +kernel | (intro v z h; cases h)

theorem test_hyp_HoldChannelsWork_7 :
    (let s : State := chg hjob fun b => { b with hold := { b.hold with chans := [(0, { hchan with ops := [.rewrite 5 7 [] 0 0 [.unit 0 5 7]] })], stks := [(0, { Stack.reset with flushing := some 0, committing := [.remap 20481 24577 1] })] } };
     let ch : Nat := 0; let h : Nat := 0; let old : Nat := 5; let new : Nat := 7; let slots : List Nat := []; let serial : Nat := 0;
     let off : Nat := 0; let kc : Commit := .unit 0 5 7; let ops : List HoldOp := []; let b := s.blk; let c := b.chan ch;
     let quiet := b.sealing = [] ∧ b.harbour.stage ≠ some 2 ∧ ∀ v z, c.reloc = [v, z] → c.used.contains z = false; ch < 16 ∧
       c.ops = .rewrite old new slots serial off [kc] :: ops ∧ quiet ∧ h = ch / 2 ∧ (b.stack h).flushing ≠ none) := by
  and_intros
  all_goals first | decide +kernel | (intro v z h; cases h)

theorem test_hyp_HoldChannelsWork_8 :
    (let s : State := chg hjob fun b => { b with hold := { b.hold with chans := [(0, { hchan with ops := [.journal []] })], stks := [(0, { Stack.reset with flushing := some 0, committing := [.remap 20481 24577 1] })] } };
     let ch : Nat := 0; let h : Nat := 0; let ops : List HoldOp := []; let src : Nat := 20481; let dst : Nat := 24577; let kk : Nat := 1;
     let i : Nat := 0; let images : List (List Byte) := []; let b := s.blk; let c := b.chan ch;
     let quiet := b.sealing = [] ∧ b.harbour.stage ≠ some 2 ∧ ∀ v z, c.reloc = [v, z] → c.used.contains z = false; ch < 16 ∧
       c.ops = .journal images :: ops ∧ (b.stack h).merge = [] ∧ (b.stack h).commits = [] ∧ quiet ∧ h = ch / 2 ∧
       (b.stack h).committing = [.remap src dst kk] ∧ src < 2 ^ 28 ∧ dst < 2 ^ 28 ∧ kk ≤ 1 ∧
       ((b.remapsOf h).find? fun j => b.rd F.HD_REMAP_FROM (32 * h + j) = src) = none ∧
       firstFrom (fun j => b.rd F.HD_REMAP_VALID (32 * h + j) = 0) 32 0 = some i) := by
  and_intros
  all_goals first | decide +kernel | (intro v z h; cases h)

theorem test_hyp_HoldChannelsWork_9 :
    (let s : State := chg hjob fun b => { b with hold := { b.hold with chans := [(0, { hchan with ops := [.journal []] })], stks := [(0, { Stack.reset with flushing := some 0, committing := [.unit 0 5 7] })] } };
     let ch : Nat := 0; let h : Nat := 0; let ops : List HoldOp := []; let old : Nat := 5; let new : Nat := 7; let images : List (List Byte) := [];
     let b := s.blk; let c := b.chan ch; let quiet := b.sealing = [] ∧ b.harbour.stage ≠ some 2 ∧ ∀ v z, c.reloc = [v, z] → c.used.contains z = false;
     ch < 16 ∧ c.ops = .journal images :: ops ∧ (b.stack h).merge = [] ∧ (b.stack h).commits = [] ∧ quiet ∧ h = ch / 2 ∧
       (b.stack h).committing = [.unit ch old new] ∧ c.retiring.contains old = false ∧ c.overUnits.drop 1 = []) := by
  and_intros
  all_goals first | decide +kernel | (intro v z h; cases h)

theorem test_hyp_HoldChannelsWork_10 :
    (let s : State := chg hjob fun b => { b with hold := { b.hold with chans := [(0, { hchan with ops := [.journal []] })], stks := [(0, { Stack.reset with flushing := some 0, committing := [.slot 327681 2 0 none] })] } };
     let ch : Nat := 0; let h : Nat := 0; let images : List (List Byte) := []; let ops : List HoldOp := []; let hh : Nat := 327681; let sl : Nat := 2;
     let leaf : BitVec 384 := 0; let mv : Option Nat := none; let o : HoldObj := hobj; let b := s.blk; let c := b.chan ch;
     let quiet := b.sealing = [] ∧ b.harbour.stage ≠ some 2 ∧ ∀ v z, c.reloc = [v, z] → c.used.contains z = false; ch < 16 ∧
       c.ops = .journal images :: ops ∧ (b.stack h).merge = [] ∧ (b.stack h).commits = [] ∧ quiet ∧ h = ch / 2 ∧
       (b.stack h).committing = [.slot hh sl leaf mv] ∧ tget b.hold.objs (hh % 65536) = some o) := by
  and_intros
  all_goals first | decide +kernel | (intro v z h; cases h)

theorem test_hyp_LinksTrainIdleAndSwap :
    (let s : State := chg (sl) fun b => { b.wr F.FE_LINK_STATE 0 2 with fabric := { b.fabric with links := [(0, { Link.reset with lanes := (List.range 9).map fun i => (i, lane (i < 8) (i == 8)) })] } };
     let l : Nat := 0; let seq : Nat := 0; let b := s.blk; let x := b.link l; l < 2 ∧ b.linkUp l = true ∧ x.idleSeq = none ∧ seq = x.rxSeq ∧
       b.lstate l = 2 ∧ x.txIdle = false ∧ (∀ k, k < 9 → (x.lane k).idleDet = false)) ∧
    (let s : State := chg (sl) fun b => { b.wr F.FE_LINK_STATE 0 2 with fabric := { b.fabric with links := [(0, { Link.reset with lanes := (List.range 9).map fun i => (i, lane (i < 8) (i == 8)) })] } };
     let l : Nat := 0; let seq : Nat := 4090; let b := s.blk; let x := b.link l; l < 2 ∧ b.linkUp l = true ∧ x.idleSeq = none ∧ seq ≠ x.rxSeq ∧
       (x.rxSeq + 4096 - seq) % 4096 ≤ 512) ∧
    (let s : State := chg (sl) fun b => { b.wr F.FE_LINK_STATE 0 2 with fabric := { b.fabric with links := [(0, { Link.reset with lanes := (List.range 9).map fun i => (i, lane (i < 8) (i == 8)), kept := [4, 5, 6], idleSeq := some 7 })] } };
     let l : Nat := 0; let seq : Nat := 0; let n : Nat := 7; let ack : Nat := 0; let b := s.blk; let x := b.link l; l < 2 ∧ b.linkUp l = true ∧
       x.idleSeq = some n ∧ (afterAck x.kept ack).contains n = false ∧ seq = x.rxSeq) ∧
    (let s : State := chg (sl) fun b => { b.wr F.FE_LINK_STATE 0 2 with fabric := { b.fabric with links := [(0, { Link.reset with lanes := (List.range 9).map fun i => (i, lane (i < 8) (i == 8)) })] } };
     let l : Nat := 0; let errs : Nat := 16; let b := s.blk; l < 2 ∧ b.linkUp l = true ∧ 15 < errs) ∧
    (let s : State := chg (sl) fun b => { b.wr F.FE_LINK_STATE 0 1 with fabric := { b.fabric with links := [(0, { Link.reset with lanes := (List.range 9).map fun i => (i, lane (i < 8) (i == 8)) })] } };
     let l : Nat := 0; let b := s.blk; l < 2 ∧ b.lstate l = 1) ∧
    (let s : State := chg (chg (sl) fun b => { b.wr F.FE_LINK_STATE 0 2 with fabric := { b.fabric with links := [(0, { Link.reset with lanes := (List.range 9).map fun i => (i, lane (i < 8) (i == 8)) })] } }) fun b => b.wr F.FE_LINK_IDLE_US 0 5;
     let l : Nat := 0; let b := s.blk; let x := b.link l; let us := b.rd F.FE_LINK_IDLE_US l; l < 2 ∧ b.linkUp l = true ∧ x.txIdle = false ∧ us ≠ 0 ∧
       x.lastChunk + us * 1000 ≤ s.aon.ns ∧ x.swap = none ∧ x.idleSeq = none) ∧
    (let s : State := chg (chg (sl) fun b => { b.wr F.FE_LINK_STATE 0 2 with fabric := { b.fabric with links := [(0, { Link.reset with lanes := (List.range 9).map fun i => (i, lane (i < 8) (i == 8)), swap := some ⟨2, true, 1, 0⟩ })] } }) fun b => b.wr F.FE_LINK_IDLE_US 0 5;
     let l : Nat := 0; let b := s.blk; let x := b.link l; let us := b.rd F.FE_LINK_IDLE_US l; l < 2 ∧ b.linkUp l = true ∧ x.txIdle = false ∧ us ≠ 0 ∧
       x.lastChunk + us * 1000 ≤ s.aon.ns ∧ x.swap ≠ none) ∧
    (let s : State := chg (sl) fun b => { b.wr F.FE_LINK_STATE 0 3 with fabric := { b.fabric with links := [(0, { Link.reset with lanes := (List.range 9).map fun i => (i, lane (i < 8) (i == 8)), txIdle := true, chunkWaits := true, peerIdle := true })] } };
     let l : Nat := 0; let b := s.blk; let x := b.link l; l < 2 ∧ b.lstate l = 3 ∧ x.txIdle = true ∧ x.chunkWaits = true) ∧
    (let s : State := chg (sl) fun b => { b.wr F.FE_LINK_STATE 0 2 with fabric := { b.fabric with links := [(0, { Link.reset with lanes := (List.range 9).map fun i => (i, lane (i < 8) (i == 8)), peerIdle := true })] } };
     let l : Nat := 0; let n : Nat := 2; let b := s.blk; let x := b.link l; l < 2 ∧ n < 9 ∧ b.linkUp l = true ∧ x.peerIdle = true ∧ b.lstate l = 2) ∧
    (let s : State := chg (sl) fun b => { b.wr F.FE_LINK_STATE 0 2 with fabric := { b.fabric with links := [(0, { Link.reset with lanes := (List.range 9).map fun i => (i, lane (i < 8) (i == 8)) })] } };
     let l : Nat := 0; let n : Nat := 2; let b := s.blk; let x := b.link l; l < 2 ∧ n < 9 ∧ b.linkUp l = true ∧ x.peerIdle = false) ∧
    (let s : State := chg (sl) fun b => { b.wr F.FE_LINK_STATE 0 3 with fabric := { b.fabric with links := [(0, { Link.reset with lanes := (List.range 9).map fun i => (i, { lane (i < 8) (i == 8) with idleDet := true }) })] } };
     let l : Nat := 0; let n : Nat := 8; let b := s.blk; let x := b.link l; l < 2 ∧ n < 9 ∧ b.linkUp l = true ∧ (x.lane n).idleDet = true ∧
       b.rd F.WK_STATE_STATE ≠ 3) ∧
    (let s : State := chg (chg (sl) fun b => { b.wr F.FE_LINK_STATE 0 2 with fabric := { b.fabric with links := [(0, { Link.reset with lanes := (List.range 9).map fun i => (i, { lane (i < 8) false with lowScans := 1 }) })] } }) fun b => (b.wr F.FE_LINK_MARGIN_W 0 30);
     let l : Nat := 0; let n : Nat := 0; let ew : Nat := 20; let eh : Nat := 100; let b := s.blk; l < 2 ∧ n < 9 ∧ b.linkUp l = true ∧
       b.scanLane l = some n ∧ ew < 64 ∧ eh < 256) ∧
    (let s : State := chg (chg (sl) fun b => { b.wr F.FE_LINK_STATE 0 2 with fabric := { b.fabric with links := [(0, { Link.reset with lanes := (List.range 9).map fun i => (i, { lane (i < 8) false with lowScans := 1 }) })] } }) fun b => (b.wr F.FE_LINK_MARGIN_W 0 30);
     let l : Nat := 0; let n : Nat := 2; let ew : Nat := 20; let eh : Nat := 100; let b := s.blk; l < 2 ∧ n < 9 ∧ b.linkUp l = true ∧
       b.scanLane l ≠ some n ∧ ew < 64 ∧ eh < 256) ∧
    (let s : State := chg (sl) fun b => { b.wr F.FE_LINK_STATE 0 2 with fabric := { b.fabric with links := [(0, { Link.reset with lanes := (List.range 9).map fun i => (i, { lane (i < 8) (i == 8) with lowScans := 2 }) })] } };
     let l : Nat := 0; let n : Nat := 2; let b := s.blk; let x := b.link l; l < 2 ∧ n < 8 ∧ b.lstate l = 2 ∧ x.swap = none ∧
       b.rd F.FE_LINK_SPARE_USED l = 0 ∧ b.laneDue s.env l n = true ∧ b.spareReady l = true) ∧
    (let s : State := chg (sl) fun b => { b.wr F.FE_LINK_STATE 0 2 with fabric := { b.fabric with links := [(0, { Link.reset with lanes := (List.range 9).map fun i => (i, lane (i < 8) (i == 8)), swap := some ⟨2, true, 1, 0⟩ })] } };
     let l : Nat := 0; let n : Nat := 2; let comma : Nat := 7; let w : Swap := (⟨2, true, 1, 0⟩ : Swap); let b := s.blk; let x := b.link l; l < 2 ∧
       x.swap = some w ∧ comma < 65536 ∧ w.fromPeer = true ∧ w.step = 1 ∧ w.lane = n ∧ n < 8) ∧
    (let s : State := chg (sl) fun b => { b.wr F.FE_LINK_STATE 0 2 with fabric := { b.fabric with links := [(0, { Link.reset with lanes := (List.range 9).map fun i => (i, lane (i < 8) (i == 8)), swap := some ⟨2, false, 1, 0⟩ })] } };
     let l : Nat := 0; let comma : Nat := 7; let w : Swap := (⟨2, false, 1, 0⟩ : Swap); let b := s.blk; let x := b.link l; l < 2 ∧ x.swap = some w ∧
       comma < 65536 ∧ w.fromPeer = false ∧ w.step = 1) ∧
    (let s : State := chg (sl) fun b => { b.wr F.FE_LINK_STATE 0 2 with fabric := { b.fabric with links := [(0, { Link.reset with lanes := (List.range 9).map fun i => (i, lane (i < 8) (i == 8)), swap := some ⟨2, false, 2, 7⟩ })] } };
     let l : Nat := 0; let comma : Nat := 7; let w : Swap := (⟨2, false, 2, 7⟩ : Swap); let b := s.blk; let x := b.link l; l < 2 ∧ x.swap = some w ∧
       comma < 65536 ∧ w.step = 2 ∧ w.at_ = comma ∧ w.lane < 8) := by
  iterate 16 refine And.intro (by decide +kernel) ?_
  decide +kernel

theorem test_hyp_WindowsAdmitRequestsAndResponses :
    (let s : State := job; let l : Nat := 0;
     let r : FabMsg := (⟨2, 0, 1, 4, 1, 0, 5, 64, 7, 64, 0, (List.range 64).map fun i => BitVec.ofNat 8 i⟩ : FabMsg); let b := s.blk; l < 2 ∧
       1 ≤ r.op ∧ r.op ≤ 4 ∧ r.dst ≠ b.blockId) ∧
    (let s : State := job; let l : Nat := 0;
     let r : FabMsg := (⟨2, 0, 1, 0, 1, 0, 5, 64, 7, 64, 0, (List.range 64).map fun i => BitVec.ofNat 8 i⟩ : FabMsg); let b := s.blk; l < 2 ∧
       1 ≤ r.op ∧ r.op ≤ 4 ∧ r.dst = b.blockId ∧ tget b.fabric.windows r.window = none) ∧
    (let s : State := job; let l : Nat := 0;
     let r : FabMsg := (⟨8, 0, 1, 0, 9, 0, 5, 64, 7, 64, 0, (List.range 64).map fun i => BitVec.ofNat 8 i⟩ : FabMsg); l < 2 ∧ r.op = 8 ∧
       r.epoch ≠ s.aon.epoch) ∧
    (let s : State := chg (job) fun b => { b with fabric := { b.fabric with reqs := [(5, freq)], nextTag := 6 } }; let tag : Nat := 5;
     let q : FabReq := freq; let b := s.blk; tget b.fabric.reqs tag = some q ∧ q.since + b.rd F.FE_CTL_REMOTE_TO * 1000 ≤ s.aon.ns ∧ q.ping = none) ∧
    (let s : State := chg (chg (job) fun b => { b with fabric := { b.fabric with reqs := [(5, { freq with ping := some (mg, 9) })], nextTag := 6 } }) fun b => { b with harbour := { b.harbour with running := [⟨mg, 0x0408, [], 9, false, 1⟩] } };
     let m' : Mgr := mg; let tag : Nat := 5; let blk : Nat := 1; let t1 : Nat := 9; let q : FabReq := { freq with ping := some (mg, 9) };
     let b := s.blk; tget b.fabric.reqs tag = some q ∧ q.since + b.rd F.FE_CTL_REMOTE_TO * 1000 ≤ s.aon.ns ∧ q.ping = some (m', t1) ∧
       (tget b.harbour.sessions m'.session).isSome = true ∧ b.harbour.running = [⟨m', 0x0408, [], t1, false, blk⟩]) ∧
    (let s : State := job; let m : Mgr := mg; let wr : WinRec := (⟨7, 3, true, 0, true, true, false, false, false, 1, 1, 0x1000, 4096⟩ : WinRec);
     let b := s.blk; MgrReady s m 0x0401 ∧ wr.window < 4096 ∧ wr.owner < 512 ∧ wr.peer < 512 ∧ wr.epoch < 256 ∧ 64 ≤ wr.size ∧ wr.berthStore = true ∧
       wr.berth < 16 ∧ wr.base % 64 = 0 ∧ wr.base + wr.size ≤ 0x1400000 ∧ (b.partBerths (b.slicePart wr.owner)).contains wr.berth = true ∧
       wr.byGroup = false ∧ tget b.fabric.windows wr.window = none ∧ b.sliceState wr.owner = 1) ∧
    (let s : State := chg (job) fun b => { b with fabric := { b.fabric with windows := [(7, fwin)] } }; let m : Mgr := mg; let w : Window := fwin;
     let wr : WinRec := (⟨7, 3, true, 0, true, true, false, false, false, 1, 1, 0x1000, 4096⟩ : WinRec); let b := s.blk; MgrReady s m 0x0401 ∧
       wr.window < 4096 ∧ wr.owner < 512 ∧ wr.peer < 512 ∧ wr.epoch < 256 ∧ 64 ≤ wr.size ∧ wr.berthStore = true ∧ wr.berth < 16 ∧ wr.base % 64 = 0 ∧
       wr.base + wr.size ≤ 0x1400000 ∧ (b.partBerths (b.slicePart wr.owner)).contains wr.berth = true ∧ wr.byGroup = false ∧
       tget b.fabric.windows wr.window = some w) ∧
    (let s : State := chg (job) fun b => { b with fabric := { b.fabric with windows := [(7, fwin)] } }; let m : Mgr := mg; let win : Nat := 7;
     let w : Window := fwin; let b := s.blk; tget b.fabric.windows win = some w ∧ w.closing = none ∧ MgrReady s m 0x0402 ∧ w.inflight = 0 ∧
       (∀ z ∈ b.harbour.running, z.opcode ≠ 0x0402)) ∧
    (let s : State := chg job fun b => { b with fabric := { b.fabric with windows := [(7, { fwin with inflight := 2 })] } }; let m : Mgr := mg;
     let win : Nat := 7; let w : Window := { fwin with inflight := 2 }; let b := s.blk; tget b.fabric.windows win = some w ∧ w.closing = none ∧
       MgrReady s m 0x0402 ∧ 0 < w.inflight) ∧
    (let s : State := chg (job) fun b => { b with fabric := { b.fabric with windows := [(7, fwin)] } }; let m : Mgr := mg; let win : Nat := 7;
     let w : Window := fwin; let b := s.blk; tget b.fabric.windows win = some w ∧ w.closing = none ∧ MgrReady s m 0x0403) ∧
    (let s : State := job; let m : Mgr := mg; let gr : GroupRec := grp.r; let b := s.blk;
     let slots := b.fabric.groups.foldl (fun k y => k + y.2.r.slots) 0; let words := b.fabric.groups.foldl (fun k y => k + y.2.r.members.length) 0;
     MgrReady s m 0x0404 ∧ gr.entry < 256 ∧ 1 ≤ gr.slots ∧ gr.slots ≤ 64 ∧ gr.owner < 512 ∧ gr.key < 2 ^ 32 ∧ gr.seq0 < 2 ^ 32 ∧
       gr.members.length ≤ 512 ∧ (∀ y ∈ gr.members, y.1 < 512 ∧ y.2 < 256) ∧ (gr.members.map (·.1)).eraseDups.length = gr.members.length ∧
       (gr.members.map (·.1))[gr.myRank]? = some b.blockId ∧ (∀ y ∈ b.fabric.groups, y.1 ≠ gr.entry → y.2.r.key ≠ gr.key) ∧
       tget b.fabric.groups gr.entry = none ∧ slots + gr.slots ≤ 64 ∧ words + gr.members.length ≤ 65536) ∧
    (let s : State := chg job fun b => { b with fabric := { b.fabric with groups := [(10, { grp with r := { grp.r with entry := 10, slots := 61, key := 5 } })] } };
     let m : Mgr := mg; let gr : GroupRec := grp.r; let b := s.blk; let slots := b.fabric.groups.foldl (fun k y => k + y.2.r.slots) 0;
     MgrReady s m 0x0404 ∧ gr.entry < 256 ∧ 1 ≤ gr.slots ∧ gr.slots ≤ 64 ∧ gr.owner < 512 ∧ gr.key < 2 ^ 32 ∧ gr.seq0 < 2 ^ 32 ∧
       gr.members.length ≤ 512 ∧ (∀ y ∈ gr.members, y.1 < 512 ∧ y.2 < 256) ∧ (gr.members.map (·.1)).eraseDups.length = gr.members.length ∧
       (gr.members.map (·.1))[gr.myRank]? = some b.blockId ∧ (∀ y ∈ b.fabric.groups, y.1 ≠ gr.entry → y.2.r.key ≠ gr.key) ∧
       tget b.fabric.groups gr.entry = none ∧ 64 < slots + gr.slots) ∧
    (let s : State := gjob; let m : Mgr := mg; let entry : Nat := 9; let g : Group := grp; let b := s.blk; MgrReady s m 0x0405 ∧
       tget b.fabric.groups entry = some g ∧ b.fabric.colls.any (fun y => y.2.entry = entry) = false ∧ (∀ y ∈ b.fabric.windows, y.2.r.byGroup = false)) ∧
    (let s : State := chg gjob fun b => { b with fabric := { b.fabric with colls := [(4, coll)] } }; let m : Mgr := mg; let entry : Nat := 9;
     let g : Group := grp; let b := s.blk; MgrReady s m 0x0405 ∧ tget b.fabric.groups entry = some g ∧
       b.fabric.colls.any (fun y => y.2.entry = entry) = true) ∧
    (let s : State := chg (job) fun b => { b with fabric := { b.fabric with windows := [(7, fwin)] } }; let m : Mgr := mg; let blk : Nat := 1;
     let epoch : Nat := 3; MgrReady s m 0x0406 ∧ blk < 512 ∧ 0 < epoch ∧ epoch < 256) ∧
    (let s : State := chg (sl) fun b => { b.wr F.FE_LINK_STATE 0 2 with fabric := { b.fabric with links := [(0, { Link.reset with lanes := (List.range 9).map fun i => (i, lane (i < 8) (i == 8)) })] } };
     let m : Mgr := mg; let l : Nat := 0; let us : Nat := 5; let mw : Nat := 7; let mh : Nat := 8; MgrReady s m 0x0407 ∧ l < 2 ∧ us ≤ 1000 ∧
       mw ≤ 255 ∧ mh ≤ 255) ∧
    (let s : State := job; let m : Mgr := mg; let blk : Nat := 1; MgrReady s m 0x0408 ∧ blk < 512) ∧
    (let s : State := job; let l : Nat := 0;
     let r : FabMsg := (⟨32, 0, 1, 0, 1, 0, 5, 64, 7, 64, 0, (List.range 64).map fun i => BitVec.ofNat 8 i⟩ : FabMsg); let b := s.blk; l < 2 ∧
       r.dst = b.blockId) ∧
    (let s : State := chg (chg (job) fun b => { b with fabric := { b.fabric with reqs := [(5, { freq with ping := some (mg, 9) })], nextTag := 6 } }) fun b => { b with harbour := { b.harbour with running := [⟨mg, 0x0408, [], 9, false, 1⟩] } };
     let m' : Mgr := mg; let l : Nat := 0; let blk : Nat := 1; let t1 : Nat := 9;
     let r : FabMsg := (⟨33, 0, 1, 0, 1, 0, 5, 64, 7, 64, 0, (List.range 64).map fun i => BitVec.ofNat 8 i⟩ : FabMsg);
     let q : FabReq := { freq with ping := some (mg, 9) }; let b := s.blk; l < 2 ∧ r.epoch = s.aon.epoch ∧ tget b.fabric.reqs r.tag = some q ∧
       q.ping = some (m', t1) ∧ (tget b.harbour.sessions m'.session).isSome = true ∧ b.harbour.running = [⟨m', 0x0408, [], t1, false, blk⟩]) := by
  iterate 18 refine And.intro (by decide +kernel) ?_
  decide +kernel

theorem test_hyp_WindowsAdmitRequestsAndResponses_2 :
    (let s : State := chg (chg job fun b => b.wr F.BT_STATE_CONTEXT 0 7) fun b => { b with fabric := { b.fabric with windows := [(7, fwin)] } };
     let l : Nat := 0; let r : FabMsg := (⟨2, 0, 1, 0, 1, 0, 5, 1, 7, 64, 0, (List.range 64).map fun i => BitVec.ofNat 8 i⟩ : FabMsg);
     let w : Window := fwin; let b := s.blk; l < 2 ∧ 1 ≤ r.op ∧ r.op ≤ 4 ∧ b.screenMsg r = .ok w ∧ w.r.berthStore = true ∧ r.op = 2 ∧ 1 ≤ r.len ∧
       b.remaps w.r.berth = []) := by
  and_intros
  all_goals first | decide +kernel | rfl

theorem test_hyp_WindowsAdmitRequestsAndResponses_4 :
    (let s : State := chg (brt job fun x => { x with me0 := [fxfer] }) fun b => { b with fabric := { b.fabric with reqs := [(5, freq)], nextTag := 6 } };
     let l : Nat := 0; let r : FabMsg := (⟨8, 0, 1, 0, 1, 0, 5, 64, 7, 64, 0, (List.range 64).map fun i => BitVec.ofNat 8 i⟩ : FabMsg);
     let q : FabReq := freq; let x : Xfer := fxfer; let b := s.blk; l < 2 ∧ r.op = 8 ∧ r.epoch = s.aon.epoch ∧ tget b.fabric.reqs r.tag = some q ∧
       q.ping = none ∧ q.gone = none ∧ q.e < 2 ∧ q.op = 0 ∧ r.status = 0 ∧ b.xfer q.b q.e q.serial = some x ∧ (∀ c h, x.mv ≠ .copy c h) ∧
       b.remaps q.b = []) := by
  and_intros
  all_goals first | decide +kernel | (intro c h e; cases e)

theorem test_hyp_FerryMessagesAndLightersAnswer :
    (let s : State := up; let key : Nat := 0; let b := s.blk; b.groupByKey key = none) ∧
    (let s : State := chg sl fun b => { b with fabric := { b.fabric with groups := [(9, grp)] } }; let key : Nat := 0; let entry : Nat := 9;
     let g : Group := grp; let src : Nat := 1; let epoch : Nat := 2; let b := s.blk; b.groupByKey key = some (entry, g) ∧ g.oldEpoch src epoch = true) ∧
    (let s : State := chg sl fun b => { b with fabric := { b.fabric with groups := [(9, { grp with finished := [5] })] } }; let key : Nat := 0;
     let sq : Nat := 5; let entry : Nat := 9; let g : Group := { grp with finished := [5] }; let src : Nat := 1; let epoch : Nat := 1; let b := s.blk;
     b.groupByKey key = some (entry, g) ∧ g.oldEpoch src epoch = false ∧ b.findColl entry sq = none ∧ g.finished.contains sq = true) ∧
    (let s : State := chg sl fun b => { b with fabric := { b.fabric with groups := [(9, grp)] } }; let key : Nat := 0; let sq : Nat := 5;
     let entry : Nat := 9; let g : Group := grp; let src : Nat := 1; let epoch : Nat := 1; let b := s.blk; b.groupByKey key = some (entry, g) ∧
       g.oldEpoch src epoch = false ∧ b.findColl entry sq = none ∧ g.finished.contains sq = false) ∧
    (let s : State := ferry job; let key : Nat := 0; let sq : Nat := 5; let src : Nat := 1; let id : Nat := 4; let entry : Nat := 9;
     let g : Group := grp; let x : Coll := fcoll; let epoch : Nat := 1; let b := s.blk; b.groupByKey key = some (entry, g) ∧
       g.oldEpoch src epoch = false ∧ b.findColl entry sq = some (id, x) ∧ tget b.fabric.colls id = some x ∧ src ∈ g.r.peerRanks ∧
       x.credits.contains src = false ∧ x.sentTo.contains src = false ∧ (b.contribOk s.env id x).1 = true) ∧
    (let s : State := ferry (chg (sl) fun b => { b with quay := { b.quay with cmds := [(5, icmd)] } }); let key : Nat := 0; let sq : Nat := 5;
     let id : Nat := 4; let entry : Nat := 9; let g : Group := grp; let x : Coll := fcoll; let cmd : Cmd := icmd; let src : Nat := 1;
     let epoch : Nat := 1; let b := s.blk; b.groupByKey key = some (entry, g) ∧ g.oldEpoch src epoch = false ∧ b.findColl entry sq = some (id, x) ∧
       tget b.fabric.colls id = some x ∧ b.fabric.colls = [(id, x)] ∧ x.fromBerth = false ∧ tget b.quay.cmds x.job = some cmd ∧ cmd.status = 0 ∧
       cmd.ph ≠ .ended) ∧
    (let s : State := lite (chg (sl) fun b => { b with quay := { b.quay with cmds := [(5, icmd)] } }) lt0; let n : Nat := 0; let tag : Nat := 2;
     let off : Nat := 4090; let c : Nat := 5; let cmd : Cmd := icmd; let b := s.blk; let lt := b.lighter n; n < 4 ∧ tget lt.cmds tag = some c ∧
       lt.isolated = false ∧ tget b.quay.cmds c = some cmd ∧ cmd.aborting = false ∧ 4096 < off % 4096 + 64) ∧
    (let s : State := lite (chg (sl) fun b => { b with quay := { b.quay with cmds := [(5, icmd)] } }) lt0; let n : Nat := 0; let tag : Nat := 2;
     let buf : Nat := 0; let off : Nat := 0x100; let c : Nat := 5; let mid : Nat := 6; let cmd : Cmd := icmd; let b := s.blk; let lt := b.lighter n;
     n < 4 ∧ tget lt.cmds tag = some c ∧ lt.isolated = false ∧ tget b.quay.cmds c = some cmd ∧ cmd.aborting = false ∧ off % 4096 + 64 ≤ 4096 ∧
       (b.bufHead c buf).isSome = true ∧ b.rangeFresh c buf = false ∧ (∀ y ∈ lt.gather, y.q.id ≠ mid)) ∧
    (let s : State := lite (chg (sl) fun b => { b with quay := { b.quay with cmds := [(5, icmd)] } }) lt0; let n : Nat := 0; let tag : Nat := 2;
     let c : Nat := 5; let cmd : Cmd := icmd; let b := s.blk; let lt := b.lighter n; n < 4 ∧ tget lt.cmds tag = some c ∧ lt.isolated = false ∧
       tget b.quay.cmds c = some cmd ∧ cmd.status = 0 ∧ cmd.ph ≠ .ended) ∧
    (let s : State := lite (chg (sl) fun b => { b with quay := { b.quay with cmds := [(5, icmd)] } }) { lt0 with aborts := [(2, 0)] };
     let l : Nat := 0; let n : Nat := 0; let tag : Nat := 2; let c : Nat := 5; let cmd : Cmd := icmd; let rest : List (Nat × Nat) := [];
     let b := s.blk; let lt := b.lighter n; n < 4 ∧ lt.aborts = (tag, l) :: rest ∧ l + 100000 ≤ s.aon.ns ∧ lt.cmds = [(tag, c)] ∧
       tget b.quay.cmds c = some cmd ∧ cmd.status = 0 ∧ cmd.ph ≠ .ended) := by
  iterate 9 refine And.intro (by decide +kernel) ?_
  decide +kernel

theorem test_hyp_FerryMessagesAndLightersAnswer_8 :
    (let s : State := lite (chg ijob fun b => { b with pilot := { b.pilot with stamps := [(1, stampH), (2, .run 0x5000 0 0x1000 3 7 false true 0 true true 0 0)] } }) lt0;
     let n : Nat := 0; let tag : Nat := 2; let buf : Nat := 0; let off : Nat := 0x100; let c : Nat := 5; let phys : Nat := 0x5100; let sl : Nat := 3;
     let cx : Nat := 7; let wr : Bool := true; let cmd : Cmd := icmd; let b := s.blk; let lt := b.lighter n; n < 4 ∧ tget lt.cmds tag = some c ∧
       lt.isolated = false ∧ tget b.quay.cmds c = some cmd ∧ cmd.aborting = false ∧ off % 4096 + 64 ≤ 4096 ∧ (b.bufHead c buf).isSome = true ∧
       b.rangeFresh c buf = true ∧ b.farAt c buf off 64 wr none = .dram phys sl cx 64) := by
  and_intros
  all_goals first | decide +kernel | rfl

theorem test_hyp_SessionsLeaseAndReports :
    (let s : State := sl; let b := s.blk; b.hmUp = true ∧ b.harbour.sessions.length < 4) ∧
    (let s : State := chg up fun b => { b with harbour := { b.harbour with sessions := (List.range 4).map fun i => (i, ⟨4, none, false⟩) } };
     let b := s.blk; b.hmUp = true ∧ 4 ≤ b.harbour.sessions.length) ∧
    (let s : State := chg up fun b => { b with harbour := { b.harbour with sessions := [(1, ⟨3, none, false⟩)], cfg := { b.harbour.cfg with blobs := [(0x0201, List.replicate 32 1)] } } };
     let ses : Nat := 1; let who : Requester := (⟨true, List.replicate 32 1, none⟩ : Requester); let x : Session := (⟨3, none, false⟩ : Session);
     let b := s.blk; b.hmUp = true ∧ tget b.harbour.sessions ses = some x ∧ x.stage = 3 ∧ who.mutualAuth = true ∧
       b.managerKeys.contains who.rootDigest = true) ∧
    (let s : State := chg up fun b => { b with harbour := { b.harbour with sessions := [(1, ⟨3, none, false⟩)], cfg := { b.harbour.cfg with blobs := [(0x0201, List.replicate 32 1)] } } };
     let ses : Nat := 1; let who : Requester := (⟨false, List.replicate 32 1, none⟩ : Requester); let x : Session := (⟨3, none, false⟩ : Session);
     let b := s.blk; b.hmUp = true ∧ tget b.harbour.sessions ses = some x ∧ x.stage = 3 ∧ who.mutualAuth = false) ∧
    (let s : State := sl; let ses : Nat := 1; let x : Session := (⟨4, some Sys2Proof.Tests.key, false⟩ : Session); let b := s.blk; b.hmUp = true ∧
       tget b.harbour.sessions ses = some x ∧ x.stage = 4) ∧
    (let s : State := chg up fun b => { b with harbour := { b.harbour with down := true } }; let b := s.blk; b.harbour.down = true) ∧
    (let s : State := sl; let m : Mgr := mg; let ms : Nat := 500; let k : List Byte := Sys2Proof.Tests.key; let b := s.blk;
     let t := clampN 100 60000 ms; MgrReady s m 0x0201 ∧ b.mgrKey m = some k ∧ b.leaseOfOther s.env m = false ∧ t = ms) ∧
    (let s : State := sl; let m : Mgr := mg; let ms : Nat := 5; let k : List Byte := Sys2Proof.Tests.key; let b := s.blk;
     let t := clampN 100 60000 ms; MgrReady s m 0x0201 ∧ b.mgrKey m = some k ∧ b.leaseOfOther s.env m = false ∧ t ≠ ms) ∧
    (let s : State := chg up fun b => { b with harbour := { b.harbour with lease := some ⟨[8], 1000000000000, 1000⟩ } }; let m : Mgr := mg;
     let k : List Byte := Sys2Proof.Tests.key; let b := s.blk; MgrReady s m 0x0201 ∧ b.mgrKey m = some k ∧ b.leaseOfOther s.env m = true) ∧
    (let s : State := sl; let m : Mgr := mg; let ms : Nat := 500; let k : List Byte := Sys2Proof.Tests.key; let b := s.blk;
     let t := clampN 100 60000 ms; MgrReady s m 0x0202 ∧ b.mgrKey m = some k ∧ t = ms) ∧
    (let s : State := sl; let m : Mgr := mg; MgrReady s m 0x0203) ∧
    (let s : State := { sl with aon := ⟨1000000000000, 1⟩ }; let l : Lease := (⟨Sys2Proof.Tests.key, 1000000000000, 1000⟩ : Lease); let b := s.blk;
     b.harbour.lease = some l ∧ l.till ≤ s.aon.ns) ∧
    (let s : State := sl; let l : Lease := (⟨Sys2Proof.Tests.key, 1000000000000, 1000⟩ : Lease); let b := s.blk; b.harbour.lease = some l ∧
       s.aon.ns < l.till) ∧
    (let s : State := sl; let m : Mgr := mg; let len : Nat := 4096; let sl : Nat := 3; let nonce : List Byte := (List.replicate 32 9);
     let y : Slice := slice; let b := s.blk; MgrReady s m 0x0204 ∧ tget b.quay.slices sl = some y ∧ nonce.length = 32 ∧ b.sliceState sl ≠ 4 ∧
       416 + 64 * y.log.length ≤ len) ∧
    (let s : State := chg sl fun b => b.wr F.BW_SLICE_STATE 3 4; let m : Mgr := mg; let sl : Nat := 3; let nonce : List Byte := (List.replicate 32 9);
     let y : Slice := slice; let b := s.blk; MgrReady s m 0x0204 ∧ tget b.quay.slices sl = some y ∧ nonce.length = 32 ∧ b.sliceState sl = 4) ∧
    (let s : State := sl; let m : Mgr := mg; let len : Nat := 4096; let nonce : List Byte := (List.replicate 32 9); MgrReady s m 0x0205 ∧
       nonce.length = 32 ∧ 416 ≤ len) ∧
    (let s : State := sl; let m : Mgr := mg; let id : Nat := 1; let key : List Byte := (List.replicate 32 8); let b := s.blk; MgrReady s m 0x0206 ∧
       id < 256 ∧ key.length = 32 ∧ b.harbour.migKeys.length < 4) ∧
    (let s : State := chg sl fun b => { b with harbour := { b.harbour with migKeys := (List.range 4).map fun i => (i, key) } }; let m : Mgr := mg;
     let id : Nat := 9; let key : List Byte := (List.replicate 32 8); let b := s.blk; MgrReady s m 0x0206 ∧ id < 256 ∧ key.length = 32 ∧
       4 ≤ b.harbour.migKeys.length ∧ tget b.harbour.migKeys id = none) ∧
    (let s : State := { chg up fun b => { b with harbour := { b.harbour with coreFw := true, ucode := true, svnHm := 3 } } with fuses := { sl.fuses with lifecycle := 2 } };
     let m : Mgr := mg; let mask : Nat := 5; let b := s.blk; MgrReady s m 0x0207 ∧ mask < 8 ∧ (s.fuses.stage = 1 ∨ s.fuses.stage = 2) ∧
       b.harbour.coreFw = true ∧ b.harbour.ucode = true) ∧
    (let s : State := { up with fuses := { sl.fuses with lifecycle := 3 } }; let m : Mgr := mg; let mask : Nat := 5; MgrReady s m 0x0207 ∧ mask < 8 ∧
       s.fuses.stage = 3) ∧
    (let s : State := up; let m : Mgr := mg; let b := s.blk; MgrReady s m 0x0208 ∧ b.quay.slices = []) ∧
    (let s : State := sl; let m : Mgr := mg; let b := s.blk; MgrReady s m 0x0208 ∧ b.quay.slices ≠ []) := by
  iterate 21 refine And.intro (by decide +kernel) ?_
  decide +kernel

theorem test_hyp_ResetsAndStagesOpenTheBlock :
    (let s : State := chg up fun b => { b with power := { b.power with romWaits := true, pdEn := 2 ^ 34 - 1, pdUp := 2 ^ 34 - 1 - 2 ^ 24 }, harbour := { b.harbour with stage := none } };
     let n : Nat := 24; let b := s.blk; let h := b.harbour; 24 ≤ n ∧ n < 34 ∧ b.power.romWaits = true ∧ h.stage = none ∧ h.recovering = false ∧
       b.power.pdEn.testBit n = true ∧ b.domUp n = false ∧ (∀ d, 24 ≤ d → d < 34 → d ≠ n → b.domUp d = true)) ∧
    (let s : State := chg up fun b => { b with power := { b.power with romWaits := true, pdEn := 2 ^ 34 - 1, pdUp := 2 ^ 34 - 1 - 3 * 2 ^ 24 }, harbour := { b.harbour with stage := none } };
     let n : Nat := 24; let d : Nat := 25; let b := s.blk; let h := b.harbour; 24 ≤ n ∧ n < 34 ∧ b.power.romWaits = true ∧ h.stage = none ∧
       h.recovering = false ∧ b.power.pdEn.testBit n = true ∧ b.domUp n = false ∧ 24 ≤ d ∧ d < 34 ∧ d ≠ n ∧ b.domUp d = false) ∧
    (let s : State := chg (mem up) fun b => { b with power := { b.power with wrstWaiting := true } }; let b := s.blk; b.storeBusy = false ∧
       b.power.wrstWaiting = true) ∧
    (let s : State := chg (up) fun b => { b with harbour := { b.harbour with xspi := some 3 } }; let b := s.blk; b.storeBusy = true) ∧
    (let s : State := stg 0 (mem State.reset); let x : Bundle := bndl; let b := s.blk; let h := b.harbour; h.stage = some 0 ∧ h.running? = some x) ∧
    (let s : State := stg 1 (mem up); let n : Nat := 3; let b := s.blk; let h := b.harbour; h.stage = some 1 ∧ n < 16) ∧
    (let s : State := chg (stg 2 (mem up)) fun b => { b with hold := { b.hold with chans := [(0, { Channel.reset with ops := [.table []] })] } };
     let is : List (List Byte) := []; let b := s.blk; let h := b.harbour; h.stage = some 2 ∧ h.epochTaken = false ∧ (b.chan 0).ops = [.table is]) ∧
    (let s : State := chg (stg 2 (on (mem up))) fun b => { b with harbour := { b.harbour with epochTaken := true } }; let b := s.blk;
     let h := b.harbour; let e := s.env; h.stage = some 2 ∧ h.down = false ∧ h.epochTaken = true ∧ (∀ v ∈ vitalUnits, e.connected v = true ∧
       b.unitReady e v = true ∧ v ∉ h.failed) ∧ (∀ v ∈ s3Units, e.connected v = true → b.unitSettled e v = true)) ∧
    (let s : State := chg (stg 3 (on (mem up))) fun b => (b.wr F.FE_LINK_STATE 0 2).wr F.FE_LINK_STATE 1 2; let b := s.blk; let h := b.harbour;
     let e := s.env; h.stage = some 3 ∧ h.down = false ∧ b.factory = false ∧ s.fuses.stage ≠ 3 ∧
       (∀ v ∈ s4Units, e.connected v = true → b.unitSettled e v = true) ∧ (b.link 0).startHalf = false) ∧
    (let s : State := stg 3 (mem up); let p : Nat := 2; let b := s.blk; let e := s.env; p < 8 ∧ e.memConnected p = true ∧ p ∉ b.ports.ready) ∧
    (let s : State := chg (stg 3 (mem { up with aon := ⟨9000000000, 1⟩ })) fun b => { b with ports := { b.ports with opened := [0,1] } };
     let u : OpenUnit := (.berth 7 : OpenUnit); let st : Nat := 3; let t : Nat := 8000000000; let b := s.blk; let h := b.harbour; let e := s.env;
     h.stage = some st ∧ openBound u st = some t ∧ h.released + t ≤ s.aon.ns ∧ u ∉ h.openUnits ∧ (e.connected u = true → b.unitReady e u = false) ∧
       u ∉ h.failed ∧ (e.connected u = true ∨ u ∈ vitalUnits) ∧ (st = 3 → b.factory = false ∧ s.fuses.stage ≠ 3)) := by
  iterate 10 refine And.intro (by decide +kernel) ?_
  decide +kernel

theorem test_hyp_UpdatesStageActivateAndReset :
    (let s : State := chg (mem up) fun b => { b with harbour := { b.harbour with stage := none, recovering := true, recovery := some (bndl, 256), sessions := [] } };
     let x : Bundle := bndl; let b := s.blk; let h := b.harbour; h.recovering = true ∧ x.accepted s.fuses = true) ∧
    (let s : State := chg (mem up) fun b => { b with harbour := { b.harbour with stage := none, recovering := true, recovery := some (bndl, 256), sessions := [] } };
     let x : Bundle := { bndl with sigOk := false }; let b := s.blk; let h := b.harbour; h.recovering = true ∧ x.accepted s.fuses = false) ∧
    (let s : State := chg (mem up) fun b => { b with harbour := { b.harbour with stage := none, recovering := true, recovery := some (bndl, 256), sessions := [] } };
     let x : Bundle := bndl; let off : Nat := 256; let n : Nat := 256; let data : List Byte := (List.replicate 256 5); let b := s.blk;
     let h := b.harbour; h.recovering = true ∧ h.recovery = some (x, n) ∧ n ≤ off ∧ data.length = 256 ∧ off + 256 ≤ 0x1000000 ∧ b.mayStore = true) ∧
    (let s : State := chg (mem up) fun b => { b with harbour := { b.harbour with stage := none, recovering := true, recovery := none, sessions := [] } };
     let x : Bundle := bndl; let off : Nat := 0; let n : Nat := 0; let data : List Byte := []; let b := s.blk; let h := b.harbour;
     h.recovering = true ∧ (h.recovery = none ∨ (h.recovery = some (x, n) ∧ (off < n ∨ data.length ≠ 256 ∨ 0x1000000 < off + 256)))) ∧
    (let s : State := chg (mem up) fun b => { b with harbour := { b.harbour with stage := none, recovering := true, recovery := some (bndl, 256), sessions := [] } };
     let x : Bundle := bndl; let n : Nat := 256; let b := s.blk; let h := b.harbour; h.recovering = true ∧ h.recovery = some (x, n) ∧
       x.hmDigestOk = true ∧ x.coreDigestOk = true ∧ x.ucodeDigestOk = true ∧ b.mayStore = true) ∧
    (let s : State := chg (mem up) fun b => { b with harbour := { b.harbour with stage := none, recovering := true, recovery := some ({ bndl with hmDigestOk := false }, 256), sessions := [] } };
     let x : Bundle := { bndl with hmDigestOk := false }; let n : Nat := 256; let b := s.blk; let h := b.harbour; h.recovering = true ∧
       h.recovery = some (x, n) ∧ (x.hmDigestOk = false ∨ x.coreDigestOk = false ∨ x.ucodeDigestOk = false) ∧ b.mayStore = true) ∧
    (let s : State := chg (mem up) fun b => { b with harbour := { b.harbour with stage := none, recovering := true, recovery := some (bndl, 256), sessions := [] }, hold := { b.hold with powerWarn := true } };
     let x : Bundle := bndl; let n : Nat := 256; let b := s.blk; let h := b.harbour; h.recovering = true ∧ h.recovery = some (x, n) ∧
       b.mayStore = false) ∧
    (let s : State := up; let b := s.blk; let h := b.harbour; h.recovering = false) ∧
    (let s : State := mem up; let m : Mgr := mg; let x : Bundle := bndl; let len : Nat := 200000; let b := s.blk; let h := b.harbour;
     let idle : Prop := ∀ z ∈ h.running, z.opcode ≠ 0x0501 ∧ z.opcode ≠ 0x0502 ∧ z.opcode ≠ 0x0503; MgrReady s m 0x0501 ∧ idle ∧ 0 < len ∧
       len ≤ 0x1000000 ∧ x.accepted s.fuses = true ∧ x.ucodeRelease = 0x00020001 ∧ b.mayStore = true) ∧
    (let s : State := mem up; let m : Mgr := mg; let x : Bundle := { bndl with sigOk := false }; let len : Nat := 200000; let b := s.blk;
     let h := b.harbour; let idle : Prop := ∀ z ∈ h.running, z.opcode ≠ 0x0501 ∧ z.opcode ≠ 0x0502 ∧ z.opcode ≠ 0x0503; MgrReady s m 0x0501 ∧ idle ∧
       0 < len ∧ len ≤ 0x1000000 ∧ x.accepted s.fuses = false) ∧
    (let s : State := chg (gjobC) fun b => { b with harbour := { b.harbour with staged := some true, bundleB := some bndl, bundleA := some { bndl with seq := 4 } } };
     let m : Mgr := mg; let x : Bundle := bndl; let slot : Bool := true; let b := s.blk; let h := b.harbour;
     let idle : Prop := ∀ z ∈ h.running, z.opcode ≠ 0x0501 ∧ z.opcode ≠ 0x0502 ∧ z.opcode ≠ 0x0503; MgrReady s m 0x0502 ∧ idle ∧
       h.staged = some slot ∧ h.bundle slot = some x ∧ (∀ y, h.bundle (!slot) = some y → y.seq < x.seq) ∧ 0 < x.seq ∧ x.hmDigestOk = true) ∧
    (let s : State := chg (gjobC) fun b => { b with harbour := { b.harbour with staged := some true, bundleB := some bndl, bundleA := some { bndl with seq := 4 } } };
     let m : Mgr := mg; let x : Bundle := bndl; let g : Nat := 0; let slot : Bool := true; let b := s.blk; let h := b.harbour;
     let idle : Prop := ∀ z ∈ h.running, z.opcode ≠ 0x0501 ∧ z.opcode ≠ 0x0502 ∧ z.opcode ≠ 0x0503; MgrReady s m 0x0502 ∧ idle ∧
       h.staged = some slot ∧ h.bundle slot = some x ∧ (∀ y, h.bundle (!slot) = some y → y.seq < x.seq) ∧ 0 < x.seq ∧ x.coreDigestOk = true ∧ g < 8 ∧
       (b.core g).failed = false) ∧
    (let s : State := chg (wjob) fun b => { b with harbour := { b.harbour with staged := some true, bundleB := some bndl, bundleA := some { bndl with seq := 4 } } };
     let m : Mgr := mg; let x : Bundle := bndl; let n : Nat := 0; let slot : Bool := true; let b := s.blk; let h := b.harbour;
     let idle : Prop := ∀ z ∈ h.running, z.opcode ≠ 0x0501 ∧ z.opcode ≠ 0x0502 ∧ z.opcode ≠ 0x0503; MgrReady s m 0x0502 ∧ idle ∧
       h.staged = some slot ∧ h.bundle slot = some x ∧ (∀ y, h.bundle (!slot) = some y → y.seq < x.seq) ∧ 0 < x.seq ∧ x.ucodeDigestOk = true ∧
       n < 16 ∧ b.bstate n = 1 ∧ (b.rd F.BW_PART_DRAINING (b.rd F.BT_STATE_PARTITION n)).testBit n = false) ∧
    (let s : State := mem up; let m : Mgr := mg; let img : CfgImage := cimg; let len : Nat := 200000; let b := s.blk; let h := b.harbour;
     let given : CfgImage := ⟨img.bytes.take len⟩; let idle : Prop := ∀ z ∈ h.running, z.opcode ≠ 0x0501 ∧ z.opcode ≠ 0x0502 ∧ z.opcode ≠ 0x0503;
     MgrReady s m 0x0503 ∧ idle ∧ 128 ≤ len ∧ len ≤ 0x1000000 ∧ given.hdr = 0 ∧ given.crcsOk = true ∧ b.mayStore = true) ∧
    (let s : State := mem up; let m : Mgr := mg; let img : CfgImage := ⟨[]⟩; let len : Nat := 128; let b := s.blk; let h := b.harbour;
     let given : CfgImage := ⟨img.bytes.take len⟩; let idle : Prop := ∀ z ∈ h.running, z.opcode ≠ 0x0501 ∧ z.opcode ≠ 0x0502 ∧ z.opcode ≠ 0x0503;
     MgrReady s m 0x0503 ∧ idle ∧ (given.hdr ≠ 0 ∨ given.crcsOk = false)) ∧
    (let s : State := mem up; let m : Mgr := mg; let len : Nat := 200000; MgrReady s m 0x0504 ∧ 6208 ≤ len) ∧
    (let s : State := mem pw; let m : Mgr := mg; let n : Nat := 0; let b := s.blk; MgrReady s m 0x0505 ∧ n < 16 ∧ (b.berth n).resetting = none ∧
       b.domUp n = true) ∧
    (let s : State := mem gjobC; let m : Mgr := mg; let g : Nat := 0; let b := s.blk; MgrReady s m 0x0505 ∧ g < 8 ∧ (b.core g).resetStep = none ∧
       (b.core g).on = true) ∧
    (let s : State := mem up; let m : Mgr := mg; let b := s.blk; MgrReady s m 0x0505 ∧ b.dumpable s.env = true ∧ b.hold.dumpQueue = []) ∧
    (let s : State := mem up; let m : Mgr := mg; let field : Nat := 0x0701; let v : Int := 3; let lo : Int := -64; let hi : Int := 63;
     let mult : Int := 1; let dflt : Int := 0; MgrReady s m 0x0506 ∧ 0x0700 ≤ field ∧ field ≤ 0x072F ∧ fieldDef field = some (.int lo hi mult dflt) ∧
       lo ≤ v ∧ v ≤ hi ∧ v % mult = 0) ∧
    (let s : State := mem up; let m : Mgr := mg; let field : Nat := 0x0701; let v : Int := 70; let lo : Int := -64; let hi : Int := 63;
     let mult : Int := 1; let dflt : Int := 0; MgrReady s m 0x0506 ∧ 0x0700 ≤ field ∧ field ≤ 0x072F ∧ fieldDef field = some (.int lo hi mult dflt) ∧
       hi < v) ∧
    (let s : State := mem up; let m : Mgr := mg; MgrReady s m 0x0507) ∧
    (let s : State := chg up fun b => { b with harbour := { b.harbour with xspi := some 4, xspiGap := true } }; let n : Nat := 4; let b := s.blk;
     let h := b.harbour; h.xspi = some n ∧ h.xspiGap = true) ∧
    (let s : State := chg (up) fun b => { b with harbour := { b.harbour with xspi := some 4 } }; let n : Nat := 4; let b := s.blk; let h := b.harbour;
     h.xspi = some n ∧ h.xspiGap = false ∧ 1 < n ∧ b.mayStore = true) ∧
    (let s : State := chg up fun b => { b with harbour := { b.harbour with xspi := some 3 }, hold := { b.hold with powerWarn := true } };
     let n : Nat := 3; let b := s.blk; let h := b.harbour; h.xspi = some n ∧ h.xspiGap = false ∧ 1 < n ∧ b.mayStore = false) ∧
    (let s : State := chg (mem up) fun b => { b with harbour := { b.harbour with stage := none, xspi := some 1, writingBundle := some bndl, recovering := true, recovery := some (bndl, 256), sessions := [] } };
     let x : Bundle := bndl; let n : Nat := 1; let b := s.blk; let h := b.harbour; h.xspi = some n ∧ h.xspiGap = false ∧ n = 1 ∧
       h.recovering = true ∧ h.writingBundle = some x) ∧
    (let s : State := mem (chg (up) fun b => { b with harbour := { b.harbour with xspi := some 1, writingBundle := some bndl, running := [⟨mg, 0x0501, [], 0, false, 1000000000⟩] } });
     let x : Bundle := bndl; let n : Nat := 1; let r : Running := (⟨mg, 0x0501, [], 0, false, 1000000000⟩ : Running); let b := s.blk;
     let h := b.harbour; h.xspi = some n ∧ h.xspiGap = false ∧ n = 1 ∧ h.recovering = false ∧ h.writingBundle = some x ∧ h.running = [r] ∧
       r.opcode = 0x0501 ∧ r.late = false ∧ (tget h.sessions r.m.session).isSome = true) ∧
    (let s : State := mem (chg (up) fun b => { b with harbour := { b.harbour with xspi := some 1, writingImage := some cimg, running := [⟨mg, 0x0503, [], 0, false, 1000000000⟩] } });
     let img : CfgImage := cimg; let n : Nat := 1; let r : Running := (⟨mg, 0x0503, [], 0, false, 1000000000⟩ : Running); let b := s.blk;
     let h := b.harbour; h.xspi = some n ∧ h.xspiGap = false ∧ n = 1 ∧ h.writingBundle = none ∧ h.writingImage = some img ∧ h.running = [r] ∧
       r.opcode = 0x0503 ∧ r.late = false ∧ (tget h.sessions r.m.session).isSome = true) ∧
    (let s : State := chg (up) fun b => { b with harbour := { b.harbour with running := [⟨mg, 0x0501, [], 1000000000, false, 5⟩] } };
     let seq : Nat := 9; let r : Running := (⟨mg, 0x0501, [], 1000000000, false, 5⟩ : Running); let b := s.blk; let h := b.harbour; h.down = false ∧
       h.running = [r] ∧ r.m.seq = seq ∧ r.late = false ∧ r.opcode ≠ 0x0108 ∧ (tget h.sessions r.m.session).isSome = true ∧
       r.since + 1000000000 ≤ s.aon.ns) ∧
    (let s : State := chg (up) fun b => { b with harbour := { b.harbour with running := [⟨mg, 0x0501, [], 1500000000, false, 5⟩] } };
     let seq : Nat := 9; let r : Running := (⟨mg, 0x0501, [], 1500000000, false, 5⟩ : Running); let b := s.blk; let h := b.harbour; h.down = false ∧
       h.running = [r] ∧ r.m.seq = seq ∧ r.late = false ∧ r.opcode ≠ 0x0108 ∧ (tget h.sessions r.m.session).isSome = true ∧
       s.aon.ns < r.since + 1000000000) := by
  iterate 29 refine And.intro (by decide +kernel) ?_
  decide +kernel

theorem test_hyp_HangsResetsAndSuspects :
    (let s : State := up; let b := s.blk; b.hangCycles = []) ∧
    (let s : State := chg (jobFences sl [(2, fence3), (3, fence3)]) fun b => { b with quay := { b.quay with cmds := [(5, { cmd with ph := .waiting, units := [], sync := ⟨some (3, 5), none, some (2, 5)⟩ }), (6, { cmd with ph := .waiting, units := [], sync := ⟨some (2, 5), none, some (3, 5)⟩ })], nextCmd := 7 } };
     let cyc : List (Nat × Nat) := [(0, 5), (0, 6)]; let b := s.blk; b.hangCycles = [cyc] ∧ (∀ q ∈ b.log.hangs, q.1 ≠ cyc)) ∧
    (let s : State := chg pw fun b => { b with berths := [(0, { Berth.reset with stream := some stream, opened := true, progress := 0 })] };
     let n : Nat := 0; let b := s.blk; let e := s.env; n < 16 ∧ b.domUp n = true ∧ b.berthHung e n = true) ∧
    (let s : State := chg pw fun b => { b with berths := [(0, { Berth.reset with stream := some stream, opened := true, progress := 2000000000 })] };
     let n : Nat := 0; let b := s.blk; let e := s.env; n < 16 ∧ b.domUp n = true ∧ b.berthHung e n = false) ∧
    (let s : State := chg (gjobC) fun b => { b with cores := [(0, { Core.reset with on := true, task := some 5, progress := 0 })] }; let g : Nat := 0;
     let b := s.blk; let e := s.env; g < 8 ∧ (b.core g).on = true ∧ b.coreHung e g = true) ∧
    (let s : State := gjobC; let g : Nat := 0; let b := s.blk; g < 8 ∧ (b.core g).on = true ∧ (b.core g).resetStep = none) ∧
    (let s : State := chg (chg pw fun b => { b with quay := { b.quay with cmds := [] } }) fun b => { b.wr F.BT_STATE_STATE 0 8 with berths := [(0, { Berth.reset with resetting := some ⟨1, 0, 0, [], none⟩ })] };
     let n : Nat := 0; let r : BReset := (⟨1, 0, 0, [], none⟩ : BReset); let b := s.blk; b.harbour.down = false ∧ n < 16 ∧
       (b.berth n).resetting = some r ∧ r.step = 1) ∧
    (let s : State := chg (chg pw fun b => { b with quay := { b.quay with cmds := [] } }) fun b => { b.wr F.BT_STATE_STATE 0 8 with berths := [(0, { Berth.reset with resetting := some ⟨2, 0, 0, [], none⟩ })] };
     let n : Nat := 0; let r : BReset := (⟨2, 0, 0, [], none⟩ : BReset); let b := s.blk; b.harbour.down = false ∧ n < 16 ∧
       (b.berth n).resetting = some r ∧ r.step = 2) ∧
    (let s : State := chg (chg pw fun b => { b with quay := { b.quay with cmds := [] } }) fun b => { b.wr F.BT_STATE_STATE 0 8 with berths := [(0, { Berth.reset with resetting := some ⟨2, 0, 0, [], none⟩ })] };
     let n : Nat := 0; let r : BReset := (⟨2, 0, 0, [], none⟩ : BReset); let b := s.blk; b.harbour.down = false ∧ n < 16 ∧
       (b.berth n).resetting = some r ∧ r.step ≤ 2 ∧ (b.berth n).stream = none ∧ (b.berth n).occupants = []) ∧
    (let s : State := chg (chg pw fun b => { b with quay := { b.quay with cmds := [] } }) fun b => { b.wr F.BT_STATE_STATE 0 8 with berths := [(0, { Berth.reset with resetting := some ⟨3, 0, 0, [], none⟩ })] };
     let n : Nat := 0; let r : BReset := (⟨3, 0, 0, [], none⟩ : BReset); let b := s.blk; b.harbour.down = false ∧ n < 16 ∧
       (b.berth n).resetting = some r ∧ r.step = 3 ∧ (b.berth n).stream = none ∧ (b.berth n).occupants = []) ∧
    (let s : State := chg (gsl) fun b => { b with cores := [(0, { Core.reset with on := true, resetStep := some (1, 9) })] }; let g : Nat := 0;
     let t : Nat := 9; let b := s.blk; b.harbour.down = false ∧ g < 8 ∧ (b.core g).resetStep = some (1, t)) ∧
    (let s : State := chg (gsl) fun b => { b with cores := [(0, { Core.reset with on := true, resetStep := some (3, 9) })] }; let g : Nat := 0;
     let t : Nat := 9; let b := s.blk; b.harbour.down = false ∧ g < 8 ∧ (b.core g).resetStep = some (3, t) ∧ (b.core g).on = true) ∧
    (let s : State := mem (chg (up) fun b => { b with harbour := { b.harbour with down := true, sessions := [], lease := none, stage := some 4, running := [⟨mg, 0x0108, [], 0, false, 5⟩, ⟨mg, 0x0501, [], 0, false, 5⟩] } });
     let slot : Bool := false; let y : Bundle := bndl; let b := s.blk; b.harbour.down = true ∧ b.harbour.bootChoice s.fuses = some (slot, y)) ∧
    (let s : State := chg (invd ijob [inval] []) fun b => { b with power := { b.power with pdUp := 2 ^ 34 - 1 } }; let n : Nat := 0;
     let h : Holder := (.engine 0 0 : Holder); let i : Inval := inval; let b := s.blk; n < 16 ∧ b.domUp n = true ∧ (b.berth n).resetting = none ∧
       b.pilot.invals.head? = some i ∧ h = .engine n 0 ∧ h ∈ i.waiting ∧ i.since + 3000 ≤ s.aon.ns) ∧
    (let s : State := chg (qjob) fun b => { b with quay := { b.quay with cmds := [(5, { cmd with suspect := 1, since := 0 })] }, berths := [(0, { Berth.reset with suspects := [7], opened := true })] };
     let k : Nat := 7; let c : Nat := 5; let x : Cmd := { cmd with suspect := 1, since := 0 }; let b := s.blk; k < 4096 ∧ b.quay.cmds = [(c, x)] ∧
       x.suspect = 1 ∧ x.hdr.ctx = k) ∧
    (let s : State := chg (qjob) fun b => { b with quay := { b.quay with cmds := [(5, { cmd with suspect := 2, since := 0 })] }, berths := [(0, { Berth.reset with suspects := [7], opened := true })] };
     let n : Nat := 0; let k : Nat := 7; let c : Nat := 5; let x : Cmd := { cmd with suspect := 2, since := 0 };
     let w : Berth := { Berth.reset with suspects := [7], opened := true }; let b := s.blk; k < 4096 ∧ b.quay.cmds = [(c, x)] ∧ x.suspect = 2 ∧
       x.hdr.ctx = k ∧ x.ph = .running ∧ x.since + 1000 * b.rd F.BW_SCHED_QUANTUM (b.cmdPart x) ≤ s.aon.ns ∧ b.berths = [(n, w)] ∧ w.suspects = [k] ∧
       w.guilty = false ∧ w.unattributed = []) ∧
    (let s : State := chg (qjob) fun b => { b with quay := { b.quay with cmds := [(5, { cmd with suspect := 2, since := 2000000000 })] }, berths := [(0, { Berth.reset with suspects := [7], opened := true })] };
     let k : Nat := 7; let c : Nat := 5; let x : Cmd := { cmd with suspect := 2, since := 2000000000 }; let b := s.blk; k < 4096 ∧
       b.quay.cmds = [(c, x)] ∧ x.suspect = 2 ∧ x.hdr.ctx = k ∧ x.ph = .running ∧ s.aon.ns < x.since + 1000 * b.rd F.BW_SCHED_QUANTUM (b.cmdPart x)) ∧
    (let s : State := chg job fun b => { b with ports := { b.ports with out := [(3, mreq)] } }; let p : Nat := 0; let c : Nat := 3;
     let z : MemReq := mreq; let b := s.blk; p < 8 ∧ p ∉ b.ports.isolated ∧ (c, z) ∈ b.ports.out ∧ z.port = p ∧ z.since + 1000000 ≤ s.aon.ns) ∧
    (let s : State := chg job fun b => { b with ports := { b.ports with out := [(3, { mreq with since := 2000000000 })] } }; let p : Nat := 0;
     let c : Nat := 3; let z : MemReq := { mreq with since := 2000000000 }; let b := s.blk; p < 8 ∧ p ∉ b.ports.isolated ∧ (c, z) ∈ b.ports.out ∧
       z.port = p ∧ b.ports.out = [(c, z)] ∧ s.aon.ns < z.since + 1000000) := by
  iterate 18 refine And.intro (by decide +kernel) ?_
  decide +kernel

theorem test_hyp_HangsResetsAndSuspects_2 :
    (let s : State := chg (chg (jobFences sl [(2, fence3), (3, fence3)]) fun b => { b with quay := { b.quay with cmds := [(5, { cmd with ph := .waiting, units := [], sync := ⟨some (3, 5), none, some (2, 5)⟩ }), (6, { cmd with ph := .waiting, units := [], sync := ⟨some (2, 5), none, some (3, 5)⟩ })], nextCmd := 7 } }) fun b => { b with log := { b.log with hangs := [([(0, 5), (0, 6)], 2)] } };
     let c : Nat := 6; let cyc : List (Nat × Nat) := [(0, 5), (0, 6)];
     let x : Cmd := { cmd with ph := .waiting, units := [], sync := ⟨some (2, 5), none, some (3, 5)⟩ }; let b := s.blk; b.hangCycles = [cyc] ∧
       b.log.hangs = [(cyc, 2)] ∧ c = (cyc.map (·.2)).foldl max 0 ∧ tget b.quay.cmds c = some x ∧ x.ph = .waiting ∧
       (∀ v ∈ cyc, ∃ q j, tget b.quay.cmds v.2 = some q ∧ tget b.quay.ctxs q.hdr.ctx = some j ∧ j.st = .live)) := by
  and_intros
  all_goals first | decide +kernel | (intro v h; simp at h; rcases h with rfl | rfl <;> exact ⟨_, _, rfl, rfl, rfl⟩)

theorem test_hyp_HangsResetsAndSuspects_20 :
    (let s : State := chg hsl fun b => { b with hold := { b.hold with dumpQueue := [dmp], dumpWriting := true } }; let d : Dump := dmp;
     let l : List Dump := ([] : List Dump); let b := s.blk; b.hold.dumpQueue = d :: l ∧ b.hold.dumpWriting = true ∧ (∀ q ∈ b.hold.dumps, q.1 < 8) ∧
       (∀ ch, ch < 2 → ∀ i w, .dump i w ∉ (b.chan ch).ops)) := by
  and_intros
  all_goals first | decide +kernel | (intro ch h i w hm; interval_cases ch <;> cases hm)

theorem test_hyp_BellRoutesAndMailboxesPass :
    (let who : Agent := (.core 2 : Agent); let v : Word := 300; let src := F.BL_RAISE_SOURCE.of v; agentOk who = true ∧ 256 ≤ src) ∧
    (let who : Agent := (.core 2 : Agent); let v : Word := 200; let src := F.BL_RAISE_SOURCE.of v; agentOk who = true ∧ src < 256) ∧
    (let s : State := chg (chg (up) fun b => (((b.wr F.BL_TARGET_TARGET 299 2).wr F.BL_TARGET_CLASS 299 0).wr F.BL_TARGET_PRIORITY 299 2).wr F.BL_TARGET_STATE 299 1) fun b => (((b.wr F.BL_TARGET_TARGET 300 2).wr F.BL_TARGET_CLASS 300 0).wr F.BL_TARGET_PRIORITY 300 3).wr F.BL_TARGET_STATE 300 1;
     let who : Agent := (.core 2 : Agent); let n : Nat := 300; let t : Nat := 2; let fast : Bool := false; let b := s.blk;
     let st (b : Block) (k : Nat) : Nat := b.rd F.BL_TARGET_STATE k;
     let pending (k : Nat) : Prop := st b k = 1 ∧ b.rd F.BL_TARGET_TARGET k = t ∧ b.rd F.BL_TARGET_CLASS k = fast.toNat; agentOk who = true ∧
       t = targetOf who ∧ n < 1024 ∧ pending n ∧
       (∀ k, k < 1024 → pending k → b.rd F.BL_TARGET_PRIORITY k < b.rd F.BL_TARGET_PRIORITY n ∨ (b.rd F.BL_TARGET_PRIORITY k = b.rd F.BL_TARGET_PRIORITY n ∧
       n ≤ k))) ∧
    (let s : State := up; let who : Agent := (.core 2 : Agent); let t : Nat := 2; let fast : Bool := false; let b := s.blk;
     let st (b : Block) (k : Nat) : Nat := b.rd F.BL_TARGET_STATE k;
     let pending (k : Nat) : Prop := st b k = 1 ∧ b.rd F.BL_TARGET_TARGET k = t ∧ b.rd F.BL_TARGET_CLASS k = fast.toNat; agentOk who = true ∧
       t = targetOf who ∧ (∀ k, k < 1024 → ¬ pending k)) ∧
    (let s : State := chg (up) fun b => (((b.wr F.BL_TARGET_TARGET 300 2).wr F.BL_TARGET_CLASS 300 0).wr F.BL_TARGET_PRIORITY 300 1).wr F.BL_TARGET_STATE 300 2;
     let who : Agent := (.core 2 : Agent); let v : Word := 300; let t : Nat := 2; let fast : Bool := false; let b := s.blk;
     let done := F.BL_COMPLETE_SOURCE.of v; let st (b : Block) (k : Nat) : Nat := b.rd F.BL_TARGET_STATE k; agentOk who = true ∧ t = targetOf who ∧
       b.rd F.BL_TARGET_TARGET done = t ∧ b.rd F.BL_TARGET_CLASS done = fast.toNat ∧ st b done = 2) ∧
    (let s : State := chg (up) fun b => (((b.wr F.BL_TARGET_TARGET 300 2).wr F.BL_TARGET_CLASS 300 0).wr F.BL_TARGET_PRIORITY 300 1).wr F.BL_TARGET_STATE 300 3;
     let who : Agent := (.core 2 : Agent); let v : Word := 300; let t : Nat := 2; let fast : Bool := false; let b := s.blk;
     let done := F.BL_COMPLETE_SOURCE.of v; let st (b : Block) (k : Nat) : Nat := b.rd F.BL_TARGET_STATE k; agentOk who = true ∧ t = targetOf who ∧
       b.rd F.BL_TARGET_TARGET done = t ∧ b.rd F.BL_TARGET_CLASS done = fast.toNat ∧ st b done = 3) ∧
    (let s : State := chg (up) fun b => (((b.wr F.BL_TARGET_TARGET 300 2).wr F.BL_TARGET_CLASS 300 0).wr F.BL_TARGET_PRIORITY 300 1).wr F.BL_TARGET_STATE 300 1;
     let who : Agent := (.core 2 : Agent); let v : Word := 300; let t : Nat := 2; let fast : Bool := false; let b := s.blk;
     let done := F.BL_COMPLETE_SOURCE.of v; let st (b : Block) (k : Nat) : Nat := b.rd F.BL_TARGET_STATE k; agentOk who = true ∧ t = targetOf who ∧
       b.rd F.BL_TARGET_TARGET done = t ∧ b.rd F.BL_TARGET_CLASS done = fast.toNat ∧ st b done < 2) ∧
    (let who : Agent := (.core 2 : Agent); let t : Nat := 3; agentOk who = true ∧ t ≠ targetOf who) ∧
    (let s : State := up; let v : Word := 0x30402; let n : Nat := 300; let b := s.blk; let st (b : Block) (k : Nat) : Nat := b.rd F.BL_TARGET_STATE k;
     n < 1024 ∧ F.BL_TARGET_TARGET.of v < 10 ∧ st b n = 0) ∧
    (let s : State := chg (up) fun b => (((b.wr F.BL_TARGET_TARGET 300 3).wr F.BL_TARGET_CLASS 300 0).wr F.BL_TARGET_PRIORITY 300 1).wr F.BL_TARGET_STATE 300 2;
     let v : Word := 0x30402; let n : Nat := 300; let b := s.blk; let st (b : Block) (k : Nat) : Nat := b.rd F.BL_TARGET_STATE k; n < 1024 ∧
       F.BL_TARGET_TARGET.of v < 10 ∧ st b n ≠ 0 ∧
       (b.rd F.BL_TARGET_TARGET n ≠ F.BL_TARGET_TARGET.of v ∨ b.rd F.BL_TARGET_CLASS n ≠ F.BL_TARGET_CLASS.of v)) ∧
    (let s : State := chg (up) fun b => ((b.wr F.BL_TARGET_TARGET 300 2).wr F.BL_TARGET_PRIORITY 300 1).wr F.BL_TARGET_STATE 300 2;
     let v : Word := 0x30402; let n : Nat := 300; let b := s.blk; n < 1024 ∧ F.BL_TARGET_TARGET.of v < 10 ∧
       b.rd F.BL_TARGET_TARGET n = F.BL_TARGET_TARGET.of v ∧ b.rd F.BL_TARGET_CLASS n = F.BL_TARGET_CLASS.of v) ∧
    (let v : Word := 0x30402; let n : Nat := 300; let t : Nat := 2; n < 1024 ∧ F.BL_TARGET_TARGET.of v < 10 ∧ t < 8) ∧
    (let s : State := chg (hup up) fun b => let b : Block := b; b.wr F.MB_STATE_STATE 3 3; let ch : Nat := 3; let byHost : Bool := true;
     let frame : List Byte := [1,2,3]; let b := s.blk; let box (b : Block) (k : Nat) : Nat := b.rd F.MB_STATE_STATE k; ch < 8 ∧
       (byHost = true → ch ≠ 1 ∧ b.hostUp = true) ∧ byHost = b.hostIsA ch ∧ frame.length ≤ boxBytes ch ∧ (box b ch = 0 ∨ box b ch = 3)) ∧
    (let s : State := chg (hup up) fun b => let b : Block := b; b.wr F.MB_STATE_STATE 3 2; let ch : Nat := 3; let byHost : Bool := true;
     let frame : List Byte := [1,2,3]; let b := s.blk; let box (b : Block) (k : Nat) : Nat := b.rd F.MB_STATE_STATE k; ch < 8 ∧
       (byHost = true → ch ≠ 1 ∧ b.hostUp = true) ∧ byHost = b.hostIsA ch ∧ frame.length ≤ boxBytes ch ∧ (box b ch = 1 ∨ box b ch = 2)) ∧
    (let s : State := up; let ch : Nat := 3; let byHost : Bool := false; let b := s.blk; ch < 8 ∧ (byHost = true → ch ≠ 1 ∧ b.hostUp = true) ∧
       byHost ≠ b.hostIsA ch) ∧
    (let s : State := chg (up) fun b => let b : Block := b; b.wr F.MB_STATE_STATE 3 1; let ch : Nat := 3; let byHost : Bool := false; let b := s.blk;
     let box (b : Block) (k : Nat) : Nat := b.rd F.MB_STATE_STATE k; ch < 8 ∧ (byHost = true → ch ≠ 1 ∧ b.hostUp = true) ∧ byHost = b.hostIsB ch ∧
       ch ≠ 0 ∧ box b ch = 1) ∧
    (let s : State := chg (up) fun b => let b : Block := { b with boxes := [(0, { Mailbox.reset with buf := [0,0,16,0,1,2,3,4,0,0,0,0] })] };
     b.wr F.MB_STATE_STATE 0 1; let ch : Nat := 0; let byHost : Bool := false; let b := s.blk;
     let box (b : Block) (k : Nat) : Nat := b.rd F.MB_STATE_STATE k; let frameLen := b.boxField 0 2 2; ch < 8 ∧ (byHost = true → ch ≠ 1 ∧
       b.hostUp = true) ∧ byHost = b.hostIsB ch ∧ ch = 0 ∧ b.hmUp = true ∧ box b 0 = 1 ∧ frameLen ≤ 1968 ∧ b.boxField 0 10 2 / 4 % 2 = 0 ∧
       (tgetD b.boxes 0 Mailbox.reset).gather = none) ∧
    (let s : State := chg (up) fun b => let b : Block := { b with boxes := [(0, { Mailbox.reset with buf := [0,0,255,255,1,2,3,4,0,0,0,0] })] };
     b.wr F.MB_STATE_STATE 0 1; let ch : Nat := 0; let byHost : Bool := false; let b := s.blk;
     let box (b : Block) (k : Nat) : Nat := b.rd F.MB_STATE_STATE k; let frameLen := b.boxField 0 2 2; ch < 8 ∧ (byHost = true → ch ≠ 1 ∧
       b.hostUp = true) ∧ byHost = b.hostIsB ch ∧ ch = 0 ∧ b.hmUp = true ∧ box b 0 = 1 ∧ 1968 < frameLen) ∧
    (let s : State := up; let ch : Nat := 3; let byHost : Bool := false; let b := s.blk;
     let box (b : Block) (k : Nat) : Nat := b.rd F.MB_STATE_STATE k; ch < 8 ∧ (byHost = true → ch ≠ 1 ∧ b.hostUp = true) ∧ byHost = b.hostIsB ch ∧
       box b ch ≠ 1 ∧ (ch = 0 → b.hmUp = true)) ∧
    (let s : State := chg (up) fun b => let b : Block := { b with boxes := [(3, { Mailbox.reset with buf := [0,0,16,0,1,2,3,4,0,0,0,0] })] };
     b.wr F.MB_STATE_STATE 3 2; let ch : Nat := 3; let byHost : Bool := false; let b := s.blk;
     let box (b : Block) (k : Nat) : Nat := b.rd F.MB_STATE_STATE k; ch < 8 ∧ (byHost = true → ch ≠ 1 ∧ b.hostUp = true) ∧ byHost = b.hostIsB ch ∧
       (ch = 0 → b.hmUp = true) ∧ box b ch = 2) ∧
    (let s : State := chg (hup up) fun b => let b : Block := { b with boxes := [(3, { Mailbox.reset with buf := [0,0,16,0,1,2,3,4,0,0,0,0] })] };
     b.wr F.MB_STATE_STATE 3 1; let ch : Nat := 3; let byHost : Bool := true; let b := s.blk;
     let box (b : Block) (k : Nat) : Nat := b.rd F.MB_STATE_STATE k; ch < 8 ∧ (byHost = true → ch ≠ 1 ∧ b.hostUp = true) ∧ box b ch = 1 ∧
       (tgetD b.boxes ch Mailbox.reset).posted + b.rd F.MB_CFG_TIMEOUT_US ch * 1000 ≤ s.aon.ns) ∧
    (let s : State := hup up; let ch : Nat := 3; let byHost : Bool := true; let b := s.blk;
     let box (b : Block) (k : Nat) : Nat := b.rd F.MB_STATE_STATE k; ch < 8 ∧ (byHost = true → ch ≠ 1 ∧ b.hostUp = true) ∧ box b ch ≠ 1) ∧
    (let s : State := chg (up) fun b => { b with harbour := { b.harbour with pieces := [(1, 9 :: 0 :: List.range 300)] } }; let m : Mgr := mg;
     let rc : Nat := 0; let d : List Nat := (List.range 300); let b := s.blk; b.harbour.down = false ∧
       (tget b.harbour.sessions m.session).isSome = true ∧ tget b.harbour.pieces m.session = some (m.seq :: rc :: d)) ∧
    (let s : State := up; let m : Mgr := mg; let b := s.blk; b.harbour.down = false ∧ (tget b.harbour.sessions m.session).isSome = true ∧
       tget b.harbour.pieces m.session = none) ∧
    (let s : State := sl; let m : Mgr := mg; let ch : Nat := 3; let vec : Nat := 5; let us : Nat := 50; let b := s.blk;
     let box (b : Block) (k : Nat) : Nat := b.rd F.MB_STATE_STATE k; MgrReady s m 0x0509 ∧ ch < 8 ∧ vec < 2048 ∧ ch ≠ 0 ∧ box b ch ≠ 1 ∧
       box b ch ≠ 2 ∧ (∀ x ∈ b.quay.slices, ¬ (x.2.msixBase ≤ vec ∧ vec < x.2.msixBase + x.2.msixCount)) ∧ 10 ≤ us ∧ us ≤ 100000) ∧
    (let s : State := chg (up) fun b => let b : Block := b; b.wr F.MB_STATE_STATE 3 1; let m : Mgr := mg; let ch : Nat := 3; let vec : Nat := 5;
     let b := s.blk; let box (b : Block) (k : Nat) : Nat := b.rd F.MB_STATE_STATE k; MgrReady s m 0x0509 ∧ ch < 8 ∧ vec < 2048 ∧ ch ≠ 0 ∧ box b ch = 1) ∧
    (let s : State := up; let m : Mgr := mg; let ch : Nat := 0; let vec : Nat := 5; MgrReady s m 0x0509 ∧ ch < 8 ∧ vec < 2048 ∧ ch = 0) := by
  iterate 26 refine And.intro (by decide +kernel) ?_
  decide +kernel

theorem test_hyp_LogbookIsReadAndRouted :
    (let s : State := chg (sl) fun b => { b with log := { b.log with alarms := [(⟨0x0006, 0, 2, 3, 2, (⟨5, 0, 0x1001, 1, 0, 1, 2, some 3, 7, [1, 2]⟩ : LogRec), (⟨5, 0, 0x1001, 1, 0, 1, 2, some 3, 7, [1, 2]⟩ : LogRec), none, true⟩ : Alarm), (⟨0x0006, 0, 2, 3, 2, (⟨5, 0, 0x1001, 1, 0, 1, 2, some 3, 7, [1, 2]⟩ : LogRec), (⟨5, 0, 0x1001, 1, 0, 1, 2, some 3, 7, [1, 2]⟩ : LogRec), none, false⟩ : Alarm)] } };
     let src : Nat := 0;
     let a : Alarm := (⟨0x0006, 0, 2, 3, 2, (⟨5, 0, 0x1001, 1, 0, 1, 2, some 3, 7, [1, 2]⟩ : LogRec), (⟨5, 0, 0x1001, 1, 0, 1, 2, some 3, 7, [1, 2]⟩ : LogRec), none, true⟩ : Alarm);
     let b := s.blk; b.log.alarms[src]? = some a ∧ a.owed = true ∧ (∀ t, a.notified = some t → t + 1000000 * b.rd F.LB_CTL_NOTIFY_MS ≤ s.aon.ns)) ∧
    (let s : State := chg (sl) fun b => { b with log := { b.log with alarms := [(⟨0x0006, 0, 2, 3, 2, (⟨5, 0, 0x1001, 1, 0, 1, 2, some 3, 7, [1, 2]⟩ : LogRec), (⟨5, 0, 0x1001, 1, 0, 1, 2, some 3, 7, [1, 2]⟩ : LogRec), none, true⟩ : Alarm), (⟨0x0006, 0, 2, 3, 2, (⟨5, 0, 0x1001, 1, 0, 1, 2, some 3, 7, [1, 2]⟩ : LogRec), (⟨5, 0, 0x1001, 1, 0, 1, 2, some 3, 7, [1, 2]⟩ : LogRec), none, false⟩ : Alarm)] } };
     let src : Nat := 1;
     let a : Alarm := (⟨0x0006, 0, 2, 3, 2, (⟨5, 0, 0x1001, 1, 0, 1, 2, some 3, 7, [1, 2]⟩ : LogRec), (⟨5, 0, 0x1001, 1, 0, 1, 2, some 3, 7, [1, 2]⟩ : LogRec), none, false⟩ : Alarm);
     let b := s.blk; b.log.alarms[src]? = some a ∧ a.owed = false) ∧
    (let s : State := chg (sl) fun b => { b with log := { b.log with alarms := [(⟨0x0006, 0, 2, 3, 2, (⟨5, 0, 0x1001, 1, 0, 1, 2, some 3, 7, [1, 2]⟩ : LogRec), (⟨5, 0, 0x1001, 1, 0, 1, 2, some 3, 7, [1, 2]⟩ : LogRec), some 2000000000, true⟩ : Alarm)] } };
     let src : Nat := 0;
     let a : Alarm := (⟨0x0006, 0, 2, 3, 2, (⟨5, 0, 0x1001, 1, 0, 1, 2, some 3, 7, [1, 2]⟩ : LogRec), (⟨5, 0, 0x1001, 1, 0, 1, 2, some 3, 7, [1, 2]⟩ : LogRec), some 2000000000, true⟩ : Alarm);
     let t := 2000000000; let b := s.blk; b.log.alarms[src]? = some a ∧ a.notified = some t ∧ s.aon.ns < t + 1000000 * b.rd F.LB_CTL_NOTIFY_MS) ∧
    (let s : State := chg (sl) fun b => { b with log := { b.log with events := [(⟨5, 0, 0x1001, 1, 0, 1, 2, some 3, 7, [1, 2]⟩ : LogRec), (⟨5, 0, 0x1001, 1, 0, 1, 2, some 3, 7, [1, 2]⟩ : LogRec)] } };
     let m : Mgr := mg; let first : Nat := 0; let len : Nat := 4096; let b := s.blk; MgrReady s m 0x0681 ∧ len ≤ 0x4000000 ∧
       first = ((b.log.events.head?.map (·.seq)).getD 0) ∧ first < 2 ^ 32) ∧
    (let s : State := chg (sl) fun b => { b with log := { b.log with traces := [(⟨5, 0, 0x1001, 1, 0, 1, 2, some 3, 7, [1, 2]⟩ : LogRec), (⟨5, 0, 0x1001, 1, 0, 1, 2, some 3, 7, [1, 2]⟩ : LogRec)] } };
     let m : Mgr := mg; let first : Nat := 0; let len : Nat := 4096; let b := s.blk; MgrReady s m 0x0681 ∧ len ≤ 0x4000000 ∧
       first = ((b.log.traces.head?.map (·.seq)).getD 0) ∧ first < 2 ^ 32) ∧
    (let s : State := chg (sl) fun b => { b with log := { b.log with alarms := [(⟨0x0006, 0, 2, 3, 2, (⟨5, 0, 0x1001, 1, 0, 1, 2, some 3, 7, [1, 2]⟩ : LogRec), (⟨5, 0, 0x1001, 1, 0, 1, 2, some 3, 7, [1, 2]⟩ : LogRec), none, true⟩ : Alarm), (⟨0x0006, 0, 2, 3, 2, (⟨5, 0, 0x1001, 1, 0, 1, 2, some 3, 7, [1, 2]⟩ : LogRec), (⟨5, 0, 0x1001, 1, 0, 1, 2, some 3, 7, [1, 2]⟩ : LogRec), none, false⟩ : Alarm)] } };
     let m : Mgr := mg; let cls : Nat := 5; let len : Nat := 4096; MgrReady s m 0x0681 ∧ len ≤ 0x4000000 ∧ 2 < cls) ∧
    (let s : State := chg (sl) fun b => { b with log := { b.log with alarms := [(⟨0x0006, 0, 2, 3, 2, (⟨5, 0, 0x1001, 1, 0, 1, 2, some 3, 7, [1, 2]⟩ : LogRec), (⟨5, 0, 0x1001, 1, 0, 1, 2, some 3, 7, [1, 2]⟩ : LogRec), none, true⟩ : Alarm), (⟨0x0006, 0, 2, 3, 2, (⟨5, 0, 0x1001, 1, 0, 1, 2, some 3, 7, [1, 2]⟩ : LogRec), (⟨5, 0, 0x1001, 1, 0, 1, 2, some 3, 7, [1, 2]⟩ : LogRec), none, false⟩ : Alarm)] } };
     let m : Mgr := mg; let src : Nat := 0;
     let a : Alarm := (⟨0x0006, 0, 2, 3, 2, (⟨5, 0, 0x1001, 1, 0, 1, 2, some 3, 7, [1, 2]⟩ : LogRec), (⟨5, 0, 0x1001, 1, 0, 1, 2, some 3, 7, [1, 2]⟩ : LogRec), none, true⟩ : Alarm);
     let b := s.blk; MgrReady s m 0x0682 ∧ b.log.alarms[src]? = some a ∧ src ≠ 0xFFFF) ∧
    (let s : State := chg (sl) fun b => { b with log := { b.log with alarms := [(⟨0x0006, 0, 2, 3, 2, (⟨5, 0, 0x1001, 1, 0, 1, 2, some 3, 7, [1, 2]⟩ : LogRec), (⟨5, 0, 0x1001, 1, 0, 1, 2, some 3, 7, [1, 2]⟩ : LogRec), none, true⟩ : Alarm), (⟨0x0006, 0, 2, 3, 2, (⟨5, 0, 0x1001, 1, 0, 1, 2, some 3, 7, [1, 2]⟩ : LogRec), (⟨5, 0, 0x1001, 1, 0, 1, 2, some 3, 7, [1, 2]⟩ : LogRec), none, false⟩ : Alarm)] } };
     let m : Mgr := mg; let src : Nat := 7; let b := s.blk; MgrReady s m 0x0682 ∧ b.log.alarms.length ≤ src ∧ src ≠ 0xFFFF) ∧
    (let s : State := sl; let m : Mgr := mg; let sl : Nat := 3; let x : Slice := slice; let b := s.blk; MgrReady s m 0x0683 ∧
       tget b.quay.slices sl = some x) ∧
    (let s : State := sl; let m : Mgr := mg; let sl : Nat := 5; let b := s.blk; MgrReady s m 0x0683 ∧ tget b.quay.slices sl = none) ∧
    (let s : State := hsl; let m : Mgr := mg; let b := s.blk; MgrReady s m 0x0684 ∧ b.hold.dumpQueue = [] ∧ b.dumpable s.env = true) ∧
    (let s : State := chg hsl fun b => { b with hold := { b.hold with dumpQueue := [dmp, dmp] } }; let m : Mgr := mg; let b := s.blk;
     MgrReady s m 0x0684 ∧ 2 ≤ b.hold.dumpQueue.length) ∧
    (let s : State := sl; let m : Mgr := mg; let ev : Nat := 100; let tr : Nat := 100; let ms : Nat := 100; MgrReady s m 0x0685 ∧ 1 ≤ ev ∧
       ev ≤ 65535 ∧ 1 ≤ tr ∧ tr ≤ 25000000 ∧ 1 ≤ ms ∧ ms ≤ 10000) ∧
    (let s : State := sl; let m : Mgr := mg; let ms : Nat := 20000; MgrReady s m 0x0685 ∧ 10000 < ms) := by
  iterate 13 refine And.intro (by decide +kernel) ?_
  decide +kernel

theorem test_hyp_TallyCountsSamplesAndShows :
    (let c : TlCounter := (.berth 2 5 : TlCounter); let evs : Nat := 4; counterOk c = true ∧ evs < 2 ^ 48) ∧
    (let s : State := sl; let m : Mgr := mg; let c : TlCounter := (.berth 2 5 : TlCounter);
     let cfg : TlCfg := (⟨true, false, true, true, 3, 0, 1⟩ : TlCfg); counterOk c = true ∧ MgrReady s m 0x0601 ∧ cfg.slice < 512 ∧
       TlCfgOk c cfg.event cfg.sub = true) ∧
    (let s : State := sl; let m : Mgr := mg; let c : TlCounter := (.berth 2 5 : TlCounter);
     let cfg : TlCfg := (⟨true, false, true, true, 3, 0, 0x7FF⟩ : TlCfg); counterOk c = true ∧ MgrReady s m 0x0601 ∧ cfg.slice < 512 ∧
       TlCfgOk c cfg.event cfg.sub = false) ∧
    (let s : State := chg sl fun b => b.wr F.TL_BCNT_COUNT 133 77; let m : Mgr := mg; let c : TlCounter := (.berth 2 5 : TlCounter);
     counterOk c = true ∧ MgrReady s m 0x0602) ∧
    (let s : State := sl; let m : Mgr := mg; let n : Nat := 2; let per : Nat := 1000; MgrReady s m 0x0603 ∧ n < 16 ∧ 1 ≤ per ∧ per ≤ 1048575) ∧
    (let s : State := sl; let m : Mgr := mg; let n : Nat := 2; let per : Nat := 2000000; MgrReady s m 0x0603 ∧ n < 16 ∧ 1048575 < per) ∧
    (let s : State := brt job fun x => { x with samples := [sampleRec, sampleRec, sampleRec] }; let m : Mgr := mg; let n : Nat := 0;
     let len : Nat := 64; MgrReady s m 0x0604 ∧ n < 16 ∧ 32 ≤ len) ∧
    (let s : State := sl; let m : Mgr := mg; let p : Nat := 3; let us : Nat := 500; MgrReady s m 0x0605 ∧ p < 16 ∧ 1 ≤ us ∧ us ≤ 10000) ∧
    (let s : State := sl; let m : Mgr := mg; let p : Nat := 3; let us : Nat := 20000; MgrReady s m 0x0605 ∧ p < 16 ∧ 10000 < us) ∧
    (let s : State := chg sl fun b => { b.wr F.TL_BWIN_PEAK 3 9 with tally := { b.tally with window := [(3, 6400), (5, 128)] } }; let b := s.blk;
     b.tally.since + 1000 * b.rd F.TL_BWCTL_WINDOW_US ≤ s.aon.ns) ∧
    (let s : State := chg sl fun b => { b with tally := { b.tally with since := 2000000000 } }; let b := s.blk;
     s.aon.ns < b.tally.since + 1000 * b.rd F.TL_BWCTL_WINDOW_US) ∧
    (let s : State := chg sl fun b => { (b.wr F.TL_PACE_MAX_US 4 9).wr F.TL_PACE_LAST_US 4 3 with fabric := { b.fabric with late := [(9, 5, 4)] } };
     let m : Mgr := mg; let i : Nat := 9; MgrReady s m 0x0607 ∧ i < 512) ∧
    (let s : State := sl; let m : Mgr := mg; let sl : Nat := 3; let va : Nat := 0x1000; let x : Slice := slice; let b := s.blk; MgrReady s m 0x0606 ∧
       tget b.quay.slices sl = some x ∧ x.view = none ∧ va % 4096 = 0 ∧ va ≠ 0 ∧ b.pilot.cache = []) ∧
    (let s : State := sl; let m : Mgr := mg; let sl : Nat := 3; let va : Nat := 0x1001; let x : Slice := slice; let b := s.blk; MgrReady s m 0x0606 ∧
       tget b.quay.slices sl = some x ∧ va % 4096 ≠ 0) ∧
    (let s : State := chg { (stamped sl []) with aon := ⟨2000050000, 1⟩ } fun b => { b with tally := { b.tally with snaps := [(3, (⟨2000000000, 5, 6, 50, [1, 2]⟩ : ViewSnap))] }, quay := { b.quay with slices := [(3, { slice with view := some (0x1000, 1, 4) })] } };
     let sl : Nat := 3; let va : Nat := 0x1000; let h : Nat := 1; let seq : Nat := 4;
     let view : ViewSnap := (⟨2000000000, 5, 6, 50, [1, 2]⟩ : ViewSnap); let x : Slice := { slice with view := some (0x1000, 1, 4) };
     let r : RunView := (s.blk.viewPlace 1).getD ⟨0,0,0,0,0,false,0,false,false⟩; let b := s.blk; sl < 512 ∧ tget b.quay.slices sl = some x ∧
       x.view = some (va, h, seq) ∧ seq + 2 < 2 ^ 64 ∧ tget b.tally.snaps sl = some view ∧ b.viewPlace h = some r ∧ tget b.pilot.dirty sl = none ∧
       s.aon.ns ≤ view.time + 100000) ∧
    (let s : State := chg { (stamped sl []) with aon := ⟨2000500000, 1⟩ } fun b => { b with tally := { b.tally with snaps := [(3, (⟨2000000000, 5, 6, 50, [1, 2]⟩ : ViewSnap))] }, quay := { b.quay with slices := [(3, { slice with view := some (0x1000, 1, 4) })] } };
     let sl : Nat := 3; let va : Nat := 0x1000; let h : Nat := 1; let seq : Nat := 4;
     let view : ViewSnap := (⟨2000000000, 5, 6, 50, [1, 2]⟩ : ViewSnap); let x : Slice := { slice with view := some (0x1000, 1, 4) };
     let r : RunView := (s.blk.viewPlace 1).getD ⟨0,0,0,0,0,false,0,false,false⟩; let b := s.blk; sl < 512 ∧ tget b.quay.slices sl = some x ∧
       x.view = some (va, h, seq) ∧ seq + 2 < 2 ^ 64 ∧ tget b.tally.snaps sl = some view ∧ b.viewPlace h = some r ∧ tget b.pilot.dirty sl = none ∧
       view.time + 100000 < s.aon.ns) := by
  iterate 15 refine And.intro (by decide +kernel) ?_
  decide +kernel

theorem test_hyp_WatchkeeperSamplesGatesAndWakes :
    (let s : State := up; let m : Mgr := mg; let w : Nat := 100; let b := s.blk; MgrReady s m 0x0508 ∧
       b.rd F.WK_CTL_T_THROTTLE ≤ b.rd F.WK_CTL_T_CRIT ∧ b.rd F.WK_CTL_T_CRIT ≤ 114 ∧ 80 ≤ b.rd F.WK_CTL_T_CRIT ∧ 60 ≤ b.rd F.WK_CTL_T_THROTTLE ∧
       b.rd F.WK_CTL_T_RELEASE < b.rd F.WK_CTL_T_THROTTLE ∧ 5 ≤ b.rd F.WK_CTL_V_MARGIN ∧ b.rd F.WK_CTL_V_MARGIN ≤ 100 ∧
       1 ≤ b.rd F.WK_POLICY_BERTH_GATE_MS ∧ 1 ≤ b.rd F.WK_POLICY_DROWSE_IDLE_MS ∧ 50 ≤ w ∧ w ≤ 250) ∧
    (let s : State := up; let m : Mgr := mg; let w : Nat := 500; let b := s.blk; MgrReady s m 0x0508 ∧
       b.rd F.WK_CTL_T_THROTTLE ≤ b.rd F.WK_CTL_T_CRIT ∧ b.rd F.WK_CTL_T_CRIT ≤ 114 ∧ 80 ≤ b.rd F.WK_CTL_T_CRIT ∧ 60 ≤ b.rd F.WK_CTL_T_THROTTLE ∧
       b.rd F.WK_CTL_T_RELEASE < b.rd F.WK_CTL_T_THROTTLE ∧ 5 ≤ b.rd F.WK_CTL_V_MARGIN ∧ b.rd F.WK_CTL_V_MARGIN ≤ 100 ∧
       1 ≤ b.rd F.WK_POLICY_BERTH_GATE_MS ∧ 1 ≤ b.rd F.WK_POLICY_DROWSE_IDLE_MS ∧ 250 < w) ∧
    (let n : Nat := 3; n < 48) ∧
    (let s : State := chg ({ up with aon := ⟨3000000, 1⟩ }) fun b => { b with watch := { b.watch with tempY := [(4, 14000)] } }; let b := s.blk;
     let decides : Prop := b.power.thermTrip = false; decides ∧ s.aon.ns % 1000000 = 0) ∧
    (let s : State := up; s.aon.ns % 1000000 ≠ 0) ∧
    (let s : State := chg (up) fun b => { b with power := { b.power with pdEn := 2 ^ 17 } }; let d : Nat := 17; let b := s.blk; d < 34 ∧
       b.power.pdEn.testBit d = true ∧ b.domUp d = false) ∧
    (let s : State := chg (up) fun b => { b with power := { b.power with pdWant := 2 ^ 17, pdGood := 2 ^ 17 } }; let d : Nat := 17; let b := s.blk;
     d < 34 ∧ b.power.pdWant.testBit d = true ∧ b.power.pdEn.testBit d = false) ∧
    (let s : State := chg (up) fun b => { b with power := { b.power with pdGood := 2 ^ 17 } }; let d : Nat := 17; let b := s.blk; d < 34 ∧
       b.power.pdWant.testBit d = false) ∧
    (let s : State := chg (chg (up) fun b => { b with power := { b.power with pdUp := 2 ^ 34 - 1, pdEn := 2 ^ 34 - 1 } }) fun b => { (b.wr F.BT_STATE_STATE 0 1) with berths := [(0, { Berth.reset with opened := true })] };
     let n : Nat := 0; let b := s.blk; let e := s.env; let decides : Prop := b.power.thermTrip = false; n < 16 ∧ decides ∧ b.bstate n ≠ 9 ∧
       b.gateDue e n = true) ∧
    (let s : State := up; let n : Nat := 2; let b := s.blk; let e := s.env; let decides : Prop := b.power.thermTrip = false; n < 16 ∧ decides ∧
       b.bstate n ≠ 9 ∧ b.gateDue e n = false) ∧
    (let s : State := chg (up) fun b => let b : Block := (b.wr F.WK_POLICY_DROWSE_ALLOW 0 1).wr F.WK_POLICY_ANCHOR_ALLOW 0 1;
     b.wr F.WK_STATE_STATE 0 0; let b := s.blk; let e := s.env; let decides : Prop := b.power.thermTrip = false; let st := b.rd F.WK_STATE_STATE;
     decides ∧ b.quiet = true ∧ b.started e = true ∧ b.hold.powerWarn = false ∧ st = 0 ∧ b.rd F.WK_POLICY_DROWSE_ALLOW = 1 ∧
       b.watch.quietSince + b.rd F.WK_POLICY_DROWSE_IDLE_MS * 1000000 ≤ s.aon.ns) ∧
    (let s : State := up; let b := s.blk; let e := s.env; let decides : Prop := b.power.thermTrip = false; let st := b.rd F.WK_STATE_STATE; decides ∧
       b.quiet = true ∧ b.started e = true ∧ b.hold.powerWarn = false ∧ st = 0 ∧ b.rd F.WK_POLICY_DROWSE_ALLOW = 0) ∧
    (let s : State := chg (on up) fun b => let b : Block := (b.wr F.WK_POLICY_DROWSE_ALLOW 0 1).wr F.WK_POLICY_ANCHOR_ALLOW 0 1;
     b.wr F.WK_STATE_STATE 0 4; let b := s.blk; let e := s.env; let decides : Prop := b.power.thermTrip = false; let st := b.rd F.WK_STATE_STATE;
     decides ∧ b.quiet = true ∧ b.started e = true ∧ b.hold.powerWarn = false ∧ st = 4 ∧ (∀ x ∈ b.hold.stks, x.2.owes = false)) ∧
    (let s : State := chg (up) fun b => let b : Block := b; b.wr F.WK_STATE_STATE 0 2; let cause : Nat := 4; let src : Nat := 0; let b := s.blk;
     let decides : Prop := b.power.thermTrip = false; let st := b.rd F.WK_STATE_STATE; decides ∧ st = 2 ∧ cause ≠ 3 ∧ b.wakes cause src = true) ∧
    (let s : State := chg (up) fun b => let b : Block := b; b.wr F.WK_STATE_STATE 0 2; let cause : Nat := 2; let src : Nat := 0; let b := s.blk;
     let decides : Prop := b.power.thermTrip = false; let st := b.rd F.WK_STATE_STATE; decides ∧ st = 2 ∧ cause ≠ 3 ∧ b.wakes cause src = false) ∧
    (let s : State := chg (up) fun b => let b : Block := (b.wr F.WK_POLICY_DROWSE_ALLOW 0 1).wr F.WK_POLICY_ANCHOR_ALLOW 0 1;
     b.wr F.WK_STATE_STATE 0 2; let b := s.blk; let decides : Prop := b.power.thermTrip = false; let st := b.rd F.WK_STATE_STATE; decides ∧ st = 2 ∧
       b.rd F.WK_POLICY_ANCHOR_ALLOW = 1 ∧ b.quay.slices = [] ∧ b.storeBusy = false ∧ b.watch.drowseSince + 1000000000 ≤ s.aon.ns) ∧
    (let s : State := chg (up) fun b => let b : Block := { ((b.wr F.WK_POLICY_DROWSE_ALLOW 0 1).wr F.WK_POLICY_ANCHOR_ALLOW 0 1) with watch := { b.watch with drowseSince := 2000000000 } };
     b.wr F.WK_STATE_STATE 0 2; let b := s.blk; let decides : Prop := b.power.thermTrip = false; let st := b.rd F.WK_STATE_STATE; decides ∧ st = 2 ∧
       b.rd F.WK_POLICY_ANCHOR_ALLOW = 1 ∧ b.quay.slices = [] ∧ b.storeBusy = false ∧ s.aon.ns < b.watch.drowseSince + 1000000000) ∧
    (let s : State := chg (mem up) fun b => let b : Block := (b.wr F.WK_POLICY_DROWSE_ALLOW 0 1).wr F.WK_POLICY_ANCHOR_ALLOW 0 1;
     b.wr F.WK_STATE_STATE 0 3; let b := s.blk; let decides : Prop := b.power.thermTrip = false; let st := b.rd F.WK_STATE_STATE; decides ∧ st = 3) ∧
    (let s : State := up; let b := s.blk; let st := b.rd F.WK_STATE_STATE; st ≠ 3) ∧
    (let s : State := hsl; let b := s.blk; b.hold.powerWarn = false) ∧
    (let s : State := chg hsl fun b => { b with hold := { b.hold with powerWarn := true } }; let b := s.blk; b.hold.powerWarn = true) ∧
    (let s : State := up; let b := s.blk; b.hmUp = true) ∧
    (let s : State := up; let b := s.blk; let decides : Prop := b.power.thermTrip = false;
     let kick : Prop := b.hmUp = true ∧ decides ∧ b.watch.wdogStopped = false; kick ∧ b.watch.warned = false ∧
       b.watch.kicked + b.rd F.WK_WDOG_PERIOD_MS * 500000 ≤ s.aon.ns ∧ b.rd F.BL_TARGET_STATE 21 = 0) ∧
    (let s : State := chg (up) fun b => { b with watch := { b.watch with warned := true } }; let b := s.blk;
     let decides : Prop := b.power.thermTrip = false; let kick : Prop := b.hmUp = true ∧ decides ∧ b.watch.wdogStopped = false; kick ∧
       b.watch.warned = true) ∧
    (let s : State := up; let b := s.blk; let decides : Prop := b.power.thermTrip = false;
     let kick : Prop := b.hmUp = true ∧ decides ∧ b.watch.wdogStopped = false; kick ∧ b.watch.kicked + b.rd F.WK_WDOG_PERIOD_MS * 1000000 ≤ s.aon.ns) ∧
    (let s : State := chg (up) fun b => { b with watch := { b.watch with kicked := 2000000000 } }; let b := s.blk;
     let decides : Prop := b.power.thermTrip = false; let kick : Prop := b.hmUp = true ∧ decides ∧ b.watch.wdogStopped = false; kick ∧
       s.aon.ns < b.watch.kicked + b.rd F.WK_WDOG_PERIOD_MS * 1000000) := by
  iterate 25 refine And.intro (by decide +kernel) ?_
  decide +kernel

theorem test_hyp_RegisterAccessesAndHostPort :
    (let s : State := up; let addr : Nat := (RegKind.wkCtl.addr 0); let i : Nat := 0; let kind : RegKind := RegKind.wkCtl; let b := s.blk;
     let own : List RegKind := [.btCtl, .btSpareMap, .btArrayHealth, .btRemap, .plGranule, .bwRate, .bwSched, .tlBcfg, .tlGcfg, .tlSamp, .tlBwctl, .wkWdog, .qySquota, .plSquota, .mfPctl, .mfSquota, .blRaise, .blComplete, .blFcomplete, .blTarget, .mbPost, .mbTake, .mbReply, .mbCfg, .mbState, .mbAck, .mbStat, .mbNotify];
     b.harbour.down = false ∧ addr % 8 = 0 ∧ regAt addr = some (kind, i) ∧ kind ∉ own) ∧
    (let s : State := up; let kind : RegKind := .qySquota; let i : Nat := 3; let addr : Nat := RegKind.qySquota.addr 3; let b := s.blk;
     b.harbour.down = false ∧ addr % 8 = 0 ∧ regAt addr = some (kind, i) ∧ kind ∈ [RegKind.qySquota, .plSquota, .mfPctl, .mfSquota]) ∧
    (let s : State := chg up fun b => (b.wr F.WK_STATE_WAKES 0 9).wr F.WK_STATE_WAKE_CAUSE 0 3; let addr : Nat := (RegKind.wkState.addr 0);
     let i : Nat := 0; let kind : RegKind := RegKind.wkState; let b := s.blk; b.harbour.down = false ∧ addr % 8 = 0 ∧ regAt addr = some (kind, i) ∧
       kind ∉ [RegKind.blClaim, .blFclaim, .fyLate]) ∧
    (let s : State := chg up fun b => (b.wr ⟨.lbHang, 32, 16⟩ 0 9).wr ⟨.lbHang, 48, 16⟩ 0 9; let ev : Nat := 3; let b := s.blk;
     b.harbour.down = false ∧ 1 ≤ ev) ∧
    (let s : State := up; let addr : Nat := 4; let bits : Nat := 64; let b := s.blk; b.harbour.down = false ∧ (bits ≠ 64 ∨ addr % 8 ≠ 0)) ∧
    (let s : State := up; let g : Nat := 0; let b := s.blk; g < 8 ∧ b.awake (.core g) = false) ∧
    (let s : State := on up; let addr : Nat := (RegKind.wkCtl.addr 0); let i : Nat := 0; let g : Nat := 0; let kind : RegKind := RegKind.wkCtl;
     let b := s.blk; g < 8 ∧ b.awake (.core g) = true ∧ addr % 8 = 0 ∧ regAt addr = some (kind, i) ∧ b.granted (.core g) kind i true = false) ∧
    (let s : State := on up; let addr : Nat := (RegKind.wkCtl.addr 0); let i : Nat := 0; let g : Nat := 0; let kind : RegKind := RegKind.wkCtl;
     let b := s.blk; g < 8 ∧ b.awake (.core g) = true ∧ addr % 8 = 0 ∧ regAt addr = some (kind, i) ∧ b.granted (.core g) kind i false = false) ∧
    (let s : State := chg (up) fun b => { b with harbour := { b.harbour with down := true } }; let b := s.blk; b.harbour.down = true) ∧
    (let s : State := hup up; let addr : Nat := RegKind.wkCtl.addr 0 + 2; let bits : Nat := 32; let b := s.blk; b.hostUp = true ∧
       (bits ≠ 64 ∨ addr % 8 ≠ 0) ∧ (¬ (bits = 32 ∧ addr % 4 = 0))) ∧
    (let s : State := up; let b := s.blk; b.hostUp = false) ∧
    (let s : State := hup gran; let off : Nat := 0x1020; let n : Nat := 55; let len : Nat := 32; let write : Bool := true;
     let data : List Byte := (List.replicate 32 5); let b := s.blk; let size := if write then data.length else len; b.hostUp = true ∧ 0 < size ∧
       b.backed s.env off = true ∧ b.ports.opened.contains (off / 2 ^ 36) = true ∧ off % 128 + size ≤ 128 ∧ b.backed s.env (off + size - 1) = true ∧
       b.pasidSlice n = none) ∧
    (let s : State := hup gran; let off : Nat := 0x1020; let n : Nat := 5; let len : Nat := 32; let sl : Nat := 3;
     let t : Nat := (((s.blk.freeTag 0 0).getD 77)); let write : Bool := true; let data : List Byte := (List.replicate 32 5); let b := s.blk;
     let size := if write then data.length else len; b.hostUp = true ∧ 0 < size ∧ b.backed s.env off = true ∧
       b.ports.opened.contains (off / 2 ^ 36) = true ∧ off % 128 + size ≤ 128 ∧ b.backed s.env (off + size - 1) = true ∧ b.pasidSlice n = some sl ∧
       b.granuleOk off sl (((tget b.quay.slices sl).map (·.baseCtx)).getD 0) = true ∧ b.ports.isolated.contains (off / 2 ^ 36) = false ∧
       b.queuesAt { memReq .bar2 off size write sl (((tget b.quay.slices sl).map (·.baseCtx)).getD 0) 0 with data := if write then data else [] } = false ∧
       b.freeTag (off / 2 ^ 36) (off / 128 % 4) = some t) ∧
    (let s : State := hup up; let off : Nat := 2 ^ 39; let len : Nat := 32; let write : Bool := true; let data : List Byte := (List.replicate 32 5);
     let b := s.blk; let size := if write then data.length else len; b.hostUp = true ∧ 0 < size ∧ b.backed s.env off = false) ∧
    (let s : State := chg (hup up) fun b => { b with host := { b.host with msix := [(5, ⟨0x1000, 7, true, true⟩)] } }; let n : Nat := 5;
     let w : BitVec 32 := 0; let x : MsixEntry := (s.blk.msixEntry n); let b := s.blk; b.hostUp = true ∧ n < 2048 ∧ x = b.msixEntry n ∧
       w.toNat % 2 = 0 ∧ x.pending = true ∧ b.host.msixEnable = true ∧ b.host.msixMask = false) ∧
    (let s : State := hup up; let n : Nat := 5; let w : BitVec 32 := 0xFFFFFFFF; let x : MsixEntry := (s.blk.msixEntry n); let b := s.blk;
     b.hostUp = true ∧ n < 2048 ∧ x = b.msixEntry n ∧ w.toNat % 2 = 1) ∧
    (let s : State := hup up; let off : Nat := 40000; let b := s.blk; b.hostUp = true ∧ 32768 ≤ off) ∧
    (let s : State := up; let tag : Nat := 9; let b := s.blk; tget b.host.reads tag = none) ∧
    (let s : State := chg up fun b => { b with host := { b.host with reads := [(9, .other)] } }; let tag : Nat := 9; let b := s.blk;
     tget b.host.reads tag = some .other) ∧
    (let s : State := chg up fun b => { b with host := { b.host with reads := [(9, .asked mreq)] } }; let tag : Nat := 9; let r : MemReq := mreq;
     let b := s.blk; tget b.host.reads tag = some (.asked r) ∧ r.who = .bar2 ∧ r.write = false) ∧
    (let s : State := chg (brt sl fun x => { x with me0 := [bufX] }) fun b => { b with host := { b.host with reads := [(9, .transfer 0 0 0 0 0)] } };
     let off : Nat := 0; let tag : Nat := 9; let p : Nat := 0; let sub : Nat := 0; let serial : Nat := 0; let k : Nat := 0; let j : Nat := 0;
     let store : Nat := 0; let tr : Xfer := bufX; let b := s.blk; tget b.host.reads tag = some (.transfer p sub serial j store) ∧ sub < 2 ∧
       (b.berth p).eng sub = [tr] ∧ tr.serial = serial ∧ tr.mv = .buffer false k off ∧ b.enginesRun p = false) := by
  iterate 20 refine And.intro (by decide +kernel) ?_
  decide +kernel

theorem test_hyp_TilesAddDivideAndCombineExactly :
    (([some (1, 2), none] : List (Option (Int × Int))).Perm [none, some (1, 2)] ∧ (isMx opA.fmt || isMx opB.fmt) = true ∧ 32 % 32 = 0) ∧
    (isMx opA.fmt = true ∧ 32 % 32 = 0) ∧
    (let d : Tile := ({ Tile.reset with q := [(0, 5), (7, 9)], anchor := 3, empty := false, count := 3 } : Tile);
     let s : Tile := ({ Tile.reset with q := [(0, 5), (7, 9)], anchor := 3, empty := false, count := 3 } : Tile); d.fits s = true ∧ (s.q.map (·.1)).Nodup ∧ d.empty = false) ∧
    (let d : Tile := Tile.reset; let s : Tile := ({ Tile.reset with q := [(0, 5), (7, 9)], anchor := 3, empty := false, count := 3 } : Tile);
     d.fits s = true ∧ (s.q.map (·.1)).Nodup ∧ d.empty = true ∧ s.empty = false) := by
  refine ⟨by decide +kernel, by decide +kernel, by decide +kernel, by decide +kernel⟩

theorem test_hyp_EmptyQueueIsOneClockCycle :
    (∃ b, (chg up fun b => { b with harbour := { b.harbour with deferred := [.hangScan] } }).blk.turn = some (.hangScan, b)) ∧
    up.pending = [] ∧ up.blk.turn = none ∧ up.blk.calm ∧ (up.aon.ns + 10) % 2 ^ 64 % 1000000 ≠ 0 := ⟨⟨_, rfl⟩, rfl, rfl, by unfold Block.calm; decide +kernel, by decide +kernel⟩

theorem test_hyp_EveryWellFormedCommandAnswers : (Instr.coreReset 7).wf = true := by decide +kernel

theorem test_hyp_EveryStepKeepsTheInvariant :
    { sl with pending := [.hangScan] }.Inv sl.ties sl.fuses ∧ ∃ t, step { sl with pending := [.hangScan] } = .next t := by
  refine ⟨⟨rfl, ⟨rfl, by decide +kernel⟩, by decide +kernel, by decide +kernel, ?_⟩, _, rfl⟩
  unfold State.queueWf
  decide +kernel

theorem test_hyp_ManagerCommandsNeedAuthority :
    (mgrOf (.debugUnlock mg) = some (mg, 0x0208) ∧ (chg sl fun b => { b with harbour := { b.harbour with down := true } }).blk.harbour.down = true) ∧
    (mgrOf (.debugUnlock ⟨2, 9⟩) = some (⟨2, 9⟩, 0x0208) ∧ sl.blk.harbour.down = false ∧ sl.blk.mayCommand sl.env ⟨2, 9⟩ 0x0208 = false) ∧
    (false = true → sl.blk.harbour.inTurn = true) := by
  refine ⟨?_, ?_, fun h => nomatch h⟩
  · decide +kernel
  · decide +kernel

theorem test_hyp_ManagerCommandsChangeOnlyTheirPart :
    (∃ t, exec (.holdStatus mg 0) sl = .next t) ∧ (∃ t, exec (.leaseRelease mg) sl = .next t) ∧ ∃ t, exec (.partitionCreate mg 1 16) sl = .next t :=
  ⟨⟨_, rfl⟩, ⟨_, rfl⟩, ⟨_, rfl⟩⟩

theorem test_hyp_OtherCommandsChangeOnlyTheirPart :
    (∃ t, exec (.blRaise .harbourmaster 300) sl = .next t) ∧ (∃ t, exec (.linkIdleEntry 1) sl = .next t) ∧ ∃ t, exec .wdogWarning sl = .next t :=
  ⟨⟨_, rfl⟩, ⟨_, rfl⟩, ⟨_, rfl⟩⟩

end Sys2Proof.Tests
end

section
/-! SUPPORT. SCALAR arithmetic (R172, R173): the model's operations by function code are the rows of the spec's tables, and what an instruction of the class leaves behind. -/

namespace Sys2Proof.Machine

open Sys2Proof

/-- The entry of a table that lists a function's values from 0 on. -/
theorem lt_and_eq_of_getElem?_map_range {α : Type} {f : Nat → α} {n k : Nat} {v : α}
    (h : ((List.range n).map f)[k]? = some v) : k < n ∧ f k = v := by
  obtain ⟨hk, hv⟩ := List.getElem?_eq_some_iff.mp h
  exact ⟨by simpa using hk, by simpa using hv⟩

/-- sdiv by zero, in the order of its function codes: quotients are all ones, remainders the dividend (R173). -/
theorem sdivOp_table_zero (a : Word) :
    (List.range 4).map (fun fn => sdivOp fn a 0) = [BitVec.allOnes 64, BitVec.allOnes 64, a, a] := rfl

/-- sdiv by a divisor other than zero, in the order of its function codes (R173). -/
theorem sdivOp_table_ne_zero (a : Word) {z : Word} (hz : z ≠ 0) :
    (List.range 4).map (fun fn => sdivOp fn a z) =
      [BitVec.ofInt 64 (a.toInt.tdiv z.toInt), a / z, BitVec.ofInt 64 (a.toInt.tmod z.toInt), a % z] := by
  simp only [List.range, List.range.loop, List.map, sdivOp, if_neg hz]

/-- Where predication is off and the function code is not beyond the row's largest, the checks of a SCALAR arithmetic row pass (R161, R204). -/
theorem firstReason_peBad_fn {f : IFields} {m : Nat} (hpe : f.pe = false) (hfn : f.fn ≤ m) :
    firstReason [peBad f, (decide (m < f.fn), 0x05)] = none := by
  simp [firstReason, peBad, hpe, hfn]

section
variable {s : State} {n : Nat} {w : IWord} {st : Stream}

/-- salu writes its operation's value to sRD and falls through (R172). -/
theorem issued_salu (h : CanIssue s n .salu w st) (hpe : (decodeFields w).pe = false) (hin : st.inCode (st.pc + 16))
    (hfn : (decodeFields w).fn ≤ 13) :
    let f := decodeFields w
    let r := (s.blk.berth n).regs
    Issued s (.salu n w) n (r.setS f.rd (saluOp f.fn (r.sreg f.ra) (pickB f.fl13 f.imm r f.rb)))
      (st.movedTo (s.blk.berth n) (st.pc + 16)) :=
  berthInstr_regs h _ _ (firstReason_peBad_fn hpe hfn) _ rfl hin _ rfl

/-- smul writes its operation's value to sRD and falls through (R173). -/
theorem issued_smul (h : CanIssue s n .smul w st) (hpe : (decodeFields w).pe = false) (hin : st.inCode (st.pc + 16))
    (hfn : (decodeFields w).fn ≤ 2) :
    let f := decodeFields w
    let r := (s.blk.berth n).regs
    Issued s (.smul n w) n (r.setS f.rd (smulOp f.fn (r.sreg f.ra) (r.sreg f.rb))) (st.movedTo (s.blk.berth n) (st.pc + 16)) :=
  berthInstr_regs h _ _ (firstReason_peBad_fn hpe hfn) _ rfl hin _ rfl

/-- sdiv writes its operation's value to sRD and falls through (R173). -/
theorem issued_sdiv (h : CanIssue s n .sdiv w st) (hpe : (decodeFields w).pe = false) (hin : st.inCode (st.pc + 16))
    (hfn : (decodeFields w).fn ≤ 3) :
    let f := decodeFields w
    let r := (s.blk.berth n).regs
    Issued s (.sdiv n w) n (r.setS f.rd (sdivOp f.fn (r.sreg f.ra) (r.sreg f.rb))) (st.movedTo (s.blk.berth n) (st.pc + 16)) :=
  berthInstr_regs h _ _ (firstReason_peBad_fn hpe hfn) _ rfl hin _ rfl

end

/-- Settles O5: each table of the statement lists the model's operation by function code, so an entry of it is the value the issued instruction writes. -/
theorem scalarArithmeticWritesItsResult : Obligations.ScalarArithmeticWritesItsResult := by
  intro s n w st f r x a y z salu smul sdiv hpe hin
  have hsalu : salu = (List.range 14).map fun fn => saluOp fn a (pickB f.fl13 f.imm r f.rb) := rfl
  have hsmul : smul = (List.range 3).map fun fn => smulOp fn a z := rfl
  have hsdiv : sdiv = (List.range 4).map fun fn => sdivOp fn a z := by
    by_cases hz : z = 0
    · rw [hz, sdivOp_table_zero]
      exact if_pos hz
    · rw [sdivOp_table_ne_zero a hz]
      exact if_neg hz
  refine ⟨fun v h hv => ?_, fun v h hv => ?_, fun v h hv => ?_⟩
  · rw [hsalu] at hv
    obtain ⟨hfn, rfl⟩ := lt_and_eq_of_getElem?_map_range hv
    exact issued_salu h hpe hin (Nat.le_of_lt_succ hfn)
  · rw [hsmul] at hv
    obtain ⟨hfn, rfl⟩ := lt_and_eq_of_getElem?_map_range hv
    exact issued_smul h hpe hin (Nat.le_of_lt_succ hfn)
  · rw [hsdiv] at hv
    obtain ⟨hfn, rfl⟩ := lt_and_eq_of_getElem?_map_range hv
    exact issued_sdiv h hpe hin (Nat.le_of_lt_succ hfn)

end Sys2Proof.Machine
end

section
/-! SUPPORT. CTRL instructions on a berth that quiesces (R145, R149, R204): the stop of a job takes the stream of a leaving berth away, where the statement about control asks for a stopped stream. -/

namespace Sys2Proof.Machine

open Sys2Proof

/-- The stream of the counterexample: of command 5, at the one instruction of its code. -/
def quiescingStream : Stream :=
  { ctx := 7, slice := 3, job := 5, prog := 100, codeOff := 0, codeLen := 16, rank := 0, streams := 1, args := [], moors := [], moorOff := 0, pc := 0
    loops := [], wait := none, ended := false, stopped := false, vflags := 0, atBar := false, sigs := [], copies := [], digestOwed := false, digMem := []
    products := [] }

/-- Its command: a running TENSOR command with status 0. -/
def quiescingCmd : Cmd :=
  { q := 1, slice := 3, hdr := ⟨false, false, false, 0, 7, 0x42, 0x8000⟩, sync := ⟨none, none, none⟩, met0 := false, met1 := false
    body := .tensor ⟨0x10000, [], 1, ⟨144, 128, 16, 0, 0, 0⟩, ⟨0, 0, 0, 0, 0, 0, 0, false⟩, [], 0, 0⟩
    bufs := [], heads := [], ph := .running, status := 0, detail := 0, faultBuf := none, result := 0, anchorFlags := false, fallback := false
    noSignal := false, units := [0], launchPos := none, since := 0, ran := true, ready := false, busy := [], task := none, suspect := 0
    aborting := false, copied := 0 }

/-- Berth 0 is Running by BT_STATE, its stream can issue, and yet it quiesces for a save. The model's `quiesce` sets STATE to Saving as well, but nothing in the statement's hypotheses shuts this state out. -/
def quiescingState : State :=
  let b := State.reset.blk.wr F.BT_STATE_STATE 0 bsRunning
  { State.reset with blk := { b with
      quay := { b.quay with cmds := [(5, quiescingCmd)] }
      berths := [(0, { Berth.reset with stream := some quiescingStream, quiescing := some ⟨none, 0, 0, []⟩ })] } }

/-- A nop (the word 0) can issue there. -/
theorem quiescingState_canIssue : CanIssue quiescingState 0 .nop 0 quiescingStream := ⟨by decide, rfl, rfl⟩

/-- The nop falls through beyond the code, and the stop of the job scrubs the quiescing berth: no stream is left on it. -/
theorem quiescingState_nop_leaves_no_stream :
    ∃ b', Gives (.nop 0 0) quiescingState b' ∧ (b'.berth 0).stream = none :=
  ⟨_, rfl, rfl⟩

/-- A command gives one block. -/
theorem Gives.unique {c : Instr} {s : State} {b b' : Block} (h : Gives c s b) (h' : Gives c s b') : b = b' := by
  have e := h.symm.trans h'
  injection e with e
  exact congrArg State.blk e

/-- Refutes O4: its clauses about control that leaves the code ask for the stopped stream on the berth, but the stop of a job scrubs a berth that quiesces (R149), and a berth whose BT_STATE is Running may quiesce in a state of the model: `quiescingState`, with a nop at the end of the code. -/
theorem not_controlInstructionsMoveTheStream : ¬ Obligations.ControlInstructionsMoveTheStream := by
  intro h
  obtain ⟨_, _, _, _, _, _, _, hstops⟩ := h quiescingState 0 0 quiescingStream quiescingCmd
  obtain ⟨hnop, _⟩ := hstops rfl rfl (by decide)
  obtain ⟨b', st', _, hg, _, hst, _⟩ := hnop quiescingState_canIssue (by decide) (by decide)
  obtain ⟨b, hb, hnone⟩ := quiescingState_nop_leaves_no_stream
  rw [hg.unique hb, hnone] at hst
  cases hst

end Sys2Proof.Machine
end
